-- ==== Sys2Proof/Word.lean ====
section
/-! DEFINITION. The word types of Zeyth-2's registers and identifiers, and their plainest arithmetic. -/
namespace Sys2Proof

/-- A 32-bit register. -/
abbrev W32 := BitVec 32
/-- A 64-bit register, entry or address. -/
abbrev W64 := BitVec 64
/-- One byte of a mailbox area. -/
abbrev Byte := BitVec 8
/-- A tenant ID, 0 to 63 (R3). -/
abbrev Tenant := BitVec 6
/-- A global target slot (R6). -/
abbrev Slot := BitVec 16
/-- A 24-bit source ID (R4). -/
abbrev Src := BitVec 24
/-- A chip ID of the ring (R281). -/
abbrev Chip := BitVec 4
/-- A flit of the Chain (R265). -/
abbrev Flit := BitVec 256

/-- One more, stopping at the largest value: the counters that the spec calls saturating. -/
def satInc {w : Nat} (x : BitVec w) : BitVec w :=
  if x = BitVec.allOnes w then x else x + 1

/-- `n` more, stopping at the largest value. -/
def satAdd {w : Nat} (x : BitVec w) (n : Nat) : BitVec w :=
  if x.toNat + n < 2 ^ w then BitVec.ofNat w (x.toNat + n) else BitVec.allOnes w

/-- One bit as a word of width `w`. -/
def bit (w : Nat) (b : Bool) : BitVec w := if b then 1 else 0

/-- A field placed at bit `lo` of a word of width `w`. -/
def place {n : Nat} (w : Nat) (x : BitVec n) (lo : Nat) : BitVec w :=
  x.setWidth w <<< lo

/-- The field [lo + n - 1 : lo] of a word. -/
def field {w : Nat} (x : BitVec w) (lo n : Nat) : BitVec n :=
  (x >>> lo).setWidth n

end Sys2Proof
end

