-- ==== Sys2Proof/Syntax.lean ====
section
/-! DEFINITION. The commands of Zeyth-2: one constructor of `Instr` per row of the opcode table, and the operand types. -/
namespace Sys2Proof

/-- The path by which an access enters, which fixes its principal (R162). -/
inductive Path where
  | tenant (t : Tenant)
  | manager
  | smbus
  deriving DecidableEq, Repr

/-- Length and byte enables of a write to a target page: one full DW, two full DW, or anything else (R136, R370). -/
inductive WriteForm where
  | dw
  | qw
  | other
  deriving DecidableEq, Repr

/-- A request that addresses the intake window, as the switch presents it (R52, R57, R384). -/
structure IntakeReq where
  addr      : W64
  requester : BitVec 16
  owner     : BitVec 7
  lengthDw  : BitVec 10
  firstBe   : BitVec 4
  lastBe    : BitVec 4
  poisoned  : Bool
  /-- A Memory Write; otherwise a read, AtomicOp or other non-posted request. -/
  posted    : Bool
  /-- The beat arrived with a parity error (R337). -/
  parityErr : Bool
  deriving DecidableEq, Repr

/-- The stored arrays of R20 and CTRL RAM, in the coding of `MW_RAS_FIRST.ARRAY` (R351). -/
inductive ArrayKind where
  | config | state | target | system | index | clasp | capture | ctrl
  deriving DecidableEq, Repr

/-- A stored line: its array, its bank and its number there (R20, R21). -/
structure LineId where
  arr   : ArrayKind
  bank  : Nat
  line  : Nat
  deriving DecidableEq, Repr

/-- A change of stored bits that no write made: the error vector put onto one line's codeword. -/
structure Upset where
  line : LineId
  err  : BitVec 280
  deriving DecidableEq, Repr

/-- What the world supplies in one frame: whether the banks were asked for more than they have (R24), the levels of
the 96 wired inputs at their sampling instants (R299), whether the spare engine's self-test mismatched (R339), the
chip's timebase at the tick in 1/16 core cycles (R270), and the lines upset since the last tick. -/
structure TickIn where
  budgetOver : Bool
  wired      : BitVec 96
  spareFault : Bool
  now        : W32
  upsets     : List Upset
  deriving DecidableEq, Repr

/-- One register access of a window: offset, whole bytes asked for, whether every byte enable is set (R370), and the requester
ID of a source operation. -/
structure RegAccess where
  path   : Path
  offset : BitVec 22
  bytes  : Nat
  fullBe : Bool
  write  : Bool
  data   : W64
  requester : BitVec 16
  deriving DecidableEq, Repr

/-- What one start-up step meets (R353, R362). -/
inductive StepFate where
  | pass
  /-- Passes in the degraded sense of R362, with this detail. -/
  | degraded (detail : BitVec 4)
  | fail (detail : BitVec 4)
  deriving DecidableEq, Repr

/-- The six cumulative credit counts of R270: header and data of EDGE, CTRL and MGMT. -/
structure Credits where
  edgeH : BitVec 12 := 0
  edgeD : BitVec 12 := 0
  ctrlH : BitVec 12 := 0
  ctrlD : BitVec 12 := 0
  mgmtH : BitVec 12 := 0
  mgmtD : BitVec 12 := 0
  deriving DecidableEq, Repr

/-- What a port's lanes gave in a training: those with signal, and the symbol errors of PAM4_CHECK at each code tried, by
lane (R253, R255). -/
structure LaneFate where
  signal : BitVec 3
  errors : List (List Nat)
  deriving DecidableEq, Repr

/-- What a port met in step 6 or 7 (R353): a peer trained to UP, no signal, still training, or a failure. -/
inductive PortFate where
  | up (lanes : LaneFate) (peer : Chip) (lanesTx lanesRx : BitVec 3) (hopDelay : BitVec 24) (adv : Credits)
  | noPeer
  | pending
  | fail (lanes : LaneFate) (detail : BitVec 4)
  deriving DecidableEq, Repr

/-- What the board, the fuses, the flash and the arrays give one start (R353 to R367). -/
structure StartEnv where
  /-- The five samples of BEAD[15:0] (R296), used by a cold start. -/
  straps      : List (BitVec 16)
  managerPort : BitVec 7
  upstream    : BitVec 80
  linkUp      : BitVec 80
  present     : BitVec 80
  contained   : BitVec 80
  /-- Spare rows used by fuse entries, for banks 0 to 47 in the numbering of `MW_RAS_INJECT.BANK` (R343). -/
  fuseSpares  : List (Nat × BitVec 14 × Nat)
  calibration : BitVec 18
  /-- Copies of the records in flash that read back with errors: A and B (R360). -/
  flashBadA   : Bool
  flashBadB   : Bool
  step2       : StepFate
  /-- Step 3: rows that BIST finds faulty, bank and row, and whether a line of a CORE array or the capture FIFO, and of CTRL
RAM, is faulty. -/
  bistRows    : List (Nat × BitVec 14)
  bistCore    : Bool
  bistCtrl    : Bool
  step4       : StepFate
  /-- Step 5: quarters and target banks that hold a bank failing a verify read, and whether another array fails one. -/
  verifyTbl   : BitVec 4
  verifyTgt   : BitVec 16
  verifyCore  : Bool
  east        : PortFate
  west        : PortFate
  step9       : StepFate
  step10      : StepFate
  /-- What the first tick meets (R353). -/
  tick        : TickIn
  /-- LKT_CLK cycles from the assertion of a block reset to the first tick of step 9 (R221). -/
  lktCount    : BitVec 48
  durationUs  : W32
  flashCopyOk : Bool
  deriving DecidableEq, Repr

/-- Outcome of reading and checking an image (R229). -/
inductive ImageFate where
  | staged (version : W32)
  | signatureBad
  | readFailed
  | formatBad
  deriving DecidableEq, Repr

/-- The part of the block a rejected internal beat was crossing, when its repeat fails too (R338). -/
inductive BusPath where
  | engine (physical : BitVec 3)
  | tableBank (line : LineId)
  | targetBank (line : LineId)
  | fabricInbound (tenant : Option Tenant)
  | other
  deriving DecidableEq, Repr

/-- What retention did to the memories of a domain: the lines, spare and canary rows changed (R324, R328, R329). -/
structure Retention where
  upsets : List Upset
  deriving DecidableEq, Repr

/-- A Chain port. -/
inductive PortId where
  | east
  | west
  deriving DecidableEq, Repr

/-- A traffic class of the Chain (R268). -/
inductive FlitClass where
  | edge | ctrl | mgmt
  deriving DecidableEq, Repr

/-- One access shifted in for the debug master (R388). -/
structure DebugReq where
  write : Bool
  size  : BitVec 2
  addr  : BitVec 40
  data  : W32
  deriving DecidableEq, Repr

/-- An access that the Grauth controller makes, for MPU-C to check (R232, R238). Kind 0 read, 1 write, 2 fetch. -/
structure CoreAccess where
  kind : BitVec 2
  size : BitVec 6
  addr : BitVec 40
  deriving DecidableEq, Repr

/-- A command: one row of the opcode table. -/
inductive Instr where
  | coldReset
  | blockReset
  | frameTick (inp : TickIn)
  | timerFire (x : Slot)
  | claspHoldoffEnd (g : BitVec 12)
  | periodChangeApply
  | decisionCommit (engine : BitVec 2) (mismatch : Bool)
  | decisionWithdraw (engine : BitVec 2)
  | reissueCommit (engine : BitVec 2) (mismatch : Bool)
  | intakeWrite (w : IntakeReq)
  | intakeDrain
  | captureDrain
  | srcSetPending (p : Path) (data : W32) (requester : BitVec 16)
  | srcClrPending (p : Path) (data : W32)
  | srcSetEnable (p : Path) (data : W32)
  | srcClrEnable (p : Path) (data : W32)
  | srcClrSticky (p : Path) (data : W32)
  | systemLaneTake
  | portLinkChange (port : BitVec 7) (level : Bool)
  | portPresenceChange (port : BitVec 7) (level : Bool)
  | portContained (port : BitVec 7)
  | corValid (port : BitVec 7)
  | uncValid (port : BitVec 7)
  | chainEvent (p : Path) (data : W32)
  | tgtComplete (p : Path) (page : BitVec 10) (form : WriteForm) (data : W64)
  | tgtCompleteSeq (p : Path) (page : BitVec 10) (form : WriteForm) (data : W64)
  | completionDrain
  | dropNotice (slot : Slot) (seq : BitVec 16) (parityErr : Bool)
  | tgtPrivSet (p : Path) (page : BitVec 10) (data : W32)
  | tgtPrivClr (p : Path) (page : BitVec 10) (data : W32)
  | tgtPrivEnable (p : Path) (page : BitVec 10) (data : W32)
  | privateLaneApply
  | tgtCtrl (p : Path) (page : BitVec 10) (data : W32)
  | tgtTimerCtrl (p : Path) (page : BitVec 10) (data : W32)
  | messagePassStart
  | systemPassStart
  | refillPassEnd
  | mailboxRing (p : Path)
  | mailboxCancel (p : Path)
  | commandTake (mb : BitVec 7)
  | replyDeposit (mb : BitVec 7)
  | getInfo (mb : BitVec 7)
  | targetGrant (mb : BitVec 7)
  | targetWithdraw (mb : BitVec 7)
  | setDaddr (mb : BitVec 7)
  | setNotice (mb : BitVec 7)
  | vectorRangeGrant (mb : BitVec 7)
  | vectorRangeWithdraw (mb : BitVec 7)
  | clearSweepEnd (base : BitVec 20)
  | vectorSet (mb : BitVec 7)
  | vectorLoad (mb : BitVec 7)
  | loaderReadCompletion (mb : BitVec 7) (ok : Bool) (data : List W64)
  | loaderReadTimeout (mb : BitVec 7)
  | vectorRead (mb : BitVec 7)
  | forwardSet (mb : BitVec 7)
  | setInterval (mb : BitVec 7)
  | setAssign (mb : BitVec 7)
  | watchAdd (mb : BitVec 7)
  | watchRemove (mb : BitVec 7)
  | tenantReset (mb : BitVec 7)
  | tenantResetWork (t : Tenant)
  | tenantResetEnd (t : Tenant)
  | resync (mb : BitVec 7)
  | faultRead (mb : BitVec 7)
  | faultClear (mb : BitVec 7)
  | statsRead (mb : BitVec 7)
  | timeRead (mb : BitVec 7)
  | domainPower (mb : BitVec 7)
  | padRelease (mb : BitVec 7)
  | mpuConfigRead (mb : BitVec 7)
  | mpuConfigWrite (mb : BitVec 7)
  | setLdt (mb : BitVec 7)
  | setCtle (mb : BitVec 7)
  | chainRetrain (mb : BitVec 7)
  | chainDisable (mb : BitVec 7)
  | chainEnable (mb : BitVec 7)
  | setInputs (mb : BitVec 7)
  | setOutputs (mb : BitVec 7)
  | repairStatus (mb : BitVec 7)
  | hallmarkRead (mb : BitVec 7)
  | fwStage (mb : BitVec 7) (fate : ImageFate)
  | fwActivate (mb : BitVec 7)
  | nextStartOnly (mb : BitVec 7)
  | fwFallback
  | debugConsent (mb : BitVec 7)
  | consentLapse (t : Tenant)
  | agentRestart (t : Tenant) (access : Option CoreAccess)
  | firmwareRestart (access : Option CoreAccess)
  | restartComplete (t : Option Tenant)
  | smbusBlockWrite (offset : W32) (data : List W32) (pecOk : Bool)
  | smbusProcessCall (offset : W32) (count : Byte) (pecOk : Bool)
  | periodRequest (p : Path) (data : W32)
  | intakeBaseWrite (p : Path) (high : Bool) (data : W32)
  | weightWrite (p : Path) (t : Tenant) (data : W32)
  | tenantBind (p : Path) (t : Tenant) (data : W32)
  | viewSelect (p : Path) (data : W32)
  | frameCountLoRead (p : Path)
  | fmRestart (p : Path) (data : W32)
  | rasInject (p : Path) (data : W32)
  | histClear (p : Path) (data : W32)
  | mpuEnableWrite (p : Path) (unit : BitVec 2) (data : W32)
  | mpuSync (p : Path) (unit : BitVec 2)
  | mpuRegionWrite (p : Path) (unit : BitVec 2) (region : BitVec 4) (reg : BitVec 2) (data : W32)
  | registerWrite (p : Path) (offset : BitVec 22) (bytes : Nat) (fullBe : Bool) (data : W64)
  | debugAccess (req : DebugReq)
  /-- Arrival on the own timebase, and the fixed latencies of R18 that its timestamp carries, both in 1/16 core cycles. -/
  | tickMarkerReceive (port : PortId) (flit : Flit) (arrival : W32) (latency : W32)
  | markerTimeout
  | mastershipHandover
  | signalDetect (port : PortId) (lanes : BitVec 3)
  | detectTimeout (port : PortId)
  | cdrLock (port : PortId) (lanes : BitVec 3)
  | cdrLockTimeout (port : PortId)
  | pam4Check (port : PortId) (errors : List (List Nat))
  | trainingSetReceive (port : PortId) (set : BitVec 128)
  | markerBlock (port : PortId) (lane : BitVec 2) (block : BitVec 128)
  | deskewTimeout (port : PortId)
  | init (port : PortId) (flit : Flit) (turn : W32)
  | initEcho (port : PortId) (flit : Flit) (arrival : W32)
  | initTimeout (port : PortId)
  | laneLockLoss (port : PortId) (lane : BitVec 2)
  | sparingTimeout (port : PortId)
  | linkDown (port : PortId)
  | downRetry (port : PortId)
  | flitTransmit (port : PortId) (now : W32)
  | dataFlitReceive (port : PortId) (flit : Flit)
  | linkFlitReceive (port : PortId) (flit : Flit)
  | replayTimeout (port : PortId)
  | e2eResend (c : Chip)
  | creditOverdue (port : PortId) (cls : FlitClass)
  | allowOverdue (c : Chip) (t : Tenant)
  | beadWakeEdge (j : BitVec 2)
  | entryComplete (d : BitVec 4)
  | regRdy (d : BitVec 4)
  | clkRdy (d : BitVec 4)
  | memRdy (d : BitVec 4) (ret : Retention)
  | logicRdy (d : BitVec 4) (exitUs : BitVec 8) (lkt : BitVec 48)
  | phaseDeadline (d : BitVec 4)
  | exitTimeout (d : BitVec 4)
  | regRdyFall (d : BitVec 4)
  | lktCalibration (count : Nat)
  | tempSample (temp : BitVec 10) (valid : Bool)
  | agedHour
  | fieldRepairCopy
  | ctrlScrub (upsets : List Upset)
  | rowRetire (bank : BitVec 6) (row : BitVec 14)
  | internalBusParityError (path : BusPath) (repeatFails : Bool)
  | registerRead (p : Path) (offset : BitVec 22) (bytes : Nat) (fullBe : Bool)
  | firmwareTblRet (q : BitVec 2)
  | containedFall (port : BitVec 7)
  | wakeInputFall (j : BitVec 2)
  | idleFlitReceive (port : PortId) (flit : Flit)
  | powerLost
  | resetRelease (env : StartEnv)
  deriving DecidableEq, Repr

end Sys2Proof
end

