-- ==== Sys2Proof/Decode.lean ====
section
/-! DEFINITION. The reading of table words. The opcode table of Zeyth-2 gives no row any bits: commands arrive as accesses, events and messages, never as words of a program. -/
namespace Sys2Proof

/-- The command that a word of the table spells: none, since no row has bits. -/
def decodeTableWord (_nbits _w : Nat) : Option Instr := none

end Sys2Proof
end

