-- ==== Sys2Proof/Config.lean ====
section
/-! DEFINITION. What an implementation fixes, and the free values: constants without a body for what the spec leaves open. -/
namespace Sys2Proof.Config

/-- Hardware stepping, `TW_ID.STEP` (R375 gives its reset value as "stepping" and no number). Free value, log entry 20. -/
opaque stepping : BitVec 8

/-- What a read of a line with three or more symbols in error gives (R333: "no guarantee is given"): 0 corrected
(possibly miscorrected), anything else detected. Applied to the counter of free reads. Free value, log entry 21. -/
opaque wideErrorOutcome : Nat → Nat

/-- By how much the data of such a line are changed when it is miscorrected. Free value, log entry 21. -/
opaque wideErrorBits : Nat → BitVec 256

/-- The ageing of an hour without a temperature sample, in units of 1/65,536 hour, by the powered hours (R344 takes the
mean over the hour). Free value, log entry 22. -/
opaque ageOfHour : Nat → Nat

/-- The measured calibration count when the 16,384-cycle window gives a figure that does not fit 18 bits (R321
gives `PWR_LKT_CAL.CAL` 18 bits and no rule beyond). Free value, log entry 23. -/
opaque calOverflow : Nat → BitVec 18

/-- Byte `i` of a target record read at its internal address, by the counter of free reads: R233 gives the record 64
bytes and no layout. Free value, log entry 32. -/
opaque recordByte : Nat → Nat → BitVec 8

/-- What the fields of a target record become when a byte is written there (R233 gives no layout). Free value, log
entry 32. -/
opaque recordWritten : Nat → BitVec 8 → BitVec 512

/-- The requester ID of the management function on a switch port (R127, R211): the hosts' enumeration gives it, and the
spec no value. Free value, log entry 51. -/
opaque managementId : BitVec 7 → BitVec 16

/-- The regions 0 to 10 of MPU-C that the kernel loads for itself (R243; the spec gives no addresses): BASE in [39:0],
SIZE_LOG2 in [45:40], the attribute bits of R249 in [52:48]. Free value, log entry 55. -/
opaque kernelRegion : Nat → BitVec 64

/-- A byte of CTRL RAM that the firmware has written (R233; the spec gives no image). Free value, log entry 33. -/
opaque ramByte : Nat → Nat → BitVec 8

/-- The precoder and decoder values of the six lanes at the end of a PAM4_CHECK: R255 fixes no phase of its PRBS31
(log entry 58). -/
opaque checkPhase : Nat → BitVec 12

/-- A block of the PRBS31 that an idle lane sends: R254 fixes no phase (log entry 58). -/
opaque prbsBlock : Nat → BitVec 128

end Sys2Proof.Config
end

