-- ==== Sys2Proof/Machine/Sparse.lean ====
section
/-! DEFINITION. Sparse tables: the storage of every addressed array, register file and per-unit record of the block.
A table is a list of (key, value) pairs with keys strictly rising and no value equal to what an unlisted key reads as. -/
namespace Sys2Proof.Machine

/-- A table of values of `V` by number. -/
abbrev Sparse (V : Type) := List (Nat × V)

/-- The value at key `k`; an unlisted key reads as `d`. -/
def Sparse.get {V : Type} (d : V) : Sparse V → Nat → V
  | [], _ => d
  | (j, v) :: m, k => if j = k then v else Sparse.get d m k

/-- The table without key `k`. -/
def Sparse.erase {V : Type} : Sparse V → Nat → Sparse V
  | [], _ => []
  | (j, v) :: m, k => if j = k then m else (j, v) :: Sparse.erase m k

/-- The table with `v` listed at `k`, keys kept rising. -/
def Sparse.insert {V : Type} : Sparse V → Nat → V → Sparse V
  | [], k, v => [(k, v)]
  | (j, w) :: m, k, v =>
    if k < j then (k, v) :: (j, w) :: m
    else if k = j then (k, v) :: m
    else (j, w) :: Sparse.insert m k v

/-- A write of `v` at `k`. Writing what an unlisted key reads as removes the entry. -/
def Sparse.set {V : Type} [DecidableEq V] (d : V) (m : Sparse V) (k : Nat) (v : V) : Sparse V :=
  if v = d then Sparse.erase m k else Sparse.insert m k v

/-- Keys strictly above `lo`, strictly rising, and no listed value equal to `d`. -/
def Sparse.wfFrom {V : Type} [DecidableEq V] (d : V) : Option Nat → Sparse V → Bool
  | _, [] => true
  | lo, (j, v) :: m =>
    (match lo with
      | none => true
      | some l => decide (l < j)) && decide (v ≠ d) && Sparse.wfFrom d (some j) m

/-- The canonical form. -/
def Sparse.wf {V : Type} [DecidableEq V] (d : V) (m : Sparse V) : Bool :=
  Sparse.wfFrom d none m

/-- The listed values changed by `f`, entries that become `d` dropped. -/
def Sparse.mapVals {V : Type} [DecidableEq V] (d : V) (f : Nat → V → V) : Sparse V → Sparse V
  | [] => []
  | (j, v) :: m => if f j v = d then Sparse.mapVals d f m else (j, f j v) :: Sparse.mapVals d f m

/-- The entries whose key satisfies `p`, dropped. -/
def Sparse.dropKeys {V : Type} (p : Nat → Bool) : Sparse V → Sparse V
  | [] => []
  | (j, v) :: m => if p j then Sparse.dropKeys p m else (j, v) :: Sparse.dropKeys p m

end Sys2Proof.Machine
end

