-- ==== Sys2Proof/Machine/State.lean ====
section
/-! DEFINITION. The state of Zeyth-2 as plain data, unit by unit, with its faults, refusals and reset state. Docstrings cite the rules that name each field; INVENTORY.md lists them with their reset values. -/
namespace Sys2Proof.Machine

/-- Reasons to stop with a fault. No rule of the spec stops the block, so there is none: a closed type without
constructors. Safe. -/
inductive Fault where
  deriving DecidableEq, Repr

/-- Reasons to refuse a command. -/
inductive Refusal where
  /-- Raised by the dispatcher alone, for a command whose meaning is not written. Safe. -/
  | notModelled (mnemonic : String)
  deriving DecidableEq, Repr

/-! ## Frame unit -/

/-- What the running frame has taken of its capacities (R24, R36). -/
structure FrameUse where
  intake     : Nat := 0
  system     : Nat := 0
  priv       : Nat := 0
  completion : Nat := 0
  /-- Accesses of each table bank by events, decisions and completions (R23). -/
  banks      : Sparse Nat := []
  /-- The demand of the frame is above its budget (R24). -/
  excess     : Bool := false
  /-- Last mailbox slots taken (R101): of the banks of quarters 0 to 3, of the system table, of target banks 0 to 15. -/
  slots      : BitVec 21 := 0
  deriving DecidableEq, Repr

/-- What a used marker changes of the frame unit (R47, R48, R291). -/
structure MarkerBase where
  offset         : BitVec 8
  lockRun        : Nat
  tickLocked     : Bool
  lockedFrames   : Nat
  slewNext       : Int
  adjust         : Int
  takeCount      : Bool
  tickStepped    : Bool
  count          : W64
  request        : BitVec 13
  changePending  : Bool
  applyFrame     : W32
  ticksLeft      : Nat
  acceptedAsleep : Bool
  followPeriod   : Option (BitVec 13)
  deriving DecidableEq, Repr

/-- The frame tick, its period and alignment (02_frame.md). -/
structure FrameUnit where
  /-- FRAME_COUNT (R26). -/
  count          : W64 := 0
  /-- `CURRENT`, held in Locket (R29). -/
  current        : BitVec 13 := 0x320
  /-- `REQUEST`, held in Locket (R29). -/
  request        : BitVec 13 := 0x320
  changePending  : Bool := false
  /-- Local ticks still to come before the pending change applies, the applying tick included (R31). -/
  ticksLeft      : Nat := 0
  applyFrame     : W32 := 0
  /-- The change was accepted while CORE was not ON, so `APPLY_FRAME` reads 0 until the first tick (R323). -/
  acceptedAsleep : Bool := false
  budgetOver     : Bool := false
  withdrawn      : Bool := false
  tickStepped    : Bool := false
  periodRefused  : Bool := false
  refuseReason   : BitVec 2 := 0
  tickLocked     : Bool := false
  /-- High words latched by the manager window and by the sideband (R50). -/
  latchManager   : W32 := 0
  latchSmbus     : W32 := 0
  isMaster       : Bool := true
  masterId       : Chip := 0
  /-- e at the last marker (R50). -/
  offset         : BitVec 8 := 0
  withdrawnCount : W32 := 0
  overCount      : W32 := 0
  /-- TIME_NS in core cycles of 0.625 ns, held in Locket (R46, R221). -/
  timeCycles     : W64 := 0
  /-- SLEEP_ERR_NS and SLEEPS of TIME_READ, held in Locket (R221). -/
  sleepErrNs     : W64 := 0
  sleeps         : W32 := 0
  /-- Core cycles by which the running frame is longer (or shorter) than the period: slews and steps (R47). -/
  adjust         : Int := 0
  /-- The slew chosen for the next frame (R47). -/
  slewNext       : Int := 0
  /-- FRAME_COUNT is to be taken from the next marker (R47). -/
  takeCount      : Bool := false
  /-- Consecutive markers with |e| ≤ 8 (R48). -/
  lockRun        : Nat := 0
  /-- Frames since a marker of the current master, and since any valid marker (R49). -/
  masterGap      : Nat := 0
  markerGap      : Nat := 0
  /-- Frames for which the chip has been locked (R49). -/
  lockedFrames   : Nat := 0
  /-- The best marker of the running frame: hops, and whether it came from East (R291). -/
  bestHops       : Option (BitVec 4 × Bool) := none
  /-- What stood before the first marker used in the running frame: a better one takes its place (R291). -/
  markerBase     : Option MarkerBase := none
  /-- The time of the last tick, in 1/16 core cycles of the own timebase (R270). -/
  tickTime       : W32 := 0
  /-- The chip follows `masterId` (R49); neither master nor following, it has no master. -/
  following      : Bool := false
  /-- Its mastership is of a ring, not of the chip alone. -/
  ringMaster     : Bool := false
  /-- The period of the running frame, when PERIOD_CHANGE_APPLY has applied the change of the coming tick already. -/
  oldPeriod      : Option (BitVec 13) := none
  /-- The period that a follower takes from its master's marker at the next tick (R29). -/
  followPeriod   : Option (BitVec 13) := none
  /-- Ticks have begun: start-up step 9 has run (R353). -/
  running        : Bool := false
  /-- Step 9 ran its alternative: the chip never locks to a ring master (R357). -/
  coreClock      : Bool := false
  /-- Local ticks since the last reset, for intervals stated in frames (R28). -/
  localTicks     : Nat := 0
  /-- The period in force at the stop instant (R322). -/
  stopPeriod     : BitVec 13 := 0x320
  /-- The capacities of the running frame. -/
  use            : FrameUse := {}
  deriving DecidableEq, Repr

/-! ## Intake -/

/-- The pool of a queue entry (R60). -/
inductive Pool where
  | crossbar | chain | fm
  deriving DecidableEq, Repr

/-- The five source operations, coded as `TW_SRC_FIRST.OP` (R105). -/
inductive SrcOp where
  | setPending | clrPending | setEnable | clrEnable | clrSticky
  deriving DecidableEq, Repr

/-- What an entry of an intake queue carries (R51, R96). -/
inductive QKind where
  /-- An intake write: its owner code. -/
  | edge (owner : BitVec 7)
  /-- An edge record of the Chain: its origin chip. -/
  | chainEdge (origin : Chip)
  /-- A source operation; `fm` when the FM wrote it. -/
  | op (o : SrcOp) (fm : Bool)
  deriving DecidableEq, Repr

/-- An entry of an intake queue. -/
structure QEntry where
  kind      : QKind
  vector    : BitVec 20
  requester : BitVec 16
  pool      : Pool
  deriving DecidableEq, Repr

/-- The first-discard record (R59). -/
structure DiscardRec where
  valid     : Bool := false
  reason    : BitVec 4 := 0
  owner     : BitVec 7 := 0
  chain     : Bool := false
  requester : BitVec 16 := 0
  vector    : BitVec 20 := 0
  frame     : W32 := 0
  deriving DecidableEq, Repr

/-- The message intake's chip-wide registers (R62, R76). -/
structure IntakeUnit where
  windowEn          : Bool := false
  ownerCheck        : Bool := true
  base              : W64 := 0
  discard           : DiscardRec := {}
  discardCount      : W32 := 0
  chainEventRefused : Bool := false
  weightRefused     : Bool := false
  baseRefused       : Bool := false
  /-- INTAKE_BASE in force at the fabric port while its window is open: both change there only at ticks (R18, R54). -/
  openBase          : Option W64 := none
  /-- The tenant whose drain turn it is (R62). -/
  turn              : Tenant := 63
  deriving DecidableEq, Repr

/-! ## System-source lane -/

/-- The latch of one system source: its arrival bit and four operation bits (R67, R97). -/
structure SysLatch where
  arrival   : Bool := false
  clrPend   : Bool := false
  setEn     : Bool := false
  clrEn     : Bool := false
  clrSticky : Bool := false
  deriving DecidableEq, Repr

/-- The system-source lane (R67, R70, R72). -/
structure SysUnit where
  latch  : Sparse SysLatch := []
  /-- The source taken last. -/
  cursor : BitVec 12 := 0xFFF
  /-- The change detector's last level of each condition source, shown in `MW_SYS_LEVEL`. -/
  levels : Sparse Bool := []
  /-- Arrivals held at the edge of CORE (R72). -/
  held   : Sparse Bool := []
  /-- Held data-link falls to be acted on at CORE's first tick (R143), by port. -/
  linkFell : Sparse Bool := []
  deriving DecidableEq, Repr

/-! ## Vector tables -/

/-- Configuration and state words of message vectors (by vector) and system sources (by index), the marks of lost
vectors, and the registers of R106. The pending index mirrors the PENDING bits exactly and is read from them. -/
structure VecUnit where
  cfg        : Sparse W64 := []
  st         : Sparse W32 := []
  sysCfg     : Sparse W64 := []
  sysSt      : Sparse W32 := []
  /-- Vectors marked lost one by one (R335). -/
  lost       : Sparse Bool := []
  /-- Table banks that failed retention: every vector with a word in one is lost (R325, R326). -/
  lostBanks  : W32 := 0
  /-- Vectors of such banks that have been reloaded since (R203). -/
  reloaded   : Sparse Bool := []
  satAny     : Bool := false
  /-- Groups of 64 bits of the pending index that read all ones since an uncorrectable read (R335). -/
  indexOnes  : List Nat := []
  lapsed     : Bool := false
  lapsedCount : W32 := 0
  satCount   : W32 := 0
  deriving DecidableEq, Repr

/-! ## Targets -/

/-- A shortlist entry with its frame marker (R107, R349). -/
structure SlEntry where
  src    : Src
  isNew  : Bool
  marker : BitVec 16
  deriving DecidableEq, Repr

/-- A target record (R107) with the target-page registers of R159. The busy bit is in the busy map. -/
structure TargetRec where
  daddr      : W64 := 0
  seq        : BitVec 16 := 0xFFFF
  active     : Option Src := none
  tag        : BitVec 8 := 0
  count      : BitVec 16 := 0
  redeliver  : Bool := false
  parked     : Bool := false
  mask       : Bool := false
  privPend   : BitVec 13 := 0
  privEn     : BitVec 13 := 0
  shortlist  : List SlEntry := []
  overflow   : Bool := false
  sysOverflow : Bool := false
  refilling  : Bool := false
  /-- Passes requested and not yet ended (R120). -/
  wantsMsg   : Bool := false
  wantsSys   : Bool := false
  /-- `READY` of `TGT_STATUS`: ready at the last tick (R134). -/
  ready      : Bool := false
  reissued   : Bool := false
  stale      : Bool := false
  stray      : Bool := false
  staleCount : BitVec 16 := 0
  strayCount : BitVec 16 := 0
  lastCpl    : Option (Bool × Src) := none
  periodic   : Bool := false
  reload     : BitVec 24 := 0
  timer      : BitVec 24 := 0
  overrun    : BitVec 8 := 0
  /-- The timer's count of the coming tick has been made by TIMER_FIRE. -/
  timerDone  : Bool := false
  deriving DecidableEq, Repr

/-- A write waiting in the private lane (R115). -/
inductive PrivOp where
  | set | clr | enable
  deriving DecidableEq, Repr

/-- An entry of the private lane. -/
structure PrivWrite where
  op   : PrivOp
  slot : Slot
  bits : BitVec 13
  deriving DecidableEq, Repr

/-- A completion waiting in the completion queue or drained from the capture FIFO (R136, R137). -/
structure CplEntry where
  tenant  : Tenant
  slot    : Slot
  src     : Src
  /-- The sequence of the sequenced form. -/
  seq     : Option (BitVec 16)
  /-- The write broke the form of R136. -/
  badForm : Bool
  deriving DecidableEq, Repr

/-- A running message pass (R120). -/
structure MsgPass where
  tenant : Tenant
  served : List Slot
  cursor : Nat
  /-- The targets served are taken at its start tick, which is still to come. -/
  starting : Bool
  /-- The scan has reached the end of the range. -/
  covered : Bool
  /-- Covered its whole range, or ended by a tenant reset. -/
  ended  : Bool
  deriving DecidableEq, Repr

/-- A running system pass (R120). -/
structure SysPass where
  served : List Slot
  cursor : Nat
  starting : Bool
  covered : Bool
  ended  : Bool
  deriving DecidableEq, Repr

/-- What the decision pass hands to a logical engine (R123, R146). -/
structure Emitted where
  engine  : BitVec 2
  slot    : Slot
  src     : Src
  /-- A re-issue of the RESYNC of this tenant, or none for a decision. -/
  reissue : Option Tenant
  deriving DecidableEq, Repr

/-- A delivery write handed to the fabric port (R127, R128, R132). -/
structure Delivery where
  addr      : W64
  data      : W64
  dropTag   : W32
  tenant    : Tenant
  egress    : BitVec 7
  /-- Length in DW, byte enables of the first and last DW. -/
  lengthDw  : BitVec 10 := 2
  firstBe   : BitVec 4 := 0xF
  lastBe    : BitVec 4 := 0xF
  /-- A 4DW header: the address does not lie below 4 GiB. -/
  fourDw    : Bool
  tclass    : BitVec 3 := 0
  attr      : BitVec 3 := 0
  poisoned  : Bool := false
  requester : BitVec 16
  deriving DecidableEq, Repr

/-- Targets, ordering, delivery and completion (05, 06). -/
structure TgtUnit where
  recs       : Sparse TargetRec := []
  /-- The flop busy map, and the busy bits to clear at the next tick (R32). -/
  busy       : Sparse Bool := []
  busyClear  : Sparse Bool := []
  privLane   : List PrivWrite := []
  cplQueue   : List CplEntry := []
  emitted    : List Emitted := []
  /-- Deliveries handed to the fabric port in the running frame. -/
  fabOut     : List Delivery := []
  /-- The tenant whose turn it is in the decision pass (R123). -/
  turn       : Tenant := 63
  logical0   : BitVec 3 := 0
  logical1   : BitVec 3 := 1
  logical2   : BitVec 3 := 2
  logical3   : BitVec 3 := 3
  retired    : BitVec 5 := 0
  engineFault : Bool := false
  spareInUse : Bool := false
  dropStale  : Bool := false
  dropValid  : Bool := false
  dropFirstSlot : Slot := 0
  dropFirstStale : Bool := false
  dropFirstSeq : BitVec 16 := 0
  dropCount  : W32 := 0
  decisionCount : W32 := 0
  msgQueue   : List Tenant := []
  msgPass    : Option MsgPass := none
  sysRequest : Bool := false
  sysPass    : Option SysPass := none
  refillCount : W32 := 0
  /-- Clasp groups held off in the running pass (R151). -/
  heldOff    : Sparse Bool := []
  strayAny   : Bool := false
  parkAny    : Bool := false
  passFull   : Bool := false
  strayTotal : W32 := 0
  parkEvents : W32 := 0
  reissues   : W32 := 0
  passFullFrames : W32 := 0
  cplWaitFrames : W32 := 0
  /-- Drop notices held while CORE is not ON (R399). -/
  heldDrops  : List (Slot × BitVec 16) := []
  /-- Private pending bits that CTRL and Locket set while CORE or TGT is not ON: held at the edge of CORE (R19). -/
  heldNotices : List (Tenant × Nat) := []
  deriving DecidableEq, Repr

/-- The word of a Clasp group (R151, R161): assignment 0x00 to 0x3F tenant, 0x40 FM, 0x41 none. -/
structure ClaspWord where
  assign    : BitVec 7 := 0x41
  interval  : BitVec 16 := 0
  remaining : BitVec 16 := 0
  deriving DecidableEq, Repr

/-! ## Tenants -/

/-- A power-of-two vector range (R169). -/
structure Range where
  base : BitVec 20
  log2 : BitVec 5
  deriving DecidableEq, Repr

/-- Status, count and first record of refused source operations, of one window (R99). -/
structure SrcRegs where
  status : BitVec 6 := 0
  refused : W32 := 0
  valid  : Bool := false
  op     : BitVec 3 := 0
  reason : BitVec 3 := 0
  src    : Src := 0
  deriving DecidableEq, Repr

/-- `ACCESS_STATUS` and `ACCESS_FIRST` of one window (R375). -/
structure AccessRegs where
  size   : Bool := false
  valid  : Bool := false
  write  : Bool := false
  offset : BitVec 22 := 0
  deriving DecidableEq, Repr

/-- A tenant reset that has been accepted (R176). -/
structure ResetRun where
  /-- The mailboxes that wait for its reply, by number (64 the FM's). -/
  repliesTo : List (BitVec 7)
  /-- RESETTING: the tick after acceptance has come. -/
  inForce   : Bool
  started   : Bool
  /-- Frames of work still to come. -/
  left      : Nat
  /-- The registers are cleared and the replies deposited: the tenant is BOUND at the next tick. -/
  cleared   : Bool
  sweep     : Nat
  /-- Frames since acceptance. -/
  took      : Nat
  deriving DecidableEq, Repr

/-- A running RESYNC (R145 to R150). -/
structure ResyncRun where
  mailbox   : BitVec 7
  /-- The set is taken at the tick after acceptance; none before it. -/
  todo      : Option (List (Slot × Src))
  emitted   : List Slot
  reissued  : BitVec 16
  completed : BitVec 16
  skipped   : BitVec 16
  deriving DecidableEq, Repr

/-- Everything the block holds for one tenant outside the shared arrays. -/
structure TenantRec where
  bound      : Bool := false
  port       : BitVec 7 := 0
  /-- The window is presented (R164). -/
  windowUp   : Bool := false
  range      : Option Range := none
  /-- The range in force at the front end and the intake (R169). -/
  rangeMap   : Option Range := none
  reset      : Option ResetRun := none
  resync     : Option ResyncRun := none
  notice     : Option (BitVec 10) := none
  noticeNext : Option (BitVec 10) := none
  queue      : List QEntry := []
  /-- FM source operations that wait for one of the 8 entries (R60). -/
  fmWaiting  : List QEntry := []
  credits    : BitVec 9 := 440
  /-- The pool stood at zero in the running frame (R64). -/
  zeroSeen   : Bool := false
  satFrames  : W32 := 0
  weight     : BitVec 8 := 0x10
  deficit    : Nat := 0
  /-- Decision-pass deficit and round-robin position (R123). -/
  passDeficit : Nat := 0
  rr         : Slot := 0xFFFF
  intakeStatus : BitVec 5 := 0
  discards   : W32 := 0
  src        : SrcRegs := {}
  resyncDone : Bool := false
  parkedSeen : Bool := false
  staleSeen  : Bool := false
  straySeen  : Bool := false
  strayCount : W32 := 0
  strayFirstValid : Bool := false
  strayFirstStale : Bool := false
  strayFirstTarget : BitVec 10 := 0
  strayFirstSrc : Src := 0
  faultSummary : BitVec 8 := 0
  faultValid : Bool := false
  faultCode  : BitVec 8 := 0
  faultDetail : W32 := 0
  faultFrame : W32 := 0
  faultCount : W32 := 0
  wakeCause  : BitVec 4 := 0
  wakeSrc    : Src := 0
  wakeFrames : W32 := 0
  access     : AccessRegs := {}
  frameLatch : W32 := 0
  deliveries : W32 := 0
  completions : W32 := 0
  edges      : W32 := 0
  consent    : Bool := false
  consentNext : Bool := false
  /-- A grant of this frame takes effect at the next tick. -/
  consentTaking : Bool := false
  /-- Ticks after which a granted consent lapses. -/
  consentLeft : Option W32 := none
  deriving DecidableEq, Repr

/-- A range whose words are still being cleared (R171). -/
structure Sweep where
  range  : Range
  left   : Nat
  frames : Nat
  /-- The mailbox whose withdrawal waits, and its forced completions. -/
  reply  : Option (BitVec 7 × Nat)
  deriving DecidableEq, Repr

/-- Tenants, grants and the FM's own registers (07). -/
structure TenUnit where
  recs        : Sparse TenantRec := []
  /-- Global block to owning tenant and local block (R166). -/
  blocks      : Sparse (Option (Tenant × BitVec 4)) := []
  sweeps      : List Sweep := []
  bindRefused : Bool := false
  managerPort : BitVec 7 := 0
  upstream    : BitVec 80 := 0
  fmSrc       : SrcRegs := {}
  fmAccess    : AccessRegs := {}
  viewManager : W32 := 0
  viewSmbus   : W32 := 0
  clasp       : Sparse ClaspWord := []
  deriving DecidableEq, Repr

/-! ## Mailboxes -/

/-- A taken command (R187). -/
structure Snap where
  opcode  : Byte
  length  : BitVec 16
  payload : Sparse Byte
  seq     : BitVec 16
  deriving DecidableEq, Repr

/-- A reply ready to be deposited. -/
structure Reply where
  status  : Byte
  detail  : Byte
  payload : List Byte
  deriving DecidableEq, Repr

/-- How far a taken command has come. -/
inductive Work where
  | idle
  /-- Passed checks 1 to 3 of R187 and to be run by its own row. -/
  | run
  /-- Its effect is under way elsewhere: a load, a RESYNC, a tenant reset, a sweep, a restart. -/
  | waiting
  | done (r : Reply)
  deriving DecidableEq, Repr

/-- A read of host memory that the loader has sent (R211): its entries, its port and requester ID. -/
structure HostRead where
  addr      : W64
  entries   : Nat
  port      : BitVec 7
  requester : BitVec 16
  deriving DecidableEq, Repr

/-- A VECTOR_LOAD under way (R210, R211). -/
structure LoadRun where
  first    : Src
  count    : Nat
  addr     : W64
  /-- Index of the first entry not examined. -/
  next     : Nat
  written  : Nat
  refused  : Nat
  firstRefused : Option (Nat × Byte)
  /-- Entries asked for, and the reads outstanding, oldest first. -/
  asked    : Nat := 0
  reads    : List HostRead := []
  /-- Data of completed reads whose entries are not examined yet. -/
  held     : List W64 := []
  /-- A write of entries that have passed their checks, which MPU-L has still to decide (R244). -/
  stalled  : List W64 := []
  /-- A read has failed: the load stops at its first entry. -/
  failed   : Bool := false
  deriving DecidableEq, Repr

/-- A mailbox (R183 to R200). -/
structure Mailbox where
  cmd        : Sparse Byte := []
  reply      : Sparse Byte := []
  ring       : Bool := false
  taken      : Bool := false
  lastStatus : Byte := 0
  replyValid : Bool := false
  path       : Bool := false
  /-- Path of the ring now pending. -/
  ringPath   : Bool := false
  restarting : Bool := false
  lost       : Bool := false
  overrun    : Bool := false
  replyReady : Bool := false
  replySeq   : BitVec 16 := 0
  seq        : BitVec 16 := 0
  restarted  : BitVec 16 := 0
  executed   : BitVec 16 := 0
  snap       : Option Snap := none
  work       : Work := .idle
  /-- The command taken has passed checks 1 to 3 of R187. -/
  checked    : Bool := false
  load       : Option LoadRun := none
  /-- The reply is to be discarded: a tenant reset overtook the command (R178). -/
  discard    : Bool := false
  deriving DecidableEq, Repr

/-- Images and firmware (R229, R230, R357). -/
structure FwUnit where
  /-- Version of a validly staged image in slot 0 and slot 1. -/
  slot0      : Option W32 := some 0
  slot1      : Option W32 := none
  runSlot    : Bool := false
  /-- Some firmware has run since the flash was new, so that `runSlot` counts for R357. -/
  hasRun     : Bool := false
  /-- Firmware runs: the kernel has started since the last block reset (R375). -/
  ran        : Bool := false
  alive      : Bool := false
  ifRev      : BitVec 16 := 0
  version    : W32 := 0
  nextSlot   : Option Bool := none
  /-- A whole-firmware restart is running (R194), and the slot and version it left. -/
  restart    : Bool := false
  previous   : Option Bool := none
  /-- The restart answers an FW_ACTIVATE, whether it loads an image anew (so that it may fall back, R230, R354), and
  whether it fell back. -/
  activate   : Bool := false
  loads      : Bool := false
  fellBack   : Bool := false
  deriving DecidableEq, Repr

/-- The mailboxes by number (64 the FM's) and the firmware. -/
structure MbxUnit where
  boxes : Sparse Mailbox := []
  fw    : FwUnit := {}
  deriving DecidableEq, Repr

/-! ## Access control units -/

/-- A region (R234). -/
structure Region where
  base : BitVec 40 := 0
  size : BitVec 6 := 0
  tag  : BitVec 7 := 0x40
  lock : Bool := false
  priv : Bool := false
  x    : Bool := false
  w    : Bool := false
  r    : Bool := false
  deriving DecidableEq, Repr

/-- A first-violation record (R240, R249). -/
structure Violation where
  valid    : Bool := false
  straddle : Bool := false
  priv     : Bool := false
  locked   : Bool := false
  kind     : BitVec 2 := 0
  size     : BitVec 6 := 0
  tenant   : BitVec 7 := 0
  region   : BitVec 5 := 0
  addr     : BitVec 40 := 0
  deriving DecidableEq, Repr

/-- One access control unit (R249). -/
structure Mpu where
  enable       : Bool
  writeRefused : Bool := false
  badRegion    : Bool := false
  viol         : Violation := {}
  count        : W32 := 0
  regions      : Sparse Region := []
  deriving DecidableEq, Repr

/-- The TAP data register of the debug master (R388). -/
structure Tap where
  busy  : Bool := false
  write : Bool := false
  size  : BitVec 2 := 0
  error : Bool := false
  addr  : BitVec 40 := 0
  data  : W32 := 0
  deriving DecidableEq, Repr

/-- MPU-C, MPU-L, MPU-D, the controller's mode, its RAM and the debug master (10). -/
structure AcuUnit where
  mpuC    : Mpu := { enable := false }
  mpuL    : Mpu := { enable := true }
  mpuD    : Mpu := { enable := true }
  /-- `MPU_CURRENT`: user mode and access tenant. -/
  user    : Bool := false
  current : BitVec 7 := 0x40
  tap     : Tap := {}
  /-- Kernel code and data and agent RAM, by byte address of R233; none where the firmware's own bytes stand. -/
  ram     : Sparse (Option Byte) := []
  deriving DecidableEq, Repr

/-! ## Chain -/

/-- The training states of R255. -/
inductive PhyState where
  | disabled | detect | cdrLock | pam4Check | laneMap | deskew | linkInit | up | sparing | lockLost | down
  deriving DecidableEq, Repr

/-- One Chain port's physical layer (R255 to R264). -/
structure PhyPort where
  state       : PhyState := .disabled
  halfRate    : Bool := false
  spareFailed : Bool := false
  spareRx     : Bool := false
  spareTx     : Bool := false
  sparedLane  : BitVec 2 := 0
  locked      : BitVec 3 := 0
  /-- Lanes on which data is received and sent. -/
  rxLanes     : BitVec 3 := 0
  txLanes     : BitVec 3 := 0
  /-- Lanes with signal, lanes received well in PAM4_CHECK. -/
  signal      : BitVec 3 := 0
  good        : BitVec 3 := 0
  /-- Lanes marked bad: those without signal, and under R357 those that failed in the preceding start. -/
  markedBad   : BitVec 3 := 0
  peerChip    : Chip := 0
  /-- Own lane choice is final; consecutive sets with ACK sent and received. -/
  chosenValid : Bool := false
  acks        : Nat := 0
  /-- Consecutive valid markers per lane, and consecutive missed ones. -/
  markers     : Sparse Nat := []
  misses      : Sparse Nat := []
  /-- MCOUNT of the last valid marker of a lane. -/
  mcounts     : Sparse Nat := []
  /-- MCOUNT of the next marker sent, and the block cycle within the marker period (R250, R254). -/
  mcountTx    : BitVec 16 := 0
  cycle       : Nat := 0
  /-- Sets sent with ACK in this LANE_MAP (R256). -/
  acksSent    : Nat := 0
  /-- Precoder and decoder values p of lanes 0, 1 and 2, 2 bits each from bit 0 (R251). -/
  txCode      : BitVec 6 := 0
  rxCode      : BitVec 6 := 0
  /-- The symbols last sent on lanes 0, 1 and 2: 64 values p each, symbol 0 in bits [1:0]. -/
  sent        : List (BitVec 128) := []
  /-- The configured codes that the running training uses (R225, R253). -/
  trainCtle   : BitVec 12 := 0x888
  /-- Lanes that failed the last PAM4_CHECK (R357). -/
  failed      : BitVec 3 := 0
  /-- Lane whose swap this end asks for, and the lane it acknowledges. -/
  spareReq    : Option (BitVec 2) := none
  spareAck    : Option (BitVec 2) := none
  inForce     : BitVec 12 := 0
  wiring      : Bool := false
  idClash     : Bool := false
  trainFail   : Bool := false
  spared      : Bool := false
  laneLost    : Bool := false
  lockLostEv  : Bool := false
  lockLosses  : W32 := 0
  attempts    : BitVec 16 := 0
  ups         : BitVec 16 := 0
  /-- Ticks counted in LOCK_LOST (R257). -/
  downTicks   : Nat := 0
  deriving DecidableEq, Repr

/-- What Locket keeps of a port: configured CTLE codes and LINK_DOWN_TIME (R225, R253). -/
structure PortCfg where
  ctle     : BitVec 12 := 0x888
  ldt      : BitVec 8 := 8
  ldtNext  : BitVec 8 := 8
  deriving DecidableEq, Repr

/-- A DATA flit's content before it takes a link sequence (R268). -/
structure DataFlit where
  cls     : BitVec 2
  src     : Chip
  dst     : Chip
  e2e     : BitVec 16
  passed  : Bool
  records : List (BitVec 44)
  deriving DecidableEq, Repr

/-- A flit in transit or rerouted, with the port whose receive buffer still holds it (R276). -/
structure TransitFlit where
  arrived : Option PortId
  flit    : DataFlit
  deriving DecidableEq, Repr

/-- One Chain port's link layer (R271 to R278, R293). -/
structure LinkPort where
  nextSeq     : BitVec 12 := 0
  expected    : BitVec 12 := 0
  lastAcked   : BitVec 12 := 0xFFF
  /-- Unacknowledged flits, oldest first, and how many of them are still to be resent. -/
  replayBuf   : List (BitVec 12 × DataFlit) := []
  replayLeft  : Nat := 0
  /-- Rerouted and transit flits, then flits of this chip (R267). -/
  transit     : List TransitFlit := []
  own         : List DataFlit := []
  /-- TICK flits waiting to be sent, each with the time from which its DELAY still grows (R290). -/
  ticks       : List (Flit × W32) := []
  nakSent     : Bool := false
  nakDue      : Bool := false
  linkDue     : Bool := false
  advertised  : Credits := {}
  consumed    : Credits := {}
  returned    : Credits := {}
  freed       : Credits := {}
  initSeen    : Bool := false
  echoes      : Nat := 0
  bestDelay   : Option (BitVec 24) := none
  /-- INIT_ECHO flits waiting to be sent: PROBE_T and TURN. -/
  echoDue     : List (W32 × W32) := []
  hopDelay    : BitVec 24 := 0
  crcError    : Bool := false
  replayEv    : Bool := false
  rerouted    : Bool := false
  stranded    : Bool := false
  creditOver  : Bool := false
  initFail    : Bool := false
  protocol    : Bool := false
  crcErrors   : W32 := 0
  replays     : W32 := 0
  reroutes    : W32 := 0
  /-- The last flit sent. -/
  lastTx      : Flit := 0
  /-- Credit episodes already reported, by class (R277). -/
  creditEpisode : BitVec 3 := 0
  /-- Consecutive frames for which each class has waited for credits (R277). -/
  creditFrames  : Sparse Nat := []
  /-- Flit cycles until the next INIT, and since the last LINK flit (R271, R272). -/
  initWait    : Nat := 0
  sinceLink   : Nat := 0
  deriving DecidableEq, Repr

/-- The pair state toward one other chip (R283 to R287). -/
structure Pair where
  live        : Bool := false
  next        : BitVec 16 := 0
  ackedRemote : BitVec 16 := 0xFFFF
  acked       : BitVec 16 := 0xFFFF
  /-- Offsets from ACKED of records accepted beyond it. -/
  ahead       : List Nat := []
  lastAckSent : BitVec 16 := 0xFFFF
  /-- Records sent and returned, by tenant. -/
  sent        : Sparse (BitVec 16) := []
  gotBack     : Sparse (BitVec 16) := []
  returned    : Sparse (BitVec 16) := []
  /-- The end-to-end store, oldest first. -/
  store       : List (BitVec 16 × BitVec 44) := []
  /-- Lines with a raise held (R75). -/
  heldLines   : BitVec 16 := 0
  allowEpisode : Sparse Bool := []
  /-- Consecutive frames for which a tenant's allowance has been 0 (R277). -/
  allowFrames : Sparse Nat := []
  /-- Tenants with an ALLOW due that had no route yet (R285). -/
  allowDue    : Sparse Bool := []
  deriving DecidableEq, Repr

/-- The ring page (R294), the pairs, and the Locket bypass registers (R264). -/
structure ChainUnit where
  eastPhy     : PhyPort := {}
  westPhy     : PhyPort := {}
  eastCfg     : PortCfg := {}
  westCfg     : PortCfg := {}
  east        : LinkPort := {}
  west        : LinkPort := {}
  eastDist    : BitVec 64 := 0
  westDist    : BitVec 64 := 0
  /-- The live members; at reset the bit of chip 0, the ID that the straps read until they are committed. -/
  members     : BitVec 16 := 1
  pairs       : Sparse Pair := []
  resent      : Bool := false
  allowOver   : Bool := false
  duplicate   : Bool := false
  strandedEv  : Bool := false
  membersChanged : Bool := false
  dupCount    : W32 := 0
  strandedCount : W32 := 0
  resends     : W32 := 0
  /-- Every cumulative ACK and ALLOW value is sent again at the next tick (R278). -/
  resendCtrl  : Bool := false
  /-- S:0x275 has been raised in the running frame (R274). -/
  replayRaised : Bool := false
  retimerOn   : Bool := false
  released    : Bool := false
  retimerUsed : Bool := false
  deriving DecidableEq, Repr

/-! ## Bead pins -/

/-- Straps, slot bus and holds (R309). -/
structure BeadUnit where
  strap        : BitVec 16 := 0
  unstable     : Bool := false
  reserved     : Bool := false
  committed    : Bool := false
  inputSlots   : BitVec 3 := 0
  outputs      : W32 := 0
  /-- Values ordered by BEAD_CONFIG and in force from the next frame's round (R226). -/
  inputsNext   : BitVec 3 := 0
  outputsNext  : W32 := 0
  /-- What the board's latches hold. -/
  latched      : W32 := 0
  held         : BitVec 16 := 0
  syncHeld     : Bool := false
  /-- Wired inputs whose next sample is compared with 0 (R71). -/
  fresh        : BitVec 96 := BitVec.allOnes 96
  /-- Pads whose release waits for the next round that is not quiet (R307). -/
  releasing    : BitVec 16 := 0
  syncReleasing : Bool := false
  /-- Pads held by the block reset now in progress (R298). -/
  resetHeld    : BitVec 16 := 0
  resetSyncHeld : Bool := false
  wakeEdge     : BitVec 4 := 0
  level        : BitVec 4 := 0
  deriving DecidableEq, Repr

/-! ## Power -/

/-- State of a domain (R310). -/
inductive PState where
  | on | ret | off
  deriving DecidableEq, Repr

/-- The phases of an exit (R315). -/
inductive Phase where
  | regulator | clock | memory | logic
  deriving DecidableEq, Repr

/-- A transition in progress (R313). -/
inductive Trans where
  | none
  | entering (goal : PState)
  | exiting (frm : PState) (phase : Phase) (retry : Bool)
  deriving DecidableEq, Repr

/-- Why Locket wakes a domain, coded as `PWR_WAKE_CAUSE.CAUSE` (R331). -/
inductive WakeCause where
  | watched (src : Src)
  | captureFill
  | access
  | order
  | replayed
  deriving DecidableEq, Repr

/-- A switchable domain (R313, R331). -/
structure DomainRec where
  state    : PState := .on
  trans    : Trans := .none
  ordered  : PState := .on
  auto     : Bool := false
  failed   : Bool := false
  /-- The exit failed twice: only an order of ON tries again (R313). -/
  stuck    : Bool := false
  deadline : Bool := false
  lastExit : BitVec 8 := 0
  /-- A wake cause latched during an entry. -/
  latched  : Option WakeCause := none
  /-- S:0x27B has been raised for the running transition. -/
  lateSeen : Bool := false
  /-- LOGIC_RDY came while a domain it must wait for was not yet ready (R312, R315). -/
  logicSeen : Bool := false
  deriving DecidableEq, Repr

/-- An entry of the capture FIFO (R317), with the line of the array of R20 that holds it. -/
structure CaptureEntry where
  line : Nat
  word : W64
  deriving DecidableEq, Repr

/-- The power page (R331), all in Locket. -/
structure PwrUnit where
  domains    : Sparse DomainRec := []
  bounce     : Bool := false
  capture75  : Bool := false
  captureFull : Bool := false
  tblLostEv  : Bool := false
  tgtLostEv  : Bool := false
  coreLost   : Bool := false
  tblLost    : W32 := 0
  tgtLost    : BitVec 16 := 0
  wakeCause  : BitVec 4 := 0
  wakeSrc    : Src := 0
  bounces    : W32 := 0
  capture    : List CaptureEntry := []
  highWater  : BitVec 11 := 0
  /-- Every arrival is captured behind the entries made while CORE was not ON, until the FIFO empties (R318). -/
  captureAll : Bool := false
  /-- The place of the 1,024 that the next captured entry takes. -/
  capturePos : BitVec 10 := 0
  lktCal     : BitVec 18 := 0x20000
  sleepL     : BitVec 48 := 0
  sleepFrames : W32 := 0
  sleepErr   : W32 := 0
  watch      : List Src := []
  /-- CORE has taken its stop instant (R314), with the calibration count in force there (R321). -/
  stopped    : Bool := false
  stopCal    : BitVec 18 := 0x20000
  /-- LKT_CLK cycles of the sleep, when CORE has left it and its first tick is still to come. -/
  firstTick  : Option (BitVec 48) := none
  /-- Accesses that wait for a domain (R16). -/
  waiting    : List RegAccess := []
  /-- Work that follows CORE's LOGIC_RDY after a target bank failed (R327): sources to complete. -/
  lostActive : List Src := []
  /-- Target banks whose sources are to be presented again (R327). -/
  lostBanks  : BitVec 16 := 0
  /-- Uncorrectable lines of the retention check of a domain, reported after its LOGIC_RDY (R324); true when their bank
  or array failed and is zeroed already. -/
  retLines   : List (LineId × Bool) := []
  /-- CORE came from OFF, and its change detectors restart at the first tick (R70). -/
  coreCold   : Bool := false
  /-- Table and target banks left out of service, and quarters left out (R359). -/
  tblOut     : BitVec 4 := 0
  tgtOut     : BitVec 16 := 0
  deriving DecidableEq, Repr

/-! ## Reliability and Loupe -/

/-- A retirement record entry (R341). Bit 13 of a row marks a state line of a table bank. -/
structure RetireEntry where
  row   : BitVec 14
  count : Nat
  /-- Local tick of the first correction counted (R28). -/
  first : Nat
  deriving DecidableEq, Repr

/-- The reliability page (R351) and repair state (R334 to R344). -/
structure RasUnit where
  fatal        : Bool := false
  fatalReq     : Bool := false
  retireFailed : Bool := false
  retiredEv    : Bool := false
  busParity    : Bool := false
  portParity   : Bool := false
  captureLost  : Bool := false
  uncorrCtrl   : Bool := false
  uncorrCore   : Bool := false
  uncorrTgt    : Bool := false
  uncorrTbl    : Bool := false
  firstValid   : Bool := false
  firstFoundBy : BitVec 3 := 0
  firstArray   : BitVec 4 := 0
  firstBank    : BitVec 6 := 0
  firstSpare   : Bool := false
  firstLine    : BitVec 13 := 0
  firstFrame   : W32 := 0
  corrected    : W32 := 0
  uncorrectable : W32 := 0
  parity       : W32 := 0
  polishPasses : W32 := 0
  arm          : Bool := false
  symbols      : BitVec 2 := 0
  injBank      : BitVec 6 := 0
  /-- Error vectors of stored lines that differ from a codeword. -/
  errs         : List (LineId × BitVec 280) := []
  /-- Lines corrected and not written since: no further correction of theirs is counted for retirement (R334). -/
  uncounted    : List LineId := []
  /-- Write-back queues (R334). -/
  writeBack    : List LineId := []
  /-- Free reads made (numbering of the free value of R333). -/
  freeReads    : Nat := 0
  /-- Polish cursors by array number: 0 to 31 table banks, 32 to 47 target banks, 48 system, 49 index, 50 Clasp. -/
  cursors      : Sparse Nat := []
  /-- Retirement records, by bank of `MW_RAS_INJECT` (R341). -/
  records      : Sparse (List RetireEntry) := []
  /-- Rows due for retirement: bank and row. -/
  dueRetire    : List (Nat × BitVec 14) := []
  /-- Field repair store: bank, row and spare, oldest first; how many are copied to flash (R343). -/
  fieldStore   : List (Nat × BitVec 14 × Nat) := []
  fieldCopied  : Nat := 0
  fieldFlash   : List (Nat × BitVec 14 × Nat) := []
  /-- Fuse entries: bank, row and spare. -/
  fuseSpares   : List (Nat × BitVec 14 × Nat) := []
  /-- The canary rows of a bank of `MW_RAS_INJECT` hold their patterns (R324). -/
  canary       : BitVec 48 := 0
  retiredRows  : BitVec 16 := 0
  /-- Powered hours, and aged hours in units of 1/65,536 hour (R344). -/
  poweredHours : W32 := 0
  agedUnits    : Nat := 0
  lifeDays     : W32 := 14610
  /-- Temperature samples of the running hour: sum, number, and number not valid. -/
  tempSum      : Nat := 0
  tempCount    : Nat := 0
  tempMissing  : Nat := 0
  /-- Retirements by bank with the powered hour of each. -/
  retireHours  : List (Nat × Nat) := []
  /-- Copies of the wear counts in flash. -/
  flashHours   : W32 := 0
  flashAged    : Nat := 0
  flashRetire  : List (Nat × Nat) := []
  deriving DecidableEq, Repr

/-- Loupe (R348, R349, R352). -/
structure LoupeUnit where
  divider : BitVec 9 := 1
  dividerNext : BitVec 9 := 1
  head    : BitVec 8 := 0
  wrapped : Bool := false
  /-- Ring entries, 16 words each. -/
  ring    : Sparse (List W32) := []
  /-- Sums since the last entry, words 1 to 13. -/
  sums    : Sparse W32 := []
  /-- Counts of the running frame, words 1 to 13. -/
  now     : Sparse W32 := []
  /-- Histogram bins, by 16 × tenant + bin. -/
  bins    : Sparse W32 := []
  deriving DecidableEq, Repr

/-! ## Start-up -/

/-- A Hallmark record (R361). -/
structure HmRecord where
  startNo  : W32 := 0
  cause    : Byte := 0
  mode     : Byte := 0
  slot     : Byte := 0
  /-- Step outcomes, steps 1 to 10. -/
  steps    : List Byte := []
  tgtOut   : BitVec 16 := 0
  tblOut   : Byte := 0
  lanesOut : Byte := 0
  ignored  : BitVec 16 := 0
  duration : W32 := 0
  powered  : W32 := 0
  deriving DecidableEq, Repr

/-- One copy of the set of records in flash with its CRC-32 (R360); that of an empty set is 0. -/
structure FlashCopy where
  records : List HmRecord := []
  crc     : W32 := 0
  deriving DecidableEq, Repr

/-- The Hallmark page (R368) and the start in progress. -/
structure HmUnit where
  ready          : Bool := false
  safeMin        : Bool := false
  strapForced    : Bool := false
  step           : BitVec 4 := 1
  safeStep       : BitVec 4 := 0
  flashCopyFail  : Bool := false
  restartRefused : Bool := false
  failed         : BitVec 10 := 0
  /-- Records, the current start first, at most 8. -/
  records        : List HmRecord := []
  /-- The two copies of the set in flash, and which was written last (R360). -/
  flashA         : FlashCopy := {}
  flashB         : FlashCopy := {}
  newestB        : Bool := false
  /-- The reset that waits for its release: cause of the start, and whether it is cold. -/
  inReset        : Option (Byte × Bool) := some (0, true)
  /-- Steps that failed or passed degraded since the last start that reached step 9 (R366). -/
  toReport       : BitVec 10 := 0
  startNo        : W32 := 0
  /-- The switch is without power (R360, R398). -/
  powerOff       : Bool := false
  deriving DecidableEq, Repr

/-- Status of a completion at the fabric port (R52, R337, R370). -/
inductive CplStatus where
  | successful | unsupported | aborted
  deriving DecidableEq, Repr

/-- Levels that the switch presents (R385) and what the block last answered to a non-posted request. -/
structure BoundaryUnit where
  linkUp    : BitVec 80 := 0
  present   : BitVec 80 := 0
  contained : BitVec 80 := 0
  /-- The bytes of the last read completion, by path. -/
  lastRead  : List Byte := []
  /-- The status of that completion. -/
  lastStatus : CplStatus := .successful
  lastNack  : Bool := false
  /-- Upper halves latched by split reads: offset and word, of the sideband and of the manager port (R371). -/
  halfSmbus : Option (BitVec 22 × W32) := none
  halfManager : Option (BitVec 22 × W32) := none
  deriving DecidableEq, Repr

/-! ## The whole state -/

/-- The state of Zeyth-2, and the commands that wait, first in first out. -/
structure State where
  frame   : FrameUnit := {}
  intake  : IntakeUnit := {}
  sys     : SysUnit := {}
  vec     : VecUnit := {}
  tgt     : TgtUnit := {}
  ten     : TenUnit := {}
  mbx     : MbxUnit := {}
  acu     : AcuUnit := {}
  chain   : ChainUnit := {}
  bead    : BeadUnit := {}
  pwr     : PwrUnit := {}
  ras     : RasUnit := {}
  loupe   : LoupeUnit := {}
  hm      : HmUnit := {}
  bnd     : BoundaryUnit := {}
  pending : List Instr := []
  deriving DecidableEq, Repr

/-- The machine while cold reset is asserted (R11): every register at its reset value, the start-up sequence waiting
at step 1 for the release of POR_N, no command waiting. -/
def State.reset : State := {}

end Sys2Proof.Machine
end

