-- ==== Sys2Proof/Machine/Operands.lean ====
section
/-! DEFINITION. Operand forms: source IDs, the fields of configuration and state words, target pages, and the domains by number. -/
namespace Sys2Proof.Machine

/-! ## Domains (R310) -/

def dCORE : Nat := 1
def dTBL (q : Nat) : Nat := 2 + q
def dTGT : Nat := 6
def dCTRL : Nat := 7
def dCHE : Nat := 8
def dCHW : Nat := 9
def dBEAD : Nat := 10
def dLOUPE : Nat := 11

/-! ## Source IDs (R4, R5, R68) -/

/-- The classes of R4. -/
inductive SrcClass where
  | priv (n : Nat)
  | system (n : Nat)
  | message (v : Nat)
  | reserved
  deriving DecidableEq, Repr

/-- System indices that R68 defines. -/
def sysDefined (n : Nat) : Bool :=
  (n < 80) || (0x80 ≤ n && n < 0x80 + 80) || (0x100 ≤ n && n < 0x100 + 80) || (0x180 ≤ n && n < 0x180 + 80)
    || (0x200 ≤ n && n < 0x200 + 80) || (0x260 ≤ n && n < 0x2E0) || (0x300 ≤ n && n < 0x4D0)

/-- The class of a source ID; outside the defined ranges, and for an undefined system index, reserved (R5). -/
def srcClass (s : Src) : SrcClass :=
  let n := s.toNat
  if n < 16 then .priv n
  else if 0x400000 ≤ n ∧ n < 0x401000 then
    if sysDefined (n - 0x400000) then .system (n - 0x400000) else .reserved
  else if 0x800000 ≤ n ∧ n < 0x900000 then .message (n - 0x800000)
  else .reserved

def msgSrc (v : Nat) : Src := BitVec.ofNat 24 (0x800000 + v)
def sysSrc (n : Nat) : Src := BitVec.ofNat 24 (0x400000 + n)
def privSrc (n : Nat) : Src := BitVec.ofNat 24 n

/-- A system source whose level changes raise an edge in either direction (R70). -/
def raisesOnEach (n : Nat) : Bool :=
  (n < 0x80) || (0x180 ≤ n && n < 0x200) || (0x4C0 ≤ n && n < 0x4D0)

/-- The TBL quarter of a vector (R21). -/
def quarterOf (v : Nat) : Nat := v / 0x40000 % 4

/-- Bank and line of a vector's configuration word (R21). -/
def cfgLine (v : Nat) : LineId := ⟨.config, 8 * quarterOf v + v / 4 % 8, v / 32 % 8192⟩
/-- Bank and line of a vector's state word (R21). -/
def stLine (v : Nat) : LineId := ⟨.state, 8 * quarterOf v + v / 8 % 8, v / 64 % 4096⟩
/-- The two lines that a target record touches: record k of its group of 4 takes bits 320k to 320k + 319 of the
group's 5 lines (R20), in the bank of R327. -/
def tgtLines (x : Nat) : LineId × LineId :=
  (⟨.target, x / 4096, x % 4096 / 4 * 5 + x % 4⟩, ⟨.target, x / 4096, x % 4096 / 4 * 5 + x % 4 + 1⟩)
/-- The slots whose records touch a target line. -/
def lineSlots (l : LineId) : List Nat :=
  let at_ (k : Nat) : Nat := l.bank * 4096 + l.line / 5 * 4 + k
  match l.line % 5 with
  | 0 => [at_ 0]
  | 4 => [at_ 3]
  | k => [at_ (k - 1), at_ k]
/-- Line of a system source's configuration or state word in the system table (R20). -/
def sysCfgLine (n : Nat) : LineId := ⟨.system, 0, n / 4⟩
def sysStLine (n : Nat) : LineId := ⟨.system, 0, 1024 + n / 8⟩
def claspLine (g : Nat) : LineId := ⟨.clasp, 0, g / 4⟩
/-- The vectors of a configuration line and of a state line (R21). -/
def cfgVectors (l : LineId) : List Nat :=
  (List.range 4).map fun w => l.bank / 8 * 0x40000 + l.line * 32 + l.bank % 8 * 4 + w
def stVectors (l : LineId) : List Nat :=
  (List.range 8).map fun w => l.bank / 8 * 0x40000 + l.line * 64 + l.bank % 8 * 8 + w

/-! ## The configuration word (R78, R79) -/

def cFwd (c : W64) : Bool := c.getLsbD 63
def cEnable (c : W64) : Bool := c.getLsbD 62
def cMode (c : W64) : Bool := c.getLsbD 61
def cLocked (c : W64) : Bool := c.getLsbD 60
def cWatched (c : W64) : Bool := c.getLsbD 59
def cReqCheck (c : W64) : Bool := c.getLsbD 58
def cClaspEn (c : W64) : Bool := c.getLsbD 57
def cClasp (c : W64) : BitVec 12 := field c 40 12
def cTag (c : W64) : BitVec 8 := field c 32 8
def cReqId (c : W64) : BitVec 16 := field c 16 16
def cTarget (c : W64) : Slot := field c 0 16
def cDestTenant (c : W64) : Tenant := field c 24 6
def cDestChip (c : W64) : Chip := field c 20 4
def cDestVector (c : W64) : BitVec 20 := field c 0 20

/-- A word with one bit written. -/
def putBit {w : Nat} (x : BitVec w) (i : Nat) (b : Bool) : BitVec w :=
  if b then x ||| BitVec.twoPow w i else x &&& ~~~ BitVec.twoPow w i

/-! ## The state word (R84) -/

def sPending (w : W32) : Bool := w.getLsbD 31
def sActive (w : W32) : Bool := w.getLsbD 30
def sSaturated (w : W32) : Bool := w.getLsbD 29
def sRedeliver (w : W32) : Bool := w.getLsbD 28
def sCount (w : W32) : BitVec 16 := field w 0 16

/-- A state word from its fields. -/
def mkState (pending active saturated redeliver : Bool) (count : BitVec 16) : W32 :=
  place 32 (bit 1 pending) 31 ||| place 32 (bit 1 active) 30 ||| place 32 (bit 1 saturated) 29
    ||| place 32 (bit 1 redeliver) 28 ||| count.setWidth 32

/-! ## Ranges (R169) -/

def rangeSize (r : Range) : Nat := 2 ^ r.log2.toNat
def rangeHas (r : Range) (v : Nat) : Bool := r.base.toNat ≤ v && v < r.base.toNat + rangeSize r
def rangeOverlaps (r q : Range) : Bool :=
  r.base.toNat < q.base.toNat + rangeSize q && q.base.toNat < r.base.toNat + rangeSize r

/-- Frames of the clear sweep of a range: L = S/128 + S/256, or 3 for the two smallest, at 52 a frame (R171). -/
def sweepFrames (r : Range) : Nat :=
  let writes := if rangeSize r < 256 then 3 else rangeSize r / 128 + rangeSize r / 256
  (writes + 51) / 52

/-! ## Principals and mailboxes (R162, R183) -/

/-- The tenant of a path; the FM's two paths have none. -/
def pathTenant : Path → Option Tenant
  | .tenant t => some t
  | .manager => none
  | .smbus => none

def pathFm (p : Path) : Bool := (pathTenant p).isNone

/-- The mailbox that a path reaches: its tenant's, or number 64. -/
def pathMailbox : Path → BitVec 7
  | .tenant t => t.setWidth 7
  | .manager => 64
  | .smbus => 64

/-- The tenant of a mailbox, none for the FM's. -/
def mbTenant (m : BitVec 7) : Option Tenant := if m.toNat < 64 then some (m.setWidth 6) else none

/-- The tenants in ascending order. -/
def allTenants : List Tenant := (List.range 64).map (BitVec.ofNat 6)

/-- Bits of a list of flags, the first in bit 0. -/
def packBits (w : Nat) (bs : List Bool) : BitVec w :=
  bs.foldr (fun b acc => (acc <<< 1) ||| bit w b) 0

/-- The `n` low bytes of a number, least significant first. -/
def bytesLE : Nat → Nat → List Byte
  | 0, _ => []
  | n + 1, x => BitVec.ofNat 8 x :: bytesLE n (x / 256)

/-- The number a list of bytes spells, least significant first. -/
def ofBytesLE : List Byte → Nat
  | [] => 0
  | b :: bs => b.toNat + 256 * ofBytesLE bs

end Sys2Proof.Machine
end

