-- ==== Sys2Proof/Machine/LineCode.lean ====
section
/-! DEFINITION. The line code of R333: arithmetic in GF(2^8), the check symbols of a line, and what a read decodes. -/
namespace Sys2Proof.Machine

/-- Multiplication by α = 0x02 modulo x^8 + x^4 + x^3 + x^2 + 1 (R333). -/
def gfDouble (a : BitVec 8) : BitVec 8 := if a.getLsbD 7 then (a <<< 1) ^^^ 0x1D else a <<< 1

/-- The product of two field elements, by the bits of the second from `n` down. -/
def gfMulBits (a b : BitVec 8) : Nat → BitVec 8
  | 0 => 0
  | n + 1 => gfDouble (gfMulBits a b n) ^^^ (if b.getLsbD (7 - n) then a else 0)

def gfMul (a b : BitVec 8) : BitVec 8 := gfMulBits a b 8

/-- The generator's coefficients below x^3: g(x) = (x - 1)(x - α)(x - α^2) = x^3 + 7x^2 + 14x + 8 (R333). -/
def genCoeffs : BitVec 8 × BitVec 8 × BitVec 8 := (0x08, 0x0E, 0x07)

/-- One step of the division of d(x) × x^3 by g(x): the next data symbol, highest first. -/
def checkStep (r : BitVec 8 × BitVec 8 × BitVec 8) (d : BitVec 8) : BitVec 8 × BitVec 8 × BitVec 8 :=
  let f := d ^^^ r.2.2
  (gfMul f genCoeffs.1, r.1 ^^^ gfMul f genCoeffs.2.1, r.2.1 ^^^ gfMul f genCoeffs.2.2)

/-- The data symbols of a line, highest first (R333). -/
def dataSymbols (d : BitVec 256) : List (BitVec 8) :=
  (List.range 32).map fun i => field d (8 * (31 - i)) 8

/-- The check bits of a line: check symbol j in bits [8j + 7 : 8j] (R333). -/
def checkBits (d : BitVec 256) : BitVec 24 :=
  let r := (dataSymbols d).foldl checkStep (0, 0, 0)
  place 24 r.1 0 ||| place 24 r.2.1 8 ||| place 24 r.2.2 16

/-- The syndrome c(α^k) of a codeword's 35 symbols, highest power first, by Horner's rule. -/
def syndrome (root : BitVec 8) (symbols : List (BitVec 8)) : BitVec 8 :=
  symbols.foldl (fun acc x => gfMul acc root ^^^ x) 0

/-- The 35 symbols of a stored line, highest power of x first: data symbols 31 to 0, check symbols 2 to 0. -/
def codeSymbols (d : BitVec 256) (c : BitVec 24) : List (BitVec 8) :=
  dataSymbols d ++ [field c 16 8, field c 8 8, field c 0 8]

/-- The number of symbols in error in a line's error vector: data bits in [255:0], check bits in [279:256]. -/
def symbolErrors (e : BitVec 280) : Nat :=
  ((List.range 35).filter fun i => (field e (8 * i) 8 : BitVec 8) != 0).length

/-- What a read of a line decodes (R333). -/
inductive ReadOutcome where
  | clean
  | corrected
  | uncorrectable
  /-- Three or more symbols in error, used as if corrected, with these data bits wrong. -/
  | miscorrected (bits : BitVec 256)
  deriving DecidableEq, Repr

/-- The outcome for an error vector: `k` numbers the free reads made. -/
def decodeLine (k : Nat) (e : BitVec 280) : ReadOutcome :=
  match symbolErrors e with
  | 0 => .clean
  | 1 => .corrected
  | 2 => .uncorrectable
  | _ => if Config.wideErrorOutcome k = 0 then .miscorrected (Config.wideErrorBits k) else .uncorrectable

/-- The error vector that an injection stores: check symbol 0 inverted, or check symbols 0 and 1 (R347). -/
def injectedError (symbols : BitVec 2) : BitVec 280 :=
  if symbols = 1 then place 280 (0xFF : BitVec 8) 256 else place 280 (0xFFFF : BitVec 16) 256

end Sys2Proof.Machine
end

