-- ==== Sys2Proof/Machine/Flags.lean ====
section
/-! DEFINITION. The transitions of a source's state word: the rows of R86 and R87 as functions of the word and the mode. -/
namespace Sys2Proof.Machine

/-- What an edge does to a state word: the new word, whether the source goes from IDLE to PEND, and whether SATURATED
goes from 0 to 1 (R86, R87, R88). `counted` is MODE. -/
def edgeWord (counted : Bool) (w : W32) : W32 × Bool × Bool :=
  if counted then
    if sCount w = 0xFFFF then
      (mkState (sPending w) (sActive w) true (sRedeliver w) (sCount w), false, !sSaturated w)
    else
      (mkState (!sActive w) (sActive w) (sSaturated w) (sRedeliver w) (sCount w + 1),
        !sActive w && !sPending w, false)
  else
    (mkState true (sActive w) (sSaturated w) (sRedeliver w) (sCount w), !sActive w && !sPending w, false)

/-- Clear pending: PENDING and COUNT go, ACTIVE, SATURATED and REDELIVER stay (R86, R87). -/
def clearWord (w : W32) : W32 :=
  mkState false (sActive w) (sSaturated w) (sRedeliver w) 0

/-- Commit: the source becomes active, PENDING and COUNT are taken (R86, R87, R90). -/
def commitWord (w : W32) : W32 :=
  mkState false true (sSaturated w) (sRedeliver w) 0

/-- Completion: REDELIVER clears, and edges that arrived meanwhile leave the source pending (R86, R87). A word that
is not active (zeroed under R335) stays as it is. -/
def completeWord (counted : Bool) (w : W32) : W32 :=
  if sActive w then
    mkState (if counted then sCount w != 0 else sPending w) false (sSaturated w) false (sCount w)
  else w

/-- RESYNC re-issue: REDELIVER is set on an active source (R86, R87). -/
def redeliverWord (w : W32) : W32 :=
  if sActive w then mkState (sPending w) true (sSaturated w) true (sCount w) else w

/-- Clear sticky (R95). -/
def clearStickyWord (w : W32) : W32 :=
  mkState (sPending w) (sActive w) false (sRedeliver w) (sCount w)

/-- A change of MODE on a source that is not active (R102). -/
def convertWord (toCounted : Bool) (w : W32) : W32 :=
  if sPending w then mkState true (sActive w) (sSaturated w) (sRedeliver w) (if toCounted then 1 else 0)
  else mkState false (sActive w) (sSaturated w) (sRedeliver w) 0

end Sys2Proof.Machine
end

