-- ==== Sys2Proof/Machine/Ops.lean ====
section
/-! DEFINITION. The named operations over the state that every command is built from: unit accessors, waking a domain, raising a system source, charging a fault, the shortlist, discards and credits. -/
namespace Sys2Proof.Machine

/-! ## Accessors -/

def State.tenant (s : State) (t : Tenant) : TenantRec := Sparse.get {} s.ten.recs t.toNat
def State.setTenant (s : State) (t : Tenant) (r : TenantRec) : State :=
  { s with ten := { s.ten with recs := Sparse.set {} s.ten.recs t.toNat r } }
def State.modTenant (s : State) (t : Tenant) (f : TenantRec → TenantRec) : State :=
  s.setTenant t (f (s.tenant t))

def State.target (s : State) (x : Slot) : TargetRec := Sparse.get {} s.tgt.recs x.toNat
def State.setTarget (s : State) (x : Slot) (r : TargetRec) : State :=
  { s with tgt := { s.tgt with recs := Sparse.set {} s.tgt.recs x.toNat r } }
def State.modTarget (s : State) (x : Slot) (f : TargetRec → TargetRec) : State :=
  s.setTarget x (f (s.target x))

def State.dom (s : State) (d : Nat) : DomainRec := Sparse.get {} s.pwr.domains d
def State.setDom (s : State) (d : Nat) (r : DomainRec) : State :=
  { s with pwr := { s.pwr with domains := Sparse.set {} s.pwr.domains d r } }

def State.box (s : State) (m : BitVec 7) : Mailbox := Sparse.get {} s.mbx.boxes m.toNat
def State.setBox (s : State) (m : BitVec 7) (b : Mailbox) : State :=
  { s with mbx := { s.mbx with boxes := Sparse.set {} s.mbx.boxes m.toNat b } }
def State.modBox (s : State) (m : BitVec 7) (f : Mailbox → Mailbox) : State :=
  s.setBox m (f (s.box m))

def State.clasp (s : State) (g : BitVec 12) : ClaspWord := Sparse.get {} s.ten.clasp g.toNat
def State.setClasp (s : State) (g : BitVec 12) (w : ClaspWord) : State :=
  { s with ten := { s.ten with clasp := Sparse.set {} s.ten.clasp g.toNat w } }

def State.busyBit (s : State) (x : Slot) : Bool := Sparse.get false s.tgt.busy x.toNat
def State.setBusy (s : State) (x : Slot) (b : Bool) : State :=
  { s with tgt := { s.tgt with busy := Sparse.set false s.tgt.busy x.toNat b } }
/-- The busy bit is to be cleared at the next tick (R32). -/
def State.clearBusyNext (s : State) (x : Slot) : State :=
  { s with tgt := { s.tgt with busyClear := Sparse.set false s.tgt.busyClear x.toNat true } }

def State.setFrame (s : State) (u : FrameUnit) : State := { s with frame := u }
def State.setIntake (s : State) (u : IntakeUnit) : State := { s with intake := u }
def State.setSys (s : State) (u : SysUnit) : State := { s with sys := u }
def State.setVec (s : State) (u : VecUnit) : State := { s with vec := u }
def State.setTgt (s : State) (u : TgtUnit) : State := { s with tgt := u }
def State.setTen (s : State) (u : TenUnit) : State := { s with ten := u }
def State.setMbx (s : State) (u : MbxUnit) : State := { s with mbx := u }
def State.setAcu (s : State) (u : AcuUnit) : State := { s with acu := u }
def State.setChain (s : State) (u : ChainUnit) : State := { s with chain := u }
def State.setBead (s : State) (u : BeadUnit) : State := { s with bead := u }
def State.setPwr (s : State) (u : PwrUnit) : State := { s with pwr := u }
def State.setRas (s : State) (u : RasUnit) : State := { s with ras := u }
def State.setLoupe (s : State) (u : LoupeUnit) : State := { s with loupe := u }
def State.setHm (s : State) (u : HmUnit) : State := { s with hm := u }
def State.setBnd (s : State) (u : BoundaryUnit) : State := { s with bnd := u }
def State.setFw (s : State) (u : FwUnit) : State := s.setMbx { s.mbx with fw := u }

/-- The tenants that have a record, in ascending order; every other tenant is unbound and empty. -/
def State.listedTenants (s : State) : List Tenant := s.ten.recs.map fun p => BitVec.ofNat 6 p.1

def State.chipId (s : State) : Chip := field s.bead.strap 0 4
def State.chainMode (s : State) : BitVec 2 := field s.bead.strap 4 2

/-- FRAME_COUNT[31:0]. -/
def State.frameLo (s : State) : W32 := s.frame.count.setWidth 32

/-- Adds `n` to word `w` of Loupe's counts of the running frame (R348). -/
def State.count (s : State) (w n : Nat) : State :=
  s.setLoupe { s.loupe with now := Sparse.set 0 s.loupe.now w (satAdd (Sparse.get 0 s.loupe.now w) n) }

/-! ## The capacities of a frame (R24, R36) -/

/-- The lanes whose operations a frame bounds by a share of its period (R36). -/
inductive Lane where
  | intake | system | priv | completion
  deriving DecidableEq, Repr

/-- A frame of F core cycles serves F divided by this number of a lane's operations. -/
def laneShare : Lane → Nat
  | .intake => 2
  | .system => 8
  | .priv => 8
  | .completion => 4

def FrameUse.taken (u : FrameUse) : Lane → Nat
  | .intake => u.intake
  | .system => u.system
  | .priv => u.priv
  | .completion => u.completion

/-- The lane has capacity left in the running frame. -/
def State.laneOpen (s : State) (k : Lane) : Bool :=
  decide (s.frame.use.taken k < s.frame.current.toNat / laneShare k)

def State.setUse (s : State) (u : FrameUse) : State := s.setFrame { s.frame with use := u }

/-- One operation of a lane. -/
def takeLane (s : State) (k : Lane) : State :=
  let u := s.frame.use
  s.setUse (match k with
    | .intake => { u with intake := u.intake + 1 }
    | .system => { u with system := u.system + 1 }
    | .priv => { u with priv := u.priv + 1 }
    | .completion => { u with completion := u.completion + 1 })

/-- The demand of the running frame is above its budget (R24). -/
def exceed (s : State) : State := s.setUse { s.frame.use with excess := true }

/-- The table banks of a source's configuration and state words (R21), one after the other. -/
def sourceBanks (src : Src) : Option (Nat × Nat) :=
  match srcClass src with
  | .message v => some ((cfgLine v).bank, (stLine v).bank)
  | _ => none

def State.bankUse (s : State) (b : Nat) : Nat := Sparse.get 0 s.frame.use.banks b

/-- The banks of a source have cycles left for one access to its configuration word and `n` to its state word: a bank
serves F/2 accesses in a frame (R23). -/
def State.banksOpen (s : State) (src : Src) (n : Nat) : Bool :=
  match sourceBanks src with
  | some (c, w) =>
    decide (s.bankUse c + (if c = w then n + 1 else 1) ≤ s.frame.current.toNat / 2) &&
      decide (s.bankUse w + n ≤ s.frame.current.toNat / 2)
  | none => true

/-- Counts one access to a source's configuration word and `n` to its state word. -/
def takeBanks (s : State) (src : Src) (n : Nat) : State :=
  match sourceBanks src with
  | some (c, w) =>
    let m := Sparse.set 0 s.frame.use.banks c (s.bankUse c + 1)
    s.setUse { s.frame.use with banks := Sparse.set 0 m w (Sparse.get 0 m w + n) }
  | none => s

/-! ## Power: which domains are ON, and waking one (R311 to R313) -/

/-- The domains that must be ON together with `d` (R312). -/
def required (d : Nat) : List Nat :=
  if d = dCORE then [dTGT]
  else if d = dTGT ∨ d = dCTRL ∨ d = dLOUPE then []
  else [dTGT, dCORE]

/-- A domain is ON, with no transition begun (R313). -/
def State.isOn (s : State) (d : Nat) : Bool := (s.dom d).state == .on && (s.dom d).trans == .none

/-- A domain works: it is ON. CORE works on until its stop instant, though its entry has begun (R314). -/
def State.works (s : State) (d : Nat) : Bool :=
  let r := s.dom d
  r.state == .on && (match r.trans with
    | .none => true
    | .entering _ => d == dCORE && !s.pwr.stopped
    | .exiting _ _ _ => false)

/-- The banks of a quarter serve a running refill pass: ON, or still in step 1 of an entry (R314). -/
def State.banksRun (s : State) (q : Nat) : Bool := (s.dom (dTBL q)).state == .on

/-- CORE and TGT do the work of the frame; TGT not ON is treated as CORE not ON (R15). -/
def State.coreOn (s : State) : Bool := s.works dCORE && s.isOn dTGT

/-- CORE and TGT are ON for what reaches them from outside: once CORE's entry begins, it is captured or held, and a wake
cause is latched (R313, R330). -/
def State.coreUp (s : State) : Bool := s.isOn dCORE && s.isOn dTGT

/-- The code of a wake cause in `PWR_WAKE_CAUSE` (R331). -/
def causeCode : WakeCause → BitVec 4
  | .watched _ => 1
  | .captureFill => 2
  | .access => 3
  | .order => 4
  | .replayed => 5

def causeSrc : WakeCause → Src
  | .watched x => x
  | _ => 0

/-- A quarter that stays in OFF: left out at start-up, or in safe-minimum mode (R359, R363). R204 does not say how a
command that names a vector of such a quarter is answered; it waits for the quarter without end, which is the model's
choice (log entry 54). -/
def State.keptOff (s : State) (d : Nat) : Bool :=
  2 ≤ d && d < 6 && (s.pwr.tblOut.getLsbD (d - 2) || s.hm.safeMin)

/-- A quarter that is not ON and that a wake can bring back: what concerns it waits (R15). Nothing waits for a quarter
that is kept OFF. -/
def State.quarterAway (s : State) (q : Nat) : Bool := !s.isOn (dTBL q) && !s.keptOff (dTBL q)

/-- Begins the exit of one domain in RET or OFF, or latches the cause during its entry (R313): a wake cause, or an order
of ON that must bring the domain with it (R312). A quarter that is kept OFF stays there (R359, R363). -/
def wakeOne (cause : WakeCause) (s : State) (d : Nat) : State :=
  let r := s.dom d
  match r.trans with
  | .entering _ => s.setDom d { r with latched := some (r.latched.getD cause) }
  | .exiting _ _ _ => s
  | .none =>
    if r.state = .on then s
    else if s.keptOff d ∨ (r.stuck ∧ cause ≠ .order) then s
    else
      let s := s.setDom d { r with
        trans := .exiting r.state .regulator false, auto := decide (cause ≠ .order), lateSeen := false,
        logicSeen := false, stuck := false }
      if d = dCORE then
        s.setPwr { s.pwr with wakeCause := causeCode cause, wakeSrc := causeSrc cause }
      else s

/-- Locket brings a domain to ON with every domain that R312 requires (R311). -/
def wake (cause : WakeCause) (s : State) (d : Nat) : State :=
  (required d ++ [d]).foldl (wakeOne cause) s

/-- The TBL quarters that hold a granted range. -/
def State.grantedQuarters (s : State) : List Nat :=
  (List.range 4).filter fun q => s.ten.recs.any fun p =>
    match p.2.range with
    | some r => quarterOf r.base.toNat == q
    | none => false

/-- The wake of R319: CORE, TGT and every quarter with a granted range. -/
def wakeAll (cause : WakeCause) (s : State) : State :=
  if s.coreUp then s
  else (dCORE :: s.grantedQuarters.map dTBL).foldl (wake cause) s

/-- Locket compares a source with the watch list (R319). A match while CORE is ON has no effect. -/
def watchMatch (s : State) (x : Src) : State :=
  if x ∈ s.pwr.watch then wakeAll (.watched x) s else s

/-! ## System sources: arrivals and levels (R67, R70, R72) -/

def State.latch (s : State) (n : Nat) : SysLatch := Sparse.get {} s.sys.latch n
def State.setLatch (s : State) (n : Nat) (l : SysLatch) : State :=
  s.setSys { s.sys with latch := Sparse.set {} s.sys.latch n l }

/-- An arrival on system source `n`: its latch bit, or held at the edge of CORE and compared with the watch list. An
undefined index raises nothing (R68). -/
def raiseSource (s : State) (n : Nat) : State :=
  if !sysDefined n then s
  else if s.isOn dCORE then s.setLatch n { s.latch n with arrival := true }
  else watchMatch (s.setSys { s.sys with held := Sparse.set false s.sys.held n true }) (sysSrc n)

def State.level (s : State) (n : Nat) : Bool := Sparse.get false s.sys.levels n

/-- The level of a condition source; a change that R70 names raises one edge. -/
def setLevel (s : State) (n : Nat) (b : Bool) : State :=
  if s.level n = b then s
  else
    let s := s.setSys { s.sys with levels := Sparse.set false s.sys.levels n b }
    if b || raisesOnEach n then raiseSource s n else s

/-! ## Grants (R166, R116) -/

/-- Owner and local index of a slot. -/
def State.slotOwner (s : State) (x : Slot) : Option (Tenant × BitVec 10) :=
  match Sparse.get none s.ten.blocks (x.toNat / 64) with
  | some (t, j) => some (t, BitVec.ofNat 10 (64 * j.toNat + x.toNat % 64))
  | none => none

/-- The global block that fills local block `j` of a tenant. -/
def State.blockOf (s : State) (t : Tenant) (j : Nat) : Option Nat :=
  (s.ten.blocks.find? fun p => match p.2 with
    | some (u, k) => u == t && k.toNat == j
    | none => false).map (·.1)

/-- The global slot of a local index. -/
def State.slotOf (s : State) (t : Tenant) (i : BitVec 10) : Option Slot :=
  (s.blockOf t (i.toNat / 64)).map fun g => BitVec.ofNat 16 (64 * g + i.toNat % 64)

/-- `LOCAL_BLOCKS` of `TW_GRANT_TARGETS` (R181). -/
def State.localBlocks (s : State) (t : Tenant) : BitVec 16 :=
  packBits 16 ((List.range 16).map fun j => (s.blockOf t j).isSome)

/-- The slots granted to a tenant, ascending. -/
def State.slotsOf (s : State) (t : Tenant) : List Slot :=
  s.ten.blocks.flatMap fun p => match p.2 with
    | some (u, _) => if u = t then (List.range 64).map fun k => BitVec.ofNat 16 (64 * p.1 + k) else []
    | none => []

/-- Every granted slot, ascending, with its tenant. -/
def State.grantedSlots (s : State) : List (Tenant × Slot) :=
  s.ten.blocks.flatMap fun p => match p.2 with
    | some (u, _) => (List.range 64).map fun k => (u, BitVec.ofNat 16 (64 * p.1 + k))
    | none => []

/-- Local index of the tenant's notice target: the one named, or the lowest granted (R116). -/
def State.noticeLocal (s : State) (t : Tenant) (named : Option (BitVec 10)) : Option (BitVec 10) :=
  match named with
  | some i => if (s.slotOf t i).isSome then some i else lowest
  | none => lowest
where
  lowest : Option (BitVec 10) :=
    ((List.range 16).find? fun j => (s.blockOf t j).isSome).map fun j => BitVec.ofNat 10 (64 * j)

/-- The notice target in force. -/
def State.noticeSlot (s : State) (t : Tenant) : Option Slot :=
  match s.noticeLocal t (s.tenant t).notice with
  | some i => s.slotOf t i
  | none => none

/-- Sets a private pending bit of a slot (R113). -/
def setPriv (s : State) (x : Slot) (n : Nat) : State :=
  s.modTarget x fun r => { r with privPend := r.privPend ||| BitVec.twoPow 13 n }

/-- One of P:9 to P:12 on the tenant's notice target; without one, nothing (R116). -/
def raiseNotice (s : State) (t : Tenant) (n : Nat) : State :=
  match s.noticeSlot t with
  | some x => setPriv s x n
  | none => s

/-- Raises one of P:9 to P:12. While CORE or TGT is not ON the sender holds it (R19). -/
def notify (s : State) (t : Tenant) (n : Nat) : State :=
  if s.coreOn then raiseNotice s t n
  else if (t, n) ∈ s.tgt.heldNotices then s
  else s.setTgt { s.tgt with heldNotices := s.tgt.heldNotices ++ [(t, n)] }

/-- What was held at the edge of CORE goes in, once CORE and TGT are ON. -/
def releaseHeldNotices (s : State) : State :=
  if s.coreOn then
    s.tgt.heldNotices.foldl (fun s e => raiseNotice s e.1 e.2) (s.setTgt { s.tgt with heldNotices := [] })
  else s

/-- A RESETTING tenant: the tick after acceptance has come (R165). -/
def State.resetting (s : State) (t : Tenant) : Bool :=
  match (s.tenant t).reset with
  | some r => r.inForce
  | none => false

/-! ## Tenant faults (R173, R174) -/

/-- The summary bit of a fault code (R173). -/
def faultBit : Nat → Nat
  | 0x01 => 0
  | 0x02 => 1
  | 0x03 => 2
  | 0x04 => 2
  | 0x05 => 3
  | 0x06 => 3
  | 0x07 => 4
  | 0x08 => 4
  | 0x09 => 5
  | 0x0A => 6
  | 0x0B => 6
  | _ => 7

/-- Charges a fault to a tenant: the count, the summary bit, the first-fault record, P:10 for a bit that rises, and the
level of S:0x400 + t (R174). -/
def chargeFault (s : State) (t : Tenant) (code : Nat) (detail : W32) : State :=
  let r := s.tenant t
  let i := faultBit code
  let rose := !r.faultSummary.getLsbD i
  let r := { r with
    faultCount := satInc r.faultCount
    faultSummary := r.faultSummary ||| BitVec.twoPow 8 i }
  let r := if r.faultValid then r else { r with
    faultValid := true, faultCode := BitVec.ofNat 8 code, faultDetail := detail, faultFrame := s.frameLo }
  let s := s.setTenant t r
  let s := if rose then notify s t 10 else s
  setLevel s (0x400 + t.toNat) true

/-! ## Intake discards and credits (R59, R61, R64) -/

/-- The system source that reports a discard reason (R69). -/
def discardSource (reason : Nat) : Nat :=
  if reason ≤ 2 then 0x265
  else if reason ≤ 5 then 0x266
  else if reason = 6 then 0x267
  else 0x268

/-- The `TW_INTAKE_STATUS` bit of a reason that is charged to a tenant (R59, R77). -/
def chargedBit (reason : Nat) : Option Nat :=
  if reason = 1 ∨ reason = 2 then some 3
  else if reason = 6 then some 1
  else if reason = 7 then some 2
  else if reason = 8 ∨ reason = 9 then some 4
  else none

/-- The tenant fault of a discard reason (R173). -/
def discardFault (reason : Nat) : Option Nat :=
  if reason = 6 then some 1
  else if reason = 7 then some 2
  else if reason = 8 then some 3
  else if reason = 9 then some 4
  else none

/-- A discard of R56: counted, recorded when the first-discard record is free, raised, and charged to the tenant in
whose granted range the vector lies (R59). `chain` is the origin chip of an edge record (R74). -/
def discard (s : State) (reason : Nat) (v : BitVec 20) (owner : BitVec 7) (chain : Option Chip)
    (requester : BitVec 16) (t : Option Tenant) : State :=
  let u := s.intake
  let u := { u with discardCount := satInc u.discardCount }
  let u := if u.discard.valid then u else { u with discard :=
    { valid := true, reason := BitVec.ofNat 4 reason,
      owner := if chain.isSome then 0 else owner, chain := chain.isSome,
      requester := match chain with
        | some c => c.setWidth 16
        | none => requester
      vector := v, frame := s.frameLo } }
  let s := (s.setIntake u).count 2 1
  let s := raiseSource s (discardSource reason)
  match t, chargedBit reason with
  | some t, some b =>
    let s := s.modTenant t fun r => { r with
      discards := satInc r.discards, intakeStatus := r.intakeStatus ||| BitVec.twoPow 5 b }
    match discardFault reason with
    | some code => chargeFault s t code (v.setWidth 32)
    | none => s
  | _, _ => s

/-- Takes one credit of a tenant pool; its fall to zero sets SATURATED, whose rise is an edge on S:0x440 + t (R64). -/
def takeCredit (s : State) (t : Tenant) : State :=
  let r := s.tenant t
  let left := r.credits - 1
  let s := s.setTenant t { r with credits := left }
  if left = 0 then
    let s := s.modTenant t fun r => { r with
      zeroSeen := true, satFrames := if r.zeroSeen then r.satFrames else satInc r.satFrames
      intakeStatus := r.intakeStatus ||| 1 }
    setLevel s (0x440 + t.toNat) true
  else s

/-- Returns one credit to a tenant pool (R61). -/
def returnCredit (s : State) (t : Tenant) : State :=
  s.modTenant t fun r => { r with credits := if r.credits.toNat < 440 then r.credits + 1 else r.credits }

/-! ## The shortlist (R117 to R119) -/

/-- A source of a class whose overflow flag is SysOverflow. -/
def isSystem (x : Src) : Bool :=
  match srcClass x with
  | .system _ => true
  | _ => false

/-- Inserts an entry in ascending place. -/
def slInsert (e : SlEntry) : List SlEntry → List SlEntry
  | [] => [e]
  | f :: l => if e.src.toNat < f.src.toNat then e :: f :: l else f :: slInsert e l

/-- The highest entry of a list in ascending order. -/
def slHighest : List SlEntry → Option SlEntry
  | [] => none
  | [e] => some e
  | _ :: l => slHighest l

/-- Sets the overflow flag of a source's class. -/
def setOverflow (r : TargetRec) (x : Src) : TargetRec :=
  if isSystem x then { r with sysOverflow := true } else { r with overflow := true }

/-- Presentation of a source to a target record (the first procedure of R118). -/
def presentRec (r : TargetRec) (x : Src) (marker : BitVec 16) : TargetRec :=
  if r.shortlist.any (·.src == x) then r
  else
    let below := match slHighest r.shortlist with
      | some h => decide (x.toNat < h.src.toNat)
      | none => false
    let e : SlEntry := ⟨x, true, marker⟩
    if r.shortlist.length < 8 then
      if (!r.overflow && !r.sysOverflow) || r.refilling || below then
        { r with shortlist := slInsert e r.shortlist }
      else setOverflow r x
    else if below then
      match slHighest r.shortlist with
      | some h => { setOverflow r h.src with shortlist := slInsert e r.shortlist.dropLast }
      | none => r
    else setOverflow r x

/-- A request for a message pass: the tenant joins the queue once (R120). -/
def requestMsg (s : State) (t : Tenant) : State :=
  if t ∈ s.tgt.msgQueue then s
  else s.setTgt { s.tgt with msgQueue := s.tgt.msgQueue ++ [t] }

def requestSys (s : State) : State := s.setTgt { s.tgt with sysRequest := true }

/-- The empty shortlist of a target with an overflow flag requests the refills the flags name (R118). -/
def requestRefill (s : State) (x : Slot) : State :=
  let r := s.target x
  if r.shortlist.isEmpty && (r.overflow || r.sysOverflow) && !r.refilling then
    let s := s.setTarget x { r with
      refilling := true, overflow := false, sysOverflow := false,
      wantsMsg := r.wantsMsg || r.overflow, wantsSys := r.wantsSys || r.sysOverflow }
    let s := if r.overflow then
        match s.slotOwner x with
        | some (t, _) => requestMsg s t
        | none => s
      else s
    if r.sysOverflow then requestSys s else s
  else s

/-- Removal of a source from a target (the second procedure of R118), on the record alone. -/
def removeRaw (s : State) (x : Slot) (src : Src) : State :=
  let r := s.target x
  let s := s.setTarget x { r with shortlist := r.shortlist.filter (·.src != src) }
  requestRefill s x

/-- The tenant in whose granted range a vector lies. -/
def State.rangeOwner (s : State) (v : Nat) : Option Tenant :=
  (s.ten.recs.find? fun p => match p.2.range with
    | some r => rangeHas r v
    | none => false).map fun p => BitVec.ofNat 6 p.1

/-- The tenant to which the front end's range map gives a vector (R169). -/
def State.mapOwner (s : State) (v : Nat) : Option Tenant :=
  (s.ten.recs.find? fun p => match p.2.rangeMap with
    | some r => rangeHas r v
    | none => false).map fun p => BitVec.ofNat 6 p.1

/-- A target slot that qualifies for a source: granted to the source's tenant, or to any for a system source (R167). -/
def State.qualifies (s : State) (src : Src) (x : Slot) : Bool :=
  match s.slotOwner x, srcClass src with
  | some _, .system _ => true
  | some (t, _), .message v => s.rangeOwner v == some t
  | _, _ => false

/-- Presentation of a source to the target it names (R118, R167), on the record alone. -/
def presentRaw (s : State) (src : Src) (x : Slot) : State :=
  if s.qualifies src x then
    s.modTarget x fun r => presentRec r src (s.frame.count.setWidth 16)
  else s

/-! ## Configuration and state words -/

/-- The configuration word of a message or system source. -/
def State.cfgOf (s : State) (src : Src) : W64 :=
  match srcClass src with
  | .message v => Sparse.get 0 s.vec.cfg v
  | .system n => Sparse.get 0 s.vec.sysCfg n
  | _ => 0

/-- The state word of a message or system source. -/
def State.stOf (s : State) (src : Src) : W32 :=
  match srcClass src with
  | .message v => Sparse.get 0 s.vec.st v
  | .system n => Sparse.get 0 s.vec.sysSt n
  | _ => 0

def State.putCfg (s : State) (src : Src) (c : W64) : State :=
  match srcClass src with
  | .message v => s.setVec { s.vec with cfg := Sparse.set 0 s.vec.cfg v c }
  | .system n => s.setVec { s.vec with sysCfg := Sparse.set 0 s.vec.sysCfg n c }
  | _ => s

def State.putSt (s : State) (src : Src) (w : W32) : State :=
  match srcClass src with
  | .message v => s.setVec { s.vec with st := Sparse.set 0 s.vec.st v w }
  | .system n => s.setVec { s.vec with sysSt := Sparse.set 0 s.vec.sysSt n w }
  | _ => s

/-- The TBL quarter that holds a source's words is ON; system sources lie in CORE (R22). -/
def State.quarterOn (s : State) (src : Src) : Bool :=
  match srcClass src with
  | .message v => s.isOn (dTBL (quarterOf v))
  | _ => true

/-- The Clasp group of a configuration word, while it is assigned to the source's tenant, or to the FM for a system
source (R172). -/
def State.groupOf (s : State) (src : Src) (c : W64) : Option (BitVec 12) :=
  if cClaspEn c then
    let a := (s.clasp (cClasp c)).assign
    match srcClass src with
    | .system _ => if a = 0x40 then some (cClasp c) else none
    | .message v =>
      match s.rangeOwner v with
      | some t => if a = t.setWidth 7 then some (cClasp c) else none
      | none => none
    | _ => none
  else none

/-- SATURATED has gone from 0 to 1 on a source (R88). -/
def noteSaturated (s : State) (src : Src) : State :=
  let s := s.setVec { s.vec with satAny := true, satCount := satInc s.vec.satCount }
  match srcClass src with
  | .message v =>
    match s.rangeOwner v with
    | some t => s.modTenant t fun r => { r with src := { r.src with status := r.src.status ||| 0x20 } }
    | none => s
  | _ => s

/-- Refusal of a source operation in a window: its count, its sticky bit, its first record (R99). -/
def refuseOp (regs : SrcRegs) (op : SrcOp) (reason : Nat) (src : Src) : SrcRegs :=
  let regs := { regs with refused := satInc regs.refused, status := regs.status ||| BitVec.twoPow 6 (reason - 1) }
  if regs.valid then regs else { regs with
    valid := true, reason := BitVec.ofNat 3 reason, src := src,
    op := match op with
      | .setPending => 0
      | .clrPending => 1
      | .setEnable => 2
      | .clrEnable => 3
      | .clrSticky => 4 }

/-- Records a refusal in the registers of the window that wrote it: a tenant's, or the FM's. -/
def recordRefusal (s : State) (w : Option Tenant) (op : SrcOp) (reason : Nat) (src : Src) : State :=
  match w with
  | some t => s.modTenant t fun r => { r with src := refuseOp r.src op reason src }
  | none => s.setTen { s.ten with fmSrc := refuseOp s.ten.fmSrc op reason src }

end Sys2Proof.Machine
end

