-- ==== Sys2Proof/Machine/Lines.lean ====
section
/-! DEFINITION. Accesses to stored lines: what a corrected and an uncorrectable read do (R334 to R336), the retirement count (R341), error injection (R347), and the reads and writes of configuration, state and target words built on them. -/
namespace Sys2Proof.Machine

/-! ## Completing and presenting what a lost target record held (R327) -/

/-- A target record takes its reset values, and its waiting private writes and its place in a running refill pass go
with the old record (R108, R115). -/
def resetTarget (s : State) (x : Slot) : State :=
  let s := s.setTarget x {}
  s.setTgt { s.tgt with
    privLane := s.tgt.privLane.filter fun w => w.slot != x
    msgPass := s.tgt.msgPass.map fun p => { p with served := p.served.filter (· != x) }
    sysPass := s.tgt.sysPass.map fun p => { p with served := p.served.filter (· != x) } }

/-- Every pending, enabled source whose TARGET is `x` is presented (R118, R327). -/
def presentAll (s : State) (x : Slot) : State :=
  let wants (st : Sparse W32) (p : Nat × W64) : Bool :=
    cEnable p.2 && !cFwd p.2 && cTarget p.2 == x && sPending (Sparse.get 0 st p.1)
  let s := (s.vec.sysCfg.filter (wants s.vec.sysSt)).foldl (fun s p => presentRaw s (sysSrc p.1) x) s
  (s.vec.cfg.filter (wants s.vec.st)).foldl (fun s p => presentRaw s (msgSrc p.1) x) s

/-- The state write of a valid completion of a message or system source, with its presentation (R138). -/
def completeState (s : State) (src : Src) : State :=
  let c := s.cfgOf src
  let w := completeWord (cMode c) (s.stOf src)
  let had := sActive (s.stOf src)
  let s := s.putSt src w
  if had && sPending w && cEnable c && !cFwd c then presentRaw s src (cTarget c) else s

/-- The actions of R327 and R335 for one target record. -/
def loseTarget (s : State) (xn : Nat) : State :=
  let x : Slot := BitVec.ofNat 16 xn
  let active := (s.target x).active
  let s := (resetTarget s x).clearBusyNext x
  let s := match active with
    | some src => match srcClass src with
      | .priv _ => s
      | _ => completeState s src
    | none => s
  let s := presentAll s x
  match s.slotOwner x with
  | some (t, i) => if s.resetting t then s else chargeFault s t 0x0B (place 32 i 0 ||| 0x80000000)
  | none => s

/-! ## Outcomes of an uncorrectable read (R335) -/

/-- A configuration word is zeroed: its source leaves its shortlist and the watch list. Its state word is kept, so a
source that was counted stands in re-pend mode with the COUNT it had, which R85 excludes: the spec does not say what
becomes of COUNT, and keeping it is the model's choice (log entry 54). -/
def zeroCfg (s : State) (src : Src) : State :=
  let c := s.cfgOf src
  let s := s.putCfg src 0
  let s := if cEnable c && !cFwd c then removeRaw s (cTarget c) src else s
  s.setPwr { s.pwr with watch := s.pwr.watch.filter (· != src) }

/-- A vector is lost until it is reloaded (R203, R326). -/
def State.isLost (s : State) (v : Nat) : Bool :=
  Sparse.get false s.vec.lost v ||
    ((s.vec.lostBanks.getLsbD (cfgLine v).bank || s.vec.lostBanks.getLsbD (stLine v).bank)
      && !Sparse.get false s.vec.reloaded v)

/-- The reload of a vector: its configuration word is written by a VECTOR_SET or a VECTOR_LOAD entry (R203). -/
def reload (s : State) (v : Nat) : State :=
  if s.isLost v then s.setVec { s.vec with
    lost := Sparse.set false s.vec.lost v false
    reloaded := if s.vec.lostBanks = 0 then s.vec.reloaded else Sparse.set false s.vec.reloaded v true }
  else s

/-- A message vector is marked lost, and its tenant charged fault 0x0B. -/
def loseVector (s : State) (v : Nat) : State :=
  let s := s.setVec { s.vec with lost := Sparse.set false s.vec.lost v true }
  match s.rangeOwner v with
  | some t => if s.resetting t then s else chargeFault s t 0x0B (BitVec.ofNat 32 v)
  | none => s

/-- The rewriting of an uncorrectable line and its further effect, by array (R335). -/
def rewriteLine (s : State) (l : LineId) : State :=
  match l.arr with
  | .config => if l.line < 8192 then
      (cfgVectors l).foldl (fun s v => loseVector (zeroCfg s (msgSrc v)) v) s else s
  | .state => if l.line < 4096 then
      (stVectors l).foldl (fun s v => loseVector (s.putSt (msgSrc v) 0) v) s else s
  | .target => if l.line < 5120 then (lineSlots l).foldl loseTarget s else s
  | .system =>
    if l.line < 1024 then
      (List.range 4).foldl (fun s w => zeroCfg s (sysSrc (4 * l.line + w))) s
    else
      (List.range 8).foldl (fun s w => s.putSt (sysSrc (8 * (l.line - 1024) + w)) 0) s
  | .clasp => (List.range 4).foldl (fun s w => s.setClasp (BitVec.ofNat 12 (4 * l.line + w)) {}) s
  | .index => if l.line < 4112 then
      let groups := (List.range 4).map (4 * l.line + ·)
      s.setVec { s.vec with indexOnes := groups ++ s.vec.indexOnes.filter fun g => !groups.contains g } else s
  | .capture => s
  | .ctrl => s

/-- The number of an array in `MW_RAS_FIRST.ARRAY` (R351). -/
def arrayCode : ArrayKind → BitVec 4
  | .config => 0
  | .state => 1
  | .target => 2
  | .system => 3
  | .index => 4
  | .clasp => 5
  | .capture => 6
  | .ctrl => 7

/-- The bank of `MW_RAS_INJECT` that holds a line: 0 to 31 table, 32 to 47 target; none for the other arrays. -/
def bankOf (l : LineId) : Option Nat :=
  match l.arr with
  | .config => some l.bank
  | .state => some l.bank
  | .target => some (32 + l.bank)
  | _ => none

/-- The number of the array or bank that holds a line: that of `MW_RAS_INJECT` for a bank, then 48 system table, 49
pending index, 50 Clasp words, 51 capture FIFO, 52 CTRL RAM. -/
def arrayKey (l : LineId) : Nat :=
  match l.arr with
  | .config => l.bank
  | .state => l.bank
  | .target => 32 + l.bank
  | .system => 48
  | .index => 49
  | .clasp => 50
  | .capture => 51
  | .ctrl => 52

/-- The spare row that a line of a bank is, or none for a data or canary row (R20, R324). -/
def spareRow (l : LineId) : Option Nat :=
  match l.arr with
  | .config => if 8192 ≤ l.line ∧ l.line < 8208 then some (l.line - 8192) else none
  | .target => if 5120 ≤ l.line ∧ l.line < 5136 then some (l.line - 5120) else none
  | _ => none

/-- A canary row (R324): row A and row B behind the spare rows of a bank. -/
def canaryRow (l : LineId) : Bool :=
  (l.arr == .config && 8208 ≤ l.line) || (l.arr == .target && 5136 ≤ l.line)

/-- The row of a line in the retirement records: bit 13 marks a state line, bits 13 and 12 a table bank's spare row. -/
def rowOf (l : LineId) : BitVec 14 :=
  match l.arr with
  | .state => BitVec.ofNat 14 (8192 + l.line)
  | .config => BitVec.ofNat 14 (if 8192 ≤ l.line then 4096 + l.line else l.line)
  | _ => BitVec.ofNat 14 l.line

/-- The line of a row of a bank. -/
def lineOfRow (bank : Nat) (row : BitVec 14) : LineId :=
  if 32 ≤ bank then ⟨.target, bank - 32, row.toNat⟩
  else if 12288 ≤ row.toNat then ⟨.config, bank, row.toNat - 4096⟩
  else if row.getLsbD 13 then ⟨.state, bank, row.toNat - 8192⟩
  else ⟨.config, bank, row.toNat⟩

/-- The spare row that now holds a row, by the newest remap of the field repair store, else by the fuses (R342, R343). -/
def State.spareOf (s : State) (bank : Nat) (row : BitVec 14) : Option Nat :=
  ((s.ras.fuseSpares ++ s.ras.fieldStore).reverse.find? fun e => e.1 == bank && e.2.1 == row).map (·.2.2)

/-- A bank, numbered as `MW_RAS_INJECT.BANK`, is left out of service (R359). -/
def State.bankOut (s : State) (bank : Nat) : Bool :=
  if bank < 32 then s.pwr.tblOut.getLsbD (bank / 8) else s.pwr.tgtOut.getLsbD (bank - 32)

/-- Spare rows left in a bank (R343). -/
def State.sparesLeft (s : State) (bank : Nat) : Nat :=
  16 - (s.ras.fuseSpares.filter fun e => e.1 == bank).length - (s.ras.fieldStore.filter fun e => e.1 == bank).length

/-- The array part of the record of an uncorrectable read (R336). -/
def markArray (u : RasUnit) (a : ArrayKind) : RasUnit :=
  match a with
  | .config => { u with uncorrTbl := true }
  | .state => { u with uncorrTbl := true }
  | .target => { u with uncorrTgt := true }
  | .system => { u with uncorrCore := true }
  | .index => { u with uncorrCore := true }
  | .clasp => { u with uncorrCore := true }
  | .capture => { u with captureLost := true }
  | .ctrl => { u with uncorrCtrl := true }

/-- Counting, sticky bit, S:0x260 and first record of an uncorrectable read (R336). `foundBy` as in `MW_RAS_FIRST`. -/
def noteUncorrectable (s : State) (foundBy : BitVec 3) (l : LineId) : State :=
  let spare := match spareRow l, bankOf l with
    | some k, _ => some k
    | none, some b => s.spareOf b (rowOf l)
    | none, none => none
  let u := markArray s.ras l.arr
  let u := { u with uncorrectable := satInc u.uncorrectable }
  let u := if u.firstValid then u else { u with
    firstValid := true, firstFoundBy := foundBy, firstArray := arrayCode l.arr,
    firstBank := match l.arr with
      | .config => BitVec.ofNat 6 l.bank
      | .state => BitVec.ofNat 6 l.bank
      | .target => BitVec.ofNat 6 l.bank
      | _ => 0
    firstSpare := spare.isSome,
    firstLine := BitVec.ofNat 13 (spare.getD l.line),
    firstFrame := s.frameLo }
  raiseSource (s.setRas u) 0x260

/-! ## Corrected reads and the retirement count (R334, R341) -/

/-- The record of a bank after one counted correction of a row: the record, and whether the row is to be retired. -/
def countRow (now : Nat) (row : BitVec 14) (rec : List RetireEntry) : List RetireEntry × Bool :=
  let live := rec.filter fun e => now - e.first < 2 ^ 20
  if live.any (·.row == row) then
    let live := live.map fun e => if e.row = row then { e with count := e.count + 1 } else e
    (live, live.any fun e => e.row == row && 3 ≤ e.count)
  else
    let oldest := live.foldl (fun (m : Option RetireEntry) e => match m with
      | some o => if e.first < o.first then some e else some o
      | none => some e) none
    let live := if live.length < 8 then live else match oldest with
      | some o => live.erase o
      | none => live
    (live ++ [⟨row, 1, now⟩], false)

/-- A corrected read: counted, of a spare row that serves no row as well; the row's retirement count advances when the row has been written since the last
correction counted (R334, R341, R342). -/
def noteCorrected (s : State) (l : LineId) : State :=
  let s := (s.setRas { s.ras with corrected := satInc s.ras.corrected }).count 11 1
  match bankOf l with
  | none => s
  | some b =>
    if l ∈ s.ras.uncounted ∨ (spareRow l).isSome ∨ canaryRow l then s
    else
      let (rec, due) := countRow s.frame.localTicks (rowOf l) (Sparse.get [] s.ras.records b)
      let u := { s.ras with uncounted := l :: s.ras.uncounted, records := Sparse.set [] s.ras.records b rec }
      let u := if due then
          if s.sparesLeft b = 0 then { u with retireFailed := true }
          else if (b, rowOf l) ∈ u.dueRetire then u
          else { u with dueRetire := u.dueRetire ++ [(b, rowOf l)] }
        else u
      s.setRas u

/-! ## Reading and writing a line -/

/-- The error vector of a line. -/
def State.lineErr (s : State) (l : LineId) : BitVec 280 :=
  ((s.ras.errs.find? fun e => e.1 == l).map (·.2)).getD 0

/-- Puts an error vector onto a line; a codeword has none. -/
def State.setErr (s : State) (l : LineId) (e : BitVec 280) : State :=
  let rest := s.ras.errs.filter fun p => p.1 != l
  s.setRas { s.ras with errs := if e = 0 then rest else (l, e) :: rest }

/-- A change of stored bits that no write made. -/
def upset (s : State) (u : Upset) : State := s.setErr u.line (s.lineErr u.line ^^^ u.err)

/-- The memory of some lines takes new contents as a whole: nothing is left of what stood about them. -/
def State.dropLines (s : State) (gone : LineId → Bool) : State :=
  s.setRas { s.ras with
    errs := s.ras.errs.filter fun e => !gone e.1
    writeBack := s.ras.writeBack.filter fun l => !gone l
    uncounted := s.ras.uncounted.filter fun l => !gone l }

/-- A line is written whole: its codeword is fresh, it leaves the write-back queue, and a correction of its row may
be counted again (R334). -/
def freshLine (s : State) (l : LineId) : State :=
  let s := s.setErr l 0
  s.setRas { s.ras with
    uncounted := s.ras.uncounted.filter (· != l), writeBack := s.ras.writeBack.filter (· != l) }

/-- Data bits of a line that a miscorrection leaves wrong, put onto the words it holds (log entry 21). -/
def disturbLine (s : State) (l : LineId) (e : BitVec 256) : State :=
  match l.arr with
  | .config => if l.line < 8192 then (cfgVectors l).zipIdx.foldl (fun s p =>
      s.putCfg (msgSrc p.1) (s.cfgOf (msgSrc p.1) ^^^ field e (64 * p.2) 64)) s else s
  | .state => if l.line < 4096 then (stVectors l).zipIdx.foldl (fun s p =>
      s.putSt (msgSrc p.1) (s.stOf (msgSrc p.1) ^^^ field e (32 * p.2) 32)) s else s
  | .system =>
    if l.line < 1024 then (List.range 4).foldl (fun s w =>
      let src := sysSrc (4 * l.line + w)
      s.putCfg src (s.cfgOf src ^^^ field e (64 * w) 64)) s
    else (List.range 8).foldl (fun s w =>
      let src := sysSrc (8 * (l.line - 1024) + w)
      s.putSt src (s.stOf src ^^^ field e (32 * w) 32)) s
  | .target => if l.line < 5120 then (lineSlots l).zipIdx.foldl (fun s p =>
      s.modTarget (BitVec.ofNat 16 p.1) fun r => { r with
        daddr := r.daddr ^^^ field e (128 * p.2) 64, seq := r.seq ^^^ field e (128 * p.2 + 64) 16
        tag := r.tag ^^^ field e (128 * p.2 + 80) 8, count := r.count ^^^ field e (128 * p.2 + 88) 16 }) s else s
  | .clasp => (List.range 4).foldl (fun s w =>
      let g : BitVec 12 := BitVec.ofNat 12 (4 * l.line + w)
      let c := s.clasp g
      s.setClasp g { c with
        interval := c.interval ^^^ field e (64 * w + 32) 16
        remaining := c.remaining ^^^ field e (64 * w + 16) 16 }) s
  | .index => s
  | .capture => s
  | .ctrl => s

/-- A read of a line. `rmw`: the read belongs to a read-modify-write, which stores the corrected line; any other
corrected read queues the line for write-back, in a queue of 4 lines for each bank (R334, R335). -/
def readLine (foundBy : BitVec 3) (rmw : Bool) (s : State) (l : LineId) : State :=
  if s.ras.errs.isEmpty then s
  else if s.lineErr l = 0 then s
  else match decodeLine s.ras.freeReads (s.lineErr l) with
    | .clean => s
    | .corrected =>
      let s := noteCorrected s l
      if rmw then s.setErr l 0
      else if l ∈ s.ras.writeBack then s
      else if (s.ras.writeBack.filter fun m => arrayKey m == arrayKey l).length < 4 then
        s.setRas { s.ras with writeBack := s.ras.writeBack ++ [l] }
      else s
    | .uncorrectable =>
      let s := if symbolErrors (s.lineErr l) = 2 then s
        else s.setRas { s.ras with freeReads := s.ras.freeReads + 1 }
      rewriteLine (noteUncorrectable (freshLine s l) foundBy l) l
    | .miscorrected e =>
      let s := s.setRas { s.ras with freeReads := s.ras.freeReads + 1 }
      disturbLine (freshLine (noteCorrected s l) l) l e

/-- A write to a line by the fast path, the mailbox, or a retirement copy: the line holds a fresh codeword, or the
injection armed for its bank (R347). -/
def wroteLine (s : State) (l : LineId) : State :=
  let s := if s.ras.errs.isEmpty && s.ras.uncounted.isEmpty then s else freshLine s l
  if s.ras.arm && bankOf l == some s.ras.injBank.toNat then
    (s.setErr l (injectedError s.ras.symbols)).setRas
      { (s.setErr l (injectedError s.ras.symbols)).ras with arm := false }
  else s

/-! ## Words -/

def cfgLineOf (src : Src) : Option LineId :=
  match srcClass src with
  | .message v => some (cfgLine v)
  | .system n => some (sysCfgLine n)
  | _ => none

def stLineOf (src : Src) : Option LineId :=
  match srcClass src with
  | .message v => some (stLine v)
  | .system n => some (sysStLine n)
  | _ => none

/-- A read access to a source's configuration line. -/
def readCfg (s : State) (src : Src) : State :=
  match cfgLineOf src with
  | some l => readLine 0 false s l
  | none => s

/-- The read of a read-modify-write of a source's state line, or of its configuration line. -/
def readSt (s : State) (src : Src) : State :=
  match stLineOf src with
  | some l => readLine 0 true s l
  | none => s

/-- A write of a configuration word, a read-modify-write of its line. -/
def writeCfg (s : State) (src : Src) (c : W64) : State :=
  match cfgLineOf src with
  | some l => wroteLine ((readLine 0 true s l).putCfg src c) l
  | none => s

/-- A write of a state word whose line has been read. -/
def writeSt (s : State) (src : Src) (w : W32) : State :=
  match stLineOf src with
  | some l => wroteLine (s.putSt src w) l
  | none => s

/-- The read-modify-write of a target record's lines that an access to the record makes. -/
def touchTarget (s : State) (x : Slot) : State :=
  let l := tgtLines x.toNat
  let s := readLine 0 true (readLine 0 true s l.1) l.2
  wroteLine (wroteLine s l.1) l.2

/-- The read of a target record's lines by an access that writes nothing. -/
def readTarget (s : State) (x : Slot) : State :=
  let l := tgtLines x.toNat
  readLine 0 false (readLine 0 false s l.1) l.2

/-- A plain read of a source's state line. -/
def peekSt (s : State) (src : Src) : State :=
  match stLineOf src with
  | some l => readLine 0 false s l
  | none => s

/-- A mailbox write of a whole target record (R347). -/
def wroteTarget (s : State) (x : Slot) : State :=
  let l := tgtLines x.toNat
  wroteLine (wroteLine s l.1) l.2

/-- Presentation of a source to the target it names (R118, R167): a read-modify-write of the record. -/
def present (s : State) (src : Src) (x : Slot) : State :=
  if s.qualifies src x then presentRaw (touchTarget s x) src x else s

/-- Removal of a source from a target (R118): a read-modify-write of the record. -/
def removeSrc (s : State) (x : Slot) (src : Src) : State := removeRaw (touchTarget s x) x src

/-! ## The pending index (R120, R335) -/

/-- The source of a bit of the pending index: message vectors, then system sources. -/
def indexSrc (i : Nat) : Src := if i < 0x100000 then msgSrc i else sysSrc (i - 0x100000)

/-- The index lines of bits `lo` to `hi` are read; those in error act under R333. -/
def readIndex (s : State) (lo hi : Nat) : State :=
  ((s.ras.errs.map (·.1)).filter fun l =>
    l.arr == .index && decide (lo / 256 ≤ l.line) && decide (256 * l.line < hi)).foldl (readLine 0 false) s

/-- Groups of 64 bits that read all ones since an uncorrectable read, and of which a pass reads some bit. -/
def State.onesIn (s : State) (lo hi : Nat) : List Nat :=
  s.vec.indexOnes.filter fun g => decide (lo < 64 * g + 64) && decide (64 * g < hi)

/-- A pass reads the state lines of such groups, for their true bits. -/
def readGroups (s : State) (lo hi : Nat) : State :=
  (s.onesIn lo hi).foldl (fun s g => (List.range 8).foldl (fun s k => peekSt s (indexSrc (64 * g + 8 * k))) s) s

/-- It has written the true bits of the groups that end before `hi`. -/
def trueGroups (s : State) (lo hi : Nat) : State :=
  s.setVec { s.vec with
    indexOnes := s.vec.indexOnes.filter fun g => !(decide (lo < 64 * g + 64) && decide (64 * g + 64 ≤ hi)) }

/-- The read of the Clasp group that a configuration word names. -/
def readGroupWord (s : State) (c : W64) : State :=
  if cClaspEn c then readLine 0 false s (claspLine (cClasp c).toNat) else s

/-- The read-modify-write of the line of a Clasp group. -/
def touchClasp (s : State) (g : BitVec 12) : State :=
  let l := claspLine g.toNat
  wroteLine (readLine 0 true s l) l

end Sys2Proof.Machine
end

