-- ==== Sys2Proof/Machine/Flits.lean ====
section
/-! DEFINITION. Flits of the Chain: their layouts and CRC (R265 to R270). -/
namespace Sys2Proof.Machine

/-- One bit into the CRC-32 register of IEEE 802.3 (R266). -/
def crcBit (r : W32) (b : Bool) : W32 :=
  if r.getLsbD 31 != b then (r <<< 1) ^^^ 0x04C11DB7 else r <<< 1

/-- The CRC of bits [255:32] of a flit, taken from bit 255 down (R266). -/
def flitCrc (f : Flit) : W32 :=
  ~~~((List.range 224).foldl (fun r i => crcBit r (f.getLsbD (255 - i))) 0xFFFFFFFF)

/-- A flit with its CRC filled in. -/
def sealFlit (f : Flit) : Flit :=
  place 256 (field f 32 224 : BitVec 224) 32 ||| (flitCrc f).setWidth 256

/-- The CRC of a flit is right. -/
def crcOk (f : Flit) : Bool := field f 0 32 == flitCrc f

def flitType (f : Flit) : BitVec 3 := field f 253 3

/-- Bits [hi:lo] of a flit are 0. -/
def zeroBits (f : Flit) (lo n : Nat) : Bool := (field f lo n : BitVec n) == 0

/-- The bits that R269 fixes at 0 in a record of its class and kind. -/
def recordZeros (cls : BitVec 2) (r : BitVec 44) : Bool :=
  let kind : BitVec 2 := field r 42 2
  match cls.toNat, kind.toNat with
  | 0, 1 => (field r 4 38 : BitVec 38) == 0
  | 1, 0 => (field r 0 26 : BitVec 26) == 0
  | 1, 1 => (field r 0 20 : BitVec 20) == 0
  | 2, 0 => (field r 0 2 : BitVec 2) == 0
  | 2, 1 => (field r 0 18 : BitVec 18) == 0
  | _, _ => true

/-- The bits that R268 and R269 fix at 0 in a DATA flit: reserved ones, unused slots, E2E outside EDGE, DST_CHIP in MGMT,
and those of its records. -/
def dataZeros (f : Flit) : Bool :=
  let cls : BitVec 2 := field f 251 2
  let n := (field f 248 3 : BitVec 3).toNat
  let slots : List (BitVec 44) := [field f 164 44, field f 120 44, field f 76 44, field f 32 44]
  zeroBits f 208 3 && (slots.drop n).all (· == 0) && (slots.take n).all (recordZeros cls)
    && (cls != 1 && cls != 2 || zeroBits f 212 16) && (cls != 2 || zeroBits f 228 4)

/-- The reserved bits of a flit of its type are 0, and its type is not reserved (R265, R268, R270). -/
def formOk (f : Flit) : Bool :=
  match (flitType f).toNat with
  | 0 => zeroBits f 32 221
  | 1 => dataZeros f
  | 2 => zeroBits f 32 136
  | 3 => zeroBits f 32 67
  | 4 => zeroBits f 160 16 && zeroBits f 32 96
  | 5 => zeroBits f 248 1 && zeroBits f 32 152
  | _ => false

/-- A flit that R266 does not discard. -/
def flitGood (f : Flit) : Bool := crcOk f && formOk f

/-- The record slots of a DATA flit. -/
def flitRecords (f : Flit) : List (BitVec 44) :=
  [field f 164 44, field f 120 44, field f 76 44, field f 32 44]

/-- A DATA flit read from its bits (R268). -/
def unpackData (f : Flit) : BitVec 12 × DataFlit :=
  let n := (field f 248 3 : BitVec 3).toNat
  (field f 236 12,
    { cls := field f 251 2, src := field f 232 4, dst := field f 228 4, e2e := field f 212 16
      passed := f.getLsbD 211, records := (flitRecords f).take n })

/-- A DATA flit with its link sequence, ready to be sent (R268). -/
def packData (seq : BitVec 12) (d : DataFlit) : Flit :=
  let rec_ (i : Nat) : BitVec 44 := d.records.getD i 0
  sealFlit (place 256 (1 : BitVec 3) 253 ||| place 256 d.cls 251
    ||| place 256 (BitVec.ofNat 3 d.records.length) 248 ||| place 256 seq 236 ||| place 256 d.src 232
    ||| place 256 d.dst 228 ||| place 256 d.e2e 212 ||| place 256 (bit 1 d.passed) 211
    ||| place 256 (rec_ 0) 164 ||| place 256 (rec_ 1) 120 ||| place 256 (rec_ 2) 76 ||| place 256 (rec_ 3) 32)

/-- A record of a kind with its field bits [41:0]. -/
def mkRecord (kind : BitVec 2) (body : BitVec 42) : BitVec 44 := kind ++ body

def recKind (r : BitVec 44) : BitVec 2 := field r 42 2

/-- An EDGE record (R269). -/
def edgeRecord (t : Tenant) (v : BitVec 20) (requester : BitVec 16) : BitVec 44 :=
  mkRecord 0 (t ++ v ++ requester)

/-- A LINE record (R269). -/
def lineRecord (l : BitVec 4) : BitVec 44 := mkRecord 1 (l.setWidth 42)

def ackRecord (acked : BitVec 16) : BitVec 44 := mkRecord 0 (place 42 acked 26)

def allowRecord (t : Tenant) (returned : BitVec 16) : BitVec 44 :=
  mkRecord 1 (place 42 t 36 ||| place 42 returned 20)

/-- The records of a flit suit its class, and its record count is legal (R268, R269). -/
def recordsOk (f : Flit) (d : DataFlit) : Bool :=
  let n := (field f 248 3 : BitVec 3).toNat
  decide (1 ≤ n) && decide (n ≤ 4) &&
  match d.cls.toNat with
  | 0 => d.records.all fun r => recKind r == 0 || recKind r == 1
  | 1 => d.records.all fun r => recKind r == 0 || recKind r == 1
  | 2 =>
      (match d.records with
      | [a, b] => recKind a == 0 && recKind b == 1
      | _ => false)
  | _ => false

/-- The two records of a MAP of distances, 4 bits for each chip with chip 0 in [3:0] (R269, R279). -/
def mapRecords (dist : BitVec 64) : List (BitVec 44) :=
  let at_ (c : Nat) : BitVec 4 := field dist (4 * c) 4
  let lo := (List.range 10).foldl (fun (w : BitVec 42) c => w ||| place 42 (at_ c) (38 - 4 * c)) 0
  let hi := (List.range 6).foldl (fun (w : BitVec 42) c => w ||| place 42 (at_ (10 + c)) (38 - 4 * c)) 0
  [mkRecord 0 lo, mkRecord 1 hi]

/-- The distances that a MAP carries. -/
def mapDistances (lo hi : BitVec 44) : BitVec 64 :=
  let a := (List.range 10).foldl (fun (w : BitVec 64) c =>
    w ||| place 64 (field lo (38 - 4 * c) 4 : BitVec 4) (4 * c)) 0
  (List.range 6).foldl (fun (w : BitVec 64) c =>
    w ||| place 64 (field hi (38 - 4 * c) 4 : BitVec 4) (4 * (10 + c))) a

/-- The six counts of a LINK or INIT flit, 12 bits each, EDGE header in the highest (R270). -/
def packCredits (c : Credits) : BitVec 72 :=
  c.edgeH ++ c.edgeD ++ c.ctrlH ++ c.ctrlD ++ c.mgmtH ++ c.mgmtD

def unpackCredits (w : BitVec 72) : Credits :=
  { edgeH := field w 60 12, edgeD := field w 48 12, ctrlH := field w 36 12, ctrlD := field w 24 12
    mgmtH := field w 12 12, mgmtD := field w 0 12 }

def packLink (nak : Bool) (ackSeq : BitVec 12) (freed : Credits) : Flit :=
  sealFlit (place 256 (2 : BitVec 3) 253 ||| place 256 (bit 1 nak) 252 ||| place 256 ackSeq 240
    ||| place 256 (packCredits freed) 168)

/-- The credits that Zeyth-2 advertises (R275). -/
def ownCredits : Credits :=
  { edgeH := 128, edgeD := 512, ctrlH := 32, ctrlD := 128, mgmtH := 8, mgmtD := 16 }

/-- A peer's advertised counts lie within R275. -/
def creditsLegal (c : Credits) : Bool :=
  let h (x : BitVec 12) : Bool := decide (2 ≤ x.toNat) && decide (x.toNat ≤ 2047)
  let d (x : BitVec 12) : Bool := decide (8 ≤ x.toNat) && decide (x.toNat ≤ 2047)
  h c.edgeH && d c.edgeD && h c.ctrlH && d c.ctrlD && h c.mgmtH && d c.mgmtD

def packInit (chip : Chip) (west : Bool) (probe : W32) : Flit :=
  sealFlit (place 256 (4 : BitVec 3) 253 ||| place 256 chip 249 ||| place 256 (bit 1 west) 248
    ||| place 256 (packCredits ownCredits) 176 ||| place 256 probe 128)

def packEcho (chip : Chip) (probe turn : W32) : Flit :=
  sealFlit (place 256 (5 : BitVec 3) 253 ||| place 256 chip 249 ||| place 256 probe 216 ||| place 256 turn 184)

/-- A TICK flit (R270). -/
def packTick (master : Chip) (hops : BitVec 4) (count : W64) (period pending : BitVec 13) (apply : W32)
    (delay : BitVec 24) : Flit :=
  sealFlit (place 256 (3 : BitVec 3) 253 ||| place 256 master 249 ||| place 256 hops 245 ||| place 256 count 181
    ||| place 256 period 168 ||| place 256 pending 155 ||| place 256 apply 123 ||| place 256 delay 99)

def idleFlit : Flit := sealFlit 0

end Sys2Proof.Machine
end

