-- ==== Sys2Proof/Machine/Ring.lean ====
section
/-! DEFINITION. The ring: distance tables, live members and routes (R279, R280), pair sessions (R283 to R287), originating and stranding flits (R276, R282). -/
namespace Sys2Proof.Machine

def State.linkPort (s : State) : PortId → LinkPort
  | .east => s.chain.east
  | .west => s.chain.west
def State.setLinkPort (s : State) (p : PortId) (l : LinkPort) : State :=
  match p with
  | .east => s.setChain { s.chain with east := l }
  | .west => s.setChain { s.chain with west := l }
def State.phy (s : State) : PortId → PhyPort
  | .east => s.chain.eastPhy
  | .west => s.chain.westPhy
def State.setPhy (s : State) (p : PortId) (u : PhyPort) : State :=
  match p with
  | .east => s.setChain { s.chain with eastPhy := u }
  | .west => s.setChain { s.chain with westPhy := u }
def State.portCfg (s : State) : PortId → PortCfg
  | .east => s.chain.eastCfg
  | .west => s.chain.westCfg
def State.setPortCfg (s : State) (p : PortId) (c : PortCfg) : State :=
  match p with
  | .east => s.setChain { s.chain with eastCfg := c }
  | .west => s.setChain { s.chain with westCfg := c }
def State.pair (s : State) (c : Chip) : Pair := Sparse.get {} s.chain.pairs c.toNat
def State.setPair (s : State) (c : Chip) (p : Pair) : State :=
  s.setChain { s.chain with pairs := Sparse.set {} s.chain.pairs c.toNat p }

/-- The other port of the chip. -/
def opposite : PortId → PortId
  | .east => .west
  | .west => .east

def State.distTable (s : State) : PortId → BitVec 64
  | .east => s.chain.eastDist
  | .west => s.chain.westDist

/-- Hops to chip `c` through a port, 0 when it is not reachable (R279). -/
def State.dist (s : State) (p : PortId) (c : Chip) : BitVec 4 := field (s.distTable p) (4 * c.toNat) 4

/-- The route to a chip: the smaller non-zero distance, East on a tie (R280). -/
def State.route (s : State) (c : Chip) : Option PortId :=
  let e := (s.dist .east c).toNat
  let w := (s.dist .west c).toNat
  if e = 0 ∧ w = 0 then none
  else if w = 0 then some .east
  else if e = 0 then some .west
  else if e ≤ w then some .east else some .west

/-- Chip `c` is a live member: the chip itself, or reachable through a port (R280). -/
def State.isLive (s : State) (c : Chip) : Bool := c == s.chipId || (s.route c).isSome

/-- The live members, bit c for chip c. -/
def State.liveMembers (s : State) : BitVec 16 :=
  packBits 16 ((List.range 16).map fun c => s.isLive (BitVec.ofNat 4 c))

/-- The chip has no live member other than itself (R48, R280). -/
def State.alone (s : State) : Bool := (s.route 0).isNone && (List.range 16).all fun c => (s.route (BitVec.ofNat 4 c)).isNone

/-- A port's link is up for MAPs: UP, SPARING or LOCK_LOST (R279, R293). -/
def State.linkUp (s : State) (p : PortId) : Bool :=
  match (s.phy p).state with
  | .up => true
  | .sparing => true
  | .lockLost => true
  | _ => false

/-- Frees the credits of a flit that leaves a port's receive buffer (R276). -/
def freeCredits (s : State) (p : PortId) (d : DataFlit) : State :=
  let l := s.linkPort p
  let n := BitVec.ofNat 12 d.records.length
  let f := l.freed
  let f := match d.cls.toNat with
    | 0 => { f with edgeH := f.edgeH + 1, edgeD := f.edgeD + n }
    | 1 => { f with ctrlH := f.ctrlH + 1, ctrlD := f.ctrlD + n }
    | _ => { f with mgmtH := f.mgmtH + 1, mgmtD := f.mgmtD + n }
  s.setLinkPort p { l with freed := f, linkDue := true }

/-- Stranding: the flit is discarded and its records counted (R282). -/
def strand (s : State) (d : DataFlit) : State :=
  s.setChain { s.chain with
    strandedCount := satAdd s.chain.strandedCount d.records.length, strandedEv := true }

/-- Queues a flit that this chip originates on its route. A caller whose flit must not be lost looks at the route first. -/
def originate (s : State) (d : DataFlit) : State :=
  match s.route d.dst with
  | some p =>
    let l := s.linkPort p
    s.setLinkPort p { l with own := l.own ++ [d] }
  | none => s

/-- A CTRL flit of one record for chip `c` (R285). -/
def originateCtrl (s : State) (c : Chip) (r : BitVec 44) : State :=
  originate s { cls := 1, src := s.chipId, dst := c, e2e := 0, passed := false, records := [r] }

/-! ## Pair sessions (R286) -/

/-- Starts a session with `c` when none runs: both directions take their start values. -/
def startSession (s : State) (c : Chip) : State :=
  if (s.pair c).live then s else s.setPair c { live := true }

/-- Every EDGE flit queued for `c`, whether of this chip or in transit, is stranded (R282). -/
def strandQueued (s : State) (p : PortId) (c : Chip) : State :=
  let gone (d : DataFlit) : Bool := d.cls == 0 && d.dst == c
  let l := s.linkPort p
  let lost := l.transit.filter fun t => gone t.flit
  let own := l.own.filter gone
  let s := s.setLinkPort p { l with
    transit := l.transit.filter fun t => !gone t.flit, own := l.own.filter fun d => !gone d }
  let s := lost.foldl (fun s t => match t.arrived with
    | some q => freeCredits (strand s t.flit) q t.flit
    | none => strand s t.flit) s
  own.foldl strand s

/-- Ends the session with a chip that leaves the live members: its store is cleared and its queued flits stranded. -/
def endSession (s : State) (c : Chip) : State :=
  strandQueued (strandQueued (s.setPair c {}) .east c) .west c

/-- The ALLOW of a tenant toward a source chip: sent now, or due until the chip has a route (R285). -/
def sendAllow (s : State) (c : Chip) (t : Nat) : State :=
  let p := s.pair c
  if (s.route c).isNone then s.setPair c { p with allowDue := Sparse.set false p.allowDue t true }
  else originateCtrl (s.setPair c { p with allowDue := Sparse.set false p.allowDue t false }) c
    (allowRecord (BitVec.ofNat 6 t) (Sparse.get 0 p.returned t))

/-- The ALLOWs that waited for a route to a chip. -/
def sendDueAllows (s : State) (c : Chip) : State :=
  ((s.pair c).allowDue.map (·.1)).foldl (fun s t => sendAllow s c t) s

/-- Live members are recomputed after a change of a table (R280, R286). -/
def updateMembers (s : State) : State :=
  let old := s.chain.members
  let now := s.liveMembers
  if now = old then s
  else
    let s := s.setChain { s.chain with members := now, membersChanged := true }
    (List.range 16).foldl (fun s c =>
      let chip : Chip := BitVec.ofNat 4 c
      if chip = s.chipId then s
      else if now.getLsbD c && !old.getLsbD c then sendDueAllows (startSession s chip) chip
      else if old.getLsbD c && !now.getLsbD c then endSession s chip
      else s) s

/-- A port's distance table is replaced, the entry of the chip's own ID ignored (R279). -/
def setDist (s : State) (p : PortId) (table : BitVec 64) : State :=
  let table := table &&& ~~~ place 64 (0xF : BitVec 4) (4 * s.chipId.toNat)
  updateMembers (match p with
    | .east => s.setChain { s.chain with eastDist := table }
    | .west => s.setChain { s.chain with westDist := table })

/-- The distances of the MAP sent on a port (R279). -/
def State.mapFor (s : State) (p : PortId) : BitVec 64 :=
  (List.range 16).foldl (fun (w : BitVec 64) c =>
    let chip : Chip := BitVec.ofNat 4 c
    let d := (s.dist (opposite p) chip).toNat
    let v : BitVec 4 := if chip = s.chipId then 1
      else if 1 ≤ d ∧ d ≤ 14 then BitVec.ofNat 4 (d + 1) else 0
    w ||| place 64 v (4 * c)) 0

/-- Queues a MAP on a port whose link is up (R269, R279). -/
def sendMap (s : State) (p : PortId) : State :=
  if s.linkUp p then
    let l := s.linkPort p
    s.setLinkPort p { l with own := l.own ++
      [{ cls := 2, src := s.chipId, dst := 0, e2e := 0, passed := false, records := mapRecords (s.mapFor p) }] }
  else s

/-! ## Originating edges and lines (R73, R75, R283, R285) -/

/-- The allowance for a destination chip and tenant (R285). -/
def State.allowance (s : State) (c : Chip) (t : Tenant) : Nat :=
  let p := s.pair c
  4 - (Sparse.get 0 p.sent t.toNat - Sparse.get 0 p.gotBack t.toNat).toNat

/-- The window of R283 has room for one more record toward `c`. -/
def State.windowOpen (s : State) (c : Chip) : Bool :=
  decide (((s.pair c).next - (s.pair c).ackedRemote).toNat ≤ 2048)

/-- Originates one record of class EDGE toward `c`: it takes the next end-to-end sequence and enters the end-to-end
store (R283, R287). -/
def originateEdge (s : State) (c : Chip) (r : BitVec 44) : State :=
  let p := s.pair c
  let s := s.setPair c { p with next := p.next + 1, store := p.store ++ [(p.next, r)] }
  (originate s { cls := 0, src := s.chipId, dst := c, e2e := p.next, passed := false, records := [r] }).count 12 1

/-- An edge record of R73 is sent and takes one of the allowance. -/
def sendEdge (s : State) (c : Chip) (t : Tenant) (v : BitVec 20) (requester : BitVec 16) : State :=
  let p := s.pair c
  let n := Sparse.get 0 p.sent t.toNat
  originateEdge (s.setPair c { p with sent := Sparse.set 0 p.sent t.toNat (n + 1) }) c (edgeRecord t v requester)

/-- A LINE record for line `l` to chip `c` is unacknowledged (R75). -/
def State.lineOut (s : State) (c : Chip) (l : BitVec 4) : Bool :=
  (s.pair c).store.any fun e => e.2 == lineRecord l

/-- A raise of a line: sent, or held as the one pending raise of its line (R75). -/
def raiseLine (s : State) (c : Chip) (l : BitVec 4) : State :=
  if s.lineOut c l || !s.windowOpen c then
    s.setPair c { s.pair c with heldLines := (s.pair c).heldLines ||| BitVec.twoPow 16 l.toNat }
  else originateEdge s c (lineRecord l)

/-- Held raises whose record has been acknowledged are sent (R75). -/
def releaseLines (s : State) (c : Chip) : State :=
  (List.range 16).foldl (fun s i =>
    let l : BitVec 4 := BitVec.ofNat 4 i
    if (s.pair c).heldLines.getLsbD i && !s.lineOut c l && s.windowOpen c then
      originateEdge (s.setPair c { s.pair c with
        heldLines := (s.pair c).heldLines &&& ~~~ BitVec.twoPow 16 i }) c (lineRecord l)
    else s) s

/-- An edge record of origin `c` has entered the queue of tenant `t`, or been discarded there: RETURNED rises and an
ALLOW is sent (R285). -/
def returnAllowance (s : State) (c : Chip) (t : Tenant) : State :=
  let p := s.pair c
  let n := Sparse.get 0 p.returned t.toNat + 1
  sendAllow (s.setPair c { p with returned := Sparse.set 0 p.returned t.toNat n }) c t.toNat

end Sys2Proof.Machine
end

