-- ==== Sys2Proof/Machine/Source.lean ====
section
/-! DEFINITION. What edges, clears and enables do to a message or system source (R86, R87, R92), the completion of a source, and zeroed words. -/
namespace Sys2Proof.Machine

/-- One edge on a source: the state word by R86 or R87, SATURATED noted by R88, presentation by R118. -/
def applyEdge (s : State) (src : Src) : State :=
  let s := readSt (readCfg s src) src
  let c := s.cfgOf src
  let (w, fresh, sat) := edgeWord (cMode c) (s.stOf src)
  let s := writeSt s src w
  let s := if sat then noteSaturated s src else s
  if fresh && cEnable c && !cFwd c then present s src (cTarget c) else s

/-- Clear pending (R86, R87): a pending source leaves its target's order. -/
def applyClear (s : State) (src : Src) : State :=
  let s := readSt (readCfg s src) src
  let c := s.cfgOf src
  let w := s.stOf src
  let s := writeSt s src (clearWord w)
  if sPending w && !cFwd c then
    if sActive w && cMode c then s else removeSrc s (cTarget c) src
  else s

/-- ENABLE ← `b`: an enabled pending source is presented, a disabled one leaves its target's order (R92). -/
def applyEnable (s : State) (src : Src) (b : Bool) : State :=
  let s := readCfg s src
  let c := s.cfgOf src
  if cEnable c = b then s
  else
    let s := writeCfg s src (putBit c 62 b)
    if sPending (s.stOf src) then
      if b then present s src (cTarget c) else removeSrc s (cTarget c) src
    else s

/-- Clear sticky (R95). -/
def applyClrSticky (s : State) (src : Src) : State :=
  let s := readSt s src
  writeSt s src (clearStickyWord (s.stOf src))

/-- The completion row of R86 and R87, with the presentation of R138. -/
def applyCompletion (s : State) (src : Src) : State :=
  let s := readSt (readCfg s src) src
  let c := s.cfgOf src
  let had := sActive (s.stOf src)
  let w := completeWord (cMode c) (s.stOf src)
  let s := writeSt s src w
  if had && sPending w && cEnable c && !cFwd c then present s src (cTarget c) else s

/-- The commit row: the source becomes active, pending and count are taken, and it leaves the shortlist. -/
def applyCommit (s : State) (src : Src) (x : Slot) : State :=
  removeSrc (writeSt s src (commitWord (s.stOf src))) x src

/-- A change of TARGET on a pending, enabled source moves it between shortlists (R100). -/
def moveTarget (s : State) (src : Src) (old new : W64) : State :=
  if sPending (s.stOf src) then
    let was := cEnable old && !cFwd old
    let is := cEnable new && !cFwd new
    let s := if was && (!is || cTarget old != cTarget new) then removeSrc s (cTarget old) src else s
    if is && (!was || cTarget old != cTarget new) then present s src (cTarget new) else s
  else s

/-- Zeroes a vector's two words (R81): the source leaves its shortlist and the watch list. -/
def zeroVector (s : State) (v : Nat) : State :=
  let src := msgSrc v
  let c := s.cfgOf src
  let pending := sPending (s.stOf src)
  let s := (s.putCfg src 0).putSt src 0
  let s := if pending && cEnable c && !cFwd c then removeSrc s (cTarget c) src else s
  s.setPwr { s.pwr with watch := s.pwr.watch.filter (· != src) }

/-- Zeroes the words of a range, by quad-line clears that store fresh codewords (R171). -/
def zeroRange (s : State) (r : Range) : State :=
  let keys := (s.vec.cfg.map (·.1) ++ s.vec.st.map (·.1)).filter (rangeHas r)
  let s := keys.foldl zeroVector s
  let inRange (l : LineId) : Bool := match l.arr with
    | .config => l.line < 8192 && (cfgVectors l).all (rangeHas r)
    | .state => l.line < 4096 && (stVectors l).all (rangeHas r)
    | _ => false
  writtenRange (s.dropLines inRange) r
where
  /-- The clears are mailbox writes: the first that reaches the bank of an armed injection takes it (R347). -/
  writtenRange (s : State) (r : Range) : State :=
    if s.ras.arm then
      match (List.range 32).find? fun i => (cfgLine (r.base.toNat + i)).bank == s.ras.injBank.toNat with
      | some i => wroteLine s (cfgLine (r.base.toNat + i))
      | none => s
    else s

end Sys2Proof.Machine
end

