-- ==== Sys2Proof/Machine/Capture.lean ====
section
/-! DEFINITION. The capture FIFO of Locket: its entry words and what goes into it (R317, R318). -/
namespace Sys2Proof.Machine

/-- KIND 0 (R317): an intake-window write. -/
def capWrite (owner : BitVec 7) (requester : BitVec 16) (v : BitVec 20) (form : BitVec 4) : W64 :=
  place 64 owner 54 ||| place 64 requester 38 ||| place 64 v 18 ||| place 64 form 14

/-- KIND 1: `TGT_COMPLETE`. -/
def capComplete (t : Tenant) (i : BitVec 10) (src : Src) : W64 :=
  place 64 (1 : BitVec 3) 61 ||| place 64 t 55 ||| place 64 i 45 ||| place 64 src 21

/-- KIND 2: `TGT_COMPLETE_SEQ`. -/
def capCompleteSeq (t : Tenant) (i : BitVec 10) (src : Src) (seq : BitVec 16) : W64 :=
  place 64 (2 : BitVec 3) 61 ||| place 64 t 55 ||| place 64 i 45 ||| place 64 src 21 ||| place 64 seq 5

def opCode : SrcOp → BitVec 3
  | .setPending => 0
  | .clrPending => 1
  | .setEnable => 2
  | .clrEnable => 3
  | .clrSticky => 4

def opOf (n : BitVec 3) : SrcOp :=
  match n.toNat with
  | 0 => .setPending
  | 1 => .clrPending
  | 2 => .setEnable
  | 3 => .clrEnable
  | _ => .clrSticky

/-- KIND 3: a source-operation write. -/
def capSrcOp (w : Option Tenant) (op : SrcOp) (src : Src) : W64 :=
  place 64 (3 : BitVec 3) 61 ||| place 64 (bit 1 w.isNone) 60 ||| place 64 (w.getD 0) 54
    ||| place 64 (opCode op) 51 ||| place 64 src 27

/-- KIND 4: another target-page write of a tenant. -/
def capTgt (t : Tenant) (i : BitVec 10) (reg : BitVec 8) (data : W32) : W64 :=
  place 64 (4 : BitVec 3) 61 ||| place 64 t 55 ||| place 64 i 45 ||| place 64 reg 37 ||| place 64 data 5

def capKind (w : W64) : Nat := (field w 61 3 : BitVec 3).toNat

/-- The TBL quarter that an entry concerns: that of its vector, or of its message source. -/
def capQuarter (w : W64) : Option Nat :=
  let ofSrc (x : Src) : Option Nat := match srcClass x with
    | .message v => some (quarterOf v)
    | _ => none
  match capKind w with
  | 0 => some (quarterOf (field w 18 20 : BitVec 20).toNat)
  | 1 => ofSrc (field w 21 24)
  | 2 => ofSrc (field w 21 24)
  | 3 => ofSrc (field w 27 24)
  | _ => none

/-- An arrival that concerns quarter `q`, if any, goes into the capture FIFO (R15, R317, R318). -/
def State.captures (s : State) (q : Option Nat) : Bool :=
  !s.coreUp || (s.pwr.captureAll && !s.pwr.capture.isEmpty) || match q with
    | some q => s.quarterAway q || s.pwr.capture.any fun e => capQuarter e.word == some q
    | none => false

/-- Wakes the quarter of an arrival while CORE is ON; CORE's own wake waits for its causes (R15, R319). -/
def wakeQuarter (s : State) (q : Option Nat) : State :=
  match q with
  | some q => if s.coreUp && s.quarterAway q then wake .access s (dTBL q) else s
  | none => s

/-- The exit of a domain has begun. -/
def State.exiting (s : State) (d : Nat) : Bool :=
  match (s.dom d).trans with
  | .exiting _ _ _ => true
  | _ => false

/-- Places an entry in the FIFO, with the fill of R318: at 768 entries a wake, unless CORE is on its way (R330), and
S:0x27E; at 1,024 `CAPTURE_FULL`. A
full FIFO takes nothing: the writer waits in its ingress port. -/
def capture (s : State) (w : W64) : State :=
  let n := s.pwr.capture.length
  if 1024 ≤ n then s
  else
    let s := if s.pwr.capturePos.toNat % 4 = 0 then freshLine s ⟨.capture, 0, s.pwr.capturePos.toNat / 4⟩ else s
    let u := s.pwr
    let s := s.setPwr { u with
      capture := u.capture ++ [⟨u.capturePos.toNat / 4, w⟩]
      capturePos := u.capturePos + 1
      captureAll := u.captureAll || !s.coreUp
      highWater := if u.highWater.toNat < n + 1 then BitVec.ofNat 11 (n + 1) else u.highWater
      captureFull := u.captureFull || decide (n + 1 = 1024) }
    let s := wakeQuarter s (capQuarter w)
    if n + 1 = 768 then
      let s := s.setPwr { s.pwr with capture75 := true }
      raiseSource (if s.exiting dCORE then s else wakeAll .captureFill s) 0x27E
    else s

end Sys2Proof.Machine
end

