-- ==== Sys2Proof/Machine/Intake.lean ====
section
/-! DEFINITION. The message intake: arrival, the checks of R56, the tenant queues and their drain (R60 to R66), source operations on message and system sources (R95 to R99), and the weights and base registers. -/
namespace Sys2Proof.Machine

/-! ## Entering a queue -/

def enqueue (s : State) (t : Tenant) (e : QEntry) : State :=
  s.modTenant t fun r => { r with queue := r.queue ++ [e] }

/-- Steps 2 to 6 of R56 on a well-formed write whose credit has been taken. -/
def frontEnd (s : State) (v : BitVec 20) (requester : BitVec 16) (owner : BitVec 7) : State :=
  let t := s.mapOwner v.toNat
  let fail (reason : Nat) : State :=
    let s := discard s reason v owner none requester t
    match t with
    | some t => returnCredit s t
    | none => s
  if s.hm.safeMin then fail 3
  else match t with
  | none => fail 4
  | some t =>
    if s.resetting t then fail 5
    else if s.intake.ownerCheck && (decide (64 < owner.toNat) || (decide (owner.toNat < 64) && owner != t.setWidth 7)) then
      fail 6
    else enqueue s t ⟨.edge owner, v, requester, .crossbar⟩

/-- A discard at step 1 of R56: reason 1 MALFORMED, 2 NON_POSTED. -/
def discardForm (s : State) (form : Nat) (v : BitVec 20) (requester : BitVec 16) (owner : BitVec 7) : State :=
  discard s form v owner none requester (s.mapOwner v.toNat)

/-- Form of a request under R52: 0 well formed, 1 MALFORMED, 2 NON_POSTED. -/
def intakeForm (w : IntakeReq) : Nat :=
  if !w.posted then 2
  else if w.lengthDw = 1 ∧ w.firstBe = 0xF ∧ w.lastBe = 0 ∧ w.poisoned = false then 0 else 1

/-- A parity error of an inbound fabric-port beat: the request is discarded (R337). -/
def portParityError (s : State) : State :=
  raiseSource (s.setRas { s.ras with portParity := true, parity := satInc s.ras.parity }) 0x264

/-- The vector that an address names, when it lies in the open intake window (R54). -/
def State.windowVector (s : State) (a : W64) : Option (BitVec 20) :=
  match s.intake.openBase with
  | some base =>
    if decide ((a - base).toNat < 0x400000) && decide (base.toNat ≤ a.toNat) then some (field (a - base) 2 20) else none
  | none => none

/-- A write charged to a tenant's pool has a credit there, and the pools' credits are not withheld (R61, R318). -/
def State.hasCredit (s : State) (t : Tenant) : Bool :=
  (s.tenant t).credits != 0 && decide (s.pwr.capture.length < 1024)

/-- The charge of a posted write to the pool of the tenant, if any, whose range it names, and its return. -/
def chargePool (s : State) : Option Tenant → State
  | some t => takeCredit s t
  | none => s

def refundPool (s : State) : Option Tenant → State
  | some t => returnCredit s t
  | none => s

/-- The completion that a non-posted request receives (R52, R337). -/
def answer (s : State) (c : CplStatus) : State := s.setBnd { s.bnd with lastStatus := c }

/-- A beat in parity error is discarded whatever it addresses: a posted write loses its charge again, any other request
is aborted (R337). -/
def parityBeat (s : State) (posted : Bool) (t : Option Tenant) : State :=
  portParityError (if posted then refundPool (chargePool s t) t else answer s .aborted)

/-- A request in the open intake window, at the front end (R52, R56, R317). -/
def windowRequest (s : State) (w : IntakeReq) (v : BitVec 20) (t : Option Tenant) : State :=
  let form := intakeForm w
  let away := s.captures (some (quarterOf v.toNat))
  if away && decide (1024 ≤ s.pwr.capture.length) then s
  else
    let s := if w.posted then s else answer s .unsupported
    if away then
      let s := if w.posted then refundPool (chargePool s t) t else s
      let s := capture s (capWrite w.owner w.requester v (BitVec.ofNat 4 form))
      if form = 0 then watchMatch s (msgSrc v.toNat) else s
    else if form = 0 then frontEnd (chargePool s t) v w.requester w.owner
    else
      let s := discardForm (if w.posted then chargePool s t else s) form v w.requester w.owner
      if w.posted then refundPool s t else s

/-- A request at the fabric port. A posted write whose pool has no credit waits in its ingress port. -/
def execIntakeWrite (w : IntakeReq) (s : State) : Host.Outcome State Fault Refusal :=
  .next <|
    if s.hm.inReset.isSome || s.hm.powerOff then s
    else
      let v := s.windowVector w.addr
      let t := v.bind fun v => s.mapOwner v.toNat
      if w.posted && t.any fun t => !s.hasCredit t then s
      else if w.parityErr then parityBeat s w.posted t
      else match v with
        | some v => windowRequest s w v t
        | none => s

/-! ## Source operations (R95 to R99) -/

/-- Sets the latch bits of an operation on a system source (R97). -/
def latchOp (s : State) (n : Nat) (op : SrcOp) : State :=
  let l := s.latch n
  match op with
  | .setPending => raiseSource s n
  | .clrPending => s.setLatch n { l with arrival := false, clrPend := true }
  | .setEnable => s.setLatch n { l with setEn := true, clrEn := false }
  | .clrEnable => s.setLatch n { l with clrEn := true, setEn := false }
  | .clrSticky => s.setLatch n { l with clrSticky := true }

/-- Refusal reason of an operation on a system source, 0 for none (R80, R98). -/
def sysOpReason (s : State) (w : Option Tenant) (op : SrcOp) (src : Src) : Nat :=
  let owner := (s.slotOwner (cTarget (s.cfgOf src))).map (·.1)
  let enableOp := op == .setEnable || op == .clrEnable
  match w with
  | some t => if owner ≠ some t then 2 else if enableOp then 3 else 0
  | none => if op = .setEnable ∧ owner.isNone then 4 else 0

/-- Owner code recorded for a source operation of the FM that is discarded (log entry 24). -/
def fmOwner : BitVec 7 := 64

/-- The FM's entries in a tenant's queue (R60). -/
def fmEntries (r : TenantRec) : Nat := (r.queue.filter fun e => e.pool == .fm).length

/-- A source operation made by window `w` (none: the FM), with CORE ON. -/
def sourceOp (s : State) (w : Option Tenant) (op : SrcOp) (src : Src) (requester : BitVec 16) : State :=
  match srcClass src with
  | .priv _ => recordRefusal s w op 1 src
  | .reserved => recordRefusal s w op 1 src
  | .system n =>
    let reason := sysOpReason s w op src
    if reason = 0 then latchOp s n op else recordRefusal s w op reason src
  | .message v =>
    let vec : BitVec 20 := BitVec.ofNat 20 v
    match w with
    | some t => enqueue (takeCredit s t) t ⟨.op op false, vec, requester, .crossbar⟩
    | none =>
      match s.mapOwner v with
      | none => recordRefusal s none op 2 src
      | some t =>
        if s.resetting t then discard s 5 vec fmOwner none requester (some t)
        else
          let e : QEntry := ⟨.op op true, vec, requester, .fm⟩
          if fmEntries (s.tenant t) < 8 then enqueue s t e
          else s.modTenant t fun r => { r with fmWaiting := r.fmWaiting ++ [e] }

/-- The TBL quarter of a source's words, for a message source. -/
def srcQuarter (src : Src) : Option Nat :=
  match srcClass src with
  | .message v => some (quarterOf v)
  | _ => none

/-- A message source, whose operations through a tenant window hold an entry of the queue and its credit (R61, R96). -/
def isMessage (src : Src) : Bool :=
  match srcClass src with
  | .message _ => true
  | _ => false

/-- A source-operation write finds the credit, or the place in the capture FIFO, that it needs (R61, R318). -/
def State.opRoom (s : State) (p : Path) (src : Src) : Bool :=
  match pathTenant p with
  | some t => s.hasCredit t
  | none => !s.captures (srcQuarter src) || decide (s.pwr.capture.length < 1024)

/-- A write to an operation address: captured where R15 says so, otherwise acted on. Every such write through a tenant
window is charged to the tenant's pool; the credit returns at once unless the write enters the queue (R61). -/
def sourceOpWrite (s : State) (p : Path) (op : SrcOp) (data : W32) (requester : BitVec 16) : State :=
  let src : Src := data.setWidth 24
  let w := pathTenant p
  if !s.opRoom p src then s
  else if s.captures (srcQuarter src) then
    let s := capture (refundPool (chargePool s w) w) (capSrcOp w op src)
    if op = .setPending then watchMatch s src else s
  else if isMessage src then sourceOp s w op src requester
  else refundPool (sourceOp (chargePool s w) w op src requester) w

/-! ## The drain (R62) -/

/-- An entry that is sent on as an edge record: an edge or a set pending on a forwarded vector (R73, R98). -/
def sendsRecord (e : QEntry) (c : W64) : Bool :=
  cFwd c && match e.kind with
    | .edge _ => true
    | .chainEdge _ => false
    | .op o _ => o == .setPending

/-- A head that waits (R62): its quarter is not ON, a bank it reads has no cycle left in the frame (R24), or its allowance is exhausted while the destination is live. -/
def State.headWaits (s : State) (e : QEntry) : Bool :=
  let c := s.cfgOf (msgSrc e.vector.toNat)
  s.quarterAway (quarterOf e.vector.toNat) || !s.banksOpen (msgSrc e.vector.toNat) 2 ||
    (sendsRecord e c && s.isLive (cDestChip c) &&
      (s.allowance (cDestChip c) (cDestTenant c) == 0 || !s.windowOpen (cDestChip c)))

/-- A tenant whose queue can be served now. -/
def State.servable (s : State) (t : Tenant) : Bool :=
  match (s.tenant t).queue with
  | e :: _ => !s.headWaits e
  | [] => false

/-- The next servable tenant after `t`, ascending with wrap. -/
def State.nextServable (s : State) (t : Tenant) : Option Tenant :=
  ((List.range 64).map fun i => t + 1 + BitVec.ofNat 6 i).find? s.servable

/-- The credit or place of an entry that leaves the queue. -/
def releaseEntry (s : State) (t : Tenant) (e : QEntry) : State :=
  match e.pool with
  | .crossbar => returnCredit s t
  | .chain => s
  | .fm =>
    match (s.tenant t).fmWaiting with
    | f :: rest => s.modTenant t fun r => { r with queue := r.queue ++ [f], fmWaiting := rest }
    | [] => s

/-- An edge on a vector of tenant `t`, applied and counted (R66, R220). -/
def tenantEdge (s : State) (t : Tenant) (src : Src) : State :=
  (applyEdge s src).modTenant t fun r => { r with edges := r.edges + 1 }

/-- R73: the edge record is sent, or the event discarded when the destination is not a live member. -/
def forwardEvent (s : State) (t : Tenant) (e : QEntry) (owner : BitVec 7) (c : W64) : State :=
  if s.isLive (cDestChip c) && s.chainMode != 0 then
    sendEdge s (cDestChip c) (cDestTenant c) (cDestVector c) e.requester
  else discard s 8 e.vector owner none e.requester (some t)

/-- Steps 7 to 9 of R56 on an edge. -/
def drainEdge (s : State) (t : Tenant) (e : QEntry) (owner : BitVec 7) (origin : Option Chip) : State :=
  let v := e.vector.toNat
  let src := msgSrc v
  if s.mapOwner v ≠ some t then discard s 4 e.vector owner origin e.requester (s.mapOwner v)
  else
    let s := readCfg s src
    let c := s.cfgOf src
    if cFwd c then
      match origin with
      | some _ => discard s 9 e.vector owner origin e.requester (some t)
      | none => forwardEvent s t e owner c
    else if cReqCheck c && cReqId c != e.requester then
      discard s 7 e.vector owner origin e.requester (some t)
    else tenantEdge s t src

/-- Refusal reason of an operation on a message source, at its drain (R98); 0 for none. -/
def msgOpReason (s : State) (t : Tenant) (op : SrcOp) (fm : Bool) (v : Nat) : Nat :=
  let c := s.cfgOf (msgSrc v)
  let enableOp := op == .setEnable || op == .clrEnable
  if s.rangeOwner v ≠ some t then 2
  else if !fm && enableOp && cLocked c then 3
  else if op == .setEnable && !cFwd c && (s.slotOwner (cTarget c)).map (·.1) != some t then 4
  else if op != .setPending && cFwd c then 5
  else 0

/-- A drained operation on a message source (R96, R98). A set-pending that R59 discards on a forwarded vector records an
owner code, for which the spec gives a source operation none: the tenant's ID for the tenant's own, 64 for the FM's. The
model's choice, log entry 24. -/
def drainOp (s : State) (t : Tenant) (e : QEntry) (op : SrcOp) (fm : Bool) : State :=
  let v := e.vector.toNat
  let src := msgSrc v
  let s := if s.rangeOwner v = some t then readCfg s src else s
  let reason := msgOpReason s t op fm v
  if reason ≠ 0 then recordRefusal s (if fm then none else some t) op reason src
  else match op with
    | .setPending =>
      if cFwd (s.cfgOf src) then forwardEvent s t e (if fm then fmOwner else t.setWidth 7) (s.cfgOf src)
      else tenantEdge s t src
    | .clrPending => applyClear s src
    | .setEnable => applyEnable s src true
    | .clrEnable => applyEnable s src false
    | .clrSticky => applyClrSticky s src

/-- The event that has left the queue runs steps 7 to 9 of R56. -/
def drainEntry (s : State) (t : Tenant) (e : QEntry) : State :=
  let s := (releaseEntry s t e).count 1 1
  match e.kind with
  | .edge owner => drainEdge s t e owner none
  | .chainEdge origin => drainEdge s t e 0 (some origin)
  | .op o fm => drainOp s t e o fm

/-- Quarters named by waiting heads are brought to ON (R62, R311). -/
def wakeHeads (s : State) : State :=
  s.listedTenants.foldl (fun s t => match (s.tenant t).queue with
    | e :: _ => wakeQuarter s (some (quarterOf e.vector.toNat))
    | [] => s) s

/-- One drain slot. -/
def drainSlot (s : State) : State :=
  let t := s.intake.turn
  let r := s.tenant t
  let s := if r.queue.isEmpty then s.setTenant t { r with deficit := 0 } else s
  let s := wakeHeads s
  let go (s : State) (t : Tenant) : State :=
    match (s.tenant t).queue with
    | e :: rest =>
      let s := takeBanks (takeLane s .intake) (msgSrc e.vector.toNat) 2
      drainEntry (s.modTenant t fun r => { r with queue := rest, deficit := r.deficit - 1 }) t e
    | [] => s
  if (s.tenant t).deficit ≠ 0 ∧ s.servable t then go s t
  else match s.nextServable t with
    | none => s
    | some u =>
      go ((s.modTenant u fun r => { r with deficit := r.weight.toNat }).setIntake { s.intake with turn := u }) u

/-- A head waits for a cycle of a bank (R24). -/
def State.crowded (s : State) : Bool :=
  s.listedTenants.any fun t => match (s.tenant t).queue with
    | e :: _ => !s.banksOpen (msgSrc e.vector.toNat) 2
    | [] => false

/-- One drain slot of the F/2 that a frame has (R36); what does not fit waits for the next frame (R24). -/
def intakeStep (s : State) : State :=
  if s.laneOpen .intake then drainSlot (if s.crowded then exceed s else s)
  else if s.listedTenants.any s.servable then exceed s else s

/-! ## Effects of intake register writes -/

/-- R55: a half of INTAKE_BASE, refused while the window is open. -/
def writeIntakeBase (s : State) (high : Bool) (data : W32) : State :=
  let u := s.intake
  if u.windowEn then s.setIntake { u with baseRefused := true }
  else s.setIntake { u with base :=
    if high then data ++ (field u.base 0 32 : W32)
    else (field u.base 32 32 : W32) ++ (data &&& 0xFFC00000) }

/-- R62: a weight, which takes effect when the tenant's turn next begins; 0 is ignored. -/
def writeWeight (s : State) (t : Tenant) (data : W32) : State :=
  let w : BitVec 8 := data.setWidth 8
  if w = 0 then s.setIntake { s.intake with weightRefused := true }
  else s.modTenant t fun r => { r with weight := w }

/-- R75: raises a line at another chip, or refuses. -/
def writeChainEvent (s : State) (data : W32) : State :=
  let d : Chip := field data 8 4
  if d = s.chipId ∨ ¬ s.isLive d ∨ s.chainMode = 0 then
    s.setIntake { s.intake with chainEventRefused := true }
  else raiseLine s d (field data 0 4)

end Sys2Proof.Machine
end

