-- ==== Sys2Proof/Machine/Target.lean ====
section
/-! DEFINITION. Completions (R136 to R144), parking and drop notices (R132, R143), the private lane (R113 to R115), target masks and timers (R131, R155), and the drain of the capture FIFO (R318). -/
namespace Sys2Proof.Machine

/-! ## Stray and stale completions (R140, R141) -/

/-- Counts a stray or stale completion of a tenant on one of its targets. -/
def strayCompletion (s : State) (t : Tenant) (x : Slot) (src : Src) (stale : Bool) : State :=
  let s := s.modTarget x fun r =>
    if stale then { r with stale := true, staleCount := satInc r.staleCount }
    else { r with stray := true, strayCount := satInc r.strayCount }
  let i := match s.slotOwner x with
    | some (_, i) => i
    | none => 0
  let s := s.modTenant t fun r =>
    let r := { r with strayCount := satInc r.strayCount }
    let r := if stale then { r with staleSeen := true } else { r with straySeen := true }
    if r.strayFirstValid then r else { r with
      strayFirstValid := true, strayFirstStale := stale, strayFirstTarget := i, strayFirstSrc := src }
  let s := (s.setTgt { s.tgt with strayTotal := satInc s.tgt.strayTotal, strayAny := true }).count 8 1
  if stale then s else raiseSource s 0x26F

/-! ## Applying a completion (R138) -/

/-- The completion row of a private source: it has no state word, and stays pending when set meanwhile (R114). -/
def completeSource (s : State) (src : Src) : State :=
  match srcClass src with
  | .priv _ => s
  | _ => applyCompletion s src

/-- A valid completion of the active source of a target: the record is freed, the source completed, and the busy bit
clears at the next tick (R138). -/
def completeTarget (s : State) (t : Tenant) (x : Slot) (src : Src) (seqForm : Bool) : State :=
  let s := s.modTarget x fun r => { r with
    active := none, redeliver := false, parked := false, lastCpl := some (seqForm, src) }
  let s := completeSource s src
  let s := s.clearBusyNext x
  (s.modTenant t fun r => { r with completions := r.completions + 1 }).count 7 1

/-- A completion that reaches target SRAM: valid, stale, or stray (R138, R140). -/
def applyCplEntry (s : State) (e : CplEntry) : State :=
  if s.resetting e.tenant then s
  else if (s.slotOwner e.slot).map (·.1) != some e.tenant then s
  else
    let s := touchTarget s e.slot
    let r := s.target e.slot
    if e.badForm then strayCompletion s e.tenant e.slot e.src false
    else if r.active ≠ some e.src then strayCompletion s e.tenant e.slot e.src false
    else match e.seq with
      | none => completeTarget s e.tenant e.slot e.src false
      | some q =>
        if q = r.seq then completeTarget s e.tenant e.slot e.src true
        else strayCompletion s e.tenant e.slot e.src true

/-- A completion whose source lies in a quarter that is not ON, or that still has captured entries, moves to the
capture FIFO (R137). -/
def State.cplMoves (s : State) (e : CplEntry) : Bool :=
  !e.badForm && match srcClass e.src with
    | .message v => s.quarterAway (quarterOf v) || s.pwr.capture.any fun c => capQuarter c.word == some (quarterOf v)
    | _ => false

/-- The head completion is drained. A full capture FIFO leaves a completion that must move at the head. -/
def drainCompletion (s : State) : State :=
  match s.tgt.cplQueue with
  | [] => s
  | e :: rest =>
    if s.cplMoves e && !s.resetting e.tenant then
      if 1024 ≤ s.pwr.capture.length then s
      else
        let i := match s.slotOwner e.slot with
          | some (_, i) => i
          | none => 0
        let s := s.setTgt { s.tgt with cplQueue := rest }
        capture s (match e.seq with
          | some q => capCompleteSeq e.tenant i e.src q
          | none => capComplete e.tenant i e.src)
    else applyCplEntry (s.setTgt { s.tgt with cplQueue := rest }) e

/-- One completion of the F/4 that a frame applies (R36), while the banks of its source have cycles left (R24). -/
def completionStep (s : State) : State :=
  match s.tgt.cplQueue with
  | [] => s
  | e :: _ =>
    if !s.laneOpen .completion then s
    else if s.banksOpen e.src 1 then drainCompletion (takeBanks (takeLane s .completion) e.src 1)
    else exceed s

/-! ## Writes of completions (R136, R137, R139) -/

/-- The slot that a path reaches at target page `i`, with the tenant that holds it: a tenant by its local index, the
FM by the group its path has selected (R133, R380). A page that is not granted reaches nothing. -/
def State.pageSlot (s : State) (p : Path) (page : BitVec 10) : Option (Tenant × Slot) :=
  let ofView (v : W32) : Option (Tenant × Slot) :=
    let x : Slot := (field v 16 6 : BitVec 6) ++ page
    (s.slotOwner x).map fun o => (o.1, x)
  match p with
  | .tenant t => (s.slotOf t page).map fun x => (t, x)
  | .manager => ofView s.ten.viewManager
  | .smbus => ofView s.ten.viewSmbus

/-- The queue has a place for a completion of a tenant: 2,048 entries, at most 32 of them the tenant's (R137). -/
def State.cplRoom (s : State) (t : Tenant) : Bool :=
  decide ((s.tgt.cplQueue.filter fun c => c.tenant == t).length < 32) && decide (s.tgt.cplQueue.length < 2048)

/-- The completion enters the queue; without a place for it the crossbar holds the write (R137). -/
def queueCompletion (s : State) (e : CplEntry) : State :=
  if s.cplRoom e.tenant then s.setTgt { s.tgt with cplQueue := s.tgt.cplQueue ++ [e] } else s

/-- A well-formed completion of a tenant is captured while CORE is not ON (R15, R317). -/
def captureCompletion (s : State) (t : Tenant) (page : BitVec 10) (src : Src) (seq : Option (BitVec 16)) : State :=
  capture s (match seq with
    | some q => capCompleteSeq t page src q
    | none => capComplete t page src)

/-! ## Parking (R143) -/

/-- The slots of a tenant with an outstanding delivery that are not yet parked. -/
def State.parkable (s : State) (t : Tenant) : List Slot :=
  (s.slotsOf t).filter fun x => (s.target x).active.isSome && !(s.target x).parked

/-- A trigger of R143: every target of the tenant with an outstanding delivery is parked, as one park action. -/
def park (s : State) (t : Tenant) : State :=
  match s.parkable t with
  | [] => s
  | xs =>
    let s := xs.foldl (fun s x => s.modTarget x fun r => { r with parked := true }) s
    let s := s.setTgt { s.tgt with parkEvents := satInc s.tgt.parkEvents, parkAny := true }
    s.modTenant t fun r => { r with parkedSeen := true }

/-- The tenant bound to a port. -/
def State.portTenant (s : State) (port : Nat) : Option Tenant :=
  (s.ten.recs.find? fun p => p.2.bound && p.2.port.toNat == port).map fun p => BitVec.ofNat 6 p.1

/-! ## Drop notices (R132) -/

/-- What CORE does on a drop notice. -/
def applyDrop (s : State) (slot : Slot) (seq : BitVec 16) : State :=
  let r := s.target slot
  let matching := r.active.isSome && r.seq == seq && (s.slotOwner slot).isSome
  let u := { s.tgt with dropCount := satInc s.tgt.dropCount }
  let u := if matching then u else { u with dropStale := true }
  let u := if u.dropValid then u else { u with
    dropValid := true, dropFirstSlot := slot, dropFirstStale := !matching, dropFirstSeq := seq }
  let s := raiseSource (s.setTgt u) 0x27F
  match matching, s.slotOwner slot with
  | true, some (t, _) => park s t
  | _, _ => s

def execDropNotice (slot : Slot) (seq : BitVec 16) (parityErr : Bool) (s : State) :
    Host.Outcome State Fault Refusal :=
  .next <|
    if s.hm.inReset.isSome || s.hm.powerOff then s
    else if parityErr then portParityError s
    else if s.coreUp then applyDrop s slot seq
    else if 16 ≤ s.tgt.heldDrops.length then s
    else s.setTgt { s.tgt with heldDrops := s.tgt.heldDrops ++ [(slot, seq)] }

/-! ## The private lane (R115) -/

/-- A write enters the private lane; a full lane of 256 entries holds the writer (R156). -/
def queuePrivate (s : State) (w : PrivWrite) : State :=
  if 256 ≤ s.tgt.privLane.length then s
  else s.setTgt { s.tgt with privLane := s.tgt.privLane ++ [w] }

/-- The lane's write into target SRAM (R114). -/
def applyPrivate (s : State) (w : PrivWrite) : State :=
  let s := touchTarget s w.slot
  match w.op with
  | .set => (s.modTarget w.slot fun r => { r with privPend := r.privPend ||| w.bits }).count 4 1
  | .clr => s.modTarget w.slot fun r => { r with privPend := r.privPend &&& ~~~ w.bits }
  | .enable => s.modTarget w.slot fun r => { r with privEn := w.bits }

/-- One write of the F/8 that a frame has (R36). -/
def privateStep (s : State) : State :=
  match s.tgt.privLane with
  | w :: rest => if s.laneOpen .priv then
      applyPrivate (takeLane (s.setTgt { s.tgt with privLane := rest }) .priv) w else s
  | [] => s

/-! ## Mask and timer (R131, R155) -/

def writeTgtCtrl (s : State) (x : Slot) (data : W32) : State :=
  (touchTarget s x).modTarget x fun r => { r with mask := data.getLsbD 0 }

def writeTimerCtrl (s : State) (x : Slot) (data : W32) : State :=
  (touchTarget s x).modTarget x fun r => { r with
    periodic := data.getLsbD 24, reload := field data 0 24, timer := field data 0 24, timerDone := false }

/-- One tick of a target's timer (R155): a timer that reaches 0 sets P:8, or counts an overrun when P:8 is already
pending or active, and reloads when periodic. -/
def tickTimer (r : TargetRec) : TargetRec :=
  if r.timerDone then { r with timerDone := false }
  else if r.timer = 0 then r
  else if r.timer = 1 then
    let busy := r.privPend.getLsbD 8 || r.active == some (privSrc 8)
    { r with
      timer := if r.periodic then r.reload else 0
      privPend := if busy then r.privPend else r.privPend ||| BitVec.twoPow 13 8
      overrun := if busy then satInc r.overrun else r.overrun }
  else { r with timer := r.timer - 1 }

/-- The firing of one timer ahead of the rest of its tick: its count of the coming tick is made now. -/
def execTimerFire (x : Slot) (s : State) : Host.Outcome State Fault Refusal :=
  .next <|
    let r := s.target x
    if s.coreOn && s.frame.running && r.timer == 1 && !r.timerDone then
      s.setTarget x { tickTimer r with timerDone := true }
    else s

/-! ## Target-page register writes (R133) -/

/-- A write to a target-page register other than the completion registers, in offsets of R133 and R159. -/
def writeTargetPage (s : State) (x : Slot) (reg : Nat) (data : W32) : State :=
  if reg = 0x008 then queuePrivate s ⟨.set, x, data.setWidth 13 &&& 0xFF⟩
  else if reg = 0x00C then queuePrivate s ⟨.clr, x, data.setWidth 13⟩
  else if reg = 0x010 then queuePrivate s ⟨.enable, x, data.setWidth 13⟩
  else if reg = 0x018 then writeTgtCtrl s x data
  else if reg = 0x088 then s.modTarget x fun r => { r with
    stray := r.stray && !data.getLsbD 0, stale := r.stale && !data.getLsbD 1
    reissued := r.reissued && !data.getLsbD 2 }
  else if reg = 0x0A0 then writeTimerCtrl s x data
  else s

/-! ## The capture drain (R318) -/

/-- The tenant that an entry keeps in order: of its vector, its target page, or its window; none for an FM
operation on nothing granted. -/
def State.capTenant (s : State) (w : W64) : Option Tenant :=
  match capKind w with
  | 0 => s.mapOwner (field w 18 20 : BitVec 20).toNat
  | 3 => if w.getLsbD 60 then
      match srcClass (field w 27 24) with
      | .message v => s.mapOwner v
      | _ => none
    else some (field w 54 6)
  | _ => some (field w 55 6)

/-- An entry that cannot drain now: its quarter is not ON, or its tenant's pool or lane has no room. -/
def State.capWaits (s : State) (w : W64) : Bool :=
  (match capQuarter w with
    | some q => s.quarterAway q
    | none => false) ||
  (match capKind w with
    | 0 => match s.mapOwner (field w 18 20 : BitVec 20).toNat with
      | some t => (field w 14 4 : BitVec 4) == 0 && (s.tenant t).credits == 0
      | none => false
    | 3 => match srcClass (field w 27 24), w.getLsbD 60 with
      | .message _, false => (s.tenant (field w 54 6)).credits == 0
      | _, _ => false
    | 4 => decide (256 ≤ s.tgt.privLane.length)
    | _ => false)

/-- The first entry that may drain: none ahead of it of its own tenant waits. -/
def State.capNext (s : State) : Option CaptureEntry :=
  let rec go (blocked : List (Option Tenant)) : List CaptureEntry → Option CaptureEntry
    | [] => none
    | e :: rest =>
      let t := s.capTenant e.word
      if t ∈ blocked ∨ s.capWaits e.word then go (t :: blocked) rest else some e
  go [] s.pwr.capture

/-- A captured completion is checked and applied as at the head of the queue (R137). -/
def capCompletion (s : State) (w : W64) (seq : Option (BitVec 16)) : State :=
  let t : Tenant := field w 55 6
  match s.slotOf t (field w 45 10) with
  | some x => applyCplEntry s ⟨t, x, field w 21 24, seq, false⟩
  | none => s

/-- What a drained entry does. A captured set-pending has no requester ID in its entry (R317), so the edge record of one on
a forwarded vector (R73, R98) is sent with 0: the model's choice, log entry 24. -/
def applyCaptured (s : State) (w : W64) : State :=
  match capKind w with
  | 0 =>
    let v : BitVec 20 := field w 18 20
    let req : BitVec 16 := field w 38 16
    let owner : BitVec 7 := field w 54 7
    let form := (field w 14 4 : BitVec 4).toNat
    if form = 0 then
      frontEnd (match s.mapOwner v.toNat with
        | some t => takeCredit s t
        | none => s) v req owner
    else discardForm s form v req owner
  | 1 => capCompletion s w none
  | 2 => capCompletion s w (some (field w 5 16))
  | 3 =>
    let window : Option Tenant := if w.getLsbD 60 then none else some (field w 54 6)
    let gone := match window with
      | some t => s.resetting t
      | none => false
    if gone then s else sourceOp s window (opOf (field w 51 3)) (field w 27 24) 0
  | 4 =>
    let t : Tenant := field w 55 6
    if s.resetting t then s
    else match s.slotOf t (field w 45 10) with
      | some x => writeTargetPage s x (4 * (field w 37 8 : BitVec 8).toNat) (field w 5 32)
      | none => s
  | _ => s

/-- One drained entry leaves the FIFO; when its line reads uncorrectable it is discarded (R335). -/
def drainCapture (s : State) (e : CaptureEntry) : State :=
  let l : LineId := ⟨.capture, 0, e.line⟩
  let rest := s.pwr.capture.erase e
  let u := { s.pwr with capture := rest, captureAll := s.pwr.captureAll && !rest.isEmpty }
  let s := s.setPwr u
  match decodeLine s.ras.freeReads (s.lineErr l) with
  | .uncorrectable =>
    if l ∈ s.ras.uncounted then s
    else noteUncorrectable (s.setRas { s.ras with uncounted := l :: s.ras.uncounted }) 0 l
  | .corrected => applyCaptured (noteCorrected s l) e.word
  | .clean => applyCaptured s e.word
  | .miscorrected bits =>
    applyCaptured (noteCorrected (s.setRas { s.ras with freeReads := s.ras.freeReads + 1 }) l)
      (e.word ^^^ field bits 0 64)

end Sys2Proof.Machine
end

