-- ==== Sys2Proof/Machine/System.lean ====
section
/-! DEFINITION. The system-source lane (R67, R97) and the events of the switch ports (R68, R143, R385). -/
namespace Sys2Proof.Machine

/-- The next latched source after the cursor, ascending with wrap at S:0xFFF (R67). -/
def State.nextLatched (s : State) : Option Nat :=
  let keys := s.sys.latch.map (·.1)
  match keys.find? fun n => s.sys.cursor.toNat < n with
  | some n => some n
  | none => keys.head?

/-- The lane takes a source: clear pending, edge, enable operation, clear sticky, in that order (R97). -/
def takeSource (s : State) (n : Nat) : State :=
  let l := s.latch n
  let src := sysSrc n
  let s := (s.setLatch n {}).setSys { (s.setLatch n {}).sys with cursor := BitVec.ofNat 12 n }
  let s := if l.clrPend then applyClear s src else s
  let s := if l.arrival then (applyEdge s src).count 3 1 else s
  let s := if l.setEn then applyEnable s src true else s
  let s := if l.clrEn then applyEnable s src false else s
  if l.clrSticky then applyClrSticky s src else s

def execSystemLaneTake (s : State) : Host.Outcome State Fault Refusal :=
  .next <| if s.coreOn && s.frame.running && s.laneOpen .system then
      match s.nextLatched with
      | some n => takeSource (takeLane s .system) n
      | none => s
    else s

/-- The block watches the levels of the switch: it is out of reset, powered, and past start-up step 9 (R70). -/
def State.detecting (s : State) : Bool := s.hm.inReset.isNone && !s.hm.powerOff && s.frame.running

/-- A port's data-link level: S:0x000 + p on each change, and on a fall the park of the tenant bound there, held until
CORE's first tick while CORE is not ON (R143). -/
def execPortLinkChange (port : BitVec 7) (level : Bool) (s : State) : Host.Outcome State Fault Refusal :=
  .next <|
    if 80 ≤ port.toNat then s
    else
      let was := s.bnd.linkUp.getLsbD port.toNat
      let s := s.setBnd { s.bnd with linkUp := putBit s.bnd.linkUp port.toNat level }
      if !s.detecting then s
      else
        let s := setLevel s port.toNat level
        if was && !level then
          if s.coreUp then
            match s.portTenant port.toNat with
            | some t => park s t
            | none => s
          else s.setSys { s.sys with linkFell := Sparse.set false s.sys.linkFell port.toNat true }
        else s

def execPortPresenceChange (port : BitVec 7) (level : Bool) (s : State) : Host.Outcome State Fault Refusal :=
  .next <|
    if 80 ≤ port.toNat then s
    else
      let s := s.setBnd { s.bnd with present := putBit s.bnd.present port.toNat level }
      if s.detecting then setLevel s (0x180 + port.toNat) level else s

def execPortContained (port : BitVec 7) (s : State) : Host.Outcome State Fault Refusal :=
  .next <|
    if 80 ≤ port.toNat then s
    else
      let s := s.setBnd { s.bnd with contained := putBit s.bnd.contained port.toNat true }
      if s.detecting then setLevel s (0x200 + port.toNat) true else s

def execContainedFall (port : BitVec 7) (s : State) : Host.Outcome State Fault Refusal :=
  .next <|
    if 80 ≤ port.toNat then s
    else
      let s := s.setBnd { s.bnd with contained := putBit s.bnd.contained port.toNat false }
      if s.detecting then setLevel s (0x200 + port.toNat) false else s

/-- A correctable-error pulse of a port (R68, R385). -/
def execCorValid (port : BitVec 7) (s : State) : Host.Outcome State Fault Refusal :=
  .next <| if port.toNat < 80 ∧ s.detecting then raiseSource s (0x080 + port.toNat) else s

/-- An uncorrectable-error pulse of a port (R68, R385). -/
def execUncValid (port : BitVec 7) (s : State) : Host.Outcome State Fault Refusal :=
  .next <| if port.toNat < 80 ∧ s.detecting then raiseSource s (0x100 + port.toNat) else s

end Sys2Proof.Machine
end

