-- ==== Sys2Proof/Machine/Acu.lean ====
section
/-! DEFINITION. The access control units (R232 to R249): the decision on an access, violations, the rules' registers, and the agent regions of the firmware. -/
namespace Sys2Proof.Machine

/-! ## Units and regions -/

/-- Unit 0 is MPU-C, 1 MPU-L, 2 MPU-D (R249). -/
def State.mpu (s : State) (u : Nat) : Mpu :=
  match u with
  | 0 => s.acu.mpuC
  | 1 => s.acu.mpuL
  | _ => s.acu.mpuD

def State.setMpu (s : State) (u : Nat) (m : Mpu) : State :=
  match u with
  | 0 => s.setAcu { s.acu with mpuC := m }
  | 1 => s.setAcu { s.acu with mpuL := m }
  | _ => s.setAcu { s.acu with mpuD := m }

/-- Regions of a unit (R232). -/
def regionCount (u : Nat) : Nat := if u = 2 then 8 else 16

/-- The domain that holds a unit's registers (R378). -/
def mpuDomain (u : Nat) : Nat := if u = 0 then dCTRL else dCORE

def Mpu.region (m : Mpu) (n : Nat) : Region := Sparse.get {} m.regions n
def Mpu.setRegion (m : Mpu) (n : Nat) (r : Region) : Mpu := { m with regions := Sparse.set {} m.regions n r }

/-- SIZE_LOG2 from 6 to 40 and a TAG up to 0x40 enable a region (R234). -/
def regionEnabled (r : Region) : Bool := 6 ≤ r.size.toNat && r.size.toNat ≤ 40 && r.tag.toNat ≤ 0x40

/-- The first address of a region: the base bits below SIZE_LOG2 are taken as 0 (R234). -/
def regionStart (r : Region) : Nat := r.base.toNat / 2 ^ r.size.toNat * 2 ^ r.size.toNat

def regionCovers (r : Region) (a : Nat) : Bool :=
  regionEnabled r && regionStart r ≤ a && a < regionStart r + 2 ^ r.size.toNat

/-! ## The decision (R235 to R238, R242) -/

/-- An access as a unit sees it. Kind 0 read, 1 write, 2 fetch. -/
structure Access where
  kind   : BitVec 2
  size   : Nat
  addr   : Nat
  priv   : Bool
  tenant : Option Tenant
  deriving DecidableEq, Repr

/-- The decision on one byte: the region that decided (0x1F none), whether the lock decided, and the tenant whose
locked region was opened by consent. -/
structure Ruling where
  allowed : Bool
  region  : BitVec 5
  locked  : Bool
  opened  : Option Tenant
  deriving DecidableEq, Repr

def refuseByte : Ruling := ⟨false, 0x1F, false, none⟩

/-- The own slice of a tenant (R237). -/
def State.ownSlice (s : State) (t : Tenant) (a : Nat) : Bool :=
  (match (s.tenant t).range with
    | some r =>
      let b := r.base.toNat
      let e := b + rangeSize r
      (8 * b ≤ a && a < 8 * e) || (0x800000 + 4 * b ≤ a && a < 0x800000 + 4 * e)
    | none => false) ||
  (0xC00000 ≤ a && a < 0x1000000 &&
    (s.slotOwner (BitVec.ofNat 16 ((a - 0xC00000) / 64))).map (·.1) == some t) ||
  (0x3000000 + 0x400 * t.toNat ≤ a && a < 0x3000400 + 0x400 * t.toNat) ||
  (0x4040000 + 0x1000 * t.toNat ≤ a && a < 0x4041000 + 0x1000 * t.toNat)

/-- Consent of a tenant is in force: it is bound and has granted it (R241, R242). -/
def State.consents (s : State) (t : Tenant) : Bool := (s.tenant t).bound && (s.tenant t).consent

/-- The tenant of a tag. -/
def tagTenant (tag : BitVec 7) : Option Tenant := if tag.toNat < 64 then some (tag.setWidth 6) else none

/-- A region admits an access (R235). -/
def admitsTag (u : Nat) (r : Region) (x : Access) : Bool :=
  u == 2 || r.tag == 0x40 || x.tenant == tagTenant r.tag

/-- The attributes decide an access that a region matches. -/
def attrAllows (r : Region) (x : Access) : Bool :=
  if r.priv && !x.priv then false
  else match x.kind.toNat with
    | 0 => r.r
    | 1 => r.w
    | _ => r.x

/-- The ruling of the matching region: in MPU-D a locked region consults consent first (R242). -/
def regionRuling (s : State) (u n : Nat) (r : Region) (x : Access) : Ruling :=
  let allow := attrAllows r x
  if u = 2 ∧ r.lock then
    match tagTenant r.tag with
    | some t =>
      if s.consents t then ⟨allow, BitVec.ofNat 5 n, false, some t⟩ else ⟨false, BitVec.ofNat 5 n, true, none⟩
    | none => ⟨false, BitVec.ofNat 5 n, true, none⟩
  else ⟨allow, BitVec.ofNat 5 n, false, none⟩

/-- The default map, for privileged accesses only (R236). -/
def defaultMap (u : Nat) (x : Access) (a : Nat) : Ruling :=
  let internal := decide (a < 0x1000000000)
  let kernelCode := 0x4000000 ≤ a && a < 0x4040000
  if x.priv && (if x.kind = 2 then u == 0 && kernelCode else internal) then ⟨true, 0x1F, false, none⟩
  else refuseByte

/-- Refused whatever the regions say (R233). -/
def barred (u : Nat) (x : Access) (a : Nat) : Bool :=
  (u != 0 && 0x1000000000 ≤ a) ||
  (x.kind == 1 && ((0x800000 ≤ a && a < 0xC00000) || (u != 0 && 0x2000000 ≤ a && a < 0x2400000)))

/-- The decision of a unit on byte `a` of an access (R236). A disabled MPU-C runs under the default map (R244). -/
def decideByte (s : State) (u : Nat) (x : Access) (a : Nat) : Ruling :=
  let m := s.mpu u
  let outside := match x.tenant with
    | some t => !x.priv && !s.ownSlice t a
    | none => false
  if barred u x a || outside then refuseByte
  else
    let hit := if m.enable then
        (List.range (regionCount u)).find? fun n =>
          regionCovers (m.region n) a && admitsTag u (m.region n) x
      else none
    match hit with
    | some n => regionRuling s u n (m.region n) x
    | none => defaultMap u x a

/-- Counting, first record and S:0x269 of a violation (R240). -/
def noteViolation (s : State) (u : Nat) (x : Access) (straddle : Bool) (r : Ruling) : State :=
  let m := s.mpu u
  let m := { m with count := satInc m.count }
  if m.viol.valid then s.setMpu u m
  else raiseSource (s.setMpu u { m with viol := {
    valid := true, straddle := straddle, priv := x.priv, locked := r.locked, kind := x.kind
    size := BitVec.ofNat 6 x.size, region := r.region, addr := BitVec.ofNat 40 x.addr
    tenant := match x.tenant with
      | some t => t.setWidth 7
      | none => 0x40 } }) 0x269

/-- Fault 0x0C of each tenant whose locked region an allowed debug access used under consent (R242). -/
def chargeOpened (s : State) (a b : Ruling) : State :=
  let one (s : State) (r : Ruling) : State := match r.opened with
    | some t => chargeFault s t 0x0C (r.region.setWidth 32 &&& 7)
    | none => s
  if a = b then one s a else one (one s a) b

/-- A unit checks an access: whether it is performed, the region of a refusal, and the state with its records. -/
def checkAccess (s : State) (u : Nat) (x : Access) : State × Bool × BitVec 5 :=
  let a := decideByte s u x x.addr
  let b := decideByte s u x (x.addr + x.size - 1)
  if a.allowed && b.allowed then (chargeOpened s a b, true, 0x1F)
  else
    let bad := if a.allowed then b else a
    (noteViolation s u x (a.allowed != b.allowed) bad, false, bad.region)

/-! ## Writing the rules (R224, R241, R244, R249) -/

/-- A region protected against rewriting (R241). -/
def State.protectedRegion (s : State) (r : Region) : Bool :=
  r.lock && match tagTenant r.tag with
    | some t => (s.tenant t).bound && !(s.tenant t).consent
    | none => false

/-- A region from the attribute bits of R249. -/
def regionAttr (r : Region) (size : BitVec 6) (tag : BitVec 7) (attr : BitVec 5) : Region :=
  { r with size := size, tag := tag, lock := attr.getLsbD 4, priv := attr.getLsbD 3, x := attr.getLsbD 2
           w := attr.getLsbD 1, r := attr.getLsbD 0 }

/-- The attribute bits of a region. -/
def attrBits (r : Region) : BitVec 5 := bit 1 r.lock ++ bit 1 r.priv ++ bit 1 r.x ++ bit 1 r.w ++ bit 1 r.r

/-- `MPU_REGION_ATTR` (R249). -/
def attrWord (r : Region) : W32 := place 32 r.size 16 ||| place 32 r.tag 8 ||| place 32 (attrBits r) 0

/-- A write to a register of region `n`: 0 BASE_LO, 1 BASE_HI, 2 ATTR (R234, R241, R249). MPU-C takes none. -/
def writeRegion (s : State) (u n reg : Nat) (data : W32) : State :=
  if u = 0 ∨ regionCount u ≤ n ∨ 3 ≤ reg then s
  else
    let m := s.mpu u
    let r := m.region n
    if s.protectedRegion r then s.setMpu u { m with writeRefused := true }
    else
      let r := match reg with
        | 0 => { r with base := (field r.base 32 8 : BitVec 8) ++ (data &&& 0xFFFFFFC0) }
        | 1 => { r with base := (data.setWidth 8 : BitVec 8) ++ (field r.base 0 32 : W32) }
        | _ => regionAttr r (field data 16 6) (field data 8 7) (field data 0 5)
      let bad := reg == 2 && (decide (40 < r.size.toNat) || decide (0x40 < r.tag.toNat))
      s.setMpu u { m.setRegion n r with badRegion := m.badRegion || bad }

/-- A write of `MPU_CTRL` (R249). MPU-C takes none. -/
def writeMpuCtrl (s : State) (u : Nat) (data : W32) : State :=
  if u = 0 then s
  else
    let m := s.mpu u
    s.setMpu u { m with
      enable := data.getLsbD 0
      badRegion := m.badRegion && !data.getLsbD 2
      writeRefused := m.writeRefused && !data.getLsbD 3 }

/-! ## The agent regions (R243) -/

/-- The regions 0 to 10 that the kernel loads for itself when it starts; region 15 stays disabled. They are tagged to no
tenant (log entry 55). -/
def loadKernelRegions (m : Mpu) : Mpu :=
  (List.range 11).foldl (fun m n =>
    let w := Config.kernelRegion n
    m.setRegion n (regionAttr { base := field w 6 34 ++ (0 : BitVec 6) } (field w 40 6) 0x40 (field w 48 5))) m

/-- A region of an agent. -/
def agentRegion (base size : Nat) (tag : BitVec 7) (attr : BitVec 5) : Region :=
  regionAttr { base := BitVec.ofNat 40 base } (BitVec.ofNat 6 size) tag attr

/-- The kernel prepares MPU-C for the agent of tenant `t`: regions 11 to 14 cover its configuration words, state words,
mailbox area and agent RAM, and `MPU_CURRENT` names the tenant. A disabled MPU-C dispatches no agent (R244). -/
def loadAgentRegions (s : State) (t : Tenant) : State :=
  let tag : BitVec 7 := t.setWidth 7
  if s.acu.mpuC.enable then
    let m := s.acu.mpuC
    let m := match (s.tenant t).range with
      | some r => (m.setRegion 11 (agentRegion (8 * r.base.toNat) (r.log2.toNat + 3) tag 0x03)).setRegion 12
          (agentRegion (0x800000 + 4 * r.base.toNat) (r.log2.toNat + 2) tag 0x01)
      | none => (m.setRegion 11 {}).setRegion 12 {}
    let m := m.setRegion 13 (agentRegion (0x3000000 + 0x400 * t.toNat) 10 tag 0x03)
    let s := s.setMpu 0 (m.setRegion 14 (agentRegion (0x4040000 + 0x1000 * t.toNat) 12 tag 0x07))
    s.setAcu { s.acu with user := true, current := tag }
  else s

/-- The agent of tenant `t` has done: the controller is back in kernel mode (R243). -/
def leaveAgent (s : State) (t : Tenant) : State :=
  if s.acu.current = t.setWidth 7 then s.setAcu { s.acu with user := false, current := 0x40 } else s

/-- The agent of tenant `t` runs on: the kernel dispatches it again when another one, or none, is in user mode (R243). -/
def dispatchAgent (s : State) (t : Tenant) : State :=
  if s.acu.user && s.acu.current == t.setWidth 7 then s else loadAgentRegions s t

/-- The controller leaves user mode for the kernel. -/
def enterKernel (s : State) : State := s.setAcu { s.acu with user := false, current := 0x40 }

/-- MPU-C checks an access of the controller: in user mode under the tenant of `MPU_CURRENT`, otherwise privileged
(R232). -/
def checkController (s : State) (x : CoreAccess) : State × Bool × BitVec 5 :=
  checkAccess s 0 ⟨x.kind, x.size.toNat, x.addr.toNat, !s.acu.user, if s.acu.user then tagTenant s.acu.current else none⟩

/-- The reset values of a unit (R248). -/
def resetMpu (enable : Bool) : Mpu := { enable := enable }

end Sys2Proof.Machine
end

