-- ==== Sys2Proof/Machine/Mailbox.lean ====
section
/-! DEFINITION. Mailbox mechanics (R183 to R200): ring, cancel, take with its common checks, replay, restart and safe-minimum answers, and the deposit of a reply. -/
namespace Sys2Proof.Machine

/-! ## Status codes (R188) -/

def stOK : Byte := 0x00
def stBadOpcode : Byte := 0x01
def stBadField : Byte := 0x02
def stNotOwner : Byte := 0x03
def stNoResource : Byte := 0x04
def stLocked : Byte := 0x05
def stBusyActive : Byte := 0x06
def stBusyRestart : Byte := 0x07
def stLinkDown : Byte := 0x08
def stRange : Byte := 0x09
def stDenied : Byte := 0x0A
def stRetentionLost : Byte := 0x0B
def stSafeMinimum : Byte := 0x0C

/-- A refusal: its status, the offset of the failing field, and no payload (log entry 25). -/
def refuse (status : Byte) (detail : Nat) : Reply := ⟨status, BitVec.ofNat 8 detail, []⟩

/-- An OK reply. -/
def okReply (payload : List Byte) : Reply := ⟨stOK, 0xFF, payload⟩

/-! ## The opcode table (R201) -/

/-- What R201 gives a command: whether a tenant and the FM may issue it, and its request LENGTH. -/
structure OpRow where
  tenant : Bool
  fm     : Bool
  length : Nat
  deriving DecidableEq, Repr

def opRow (opcode : Nat) : Option OpRow :=
  match opcode with
  | 0x01 => some ⟨true, true, 0⟩
  | 0x10 => some ⟨false, true, 8⟩
  | 0x11 => some ⟨true, true, 16⟩
  | 0x12 => some ⟨false, true, 8⟩
  | 0x13 => some ⟨true, true, 16⟩
  | 0x14 => some ⟨true, true, 16⟩
  | 0x15 => some ⟨true, true, 8⟩
  | 0x16 => some ⟨false, true, 8⟩
  | 0x17 => some ⟨true, true, 8⟩
  | 0x18 => some ⟨false, true, 8⟩
  | 0x20 => some ⟨true, true, 4⟩
  | 0x21 => some ⟨true, true, 4⟩
  | 0x30 => some ⟨true, true, 4⟩
  | 0x31 => some ⟨true, true, 4⟩
  | 0x32 => some ⟨true, true, 4⟩
  | 0x33 => some ⟨true, true, 0⟩
  | 0x40 => some ⟨false, true, 4⟩
  | 0x41 => some ⟨false, true, 4⟩
  | 0x50 => some ⟨false, true, 16⟩
  | 0x51 => some ⟨false, true, 8⟩
  | 0x52 => some ⟨false, true, 12⟩
  | 0x60 => some ⟨false, true, 0⟩
  | 0x61 => some ⟨false, true, 4⟩
  | 0x70 => some ⟨false, true, 16⟩
  | 0x71 => some ⟨false, true, 4⟩
  | 0x72 => some ⟨true, false, 8⟩
  | _ => none

/-- Reserved bits of a request: the offset of the field, the bytes it spans, and the reserved bits of each byte, in
the order of the layout tables (R202). Fields reserved only for some values of another field are left to their entry. -/
def reservedOf (opcode : Nat) : List (Nat × List (Nat × Byte)) :=
  match opcode with
  | 0x10 => [(0x0D, [(0x0D, 0xFE)]), (0x0E, [(0x0E, 0xFF), (0x0F, 0xFF)])]
  | 0x11 => [(0x09, [(0x09, 0xFC)]), (0x0C, [(0x0C, 0xFF), (0x0D, 0xFF), (0x0E, 0xFF), (0x0F, 0xFF)])]
  | 0x12 => [(0x0B, [(0x0B, 0xFE)]), (0x0C, [(0x0E, 0xF0), (0x0F, 0xFF)])]
  | 0x13 => [(0x08, [(0x0B, 0xFF)]), (0x0C, [(0x0C, 0xFF), (0x0D, 0xFF), (0x0E, 0xFF), (0x0F, 0xFF)])]
  | 0x14 => [(0x08, [(0x0B, 0xFF)])]
  | 0x15 => [(0x08, [(0x0B, 0xFF)])]
  | 0x16 => [(0x08, [(0x0B, 0xFF)]), (0x0C, [(0x0F, 0xC0)])]
  | 0x17 => [(0x0A, [(0x0A, 0xFC)]), (0x0E, [(0x0E, 0xFF), (0x0F, 0xFF)])]
  | 0x18 => [(0x08, [(0x0B, 0xFF)]), (0x0D, [(0x0D, 0xFF), (0x0E, 0xFF), (0x0F, 0xFF)])]
  | 0x20 => [(0x09, [(0x09, 0xFF), (0x0A, 0xFF), (0x0B, 0xFF)])]
  | 0x21 => [(0x09, [(0x09, 0xFF), (0x0A, 0xFF), (0x0B, 0xFF)])]
  | 0x30 => [(0x09, [(0x09, 0xFF), (0x0A, 0xFF), (0x0B, 0xFF)])]
  | 0x31 => [(0x09, [(0x09, 0xFF), (0x0A, 0xFF), (0x0B, 0xFF)])]
  | 0x32 => [(0x0A, [(0x0A, 0xFF), (0x0B, 0xFF)])]
  | 0x40 => [(0x0A, [(0x0A, 0xFF), (0x0B, 0xFF)])]
  | 0x41 => [(0x0A, [(0x0A, 0xFE)]), (0x0B, [(0x0B, 0xFF)])]
  | 0x51 => [(0x09, [(0x09, 0xE0)]), (0x0B, [(0x0B, 0xFF)]), (0x0F, [(0x0F, 0xFF)])]
  | 0x52 => [(0x08, [(0x08, 0xFC)]), (0x0A, [(0x0A, 0xFF), (0x0B, 0xFF)])]
  | 0x61 => [(0x09, [(0x09, 0xFF), (0x0A, 0xFF), (0x0B, 0xFF)])]
  | 0x70 => [(0x15, [(0x15, 0xFF), (0x16, 0xFF), (0x17, 0xFF)])]
  | 0x71 => [(0x09, [(0x09, 0xFE)]), (0x0A, [(0x0A, 0xFF), (0x0B, 0xFF)])]
  | 0x72 => [(0x09, [(0x09, 0xFF), (0x0A, 0xFF), (0x0B, 0xFF)])]
  | _ => []

/-- A byte of a taken command, by its offset in the command area. -/
def snapByte (c : Snap) (off : Nat) : Byte := Sparse.get 0 c.payload off

/-- A little-endian field of `n` bytes of a taken command. -/
def snapField (c : Snap) (off n : Nat) : Nat := ofBytesLE ((List.range n).map fun i => snapByte c (off + i))

/-- The reserved fields of MPU_CONFIG, checked only for a write (R224, R234): ATTR[7:5], the two bytes at 0x0E and
BASE[63:40]. -/
def mpuReserved (c : Snap) : List (Nat × List (Nat × Byte)) :=
  if snapField c 0x0A 1 = 0 then []
  else [(0x0C, [(0x0C, 0xE0)]), (0x0E, [(0x0E, 0xFF), (0x0F, 0xFF)]),
    (0x10, [(0x15, 0xFF), (0x16, 0xFF), (0x17, 0xFF)])]

/-- Checks 1 to 3 of R187: the status and the offset of the field that fails first. -/
def commonChecks (m : BitVec 7) (c : Snap) : Option Reply :=
  match opRow c.opcode.toNat with
  | none => some (refuse stBadOpcode 0x00)
  | some row =>
    if !(if (mbTenant m).isSome then row.tenant else row.fm) then some (refuse stDenied 0x00)
    else if snapByte c 0x01 ≠ 0 then some (refuse stBadField 0x01)
    else if c.length.toNat ≠ row.length then some (refuse stBadField 0x02)
    else if snapField c 0x04 4 ≠ 0 then some (refuse stBadField 0x04)
    else
      let rows := if c.opcode = 0x50 then mpuReserved c else reservedOf c.opcode.toNat
      (rows.find? fun r => r.2.any fun b => snapByte c b.1 &&& b.2 != 0).map fun r => refuse stBadField r.1

/-! ## Time (R221) -/

/-- `MW_FRAME_APPLY`, 0 while a change accepted in sleep has no frame yet (R50, R323). -/
def State.applyFrame (s : State) : W32 := if s.frame.acceptedAsleep then 0 else s.frame.applyFrame

/-- TIME_NS: the core cycles of 0.625 ns counted, in nanoseconds (R46). -/
def State.timeNs (s : State) : Nat := s.frame.timeCycles.toNat * 5 / 8

/-- The values of TIME_READ as they stand in the running frame. -/
def timePayload (s : State) : List Byte :=
  let flags : BitVec 16 := place 16 (bit 1 s.frame.tickLocked) 0 ||| place 16 (bit 1 s.frame.changePending) 1
  bytesLE 8 s.frame.count.toNat ++ bytesLE 8 s.timeNs ++ bytesLE 2 s.frame.current.toNat ++ bytesLE 2 flags.toNat
    ++ bytesLE 4 s.applyFrame.toNat ++ bytesLE 8 s.frame.sleepErrNs.toNat ++ bytesLE 4 s.frame.sleeps.toNat

/-! ## Deposit (R185, R187, R191) -/

/-- The 256 bytes of a reply area (R185). -/
def replyArea (c : Snap) (r : Reply) : Sparse Byte :=
  let head := [c.opcode, r.status] ++ bytesLE 2 r.payload.length ++ bytesLE 2 c.seq.toNat ++ [r.detail, 0]
  ((head ++ r.payload).zipIdx.map fun p => (p.2, p.1)).filter fun p => p.2 != 0

/-- A tenant command that ends with NOT_OWNER or DENIED is a tenant fault 0x09 (R188). -/
def chargeMailbox (s : State) (m : BitVec 7) (c : Snap) (status : Byte) : State :=
  match mbTenant m with
  | some t =>
    if status = stNotOwner ∨ status = stDenied then chargeFault s t 0x09 (c.opcode.setWidth 32) else s
  | none => s

/-- The reply-ready notice of a tenant mailbox (R191); the manager mailbox raises no source. -/
def replyNotice (s : State) (m : BitVec 7) : State :=
  match mbTenant m with
  | some t => notify s t 9
  | none => s

/-- The agent of a tenant mailbox leaves its command. -/
def leaveMailbox (s : State) (m : BitVec 7) : State :=
  match mbTenant m with
  | some t => leaveAgent s t
  | none => s

/-- The deposit of a reply in one step (R187). A reply that a tenant reset has overtaken is discarded (R178), and charges
no fault 0x09, which R188 ties to how a command ends and R178 leaves open: DESIGN CHOICE, log entry 53. -/
def deposit (s : State) (m : BitVec 7) (r : Reply) : State :=
  let s := leaveMailbox s m
  let b := s.box m
  match b.snap with
  | none => s
  | some c =>
    if b.discard then
      s.setBox m { b with ring := false, taken := false, snap := none, work := .idle, load := none, checked := false, discard := false }
    else
      let b := { b with
        reply := replyArea c r, replySeq := c.seq, lastStatus := r.status
        replyValid := decide (r.status ≠ stBusyRestart), replyReady := true
        ring := false, taken := false, snap := none, work := .idle, load := none, checked := false
        executed := if b.checked ∧ r.status ≠ stBusyRestart then satInc b.executed else b.executed
        restarted := if r.status = stBusyRestart then satInc b.restarted else b.restarted }
      replyNotice (chargeMailbox (s.setBox m b) m c r.status) m

/-- Leaves a reply to be deposited. -/
def finish (s : State) (m : BitVec 7) (r : Reply) : State :=
  s.modBox m fun b => { b with work := .done r }

/-! ## Ring and cancel (R186, R190, R192) -/

/-- A ring wakes CTRL when it is not ON (R15); in reset it is held (R355). -/
def ringWake (s : State) : State :=
  if s.isOn dCTRL || s.hm.inReset.isSome then s else wake .access s dCTRL

/-- A write of `MB_DOORBELL`: CANCEL is taken against the state before the write (R192). -/
def writeDoorbell (s : State) (m : BitVec 7) (smbus : Bool) (data : W32) : State :=
  let b := s.box m
  let ring := data.getLsbD 0
  let cancel := data.getLsbD 1
  if b.ring then
    let b := if ring then { b with overrun := true } else b
    let b := if cancel && !b.taken then { b with ring := false } else b
    s.setBox m b
  else if ring then ringWake (s.setBox m { b with ring := true, ringPath := smbus })
  else s

/-- Writes of one byte of the command area (R190). -/
def writeCommandByte (b : Mailbox) (off : Nat) (v : Byte) : Mailbox :=
  if b.ring then { b with overrun := true } else { b with cmd := Sparse.set 0 b.cmd off v }

/-- A write of `MB_SEQ` (R190). -/
def writeSeq (b : Mailbox) (data : W32) : Mailbox :=
  if b.ring then { b with overrun := true } else { b with seq := data.setWidth 16 }

/-! ## Take (R187, R189, R194, R196, R364) -/

/-- Opcodes that the boot ROM's handler runs, and those that the kernel runs, in safe-minimum mode (R364). Bytes of the
command area behind a wrong LENGTH are not part of the request (R184): such a command fails its LENGTH check. -/
def safeOpcode (kernel : Bool) (c : Snap) : Bool :=
  let op := c.opcode.toNat
  let whole := (opRow op).map (·.length) == some c.length.toNat
  op ∈ [0x01, 0x61, 0x60, 0x70, 0x71] || (kernel &&
    (op ∈ [0x10, 0x11, 0x17, 0x20, 0x21, 0x30, 0x31, 0x32, 0x33, 0x41, 0x50, 0x52] ||
      (op == 0x13 && (!whole || match srcClass (BitVec.ofNat 24 (snapField c 0x08 3)) with
        | .system _ => true
        | _ => false)) ||
      (op == 0x40 && !(whole && decide (2 ≤ snapField c 0x08 1) && decide (snapField c 0x08 1 ≤ 5)
        && decide (snapField c 0x09 1 ≤ 1)))))

/-- The mailbox engine may answer: the block is past step 4 or in safe-minimum mode, and CTRL is ON, except that a
safe-minimum answer to a tenant needs no firmware (R196). -/
def State.engineReady (s : State) : Bool := s.hm.inReset.isNone && !s.hm.powerOff && s.isOn dCTRL

/-- A command defined but not run in safe-minimum mode is answered SAFE_MINIMUM, as is every tenant ring (R196). -/
def safeAnswer (s : State) (m : BitVec 7) (c : Snap) : Bool :=
  s.hm.safeMin && ((mbTenant m).isSome || ((opRow c.opcode.toNat).isSome && !safeOpcode s.mbx.fw.alive c))

/-- The snapshot of a command area. -/
def takeSnap (b : Mailbox) : Snap :=
  { opcode := Sparse.get 0 b.cmd 0
    length := (Sparse.get 0 b.cmd 3 : Byte) ++ (Sparse.get 0 b.cmd 2 : Byte)
    payload := b.cmd, seq := b.seq }

/-- The take: a replay is re-signalled (R189); otherwise the command is held with the outcome of its common checks. The
spec orders neither R189 against R194 and R196, nor says whether a replay is a ring taken for PATH (R197): here a replay
goes before BUSY_RESTART and SAFE_MINIMUM, and updates PATH. DESIGN CHOICE, log entry 53. In safe-minimum mode a tenant's
ring needs no firmware, so a restart does not touch its answer (R196). -/
def takeCommand (s : State) (m : BitVec 7) : State :=
  let b := s.box m
  let b := { b with path := b.ringPath }
  if b.replyValid ∧ b.seq = b.replySeq then
    replyNotice (s.setBox m { b with ring := false, replyReady := true }) m
  else
    let c := takeSnap b
    let b := { b with taken := true, snap := some c }
    if s.hm.safeMin && (mbTenant m).isSome then s.setBox m { b with work := .done (refuse stSafeMinimum 0xFF) }
    else if b.restarting then s.setBox m { b with work := .done (refuse stBusyRestart 0xFF) }
    else if safeAnswer s m c then s.setBox m { b with work := .done (refuse stSafeMinimum 0xFF) }
    else match commonChecks m c with
      | some r => s.setBox m { b with work := .done r }
      | none =>
        let s := s.setBox m { b with work := .run, checked := true }
        match mbTenant m with
        | some t => loadAgentRegions s t
        | none => s

def execCommandTake (mb : BitVec 7) (s : State) : Host.Outcome State Fault Refusal :=
  .next <|
    let b := s.box mb
    let closed : Bool := match mbTenant mb with
      | some t => s.resetting t
      | none => false
    if mb.toNat ≤ 64 ∧ b.ring ∧ ¬ b.taken ∧ s.engineReady ∧ ¬ closed then takeCommand s mb
    else if mb.toNat ≤ 64 ∧ b.ring ∧ ¬ s.isOn dCTRL ∧ s.hm.inReset.isNone then ringWake s
    else s

/-- The reply as it is deposited: TIME_READ answers with the values of the tick of its reply (R221). -/
def freshReply (s : State) (m : BitVec 7) (r : Reply) : Reply :=
  match (s.box m).snap with
  | some c => if c.opcode = 0x33 ∧ r.status = stOK then { r with payload := timePayload s } else r
  | none => r

/-- A reply that is ready is deposited. -/
def depositDone (s : State) (m : BitVec 7) : State :=
  match (s.box m).work with
  | .done r => deposit s m (freshReply s m r)
  | .idle => s
  | .run => s
  | .waiting => s

def execReplyDeposit (mb : BitVec 7) (s : State) : Host.Outcome State Fault Refusal :=
  .next (depositDone s mb)

/-! ## Running a taken command -/

/-- Every domain of a list serves accesses. -/
def State.allOn (s : State) (ds : List Nat) : Bool := ds.all s.isOn

/-- Runs the command that mailbox `m` has taken when its opcode is `op`: with every domain it needs ON it is executed,
otherwise those domains are woken and it waits (R204). -/
def runTaken (s : State) (m : BitVec 7) (op : Byte) (select : Snap → Bool) (needs : State → Snap → List Nat)
    (body : State → Snap → State) : State :=
  let b := s.box m
  match b.snap, b.work with
  | some c, .run =>
    if c.opcode = op ∧ select c ∧ s.engineReady then
      let ds := needs s c
      if s.allOn ds then body s c else ds.foldl (wake .access) s
    else s
  | _, _ => s

/-- The reserved-byte and TENANT rules of R202: a tenant names itself; the FM names 0 to 63. -/
def checkTenant (m : BitVec 7) (id off : Nat) : Except Reply Tenant :=
  match mbTenant m with
  | some t => if id = t.toNat then .ok t else .error (refuse stNotOwner off)
  | none => if id < 64 then .ok (BitVec.ofNat 6 id) else .error (refuse stRange off)

end Sys2Proof.Machine
end

