-- ==== Sys2Proof/Machine/Engine.lean ====
section
/-! DEFINITION. The delivery engines: commit, lapse and withdrawal of a decision (R34, R90, R91), re-issues of a RESYNC (R147, R150), engine faults (R126, R339), the delivery write (R127 to R129) and the wait histogram (R349). -/
namespace Sys2Proof.Machine

/-! ## Engines (R125, R126) -/

/-- The physical engine of a logical one; 7 when retired without replacement. -/
def State.logical (s : State) (e : BitVec 2) : BitVec 3 :=
  match e.toNat with
  | 0 => s.tgt.logical0
  | 1 => s.tgt.logical1
  | 2 => s.tgt.logical2
  | _ => s.tgt.logical3

def setLogical (s : State) (e : BitVec 2) (p : BitVec 3) : State :=
  match e.toNat with
  | 0 => s.setTgt { s.tgt with logical0 := p }
  | 1 => s.setTgt { s.tgt with logical1 := p }
  | 2 => s.setTgt { s.tgt with logical2 := p }
  | _ => s.setTgt { s.tgt with logical3 := p }

/-- The serving logical engines, ascending. -/
def State.serving (s : State) : List (BitVec 2) := [0, 1, 2, 3].filter fun e => s.logical e != 7

/-- The spare is free to take over: unused and not retired. -/
def State.spareFree (s : State) : Bool := !s.tgt.spareInUse && !s.tgt.retired.getLsbD 4

/-! ## Withdrawal (R34, R146) -/

/-- An uncommitted decision is withdrawn: its target's busy bit clears at the next tick. A withdrawn re-issue leaves
its target parked and in its RESYNC set. -/
def withdraw (s : State) (e : Emitted) : State :=
  let s := s.setFrame { s.frame with withdrawn := true, withdrawnCount := satInc s.frame.withdrawnCount }
  let s := (raiseSource s 0x279).count 9 1
  match e.reissue with
  | none => s.clearBusyNext e.slot
  | some t => s.modTenant t fun r => { r with resync := r.resync.map fun q => { q with
      emitted := q.emitted.filter (· != e.slot)
      todo := q.todo.map fun l => ((e.slot, e.src) :: l).mergeSort (fun a b => a.1.toNat ≤ b.1.toNat) } }

/-- Every decision not committed is withdrawn. -/
def withdrawAll (s : State) : State :=
  (s.tgt.emitted.foldl withdraw s).setTgt { (s.tgt.emitted.foldl withdraw s).tgt with emitted := [] }

/-- The issue deadline: what has not committed is withdrawn, which happens only in a frame above its budget (R34, R35). -/
def deadline (s : State) : State := withdrawAll (if s.tgt.emitted.isEmpty then s else exceed s)

/-- The remaining decisions of a retired engine go to the other serving engines in turn (R126). -/
def reassign (e : BitVec 2) (others : List (BitVec 2)) : Nat → List Emitted → List Emitted
  | _, [] => []
  | i, d :: rest =>
    if d.engine = e then { d with engine := others.getD (i % others.length) 0 } :: reassign e others (i + 1) rest
    else d :: reassign e others i rest

/-- A fault of the physical engine that serves logical engine `e` (R126). -/
def engineFault (s : State) (e : BitVec 2) : State :=
  let p := s.logical e
  if p = 7 then s
  else
    let s := s.setTgt { s.tgt with
      retired := s.tgt.retired ||| BitVec.twoPow 5 p.toNat, engineFault := true }
    if s.spareFree then
      raiseSource (setLogical (s.setTgt { s.tgt with spareInUse := true }) e 4) 0x263
    else
      let s := setLogical s e 7
      match s.serving with
      | [] => withdrawAll s
      | others => s.setTgt { s.tgt with emitted := reassign e others 0 s.tgt.emitted }

/-- A fault of the unused spare: it is retired (R126). -/
def spareFault (s : State) : State :=
  if s.spareFree then
    s.setTgt { s.tgt with retired := s.tgt.retired ||| 0x10, engineFault := true }
  else s

/-! ## The delivery write (R127, R128) -/

/-- The data word of a delivery (R128). -/
def dataWord (seq count : BitVec 16) (tag : BitVec 8) (src : Src) : W64 := seq ++ count ++ tag ++ src

/-- The delivery leaves for the fabric port; the tenant's DELIVERIES count it. -/
def issue (s : State) (t : Tenant) (x : Slot) (addr : W64) (seq count : BitVec 16) (tag : BitVec 8) (src : Src) :
    State :=
  let d : Delivery := {
    addr := addr, data := dataWord seq count tag src, dropTag := x ++ seq, tenant := t, egress := (s.tenant t).port
    fourDw := decide (2 ^ 32 ≤ addr.toNat), requester := Config.managementId (s.tenant t).port }
  let s := s.setTgt { s.tgt with fabOut := s.tgt.fabOut ++ [d] }
  (s.modTenant t fun r => { r with deliveries := r.deliveries + 1 }).count 6 1

/-! ## The wait histogram (R349) -/

/-- The bin of a wait. -/
def waitBin (w : BitVec 16) : Nat :=
  ((List.range 15).find? fun i => decide (w.toNat ≤ 2 ^ i)).getD 15

/-- Records the wait of a source taken from a shortlist, while LOUPE is ON. -/
def recordWait (s : State) (t : Tenant) (x : Slot) (src : Src) : State :=
  if s.isOn dLOUPE then
    match (s.target x).shortlist.find? (·.src == src) with
    | some e =>
      let k := 16 * t.toNat + waitBin (s.frame.count.setWidth 16 - e.marker)
      s.setLoupe { s.loupe with bins := Sparse.set 0 s.loupe.bins k (satInc (Sparse.get 0 s.loupe.bins k)) }
    | none => s
  else s

/-! ## Commit and lapse (R90, R91) -/

/-- A lapse: counted, and the target's busy bit clears at the next tick. An entry of the shortlist that no longer
names a pending, enabled source of the target leaves it (R117). -/
def lapse (s : State) (x : Slot) (src : Src) : State :=
  let s := s.setVec { s.vec with lapsed := true, lapsedCount := satInc s.vec.lapsedCount }
  let s := (s.clearBusyNext x).count 9 1
  match srcClass src with
  | .priv _ => s
  | _ =>
    let c := s.cfgOf src
    if sPending (s.stOf src) && cEnable c && !cFwd c && cTarget c == x then s else removeSrc s x src

/-- The target record takes a delivery: the next sequence, the active source and what a re-issue repeats (R129). -/
def takeActive (r : TargetRec) (src : Src) (tag : BitVec 8) (count : BitVec 16) : TargetRec :=
  { r with seq := r.seq + 1, active := some src, tag := tag, count := count, redeliver := false }

/-- Commit of a private source (R114). -/
def commitPrivate (s : State) (t : Tenant) (x : Slot) (src : Src) (n : Nat) : State :=
  let r := s.target x
  if r.privPend.getLsbD n && r.privEn.getLsbD n && r.daddr != 0 then
    let s := s.setTarget x { takeActive r src 0 0 with privPend := r.privPend &&& ~~~ BitVec.twoPow 13 n }
    issue s t x r.daddr (r.seq + 1) 0 0 src
  else lapse s x src

/-- The commit of a member's delivery starts the hold-off of its group (R151). -/
def startHoldoff (s : State) (src : Src) (c : W64) : State :=
  let s := readGroupWord s c
  match s.groupOf src c with
  | some g =>
    let s := touchClasp s g
    let w := s.clasp g
    s.setClasp g { w with remaining := w.interval }
  | none => s

/-- Commit of a system or message source (R90). -/
def commitSource (s : State) (t : Tenant) (x : Slot) (src : Src) : State :=
  let s := peekSt (readCfg s src) src
  let c := s.cfgOf src
  let w := s.stOf src
  let r := s.target x
  if sPending w && cEnable c && !cFwd c && cTarget c == x && r.daddr != 0 then
    let count : BitVec 16 := if cMode c then sCount w else 0
    let s := recordWait s t x src
    let s := applyCommit s src x
    let s := s.modTarget x fun r => takeActive r src (cTag c) count
    startHoldoff (issue s t x r.daddr (r.seq + 1) count (cTag c) src) src c
  else lapse s x src

/-- The commit of a decision, its re-check included. -/
def commitDecision (s : State) (e : Emitted) : State :=
  let s := touchTarget s e.slot
  match s.slotOwner e.slot with
  | none => lapse s e.slot e.src
  | some (t, _) =>
    if s.resetting t then lapse s e.slot e.src
    else match srcClass e.src with
      | .priv n => commitPrivate s t e.slot e.src n
      | _ => commitSource s t e.slot e.src

/-- The first decision or re-issue that an engine holds. -/
def State.engineHead (s : State) (e : BitVec 2) : Option Emitted :=
  s.tgt.emitted.find? fun d => d.engine == e

/-- An emitted item leaves the engines. -/
def dropEmitted (s : State) (d : Emitted) : State :=
  s.setTgt { s.tgt with emitted := s.tgt.emitted.erase d }

def execDecisionCommit (engine : BitVec 2) (mismatch : Bool) (s : State) : Host.Outcome State Fault Refusal :=
  .next <|
    if !s.coreOn then s
    else match s.engineHead engine with
      | some d =>
        if d.reissue.isSome then s
        else if mismatch then engineFault s engine
        else if s.banksOpen d.src 1 then commitDecision (dropEmitted (takeBanks s d.src 1) d) d
        else exceed s
      | none => s

def execDecisionWithdraw (engine : BitVec 2) (s : State) : Host.Outcome State Fault Refusal :=
  .next <| match s.engineHead engine with
    | some d => withdraw (dropEmitted (exceed s) d) d
    | none => s

/-! ## Re-issues (R147, R148, R150) -/

/-- A RESYNC with nothing left to emit or commit finishes (R150). -/
def finishResync (s : State) (t : Tenant) : State :=
  match (s.tenant t).resync with
  | some q =>
    if q.todo = some [] ∧ q.emitted = [] then
      let s := s.modTenant t fun r => { r with resync := none, resyncDone := true }
      let s := notify s t 12
      deposit s q.mailbox
        (okReply (bytesLE 2 q.reissued.toNat ++ bytesLE 2 q.completed.toNat ++ bytesLE 2 q.skipped.toNat ++ [0, 0]))
    else s
  | none => s

/-- REDELIVER of the source that a re-issue repeats (R86, R87). -/
def markRedeliver (s : State) (src : Src) : State :=
  match srcClass src with
  | .priv _ => s
  | _ =>
    let s := readSt s src
    writeSt s src (redeliverWord (s.stOf src))

/-- The commit or lapse of a re-issue of tenant `t` (R147). -/
def commitReissue (s : State) (e : Emitted) (t : Tenant) : State :=
  let s := touchTarget s e.slot
  let r := s.target e.slot
  let tally (f : ResyncRun → ResyncRun) (s : State) : State :=
    finishResync (s.modTenant t fun q => { q with
      resync := q.resync.map (fun u => f { u with emitted := u.emitted.filter (· != e.slot) }) }) t
  if r.parked && r.active == some e.src then
    if r.daddr = 0 then tally (fun u => { u with skipped := u.skipped + 1 }) s
    else
      let s := s.setTarget e.slot { r with
        seq := r.seq + 1, redeliver := true, parked := false, reissued := true }
      let s := markRedeliver s e.src
      let s := s.setTgt { s.tgt with reissues := satInc s.tgt.reissues }
      tally (fun u => { u with reissued := u.reissued + 1 })
        (issue s t e.slot r.daddr (r.seq + 1) r.count r.tag e.src)
  else tally (fun u => { u with completed := u.completed + 1 }) s

def execReissueCommit (engine : BitVec 2) (mismatch : Bool) (s : State) : Host.Outcome State Fault Refusal :=
  .next <|
    if !s.coreOn then s
    else match s.engineHead engine with
      | some d => match d.reissue with
        | some t =>
          if mismatch then engineFault s engine else commitReissue (dropEmitted s d) d t
        | none => s
      | none => s

end Sys2Proof.Machine
end

