-- ==== Sys2Proof/Machine/Pass.lean ====
section
/-! DEFINITION. The decision pass of a tick (R109 to R111, R123, R146, R152) and the refill passes (R120, R121). -/
namespace Sys2Proof.Machine

/-! ## Eligibility (R109, R111) -/

/-- The Clasp group of a system or message source is held off in this pass, or excluded from its rest (R151, R152). -/
def State.groupBlocked (s : State) (excluded : List (BitVec 12)) (src : Src) : Bool :=
  match s.groupOf src (s.cfgOf src) with
  | some g => Sparse.get false s.tgt.heldOff g.toNat || excluded.contains g
  | none => false

/-- The lowest eligible source of a target (R110, R111, R123). -/
def State.lowestEligible (s : State) (excluded : List (BitVec 12)) (x : Slot) : Option Src :=
  let r := s.target x
  match (List.range 13).find? fun n =>
      r.privPend.getLsbD n && r.privEn.getLsbD n && r.active != some (privSrc n) with
  | some n => some (privSrc n)
  | none =>
    if r.refilling then none
    else (r.shortlist.find? fun e =>
      !e.isNew && s.quarterOn e.src && !s.groupBlocked excluded e.src).map (·.src)

/-- Ready but for its source: granted to a tenant that is not RESETTING, not busy, not masked, with an address. -/
def State.canTake (s : State) (t : Tenant) (x : Slot) : Bool :=
  !s.busyBit x && !(s.target x).mask && (s.target x).daddr != 0 && !s.resetting t

/-- Ready at the snapshot (R109). -/
def State.isReady (s : State) (t : Tenant) (x : Slot) : Bool :=
  s.canTake t x && (s.lowestEligible [] x).isSome

/-! ## The loop of R123 -/

/-- What one pass carries: the ready targets that still have a turn, the groups excluded by R152, the count n. -/
structure PassRun where
  ready    : List (Tenant × Slot)
  excluded : List (BitVec 12)
  n        : Nat
  deriving DecidableEq, Repr

/-- The next tenant after `t`, ascending with wrap, that has a ready target left. -/
def nextReadyTenant (ready : List (Tenant × Slot)) (t : Tenant) : Option Tenant :=
  ((List.range 64).map fun i => t + 1 + BitVec.ofNat 6 i).find? fun u => ready.any fun p => p.1 == u

/-- The next ready target of a tenant after `rr`, ascending with wrap. -/
def nextReadySlot (ready : List (Tenant × Slot)) (t : Tenant) (rr : Slot) : Option Slot :=
  let mine := (ready.filter fun p => p.1 == t).map (·.2)
  match mine.find? fun x => rr.toNat < x.toNat with
  | some x => some x
  | none => mine.head?

/-- Emits one decision: the target is busy and leaves the pass, and the group of its source is excluded when its
INTERVAL is above 0 (R123, R152). -/
def emitDecision (s : State) (p : PassRun) (t : Tenant) (x : Slot) (src : Src) : State × PassRun :=
  let serving := s.serving
  let d : Emitted := ⟨serving.getD (p.n % serving.length) 0, x, src, none⟩
  let s := (s.setBusy x true).setTgt { (s.setBusy x true).tgt with
    emitted := s.tgt.emitted ++ [d], decisionCount := satInc s.tgt.decisionCount }
  let s := (s.modTenant t fun r => { r with rr := x, passDeficit := r.passDeficit - 1 }).count 5 1
  let excluded := match s.groupOf src (s.cfgOf src) with
    | some g => if (s.clasp g).interval = 0 then p.excluded else g :: p.excluded
    | none => p.excluded
  (s, { ready := p.ready.filter fun q => q.2 != x, excluded := excluded, n := p.n + 1 })

/-- The pass, one target a turn; every turn uses up one ready target, so `fuel` of their number suffices. -/
def passLoop (limit : Nat) : Nat → State → PassRun → State × PassRun
  | 0, s, p => (s, p)
  | fuel + 1, s, p =>
    if limit ≤ p.n then (s, p)
    else
      let t := s.tgt.turn
      let keep := (s.tenant t).passDeficit ≠ 0 ∧ p.ready.any fun q => q.1 == t
      match if keep then some t else nextReadyTenant p.ready t with
      | none => (s, p)
      | some u =>
        let s := if keep then s
          else (s.modTenant u fun r => { r with passDeficit := r.weight.toNat }).setTgt { s.tgt with turn := u }
        match nextReadySlot p.ready u (s.tenant u).rr with
        | none => (s, p)
        | some x =>
          match s.lowestEligible p.excluded x with
          | none => passLoop limit fuel s { p with ready := p.ready.filter fun q => q.2 != x }
          | some src =>
            let (s, p) := emitDecision s p u x src
            passLoop limit fuel s p

/-! ## Re-issues of the tick (R145, R146) -/

/-- The sets of RESYNCs accepted in the frame just ended are taken: the targets of the tenant that are parked. -/
def takeResyncSets (s : State) : State :=
  s.listedTenants.foldl (fun s t => match (s.tenant t).resync with
    | some q =>
      if q.todo.isNone then
        s.setTenant t { s.tenant t with resync := some { q with
          todo := some (((s.slotsOf t).filter fun x => (s.target x).parked).filterMap fun x =>
            (s.target x).active.map fun a => (x, a)) } }
      else s
    | none => s) s

/-- Emits the re-issues of one tenant while the quota lasts. -/
def emitReissues (s : State) (t : Tenant) (quota n : Nat) : State × Nat :=
  match (s.tenant t).resync with
  | some q =>
    let todo := q.todo.getD []
    let now := todo.take (quota - n)
    let serving := s.serving
    let items := now.zipIdx.map fun p =>
      (⟨serving.getD ((n + p.2) % serving.length) 0, p.1.1, p.1.2, some t⟩ : Emitted)
    let s := s.setTenant t { s.tenant t with resync := some { q with
      todo := q.todo.map fun _ => todo.drop (quota - n), emitted := q.emitted ++ now.map (·.1) } }
    (s.setTgt { s.tgt with emitted := s.tgt.emitted ++ items }, n + now.length)
  | none => (s, n)

/-- The re-issues of a tick: at most F/16, ascending tenant ID (R146). -/
def reissuePass (s : State) : State × Nat :=
  if s.serving.isEmpty then (s, 0)
  else
    let quota := s.frame.current.toNat / 16
    s.listedTenants.foldl (fun p t => emitReissues p.1 t quota p.2) (s, 0)

/-- The whole decision pass of a tick after the snapshot (R123, R157): readiness is that of the snapshot. A RESYNC set
with nothing in it finishes after the pass (R150). -/
def decisionPass (s : State) : State :=
  let ready := s.grantedSlots.filter fun p => s.isReady p.1 p.2
  let s := s.grantedSlots.foldl (fun s p =>
    let b := ready.contains p
    if (s.target p.2).ready = b then s else s.modTarget p.2 fun r => { r with ready := b }) s
  let (s, n) := reissuePass s
  let limit := s.serving.length * (s.frame.current.toNat / 16)
  let (s, p) := passLoop limit ready.length s ⟨ready, [], n⟩
  let s := s.listedTenants.foldl finishResync s
  let s := if s.frame.current.toNat / 4 < p.n + p.ready.length then exceed s else s
  if limit ≤ p.n ∧ p.ready ≠ [] then
    s.setTgt { s.tgt with passFullFrames := satInc s.tgt.passFullFrames, passFull := true }
  else s

/-- Quarters of visible entries that are not ON are brought to ON (R111). The shortlist of a refilling target is not
visible (R120). -/
def wakeShortlists (s : State) : State :=
  let on := (List.range 4).all fun q => s.isOn (dTBL q)
  if on then s
  else s.tgt.recs.foldl (fun s p => (if p.2.refilling then [] else p.2.shortlist).foldl (fun s e =>
    match srcClass e.src with
    | .message v => if e.isNew then s else wakeQuarter s (some (quarterOf v))
    | _ => s) s) s

/-! ## Refill passes (R120) -/

/-- A target whose passes have all ended clears refilling. -/
def endRefill (s : State) (x : Slot) (msg : Bool) : State :=
  let s := s.modTarget x fun r => if msg then { r with wantsMsg := false } else { r with wantsSys := false }
  let r := s.target x
  if r.refilling && !r.wantsMsg && !r.wantsSys then s.setTarget x { r with refilling := false } else s

/-- The pass has covered its range: it is counted, and ends with its frame. -/
def coverEnd (s : State) : State :=
  let s := match s.tgt.msgPass with
    | some p => if p.covered && !p.ended then
        s.setTgt { s.tgt with msgPass := some { p with ended := true }, refillCount := satInc s.tgt.refillCount }
      else s
    | none => s
  match s.tgt.sysPass with
  | some p => if p.covered && !p.ended then
      s.setTgt { s.tgt with sysPass := some { p with ended := true }, refillCount := satInc s.tgt.refillCount }
    else s
  | none => s

/-- The finish of a pass whose scan has reached the end of its range. -/
def execRefillPassEnd (s : State) : Host.Outcome State Fault Refusal := .next (coverEnd s)

/-- The targets served by the passes that have ended. -/
def State.servedEnded (s : State) : List Slot :=
  (match s.tgt.msgPass with
    | some p => if p.ended then p.served else []
    | none => []) ++
  (match s.tgt.sysPass with
    | some p => if p.ended then p.served else []
    | none => [])

/-- At a tick, ended passes free their tracks and their targets complete. -/
def completeRefills (s : State) : State :=
  let s := match s.tgt.msgPass with
    | some p => if p.ended then
        p.served.foldl (fun s x => endRefill s x true) (s.setTgt { s.tgt with msgPass := none }) else s
    | none => s
  match s.tgt.sysPass with
  | some p => if p.ended then
      p.served.foldl (fun s x => endRefill s x false) (s.setTgt { s.tgt with sysPass := none }) else s
  | none => s

/-- The TBL quarter of a tenant's range is ON, or it holds no range. -/
def State.rangeOn (s : State) (t : Tenant) : Bool :=
  match (s.tenant t).range with
  | some r => s.isOn (dTBL (quarterOf r.base.toNat))
  | none => true

/-- The tenant at the head of the queue takes the free message track, or its quarter is woken (R120). `asked`: the
requests that stood before the tick. -/
def startMsg (asked : TgtUnit) (s : State) : State :=
  match s.tgt.msgPass, s.tgt.msgQueue with
  | none, t :: rest =>
    if !asked.msgQueue.contains t then s
    else if s.rangeOn t then
      s.setTgt { s.tgt with msgPass := some ⟨t, [], 0, true, false, false⟩, msgQueue := rest }
    else wakeQuarter s ((s.tenant t).range.map fun r => quarterOf r.base.toNat)
  | _, _ => s

def startSysPass (asked : TgtUnit) (s : State) : State :=
  match s.tgt.sysPass with
  | none => if s.tgt.sysRequest && asked.sysRequest then
      s.setTgt { s.tgt with sysPass := some ⟨[], 0, true, false, false⟩, sysRequest := false } else s
  | some _ => s

/-- The track is free: no pass runs, or the running one ends with this frame and its targets complete. -/
def execMessagePassStart (s : State) : Host.Outcome State Fault Refusal :=
  .next (if s.coreOn && s.frame.running then startMsg s.tgt s else s)

def execSystemPassStart (s : State) : Host.Outcome State Fault Refusal :=
  .next (if s.coreOn && s.frame.running then startSysPass s.tgt s else s)

/-- A pass that starts at this tick serves every target that requested one of its kind before the tick (R120); one that
requested at the tick waits for the next pass. -/
def takeServed (asked : TgtUnit) (s : State) : State :=
  let before (x : Slot) : TargetRec := Sparse.get {} asked.recs x.toNat
  let s := match s.tgt.msgPass with
    | some p => if p.starting then
        let wanting := (s.slotsOf p.tenant).filter fun x => (s.target x).wantsMsg
        let others := s.tgt.msgQueue.filter (· != p.tenant)
        s.setTgt { s.tgt with
          msgPass := some { p with starting := false, served := wanting.filter fun x => (before x).wantsMsg }
          msgQueue := if wanting.all fun x => (before x).wantsMsg then others else others ++ [p.tenant] } else s
    | none => s
  match s.tgt.sysPass with
  | some p => if p.starting then
      let wanting := (s.grantedSlots.map (·.2)).filter fun x => (s.target x).wantsSys
      s.setTgt { s.tgt with
        sysPass := some { p with starting := false, served := wanting.filter fun x => (before x).wantsSys }
        sysRequest := !wanting.all fun x => (before x).wantsSys } else s
  | none => s

/-- The refills at a tick: ended passes complete, the next ones start, and a served target whose shortlist is then
empty with an overflow flag requests again. -/
def tickRefills (asked : TgtUnit) (s : State) : State :=
  let s := coverEnd s
  let ended := s.servedEnded
  let s := takeServed asked (startSysPass asked (startMsg asked (completeRefills s)))
  ended.foldl requestRefill s

/-- A candidate of a scan: presented to the target it names when that target is served (R120). -/
def candidate (served : List Slot) (s : State) (src : Src) : State :=
  let c := s.cfgOf src
  if cEnable c && !cFwd c && served.contains (cTarget c) then present s src (cTarget c) else s

/-- Of the pending vectors of a frame's window, ascending, those before the first whose configuration line would be
a bank's 65th, and that vector if there is one. `seen`: the lines read so far, as v / 4. -/
def cutScan : List Nat → List Nat → List Nat × Option Nat
  | _, [] => ([], none)
  | seen, v :: rest =>
    let line := v / 4
    if seen.contains line then
      let (a, b) := cutScan seen rest
      (v :: a, b)
    else if 64 ≤ (seen.filter fun l => l % 8 == line % 8).length then ([], some v)
    else
      let (a, b) := cutScan (line :: seen) rest
      (v :: a, b)

/-- One frame of the running message pass. -/
def scanMsg (s : State) : State :=
  match s.tgt.msgPass with
  | some p =>
    if p.starting || p.covered || p.ended then s
    else match (s.tenant p.tenant).range with
      | none => s.setTgt { s.tgt with msgPass := some { p with covered := true } }
      | some r =>
        if !s.banksRun (quarterOf r.base.toNat) then wakeQuarter s (some (quarterOf r.base.toNat))
        else
          let lo := r.base.toNat + p.cursor
          let hi := min (lo + 4096) (r.base.toNat + rangeSize r)
          let s := readGroups (readIndex s lo hi) lo hi
          let pend := (s.vec.st.filter fun e => decide (lo ≤ e.1) && decide (e.1 < hi) && sPending e.2).map (·.1)
          let (vs, stop) := cutScan [] pend
          let stop := stop.getD hi
          let s := (vs.map msgSrc).foldl (fun s src => candidate p.served (readCfg s src) src) s
          let cursor := stop - r.base.toNat
          ((trueGroups s lo stop).setTgt { s.tgt with msgPass := some { p with
            cursor := cursor, covered := decide (rangeSize r ≤ cursor) } }).count 10 (stop - lo)
  | none => s

/-- Of the pending system sources, ascending, those before the first that would need a 33rd line, and that one. -/
def cutSys : List Nat → List Nat → List Nat × Option Nat
  | _, [] => ([], none)
  | seen, n :: rest =>
    if seen.contains (n / 4) then
      let (a, b) := cutSys seen rest
      (n :: a, b)
    else if 32 ≤ seen.length then ([], some n)
    else
      let (a, b) := cutSys (n / 4 :: seen) rest
      (n :: a, b)

/-- One frame of the running system pass. -/
def scanSys (s : State) : State :=
  match s.tgt.sysPass with
  | some p =>
    if p.starting || p.covered || p.ended then s
    else
      let s := readGroups (readIndex s (0x100000 + p.cursor) 0x101000) (0x100000 + p.cursor) 0x101000
      let pend := (s.vec.sysSt.filter fun e => decide (p.cursor ≤ e.1) && sPending e.2).map (·.1)
      let (ns, stop) := cutSys [] pend
      let s := (ns.map sysSrc).foldl (fun s src => candidate p.served (readCfg s src) src) s
      let s := trueGroups s (0x100000 + p.cursor) (0x100000 + stop.getD 4096)
      s.setTgt { s.tgt with sysPass := some { p with cursor := stop.getD 4096, covered := stop.isNone } }
  | none => s

end Sys2Proof.Machine
end

