-- ==== Sys2Proof/Machine/Tenants.lean ====
section
/-! DEFINITION. Tenants: tenant reset (R175 to R178), clear sweeps (R170, R171), debug consent (R231), and what a tick brings to a tenant. -/
namespace Sys2Proof.Machine

/-- Frames of the clear sweep of a tenant's range; 0 without one (R176). -/
def State.sweepOf (s : State) (t : Tenant) : Nat :=
  match (s.tenant t).range with
  | some r => sweepFrames r
  | none => 0

/-! ## Acceptance and closing of the paths (R175, R176) -/

/-- A tenant reset is accepted for mailbox `m`, or joins the one that runs (R165). -/
def acceptReset (s : State) (t : Tenant) (m : BitVec 7) : State :=
  match (s.tenant t).reset with
  | some r => s.setTenant t { s.tenant t with reset := some { r with repliesTo := r.repliesTo ++ [m] } }
  | none => s.setTenant t { s.tenant t with
      reset := some ⟨[m], false, false, 0, false, s.sweepOf t, 0⟩ }

/-- What a mailbox other than the tenant's gets when its RESYNC of the tenant is abandoned (log entry 26). -/
def abandonedReply : Reply := refuse stBusyActive 0x08

/-- A running RESYNC of the tenant is abandoned, and P:12 is not set (R175). RING and TAKEN of its mailbox stay 1 until
the registers are cleared, where R175 names no moment: DESIGN CHOICE, log entry 53. -/
def abandonResync (s : State) (t : Tenant) : State :=
  match (s.tenant t).resync with
  | some q =>
    let s := s.setTenant t { s.tenant t with resync := none }
    let s := s.setTgt { s.tgt with emitted := s.tgt.emitted.filter fun e => e.reissue != some t }
    if q.mailbox = t.setWidth 7 then s else finish s q.mailbox abandonedReply
  | none => s

/-- The FM's source operations that still wait at the front end are discarded as TENANT_RESET (R65). -/
def dropFmWaiting (s : State) (t : Tenant) : State :=
  ((s.tenant t).fmWaiting.foldl (fun s e =>
    discard s 5 e.vector fmOwner none e.requester (some t)) s).modTenant t fun r => { r with fmWaiting := [] }

/-- What becomes of a command rung or taken between acceptance and the tick that follows (R175, R178, R198): one not taken
is dropped, a VECTOR_LOAD or RESYNC stops, the reply of any other is discarded. The tenant's own TENANT_RESET waits. -/
def closeBox (s : State) (t : Tenant) : State :=
  let m : BitVec 7 := t.setWidth 7
  let b := s.box m
  let own := match (s.tenant t).reset with
    | some q => q.repliesTo.contains m
    | none => false
  let stops := b.load.isSome || (match b.snap with
    | some c => c.opcode == 0x14 || c.opcode == 0x21
    | none => false)
  if !b.ring then s
  else if !b.taken then s.setBox m { b with ring := false, lost := true }
  else if own then s
  else if stops then (leaveAgent s t).modBox m fun b => { b with
    ring := false, taken := false, snap := none, work := .idle, load := none, checked := false, discard := false }
  else s.setBox m { b with discard := true }

/-- The tick after acceptance: the tenant is RESETTING and its paths close (R65, R175, R176). A refill pass that has
covered its range is counted first (R135). -/
def closePaths (s : State) (t : Tenant) : State :=
  let s := abandonResync (coverEnd s) t
  let s := dropFmWaiting s t
  let s := s.modTenant t fun r => { r with
    reset := r.reset.map fun q => { q with inForce := true, sweep := s.sweepOf t }
    queue := [], credits := 440, deficit := 0 }
  let u := s.tgt
  let s := s.setTgt { u with
    msgQueue := u.msgQueue.filter (· != t)
    msgPass := u.msgPass.map fun p => if p.tenant = t then { p with ended := true } else p }
  closeBox s t

/-! ## The work (R176) -/

/-- The domains that hold a tenant's state are ON (R12): CORE, TGT, the quarter of its range, CTRL for its mailbox, and
LOUPE for its bins. -/
def State.resetDomainsOn (s : State) (t : Tenant) : Bool :=
  s.coreOn && s.rangeOn t && s.isOn dCTRL && s.isOn dLOUPE

/-- A pending, enabled system source names a slot. -/
def State.systemNames (s : State) (x : Slot) : Bool :=
  s.vec.sysCfg.any fun p => cEnable p.2 && cTarget p.2 == x && sPending (Sparse.get 0 s.vec.sysSt p.1)

/-- The record and busy bit of a slot of a tenant under reset (R108). A system source that names the slot lies outside the
empty list, so a refill is requested (R117, R118). -/
def resetGranted (s : State) (x : Slot) : State :=
  let s := (wroteTarget (resetTarget s x) x).setBusy x false
  if s.systemNames x then requestRefill (s.modTarget x fun r => { r with sysOverflow := true }) x else s

/-- Every Clasp group of the tenant ends its hold-off and keeps its assignment (R154). -/
def resetClasp (s : State) (t : Tenant) : State :=
  s.setTen { s.ten with clasp := Sparse.mapVals {} (fun _ w =>
    if w.assign = t.setWidth 7 then { w with interval := 0, remaining := 0 } else w) s.ten.clasp }

/-- Target records, busy bits, Clasp groups and range of the tenant are reset and swept. -/
def startResetWork (s : State) (t : Tenant) : State :=
  match (s.tenant t).reset with
  | some q =>
    if q.inForce && !q.started && s.resetDomainsOn t then
      let s := (s.slotsOf t).foldl resetGranted s
      let s := resetClasp s t
      let s := match (s.tenant t).range with
        | some r => zeroRange s r
        | none => s
      s.modTenant t fun r => { r with reset := some { q with started := true, left := max 2 q.sweep } }
    else s
  | none => s

def execTenantResetWork (t : Tenant) (s : State) : Host.Outcome State Fault Refusal :=
  .next (startResetWork s t)

/-! ## The end (R176, R198) -/

/-- The registers that a tenant reset clears. The end of a consent is in force from the next tick (R231). -/
def clearTenantRegs (r : TenantRec) : TenantRec :=
  { r with
    intakeStatus := 0, discards := 0, src := {}, resyncDone := false, parkedSeen := false, staleSeen := false
    straySeen := false, strayCount := 0, strayFirstValid := false, strayFirstStale := false
    strayFirstTarget := 0, strayFirstSrc := 0, faultSummary := 0, faultValid := false, faultCode := 0
    faultDetail := 0, faultFrame := 0, faultCount := 0, wakeCause := 0, wakeSrc := 0, wakeFrames := 0
    access := {}, deliveries := 0, completions := 0, edges := 0, consentNext := false
    consentTaking := false, consentLeft := none, notice := none, noticeNext := none }

/-- The tenant's bins of Loupe return to 0 (R349). -/
def clearBins (s : State) (t : Tenant) : State :=
  s.setLoupe { s.loupe with bins := Sparse.dropKeys (fun k => k / 16 == t.toNat) s.loupe.bins }

/-- The tenant's mailbox takes its reset values; a command of its own that waits for the reset keeps its snapshot. -/
def resetMailbox (s : State) (t : Tenant) : State :=
  let m : BitVec 7 := t.setWidth 7
  let b := s.box m
  s.setBox m { snap := b.snap, work := b.work, taken := b.taken, ring := b.ring && b.taken, restarting := b.restarting }

/-- The reply of a tenant reset (R217). -/
def resetDone (q : ResetRun) : Reply := okReply (bytesLE 2 q.sweep ++ bytesLE 2 q.took)

/-- One reply of a tenant reset. P:9 of the tenant's own reply is set at its BOUND tick. -/
def resetReply (t : Tenant) (q : ResetRun) (s : State) (m : BitVec 7) : State :=
  let r := resetDone q
  if m = t.setWidth 7 then
    match (s.box m).snap with
    | some c => s.setBox m {
        restarting := (s.box m).restarting, reply := replyArea c r, replySeq := c.seq, replyValid := true, replyReady := true, executed := 1 }
    | none => s
  else deposit s m r

/-- Registers cleared, mailbox reset, replies deposited, in the frame after the work. -/
def clearReset (s : State) (t : Tenant) : State :=
  match (s.tenant t).reset with
  | some q =>
    if q.started && q.left == 0 && !q.cleared then
      let s := s.modTenant t clearTenantRegs
      let s := setLevel (setLevel s (0x400 + t.toNat) false) (0x440 + t.toNat) false
      let s := resetMailbox (clearBins s t) t
      let s := if q.repliesTo.contains (t.setWidth 7) then s else s.setBox (t.setWidth 7) { restarting := (s.box (t.setWidth 7)).restarting }
      let s := q.repliesTo.foldl (resetReply t q) s
      s.modTenant t fun r => { r with reset := some { q with cleared := true } }
    else s
  | none => s

def execTenantResetEnd (t : Tenant) (s : State) : Host.Outcome State Fault Refusal :=
  .next (clearReset s t)

/-- The tick at which the tenant is BOUND again: S:0x480 + t, and P:9 when the tenant issued the reset. -/
def boundAgain (s : State) (t : Tenant) (q : ResetRun) : State :=
  let s := s.modTenant t fun r => { r with reset := none }
  let s := raiseSource s (0x480 + t.toNat)
  if q.repliesTo.contains (t.setWidth 7) then notify s t 9 else s

/-- What a tick does for a tenant's reset: it takes force, starts its work, counts its frames, ends. -/
def tickReset (s : State) (t : Tenant) : State :=
  match (s.tenant t).reset with
  | none => s
  | some _ =>
    let s := clearReset s t
    match (s.tenant t).reset with
    | none => s
    | some q =>
      if q.cleared then boundAgain s t q
      else
        let s := s.modTenant t fun r => { r with reset := some { q with took := q.took + 1, left := q.left - 1 } }
        let s := if q.inForce then s else closePaths s t
        startResetWork s t

/-! ## Clear sweeps of withdrawn ranges (R170, R171) -/

/-- A sweep ends: words that the drains of the withdrawal's frame still reached are zero, its vectors may be granted again, and the withdrawal is answered (R208). -/
def endSweep (s : State) (w : Sweep) : State :=
  let s := zeroRange s w.range
  let s := s.setTen { s.ten with sweeps := s.ten.sweeps.erase w }
  match w.reply with
  | some (m, forced) => deposit s m (okReply (bytesLE 4 forced ++ bytesLE 2 w.frames ++ [0, 0]))
  | none => s

def execClearSweepEnd (base : BitVec 20) (s : State) : Host.Outcome State Fault Refusal :=
  .next <| match s.ten.sweeps.find? fun w => w.range.base == base with
    | some w => if w.left = 0 then endSweep s w else s
    | none => s

/-- A tick of the running sweeps: those in their last frame end, the others count one frame. -/
def tickSweeps (s : State) : State :=
  let s := (s.ten.sweeps.filter fun w => w.left == 0).foldl endSweep s
  s.setTen { s.ten with sweeps := s.ten.sweeps.map fun w => { w with left := w.left - 1 } }

/-! ## Consent, window, notice target, range map -/

/-- A consent in its last frame lapses: it is no more from the coming tick (R231). -/
def lapseConsent (s : State) (t : Tenant) : State :=
  if (s.tenant t).consentLeft = some 1 ∧ (s.tenant t).consentTaking = false then
    s.modTenant t fun r => { r with consentNext := false, consentLeft := none }
  else s

def execConsentLapse (t : Tenant) (s : State) : Host.Outcome State Fault Refusal := .next (lapseConsent s t)

/-- Changes that take effect for a tenant at a tick: window (R164), range map (R169), notice target (R207), consent. -/
def tickTenantRec (ready : Bool) (r : TenantRec) : TenantRec :=
  { r with
    windowUp := r.bound && ready
    rangeMap := r.range
    notice := r.noticeNext
    consent := r.consentNext
    consentTaking := false
    consentLeft := if r.consentTaking then r.consentLeft else r.consentLeft.map (· - 1)
    satFrames := if r.credits = 0 then satInc r.satFrames else r.satFrames
    zeroSeen := r.credits == 0 }

/-- The tick of every tenant. -/
def tickTenants (s : State) : State :=
  let s := s.listedTenants.foldl lapseConsent s
  let s := s.setTen { s.ten with recs := Sparse.mapVals {} (fun _ r => tickTenantRec s.hm.ready r) s.ten.recs }
  s.listedTenants.foldl tickReset s

end Sys2Proof.Machine
end

