-- ==== Sys2Proof/Machine/Grants.lean ====
section
/-! DEFINITION. The commands that grant and withdraw target blocks and vector ranges and set targets (R206 to R208, with R130, R166 to R171). -/
namespace Sys2Proof.Machine

/-! ## Shared -/

/-- A refusal of the command in mailbox `m`: status and the offset of the field. -/
def refuseCmd (s : State) (m : BitVec 7) (status : Byte) (off : Nat) : State := finish s m (refuse status off)

/-- The continuation of a command that needs domains: run with all of them ON, otherwise they are woken and the
command waits (R204). -/
def withDomains (s : State) (ds : List Nat) (k : State) : State :=
  if s.allOn ds then k else ds.foldl (wake .access) s

/-- The last mailbox slot that a source's words take, in the numbering of `FrameUse.slots`. -/
def srcSlot (src : Src) : Nat := (srcQuarter src).getD 4

/-- The last mailbox slot of the target bank of a block. -/
def blockSlot (g : Nat) : Nat := 5 + g / 64

/-- The last mailbox slot of a frame has come and is not taken: no decision or re-issue of the frame is still uncommitted
(R101). -/
def State.slotFree (s : State) (n : Nat) : Bool := s.tgt.emitted.isEmpty && !s.frame.use.slots.getLsbD n

def takeSlot (s : State) (n : Nat) : State :=
  s.setUse { s.frame.use with slots := s.frame.use.slots ||| BitVec.twoPow 21 n }

/-- A step that R101 places in a last mailbox slot: a taken one defers it to the next frame. -/
def inLastSlot (s : State) (n : Nat) (k : State → State) : State := if s.slotFree n then k (takeSlot s n) else s

def coreTgt : List Nat := [dTGT, dCORE]

/-- Holders of an active source. -/
def State.targetOf (s : State) (src : Src) : Option Slot :=
  (s.tgt.recs.find? fun p => p.2.active == some src).map fun p => BitVec.ofNat 16 p.1

/-! ## TARGET_GRANT (R166, R168, R206) -/

/-- A block of a target bank left out of service (R359). -/
def State.blockOut (s : State) (g : Nat) : Bool := s.pwr.tgtOut.getLsbD (g / 64)

/-- The local block that a grant fills: the one named, or the lowest free one; none when filled or none free. -/
def State.freeLocal (s : State) (t : Tenant) (j : Nat) : Option Nat :=
  if j = 0xFF then (List.range 16).find? fun k => (s.blockOf t k).isNone
  else if (s.blockOf t j).isNone then some j else none

/-- The slots of a block. -/
def blockSlots (g : Nat) : List Slot := (List.range 64).map fun k => BitVec.ofNat 16 (64 * g + k)

/-- The grant of global block `g` as local block `j`: 64 records at their reset values that request their passes. -/
def grantBlock (s : State) (t : Tenant) (g j : Nat) : State :=
  let s := s.setTen { s.ten with blocks := Sparse.set none s.ten.blocks g (some (t, BitVec.ofNat 4 j)) }
  let s := (blockSlots g).foldl (fun s x =>
    ((wroteTarget (resetTarget s x) x).setBusy x false).modTarget x fun r => { r with
      refilling := true, wantsMsg := true, wantsSys := true }) s
  requestSys (requestMsg s t)

/-- Reply of TARGET_GRANT. -/
def blockReply (g j forced : Nat) : Reply :=
  okReply (bytesLE 1 j ++ [0] ++ bytesLE 2 forced ++ bytesLE 2 (64 * g) ++ [0, 0])

/-- TARGET_GRANT with OP 0. -/
def targetGrant (s : State) (m : BitVec 7) (c : Snap) : State :=
  match checkTenant m (snapField c 0x09 1) 0x09 with
  | .error r => finish s m r
  | .ok t =>
    let g := snapField c 0x0A 2
    let j := snapField c 0x0C 1
    if 1023 < g then refuseCmd s m stRange 0x0A
    else if 16 ≤ j ∧ j ≤ 0xFE then refuseCmd s m stRange 0x0C
    else withDomains s coreTgt <|
      if !(s.tenant t).bound then refuseCmd s m stDenied 0x09
      else if s.resetting t then refuseCmd s m stBusyActive 0x09
      else if (Sparse.get none s.ten.blocks g).isSome || s.blockOut g then refuseCmd s m stNoResource 0x0A
      else match s.freeLocal t j with
        | none => refuseCmd s m stNoResource 0x0C
        | some k => inLastSlot s (blockSlot g) fun s => finish (grantBlock s t g k) m (blockReply g k 0)

/-- Completes the active source of a slot as by a valid completion; true when there was one (R168). -/
def forceSlot (p : State × Nat) (t : Tenant) (x : Slot) : State × Nat :=
  match (p.1.target x).active with
  | some src => (completeTarget p.1 t x src false, p.2 + 1)
  | none => p

/-- Completes the active sources of a list of slots and counts them. -/
def forceSlots (t : Tenant) (xs : List Slot) (s : State) : State × Nat := xs.foldl (fun p x => forceSlot p t x) (s, 0)

/-- The quarters whose state words the forced completions of a list of slots write. -/
def State.activeQuarters (s : State) (xs : List Slot) : List Nat :=
  xs.filterMap fun x => match (s.target x).active with
    | some src => match srcClass src with
      | .message v => some (dTBL (quarterOf v))
      | _ => none
    | none => none

/-- The withdrawal of a block: its slots leave the grant, records and busy bits take reset values, and a notice target
among them is no longer named (R116, R168). -/
def withdrawBlock (s : State) (t : Tenant) (g j : Nat) : State :=
  let s := (blockSlots g).foldl (fun s x => (wroteTarget (resetTarget s x) x).setBusy x false) s
  let s := s.setTen { s.ten with blocks := Sparse.set none s.ten.blocks g none }
  let gone (n : Option (BitVec 10)) : Option (BitVec 10) := n.filter fun i => i.toNat / 64 != j
  s.modTenant t fun r => { r with notice := gone r.notice, noticeNext := gone r.noticeNext }

/-- TARGET_GRANT with OP 1. -/
def targetWithdraw (s : State) (m : BitVec 7) (c : Snap) : State :=
  match checkTenant m (snapField c 0x09 1) 0x09 with
  | .error r => finish s m r
  | .ok t =>
    let g := snapField c 0x0A 2
    let force := (snapByte c 0x0D).getLsbD 0
    if 1023 < g then refuseCmd s m stRange 0x0A
    else withDomains s (coreTgt ++ if force then s.activeQuarters (blockSlots g) else []) <|
      inLastSlot s (blockSlot g) fun s =>
      if !(s.tenant t).bound then refuseCmd s m stDenied 0x09
      else if s.resetting t then refuseCmd s m stBusyActive 0x09
      else match Sparse.get none s.ten.blocks g with
        | none => refuseCmd s m stNotOwner 0x0A
        | some (u, j) =>
          if u ≠ t then refuseCmd s m stNotOwner 0x0A
          else if !force && (blockSlots g).any (fun x => s.busyBit x || (s.target x).parked) then
            refuseCmd s m stBusyActive 0x0A
          else
            let p := if force then forceSlots t (blockSlots g) s else (s, 0)
            finish (withdrawBlock p.1 t g j.toNat) m (blockReply g j.toNat p.2)

/-- OP above 1 is refused by whichever of the two rows meets it (R206 check 1). -/
def execTargetGrant (mb : BitVec 7) (s : State) : Host.Outcome State Fault Refusal :=
  .next <| runTaken s mb 0x10 (fun c => snapByte c 0x08 != 1) (fun _ _ => []) fun s c =>
    if 1 < snapField c 0x08 1 then refuseCmd s mb stBadField 0x08 else targetGrant s mb c

def execTargetWithdraw (mb : BitVec 7) (s : State) : Host.Outcome State Fault Refusal :=
  .next <| runTaken s mb 0x10 (fun c => snapByte c 0x08 == 1) (fun _ _ => []) fun s c => targetWithdraw s mb c

/-! ## TARGET_SET (R130, R207) -/

/-- The write of a delivery address, of a notice choice, or of both in one write. -/
def setTargetFields (s : State) (t : Tenant) (x : Slot) (i : BitVec 10) (daddr : Option W64) (notice : Bool) : State :=
  let s := match daddr with
    | some a => (touchTarget s x).modTarget x fun r => { r with daddr := a }
    | none => s
  if notice then s.modTenant t fun r => { r with noticeNext := some i } else s

def noticeCode (n : Option (BitVec 10)) : Nat :=
  match n with
  | some i => i.toNat
  | none => 0xFFFF

/-- TARGET_SET. -/
def targetSet (s : State) (m : BitVec 7) (c : Snap) : State :=
  match checkTenant m (snapField c 0x08 1) 0x08 with
  | .error r => finish s m r
  | .ok t =>
    let flags := snapByte c 0x09
    let l := snapField c 0x0A 2
    let daddr : W64 := BitVec.ofNat 64 (snapField c 0x10 8)
    if 1023 < l then refuseCmd s m stRange 0x0A
    else
      let i : BitVec 10 := BitVec.ofNat 10 l
      match s.slotOf t i with
      | none => refuseCmd s m stNotOwner 0x0A
      | some x =>
        if s.resetting t then refuseCmd s m stBusyActive 0x08
        else if flags.getLsbD 0 && (field daddr 0 3 : BitVec 3) != 0 then refuseCmd s m stBadField 0x10
        else
          let s := setTargetFields s t x i (if flags.getLsbD 0 then some daddr else none) (flags.getLsbD 1)
          finish s m (okReply (bytesLE 2 x.toNat
            ++ bytesLE 2 (noticeCode (s.noticeLocal t (s.tenant t).noticeNext))
            ++ [0, 0, 0, 0] ++ bytesLE 8 (s.target x).daddr.toNat))

/-- TARGET_SET with SET_DADDR, or with no flag. -/
def execSetDaddr (mb : BitVec 7) (s : State) : Host.Outcome State Fault Refusal :=
  .next <| runTaken s mb 0x11 (fun c => snapByte c 0x09 != 2) (fun _ _ => coreTgt) fun s c => targetSet s mb c

/-- TARGET_SET with SET_NOTICE. -/
def execSetNotice (mb : BitVec 7) (s : State) : Host.Outcome State Fault Refusal :=
  .next <| runTaken s mb 0x11 (fun c => (snapByte c 0x09).getLsbD 1) (fun _ _ => coreTgt) fun s c => targetSet s mb c

/-! ## VECTOR_RANGE_GRANT (R169, R170, R208) -/

/-- The refusal of a range grant under R169, in its order. -/
def rangeGrantCheck (s : State) (t : Tenant) (log2 base : Nat) : Option (Byte × Nat) :=
  let r : Range := ⟨BitVec.ofNat 20 base, BitVec.ofNat 5 log2⟩
  if !(s.tenant t).bound then some (stDenied, 0x09)
  else if s.resetting t then some (stBusyActive, 0x09)
  else if log2 < 6 ∨ 18 < log2 then some (stBadField, 0x0A)
  else if base % 2 ^ log2 ≠ 0 then some (stBadField, 0x0C)
  else if (s.tenant t).range.isSome then some (stNoResource, 0x09)
  else if (s.ten.recs.any fun p => match p.2.range with
      | some q => rangeOverlaps r q
      | none => false) || s.ten.sweeps.any (fun w => rangeOverlaps r w.range)
      || s.pwr.tblOut.getLsbD (quarterOf base) then some (stNoResource, 0x0C)
  else none

/-- Reply of VECTOR_RANGE_GRANT. -/
def rangeReply (forced frames : Nat) : Reply := okReply (bytesLE 4 forced ++ bytesLE 2 frames ++ [0, 0])

/-- VECTOR_RANGE_GRANT with OP 0: the checks, the wake of the quarter, and the checks again where it is applied. -/
def rangeGrant (s : State) (m : BitVec 7) (c : Snap) : State :=
  match checkTenant m (snapField c 0x09 1) 0x09 with
  | .error r => finish s m r
  | .ok t =>
    let log2 := snapField c 0x0A 1
    let base := snapField c 0x0C 4
    match rangeGrantCheck s t log2 base with
    | some (st, off) => refuseCmd s m st off
    | none => withDomains s (coreTgt ++ [dTBL (quarterOf base)]) <| inLastSlot s (quarterOf base) fun s =>
      finish (s.modTenant t fun r => { r with range := some ⟨BitVec.ofNat 20 base, BitVec.ofNat 5 log2⟩ }) m
        (rangeReply 0 0)

/-- The active sources of a range. -/
def State.activeIn (s : State) (r : Range) : List Src :=
  (s.vec.st.filter fun p => rangeHas r p.1 && sActive p.2).map fun p => msgSrc p.1

/-- Completes an active source of a range as by a valid completion (R170). -/
def forceSource (t : Tenant) (s : State) (src : Src) : State :=
  match s.targetOf src with
  | some x => completeTarget s t x src false
  | none => applyCompletion s src

/-- The withdrawal and its sweep: the words are zeroed, the range is cleared for c frames, and the reply waits for its
end (R170, R171). -/
def withdrawRange (s : State) (m : BitVec 7) (t : Tenant) (r : Range) (forced : Nat) : State :=
  let s := zeroRange (s.modTenant t fun q => { q with range := none }) r
  let n := sweepFrames r
  let s := s.setTen { s.ten with sweeps := s.ten.sweeps ++ [⟨r, n, n, some (m, forced)⟩] }
  s.modBox m fun b => { b with work := .waiting }

/-- VECTOR_RANGE_GRANT with OP 1. -/
def rangeWithdraw (s : State) (m : BitVec 7) (c : Snap) : State :=
  match checkTenant m (snapField c 0x09 1) 0x09 with
  | .error r => finish s m r
  | .ok t =>
    let log2 := snapField c 0x0A 1
    let base := snapField c 0x0C 4
    let force := (snapByte c 0x0B).getLsbD 0
    if !(s.tenant t).bound then refuseCmd s m stDenied 0x09
    else if s.resetting t then refuseCmd s m stBusyActive 0x09
    else match (s.tenant t).range with
      | none => refuseCmd s m stNotOwner 0x0C
      | some r =>
        if r.log2.toNat ≠ log2 then refuseCmd s m stNotOwner 0x0A
        else if r.base.toNat ≠ base then refuseCmd s m stNotOwner 0x0C
        else withDomains s (coreTgt ++ [dTBL (quarterOf base)]) <| inLastSlot s (quarterOf base) fun s =>
          let act := s.activeIn r
          if !force && !act.isEmpty then refuseCmd s m stBusyActive 0x0C
          else withdrawRange (act.foldl (forceSource t) s) m t r act.length

def execVectorRangeGrant (mb : BitVec 7) (s : State) : Host.Outcome State Fault Refusal :=
  .next <| runTaken s mb 0x12 (fun c => snapByte c 0x08 != 1) (fun _ _ => [dCORE]) fun s c =>
    if 1 < snapField c 0x08 1 then refuseCmd s mb stBadField 0x08 else rangeGrant s mb c

def execVectorRangeWithdraw (mb : BitVec 7) (s : State) : Host.Outcome State Fault Refusal :=
  .next <| runTaken s mb 0x12 (fun c => snapByte c 0x08 == 1) (fun _ _ => [dCORE]) fun s c => rangeWithdraw s mb c

end Sys2Proof.Machine
end

