-- ==== Sys2Proof/Machine/Vectors.lean ====
section
/-! DEFINITION. The commands on vectors, Clasp groups and the watch list (R78 to R83, R94, R100 to R102, R172, R203, R209 to R216), the vector loader included. -/
namespace Sys2Proof.Machine

/-! ## Names -/

/-- A source ID field of a request (R202). -/
def snapSrc (c : Snap) (off : Nat) : Src := BitVec.ofNat 24 (snapField c off 3)

/-- The domains that hold a source's words (R22). -/
def wordDomains (src : Src) : List Nat :=
  match srcClass src with
  | .message v => [dTGT, dCORE, dTBL (quarterOf v)]
  | _ => coreTgt

/-- A message or system source under R4 and R5. -/
def isWordSource (src : Src) : Bool :=
  match srcClass src with
  | .message _ => true
  | .system _ => true
  | _ => false

/-- The tenant that holds a source: of the range it lies in. -/
def State.holder (s : State) (src : Src) : Option Tenant :=
  match srcClass src with
  | .message v => s.rangeOwner v
  | _ => none

/-- A tenant that is RESETTING holds the source (R204). -/
def State.holderResets (s : State) (src : Src) : Bool :=
  match s.holder src with
  | some t => s.resetting t
  | none => false

/-! ## The checks of a configuration write (R82, R83, R209) -/

/-- Reserved bits of a configuration word: [56:52]; for a system source FWD, REQ_CHECK and REQ_ID too (R78, R80). -/
def cfgReserved (src : Src) : W64 :=
  if isSystem src then 0x85F00000FFFF0000 else 0x01F0000000000000

/-- The write changes MODE or TARGET, or replaces a forwarding form (R101). -/
def cfgMoves (cur new : W64) : Bool := cFwd cur || cMode cur != cMode new || cTarget cur != cTarget new

/-- Check 2 of R209 and the RESETTING check of R204: status and offset. -/
def ownCheck (s : State) (issuer : Option Tenant) (src : Src) : Option (Byte × Nat) :=
  let owned := match issuer with
    | some t => s.holder src == some t
    | none => true
  if !owned then some (stNotOwner, 0x08)
  else if s.holderResets src then some (stBusyActive, 0x08)
  else none

/-- Checks 3 to 9 of R209. -/
def cfgCheck (s : State) (issuer : Option Tenant) (src : Src) (new : W64) : Option (Byte × Nat) :=
  let cur := s.cfgOf src
  let group := (s.clasp (cClasp new)).assign
  let owner := (s.slotOwner (cTarget new)).map (·.1)
  if new &&& cfgReserved src ≠ 0 then some (stBadField, 0x10)
  else if cFwd new then some (stBadField, 0x10)
  else if issuer.isSome && (cFwd cur || cLocked cur) then some (stLocked, 0x08)
  else if issuer.isSome && cLocked new != cLocked cur then some (stDenied, 0x10)
  else if cEnable new && !(if isSystem src then owner.isSome else owner.isSome && owner == s.holder src) then
    some (stNotOwner, 0x10)
  else if cClaspEn new && !(if isSystem src then group == 0x40
      else some group == (s.holder src).map fun t => t.setWidth 7) then some (stNotOwner, 0x10)
  else if (cMode cur != cMode new || cTarget cur != cTarget new) && sActive (s.stOf src) then
    some (stBusyActive, 0x08)
  else none

/-- The effects of R100 to R102 of a new configuration word on its source; WATCHED keeps its value, and the write is
the reload of a lost vector (R203). -/
def applyConfig (s : State) (src : Src) (new : W64) : State :=
  let s := readSt (readCfg s src) src
  let cur := s.cfgOf src
  let new := putBit new 59 (cWatched cur)
  let s := writeCfg s src new
  let s := if cMode cur != cMode new && !cFwd cur then
      writeSt s src (convertWord (cMode new) (s.stOf src)) else s
  let s := moveTarget s src cur new
  match srcClass src with
  | .message v => reload s v
  | _ => s

/-- The read of a source's two words. -/
def readWordsOf (s : State) (src : Src) : State := peekSt (readCfg s src) src

/-! ## VECTOR_SET (R209) -/

/-- Checks 3 to 9 on the words as they stand, and the write. -/
def setConfig (s : State) (m : BitVec 7) (src : Src) (new : W64) : State :=
  let s := readGroupWord s new
  match cfgCheck s (mbTenant m) src new with
  | some (st, off) => refuseCmd s m st off
  | none =>
    let s := applyConfig s src new
    finish s m (okReply (bytesLE 8 (s.cfgOf src).toNat ++ bytesLE 4 (s.stOf src).toNat ++ bytesLE 4 s.frameLo.toNat))

/-- VECTOR_SET: a change of MODE or TARGET is checked and made in the last mailbox slot of its bank (R101). -/
def vectorSet (s : State) (m : BitVec 7) (c : Snap) : State :=
  let src := snapSrc c 0x08
  let new : W64 := BitVec.ofNat 64 (snapField c 0x10 8)
  if !isWordSource src then refuseCmd s m stRange 0x08
  else match ownCheck s (mbTenant m) src with
    | some (st, off) => refuseCmd s m st off
    | none => withDomains s (wordDomains src) <|
      let s := readWordsOf s src
      if cfgMoves (s.cfgOf src) new then inLastSlot s (srcSlot src) fun s => setConfig s m src new
      else setConfig s m src new

def execVectorSet (mb : BitVec 7) (s : State) : Host.Outcome State Fault Refusal :=
  .next <| runTaken s mb 0x13 (fun _ => true) (fun _ _ => [dCORE]) fun s c => vectorSet s mb c

/-! ## VECTOR_LOAD (R210 to R212) -/

/-- The port through which a mailbox's issuer reads host memory: its own upstream port, or the manager port. -/
def State.issuerPort (s : State) (m : BitVec 7) : BitVec 7 :=
  match mbTenant m with
  | some t => (s.tenant t).port
  | none => s.ten.managerPort

/-- The link of that port is active. -/
def State.issuerLink (s : State) (m : BitVec 7) : Bool := s.bnd.linkUp.getLsbD (s.issuerPort m).toNat

/-- The reply of a load that ends with STOP `stop` (R212). Entries of a write that MPU-L has not decided are not examined. -/
def loadReply (s : State) (m : BitVec 7) (l : LoadRun) (stop : Nat) : Reply :=
  let payload := bytesLE 4 l.written ++ bytesLE 4 l.refused ++ bytesLE 4 (l.next - l.stalled.length)
    ++ bytesLE 4 (match l.firstRefused with
      | some (i, _) => 0x80000000 + i
      | none => 0)
    ++ [match l.firstRefused with
      | some (_, st) => st
      | none => 0] ++ [BitVec.ofNat 8 stop, 0, 0]
  match l.firstRefused with
  | some (_, st) => ⟨st, 0xFF, payload⟩
  | none =>
    if stop = 2 then
      if s.issuerLink m then ⟨stBadField, 0x10, payload⟩ else ⟨stLinkDown, 0x10, payload⟩
    else ⟨stOK, 0xFF, payload⟩

/-- The load ends. -/
def endLoad (s : State) (m : BitVec 7) (l : LoadRun) (stop : Nat) : State :=
  s.modBox m fun b => { b with load := none, work := .done (loadReply s m l stop) }

/-- The domains of the sources FIRST to FIRST + COUNT − 1. -/
def runDomains (first : Src) (count : Nat) : List Nat :=
  match srcClass first with
  | .message v => coreTgt ++ ((List.range 4).filter fun q =>
      decide (quarterOf v ≤ q) && decide (q ≤ (v + count - 1) / 0x40000)).map dTBL
  | _ => coreTgt

/-- Entries of the next request of a load: it ends at an address aligned to 256 bytes, or with the load (R211). -/
def LoadRun.nextRead (l : LoadRun) : Nat :=
  min (l.count - l.asked) ((256 - (l.addr.toNat + 8 * l.asked) % 256) / 8)

/-- Requests go out while fewer than 8 are outstanding. `fuel` bounds their number. -/
def askReads (port : BitVec 7) : Nat → LoadRun → LoadRun
  | 0, l => l
  | fuel + 1, l =>
    if l.asked < l.count ∧ l.reads.length < 8 ∧ l.failed = false then
      let n := l.nextRead
      askReads port fuel { l with
        asked := l.asked + n
        reads := l.reads ++ [⟨l.addr + BitVec.ofNat 64 (8 * l.asked), n, port, Config.managementId port⟩] }
    else l

/-- The request checks of R210, which need no domain, and the start of the reads. -/
def vectorLoad (s : State) (m : BitVec 7) (c : Snap) : State :=
  let first := snapSrc c 0x08
  let count := snapField c 0x0C 4
  let addr : W64 := BitVec.ofNat 64 (snapField c 0x10 8)
  let last := first.toNat + count - 1
  let top := if isSystem first then 0x400FFF else 0x8FFFFF
  if 262144 < count then refuseCmd s m stBadField 0x0C
  else if (field addr 0 3 : BitVec 3) ≠ 0 then refuseCmd s m stBadField 0x10
  else if !isWordSource first then refuseCmd s m stRange 0x08
  else if count ≠ 0 ∧ top < last then refuseCmd s m stRange 0x0C
  else
    let l : LoadRun := { first := first, count := count, addr := addr, next := 0, written := 0, refused := 0, firstRefused := none }
    if count = 0 then endLoad s m l 0
    else withDomains s coreTgt
      (s.modBox m fun b => { b with load := some (askReads (s.issuerPort m) 8 l), work := .waiting })

def execVectorLoad (mb : BitVec 7) (s : State) : Host.Outcome State Fault Refusal :=
  .next <| runTaken s mb 0x14 (fun _ => true) (fun _ _ => []) fun s c => vectorLoad s mb c

/-- Entry `i` of a load is refused with a status. -/
def refuseEntry (l : LoadRun) (i : Nat) (st : Byte) : LoadRun :=
  { l with refused := l.refused + 1, firstRefused := some (l.firstRefused.getD (i, st)) }

/-- The source of entry `i`. -/
def entrySrc (l : LoadRun) (i : Nat) : Src := l.first + BitVec.ofNat 24 i

/-- The refusal of an entry before its write: RANGE for a reserved system index, then checks 2 to 9 (R210). -/
def entryCheck (s : State) (issuer : Option Tenant) (src : Src) (new : W64) : Option Byte :=
  if !isWordSource src then some stRange
  else match ownCheck s issuer src with
    | some (st, _) => some st
    | none => (cfgCheck s issuer src new).map (·.1)

/-- Block-internal address of a configuration word (R233). -/
def cfgAddress (src : Src) : Nat :=
  match srcClass src with
  | .message v => 8 * v
  | .system n => 0x1000000 + 16 * n
  | _ => 0

/-- The write of entries that have passed their checks and stand at MPU-L, which decides it whole (R211, R239). -/
def loaderWrite (s : State) (issuer : Option Tenant) (l : LoadRun) : State × LoadRun :=
  let ws := l.stalled
  let i := l.next - ws.length
  let l := { l with stalled := [] }
  let (s, ok, _) := checkAccess s 1
    ⟨1, 8 * ws.length, cfgAddress (entrySrc l i), issuer.isNone, issuer⟩
  let idx := ws.zipIdx.map fun p => (i + p.2, p.1)
  if ok then
    (idx.foldl (fun s p => applyConfig s (entrySrc l p.1) p.2) s, { l with written := l.written + ws.length })
  else
    let s := match issuer with
      | some t => chargeFault s t 0x05 (BitVec.ofNat 32 i)
      | none => s
    (s, idx.foldl (fun l p => refuseEntry l p.1 stDenied) l)

/-- Four entries that fill an aligned configuration line and all pass their checks make one write of the loader. -/
def lineWrite (s : State) (issuer : Option Tenant) (l : LoadRun) (i : Nat) (ws : List W64) : Bool :=
  (match srcClass (entrySrc l i) with
    | .message v => v % 4 == 0
    | _ => false) && ws.length == 4 &&
  (ws.zipIdx.all fun p => (entryCheck s issuer (entrySrc l (i + p.2)) p.1).isNone)

/-- The entries that one last mailbox slot takes together: 32 consecutive vectors, whose configuration line spans the
quarter's eight banks, or one line of the system table (R211). -/
def slotGroup (src : Src) : Nat :=
  match srcClass src with
  | .message v => v / 32
  | .system n => 0x8000 + n / 4
  | _ => 0

/-- Some of these entries changes MODE or TARGET and the last mailbox slot of their group, `grp`, is not held. -/
def needsSlot (s : State) (l : LoadRun) (i : Nat) (grp : Option Nat) (ws : List W64) : Bool :=
  ws.zipIdx.any fun p =>
    let src := entrySrc l (i + p.2)
    isWordSource src && cfgMoves (s.cfgOf src) p.1 && grp != some (slotGroup src)

/-- The entries held are examined in turn: four that fill a configuration line make one write, any other is refused or
makes a write of its own. -/
def examine (s : State) (issuer : Option Tenant) (l : LoadRun) (grp : Option Nat) (w : W64) (ws : List W64) : LoadRun :=
  let i := l.next
  let four := (w :: ws).take 4
  if i + 4 ≤ l.count ∧ lineWrite s issuer l i four ∧ needsSlot s l i grp four = false then
    { l with next := i + 4, held := ws.drop 3, stalled := four }
  else match entryCheck s issuer (entrySrc l i) w with
    | some st => { refuseEntry l i st with next := i + 1, held := ws }
    | none => { l with next := i + 1, held := ws, stalled := [w] }

/-- What a load does with the data it holds: entries wait for their domains, for the last mailbox slot of the frame when
they change MODE or TARGET, and for a disabled MPU-L (R204, R211, R244). `grp`: the group whose slot it has taken. `fuel`
bounds the steps. -/
def loadEntries (issuer : Option Tenant) : Nat → Option Nat → State → LoadRun → State × LoadRun
  | 0, _, s, l => (s, l)
  | fuel + 1, grp, s, l =>
    match l.stalled, l.held with
    | _ :: _, _ =>
      if s.acu.mpuL.enable then
        let (s, l) := loaderWrite s issuer l
        loadEntries issuer fuel grp s l
      else (s, l)
    | [], [] => (s, l)
    | [], w :: ws =>
      let src := entrySrc l l.next
      if s.allOn (wordDomains src) then
        let s := readWordsOf s src
        if needsSlot s l l.next grp [w] then
          if s.slotFree (srcSlot src) then
            loadEntries issuer fuel (some (slotGroup src)) (takeSlot s (srcSlot src)) l
          else (s, l)
        else loadEntries issuer fuel grp s (examine s issuer l grp w ws)
      else ((wordDomains src).foldl (wake .access) s, l)

/-- A read of host memory fails: the load stops at that entry (R211). -/
def failRead (s : State) (m : BitVec 7) (l : LoadRun) : State :=
  let s := match mbTenant m with
    | some t => chargeFault s t 0x06 (BitVec.ofNat 32 l.next)
    | none => s
  endLoad s m l 2

/-- A load goes on with what it holds: its next reads go out, and it ends with its last entry or at a failed read. -/
def runLoad (s : State) (m : BitVec 7) (l : LoadRun) : State :=
  let (s, l) := loadEntries (mbTenant m) (3 * l.held.length + 2) none s l
  if !l.stalled.isEmpty || !l.held.isEmpty then s.modBox m fun b => { b with load := some l }
  else if l.count ≤ l.next then endLoad s m l 0
  else if l.failed then failRead s m l
  else s.modBox m fun b => { b with load := some (askReads (s.issuerPort m) 8 l) }

def advanceLoad (s : State) (m : BitVec 7) : State :=
  match (s.box m).load with
  | some l => runLoad s m l
  | none => s

/-- Every load goes on. -/
def advanceLoads (s : State) : State :=
  (s.mbx.boxes.filter fun p => p.2.load.isSome).foldl (fun s p => advanceLoad s (BitVec.ofNat 7 p.1)) s

/-- The oldest read of a load completes, with the data asked for, or fails. Reads complete in the order of their requests
(log entry 55). -/
def readDone (s : State) (m : BitVec 7) (ok : Bool) (data : List W64) : State :=
  match (s.box m).load with
  | some l => match l.reads with
    | r :: rest =>
      if !ok then runLoad s m { l with reads := [], failed := true }
      else if data.length = r.entries then runLoad s m { l with reads := rest, held := l.held ++ data }
      else s
    | [] => s
  | none => s

def execLoaderReadCompletion (mb : BitVec 7) (ok : Bool) (data : List W64) (s : State) :
    Host.Outcome State Fault Refusal :=
  .next (if s.hm.inReset.isSome then s else readDone s mb ok data)

/-- The oldest read of a load has not completed within 1 ms. -/
def execLoaderReadTimeout (mb : BitVec 7) (s : State) : Host.Outcome State Fault Refusal :=
  .next (if s.hm.inReset.isSome then s else readDone s mb false [])

/-! ## VECTOR_READ (R213) -/

/-- The sources of a run, FIRST alone for a COUNT of 0. -/
def runSources (first : Src) (count : Nat) : List Src :=
  (List.range (max 1 count)).map fun i => first + BitVec.ofNat 24 i

/-- The words of one entry, read at its bank's slot. -/
def readEntry (p : State × List Byte) (src : Src) : State × List Byte :=
  let s := match stLineOf src with
    | some l => readLine 0 false (readCfg p.1 src) l
    | none => p.1
  let st := if cFwd (s.cfgOf src) then 0 else s.stOf src
  (s, p.2 ++ bytesLE 8 (s.cfgOf src).toNat ++ bytesLE 4 st.toNat)

def vectorRead (s : State) (m : BitVec 7) (c : Snap) : State :=
  let first := snapSrc c 0x08
  let count := snapField c 0x0C 4
  let srcs := runSources first count
  let last := srcs.getLastD first
  if 20 < count then refuseCmd s m stBadField 0x0C
  else if !isWordSource first || !isWordSource last || isSystem first != isSystem last then
    refuseCmd s m stRange 0x08
  else if (match mbTenant m with
      | some t => srcs.any fun x => s.holder x != some t
      | none => false) then refuseCmd s m stNotOwner 0x08
  else if srcs.any s.holderResets then refuseCmd s m stBusyActive 0x08
  else if srcs.any (fun x => match srcClass x with
      | .message v => s.isLost v
      | _ => false) then refuseCmd s m stRetentionLost 0x08
  else withDomains s (runDomains first count) <|
    let (s, out) := (srcs.take count).foldl readEntry (s, [])
    finish s m (okReply (bytesLE 4 count ++ out))

def execVectorRead (mb : BitVec 7) (s : State) : Host.Outcome State Fault Refusal :=
  .next <| runTaken s mb 0x15 (fun _ => true) (fun _ _ => [dCORE]) fun s c => vectorRead s mb c

/-! ## FORWARD_SET (R79, R214) -/

def lostSource (s : State) (src : Src) : Bool :=
  match srcClass src with
  | .message v => s.isLost v
  | _ => false

/-- The word of R79. -/
def forwardWord (forward : W32) : W64 := 0x8000000000000000 ||| (forward &&& 0x3FFFFFFF).setWidth 64

/-- FORWARD_SET. The state word becomes zero, its sticky bits included (R79). -/
def forwardSet (s : State) (m : BitVec 7) (c : Snap) : State :=
  let src := snapSrc c 0x08
  let fwd := forwardWord (BitVec.ofNat 32 (snapField c 0x0C 4))
  if (s.holder src).isNone then refuseCmd s m stRange 0x08
  else if s.holderResets src then refuseCmd s m stBusyActive 0x08
  else withDomains s (wordDomains src) <| inLastSlot s (srcSlot src) fun s =>
    let s := readWordsOf s src
    if s.pwr.watch.contains src then refuseCmd s m stBadField 0x08
    else if lostSource s src then refuseCmd s m stRetentionLost 0x08
    else if sPending (s.stOf src) || sActive (s.stOf src) then refuseCmd s m stBusyActive 0x08
    else if s.chainMode = 0 then refuseCmd s m stLinkDown 0x0C
    else if cDestChip fwd = s.chipId then refuseCmd s m stBadField 0x0C
    else
      let s := writeSt (writeCfg s src fwd) src 0
      finish s m (okReply (bytesLE 8 (s.cfgOf src).toNat))

def execForwardSet (mb : BitVec 7) (s : State) : Host.Outcome State Fault Refusal :=
  .next <| runTaken s mb 0x16 (fun _ => true) (fun _ _ => [dCORE]) fun s c => forwardSet s mb c

/-! ## CLASP_SET (R154, R172, R215) -/

/-- The group word after a change of assignment and of INTERVAL, in that order, in one write. -/
def claspWord (w : ClaspWord) (assign : Option (BitVec 7)) (interval : Option (BitVec 16)) : ClaspWord :=
  let w := match assign with
    | some a => if a = w.assign then w else { assign := a, interval := 0, remaining := 0 }
    | none => w
  match interval with
  | some i => { w with interval := i, remaining := if w.remaining.toNat < i.toNat then w.remaining else i }
  | none => w

def claspSet (s : State) (m : BitVec 7) (c : Snap) : State :=
  let g := snapField c 0x08 2
  let flags := snapByte c 0x0A
  let assign := snapByte c 0x0B
  let interval : BitVec 16 := BitVec.ofNat 16 (snapField c 0x0C 2)
  let setAssign := flags.getLsbD 1
  let named : Tenant := assign.setWidth 6
  let s := if g < 4096 then readLine 0 false s (claspLine g) else s
  let grp : BitVec 12 := BitVec.ofNat 12 g
  let held := (s.clasp grp).assign
  if 4095 < g then refuseCmd s m stRange 0x08
  else if setAssign && (mbTenant m).isSome then refuseCmd s m stDenied 0x0A
  else if setAssign && decide (0x41 < assign.toNat) then refuseCmd s m stBadField 0x0B
  else if setAssign && decide (assign.toNat < 64) && !(s.tenant named).bound then refuseCmd s m stDenied 0x0B
  else if setAssign && decide (assign.toNat < 64) && s.resetting named then refuseCmd s m stBusyActive 0x0B
  else if (match mbTenant m with
      | some t => held != t.setWidth 7
      | none => false) then refuseCmd s m stNotOwner 0x08
  else if (match tagTenant held with
      | some t => s.resetting t
      | none => false) then refuseCmd s m stBusyActive 0x08
  else
    let s := touchClasp s grp
    let w := claspWord (s.clasp grp) (if setAssign then some (assign.setWidth 7) else none)
      (if flags.getLsbD 0 then some interval else none)
    finish (s.setClasp grp w) m (okReply (bytesLE 1 w.assign.toNat ++ [0] ++ bytesLE 2 w.interval.toNat
      ++ bytesLE 2 w.remaining.toNat ++ [0, 0]))

/-- CLASP_SET with SET_INTERVAL, or with no flag. -/
def execSetInterval (mb : BitVec 7) (s : State) : Host.Outcome State Fault Refusal :=
  .next <| runTaken s mb 0x17 (fun c => snapByte c 0x0A != 2) (fun _ _ => coreTgt) fun s c => claspSet s mb c

/-- CLASP_SET with SET_ASSIGN. -/
def execSetAssign (mb : BitVec 7) (s : State) : Host.Outcome State Fault Refusal :=
  .next <| runTaken s mb 0x17 (fun c => (snapByte c 0x0A).getLsbD 1) (fun _ _ => coreTgt) fun s c => claspSet s mb c

/-! ## WATCH_SET (R94, R216) -/

/-- Writes the watch list and WATCHED together. -/
def setWatched (s : State) (src : Src) (b : Bool) : State :=
  let rest := s.pwr.watch.filter (· != src)
  let s := writeCfg s src (putBit (s.cfgOf src) 59 b)
  s.setPwr { s.pwr with watch := if b then rest ++ [src] else rest }

def watchSet (s : State) (m : BitVec 7) (c : Snap) : State :=
  let src := snapSrc c 0x08
  let op := snapField c 0x0C 1
  let known := match srcClass src with
    | .system _ => true
    | .message _ => (s.holder src).isSome
    | _ => false
  if !known then refuseCmd s m stRange 0x08
  else if s.holderResets src then refuseCmd s m stBusyActive 0x08
  else if 1 < op then refuseCmd s m stBadField 0x0C
  else withDomains s (wordDomains src) <|
    let s := readCfg s src
    let listed := s.pwr.watch.contains src
    if cFwd (s.cfgOf src) then refuseCmd s m stBadField 0x08
    else if lostSource s src then refuseCmd s m stRetentionLost 0x08
    else if op = 1 ∧ ¬ listed ∧ 256 ≤ s.pwr.watch.length then refuseCmd s m stNoResource 0x08
    else
      let s := if listed = (op == 1) then s else setWatched s src (op == 1)
      finish s m (okReply (bytesLE 2 s.pwr.watch.length ++ [bit 8 (cWatched (s.cfgOf src)), 0]))

/-- WATCH_SET with OP 1, or with an OP that check 2 refuses. -/
def execWatchAdd (mb : BitVec 7) (s : State) : Host.Outcome State Fault Refusal :=
  .next <| runTaken s mb 0x18 (fun c => snapByte c 0x0C != 0) (fun _ _ => [dCORE]) fun s c => watchSet s mb c

def execWatchRemove (mb : BitVec 7) (s : State) : Host.Outcome State Fault Refusal :=
  .next <| runTaken s mb 0x18 (fun c => snapByte c 0x0C == 0) (fun _ _ => [dCORE]) fun s c => watchSet s mb c

end Sys2Proof.Machine
end

