-- ==== Sys2Proof/Machine/Services.lean ====
section
/-! DEFINITION. The commands that identify, reset, read faults, statistics and time, and set MPU regions (R205, R217 to R224, R227, R228, R231). -/
namespace Sys2Proof.Machine

/-! ## Words shared with the registers -/

/-- `TW_GRANT_RANGE` (R181). -/
def rangeWord (r : Option Range) : W32 :=
  match r with
  | some r => 0x80000000 ||| place 32 r.log2 24 ||| place 32 r.base 0
  | none => 0

/-- `TW_FAULT_FIRST` (R181). -/
def faultFirstWord (r : TenantRec) : W32 := place 32 (bit 1 r.faultValid) 31 ||| place 32 r.faultCode 0

/-- Entries now in the tenant's queue and its weight (R76, R77). -/
def weightWord (r : TenantRec) : W32 := place 32 (BitVec.ofNat 10 r.queue.length) 16 ||| place 32 r.weight 0

/-- TW_PARKED_TARGETS: the tenant's parked targets (R160). -/
def State.parkedOf (s : State) (t : Tenant) : Nat := ((s.slotsOf t).filter fun x => (s.target x).parked).length

/-! ## GET_INFO (R205) -/

/-- Global blocks neither granted nor left out (R205, R359). -/
def State.freeBlocks (s : State) : Nat :=
  ((List.range 1024).filter fun g => (Sparse.get none s.ten.blocks g).isNone && !s.blockOut g).length

def infoPayload (s : State) (m : BitVec 7) : List Byte :=
  let zero2 : List Byte := [0, 0]
  let rev : List Byte := [Config.stepping, 0x02]
  let flags : Byte := place 8 (bit 1 s.hm.safeMin) 0 ||| place 8 (bit 1 s.mbx.fw.runSlot) 1
    ||| place 8 (bit 1 s.frame.tickLocked) 2
  let issuer : Byte := if (mbTenant m).isSome then m.setWidth 8 else 0x40
  bytesLE 2 0x0003 ++ rev ++ bytesLE 4 s.mbx.fw.version.toNat
    ++ [issuer, s.chipId.setWidth 8, s.chainMode.setWidth 8, flags]
    ++ bytesLE 2 s.frame.current.toNat ++ zero2
    ++ bytesLE 2 (match mbTenant m with
      | some t => (s.localBlocks t).toNat
      | none => s.freeBlocks) ++ zero2
    ++ bytesLE 4 (match mbTenant m with
      | some t => (rangeWord (s.tenant t).range).toNat
      | none => 0)
    ++ bytesLE 8 (if (mbTenant m).isSome then 0 else s.intake.base.toNat)

def execGetInfo (mb : BitVec 7) (s : State) : Host.Outcome State Fault Refusal :=
  .next <| runTaken s mb 0x01 (fun _ => true) (fun _ _ => [dCORE]) fun s _ => finish s mb (okReply (infoPayload s mb))

/-! ## TENANT_RESET (R178, R217) -/

/-- What the FM's reset does to the tenant's own command: none taken leaves it free; one rung and not taken is dropped;
a VECTOR_LOAD or RESYNC is stopped and its reply discarded; any other finishes first, its reply discarded. The Bool:
the reset can be accepted now. -/
def overtake (s : State) (t : Tenant) : State × Bool :=
  let m : BitVec 7 := t.setWidth 7
  let b := s.box m
  if !b.ring then (s, true)
  else if !b.taken then (s.setBox m { b with ring := false, lost := true }, true)
  else
    let op := match b.snap with
      | some c => c.opcode.toNat
      | none => 0
    (s.setBox m { b with discard := true }, op == 0x14 || op == 0x21)

/-- A tenant reset stops a taken VECTOR_LOAD or RESYNC that has not begun its work. -/
def stopTaken (s : State) (t : Tenant) : State :=
  let m : BitVec 7 := t.setWidth 7
  let b := s.box m
  if b.taken && b.discard && b.load.isNone && (s.tenant t).resync.isNone then
    leaveAgent (s.setBox m { b with
      ring := false, taken := false, snap := none, work := .idle, checked := false, discard := false }) t
  else s

/-- The reset is accepted whatever domains sleep; those that hold the tenant's state are brought to ON (R12). -/
def tenantReset (s : State) (m : BitVec 7) (c : Snap) : State :=
  match checkTenant m (snapField c 0x08 1) 0x08 with
  | .error r => finish s m r
  | .ok t =>
    let accept (s : State) : State :=
      match (s.tenant t).reset with
      | some q => if q.cleared then finish s m (resetDone q) else join s t
      | none => join s t
    if !(s.tenant t).bound then refuseCmd s m stDenied 0x08
    else if (s.tenant t).reset.isSome || m == t.setWidth 7 then accept s
    else
      let (s, now) := overtake s t
      if now then accept (stopTaken s t) else s
where
  /-- The reset begins, or the command waits with those of the running one; what sleeps is woken. -/
  join (s : State) (t : Tenant) : State :=
      let s := (acceptReset s t m).modBox m fun b => { b with work := .waiting }
      let quarter := match (s.tenant t).range with
        | some r => if s.quarterAway (quarterOf r.base.toNat) then [dTBL (quarterOf r.base.toNat)] else []
        | none => []
      (coreTgt ++ [dCTRL, dLOUPE] ++ quarter).foldl (wake .access) s

def execTenantReset (mb : BitVec 7) (s : State) : Host.Outcome State Fault Refusal :=
  .next <| runTaken s mb 0x20 (fun _ => true) (fun _ _ => []) fun s c => tenantReset s mb c

/-! ## RESYNC (R145, R218) -/

def resyncStart (s : State) (m : BitVec 7) (c : Snap) : State :=
  match checkTenant m (snapField c 0x08 1) 0x08 with
  | .error r => finish s m r
  | .ok t =>
    if !(s.tenant t).bound then refuseCmd s m stDenied 0x08
    else if s.resetting t then refuseCmd s m stBusyActive 0x08
    else if !s.bnd.linkUp.getLsbD (s.tenant t).port.toNat then refuseCmd s m stLinkDown 0x08
    else if (s.tenant t).resync.isSome then refuseCmd s m stNoResource 0x08
    else
      (s.modTenant t fun r => { r with resync := some ⟨m, none, [], 0, 0, 0⟩ }).modBox m
        fun b => { b with work := .waiting }

def execResync (mb : BitVec 7) (s : State) : Host.Outcome State Fault Refusal :=
  .next <| runTaken s mb 0x21 (fun _ => true) (fun _ _ => coreTgt) fun s c => resyncStart s mb c

/-! ## FAULT_READ and FAULT_CLEAR (R174, R219) -/

/-- Clears bits of the summary and, when asked, VALID of the first-fault record, as W1C writes of them do (R174); the
level follows the summary. -/
def clearFaults (s : State) (t : Tenant) (bits : BitVec 8) (first : Bool) : State :=
  let s := s.modTenant t fun r =>
    let r := { r with faultSummary := r.faultSummary &&& ~~~ bits }
    { r with faultValid := r.faultValid && !first }
  setLevel s (0x400 + t.toNat) ((s.tenant t).faultSummary != 0)

def faultPayload (r : TenantRec) : List Byte :=
  bytesLE 4 r.faultSummary.toNat ++ bytesLE 4 (faultFirstWord r).toNat ++ bytesLE 4 r.faultDetail.toNat
    ++ bytesLE 4 r.faultFrame.toNat ++ bytesLE 4 r.faultCount.toNat

def faultCommand (s : State) (m : BitVec 7) (c : Snap) (clear : Bool) : State :=
  match checkTenant m (snapField c 0x08 1) 0x08 with
  | .error r => finish s m r
  | .ok t =>
    if s.resetting t then refuseCmd s m stBusyActive 0x08
    else
      let out := faultPayload (s.tenant t)
      finish (if clear then clearFaults s t 0xFF true else s) m (okReply out)

def execFaultRead (mb : BitVec 7) (s : State) : Host.Outcome State Fault Refusal :=
  .next <| runTaken s mb 0x30 (fun _ => true) (fun _ _ => [dCORE]) fun s c => faultCommand s mb c false

def execFaultClear (mb : BitVec 7) (s : State) : Host.Outcome State Fault Refusal :=
  .next <| runTaken s mb 0x31 (fun _ => true) (fun _ _ => [dCORE]) fun s c => faultCommand s mb c true

/-! ## STATS_READ and TIME_READ (R220, R221) -/

def tenantStats (s : State) (t : Tenant) : List Nat :=
  let r := s.tenant t
  [r.discards.toNat, r.satFrames.toNat, r.strayCount.toNat, r.src.refused.toNat, r.faultCount.toNat,
    (weightWord r).toNat, s.parkedOf t, r.deliveries.toNat, r.completions.toNat, r.edges.toNat]

def chipStats (s : State) : List Nat :=
  [s.intake.discardCount.toNat, s.tgt.decisionCount.toNat, s.vec.lapsedCount.toNat, s.vec.satCount.toNat,
    s.tgt.strayTotal.toNat, s.tgt.parkEvents.toNat, s.tgt.reissues.toNat, s.tgt.passFullFrames.toNat,
    s.tgt.cplWaitFrames.toNat, s.frame.withdrawnCount.toNat, s.frame.overCount.toNat, s.tgt.dropCount.toNat,
    s.tgt.refillCount.toNat]

def statsReply (vals : List Nat) : Reply := okReply (vals.flatMap (bytesLE 4))

def statsRead (s : State) (m : BitVec 7) (c : Snap) : State :=
  let set := snapField c 0x09 1
  if 1 < set then refuseCmd s m stBadField 0x09
  else if set = 1 then
    if (mbTenant m).isSome then refuseCmd s m stDenied 0x09
    else if snapField c 0x08 1 ≠ 0 then refuseCmd s m stBadField 0x08
    else finish s m (statsReply (chipStats s))
  else match checkTenant m (snapField c 0x08 1) 0x08 with
    | .error r => finish s m r
    | .ok t =>
      if s.resetting t then refuseCmd s m stBusyActive 0x08
      else finish s m (statsReply (tenantStats s t))

def execStatsRead (mb : BitVec 7) (s : State) : Host.Outcome State Fault Refusal :=
  .next <| runTaken s mb 0x32 (fun _ => true) (fun _ _ => coreTgt) fun s c => statsRead s mb c

def execTimeRead (mb : BitVec 7) (s : State) : Host.Outcome State Fault Refusal :=
  .next <| runTaken s mb 0x33 (fun _ => true) (fun _ _ => [dCORE]) fun s _ => finish s mb (okReply (timePayload s))

/-! ## MPU_CONFIG (R224) -/

def mpuReply (u n : Nat) (r : Region) : Reply :=
  okReply ([BitVec.ofNat 8 u, BitVec.ofNat 8 n, 0, r.size.setWidth 8, (attrBits r).setWidth 8, r.tag.setWidth 8, 0, 0]
    ++ bytesLE 8 r.base.toNat)

def mpuConfig (s : State) (m : BitVec 7) (c : Snap) : State :=
  let u := snapField c 0x08 1
  let n := snapField c 0x09 1
  let op := snapField c 0x0A 1
  let size := snapField c 0x0B 1
  let tag := snapField c 0x0D 1
  let base := snapField c 0x10 8
  if 2 < u then refuseCmd s m stBadField 0x08
  else if 1 < op then refuseCmd s m stBadField 0x0A
  else if regionCount u ≤ n then refuseCmd s m stRange 0x09
  else if op = 1 ∧ u = 0 then refuseCmd s m stDenied 0x08
  else if op = 0 then
    withDomains s [mpuDomain u] (finish s m (mpuReply u n ((s.mpu u).region n)))
  else if 40 < size then refuseCmd s m stBadField 0x0B
  else if 6 ≤ size ∧ base % 2 ^ size ≠ 0 then refuseCmd s m stBadField 0x10
  else if 0x40 < tag then refuseCmd s m stBadField 0x0D
  else withDomains s [mpuDomain u] <|
    let unit := s.mpu u
    if s.protectedRegion (unit.region n) then refuseCmd s m stLocked 0x09
    else
      let r := regionAttr { base := BitVec.ofNat 40 (base / 64 * 64) } (BitVec.ofNat 6 size) (BitVec.ofNat 7 tag)
        ((snapByte c 0x0C).setWidth 5)
      finish (advanceLoads (s.setMpu u { unit.setRegion n r with enable := true })) m (mpuReply u n r)

def execMpuConfigRead (mb : BitVec 7) (s : State) : Host.Outcome State Fault Refusal :=
  .next <| runTaken s mb 0x50 (fun c => snapByte c 0x0A == 0) (fun _ _ => []) fun s c => mpuConfig s mb c

/-! ## REPAIR_STATUS and HALLMARK_READ (R227, R228) -/

/-- Spare rows shown for bank `b` of `MW_RAS_INJECT`: none for a bank left out (R359). -/
def State.sparesShown (s : State) (b : Nat) : Nat :=
  if s.bankOut b then 0 else s.sparesLeft b

def repairPayload (s : State) : List Byte :=
  let east := s.chain.eastPhy
  let west := s.chain.westPhy
  let lanes : Byte := place 8 (bit 1 (east.spareRx || east.spareTx)) 0 ||| place 8 (bit 1 (west.spareRx || west.spareTx)) 1
    ||| place 8 (bit 1 east.spareFailed) 2 ||| place 8 (bit 1 west.spareFailed) 3
  ((List.range 48).map fun b => BitVec.ofNat 8 (s.sparesShown b))
    ++ [s.tgt.retired.setWidth 8, lanes] ++ bytesLE 2 s.ras.retiredRows.toNat ++ bytesLE 4 s.ras.lifeDays.toNat

/-- REPAIR_STATUS reads CORE and, outside safe-minimum mode, the two Chain ports (R204). -/
def execRepairStatus (mb : BitVec 7) (s : State) : Host.Outcome State Fault Refusal :=
  .next <| runTaken s mb 0x60 (fun _ => true)
    (fun s _ => if s.hm.safeMin then [dCORE] else [dCORE, dCHE, dCHW]) fun s _ =>
      finish s mb (okReply (repairPayload s))

/-- The 32 bytes of a Hallmark record (R361). -/
def recordBytes (r : HmRecord) : List Byte :=
  bytesLE 4 r.startNo.toNat ++ [r.cause, r.mode, r.slot, 0] ++ ((List.range 10).map fun i => r.steps.getD i 0xF0)
    ++ bytesLE 2 r.tgtOut.toNat ++ [r.tblOut, r.lanesOut] ++ bytesLE 2 r.ignored.toNat
    ++ bytesLE 4 r.duration.toNat ++ bytesLE 4 r.powered.toNat

def hallmarkRead (s : State) (m : BitVec 7) (c : Snap) : State :=
  let n := snapField c 0x08 1
  if 7 < n then refuseCmd s m stRange 0x08
  else
    let (valid, bytes) := match s.hm.records[n]? with
      | some r => ((1 : Byte), recordBytes r)
      | none => (0, List.replicate 32 0)
    finish s m (okReply ([valid, BitVec.ofNat 8 s.hm.records.length, 0, 0] ++ bytes))

def execHallmarkRead (mb : BitVec 7) (s : State) : Host.Outcome State Fault Refusal :=
  .next <| runTaken s mb 0x61 (fun _ => true) (fun _ _ => []) fun s c => hallmarkRead s mb c

/-! ## DEBUG_CONSENT (R231) -/

def debugConsent (s : State) (m : BitVec 7) (c : Snap) : State :=
  let grant := snapField c 0x08 1
  let frames : W32 := BitVec.ofNat 32 (snapField c 0x0C 4)
  match mbTenant m with
  | none => s
  | some t =>
    if 1 < grant then refuseCmd s m stBadField 0x08
    else if grant = 1 then
      let left := if frames = 0 then none else some frames
      finish (s.modTenant t fun r => { r with consentNext := true, consentTaking := true, consentLeft := left }) m
        (okReply ([1, 0, 0, 0] ++ bytesLE 4 frames.toNat))
    else
      finish (s.modTenant t fun r => { r with consentNext := false, consentTaking := false, consentLeft := none }) m
        (okReply ([0, 0, 0, 0] ++ bytesLE 4 0))

def execDebugConsent (mb : BitVec 7) (s : State) : Host.Outcome State Fault Refusal :=
  .next <| runTaken s mb 0x72 (fun _ => true) (fun _ _ => [dCORE]) fun s c => debugConsent s mb c

end Sys2Proof.Machine
end

