-- ==== Sys2Proof/Machine/Bead.lean ====
section
/-! DEFINITION. The bead pins: rounds of the slot bus (R45, R71, R299 to R304), holds and wake inputs (R298, R305 to R307), and their commands (R223, R226). -/
namespace Sys2Proof.Machine

/-! ## Rounds -/

/-- Slot length S of a frame period (R45). -/
def slotCycles (f : Nat) : Nat := (f - 32) / 200

/-- A frame runs, and its round is quiet (R300). -/
def State.quietRound (s : State) : Bool :=
  let f := s.frame.current.toNat
  s.frame.running && decide (s.frame.count.toNat % 4096 < (2400 + f - 1) / f)

/-- Index of a wired input among the system sources (R68). -/
def wiredSrc (i : Nat) : Nat := 0x280 + i

/-- The level of a wired input, without an edge. -/
def setWired (s : State) (i : Nat) (b : Bool) : State :=
  s.setSys { s.sys with levels := Sparse.set false s.sys.levels (wiredSrc i) b }

/-- The sample of one wired input; a rise over the previous sample is an edge in the system table (R70, R71). -/
def sampleInput (wired : BitVec 96) (s : State) (i : Nat) : State :=
  let new := wired.getLsbD i
  let old := s.level (wiredSrc i) && !s.bead.fresh.getLsbD i
  let s := setWired s i new
  let s := if s.bead.fresh.getLsbD i then s.setBead { s.bead with fresh := putBit s.bead.fresh i false } else s
  if new && !old then (applyEdge s (sysSrc (wiredSrc i))).count 3 1 else s

/-- The inputs that a round samples: those of the enabled slots whose line is not held, ascending. -/
def BeadUnit.sampled (u : BeadUnit) : List Nat :=
  (List.range (16 * u.inputSlots.toNat)).filter fun i => !u.held.getLsbD (i % 16)

/-- The values that BEAD_CONFIG ordered come into force. Inputs that are no longer sampled read 0, and their next
sample compares against 0 (R226). -/
def adoptConfig (s : State) : State :=
  let n := s.bead.inputsNext
  let off := (List.range 96).filter fun i => 16 * n.toNat ≤ i
  let s := if n = s.bead.inputSlots then s else off.foldl (fun s i => setWired s i false) s
  s.setBead { s.bead with
    inputSlots := n, outputs := s.bead.outputsNext
    fresh := s.bead.fresh ||| (BitVec.allOnes 96 <<< (16 * n.toNat)) }

/-- Pads selected by PAD_RELEASE take their run role (R307). -/
def releasePads (u : BeadUnit) : BeadUnit :=
  { u with
    held := u.held &&& ~~~ u.releasing, releasing := 0
    syncHeld := u.syncHeld && !u.syncReleasing, syncReleasing := false }

/-- The board's latches after the output slots: every line that is not held is driven. -/
def BeadUnit.driven (u : BeadUnit) : W32 :=
  let lines : W32 := u.held ++ u.held
  (u.outputs &&& ~~~ lines) ||| (u.latched &&& lines)

/-- The slots of a round that is not quiet: the inputs are sampled, the outputs driven (R299). -/
def runRound (s : State) (wired : BitVec 96) : State :=
  let s := s.bead.sampled.foldl (sampleInput wired) s
  s.setBead { s.bead with latched := s.bead.driven }

/-- The bead round of a frame, while BEAD is ON (R299, R300). Ordered values come into force with the frame's round; while
BEAD_SYNC is held there is none, and they wait for the first one after its release (R226, R308). -/
def beadRound (s : State) (wired : BitVec 96) : State :=
  if !s.isOn dBEAD then s
  else if s.bead.syncHeld then
    if s.quietRound then s
    else
      let s := s.setBead (releasePads s.bead)
      if s.bead.syncHeld then s else runRound (adoptConfig s) wired
  else
    let s := adoptConfig s
    if s.quietRound then s else runRound (s.setBead (releasePads s.bead)) wired

/-! ## Holds -/

/-- Every pad is held, as BEAD leaves ON (R305). The wake filter starts from the last samples of inputs 0 to 3. -/
def holdPads (s : State) : State :=
  let last : BitVec 4 := packBits 4 ((List.range 4).map fun i => s.level (wiredSrc i))
  s.setBead { s.bead with
    held := BitVec.allOnes 16, syncHeld := true, releasing := 0, syncReleasing := false
    level := if s.bead.inputSlots = 0 then 0 else last }

/-- BEAD is ON again: the wake filter's level reads 0, and every first sample compares against 0 (R71, R309). -/
def beadReturns (s : State) : State :=
  s.setBead { s.bead with level := 0, fresh := BitVec.allOnes 96 }

/-! ## Wake inputs (R306) -/

/-- Locket receives BEAD[3:0]: BEAD is not ON, as before step 8 of a start from block reset; from cold reset the pads are
straps (R295). -/
def State.wakeInputs (s : State) : Bool :=
  !s.hm.powerOff && match s.hm.inReset with
    | some (_, cold) => !cold
    | none => !s.isOn dBEAD

/-- A rising edge on BEAD[j]. It is an arrival while slot 0 is enabled by the INPUT_SLOTS in force (R226). -/
def execBeadWakeEdge (j : BitVec 2) (s : State) : Host.Outcome State Fault Refusal :=
  .next <|
    if !s.wakeInputs then s
    else
      let s := s.setBead { s.bead with
        wakeEdge := putBit s.bead.wakeEdge j.toNat true, level := putBit s.bead.level j.toNat true }
      if s.bead.inputSlots = 0 then s
      else raiseSource (setWired s j.toNat true) (wiredSrc j.toNat)

/-- A fall of BEAD[j]: the levels follow, and no edge is raised. -/
def execWakeInputFall (j : BitVec 2) (s : State) : Host.Outcome State Fault Refusal :=
  .next <|
    if !s.wakeInputs then s
    else
      let s := s.setBead { s.bead with level := putBit s.bead.level j.toNat false }
      if s.bead.inputSlots = 0 then s else setWired s j.toNat false

/-! ## Commands -/

/-- PAD_RELEASE (R223). -/
def padRelease (s : State) (m : BitVec 7) (c : Snap) : State :=
  let mask : BitVec 16 := BitVec.ofNat 16 (snapField c 0x08 2)
  let sync := (snapByte c 0x0A).getLsbD 0
  if !s.isOn dBEAD then refuseCmd s m stBusyActive 0x08
  else
    let u := s.bead
    let u := { u with
      releasing := u.releasing ||| (mask &&& u.held), syncReleasing := u.syncReleasing || (sync && u.syncHeld) }
    finish (s.setBead u) m (okReply (bytesLE 2 (u.held &&& ~~~ u.releasing).toNat
      ++ [bit 8 (u.syncHeld && !u.syncReleasing), 0]))

def execPadRelease (mb : BitVec 7) (s : State) : Host.Outcome State Fault Refusal :=
  .next <| runTaken s mb 0x41 (fun _ => true) (fun _ _ => []) fun s c => padRelease s mb c

/-- BEAD_CONFIG (R226). -/
def beadConfig (s : State) (m : BitVec 7) (c : Snap) : State :=
  let flags := snapByte c 0x08
  let n := snapField c 0x09 1
  let value : W32 := BitVec.ofNat 32 (snapField c 0x0C 4)
  let mask : W32 := BitVec.ofNat 32 (snapField c 0x10 4)
  if flags.getLsbD 0 && decide (6 < n) then refuseCmd s m stBadField 0x09
  else
    let u := s.bead
    let u := if flags.getLsbD 0 then { u with inputsNext := BitVec.ofNat 3 n } else u
    let u := if flags.getLsbD 1 then { u with outputsNext := (u.outputsNext &&& ~~~ mask) ||| (value &&& mask) } else u
    finish (s.setBead u) m (okReply ([u.inputSlots.setWidth 8, 0, 0, 0] ++ bytesLE 4 u.outputs.toNat))

/-- BEAD_CONFIG with SET_INPUTS, or with no flag. -/
def execSetInputs (mb : BitVec 7) (s : State) : Host.Outcome State Fault Refusal :=
  .next <| runTaken s mb 0x52 (fun c => snapByte c 0x08 != 2) (fun _ _ => []) fun s c => beadConfig s mb c

/-- BEAD_CONFIG with SET_OUTPUTS. -/
def execSetOutputs (mb : BitVec 7) (s : State) : Host.Outcome State Fault Refusal :=
  .next <| runTaken s mb 0x52 (fun c => (snapByte c 0x08).getLsbD 1) (fun _ _ => []) fun s c => beadConfig s mb c

end Sys2Proof.Machine
end

