-- ==== Sys2Proof/Machine/Symbols.lean ====
section
/-! DEFINITION. Symbols of the Chain: the map of bit pairs, the precoder and the decoder (R251), and the blocks that a port sends and receives on its lanes (R250, R254, R256). -/
namespace Sys2Proof.Machine

/-! ## One lane (R251) -/

/-- The value g of the two bits of a symbol, bit 2i+1 first: 00, 01, 11 and 10 give 0, 1, 2 and 3. -/
def pairValue (b : BitVec 2) : BitVec 2 := b ^^^ (b >>> 1)

/-- The two bits of a value g. -/
def valuePair (g : BitVec 2) : BitVec 2 := g ^^^ (g >>> 1)

/-- The symbol that the precoder sends for `g` after `p`, as its value p_i. -/
def precodeOne (p g : BitVec 2) : BitVec 2 := g - p

/-- The value that the decoder reads from symbol `x` after symbol `p`. -/
def decodeOne (p x : BitVec 2) : BitVec 2 := x + p

/-- The level of a symbol: -3, -1, +1 or +3. -/
def symbolLevel (p : BitVec 2) : Int := 2 * (p.toNat : Int) - 3

/-- The precoder over symbols 0 to n - 1 of a block: the symbols sent, 2 bits each, and p after them. -/
def precodeTo (p : BitVec 2) (b : BitVec 128) : Nat → BitVec 128 × BitVec 2
  | 0 => (0, p)
  | n + 1 =>
    let (w, q) := precodeTo p b n
    let x := precodeOne q (pairValue (field b (2 * n) 2))
    (w ||| place 128 x (2 * n), x)

/-- The decoder over symbols 0 to n - 1: the bits received, and p after them. -/
def decodeTo (p : BitVec 2) (w : BitVec 128) : Nat → BitVec 128 × BitVec 2
  | 0 => (0, p)
  | n + 1 =>
    let (b, q) := decodeTo p w n
    let x : BitVec 2 := field w (2 * n) 2
    (b ||| place 128 (valuePair (decodeOne q x)) (2 * n), x)

/-- A block as it leaves the precoder, and p after it. -/
def precodeBlock (p : BitVec 2) (b : BitVec 128) : BitVec 128 × BitVec 2 := precodeTo p b 64

/-- A block as the decoder reads it, and p after it. -/
def decodeBlock (p : BitVec 2) (w : BitVec 128) : BitVec 128 × BitVec 2 := decodeTo p w 64

/-- p of lane `l` of a port's three. -/
def laneCode (c : BitVec 6) (l : Nat) : BitVec 2 := field c (2 * l) 2
def setLaneCode (c : BitVec 6) (l : Nat) (p : BitVec 2) : BitVec 6 :=
  (c &&& ~~~ place 6 (3 : BitVec 2) (2 * l)) ||| place 6 p (2 * l)

/-! ## The lanes of a port -/

/-- What the transmitters of a port send, by its state (R255): nothing on a disabled port, a PAM2 clock, PRBS31, training
sets, markers and flits. A port in DOWN sends what R255 does not say. -/
inductive TxPattern where
  | electricalIdle | clock | prbs31 | trainingSets | blocks | unstated
  deriving DecidableEq, Repr

def txPattern : PhyState → TxPattern
  | .disabled => .electricalIdle
  | .detect => .clock
  | .cdrLock => .clock
  | .pam4Check => .prbs31
  | .laneMap => .trainingSets
  | .deskew => .blocks
  | .linkInit => .blocks
  | .up => .blocks
  | .sparing => .blocks
  | .lockLost => .blocks
  | .down => .unstated

/-- The blocks of one cycle leave through the precoders of lanes 0, 1 and 2. -/
def sendBlocks (u : PhyPort) (blocks : Nat → BitVec 128) : PhyPort :=
  let out (l : Nat) := precodeBlock (laneCode u.txCode l) (blocks l)
  { u with
    txCode := (List.range 3).foldl (fun c l => setLaneCode c l (out l).2) u.txCode
    sent := (List.range 3).map fun l => (out l).1 }

/-- A block that lane `l` has received leaves its decoder at the last symbol of the block. -/
def takeBlock (u : PhyPort) (l : Nat) (b : BitVec 128) : PhyPort :=
  { u with rxCode := setLaneCode u.rxCode l (precodeBlock (laneCode u.rxCode l) b).2 }

/-- The lane in the spare's role, and the two data lanes: strap 3 exchanges lanes 1 and 2 (R255, R256). -/
def spareLane (mode : BitVec 2) : Nat := if mode = 3 then 1 else 2
def dataLane (mode : BitVec 2) (k : Nat) : Nat := if k = 0 then 0 else if mode = 3 then 2 else 1

/-- The data lane, 0 or 1, that physical lane `l` carries, given the lanes that carry data: its own, or on the spare the one
that is missing. -/
def carriedBy (mode : BitVec 2) (lanes : BitVec 3) (l : Nat) : Option Nat :=
  if !lanes.getLsbD l then none
  else if l = spareLane mode then some (if lanes.getLsbD (dataLane mode 0) then 1 else 0)
  else some (if l = 0 then 0 else 1)

/-- The half of a word that data lane `k` carries: [127:0] on data lane 0 (log entry 58). -/
def wordHalf (f : Flit) (k : Nat) : BitVec 128 := field f (128 * k) 128

/-- A word leaves on the lanes that carry data; the third lane sends PRBS31 (R254). -/
def sendWord (mode : BitVec 2) (idle : BitVec 128) (u : PhyPort) (f : Flit) : PhyPort :=
  sendBlocks u fun l => match carriedBy mode u.txLanes l with
    | some k => wordHalf f k
    | none => idle

/-- A word has been received on the lanes that carry data. -/
def takeWord (mode : BitVec 2) (u : PhyPort) (f : Flit) : PhyPort :=
  (List.range 3).foldl (fun u l => match carriedBy mode u.rxLanes l with
    | some k => takeBlock u l (wordHalf f k)
    | none => u) u

/-- A training set of this end (R256). -/
def packSet (chip : Chip) (west : Bool) (mode : BitVec 2) (good chosen : BitVec 3) (valid ack : Bool) : BitVec 128 :=
  let mid : W32 := place 32 chip 0 ||| place 32 (bit 1 west) 4 ||| place 32 mode 5 ||| place 32 good 8
    ||| place 32 chosen 11 ||| place 32 (bit 1 valid) 14 ||| place 32 (bit 1 ack) 15
  (~~~ mid) ++ mid ++ (0x3C5A96F0C3A5690F : W64)

/-- The SPARE code that the next markers carry: an acknowledgement first, then the request (R258, log entry 28). -/
def spareCode (u : PhyPort) : Nat :=
  match u.spareAck, u.spareReq with
  | some k, _ => 3 + k.toNat
  | none, some k => 1 + k.toNat
  | none, none => 0

/-- The marker block of lane `l` (R254). -/
def packMarker (u : PhyPort) (l : Nat) : BitVec 128 :=
  let mid : W32 := place 32 (BitVec.ofNat 8 l) 0 ||| place 32 (BitVec.ofNat 4 (spareCode u)) 12
    ||| place 32 u.mcountTx 16
  (~~~ mid) ++ mid ++ (0xA5C30F965A3CF069 : W64)

/-- The swap that this end acknowledges takes place at the marker that says so (R258): lane `k`'s data leave on the
spare. -/
def swapLane (mode : BitVec 2) (u : PhyPort) : PhyPort :=
  match u.spareAck with
  | some k => { u with
      txLanes := putBit (putBit u.txLanes (dataLane mode k.toNat) false) (spareLane mode) true
      spareTx := true, sparedLane := k }
  | none => u

/-- The marker cycle of a port: a marker on every lane, MCOUNT one further. -/
def sendMarkers (mode : BitVec 2) (u : PhyPort) : PhyPort :=
  let u := swapLane mode u
  { sendBlocks u (packMarker u) with mcountTx := u.mcountTx + 1, spareAck := none }

end Sys2Proof.Machine
end

