-- ==== Sys2Proof/Machine/ChainPhy.lean ====
section
/-! DEFINITION. The physical layer of the Chain: link-down declarations (R278), training (R253 to R256), lock and sparing (R257, R258), the bypass retimer (R259), and CHAIN_CONFIG (R225). -/
namespace Sys2Proof.Machine

/-- The domain of a port. -/
def portDomain : PortId → Nat
  | .east => dCHE
  | .west => dCHW

/-- The Chain mode strap lets a port train (R255). -/
def State.portAllowed (s : State) (p : PortId) : Bool :=
  match p with
  | .east => s.chainMode != 0
  | .west => 2 ≤ s.chainMode.toNat

/-! ## Lanes (R256) -/

/-- The data lane, 0 or 1, that a physical lane carries by default; none for the spare. -/
def laneRole (mode : BitVec 2) (l : Nat) : Option Nat :=
  if l = 0 then some 0 else if l = dataLane mode 1 then some 1 else none

/-- The lanes on which data is sent, given the lanes that the peer reports as good. -/
def chooseLanes (mode : BitVec 2) (good : BitVec 3) : Option (BitVec 3) :=
  let has (l : Nat) : Bool := good.getLsbD l
  let d0 := dataLane mode 0
  let d1 := dataLane mode 1
  let sp := spareLane mode
  let two (a b : Nat) : BitVec 3 := BitVec.twoPow 3 a ||| BitVec.twoPow 3 b
  if has d0 && has d1 then some (two d0 d1)
  else if has sp && has d0 then some (two d0 sp)
  else if has sp && has d1 then some (two d1 sp)
  else none

def countLanes (l : BitVec 3) : Nat := ((List.range 3).filter fun i => l.getLsbD i).length

/-! ## Link-down declaration (R278) -/

/-- The condition source of a port's link-down level, and the event source of its arrival at UP (R69). -/
def downSource : PortId → Nat
  | .east => 0x270
  | .west => 0x272
def upSource : PortId → Nat
  | .east => 0x271
  | .west => 0x273

/-- The EDGE flits held for a port, oldest first: those in the replay buffer, in transit, and of this chip. -/
def heldEdges (l : LinkPort) : List TransitFlit :=
  (l.replayBuf.map fun e => ⟨none, e.2⟩) ++ l.transit ++ l.own.map fun d => ⟨none, d⟩

/-- The flits of other classes that hold a receive buffer of the surviving port: discarded, and their credits freed. -/
def dropControl (s : State) (p : PortId) (held : List TransitFlit) : State :=
  held.foldl (fun s t => match t.arrived with
    | some q => if t.flit.cls ≠ 0 ∧ q ≠ p then freeCredits s q t.flit else s
    | none => s) s

/-- One held EDGE flit: collected for the other port, or stranded at reroute. -/
def rerouteOne (p : PortId) (acc : State × List TransitFlit) (t : TransitFlit) : State × List TransitFlit :=
  let (s, moved) := acc
  let o := opposite p
  if s.dist o t.flit.dst ≠ 0 then
    let l := s.linkPort p
    (s.setLinkPort p { l with reroutes := satInc l.reroutes, rerouted := true },
      moved ++ [{ t with arrived := if t.arrived = some p then none else t.arrived }])
  else
    let s := strand s t.flit
    let s := s.setLinkPort p { s.linkPort p with stranded := true }
    (match t.arrived with
      | some q => if q = p then s else freeCredits s q t.flit
      | none => s, moved)

/-- The port declares its link down: its table is cleared, held EDGE flits move to the other port ahead of the rest or
are stranded, other flits are discarded, and cumulative ACK and ALLOW values are sent again. -/
def declareDown (s : State) (p : PortId) : State :=
  let l := s.linkPort p
  let held := heldEdges l
  let s := s.setLinkPort p { l with
    replayBuf := [], replayLeft := 0, transit := [], own := [], ticks := [], echoDue := []
    nakDue := false, linkDue := false }
  let o := opposite p
  let s := s.setLinkPort o { s.linkPort o with
    transit := (s.linkPort o).transit.map fun t => { t with arrived := if t.arrived = some p then none else t.arrived } }
  let s := dropControl (setDist s p 0) p held
  let (s, moved) := (held.filter fun t => t.flit.cls == 0).foldl (rerouteOne p) (s, [])
  let s := s.setLinkPort o { s.linkPort o with transit := moved ++ (s.linkPort o).transit }
  let s := s.setChain { s.chain with resendCtrl := true }
  setLevel s (downSource p) true

/-- The declaration of an event that takes a port out of its link states at once (R255). -/
def declareIfUp (s : State) (p : PortId) : State := if s.linkUp p then declareDown s p else s

/-! ## The bypass retimer (R259) -/

/-- The retimer runs while the strap is on and both ports are DISABLED. -/
def refreshRetimer (s : State) : State :=
  let on := s.chainMode != 0 && s.chain.eastPhy.state == .disabled && s.chain.westPhy.state == .disabled
  s.setChain { s.chain with
    retimerOn := on, retimerUsed := s.chain.retimerUsed || (on && !s.chain.retimerOn) }

/-! ## Transitions of R255 -/

/-- What a new training starts from: events and counters stay. -/
def freshTraining (u : PhyPort) (st : PhyState) : PhyPort :=
  { u with
    state := st, spareFailed := false, spareRx := false, spareTx := false, sparedLane := 0, locked := 0
    rxLanes := 0, txLanes := 0, signal := 0, good := 0, chosenValid := false, acks := 0, acksSent := 0, markers := []
    misses := [], mcounts := [], spareReq := none, spareAck := none, downTicks := 0, txCode := 0, rxCode := 0
    sent := [], cycle := 0 }

/-- Entry to DETECT; the retimer disengages first. The configured codes of this moment serve the training (R225). -/
def enterDetect (s : State) (p : PortId) : State :=
  let s := declareIfUp s p
  refreshRetimer (s.setPhy p { freshTraining (s.phy p) .detect with
    markedBad := 0, trainCtle := (s.portCfg p).ctle })

/-- Entry to DISABLED. -/
def enterDisabled (s : State) (p : PortId) : State :=
  let s := declareIfUp s p
  refreshRetimer (s.setPhy p (freshTraining (s.phy p) .disabled))

/-- A failure of LANE_MAP or DESKEW. -/
def trainFail (s : State) (p : PortId) : State :=
  enterDetect (s.setPhy p { s.phy p with trainFail := true }) p

/-- Entry to LOCK_LOST, from its first tick the port counts (R257). -/
def enterLockLost (s : State) (p : PortId) : State :=
  let u := s.phy p
  s.setPhy p { u with
    state := .lockLost, lockLostEv := true, lockLosses := satInc u.lockLosses, downTicks := 0, spareReq := none
    markers := [], mcounts := [] }

/-- Entry to DOWN: the link is declared down. -/
def enterDown (s : State) (p : PortId) : State :=
  let s := declareDown s p
  s.setPhy p { s.phy p with state := .down, downTicks := 0 }

/-- Arrival at UP. -/
def enterUp (s : State) (p : PortId) : State :=
  let u := s.phy p
  setLevel (s.setPhy p { u with state := .up, ups := satInc u.ups, downTicks := 0 }) (downSource p) false

/-- Every lane that carries data in either direction. -/
def inUse (u : PhyPort) : BitVec 3 := u.rxLanes ||| u.txLanes

/-- A port acts on an event only while its domain is ON and it stands in a given state. -/
def atState (s : State) (p : PortId) (st : PhyState) (k : State) : State :=
  if s.isOn (portDomain p) && (s.phy p).state == st then k else s

/-! ## Training events -/

def execSignalDetect (port : PortId) (lanes : BitVec 3) (s : State) : Host.Outcome State Fault Refusal :=
  .next <| atState s port .detect <|
    if 2 ≤ countLanes lanes then
      s.setPhy port { s.phy port with state := .cdrLock, signal := lanes }
    else s

def execDetectTimeout (port : PortId) (s : State) : Host.Outcome State Fault Refusal :=
  .next <| atState s port .detect <|
    s.setPhy port { s.phy port with attempts := satInc (s.phy port).attempts }

def execCdrLock (port : PortId) (lanes : BitVec 3) (s : State) : Host.Outcome State Fault Refusal :=
  .next <| atState s port .cdrLock <|
    let u := s.phy port
    if u.signal &&& ~~~ lanes = 0 then
      s.setPhy port { u with
        state := .pam4Check, locked := u.signal, markedBad := u.markedBad ||| ~~~ u.signal, txCode := 0, rxCode := 0 }
    else s

def execCdrLockTimeout (port : PortId) (s : State) : Host.Outcome State Fault Refusal :=
  .next <| atState s port .cdrLock (enterDetect s port)

/-- The codes that training tries on a lane of configured code `c` (R253). -/
def ctleTries (c : Nat) : List Nat := [c, min (c + 6) 15, c - 6]

/-- The first code of a lane that passes with at most 4 symbol errors. -/
def passingCode (c : Nat) (errors : List Nat) : Option Nat :=
  (((ctleTries c).zip errors).find? fun p => decide (p.2 ≤ 4)).map (·.1)

/-- The outcome of PAM4_CHECK on each lane with signal: the lanes that pass, and the codes in force (0 for a lane without
one, log entry 27). -/
def checkLanes (signal : BitVec 3) (cfg : BitVec 12) (errors : List (List Nat)) : BitVec 3 × BitVec 12 :=
  (List.range 3).foldl (fun acc l =>
    let code := if signal.getLsbD l then
        passingCode (field cfg (4 * l) 4 : BitVec 4).toNat (errors.getD l [])
      else none
    match code with
    | some c => (acc.1 ||| BitVec.twoPow 3 l, acc.2 ||| place 12 (BitVec.ofNat 4 c) (4 * l))
    | none => acc) (0, 0)

/-- What PAM4_CHECK leaves of a port: lanes marked bad are not good (R357). -/
def checkedPort (u : PhyPort) (errors : List (List Nat)) : PhyPort :=
  let (pass, codes) := checkLanes u.signal u.trainCtle errors
  { u with good := pass &&& ~~~ u.markedBad, failed := u.signal &&& ~~~ pass, inForce := codes }

def execPam4Check (port : PortId) (errors : List (List Nat)) (s : State) : Host.Outcome State Fault Refusal :=
  .next <| atState s port .pam4Check <|
    let phase := Config.checkPhase s.ras.freeReads
    let s := s.setRas { s.ras with freeReads := s.ras.freeReads + 1 }
    s.setPhy port { checkedPort (s.phy port) errors with
      state := .laneMap, txCode := field phase 0 6, rxCode := field phase 6 6 }

/-- A block of R256 with its pattern, its check field and its reserved bits. -/
def trainingSetOk (b : BitVec 128) : Bool :=
  field b 0 64 == (0x3C5A96F0C3A5690F : W64) && field b 96 32 == ~~~ (field b 64 32 : W32)
    && (field b 80 16 : BitVec 16) == 0 && !b.getLsbD 71

/-- The lanes in use that carry data on the spare, as `CHN_PHY_STATE` shows them (R264). -/
def showSpare (mode : BitVec 2) (u : PhyPort) : PhyPort :=
  let sp := spareLane mode
  let lane := (carriedBy mode u.rxLanes sp).or (carriedBy mode u.txLanes sp)
  { u with
    spareRx := u.rxLanes.getLsbD sp, spareTx := u.txLanes.getLsbD sp, sparedLane := BitVec.ofNat 2 (lane.getD 0) }

/-- The set that this end sends in LANE_MAP. -/
def State.ownSet (s : State) (p : PortId) (ack : Bool) : BitVec 128 :=
  let u := s.phy p
  packSet s.chipId (p == .west) s.chainMode u.good u.txLanes u.chosenValid ack

/-- The cycle of a received set: every lane with signal has received it, and this end sends its own. -/
def exchangeSets (s : State) (p : PortId) (b : BitVec 128) (ack : Bool) : State :=
  let u := s.phy p
  let u := (List.range 3).foldl (fun u l => if u.signal.getLsbD l then takeBlock u l b else u) u
  s.setPhy p { sendBlocks u (fun _ => s.ownSet p ack) with acksSent := if ack then u.acksSent + 1 else 0 }

/-- The peer's set agrees with this end's (R255, R256): its final choice is two lanes that this end received well, and both
ends give lane 2 the same role (log entry 27). -/
def setAgrees (mode : BitVec 2) (u : PhyPort) (b : BitVec 128) : Bool :=
  let chosen : BitVec 3 := field b 75 3
  b.getLsbD 78 && countLanes chosen == 2 && (chosen &&& ~~~ u.good) == 0
    && ((field b 69 2 : BitVec 2) == 3) == (mode == 3)

/-- A training set in LANE_MAP (R255, R256). -/
def trainingSet (s : State) (p : PortId) (b : BitVec 128) : State :=
  let chip : Chip := field b 64 4
  let s := s.setPhy p { s.phy p with peerChip := chip }
  let u := s.phy p
  let west := b.getLsbD 68
  if west == (p == .west) then trainFail (s.setPhy p { u with wiring := true }) p
  else if chip = s.chipId then trainFail (s.setPhy p { u with idClash := true }) p
  else match chooseLanes s.chainMode (field b 72 3) with
    | none => trainFail s p
    | some tx =>
      if countLanes u.good < 2 then trainFail s p
      else
        let agree := setAgrees s.chainMode u b
        let s := s.setPhy p { u with
          chosenValid := true, txLanes := tx, rxLanes := if agree then field b 75 3 else u.rxLanes
          acks := if agree && b.getLsbD 79 then u.acks + 1 else 0 }
        let s := exchangeSets s p b agree
        let u := s.phy p
        if 8 ≤ u.acks ∧ 8 ≤ u.acksSent then
          s.setPhy p { showSpare s.chainMode u with state := .deskew, markers := [], mcounts := [], cycle := 0 }
        else s

def execTrainingSetReceive (port : PortId) (set : BitVec 128) (s : State) : Host.Outcome State Fault Refusal :=
  .next <| atState s port .laneMap <|
    if trainingSetOk set then trainingSet s port set
    else s.setPhy port { s.phy port with acks := 0 }

/-! ## Lock and sparing (R257, R258) -/

/-- The standing spare of the receive direction: in the spare's role, received well in training, locked, and carrying no
data. -/
def standingSpare (mode : BitVec 2) (u : PhyPort) : Bool :=
  let sp := spareLane mode
  u.locked.getLsbD sp && u.good.getLsbD sp && !u.rxLanes.getLsbD sp

/-- A lane loses symbol lock. -/
def loseLane (s : State) (p : PortId) (lane : Nat) : State :=
  let mode := s.chainMode
  let u := s.phy p
  let had := u.locked.getLsbD lane
  let lost := { u with
    locked := putBit u.locked lane false, laneLost := true
    markers := Sparse.set 0 u.markers lane 0, misses := Sparse.set 0 u.misses lane 0 }
  let s' := s.setPhy p lost
  if !had then s
  else if u.rxLanes.getLsbD lane then
    match u.state with
    | .up =>
      match laneRole mode lane, standingSpare mode u with
      | some k, true => s'.setPhy p { lost with state := .sparing, spareReq := some (BitVec.ofNat 2 k) }
      | _, _ => enterLockLost s' p
    | .sparing => enterLockLost s' p
    | _ => s'
  else if lane = spareLane mode ∧ s.linkUp p then s'.setPhy p { lost with spareFailed := true }
  else s'

def execLaneLockLoss (port : PortId) (lane : BitVec 2) (s : State) : Host.Outcome State Fault Refusal :=
  .next <|
    if s.isOn (portDomain port) && decide (lane.toNat < 3) then loseLane s port lane.toNat else s

def execSparingTimeout (port : PortId) (s : State) : Host.Outcome State Fault Refusal :=
  .next <| atState s port .sparing (enterLockLost s port)

/-- A request to swap data lane `k`: the next marker of this end makes the swap and acknowledges it, unless its spare
already carries the other lane's data. -/
def takeRequest (mode : BitVec 2) (u : PhyPort) (k : Nat) : PhyPort :=
  match carriedBy mode u.txLanes (spareLane mode) with
  | some j => if j = k then { u with spareAck := some (BitVec.ofNat 2 k) } else u
  | none => { u with spareAck := some (BitVec.ofNat 2 k) }

/-- The acknowledgement of this end's request completes the swap. -/
def takeAck (s : State) (p : PortId) (k : Nat) : State :=
  let mode := s.chainMode
  let u := s.phy p
  if u.state == .sparing && u.spareReq == some (BitVec.ofNat 2 k) then
    let s := s.setPhy p { u with
      rxLanes := putBit (putBit u.rxLanes (dataLane mode k) false) (spareLane mode) true
      spareRx := true, sparedLane := BitVec.ofNat 2 k, spareReq := none, spared := true }
    raiseSource (enterUp s p) 0x274
  else s

/-- A valid marker of R254 on a lane. A reserved SPARE code makes the block invalid (log entry 28). -/
def markerOk (lane : Nat) (b : BitVec 128) : Bool :=
  field b 0 64 == (0xA5C30F965A3CF069 : W64) && field b 96 32 == ~~~ (field b 64 32 : W32)
    && (field b 72 4 : BitVec 4) == 0 && (field b 64 8 : Byte).toNat == lane
    && decide ((field b 76 4 : BitVec 4).toNat ≤ 4)

/-- Two consecutive valid markers, aligned, stand on every lane in use. -/
def aligned (u : PhyPort) (m : Nat) : Bool :=
  (List.range 3).all fun l => !u.rxLanes.getLsbD l
    || (decide (2 ≤ Sparse.get 0 u.markers l) && Sparse.get 0 u.mcounts l == m)

/-- The marks of a valid marker on its lane: consecutive ones have MCOUNT rising by 1. A lane in use regains its lock by two
of them (R257); a lost lane out of use returns only at the next training (R258). -/
def noteMarker (u : PhyPort) (lane m : Nat) : PhyPort :=
  let n := Sparse.get 0 u.markers lane
  let n := if n ≠ 0 ∧ (Sparse.get 0 u.mcounts lane + 1) % 65536 = m then n + 1 else 1
  { u with
    markers := Sparse.set 0 u.markers lane n, mcounts := Sparse.set 0 u.mcounts lane m
    misses := Sparse.set 0 u.misses lane 0
    locked := if 2 ≤ n ∧ u.rxLanes.getLsbD lane then putBit u.locked lane true else u.locked }

/-- What a marker's SPARE field asks. -/
def markerSpare (s : State) (p : PortId) (code : Nat) : State :=
  if code = 1 ∨ code = 2 then s.setPhy p (takeRequest s.chainMode (s.phy p) (code - 1))
  else if code = 3 ∨ code = 4 then takeAck s p (code - 3)
  else s

/-- A valid marker, by the state of the port. -/
def validMarker (s : State) (p : PortId) (lane : Nat) (b : BitVec 128) : State :=
  let m := (field b 80 16 : BitVec 16).toNat
  let u := noteMarker (s.phy p) lane m
  let s := s.setPhy p u
  let code := (field b 76 4 : BitVec 4).toNat
  match u.state with
  | .deskew => if aligned u m then
      (s.setPhy p { u with state := .linkInit }).setLinkPort p { s.linkPort p with
        initSeen := false, echoes := 0, bestDelay := none, echoDue := [], initWait := 0 }
    else s
  | .lockLost => if aligned u m then enterUp s p else markerSpare s p code
  | .up => markerSpare s p code
  | .sparing => markerSpare s p code
  | _ => s

/-- A block that is no valid marker where one is expected: the second in a row costs the lane its lock. -/
def missedMarker (s : State) (p : PortId) (lane : Nat) : State :=
  let u := s.phy p
  let n := Sparse.get 0 u.misses lane + 1
  let s := s.setPhy p { u with markers := Sparse.set 0 u.markers lane 0, misses := Sparse.set 0 u.misses lane n }
  if 2 ≤ n then loseLane s p lane else s

/-- The port is in a state that receives markers (R254). -/
def State.takesMarkers (s : State) (p : PortId) : Bool :=
  s.isOn (portDomain p) && match (s.phy p).state with
    | .deskew => true
    | .linkInit => true
    | .up => true
    | .sparing => true
    | .lockLost => true
    | _ => false

def execMarkerBlock (port : PortId) (lane : BitVec 2) (block : BitVec 128) (s : State) :
    Host.Outcome State Fault Refusal :=
  .next <|
    if s.takesMarkers port && decide (lane.toNat < 3) then
      let s := s.setPhy port (takeBlock (s.phy port) lane.toNat block)
      if markerOk lane.toNat block then validMarker s port lane.toNat block else missedMarker s port lane.toNat
    else s

def execDeskewTimeout (port : PortId) (s : State) : Host.Outcome State Fault Refusal :=
  .next <| atState s port .deskew (trainFail s port)

/-! ## Down (R255, R257) -/

/-- One tick in LOCK_LOST, against the LINK_DOWN_TIME in force. -/
def tickLockLost (s : State) (p : PortId) : State :=
  let c := s.portCfg p
  let s := s.setPortCfg p { c with ldt := c.ldtNext }
  if (s.phy p).state = .lockLost then
    let n := (s.phy p).downTicks + 1
    let s := s.setPhy p { s.phy p with downTicks := n }
    if c.ldtNext.toNat ≤ n then enterDown s p else s
  else s

/-- The declaration of the coming tick, made ahead of its other work. -/
def execLinkDown (port : PortId) (s : State) : Host.Outcome State Fault Refusal :=
  .next <| atState s port .lockLost <|
    if (s.portCfg port).ldtNext.toNat ≤ (s.phy port).downTicks + 1 then enterDown s port else s

def execDownRetry (port : PortId) (s : State) : Host.Outcome State Fault Refusal :=
  .next <| atState s port .down (enterDetect s port)

/-! ## CHAIN_CONFIG (R225) -/

/-- The port code of R225. -/
def chainStateCode : PhyState → Byte
  | .disabled => 0
  | .detect => 1
  | .cdrLock => 1
  | .pam4Check => 1
  | .laneMap => 1
  | .deskew => 1
  | .linkInit => 1
  | .up => 2
  | .sparing => 2
  | .lockLost => 2
  | .down => 3

def chainReply (s : State) (p : PortId) : Reply :=
  okReply ([chainStateCode (s.phy p).state, (inUse (s.phy p)).setWidth 8, (s.portCfg p).ldt, 0]
    ++ bytesLE 2 s.liveMembers.toNat ++ [0, 0])

/-- The refusals of R225, in order. -/
def chainCheck (s : State) (c : Snap) : Option (Byte × Nat) :=
  let port := snapField c 0x08 1
  let flags := snapByte c 0x09
  let codes := [snapByte c 0x0C, snapByte c 0x0D, snapByte c 0x0E]
  if 1 < port then some (stBadField, 0x08)
  else if s.chainMode = 0 ∨ (port = 1 ∧ s.chainMode = 1) then some (stLinkDown, 0x08)
  else if flags.getLsbD 3 && (flags.getLsbD 4 || flags.getLsbD 2) then some (stBadField, 0x09)
  else if flags.getLsbD 0 && snapByte c 0x0A == 0 then some (stBadField, 0x0A)
  else if flags.getLsbD 1 && codes.any (fun b => decide (15 < b.toNat)) then some (stBadField, 0x0C)
  else none

/-- The actions of the flags on a port. -/
def chainActions (s : State) (p : PortId) (c : Snap) : State :=
  let flags := snapByte c 0x09
  let s := if flags.getLsbD 0 then s.setPortCfg p { s.portCfg p with ldtNext := snapByte c 0x0A } else s
  let s := if flags.getLsbD 1 then s.setPortCfg p { s.portCfg p with
      ctle := (snapByte c 0x0E).setWidth 4 ++ (snapByte c 0x0D).setWidth 4 ++ (snapByte c 0x0C).setWidth 4 }
    else s
  let s := if flags.getLsbD 3 then enterDisabled s p else s
  let s := if flags.getLsbD 4 && (s.phy p).state == .disabled then enterDetect s p else s
  if flags.getLsbD 2 && (s.phy p).state != .disabled then enterDetect s p else s

def chainConfig (s : State) (m : BitVec 7) (c : Snap) : State :=
  match chainCheck s c with
  | some (st, off) => refuseCmd s m st off
  | none =>
    let p : PortId := if snapField c 0x08 1 = 0 then .east else .west
    withDomains s [dTGT, dCORE, portDomain p] <|
      let s := chainActions s p c
      finish s m (chainReply s p)

/-- Runs CHAIN_CONFIG when its flags name the row. -/
def runChain (mb : BitVec 7) (sel : Byte → Bool) (s : State) : State :=
  runTaken s mb 0x51 (fun c => sel (snapByte c 0x09)) (fun _ _ => []) fun s c => chainConfig s mb c

/-- CHAIN_CONFIG with SET_LDT, or with no flag. -/
def execSetLdt (mb : BitVec 7) (s : State) : Host.Outcome State Fault Refusal :=
  .next (runChain mb (fun f => f.getLsbD 0 || f == 0) s)
def execSetCtle (mb : BitVec 7) (s : State) : Host.Outcome State Fault Refusal :=
  .next (runChain mb (fun f => f.getLsbD 1) s)
def execChainRetrain (mb : BitVec 7) (s : State) : Host.Outcome State Fault Refusal :=
  .next (runChain mb (fun f => f.getLsbD 2) s)
def execChainDisable (mb : BitVec 7) (s : State) : Host.Outcome State Fault Refusal :=
  .next (runChain mb (fun f => f.getLsbD 3) s)
def execChainEnable (mb : BitVec 7) (s : State) : Host.Outcome State Fault Refusal :=
  .next (runChain mb (fun f => f.getLsbD 4) s)

end Sys2Proof.Machine
end

