-- ==== Sys2Proof/Machine/ChainLink.lean ====
section
/-! DEFINITION. The link layer and the ring: initialisation (R271), sequence, acknowledgement and replay (R272 to R274), credits (R275 to R277), forwarding (R282), end-to-end delivery (R283 to R287), and what a tick sends (R279, R285). -/
namespace Sys2Proof.Machine

/-! ## Received flits (R266) -/

/-- A flit that R266 discards: counted; a NAK is due unless one has been sent since the last flit accepted (R273). -/
def badFlit (s : State) (p : PortId) : State :=
  let l := s.linkPort p
  s.setLinkPort p { l with
    crcErrors := satInc l.crcErrors, crcError := true, nakDue := l.nakDue || (s.linkUp p && !l.nakSent) }

/-- A port receives flits in LINK_INIT and in its link states. -/
def State.receives (s : State) (p : PortId) : Bool :=
  s.isOn (portDomain p) && ((s.phy p).state == .linkInit || s.linkUp p)

/-- The word of a flit has left the decoders of its lanes (R251). -/
def hearWord (s : State) (p : PortId) (f : Flit) : State := s.setPhy p (takeWord s.chainMode (s.phy p) f)

/-- A flit of a type, arriving good at a port that receives. -/
def onFlit (s : State) (p : PortId) (f : Flit) (type : BitVec 3) (k : State → State) : State :=
  if !s.receives p then s
  else
    let s := hearWord s p f
    if !flitGood f then badFlit s p
    else if flitType f = type then k s else s

/-! ## Initialisation (R271) -/

/-- The own part of initialisation is done. -/
def ownPart (l : LinkPort) : Bool := l.initSeen && decide (4 ≤ l.echoes)

def execInit (port : PortId) (flit : Flit) (turn : W32) (s : State) : Host.Outcome State Fault Refusal :=
  .next <| onFlit s port flit 4 fun s =>
    let adv := unpackCredits (field flit 176 72)
    if (s.phy port).state == .linkInit && creditsLegal adv then
      let l := s.linkPort port
      let l := { l with echoDue := l.echoDue ++ [(field flit 128 32, turn)] }
      s.setLinkPort port (if (field flit 249 4 : Chip) = (s.phy port).peerChip then
        { l with initSeen := true, advertised := adv } else l)
    else s

/-- The hop delay that an echo measures: half of arrival - PROBE_T - TURN. -/
def echoDelay (flit : Flit) (arrival : W32) : BitVec 24 :=
  (arrival - field flit 216 32 - field flit 184 32 : W32).ushiftRight 1 |>.setWidth 24

def execInitEcho (port : PortId) (flit : Flit) (arrival : W32) (s : State) : Host.Outcome State Fault Refusal :=
  .next <| onFlit s port flit 5 fun s =>
    let l := s.linkPort port
    if (s.phy port).state == .linkInit && decide (l.echoes < 4) then
      let d := echoDelay flit arrival
      let best := match l.bestDelay with
        | some b => if d.toNat < b.toNat then d else b
        | none => d
      s.setLinkPort port { l with
        echoes := l.echoes + 1, bestDelay := some best, hopDelay := if l.echoes = 3 then best else l.hopDelay }
    else s

def execInitTimeout (port : PortId) (s : State) : Host.Outcome State Fault Refusal :=
  .next <| atState s port .linkInit <|
    enterDetect (s.setLinkPort port { s.linkPort port with initFail := true }) port

/-- Initialisation completes: sequence, credits and replay buffer start afresh, and the port enters UP. -/
def completeInit (s : State) (p : PortId) : State :=
  let l := s.linkPort p
  let s := s.setLinkPort p { l with
    nextSeq := 0, expected := 0, lastAcked := 0xFFF, replayBuf := [], replayLeft := 0, consumed := {}
    returned := {}, freed := {}, nakSent := false, nakDue := false, linkDue := false, echoDue := [], sinceLink := 0 }
  raiseSource (enterUp s p) (upSource p)

/-- A LINK or IDLE flit from the peer in LINK_INIT. -/
def peerDone (s : State) (p : PortId) : State :=
  if (s.phy p).state == .linkInit && ownPart (s.linkPort p) then completeInit s p else s

def execIdleFlitReceive (port : PortId) (flit : Flit) (s : State) : Host.Outcome State Fault Refusal :=
  .next <| onFlit s port flit 0 fun s => peerDone s port

/-! ## Acknowledgement and replay (R272, R274) -/

/-- A replay starts from the oldest unacknowledged flit; with none held there is nothing to resend. -/
def startReplay (s : State) (p : PortId) : State :=
  let l := s.linkPort p
  if l.replayBuf.isEmpty then s
  else
    let s := s.setLinkPort p { l with
      replayLeft := l.replayBuf.length, replays := satInc l.replays, replayEv := true }
    if s.chain.replayRaised then s
    else raiseSource (s.setChain { s.chain with replayRaised := true }) 0x275

/-- An ACK_SEQ: the flits it covers leave the replay buffer; one that names no held flit is ignored. -/
def takeAckSeq (l : LinkPort) (a : BitVec 12) : LinkPort :=
  if a = l.lastAcked then l
  else match l.replayBuf.findIdx? fun e => e.1 == a with
    | some i =>
      let buf := l.replayBuf.drop (i + 1)
      { l with lastAcked := a, replayBuf := buf, replayLeft := min l.replayLeft buf.length }
    | none => { l with protocol := true }

/-- A LINK flit on a link that is up. -/
def takeLink (s : State) (p : PortId) (f : Flit) : State :=
  let l := takeAckSeq (s.linkPort p) (field f 240 12)
  let s := s.setLinkPort p { l with returned := unpackCredits (field f 168 72) }
  if f.getLsbD 252 then startReplay s p else s

def execLinkFlitReceive (port : PortId) (flit : Flit) (s : State) : Host.Outcome State Fault Refusal :=
  .next <| onFlit s port flit 2 fun s =>
    let s := peerDone s port
    if s.linkUp port then takeLink s port flit else s

def execReplayTimeout (port : PortId) (s : State) : Host.Outcome State Fault Refusal :=
  .next <| if s.isOn (portDomain port) && s.linkUp port then startReplay s port else s

/-! ## Credits and transmission (R267, R275, R276) -/

/-- Available credits of one count: ADVERTISED - ((CONSUMED - RETURNED) mod 4,096). -/
def availOne (adv con ret : BitVec 12) : Nat := adv.toNat - (con - ret).toNat

/-- Header and data credits available to a class. -/
def available (l : LinkPort) (cls : BitVec 2) : Nat × Nat :=
  match cls.toNat with
  | 0 => (availOne l.advertised.edgeH l.consumed.edgeH l.returned.edgeH,
      availOne l.advertised.edgeD l.consumed.edgeD l.returned.edgeD)
  | 1 => (availOne l.advertised.ctrlH l.consumed.ctrlH l.returned.ctrlH,
      availOne l.advertised.ctrlD l.consumed.ctrlD l.returned.ctrlD)
  | _ => (availOne l.advertised.mgmtH l.consumed.mgmtH l.returned.mgmtH,
      availOne l.advertised.mgmtD l.consumed.mgmtD l.returned.mgmtD)

/-- A flit has the credits it needs: one header and NREC data credits in transit, 2 and NREC + 4 when this chip
originates it. -/
def mayGo (l : LinkPort) (own : Bool) (d : DataFlit) : Bool :=
  let (h, n) := available l d.cls
  if own then decide (2 ≤ h) && decide (d.records.length + 4 ≤ n)
  else decide (1 ≤ h) && decide (d.records.length ≤ n)

/-- Credits are spent at first transmission. -/
def consume (c : Credits) (d : DataFlit) : Credits :=
  let n := BitVec.ofNat 12 d.records.length
  match d.cls.toNat with
  | 0 => { c with edgeH := c.edgeH + 1, edgeD := c.edgeD + n }
  | 1 => { c with ctrlH := c.ctrlH + 1, ctrlD := c.ctrlD + n }
  | _ => { c with mgmtH := c.mgmtH + 1, mgmtD := c.mgmtD + n }

/-- The first flit that may go, no flit of a class passing an earlier one of its class. -/
def firstReady {α : Type} (ok : DataFlit → Bool) (flitOf : α → DataFlit) :
    List (BitVec 2) → List α → Option (α × List α)
  | _, [] => none
  | blocked, t :: rest =>
    let d := flitOf t
    if !blocked.contains d.cls && ok d then some (t, rest)
    else (firstReady ok flitOf (d.cls :: blocked) rest).map fun r => (r.1, t :: r.2)

/-- First transmission of a DATA flit under the next link sequence. -/
def sendData (s : State) (p : PortId) (d : DataFlit) : State :=
  let l := s.linkPort p
  s.setLinkPort p { l with
    nextSeq := l.nextSeq + 1, replayBuf := l.replayBuf ++ [(l.nextSeq, d)], consumed := consume l.consumed d
    lastTx := packData l.nextSeq d }

/-- The window of R272 admits one more DATA flit. -/
def windowFree (l : LinkPort) : Bool := decide (l.replayBuf.length < 1024)

/-- A TICK flit as it leaves, its DELAY grown by the time waited (R290). -/
def leavingTick (f : Flit) (since now : W32) : Flit :=
  let d : BitVec 24 := field f 99 24
  sealFlit ((f &&& ~~~ place 256 (BitVec.allOnes 24) 99) ||| place 256 (d + (now - since).setWidth 24) 99)

/-- A LINK flit is due (R272): for a change or a NAK, and in any case once in 1,024 flit cycles. -/
def linkFlitDue (l : LinkPort) : Bool := l.linkDue || l.nakDue || decide (1024 ≤ l.sinceLink)

/-- A flit other than INIT and INIT_ECHO, in the order of R267. -/
def chooseFlit (s : State) (p : PortId) (now : W32) : State :=
  let l := s.linkPort p
  match l.ticks with
  | (f, since) :: rest => s.setLinkPort p { l with ticks := rest, lastTx := leavingTick f since now }
  | [] =>
    if linkFlitDue l then
      s.setLinkPort p { l with
        lastTx := packLink l.nakDue (l.expected - 1) l.freed, linkDue := false, nakDue := false
        nakSent := l.nakSent || l.nakDue, sinceLink := 0 }
    else if 0 < l.replayLeft then
      match l.replayBuf[l.replayBuf.length - l.replayLeft]? with
      | some (q, d) => s.setLinkPort p { l with replayLeft := l.replayLeft - 1, lastTx := packData q d }
      | none => s.setLinkPort p { l with replayLeft := 0 }
    else if windowFree l then
      match firstReady (mayGo l false) TransitFlit.flit [] l.transit with
      | some (t, rest) =>
        let s := sendData (s.setLinkPort p { l with transit := rest }) p t.flit
        match t.arrived with
        | some q => freeCredits s q t.flit
        | none => s
      | none =>
        match firstReady (mayGo l true) id [] l.own with
        | some (d, rest) => sendData (s.setLinkPort p { l with own := rest }) p d
        | none => s.setLinkPort p { l with lastTx := idleFlit }
    else s.setLinkPort p { l with lastTx := idleFlit }

/-- One flit cycle of a port whose link is up. -/
def transmitUp (s : State) (p : PortId) (now : W32) : State :=
  let l := s.linkPort p
  chooseFlit (s.setLinkPort p { l with sinceLink := l.sinceLink + 1 }) p now

/-- A flit of a port in LINK_INIT: echoes first, then the probe once every 16 flit cycles until the own part is done, and
IDLE otherwise. -/
def transmitInit (s : State) (p : PortId) (now : W32) : State :=
  let l := s.linkPort p
  match l.echoDue with
  | (probe, turn) :: rest => s.setLinkPort p { l with
      echoDue := rest, lastTx := packEcho s.chipId probe turn, initWait := l.initWait - 1 }
  | [] =>
    if l.initWait = 0 ∧ !ownPart l then
      s.setLinkPort p { l with lastTx := packInit s.chipId (p == .west) now, initWait := 15 }
    else s.setLinkPort p { l with lastTx := idleFlit, initWait := l.initWait - 1 }

/-- The flit cycle on the lanes: the marker cycle goes ahead of the first flit of a marker period (R250, R254), then the word
leaves, with PRBS31 on an idle lane. -/
def driveLanes (s : State) (p : PortId) : State :=
  let u := s.phy p
  let u := if u.cycle = 0 then sendMarkers s.chainMode u else u
  let u := sendWord s.chainMode (Config.prbsBlock s.ras.freeReads) u (s.linkPort p).lastTx
  (s.setRas { s.ras with freeReads := s.ras.freeReads + 1 }).setPhy p { u with cycle := (u.cycle + 1) % 1024 }

/-- In DESKEW a port sends its markers, and words that R255 does not name: IDLE (log entry 58). -/
def transmitDeskew (s : State) (p : PortId) : State := s.setLinkPort p { s.linkPort p with lastTx := idleFlit }

def execFlitTransmit (port : PortId) (now : W32) (s : State) : Host.Outcome State Fault Refusal :=
  .next <|
    if !s.isOn (portDomain port) then s
    else if (s.phy port).state == .deskew then driveLanes (transmitDeskew s port) port
    else if (s.phy port).state == .linkInit then driveLanes (transmitInit s port now) port
    else if s.linkUp port then driveLanes (transmitUp s port now) port
    else s

/-! ## Records at their destination (R284, R285) -/

/-- An accepted EDGE record at its home chip (R74): into the Chain reserve of its tenant, or discarded while the tenant
is RESETTING; the sender's allowance returns in both cases. -/
def homeRecord (s : State) (origin : Chip) (r : BitVec 44) : State :=
  let t : Tenant := field r 36 6
  let v : BitVec 20 := field r 16 20
  let req : BitVec 16 := field r 0 16
  let s := if s.resetting t then discard s 5 v 0 (some origin) req (some t)
    else enqueue s t ⟨.chainEdge origin, v, req, .chain⟩
  returnAllowance s origin t

/-- An accepted record of class EDGE: an edge, or a line at its arrival latch (R75). -/
def acceptRecord (s : State) (origin : Chip) (r : BitVec 44) : State :=
  if recKind r = 0 then homeRecord s origin r
  else raiseSource s (0x300 + 16 * origin.toNat + (field r 0 4 : BitVec 4).toNat)

/-- ACKED advances over every accepted record contiguous with it: `n` steps at most. -/
def advance : Nat → List Nat → BitVec 16 → List Nat × BitVec 16
  | 0, ahead, acked => (ahead, acked)
  | n + 1, ahead, acked =>
    if ahead.contains 1 then advance n ((ahead.filter (· != 1)).map (· - 1)) (acked + 1) else (ahead, acked)

/-- An ACK of class CTRL to source `c` (R285); without a route it stays due, as ACKED stays ahead of the last one sent. -/
def sendAck (s : State) (c : Chip) : State :=
  let p := s.pair c
  if (s.route c).isNone then s
  else originateCtrl (s.setPair c { p with lastAckSent := p.acked }) c (ackRecord p.acked)

/-- One record with its end-to-end sequence (R284); an advance of 512 sends an ACK (R285). -/
def endToEnd (origin : Chip) (s : State) (q : BitVec 16) (r : BitVec 44) : State :=
  let p := s.pair origin
  let d := (q - p.acked).toNat
  if 1 ≤ d ∧ d ≤ 2048 ∧ d ∉ p.ahead then
    let (ahead, acked) := advance 2048 (d :: p.ahead) p.acked
    let s := (acceptRecord (s.setPair origin { p with ahead := ahead, acked := acked }) origin r).count 13 1
    if 512 ≤ (acked - p.lastAckSent).toNat then sendAck s origin else s
  else
    s.setChain { s.chain with dupCount := satInc s.chain.dupCount, duplicate := true }

/-- A received ACK, newer when within 2,048 ahead: it frees records of the end-to-end store (R285, R287). -/
def takeAckRecord (s : State) (c : Chip) (acked : BitVec 16) : State :=
  let p := s.pair c
  let d := (acked - p.ackedRemote).toNat
  if 1 ≤ d ∧ d ≤ 2048 then
    let held (q : BitVec 16) : Bool := decide (d < (q - p.ackedRemote).toNat)
    releaseLines (s.setPair c { p with ackedRemote := acked, store := p.store.filter fun e => held e.1 }) c
  else s

/-- A received ALLOW, newer when within 4 ahead (R285). -/
def takeAllow (s : State) (c : Chip) (t : Tenant) (n : BitVec 16) : State :=
  let p := s.pair c
  let d := (n - Sparse.get 0 p.gotBack t.toNat).toNat
  if 1 ≤ d ∧ d ≤ 4 then s.setPair c { p with gotBack := Sparse.set 0 p.gotBack t.toNat n } else s

def takeCtrl (s : State) (c : Chip) (r : BitVec 44) : State :=
  if recKind r = 0 then takeAckRecord s c (field r 26 16) else takeAllow s c (field r 36 6) (field r 20 16)

/-- A DATA flit for this chip: applied, and it leaves the receive buffer. -/
def applyFlit (s : State) (d : DataFlit) : State :=
  let s := startSession s d.src
  if d.cls = 0 then
    d.records.zipIdx.foldl (fun s e => endToEnd d.src s (d.e2e + BitVec.ofNat 16 e.2) e.1) s
  else d.records.foldl (fun s r => takeCtrl s d.src r) s

/-- A MAP replaces the arrival port's table (R279). -/
def takeMap (s : State) (p : PortId) (d : DataFlit) : State :=
  match d.records with
  | [lo, hi] => setDist s p (mapDistances lo hi)
  | _ => s

/-! ## Forwarding (R282) -/

/-- An accepted flit for another chip: forwarded straight through, turned back, or stranded. -/
def forwardFlit (s : State) (p : PortId) (d : DataFlit) : State :=
  let mine := d.src == s.chipId
  if d.cls = 0 ∧ (!s.isLive d.dst || (mine && d.passed)) then freeCredits (strand s d) p d
  else
    let out := if s.linkUp (opposite p) then opposite p else p
    let d := { d with passed := d.passed || mine }
    let l := s.linkPort out
    s.setLinkPort out { l with transit := l.transit ++ [⟨some p, d⟩] }

/-- An accepted DATA flit (R269, R273). -/
def acceptData (s : State) (p : PortId) (f : Flit) (d : DataFlit) : State :=
  let l := s.linkPort p
  let s := s.setLinkPort p { l with expected := l.expected + 1, nakSent := false, nakDue := false, linkDue := true }
  if !recordsOk f d then
    freeCredits (s.setLinkPort p { s.linkPort p with protocol := true }) p d
  else if d.cls = 2 then freeCredits (takeMap s p d) p d
  else if d.dst = s.chipId then freeCredits (applyFlit s d) p d
  else forwardFlit s p d

def dataFlit (s : State) (p : PortId) (f : Flit) : State :=
  let l := s.linkPort p
  let (seq, d) := unpackData f
  let n := (seq - l.expected).toNat
  if !s.linkUp p then s
  else if n = 0 then acceptData s p f d
  else if n ≤ 2047 then s.setLinkPort p { l with nakDue := l.nakDue || !l.nakSent }
  else s.setLinkPort p { l with linkDue := true }

def execDataFlitReceive (port : PortId) (flit : Flit) (s : State) : Host.Outcome State Fault Refusal :=
  .next <| onFlit s port flit 1 fun s => dataFlit s port flit

/-! ## Resends and overdue returns (R277, R287) -/

/-- A resend round toward `c`: every stored record in sequence order, with its end-to-end sequence. -/
def execE2eResend (c : Chip) (s : State) : Host.Outcome State Fault Refusal :=
  .next <|
    let p := s.pair c
    if !s.coreOn || p.store.isEmpty || !p.live then s
    else
      let s := p.store.foldl (fun s e => originate s
        { cls := 0, src := s.chipId, dst := c, e2e := e.1, passed := false, records := [e.2] }) s
      s.setChain { s.chain with resends := satInc s.chain.resends, resent := true }

def classCode : FlitClass → BitVec 2
  | .edge => 0
  | .ctrl => 1
  | .mgmt => 2

/-- A class of a port has DATA flits waiting and too few credits for the first of them. -/
def creditWait (l : LinkPort) (cls : BitVec 2) : Bool :=
  (match l.transit.find? fun t => t.flit.cls == cls with
    | some t => !mayGo l false t.flit
    | none => false) ||
  (match l.own.find? fun d => d.cls == cls with
    | some d => !mayGo l true d
    | none => false)

/-- S:0x276 for a class that has waited for credits for `n` frames, once per episode. -/
def creditOverdue (s : State) (p : PortId) (k : BitVec 2) (n : Nat) : State :=
  let l := s.linkPort p
  if creditWait l k && decide (64 ≤ n) && !l.creditEpisode.getLsbD k.toNat then
    raiseSource (s.setLinkPort p { l with
      creditOver := true, creditEpisode := putBit l.creditEpisode k.toNat true }) 0x276
  else s

/-- S:0x276 for an allowance that has stood at 0 for `n` frames, once per episode. -/
def allowOverdue (s : State) (c : Chip) (t : Tenant) (n : Nat) : State :=
  let p := s.pair c
  if s.isLive c && s.allowance c t == 0 && decide (64 ≤ n) && !Sparse.get false p.allowEpisode t.toNat then
    let s := s.setPair c { p with allowEpisode := Sparse.set false p.allowEpisode t.toNat true }
    raiseSource (s.setChain { s.chain with allowOver := true }) 0x276
  else s

/-- The 64th frame of a wait ends with the coming tick: what that tick raises, made ahead of its other work. -/
def execCreditOverdue (port : PortId) (cls : FlitClass) (s : State) : Host.Outcome State Fault Refusal :=
  .next <|
    let k := classCode cls
    if s.isOn (portDomain port) && s.frame.running then
      creditOverdue s port k (Sparse.get 0 (s.linkPort port).creditFrames k.toNat + 1)
    else s

def execAllowOverdue (c : Chip) (t : Tenant) (s : State) : Host.Outcome State Fault Refusal :=
  .next <|
    if s.coreOn && s.frame.running && c != s.chipId then
      allowOverdue s c t (Sparse.get 0 (s.pair c).allowFrames t.toNat + 1)
    else s

/-! ## What a tick does (R274, R277, R279, R285) -/

/-- One more frame of a class's wait for credits, or its end (R277). -/
def tickCredit (s : State) (p : PortId) (k : Nat) : State :=
  let l := s.linkPort p
  let n := if creditWait l (BitVec.ofNat 2 k) then Sparse.get 0 l.creditFrames k + 1 else 0
  let s := s.setLinkPort p { l with
    creditFrames := Sparse.set 0 l.creditFrames k n
    creditEpisode := if n = 0 then putBit l.creditEpisode k false else l.creditEpisode }
  creditOverdue s p (BitVec.ofNat 2 k) n

/-- One more frame of an allowance at 0 toward a live chip, or the end of its run (R277). -/
def tickAllow (s : State) (c : Chip) (t : Nat) : State :=
  let p := s.pair c
  let n := if s.allowance c (BitVec.ofNat 6 t) = 0 then Sparse.get 0 p.allowFrames t + 1 else 0
  let s := s.setPair c { p with
    allowFrames := Sparse.set 0 p.allowFrames t n
    allowEpisode := if n = 0 then Sparse.set false p.allowEpisode t false else p.allowEpisode }
  allowOverdue s c (BitVec.ofNat 6 t) n

/-- The waits of R277 at a tick: three classes of each port, every tenant of each chip that has sent. -/
def tickWaits (s : State) : State :=
  let s := [0, 1, 2].foldl (fun s k => tickCredit (tickCredit s .east k) .west k) s
  s.chain.pairs.foldl (fun s e => if e.2.live then (e.2.sent.map (·.1)).foldl (fun s t =>
    tickAllow s (BitVec.ofNat 4 e.1) t) s else s) s

/-- The cumulative values sent to a live chip at a tick: an ACK that has advanced, at every 16th tick, and all of them
after a link-down declaration. -/
def tickPair (s : State) (c : Chip) : State :=
  let p := s.pair c
  let all := s.chain.resendCtrl
  let s := if all || p.acked != p.lastAckSent || s.frame.localTicks % 16 == 0 then sendAck s c else s
  let s := if all then (p.returned.map (·.1)).foldl (fun s t => sendAllow s c t) s else s
  sendDueAllows s c

/-- The Chain's tick, after the lock-loss counts: MAPs, ACKs and, where due, ALLOWs. -/
def tickRing (s : State) : State :=
  let s := s.setChain { s.chain with replayRaised := false }
  let s := sendMap (sendMap (tickWaits s) .east) .west
  let s := s.chain.pairs.foldl (fun s e => if e.2.live then tickPair s (BitVec.ofNat 4 e.1) else s) s
  s.setChain { s.chain with resendCtrl := false }

end Sys2Proof.Machine
end

