-- ==== Sys2Proof/Machine/Marker.lean ====
section
/-! DEFINITION. Tick alignment: markers and their use (R47, R290, R291), lock (R48), and mastership (R49). -/
namespace Sys2Proof.Machine

/-- S:0x277: the tick is not locked while the chip is a ring member (R69), always after step 9's alternative (R357). -/
def alignLevel (s : State) : State := setLevel s 0x277 (!s.alone && (!s.frame.tickLocked || s.frame.coreClock))

/-- The chip has the lowest chip ID among its live members (R49). -/
def State.lowestMember (s : State) : Bool :=
  (List.range 16).all fun c => decide (s.chipId.toNat ≤ c) || !s.isLive (BitVec.ofNat 4 c)

/-- A port carries TICK flits (R290). -/
def State.carriesTicks (s : State) (p : PortId) : Bool :=
  (s.phy p).state == .up || (s.phy p).state == .sparing

/-- e as `MW_TICK_ALIGN.OFFSET` shows it (R50). -/
def offsetField (e : Int) : BitVec 8 := BitVec.ofInt 8 (max (-128) (min 127 e))

/-- The marker is forwarded out of the opposite port, or not (R290). -/
def forwardMarker (s : State) (p : PortId) (f : Flit) (arrival : W32) : State :=
  let o := opposite p
  let hops : BitVec 4 := field f 245 4
  if field f 249 4 = s.chipId ∨ hops = 15 ∨ s.carriesTicks o = false then s
  else
    let g := packTick (field f 249 4) (hops + 1) (field f 181 64) (field f 168 13) (field f 155 13) (field f 123 32)
      (field f 99 24 + (s.linkPort p).hopDelay)
    s.setLinkPort o { s.linkPort o with ticks := (s.linkPort o).ticks ++ [(g, arrival)] }

/-- The chip takes the marker's master as its own (R49): the present one, a lower ID, any after 64 frames without the
present one, and any when it has none or was its own only while alone. -/
def State.follows (s : State) (master : Chip) : Bool :=
  let u := s.frame
  !s.alone && master != s.chipId &&
    (if u.isMaster then !u.ringMaster || decide (master.toNat < s.chipId.toNat)
    else !u.following || decide (master.toNat ≤ u.masterId.toNat) || decide (64 ≤ u.masterGap))

/-- A better marker than those used in the frame: fewer hops, or as many from East (R291). -/
def betterMarker (best : Option (BitVec 4 × Bool)) (hops : BitVec 4) (east : Bool) : Bool :=
  match best with
  | none => true
  | some (h, e) => decide (hops.toNat < h.toNat) || (decide (hops = h) && east && !e)

/-- The correction that an offset asks for: a slew of the next frame, or a step of the current one (R47). -/
def correct (u : FrameUnit) (e : Int) : FrameUnit :=
  if e.natAbs ≤ 64 then
    let n : Int := min e.natAbs 4
    { u with slewNext := if 0 < e then -n else n }
  else
    { u with
      slewNext := 0, takeCount := true, tickStepped := true
      adjust := if e < 0 then -e else max 0 (u.current.toNat - e) }

/-- The period and pending change of a marker (R29, R31). -/
def takePeriod (u : FrameUnit) (f : Flit) : FrameUnit :=
  let pending : BitVec 13 := field f 155 13
  let apply : W32 := field f 123 32
  let count : W64 := field f 181 64
  let u := { u with followPeriod := some (field f 168 13) }
  if pending = 0 then { u with changePending := false, applyFrame := 0, ticksLeft := 0, acceptedAsleep := false }
  else { u with
    changePending := true, request := pending, applyFrame := apply
    ticksLeft := (apply - count.setWidth 32).toNat, acceptedAsleep := false }

/-- The marker of the current master is used: offset, lock, correction, count and period. A locked chip's FRAME_COUNT is
the master's (R48). -/
def useMarker (u : FrameUnit) (f : Flit) (hops : BitVec 4) (east : Bool) (e : Int) : FrameUnit :=
  let near := e.natAbs ≤ 8
  let run := if near && !u.coreClock then u.lockRun + 1 else 0
  let u := { u with
    bestHops := some (hops, east), offset := offsetField e, lockRun := run, tickLocked := decide (16 ≤ run)
    lockedFrames := if 16 ≤ run then u.lockedFrames else 0 }
  let u := if u.takeCount || u.tickLocked then { u with count := field f 181 64, takeCount := false } else u
  takePeriod (correct u e) f

/-- What a used marker may change, as it stands. -/
def markerBase (u : FrameUnit) : MarkerBase :=
  { offset := u.offset, lockRun := u.lockRun, tickLocked := u.tickLocked, lockedFrames := u.lockedFrames
    slewNext := u.slewNext, adjust := u.adjust, takeCount := u.takeCount, tickStepped := u.tickStepped, count := u.count
    request := u.request, changePending := u.changePending, applyFrame := u.applyFrame, ticksLeft := u.ticksLeft
    acceptedAsleep := u.acceptedAsleep, followPeriod := u.followPeriod }

/-- The effects of a marker used earlier in the frame give way to those of a better one (R291). -/
def restoreBase (u : FrameUnit) : FrameUnit :=
  match u.markerBase with
  | none => { u with markerBase := some (markerBase u) }
  | some b => { u with
      offset := b.offset, lockRun := b.lockRun, tickLocked := b.tickLocked, lockedFrames := b.lockedFrames
      slewNext := b.slewNext, adjust := b.adjust, takeCount := b.takeCount
      tickStepped := u.tickStepped && b.tickStepped, count := b.count, request := b.request
      changePending := b.changePending, applyFrame := b.applyFrame, ticksLeft := b.ticksLeft
      acceptedAsleep := b.acceptedAsleep, followPeriod := b.followPeriod }

/-- e of R291: the own tick nearest to the estimate of the master's tick, less that estimate, in core cycles. The estimate is
arrival - DELAY - hop delay, in 1/16 core cycles, of an arrival with the fixed latencies of R18 taken off. -/
def markerOffset (u : FrameUnit) (arrival : W32) (delay hop : BitVec 24) : Int :=
  let estimate := arrival - delay.setWidth 32 - hop.setWidth 32
  let period : Int := 16 * (u.current.toNat : Int)
  let x : Int := (u.tickTime - estimate).toInt
  let near := (x + period / 2) % period - period / 2
  (near + 8) / 16

/-- The marker's master becomes the current one. -/
def adoptMaster (u : FrameUnit) (master : Chip) : FrameUnit :=
  let new := u.isMaster || !u.following
  let other := new || u.masterId != master
  { u with
    isMaster := false, following := true, masterId := master, masterGap := 0
    lockRun := if new then 0 else u.lockRun
    bestHops := if other then none else u.bestHops, markerBase := if other then none else u.markerBase
    lockedFrames := if u.following && u.masterId = master then u.lockedFrames else 0 }

def execTickMarkerReceive (port : PortId) (flit : Flit) (arrival latency : W32) (s : State) :
    Host.Outcome State Fault Refusal :=
  .next <| onFlit s port flit 3 fun s =>
    if !s.linkUp port then s
    else
      let s := forwardMarker s port flit arrival
      let master : Chip := field flit 249 4
      let hops : BitVec 4 := field flit 245 4
      let east := port == .east
      let s := if master = s.chipId then s else s.setFrame { s.frame with markerGap := 0 }
      if s.follows master then
        let u := adoptMaster s.frame master
        alignLevel (s.setFrame
          (if betterMarker u.bestHops hops east then
            let e := markerOffset u (arrival - latency) (field flit 99 24) (s.linkPort port).hopDelay
            useMarker (restoreBase u) flit hops east e
          else u))
      else s

/-! ## Mastership (R48, R49) -/

/-- The chip is tick master. -/
def becomeMaster (s : State) : State :=
  s.setFrame { s.frame with
    isMaster := true, following := false, ringMaster := true, masterId := s.chipId, offset := 0, tickLocked := true, lockRun := 0
    lockedFrames := 0, masterGap := 0, markerGap := 0, takeCount := false, slewNext := 0, followPeriod := none }

/-- A chip alone is its own tick master and reads locked (R48). -/
def aloneMaster (s : State) : State :=
  (becomeMaster s).setFrame { (becomeMaster s).frame with ringMaster := false }

/-- 64 frames without a marker of the current master end at the coming tick (R49). -/
def State.timeoutDue (s : State) : Bool := !s.alone && !s.frame.isMaster && decide (64 ≤ s.frame.masterGap)

/-- The end of such a run: the lock is cleared, and after 64 frames without any marker the lowest live chip becomes
tick master. -/
def markerTimeout (s : State) : State :=
  if s.timeoutDue then
    let s := s.setFrame { s.frame with tickLocked := false, lockRun := 0, lockedFrames := 0 }
    if 64 ≤ s.frame.markerGap ∧ s.lowestMember then becomeMaster s else s
  else s

def execMarkerTimeout (s : State) : Host.Outcome State Fault Refusal :=
  .next <| if s.coreOn && s.frame.running then alignLevel (markerTimeout s) else s

/-- Mastership passes to a follower of lower ID, locked for 256 frames, at a tick whose FRAME_COUNT is a multiple of
256 (R49). -/
def State.handoverDue (s : State) : Bool :=
  !s.alone && s.frame.following && s.frame.tickLocked && decide (256 ≤ s.frame.lockedFrames)
    && decide (s.chipId.toNat < s.frame.masterId.toNat) && s.lowestMember
    && decide ((s.frame.count.toNat + 1) % 256 = 0)

def handover (s : State) : State := if s.handoverDue then becomeMaster s else s

def execMastershipHandover (s : State) : Host.Outcome State Fault Refusal :=
  .next <| if s.coreOn && s.frame.running then handover s else s

/-- The alignment of a tick, before FRAME_COUNT increments. A chip that is no longer alone has no master until a
marker or a timeout gives it one. -/
def tickAlign (s : State) : State :=
  if s.alone then aloneMaster s
  else
    let s := if s.frame.isMaster && !s.frame.ringMaster then
        s.setFrame { s.frame with isMaster := false, tickLocked := false, lockRun := 0, masterGap := 0, markerGap := 0 }
      else handover (markerTimeout s)
    s.setFrame { s.frame with
      masterGap := s.frame.masterGap + 1, markerGap := s.frame.markerGap + 1, bestHops := none, markerBase := none
      lockedFrames := if s.frame.tickLocked && s.frame.following then s.frame.lockedFrames + 1 else 0 }

/-- The time of the tick, and the markers of the tick master (R290). -/
def sendTicks (s : State) (now : W32) : State :=
  let s := s.setFrame { s.frame with tickTime := now }
  if s.frame.isMaster then
    let u := s.frame
    let f := packTick s.chipId 0 u.count u.current (if u.changePending then u.request else 0)
      (if u.changePending then u.applyFrame else 0) 0
    let one (s : State) (p : PortId) : State :=
      if s.carriesTicks p then
        s.setLinkPort p { s.linkPort p with ticks := (s.linkPort p).ticks ++ [(f, now)] }
      else s
    one (one s .east) .west
  else s

end Sys2Proof.Machine
end

