-- ==== Sys2Proof/Machine/Power.lean ====
section
/-! DEFINITION. Power domains: orders and entries (R222, R310 to R314), the phases of an exit (R313, R315), the retention check (R324 to R329), and what a domain holds when it reaches ON (R310, R316). -/
namespace Sys2Proof.Machine

/-! ## Entry (R313, R314) -/

/-- What leaves service at once when an entry begins: a Chain port goes down (R255), the bead pads are held (R305). -/
def leaveOn (s : State) (d : Nat) : State :=
  if d = dCHE then enterDisabled s .east
  else if d = dCHW then enterDisabled s .west
  else if d = dBEAD then holdPads s
  else s

/-- An entry into RET or OFF begins. -/
def beginEntry (s : State) (d : Nat) (goal : PState) (auto : Bool) : State :=
  let r := s.dom d
  let s := if r.state = .on then leaveOn s d else s
  s.setDom d { s.dom d with
    trans := .entering goal, ordered := goal, auto := auto, latched := none, lateSeen := false, logicSeen := false }

/-- Step 1 of R314 has been reached: CORE has stopped at its tick; no refill pass runs over the quarter, and none of
its rows waits to be retired (R350). -/
def State.quiesced (s : State) (d : Nat) : Bool :=
  if d = dCORE then s.pwr.stopped || (s.dom d).state != .on
  else if 2 ≤ d && d < 6 then
    (match s.tgt.msgPass with
      | some p => p.ended || (match (s.tenant p.tenant).range with
        | some r => quarterOf r.base.toNat != d - 2
        | none => true)
      | none => true) && !s.ras.dueRetire.any fun e => e.1 / 8 == d - 2
  else if d = dTGT then !s.ras.dueRetire.any fun e => decide (32 ≤ e.1)
  else true

/-- The causes of R319, which wake CORE with what it names. -/
def wakesAll : WakeCause → Bool
  | .watched _ => true
  | .captureFill => true
  | .access => false
  | .order => false
  | .replayed => false

/-- A cause latched during an entry is replayed: a watch match or a capture fill of CORE wakes what R319 names. -/
def replayCause (s : State) (d : Nat) (cause : WakeCause) : State :=
  let s := s.setPwr { s.pwr with bounces := satInc s.pwr.bounces, bounce := true }
  let s := raiseSource s 0x27D
  if d = dCORE ∧ wakesAll cause then wakeAll .replayed s else wake .replayed s d

/-- The domain whose exit checks a line. -/
def lineDomain (l : LineId) : Nat :=
  match l.arr with
  | .config => dTBL (l.bank / 8)
  | .state => dTBL (l.bank / 8)
  | .target => dTGT
  | .ctrl => dCTRL
  | .capture => 0
  | _ => dCORE

/-- The banks, in the numbering of `MW_RAS_INJECT`, of a TBL quarter or of TGT. -/
def domainBanks (d : Nat) : List Nat :=
  if 2 ≤ d ∧ d < 6 then (List.range 8).map (8 * (d - 2) + ·)
  else if d = dTGT then (List.range 16).map (32 + ·)
  else []

/-- A bank that enters RET from ON writes its canary rows (R314, R324). -/
def writeCanaries (s : State) (d : Nat) : State :=
  let s := s.dropLines fun l => canaryRow l && lineDomain l == d
  s.setRas { s.ras with canary := (domainBanks d).foldl (fun m b => m ||| BitVec.twoPow 48 b) s.ras.canary }

def entryComplete (s : State) (d : Nat) : State :=
  let r := s.dom d
  match r.trans with
  | .entering goal =>
    if s.quiesced d then
      let s := if r.state = .on ∧ goal = .ret then writeCanaries s d else s
      let s := s.setDom d { r with state := goal, trans := .none, latched := none }
      let s := raiseSource s 0x27A
      match r.latched with
      | some c => replayCause s d c
      | none => s
    else s
  | _ => s

def execEntryComplete (d : BitVec 4) (s : State) : Host.Outcome State Fault Refusal :=
  .next (if 1 ≤ d.toNat ∧ d.toNat ≤ 11 then entryComplete s d.toNat else s)

/-! ## DOMAIN_POWER (R222) -/

def pcode : PState → Byte
  | .on => 0
  | .ret => 1
  | .off => 2

def pstate (n : Nat) : PState := if n = 0 then .on else if n = 1 then .ret else .off

/-- A granted range lies in a quarter. -/
def State.quarterGranted (s : State) (q : Nat) : Bool :=
  s.ten.recs.any fun p => match p.2.range with
    | some r => quarterOf r.base.toNat == q
    | none => false

def State.anyGrant (s : State) : Bool :=
  s.ten.blocks.any (fun p => p.2.isSome) || s.ten.recs.any fun p => p.2.range.isSome

/-- Check 4: what an order out of ON would take from a grant, or from a mailbox that rings. -/
def powerHeld (s : State) (m : BitVec 7) (d : Nat) (goal : PState) : Bool :=
  if goal = .on then false
  else if d = dCTRL then s.mbx.boxes.any fun b => b.1 != m.toNat && b.2.ring
  else if goal = .ret then false
  else if 2 ≤ d && d < 6 then s.quarterGranted (d - 2)
  else if d = dTGT ∨ d = dCORE then s.anyGrant
  else false

/-- A domain has left ON, or has begun to (log entry 29). -/
def State.leftOn (s : State) (d : Nat) : Bool :=
  match (s.dom d).trans with
  | .none => (s.dom d).state != .on
  | .entering _ => !s.works d
  | .exiting _ _ _ => false

/-- Check 5: R312. -/
def orderBroken (s : State) (d : Nat) (goal : PState) : Bool :=
  match goal, (s.dom d).state with
  | .on, _ => false
  | .ret, .off => true
  | _, .on =>
    if d = dTGT then !s.leftOn dCORE
    else if d = dCORE then [2, 3, 4, 5, dCHE, dCHW, dBEAD].any fun n => !s.leftOn n
    else false
  | _, _ => false

/-- An order of ON: the named domain, and with AUTO 1 those that R312 requires. -/
def orderOn (s : State) (d : Nat) : State :=
  let s := (required d).foldl (fun s n =>
    let t := wakeOne .order s n
    if (s.dom n).trans = (t.dom n).trans then t else t.setDom n { t.dom n with auto := true }) s
  wakeOne .order s d

/-- An order of the present state changes nothing (R222); nor does an order of ON for a quarter that start-up left out,
which only cold reset returns to service (R359): the spec does not say how such an order is answered, and OK without an
effect is the model's choice (log entry 54). -/
def domainPower (s : State) (m : BitVec 7) (c : Snap) : State :=
  let d := snapField c 0x08 1
  let code := snapField c 0x09 1
  if d = 0 ∨ 11 < d then refuseCmd s m stRange 0x08
  else if 2 < code then refuseCmd s m stBadField 0x09
  else
    let goal := pstate code
    let r := s.dom d
    if r.trans ≠ .none then refuseCmd s m stBusyActive 0x08
    else if powerHeld s m d goal then refuseCmd s m stBusyActive 0x08
    else if orderBroken s d goal then refuseCmd s m stBusyActive 0x08
    else
      let reply := okReply [pcode r.state, pcode goal, 0, 0]
      if goal = r.state ∨ s.keptOff d then finish s m reply
      else if goal = .on then finish (orderOn (s.setDom d { r with ordered := goal }) d) m reply
      else if d = dCTRL then beginEntry (deposit s m reply) d goal false
      else finish (beginEntry s d goal false) m reply

def execDomainPower (mb : BitVec 7) (s : State) : Host.Outcome State Fault Refusal :=
  .next <| runTaken s mb 0x40 (fun _ => true) (fun _ _ => []) fun s c => domainPower s mb c

/-- The firmware places a quarter without a granted range in RET (R311). -/
def execFirmwareTblRet (q : BitVec 2) (s : State) : Host.Outcome State Fault Refusal :=
  .next <|
    let d := dTBL q.toNat
    if s.engineReady && s.mbx.fw.alive && s.isOn d && !s.quarterGranted q.toNat then beginEntry s d .ret true
    else s

/-! ## Phases of an exit (R313, R315) -/

/-- The phase of an exit that a ready signal ends. -/
def inPhase (s : State) (d : Nat) (p : Phase) : Bool :=
  match (s.dom d).trans with
  | .exiting _ q _ => q == p
  | _ => false

/-- The exit goes on to a phase. -/
def toPhase (s : State) (d : Nat) (p : Phase) : State :=
  let r := s.dom d
  match r.trans with
  | .exiting frm _ retry => s.setDom d { r with trans := .exiting frm p retry }
  | _ => s

def execRegRdy (d : BitVec 4) (s : State) : Host.Outcome State Fault Refusal :=
  .next (if inPhase s d.toNat .regulator then toPhase s d.toNat .clock else s)

/-- BEAD has no memory phase. -/
def execClkRdy (d : BitVec 4) (s : State) : Host.Outcome State Fault Refusal :=
  .next (if inPhase s d.toNat .clock then
      toPhase s d.toNat (if d.toNat = dBEAD then .logic else .memory) else s)

/-- S:0x27B is raised once per transition. -/
def execPhaseDeadline (d : BitVec 4) (s : State) : Host.Outcome State Fault Refusal :=
  .next <|
    let r := s.dom d.toNat
    match r.trans with
    | .exiting _ _ _ =>
      let t := s.setDom d.toNat { r with deadline := true, lateSeen := true }
      if r.lateSeen then t else raiseSource t 0x27B
    | _ => s

/-- The first time, the domain is forced OFF and retried from there; the second time it stays OFF. -/
def execExitTimeout (d : BitVec 4) (s : State) : Host.Outcome State Fault Refusal :=
  .next <|
    let r := s.dom d.toNat
    match r.trans with
    | .exiting _ _ false =>
      let s := s.setPwr { s.pwr with retLines := s.pwr.retLines.filter fun l => lineDomain l.1 != d.toNat }
      s.setDom d.toNat { r with state := .off, trans := .exiting .off .regulator true, logicSeen := false }
    | .exiting _ _ true =>
      raiseSource (s.setDom d.toNat { r with
        state := .off, trans := .none, failed := true, stuck := true, logicSeen := false }) 0x27B
    | _ => s

/-- The fatal request (R338). -/
def fatalRequest (s : State) : State := s.setRas { s.ras with fatal := true, fatalReq := true }

/-- REG_RDY falls while the domain is ON (R387). -/
def execRegRdyFall (d : BitVec 4) (s : State) : Host.Outcome State Fault Refusal :=
  .next <|
    let r := s.dom d.toNat
    if 1 ≤ d.toNat ∧ d.toNat ≤ 11 ∧ r.state = .on ∧ r.trans = .none ∧ s.hm.inReset.isNone ∧ s.hm.powerOff = false then
      fatalRequest (raiseSource (s.setDom d.toNat { r with failed := true }) 0x27B)
    else s

/-- A measurement of R321, while CORE is ON. -/
def execLktCalibration (count : Nat) (s : State) : Host.Outcome State Fault Refusal :=
  .next <|
    if s.works dCORE then
      s.setPwr { s.pwr with lktCal := if count < 2 ^ 18 then BitVec.ofNat 18 count else Config.calOverflow count }
    else s

/-! ## The retention check (R324 to R329) -/

/-- The configuration or the state word of a vector lies in table bank `b` (R21). -/
def inCfgBank (b v : Nat) : Bool := (cfgLine v).bank == b
def inStBank (b v : Nat) : Bool := (stLine v).bank == b
def inBank (b v : Nat) : Bool := inCfgBank b v || inStBank b v

/-- A table bank is zeroed and marked (R325, R326). -/
def loseTableBank (s : State) (b : Nat) : State :=
  let u := s.vec
  let s := s.setVec { u with
    cfg := Sparse.dropKeys (inCfgBank b) u.cfg, st := Sparse.dropKeys (inStBank b) u.st
    lostBanks := u.lostBanks ||| BitVec.twoPow 32 b, reloaded := Sparse.dropKeys (inBank b) u.reloaded }
  let gone (x : Src) : Bool := match srcClass x with
    | .message v => inCfgBank b v
    | _ => false
  let s := s.setPwr { s.pwr with
    tblLost := s.pwr.tblLost ||| BitVec.twoPow 32 b, tblLostEv := true
    watch := s.pwr.watch.filter fun x => !gone x }
  raiseSource (s.dropLines fun l => bankOf l == some b) 0x27C

/-- Some vector of a range lies in a bank. A line of 32 vectors of a quarter meets every bank for configuration, one of
64 every bank for state, and no range is smaller than 64. -/
def rangeInQuarter (r : Range) (q : Nat) : Bool := quarterOf r.base.toNat == q

/-- Fault 0x0A, once to each tenant whose range lies in the quarter. -/
def chargeQuarter (s : State) (q : Nat) (mask : BitVec 8) : State :=
  s.listedTenants.foldl (fun s t => match (s.tenant t).range with
    | some r => if rangeInQuarter r q && !s.resetting t then
        chargeFault s t 0x0A (place 32 (BitVec.ofNat 2 q) 8 ||| mask.setWidth 32) else s
    | none => s) s

/-- The banks of a quarter that failed. -/
def loseQuarter (s : State) (q : Nat) (banks : BitVec 8) : State :=
  if banks = 0 then s
  else
    let s := (List.range 8).foldl (fun s b => if banks.getLsbD b then loseTableBank s (8 * q + b) else s) s
    chargeQuarter s q banks

/-- A target record of a failed bank: its active source is to be completed once CORE is ON (R327). -/
def loseRecord (s : State) (x : Nat) : State :=
  let slot : Slot := BitVec.ofNat 16 x
  let s := match (s.target slot).active with
    | some src => match srcClass src with
      | .priv _ => s
      | _ => s.setPwr { s.pwr with lostActive := s.pwr.lostActive ++ [src] }
    | none => s
  (resetTarget s slot).clearBusyNext slot

/-- A target bank takes the values of R108, and its granted targets charge fault 0x0B. -/
def loseTargetBank (s : State) (b : Nat) : State :=
  let mine (x : Nat) : Bool := x / 4096 == b
  let s := ((s.tgt.recs.map (·.1)).filter mine).foldl loseRecord s
  let s := s.setPwr { s.pwr with
    tgtLost := s.pwr.tgtLost ||| BitVec.twoPow 16 b, tgtLostEv := true
    lostBanks := s.pwr.lostBanks ||| BitVec.twoPow 16 b }
  let s := raiseSource (s.dropLines fun l => bankOf l == some (32 + b)) 0x27C
  (s.grantedSlots.filter fun p => mine p.2.toNat).foldl (fun s p =>
    match s.slotOwner p.2 with
    | some (t, i) => if s.resetting t then s else chargeFault s t 0x0B (place 32 i 0 ||| 0x80000000)
    | none => s) s

/-- A CORE array that fails is zeroed, by its key (R328): the system table, with its sources' places on the watch list
(R94), the Clasp words, or the pending index, which is then rebuilt from the state lines. -/
def zeroArray (s : State) (key : Nat) : State :=
  if key = 48 then
    (s.setVec { s.vec with sysCfg := [], sysSt := [] }).setPwr
      { s.pwr with watch := s.pwr.watch.filter fun x => !isSystem x }
  else if key = 49 then s.setVec { s.vec with indexOnes := [] }
  else s.setTen { s.ten with clasp := [] }

def loseArray (s : State) (key : Nat) : State :=
  let s := (zeroArray s key).dropLines fun l => arrayKey l == key
  raiseSource (s.setPwr { s.pwr with coreLost := true }) 0x27C

/-- The version of the image that a slot holds. -/
def FwUnit.image (fw : FwUnit) (slot : Bool) : Option W32 := if slot then fw.slot1 else fw.slot0

/-- The normal image slot of R357: one recorded by NEXT_START_ONLY, that of the firmware that last ran, the strap's,
the first of them that holds a valid image; and whether it came from NEXT_START_ONLY. -/
def State.normalSlot (s : State) : Option (Bool × Bool) :=
  let fw := s.mbx.fw
  let next : List (Bool × Bool) := match fw.nextSlot with
    | some n => [(n, true)]
    | none => []
  let last : List (Bool × Bool) := if fw.hasRun then [(fw.runSlot, false)] else []
  (next ++ last ++ [(s.bead.strap.getLsbD 6, false)]).find? fun p => (fw.image p.1).isSome

/-- The firmware is to be loaded anew: mailboxes answer BUSY_RESTART until it runs (R329), and the lost vectors are
those of the marks still set (R326). -/
def beginLoad (s : State) : State :=
  let s := s.setVec { s.vec with lost := [], reloaded := [], lostBanks := s.pwr.tblLost }
  let s := (s.setAcu { s.acu with ram := [], user := false, current := 0x40 }).dropLines fun l => l.arr == .ctrl
  let fw := s.mbx.fw
  let s := s.setFw { fw with
    alive := false, restart := true, loads := true, activate := false, fellBack := false, previous := some fw.runSlot
    runSlot := (s.normalSlot.map (·.1)).getD fw.runSlot
    nextSlot := if (s.normalSlot.map (·.2)).getD false then none else fw.nextSlot }
  let s := s.setMbx { s.mbx with boxes :=
    ((List.range 65).map fun m => (m, { s.box (BitVec.ofNat 7 m) with restarting := true })) }
  raiseSource s 0x26A

/-- A canary row of a bank differs from its pattern (R324). -/
def State.canaryBroken (s : State) (b : Nat) : Bool :=
  !s.ras.canary.getLsbD b || s.ras.errs.any fun e => canaryRow e.1 && bankOf e.1 == some b

/-- One line as the check reads it (R324, R333): a corrected line is written back; an uncorrectable one is kept for the
report that follows LOGIC_RDY. -/
def checkLine (s : State) (l : LineId) : State :=
  match decodeLine s.ras.freeReads (s.lineErr l) with
  | .clean => s
  | .corrected => (noteCorrected s l).setErr l 0
  | .uncorrectable =>
    let s := if symbolErrors (s.lineErr l) = 2 then s else s.setRas { s.ras with freeReads := s.ras.freeReads + 1 }
    s.setPwr { s.pwr with retLines := s.pwr.retLines ++ [(l, false)] }
  | .miscorrected e =>
    let s := s.setRas { s.ras with freeReads := s.ras.freeReads + 1 }
    disturbLine (freshLine (noteCorrected s l) l) l e

/-- The uncorrectable lines that the check of a domain found in a bank or array. -/
def State.badLines (s : State) (key : Nat) : Nat := (s.pwr.retLines.filter fun l => arrayKey l.1 == key).length

/-- The banks and arrays of a domain that fail their check: a bank by a canary row or by more than 4 uncorrectable lines
(R324), an array of CORE and CTRL RAM by one (R329, R333). -/
def failedArrays (s t : State) (d : Nat) : List Nat :=
  ((domainBanks d).filter fun b => s.canaryBroken b || decide (4 < t.badLines b)) ++
    ((if d = dCORE then [48, 49, 50] else if d = dCTRL then [52] else []).filter fun k => decide (0 < t.badLines k))

/-- What follows for the banks and arrays that failed (R325 to R329). -/
def loseFailed (s : State) (d : Nat) (failed : List Nat) : State :=
  if 2 ≤ d && d < 6 then
    loseQuarter s (d - 2) (packBits 8 ((List.range 8).map fun b => failed.contains (8 * (d - 2) + b)))
  else if d = dTGT then failed.foldl (fun s b => loseTargetBank s (b - 32)) s
  else if d = dCORE then failed.foldl loseArray s
  else if failed.isEmpty then s
  else beginLoad s

/-- The check of an exit from RET reads every line of the domain's memories (R324, R329, R333). -/
def retentionCheck (s : State) (d : Nat) (ret : Retention) : State :=
  let s := (ret.upsets.filter fun u => lineDomain u.line == d).foldl upset s
  let t := ((s.ras.errs.map (·.1)).filter fun l => lineDomain l == d).foldl checkLine s
  let failed := failedArrays s t d
  let t := t.setPwr { t.pwr with retLines := t.pwr.retLines.map fun l => (l.1, l.2 || failed.contains (arrayKey l.1)) }
  loseFailed t d failed

def execMemRdy (d : BitVec 4) (ret : Retention) (s : State) : Host.Outcome State Fault Refusal :=
  .next <|
    let d := d.toNat
    match (s.dom d).trans with
    | .exiting frm .memory _ =>
      let s := toPhase s d .logic
      if frm = .ret then retentionCheck s d ret else s
    | _ => s

/-! ## What a domain holds when it comes from OFF (R11, R310) -/

/-- Words that an exit from OFF zeroes: a source keeps its place on the watch list, which domain transitions leave whole
(R331), and so its WATCHED bit (R94; log entry 54). -/
def rewatch (s : State) (mine : Src → Bool) : State :=
  (s.pwr.watch.filter mine).foldl (fun s x => s.putCfg x (BitVec.twoPow 64 59)) s

/-- The registers and memories of CORE take their reset values; what Locket, TGT, the table banks and the Chain ports
hold stays, as do the engine map and the retirements, which only cold reset restores (R126). -/
def resetCore (s : State) : State :=
  let f := s.frame
  let s := s.setFrame { f with
    budgetOver := false, withdrawn := false, tickStepped := false, periodRefused := false, refuseReason := 0
    tickLocked := false, latchManager := 0, latchSmbus := 0, isMaster := true, masterId := s.chipId, offset := 0
    withdrawnCount := 0, overCount := 0, adjust := 0, slewNext := 0, takeCount := false, lockRun := 0
    masterGap := 0, markerGap := 0, lockedFrames := 0, bestHops := none, markerBase := none, following := false
    ringMaster := false, followPeriod := none }
  let s := (s.setIntake {}).setSys { s.sys with
    latch := [], cursor := 0xFFF
    levels := Sparse.dropKeys (fun n => decide (0x400 ≤ n) && decide (n < 0x480)) s.sys.levels }
  let s := s.setVec { s.vec with
    sysCfg := [], sysSt := [], satAny := false, indexOnes := [], lapsed := false, lapsedCount := 0, satCount := 0 }
  let s := rewatch s isSystem
  let u := s.tgt
  let s := s.setTgt {
    recs := u.recs, heldDrops := u.heldDrops, heldNotices := u.heldNotices, logical0 := u.logical0
    logical1 := u.logical1, logical2 := u.logical2, logical3 := u.logical3, retired := u.retired
    spareInUse := u.spareInUse }
  let s := s.setTen { managerPort := s.ten.managerPort, upstream := s.ten.upstream
                      viewManager := s.ten.viewManager, viewSmbus := s.ten.viewSmbus }
  let s := s.setAcu { s.acu with mpuL := resetMpu true, mpuD := resetMpu true, tap := {} }
  let s := s.setChain { s.chain with
    eastDist := 0, westDist := 0, members := BitVec.twoPow 16 s.chipId.toNat, pairs := [], resent := false
    allowOver := false, duplicate := false, strandedEv := false, membersChanged := false, dupCount := 0
    strandedCount := 0, resends := 0, resendCtrl := false, replayRaised := false }
  let s := s.dropLines fun l => lineDomain l == dCORE
  let r := s.ras
  let s := s.setRas { r with
    retireFailed := false, retiredEv := false, busParity := false, portParity := false, captureLost := false
    uncorrCtrl := false, uncorrCore := false, uncorrTgt := false, uncorrTbl := false, firstValid := false
    firstFoundBy := 0, firstArray := 0, firstBank := 0, firstSpare := false, firstLine := 0, firstFrame := 0
    corrected := 0, uncorrectable := 0, parity := 0, polishPasses := 0, arm := false, symbols := 0, injBank := 0
    cursors := Sparse.dropKeys (fun k => decide (48 ≤ k)) r.cursors }
  s.setLoupe { s.loupe with now := [], sums := [] }

/-- The words of a quarter are zero. -/
def resetQuarter (s : State) (q : Nat) : State :=
  let mine (v : Nat) : Bool := quarterOf v == q
  let s := s.setVec { s.vec with cfg := Sparse.dropKeys mine s.vec.cfg, st := Sparse.dropKeys mine s.vec.st }
  let s := rewatch s fun x => srcQuarter x == some q
  let s := s.dropLines fun l => lineDomain l == dTBL q
  s.setRas { s.ras with
    canary := (domainBanks (dTBL q)).foldl (fun m b => m &&& ~~~ BitVec.twoPow 48 b) s.ras.canary
    records := Sparse.dropKeys (fun b => decide (b < 32) && b / 8 == q) s.ras.records
    cursors := Sparse.dropKeys (fun b => decide (b < 32) && b / 8 == q) s.ras.cursors }

/-- Every target record holds the values of R108. -/
def resetTargets (s : State) : State :=
  let s := s.setTgt { s.tgt with recs := [], privLane := [] }
  let s := s.dropLines fun l => lineDomain l == dTGT
  s.setRas { s.ras with
    canary := (domainBanks dTGT).foldl (fun m b => m &&& ~~~ BitVec.twoPow 48 b) s.ras.canary
    records := Sparse.dropKeys (fun b => decide (32 ≤ b)) s.ras.records
    cursors := Sparse.dropKeys (fun b => decide (32 ≤ b) && decide (b < 48)) s.ras.cursors }

/-- What is left of a mailbox that CTRL loses: the doorbell that Locket took while CTRL was OFF, with its path; the
firmware takes it once CTRL is ON (R15, R193). -/
def ringLeft (b : Mailbox) : Mailbox := if b.ring then { ring := true, ringPath := b.ringPath } else {}

/-- The Grauth controller's registers and RAM, with the mailboxes; the firmware is loaded anew (R329). -/
def resetController (s : State) : State :=
  let s := s.setMbx { s.mbx with boxes := Sparse.mapVals {} (fun _ b => ringLeft b) s.mbx.boxes }
  let s := s.setAcu { s.acu with mpuC := resetMpu false }
  beginLoad s

def resetPort (s : State) (p : PortId) : State := (s.setPhy p {}).setLinkPort p {}

def resetLoupe (s : State) : State :=
  s.setLoupe { s.loupe with
    divider := 1, dividerNext := 1, head := 0, wrapped := false, ring := [], bins := [], sums := [] }

def resetDomain (s : State) (d : Nat) : State :=
  if d = dCORE then
    let s := resetCore s
    s.setPwr { s.pwr with coreCold := true }
  else if 2 ≤ d && d < 6 then resetQuarter s (d - 2)
  else if d = dTGT then resetTargets s
  else if d = dCTRL then resetController s
  else if d = dCHE then resetPort s .east
  else if d = dCHW then resetPort s .west
  else if d = dBEAD then s.setBead { s.bead with committed := false, unstable := false, reserved := false }
  else if d = dLOUPE then resetLoupe s
  else s

/-! ## LOGIC_RDY (R72, R315, R324, R327) -/

/-- Held arrivals enter the latch (R72). -/
def releaseHeld (s : State) : State :=
  let held := s.sys.held.map (·.1)
  let s := s.setSys { s.sys with held := [] }
  held.foldl (fun s n => s.setLatch n { s.latch n with arrival := true }) s

/-- An uncorrectable line of the check is counted and recorded (R336), and rewritten unless its bank or array failed and
so holds zeroes already (R324, R335). -/
def reportLine (s : State) (e : LineId × Bool) : State :=
  if e.2 then noteUncorrectable s 2 e.1 else rewriteLine (noteUncorrectable (freshLine s e.1) 2 e.1) e.1

def reportLines (s : State) (d : Nat) : State :=
  let mine := s.pwr.retLines.filter fun l => lineDomain l.1 == d
  let s := s.setPwr { s.pwr with retLines := s.pwr.retLines.filter fun l => lineDomain l.1 != d }
  mine.foldl reportLine s

/-- Sources that a failed target bank held active are completed once their words can be written; the others wake
their quarter (R327). -/
def drainLost (s : State) : State :=
  if !s.coreOn then s
  else
    let (now, later) := s.pwr.lostActive.partition s.quarterOn
    let s := s.setPwr { s.pwr with lostActive := later }
    let s := later.foldl (fun s x => match srcClass x with
      | .message v => wakeQuarter s (some (quarterOf v))
      | _ => s) s
    now.foldl applyCompletion s

/-- Every pending source whose TARGET names a slot of a failed bank is presented again (R327). -/
def presentBanks (s : State) : State :=
  let banks := s.pwr.lostBanks
  if banks = 0 ∨ ¬ s.coreOn then s
  else
    let s := s.setPwr { s.pwr with lostBanks := 0 }
    let wants (st : Sparse W32) (p : Nat × W64) : Bool :=
      cEnable p.2 && !cFwd p.2 && banks.getLsbD ((cTarget p.2).toNat / 4096) && sPending (Sparse.get 0 st p.1)
    let s := (s.vec.sysCfg.filter (wants s.vec.sysSt)).foldl (fun s p => present s (sysSrc p.1) (cTarget p.2)) s
    (s.vec.cfg.filter (wants s.vec.st)).foldl (fun s p => present s (msgSrc p.1) (cTarget p.2)) s

/-- A Chain port trains after LOGIC_RDY, unless the strap or safe-minimum mode keeps it out of the ring (R315). -/
def portReturns (s : State) (p : PortId) : State :=
  if s.portAllowed p && s.chain.released then enterDetect s p else s

/-- What a domain does on reaching ON. -/
def atOn (s : State) (d : Nat) (frm : PState) (lkt : BitVec 48) : State :=
  let s := if frm = .ret then reportLines s d else s
  let s := if d = dCORE then
      releaseHeld (s.setPwr { s.pwr with
        firstTick := if s.pwr.stopped then some lkt else s.pwr.firstTick, stopped := false })
    else if d = dCHE then portReturns s .east
    else if d = dCHW then portReturns s .west
    else if d = dBEAD then beadReturns s
    else s
  presentBanks (drainLost s)

/-- A domain reaches ON. -/
def reachOn (s : State) (d : Nat) (lkt : BitVec 48) : State :=
  let r := s.dom d
  match r.trans with
  | .exiting frm _ _ =>
    let s := if frm = .off then resetDomain s d else s
    let s := s.setDom d { s.dom d with state := .on, trans := .none, logicSeen := false }
    let s := raiseSource s 0x27A
    atOn s d frm lkt
  | _ => s

/-- The domains that reach ON only with CORE or after it (R312). -/
def withCore : List Nat := [2, 3, 4, 5, dCHE, dCHW, dBEAD]

/-- LOGIC_RDY of a domain: CORE's comes only after TGT's, and a domain that needs CORE waits for it (R315). -/
def logicRdy (s : State) (d : Nat) (exitUs : BitVec 8) (lkt : BitVec 48) : State :=
  if !inPhase s d .logic then s
  else if d = dCORE ∧ !s.isOn dTGT then s
  else
    let s := s.setDom d { s.dom d with lastExit := exitUs }
    if withCore.contains d && !s.coreUp then s.setDom d { s.dom d with logicSeen := true }
    else
      let s := reachOn s d lkt
      if d = dCORE then
        withCore.foldl (fun s n => if (s.dom n).logicSeen then reachOn s n lkt else s) s
      else s

end Sys2Proof.Machine
end

