-- ==== Sys2Proof/Machine/Ras.lean ====
section
/-! DEFINITION. Polish and write-back (R334, R340), row retirement (R342, R343), wear and LIFE_DAYS (R344), error injection (R347), parity errors of internal buses (R337, R338), the scrub of CTRL RAM (R335, R340) and upsets. -/
namespace Sys2Proof.Machine

/-! ## Wear and life (R344) -/

/-- The thermal figure: whole days left of 350,640 aged hours. -/
def thermalDays (units : Nat) : Nat := (350640 * 65536 - units) / (24 * 65536)

/-- Retirements of a bank in the last 8,766 powered hours. -/
def RasUnit.recent (u : RasUnit) (bank : Nat) : Nat :=
  (u.retireHours.filter fun e => e.1 == bank && decide (u.poweredHours.toNat < e.2 + 8766)).length

/-- The spare figure of a bank with `r` recent retirements and `left` spares; before 720 powered hours the count is
scaled from the hours elapsed. -/
def spareDays (hours left r : Nat) : Nat :=
  if hours < 720 then 365 * left * hours / (r * 8766) else 365 * left / r

/-- LIFE_DAYS: the lesser of the thermal figure and the spare figures of the banks with retirements. -/
def State.lifeFigure (s : State) : Nat :=
  let banks := (s.ras.retireHours.map (·.1)).filter fun b => s.ras.recent b != 0
  banks.foldl (fun m b => min m (spareDays s.ras.poweredHours.toNat (s.sparesLeft b) (s.ras.recent b)))
    (thermalDays s.ras.agedUnits)

/-- LIFE_DAYS and the level of S:0x262 follow the counts. A bank left out of service shows no spares and is not one
whose last spares fall (R342, R359). -/
def refreshLife (s : State) : State :=
  let s := s.setRas { s.ras with lifeDays := BitVec.ofNat 32 s.lifeFigure }
  setLevel s 0x262 ((List.range 48).any fun b => !s.bankOut b && decide (s.sparesLeft b < 4))

/-- The largest number below 2^n whose q-th power does not exceed `b`, found from its top bit down. -/
def rootBelow (q b : Nat) : Nat → Nat → Nat
  | 0, acc => acc
  | n + 1, acc => rootBelow q b n (if (acc + 2 ^ n) ^ q ≤ b then acc + 2 ^ n else acc)

/-- 2^((T − 95)/10) in units of 1/65,536, rounded down, for a mean T of `sum / count` quarter degrees above −40 °C: the
largest n with n^q ≤ 65,536^q × 2^p for q = 40 × count and p = sum − 540 × count (log
entry 22). -/
def ageUnits (sum count : Nat) : Nat := rootBelow (40 * count) (2 ^ (16 * (40 * count) + sum - 540 * count)) 29 0

/-- The ageing of one hour in units of 1/65,536 hour. An hour with TEMP_VALID low for more than half of it ages as at
105 °C (R399). -/
def hourUnits (hours sum count missing : Nat) : Nat :=
  if count < missing then 2 * 65536
  else if count = 0 then Config.ageOfHour hours
  else ageUnits sum count

def execTempSample (temp : BitVec 10) (valid : Bool) (s : State) : Host.Outcome State Fault Refusal :=
  .next <|
    if s.hm.powerOff then s
    else if valid then s.setRas { s.ras with tempSum := s.ras.tempSum + temp.toNat, tempCount := s.ras.tempCount + 1 }
    else s.setRas { s.ras with tempMissing := s.ras.tempMissing + 1 }

def execAgedHour (s : State) : Host.Outcome State Fault Refusal :=
  .next <|
    if s.hm.powerOff then s
    else
      let u := s.ras
      refreshLife (s.setRas { u with
        poweredHours := u.poweredHours + 1
        agedUnits := u.agedUnits + hourUnits u.poweredHours.toNat u.tempSum u.tempCount u.tempMissing
        tempSum := 0, tempCount := 0, tempMissing := 0 })

/-- The kernel copies the field repair store and the wear counts to flash (R343, R344). -/
def execFieldRepairCopy (s : State) : Host.Outcome State Fault Refusal :=
  .next <|
    if s.engineReady && s.mbx.fw.alive then
      let u := s.ras
      s.setRas { u with
        fieldFlash := u.fieldStore, fieldCopied := u.fieldStore.length, flashHours := u.poweredHours
        flashAged := u.agedUnits, flashRetire := u.retireHours }
    else s

/-! ## Row retirement (R342, R343) -/

/-- The lowest spare row of a bank that no fuse entry and no field entry names. -/
def State.freeSpare (s : State) (bank : Nat) : Option Nat :=
  (List.range 16).find? fun k => !(s.ras.fuseSpares ++ s.ras.fieldStore).any fun e => e.1 == bank && e.2.2 == k

/-- The array's domain stands in ON, an entry not yet past its step 1 included (R350). -/
def State.arrayStands (s : State) (key : Nat) : Bool :=
  (s.dom (if key < 32 then dTBL (key / 8) else if key < 48 then dTGT else dCORE)).state == .on

/-- The retirement of a row: read and decoded, written re-encoded to the lowest free spare, remapped. -/
def retireRow (s : State) (bank : Nat) (row : BitVec 14) : State :=
  let l := lineOfRow bank row
  let forget (s : State) : State := s.setRas { s.ras with
    dueRetire := s.ras.dueRetire.filter fun e => e != (bank, row)
    records := Sparse.set [] s.ras.records bank ((Sparse.get [] s.ras.records bank).filter fun e => e.row != row) }
  match s.freeSpare bank with
  | none => (forget s).setRas { (forget s).ras with retireFailed := true }
  | some k =>
    let s := forget (wroteLine (readLine 3 true s l) l)
    let u := s.ras
    let s := s.setRas { u with
      fieldStore := u.fieldStore ++ [(bank, row, k)], retiredEv := true, retiredRows := satInc u.retiredRows
      retireHours := u.retireHours ++ [(bank, u.poweredHours.toNat)] }
    refreshLife (raiseSource s 0x261)

def execRowRetire (bank : BitVec 6) (row : BitVec 14) (s : State) : Host.Outcome State Fault Refusal :=
  .next <|
    if (bank.toNat, row) ∈ s.ras.dueRetire ∧ s.arrayStands bank.toNat then retireRow s bank.toNat row else s

/-! ## Polish (R340) and the write-back queues (R334) -/

/-- Lines of a pass of an array. -/
def polishWrap (key : Nat) : Nat :=
  if key < 32 then 8208 else if key < 48 then 5136 else if key = 48 then 1536 else if key = 49 then 4180 else 1024

/-- The domain of an array serves, so that its cursor moves. -/
def State.polishes (s : State) (key : Nat) : Bool :=
  s.works (if key < 32 then dTBL (key / 8) else if key < 48 then dTGT else dCORE)

/-- A spare row as it is read in its own turn: the row it now holds, or the spare itself. -/
def State.spareLine (s : State) (key k : Nat) : LineId :=
  match (s.ras.fuseSpares ++ s.ras.fieldStore).find? fun e => e.1 == key && e.2.2 == k && s.spareOf key e.2.1 == some k with
  | some e => lineOfRow key e.2.1
  | none => if key < 32 then ⟨.config, key, 8192 + k⟩ else ⟨.target, key - 32, 5120 + k⟩

/-- The lines that Polish reads in one cycle at a cursor: beside a configuration line the state line at the cursor
mod 4,096. -/
def State.polishLines (s : State) (key c : Nat) : List LineId :=
  if key < 32 then
    [if c < 8192 then ⟨.config, key, c⟩ else s.spareLine key (c - 8192), ⟨.state, key, c % 4096⟩]
  else if key < 48 then [if c < 5120 then ⟨.target, key - 32, c⟩ else s.spareLine key (c - 5120)]
  else if key = 48 then [⟨.system, 0, c⟩]
  else if key = 49 then [⟨.index, 0, c⟩]
  else [⟨.clasp, 0, c⟩]

/-- A Polish read; the corrected line is written back. -/
def polishLine (s : State) (l : LineId) : State :=
  if s.lineErr l = 0 then s
  else
    let s := readLine 1 true s l
    s.setRas { s.ras with
      uncounted := s.ras.uncounted.filter (· != l), writeBack := s.ras.writeBack.filter (· != l) }

/-- One Polish read cycle, and whether it needs its write-back cycle. -/
def polishCycle (s : State) (key c : Nat) : State × Nat :=
  let ls := s.polishLines key c
  if ls.any fun l => s.lineErr l != 0 then (ls.foldl polishLine s, 1) else (s, 0)

/-- What is left of the two write-back cycles: a retirement that takes both, otherwise queued lines. -/
def writeBackCycles (s : State) (key used : Nat) : State :=
  match s.ras.dueRetire.find? fun e => e.1 == key with
  | some e => if used = 0 then retireRow s e.1 e.2 else queued s
  | none => queued s
where
  queued (s : State) : State :=
    ((s.ras.writeBack.filter fun l => arrayKey l == key).take (2 - used)).foldl freshLine s

/-- The window of one array. -/
def polishArray (s : State) (key : Nat) : State :=
  if s.polishes key then
    let c := Sparse.get 0 s.ras.cursors key
    let (s, a) := polishCycle s key c
    let (s, b) := polishCycle s key (c + 1)
    let s := writeBackCycles s key (a + b)
    let wraps := decide (polishWrap key ≤ c + 2)
    s.setRas { s.ras with
      cursors := Sparse.set 0 s.ras.cursors key (if wraps then 0 else c + 2)
      polishPasses := if wraps && key == 0 then satInc s.ras.polishPasses else s.ras.polishPasses }
  else if s.arrayStands key then writeBackCycles s key 0
  else s

/-- The Polish windows of a tick. -/
def tickPolish (s : State) : State := (List.range 51).foldl polishArray s

/-! ## Injection (R347) -/

/-- A write of `MW_RAS_INJECT`. -/
def writeInject (s : State) (data : W32) : State :=
  let symbols : BitVec 2 := field data 8 2
  let bank : BitVec 6 := field data 0 6
  if symbols = 0 ∨ symbols = 3 ∨ 47 < bank.toNat then s.setRas { s.ras with arm := false }
  else s.setRas { s.ras with symbols := symbols, injBank := bank, arm := s.ras.arm || data.getLsbD 31 }

/-! ## Parity of internal buses (R337, R338) -/

/-- The logical engine that a physical engine serves. -/
def State.servedBy (s : State) (physical : BitVec 3) : Option (BitVec 2) :=
  [0, 1, 2, 3].find? fun e => s.logical e == physical

/-- A line takes the outcome of an uncorrectable read (R338). -/
def loseLine (s : State) (l : LineId) : State := rewriteLine (noteUncorrectable (freshLine s l) 0 l) l

/-- A failed repeat on a path makes the fatal request (R338). -/
def fatalPath : BusPath → Bool
  | .engine _ => false
  | .tableBank _ => false
  | .targetBank _ => false
  | .fabricInbound _ => true
  | .other => true

/-- A beat in error (R337, R338). Under block reset the block outside Locket stands still, but a fatal request still sets FATAL,
and the reset in progress governs (R399). -/
def execInternalBusParityError (path : BusPath) (repeatFails : Bool) (s : State) : Host.Outcome State Fault Refusal :=
  .next <|
    if s.hm.powerOff then s
    else match s.hm.inReset with
    | some (_, cold) => if repeatFails && fatalPath path && !cold then s.setRas { s.ras with fatal := true } else s
    | none =>
      let s := raiseSource (s.setRas { s.ras with busParity := true, parity := satInc s.ras.parity }) 0x264
      if !repeatFails then s
      else match path with
        | .engine p => match s.servedBy p with
          | some e => engineFault s e
          | none => if p = 4 then spareFault s else s
        | .tableBank l => loseLine s l
        | .targetBank l => loseLine s l
        | .fabricInbound _ => fatalRequest s
        | .other => fatalRequest s

end Sys2Proof.Machine
end

