-- ==== Sys2Proof/Machine/Boot.lean ====
section
/-! DEFINITION. Reset and start-up: cold and block reset (R11, R12, R386), the ten steps with their attempts and records (R353 to R362), safe-minimum mode (R363), the FM's restart (R365), reports (R366), and the loss of power (R360, R398). -/
namespace Sys2Proof.Machine

/-! ## Reset -/

/-- What flash and fuses keep (R11): images, the copies of the records, the field repair store and the wear counts. -/
def coldState (s : State) : State :=
  let fw := s.mbx.fw
  { pending := s.pending
    mbx := { fw := {
      slot0 := fw.slot0, slot1 := fw.slot1, runSlot := fw.runSlot, hasRun := fw.hasRun, nextSlot := fw.nextSlot } }
    bead := { latched := s.bead.latched }
    bnd := { linkUp := s.bnd.linkUp, present := s.bnd.present, contained := s.bnd.contained }
    ras := {
      fieldFlash := s.ras.fieldFlash, flashHours := s.ras.flashHours, flashAged := s.ras.flashAged
      flashRetire := s.ras.flashRetire }
    hm := {
      flashA := s.hm.flashA, flashB := s.hm.flashB, newestB := s.hm.newestB, startNo := s.hm.startNo
      powerOff := s.hm.powerOff } }

/-- What Locket keeps of its own units across a block reset (R11, R29, R221, R260, R264, R309, R331, R351). SPARE_IN_USE
stands with the engine map that the reset keeps (R126, R135; log entry 57), and the lanes that failed their last PAM4_CHECK
are known to the next start (R357, log entry 27). -/
def blockState (s : State) : State :=
  let c := coldState s
  let b := s.bead
  let u := s.pwr
  let settle (_ : Nat) (r : DomainRec) : DomainRec :=
    { r with trans := .none, stuck := false, latched := none, lateSeen := false, logicSeen := false }
  let r := s.ras
  { c with
    frame := {
      current := s.frame.current, request := s.frame.current, timeCycles := s.frame.timeCycles
      sleepErrNs := s.frame.sleepErrNs, sleeps := s.frame.sleeps, masterId := s.chipId }
    tgt := {
      logical0 := s.tgt.logical0, logical1 := s.tgt.logical1, logical2 := s.tgt.logical2, logical3 := s.tgt.logical3
      retired := s.tgt.retired, spareInUse := s.tgt.spareInUse }
    chain := {
      eastCfg := s.chain.eastCfg, westCfg := s.chain.westCfg, members := BitVec.twoPow 16 s.chipId.toNat
      eastPhy := { failed := s.chain.eastPhy.failed }, westPhy := { failed := s.chain.westPhy.failed }
      retimerOn := s.chain.retimerOn, released := s.chain.released, retimerUsed := s.chain.retimerUsed }
    bead := {
      strap := b.strap, latched := b.latched, wakeEdge := b.wakeEdge, level := b.level
      held := BitVec.allOnes 16, syncHeld := true
      resetHeld := b.resetHeld ||| ~~~ b.held, resetSyncHeld := b.resetSyncHeld || !b.syncHeld }
    pwr := { u with
      domains := Sparse.mapVals {} settle u.domains, watch := []
      stopped := false, firstTick := none, waiting := [], lostActive := [], lostBanks := 0, retLines := []
      coreCold := false }
    ras := {
      fatal := r.fatal, fieldStore := r.fieldStore, fieldCopied := r.fieldCopied, fieldFlash := r.fieldFlash
      fuseSpares := r.fuseSpares, retiredRows := r.retiredRows, poweredHours := r.poweredHours, agedUnits := r.agedUnits
      lifeDays := r.lifeDays, tempSum := r.tempSum, tempCount := r.tempCount, tempMissing := r.tempMissing
      retireHours := r.retireHours, flashHours := r.flashHours, flashAged := r.flashAged, flashRetire := r.flashRetire
      freeReads := r.freeReads }
    hm := {
      records := s.hm.records, flashA := s.hm.flashA, flashB := s.hm.flashB, newestB := s.hm.newestB
      startNo := s.hm.startNo, flashCopyFail := s.hm.flashCopyFail
      restartRefused := s.hm.restartRefused, failed := s.hm.failed, toReport := s.hm.toReport, step := 2
      powerOff := s.hm.powerOff } }

/-- A block reset with its cause is asserted. -/
def assertBlock (s : State) (cause : Byte) : State :=
  let t := refreshRetimer (blockState s)
  t.setHm { t.hm with inReset := some (cause, false) }

/-- POR_N: everything returns to reset state, whatever was in progress. -/
def execColdReset (s : State) : Host.Outcome State Fault Refusal :=
  .next <|
    let t := coldState s
    t.setHm { t.hm with inReset := some (0, true), powerOff := false }

/-- BLK_RST_N, by the switch or in answer to a fatal request. A cold reset in progress governs (R12). -/
def execBlockReset (s : State) : Host.Outcome State Fault Refusal :=
  .next <|
    match s.hm.inReset with
    | some (_, true) => s
    | _ => assertBlock s (if s.ras.fatalReq then 3 else 1)

/-- The switch loses power: what Locket had not copied to flash is lost. -/
def execPowerLost (s : State) : Host.Outcome State Fault Refusal :=
  .next <|
    let t := coldState s
    t.setHm { t.hm with inReset := some (0, true), powerOff := true }

/-! ## Attempts (R356) -/

/-- Step outcome byte (R362): action, result, detail. -/
def outcome (action result : Nat) (detail : BitVec 4) : Byte :=
  BitVec.ofNat 8 (64 * action + 16 * result + detail.toNat)

/-- The record shows the step failed. -/
def HmRecord.stepFailed (r : HmRecord) (n : Nat) : Bool :=
  let b := r.steps.getD (n - 1) 0xF0
  (field b 4 2 : BitVec 2) == 2

/-- Consecutive failures of a step over records, the most recent first. A record of cause 4 ends the count. -/
def failures (n : Nat) : List HmRecord → Nat
  | [] => 0
  | r :: rest =>
    if !r.stepFailed n then 0
    else if r.cause = 4 then 1
    else 1 + failures n rest

/-! ## A start in progress -/

/-- What a start carries from step to step: the state, its record, and how it ends. -/
structure Start where
  st      : State
  record  : HmRecord
  earlier : List HmRecord
  env     : StartEnv
  /-- In safe-minimum mode. -/
  safe    : Bool
  /-- A mandatory step has failed and the block restarts itself. -/
  restart : Bool
  deriving DecidableEq, Repr

/-- The attempt number of a step; an FM restart counts no earlier failure (R365). -/
def Start.attempt (b : Start) (n : Nat) : Nat := if b.record.cause = 4 then 0 else failures n b.earlier

/-- The outcome of a step enters the record; a failed or degraded step is to be reported (R366). -/
def Start.note (b : Start) (n : Nat) (o : Byte) : Start :=
  let bad : BitVec 2 := field o 4 2
  let report := if bad = 1 ∨ bad = 2 then BitVec.twoPow 10 (n - 1) else 0
  { b with
    record := { b.record with steps := b.record.steps.set (n - 1) o }
    st := b.st.setHm { b.st.hm with toReport := b.st.hm.toReport ||| report } }

/-- CRC-32 of a set of records: the computation of R266 over its bytes, each from bit 7 down (R360, log entry 59). -/
def setCrc (rs : List HmRecord) : W32 :=
  ~~~((rs.flatMap recordBytes).foldl (fun r b =>
    (List.range 8).foldl (fun r i => crcBit r (b.getLsbD (7 - i))) r) 0xFFFFFFFF)

/-- A copy with its CRC, as it is written. -/
def flashCopy (rs : List HmRecord) : FlashCopy := { records := rs, crc := setCrc rs }

/-- The set of records is written over the older of the two flash copies; a write that fails leaves that copy invalid and the
other one standing (R360, R367). -/
def Start.copyOut (b : Start) : Start :=
  let h := b.st.hm
  let new := flashCopy ((b.record :: b.earlier).take 8)
  let new := if b.env.flashCopyOk then new else { new with crc := ~~~ new.crc }
  let h := if h.newestB then { h with flashA := new } else { h with flashB := new }
  let h := if b.env.flashCopyOk then { h with newestB := !h.newestB } else { h with flashCopyFail := true }
  { b with st := b.st.setHm h }

/-- The copy that a cold start reads: the one written last where it is valid, otherwise the other; and the detail of R362.
`badA` and `badB`: the flash gives the copy back with errors. -/
def readCopies (h : HmUnit) (badA badB : Bool) : Option FlashCopy × BitVec 4 :=
  let ok (c : FlashCopy) (bad : Bool) : Bool := !bad && c.crc == setCrc c.records
  let a := (h.flashA, ok h.flashA badA)
  let b := (h.flashB, ok h.flashB badB)
  let (first, other) := if h.newestB then (b, a) else (a, b)
  if first.2 then (some first.1, 0) else if other.2 then (some other.1, 1) else (none, 2)

/-- Entry to safe-minimum mode: every TBL quarter is placed in OFF (R363). -/
def Start.enterSafe (b : Start) (n : Nat) (forced : Bool) : Start :=
  let mode : Byte := b.record.mode ||| 1 ||| (if forced then 2 else 0)
  let b := { b with
    safe := true
    record := { b.record with mode := mode, duration := b.env.durationUs }
    st := b.st.setHm { b.st.hm with safeMin := true, strapForced := forced, safeStep := BitVec.ofNat 4 n } }
  b.copyOut

/-- A mandatory step that fails: safe-minimum mode after two failing records before it, otherwise a self restart. -/
def Start.fails (b : Start) (n : Nat) : Start :=
  if b.safe then b
  else if 2 ≤ b.attempt n then b.enterSafe n false
  else { b with restart := true }

/-- A mandatory step: its outcome, and the state that it leaves when it passes. -/
def Start.mandatory (b : Start) (n : Nat) (fate : StepFate) (work : Start → Start) : Start :=
  if b.restart then b
  else
    let action := if b.attempt n = 0 then 0 else 1
    match fate with
    | .pass => work (b.note n (outcome action 0 0))
    | .degraded d => work (b.note n (outcome action 1 d))
    | .fail d => (b.note n (outcome action 2 d)).fails n

/-! ## Steps 1 to 5 -/

/-- Straps by majority of five samples (R296): the values, and whether a bit's samples disagreed. -/
def majority (samples : List (BitVec 16)) : BitVec 16 × Bool :=
  let ones (i : Nat) : Nat := (samples.filter fun x => x.getLsbD i).length
  (packBits 16 ((List.range 16).map fun i => decide (3 ≤ ones i)),
    (List.range 16).any fun i => ones i != 0 && ones i != samples.length)

/-- Step 1 of a cold start: straps are sampled, LKT_CLK calibrated, records and stores restored from flash. -/
def Start.locketUp (b : Start) : Start :=
  let (strap, unstable) := majority b.env.straps
  let near := 124518 ≤ b.env.calibration.toNat ∧ b.env.calibration.toNat ≤ 137626
  let (copy, read) := readCopies b.st.hm b.env.flashBadA b.env.flashBadB
  let detail : BitVec 4 := if read = 0 && !near then 3 else read
  let result := if detail = 0 then 0 else 1
  let s := b.st
  let s := s.setBead { s.bead with
    strap := strap, unstable := unstable, reserved := (field strap 8 8 : BitVec 8) != 0 }
  let s := s.setPwr { s.pwr with lktCal := if near then b.env.calibration else 0x20000 }
  let s := s.setFrame { s.frame with masterId := s.chipId }
  let s := s.setChain { s.chain with members := BitVec.twoPow 16 s.chipId.toNat }
  let s := if copy.isSome then s.setRas { s.ras with
      fieldStore := s.ras.fieldFlash, fieldCopied := s.ras.fieldFlash.length
      poweredHours := s.ras.flashHours, agedUnits := s.ras.flashAged, retireHours := s.ras.flashRetire }
    else s
  { b with st := refreshRetimer s, earlier := (copy.map FlashCopy.records).getD [] }.note 1 (outcome 0 result detail)

/-- Fuses and field repair: an entry that names a spare of a fuse entry is ignored (R343). -/
def Start.repair (b : Start) : Start :=
  let fused (e : Nat × BitVec 14 × Nat) : Bool := b.env.fuseSpares.any fun f => f.1 == e.1 && f.2.2 == e.2.2
  let (drop, keep) := b.st.ras.fieldStore.partition fused
  { b with
    st := b.st.setRas { b.st.ras with fuseSpares := b.env.fuseSpares, fieldStore := keep }
    record := { b.record with ignored := BitVec.ofNat 16 drop.length } }

/-- Rows that BIST repairs take the lowest free spare of their bank and enter the field repair store. -/
def repairRow (s : State) (e : Nat × BitVec 14) : State :=
  match s.freeSpare e.1 with
  | some k => s.setRas { s.ras with fieldStore := s.ras.fieldStore ++ [(e.1, e.2, k)] }
  | none => s

/-- A start in safe-minimum mode, or the alternative of a step, leaves a bad bank out (R357, R359, R363). -/
def Start.leavesOut (b : Start) (n : Nat) : Bool := b.safe || decide (1 ≤ b.attempt n)

/-- Quarters and target banks leave service. -/
def leaveOut (s : State) (tbl : BitVec 4) (tgt : BitVec 16) : State :=
  s.setPwr { s.pwr with tblOut := s.pwr.tblOut ||| tbl, tgtOut := s.pwr.tgtOut ||| tgt }

/-- A mandatory step with work of its own: the state it leaves, what it found, and whether it fails. -/
def Start.ended (b : Start) (n : Nat) (fails degraded : Bool) (detail : BitVec 4) : Start :=
  let action := if b.attempt n = 0 then 0 else 1
  let b' := b.note n (outcome action (if fails then 2 else if degraded then 1 else 0) detail)
  if fails then b'.fails n else b'

/-- Step 3: rows of banks in service are repaired while their bank has the spares; a bank with more faulty rows than spares
is left out or fails the step, as does a faulty CORE array or CTRL RAM (R353, R357, R359). -/
def Start.bist (b : Start) : Start :=
  if b.restart then b
  else
    let rows := b.env.bistRows.filter fun e => !b.st.bankOut e.1
    let short (k : Nat) : Bool := decide (b.st.sparesLeft k < (rows.filter fun e => e.1 == k).length)
    let repaired := rows.filter fun e => !short e.1
    let tbl : BitVec 4 := packBits 4 ((List.range 4).map fun q => (List.range 8).any fun i => short (8 * q + i))
    let tgt : BitVec 16 := packBits 16 ((List.range 16).map fun i => short (32 + i))
    let bad := tbl != 0 || tgt != 0
    let out := bad && b.leavesOut 3
    let s := repaired.foldl repairRow b.st
    let b := { b with st := if out then leaveOut s tbl tgt else s }
    b.ended 3 (b.env.bistCore || b.env.bistCtrl || (bad && !out)) out
      (place 4 (bit 1 (!repaired.isEmpty)) 0 ||| place 4 (bit 1 out) 1 ||| place 4 (bit 1 b.env.bistCore) 2
        ||| place 4 (bit 1 b.env.bistCtrl) 3)

/-- Step 5: a bank in service that fails a verify read is left out or fails the step (R353, R357). -/
def Start.initTables (b : Start) : Start :=
  if b.restart then b
  else
    let tbl := b.env.verifyTbl &&& ~~~ b.st.pwr.tblOut
    let tgt := b.env.verifyTgt &&& ~~~ b.st.pwr.tgtOut
    let bad := tbl != 0 || tgt != 0
    let out := bad && b.leavesOut 5
    let b := { b with st := if out then leaveOut b.st tbl tgt else b.st }
    b.ended 5 (b.env.verifyCore || (bad && !out)) out (if b.env.verifyCore || bad then 1 else 0)

/-- The slot that step 4 loads, and whether NEXT_START_ONLY named it: the alternative is the other slot from that of
the preceding start. -/
def Start.slot (b : Start) : Option (Bool × Bool) :=
  match b.earlier with
  | r :: _ =>
    if b.attempt 4 = 0 then b.st.normalSlot
    else if (b.st.mbx.fw.image (!r.slot.getLsbD 0)).isSome then some (!r.slot.getLsbD 0, false)
    else none
  | [] => b.st.normalSlot

/-- The kernel of a slot starts: the firmware runs, its regions are loaded and MPU-C is enabled (R243, R353). -/
def startKernel (s : State) (slot : Bool) : State :=
  let fw := s.mbx.fw
  let s := s.setFw { fw with
    runSlot := slot, hasRun := true, ran := true, alive := true, ifRev := 3
    version := (fw.image slot).getD fw.version }
  s.setMpu 0 { loadKernelRegions (s.mpu 0) with enable := true }

/-- Step 4 (R357). -/
def Start.firmware (b : Start) : Start :=
  if b.restart then b
  else
    let (slot, next, fate) : Bool × Bool × StepFate := match b.slot with
      | some (slot, next) => (slot, next, b.env.step4)
      | none => (b.st.mbx.fw.runSlot, false, .fail 5)
    let s := if next then b.st.setFw { b.st.mbx.fw with nextSlot := none } else b.st
    let b := { b with
      st := s, record := { b.record with slot := place 8 (bit 1 slot) 0 ||| place 8 (bit 1 next) 1 } }
    b.mandatory 4 fate fun b => { b with st := startKernel b.st slot }

/-! ## Steps 6 to 10 -/

/-- The lanes that a start's training marks bad: those without signal once CDR_LOCK has been reached (R255, R361). -/
def fateMarks : PortFate → BitVec 3
  | .up l _ _ _ _ _ => ~~~ l.signal
  | .noPeer => 0
  | .pending => 0
  | .fail l _ => ~~~ l.signal

/-- The port as CDR_LOCK and PAM4_CHECK have left it in a start's training (R253, R255). -/
def fateChecked (u : PhyPort) (l : LaneFate) : PhyPort :=
  checkedPort { u with signal := l.signal, locked := l.signal, markedBad := u.markedBad ||| ~~~ l.signal } l.errors

/-- A port that trains in its step: UP with what the peer gave, or on its way. -/
def trainedPort (s : State) (p : PortId) (fate : PortFate) (half : Bool) : State :=
  let bad := (s.phy p).failed
  let s := enterDetect s p
  let s := s.setPhy p { s.phy p with halfRate := half, markedBad := if half then bad else 0 }
  match fate with
  | .up l peer tx rx delay adv =>
    let u := fateChecked (s.phy p) l
    let s := s.setPhy p (showSpare s.chainMode { u with
      peerChip := peer, chosenValid := true, txLanes := tx, rxLanes := rx })
    completeInit (s.setLinkPort p { s.linkPort p with hopDelay := delay, advertised := adv }) p
  | .noPeer => s
  | .pending => s
  | .fail l d =>
    let u := fateChecked (s.phy p) l
    let s := s.setPhy p { s.phy p with failed := u.failed, inForce := u.inForce }
    if d = 6 then s.setLinkPort p { s.linkPort p with initFail := true }
    else
      let u := s.phy p
      s.setPhy p { u with trainFail := true, wiring := decide (d = 4), idClash := decide (d = 5) }

def portOutcome : PortFate → Nat × BitVec 4
  | .up _ _ _ _ _ _ => (0, 0)
  | .noPeer => (0, 1)
  | .pending => (0, 2)
  | .fail _ d => (2, d)

/-- Steps 6 and 7: not run with the strap off or in safe-minimum mode, skipped after two failures, at half rate after
one. -/
def Start.train (b : Start) (n : Nat) (p : PortId) (fate : PortFate) : Start :=
  if b.restart || b.safe || !b.st.portAllowed p then b
  else
    let a := b.attempt n
    if 2 ≤ a then b.note n 0x80
    else
      let half := decide (a = 1)
      let mark := fateMarks fate ||| (if half then (b.st.phy p).failed else 0)
      let shift := if n = 6 then 0 else 3
      let b := { b with
        st := trainedPort b.st p fate half
        record := { b.record with
          mode := b.record.mode ||| (if half then (if n = 6 then 4 else 8) else 0)
          lanesOut := b.record.lanesOut ||| place 8 mark shift } }
      b.note n (outcome a (portOutcome fate).1 (portOutcome fate).2)

/-- CHAIN_BYP_N is released at the start of step 6 when the strap is not 0 (R260). -/
def Start.release (b : Start) : Start :=
  if b.restart || b.safe || b.st.chainMode == 0 then b
  else { b with st := b.st.setChain { b.st.chain with released := true } }

/-- Step 8: straps are committed, and the pads that block resets held take their run role from the next round (R298). -/
def Start.beads (b : Start) : Start :=
  if b.restart then b
  else
    let u := b.st.bead
    let d : BitVec 4 := place 4 (bit 1 u.unstable) 0 ||| place 4 (bit 1 u.reserved) 1
    let b := { b with st := b.st.setBead { u with
      committed := true, held := u.held &&& ~~~ u.resetHeld, syncHeld := u.syncHeld && !u.resetSyncHeld
      resetHeld := 0, resetSyncHeld := false, level := 0 } }
    b.note 8 (outcome 0 (if d = 0 then 0 else 1) d)

/-- The condition levels that stand at step 9 (R70). -/
def presentLevels (s : State) : State :=
  let ports (s : State) (base : Nat) (v : BitVec 80) : State :=
    ((List.range 80).filter fun p => v.getLsbD p).foldl (fun s p => setLevel s (base + p) true) s
  let s := ports (ports (ports s 0 s.bnd.linkUp) 0x180 s.bnd.present) 0x200 s.bnd.contained
  let s := setLevel s 0x26E s.hm.safeMin
  ((List.range 16).filter fun c => s.isLive (BitVec.ofNat 4 c)).foldl (fun s c => setLevel s (0x4C0 + c) true) s

/-- Core cycles, and the bound in nanoseconds, of a count of LKT_CLK (R321, R322). -/
def sleepCycles (l c : Nat) : Nat := 16 * (l * c / 16384) + 64
def sleepBound (g : Nat) : Nat := (g + 7999) / 8000 + 160

/-- The time of a block reset, from its assertion to the first tick of step 9 (R221). -/
def addResetTime (s : State) (l : BitVec 48) : State :=
  let g := sleepCycles l.toNat s.pwr.lktCal.toNat
  s.setFrame { s.frame with
    timeCycles := s.frame.timeCycles + BitVec.ofNat 64 g
    sleepErrNs := s.frame.sleepErrNs + BitVec.ofNat 64 (sleepBound g) }

/-- Step 9: the first tick, with FRAME_COUNT 0 (its work follows in Wake.lean); the levels that stand raise their edges, and each failed or degraded
step is reported (R366). -/
def Start.fastPath (b : Start) (cold : Bool) : Start :=
  b.mandatory 9 b.env.step9 fun b =>
    let s := b.st
    let s := s.setFrame { s.frame with running := true, coreClock := decide (1 ≤ b.attempt 9) }
    let s := if s.alone then aloneMaster s
      else s.setFrame { s.frame with isMaster := false, ringMaster := false, masterGap := 1, markerGap := 1 }
    let s := s.setFrame { s.frame with localTicks := s.frame.localTicks + 1, tickTime := b.env.tick.now }
    let s := if cold then s else addResetTime s b.env.lktCount
    let s := presentLevels (refreshLife s)
    let s := if s.hm.toReport = 0 then s else raiseSource s 0x26D
    { b with st := s.setHm { s.hm with failed := s.hm.failed ||| s.hm.toReport, toReport := 0 } }

/-- Step 10: the tenant windows open, and READY. -/
def Start.windows (b : Start) : Start :=
  b.mandatory 10 b.env.step10 fun b => { b with st := b.st.setHm { b.st.hm with ready := true } }

/-! ## The start -/

/-- Every domain is ON but the quarters left out, and in safe-minimum mode every quarter. -/
def Start.domains (b : Start) : Start :=
  let one (s : State) (d : Nat) : State :=
    s.setDom d { s.dom d with state := if s.keptOff d then .off else .on, trans := .none }
  { b with st := (List.range 11).foldl (fun s i => one s (i + 1)) b.st }

/-- The record is that of the finished start: the masks of what is left out, and its duration. -/
def Start.finish (b : Start) : Start :=
  let r := { b.record with
    tgtOut := b.st.pwr.tgtOut, tblOut := b.st.pwr.tblOut.setWidth 8
    duration := if b.safe then b.record.duration else b.env.durationUs }
  let b := { b with record := r }
  let b := if b.restart then b else b.copyOut
  let s := b.st
  { b with st := s.setHm { s.hm with records := (r :: b.earlier).take 8, step := 0xF } }

/-- The steps in order, from the state in reset. -/
def runStart (s : State) (env : StartEnv) (cause : Byte) (cold : Bool) : State :=
  let s := s.setBnd { s.bnd with linkUp := env.linkUp, present := env.present, contained := env.contained }
  let s := s.setTen { s.ten with managerPort := env.managerPort, upstream := env.upstream }
  let s := s.setHm { s.hm with inReset := none, powerOff := false, startNo := s.hm.startNo + 1 }
  let b : Start := {
    st := s, earlier := s.hm.records, env := env, safe := false, restart := false
    record := { startNo := s.hm.startNo, cause := cause, steps := List.replicate 10 0xF0 } }
  let b := if cold then b.locketUp else b
  let b := { b with record := { b.record with powered := b.st.ras.poweredHours } }
  let b := if b.st.bead.strap.getLsbD 7 then b.enterSafe 0 true else b
  let b := b.copyOut.mandatory 2 env.step2 fun b => b.repair
  let b := b.bist.firmware.initTables.domains.release
  let b := b.train 6 .east env.east
  let b := b.train 7 .west env.west
  let b := (b.beads.fastPath cold).windows
  let b := b.finish
  if b.restart then assertBlock b.st 2 else b.st

/-! ## FM restart (R365) -/

/-- A write of `HM_CTRL`. -/
def writeHmCtrl (s : State) (data : W32) : State :=
  if data.getLsbD 0 then
    if s.hm.safeMin || s.hm.ready then assertBlock s 4
    else s.setHm { s.hm with restartRefused := true }
  else s

end Sys2Proof.Machine
end

