-- ==== Sys2Proof/WellFormed.lean ====
section
/-! DEFINITION. Well-formed commands: every operand names something that the block has. -/
namespace Sys2Proof

/-- A switch port, 0 to 79 (00_scope). -/
def portOk (p : BitVec 7) : Bool := decide (p.toNat < 80)

/-- A mailbox: 0 to 63 of the tenants, 64 of the manager (R183). -/
def mailboxOk (m : BitVec 7) : Bool := decide (m.toNat ≤ 64)

/-- A switchable domain, 1 to 11 (R222). -/
def domainOk (d : BitVec 4) : Bool := decide (1 ≤ d.toNat ∧ d.toNat ≤ 11)

/-- A line of an array, within the organisation of R20 with 16 spare and 2 canary rows behind the lines of a bank, and of
CTRL RAM (R233). -/
def lineOk (l : LineId) : Bool :=
  match l.arr with
  | .config => decide (l.bank < 32 ∧ l.line < 8210)
  | .state => decide (l.bank < 32 ∧ l.line < 4096)
  | .target => decide (l.bank < 16 ∧ l.line < 5138)
  | .system => decide (l.bank = 0 ∧ l.line < 1536)
  | .index => decide (l.bank = 0 ∧ l.line < 4180)
  | .clasp => decide (l.bank = 0 ∧ l.line < 1024)
  | .capture => decide (l.bank = 0 ∧ l.line < 256)
  | .ctrl => decide (l.bank = 0 ∧ l.line < 16384)

def upsetOk (u : Upset) : Bool := lineOk u.line

/-- The accesses that the controller makes (R238): data of 1, 2, 4 or 8 bytes, lines of 32 bytes, fetches of 4 bytes. -/
def coreAccessOk (a : CoreAccess) : Bool :=
  match a.kind.toNat with
  | 2 => decide (a.size.toNat = 4) && decide (a.addr.toNat % 4 = 0)
  | 3 => false
  | _ => [1, 2, 4, 8].contains a.size.toNat || (decide (a.size.toNat = 32) && decide (a.addr.toNat % 32 = 0))

def busPathOk (p : BusPath) : Bool :=
  match p with
  | .engine e => decide (e.toNat < 5)
  | .tableBank l => lineOk l && (l.arr == .config || l.arr == .state)
  | .targetBank l => lineOk l && l.arr == .target
  | .fabricInbound _ => true
  | .other => true

/-- A start: five strap samples (R296), spares and repairs of the 48 banks that have spare rows (R343), a port of the
switch. -/
def envOk (e : StartEnv) : Bool :=
  decide (e.straps.length = 5) && portOk e.managerPort && e.fuseSpares.all (fun b => decide (b.1 < 48 ∧ b.2.2 < 16)) &&
    e.bistRows.all (fun r => decide (r.1 < 48)) && e.tick.upsets.all upsetOk

/-- The operands of a command are in range. -/
def Instr.wf (i : Instr) : Bool :=
  match i with
  | .coldReset => true
  | .blockReset => true
  | .frameTick inp => inp.upsets.all upsetOk
  | .timerFire _ => true
  | .claspHoldoffEnd _ => true
  | .periodChangeApply => true
  | .decisionCommit _ _ => true
  | .decisionWithdraw _ => true
  | .reissueCommit _ _ => true
  | .intakeWrite _ => true
  | .intakeDrain => true
  | .captureDrain => true
  | .srcSetPending _ _ _ => true
  | .srcClrPending _ _ => true
  | .srcSetEnable _ _ => true
  | .srcClrEnable _ _ => true
  | .srcClrSticky _ _ => true
  | .systemLaneTake => true
  | .portLinkChange port _ => portOk port
  | .portPresenceChange port _ => portOk port
  | .portContained port => portOk port
  | .corValid port => portOk port
  | .uncValid port => portOk port
  | .chainEvent _ _ => true
  | .tgtComplete _ _ _ _ => true
  | .tgtCompleteSeq _ _ _ _ => true
  | .completionDrain => true
  | .dropNotice _ _ _ => true
  | .tgtPrivSet _ _ _ => true
  | .tgtPrivClr _ _ _ => true
  | .tgtPrivEnable _ _ _ => true
  | .privateLaneApply => true
  | .tgtCtrl _ _ _ => true
  | .tgtTimerCtrl _ _ _ => true
  | .messagePassStart => true
  | .systemPassStart => true
  | .refillPassEnd => true
  | .mailboxRing _ => true
  | .mailboxCancel _ => true
  | .commandTake mb => mailboxOk mb
  | .replyDeposit mb => mailboxOk mb
  | .getInfo mb => mailboxOk mb
  | .targetGrant mb => mailboxOk mb
  | .targetWithdraw mb => mailboxOk mb
  | .setDaddr mb => mailboxOk mb
  | .setNotice mb => mailboxOk mb
  | .vectorRangeGrant mb => mailboxOk mb
  | .vectorRangeWithdraw mb => mailboxOk mb
  | .clearSweepEnd _ => true
  | .vectorSet mb => mailboxOk mb
  | .vectorLoad mb => mailboxOk mb
  | .loaderReadCompletion mb _ _ => mailboxOk mb
  | .loaderReadTimeout mb => mailboxOk mb
  | .vectorRead mb => mailboxOk mb
  | .forwardSet mb => mailboxOk mb
  | .setInterval mb => mailboxOk mb
  | .setAssign mb => mailboxOk mb
  | .watchAdd mb => mailboxOk mb
  | .watchRemove mb => mailboxOk mb
  | .tenantReset mb => mailboxOk mb
  | .tenantResetWork _ => true
  | .tenantResetEnd _ => true
  | .resync mb => mailboxOk mb
  | .faultRead mb => mailboxOk mb
  | .faultClear mb => mailboxOk mb
  | .statsRead mb => mailboxOk mb
  | .timeRead mb => mailboxOk mb
  | .domainPower mb => mailboxOk mb
  | .padRelease mb => mailboxOk mb
  | .mpuConfigRead mb => mailboxOk mb
  | .mpuConfigWrite mb => mailboxOk mb
  | .setLdt mb => mailboxOk mb
  | .setCtle mb => mailboxOk mb
  | .chainRetrain mb => mailboxOk mb
  | .chainDisable mb => mailboxOk mb
  | .chainEnable mb => mailboxOk mb
  | .setInputs mb => mailboxOk mb
  | .setOutputs mb => mailboxOk mb
  | .repairStatus mb => mailboxOk mb
  | .hallmarkRead mb => mailboxOk mb
  | .fwStage mb _ => mailboxOk mb
  | .fwActivate mb => mailboxOk mb
  | .nextStartOnly mb => mailboxOk mb
  | .fwFallback => true
  | .debugConsent mb => mailboxOk mb
  | .consentLapse _ => true
  | .agentRestart _ access => access.all coreAccessOk
  | .firmwareRestart access => access.all coreAccessOk
  | .restartComplete _ => true
  | .smbusBlockWrite _ data _ => decide (data.length ≤ 7)
  | .smbusProcessCall _ _ _ => true
  | .periodRequest _ _ => true
  | .intakeBaseWrite _ _ _ => true
  | .weightWrite _ _ _ => true
  | .tenantBind _ _ _ => true
  | .viewSelect _ _ => true
  | .frameCountLoRead _ => true
  | .fmRestart _ _ => true
  | .rasInject _ _ => true
  | .histClear _ _ => true
  | .mpuEnableWrite _ unit _ => decide (unit.toNat < 3)
  | .mpuSync _ unit => decide (unit.toNat < 3)
  | .mpuRegionWrite _ unit _ _ _ => decide (unit.toNat < 3)
  | .registerWrite _ _ bytes _ _ => decide (bytes ≤ 8)
  | .debugAccess _ => true
  | .tickMarkerReceive _ _ _ _ => true
  | .markerTimeout => true
  | .mastershipHandover => true
  | .signalDetect _ _ => true
  | .detectTimeout _ => true
  | .cdrLock _ _ => true
  | .cdrLockTimeout _ => true
  | .pam4Check _ errors => decide (errors.length = 3)
  | .trainingSetReceive _ _ => true
  | .markerBlock _ lane _ => decide (lane.toNat < 3)
  | .deskewTimeout _ => true
  | .init _ _ _ => true
  | .initEcho _ _ _ => true
  | .initTimeout _ => true
  | .laneLockLoss _ lane => decide (lane.toNat < 3)
  | .sparingTimeout _ => true
  | .linkDown _ => true
  | .downRetry _ => true
  | .flitTransmit _ _ => true
  | .dataFlitReceive _ _ => true
  | .linkFlitReceive _ _ => true
  | .replayTimeout _ => true
  | .e2eResend _ => true
  | .creditOverdue _ _ => true
  | .allowOverdue _ _ => true
  | .beadWakeEdge _ => true
  | .entryComplete d => domainOk d
  | .regRdy d => domainOk d
  | .clkRdy d => domainOk d
  | .memRdy d ret => domainOk d && ret.upsets.all upsetOk
  | .logicRdy d _ _ => domainOk d
  | .phaseDeadline d => domainOk d
  | .exitTimeout d => domainOk d
  | .regRdyFall d => domainOk d
  | .lktCalibration _ => true
  | .tempSample _ _ => true
  | .agedHour => true
  | .fieldRepairCopy => true
  | .ctrlScrub upsets => upsets.all upsetOk
  | .rowRetire bank _ => decide (bank.toNat < 48)
  | .internalBusParityError path _ => busPathOk path
  | .registerRead _ _ bytes _ => decide (bytes ≤ 8)
  | .firmwareTblRet _ => true
  | .containedFall port => portOk port
  | .wakeInputFall _ => true
  | .idleFlitReceive _ _ => true
  | .powerLost => true
  | .resetRelease env => envOk env

end Sys2Proof
end

