-- ==== Sys2Proof/Machine/Firmware.lean ====
section
/-! DEFINITION. Firmware images and restarts: FW_STAGE and FW_ACTIVATE (R229, R230), restarts of an agent and of the whole firmware (R194, R239), their completion, the scrub of CTRL RAM (R335, R340), and the FM's restart (R365). -/
namespace Sys2Proof.Machine

/-! ## Restarts (R194) -/

/-- A restart overtakes what a mailbox executes: a load stops at an entry boundary; a command not applied is answered
BUSY_RESTART; one that has been applied keeps its reply. -/
def overtakeBox (s : State) (m : BitVec 7) : State :=
  let s := s.modBox m fun b => { b with restarting := true }
  let b := s.box m
  match b.work with
  | .run => s.setBox m { b with work := .done (refuse stBusyRestart 0xFF) }
  | .waiting => match b.load with
    | some l => endLoad s m l 1
    | none => s
  | .idle => s
  | .done _ => s

/-- The whole firmware restarts. -/
def restartFirmware (s : State) : State :=
  let s := ((List.range 65).map (BitVec.ofNat 7)).foldl overtakeBox s
  let fw := s.mbx.fw
  let s := s.setFw { fw with alive := false, restart := true, loads := false, previous := some fw.runSlot }
  raiseSource (s.setAcu { s.acu with user := false, current := 0x40 }) 0x26A

/-- One tenant's agent restarts. -/
def restartAgent (s : State) (t : Tenant) : State :=
  raiseSource (leaveAgent (overtakeBox s (t.setWidth 7)) t) 0x26A

/-- The kernel runs and no restart of the whole firmware is under way. -/
def State.kernelRuns (s : State) : Bool := s.engineReady && s.mbx.fw.alive && !s.mbx.fw.restart

/-- An access of the agent of tenant `t`, dispatched for it; while MPU-C is disabled no agent is (R244). One that MPU-C
refuses is charged 0x07 and restarts the agent; one that it allows restarts nothing. -/
def agentAccess (s : State) (t : Tenant) (a : CoreAccess) : State :=
  let s := dispatchAgent s t
  if s.acu.user && s.acu.current == t.setWidth 7 then
    let (s, ok, region) := checkController s a
    if ok then s else restartAgent (chargeFault s t 0x07 ((region.setWidth 32 : W32) &&& 0xF)) t
  else s

/-- An access of an agent, or its command that runs past twice its bound, charged 0x08. The controller makes no access
of another size or alignment than those of R238. -/
def execAgentRestart (t : Tenant) (access : Option CoreAccess) (s : State) : Host.Outcome State Fault Refusal :=
  .next <|
    if !s.kernelRuns || (s.box (t.setWidth 7)).restarting || (s.box (t.setWidth 7)).snap.isNone then s
    else match access with
      | some a => if coreAccessOk a then agentAccess s t a else s
      | none => restartAgent (chargeFault s t 0x08 0) t

/-- A kernel access that MPU-C refuses, another kernel fault, or an FM command running past twice its bound. -/
def execFirmwareRestart (access : Option CoreAccess) (s : State) : Host.Outcome State Fault Refusal :=
  .next <|
    if !s.kernelRuns then s
    else match access with
      | some a =>
        if coreAccessOk a then
          let (s, ok, _) := checkController (enterKernel s) a
          if ok then s else restartFirmware s
        else s
      | none => restartFirmware s

/-- The reply of an FW_ACTIVATE. -/
def activateReply (outcome : Nat) (fw : FwUnit) : Reply :=
  okReply ([BitVec.ofNat 8 outcome, bit 8 fw.runSlot, 0, 0] ++ bytesLE 4 fw.version.toNat)

/-- The restarted firmware answers the FW_ACTIVATE that restarted it. -/
def answerActivate (s : State) (fell : Bool) : State :=
  finish s 64 (activateReply (if fell then 1 else 0) s.mbx.fw)

/-- The mailboxes by number. -/
def allBoxes : List (BitVec 7) := (List.range 65).map (BitVec.ofNat 7)

/-- The whole firmware runs again; before that it has deposited the replies of the commands that had been applied
(R194). -/
def firmwareRuns (s : State) : State :=
  let s := allBoxes.foldl depositDone s
  let fw := s.mbx.fw
  let s := s.setMbx { s.mbx with
    boxes := Sparse.mapVals {} (fun _ b => { b with restarting := false }) s.mbx.boxes }
  let s := s.setFw { fw with
    restart := false, loads := false, alive := true, ran := true, hasRun := true, ifRev := 3, previous := none
    activate := false, fellBack := false, version := (fw.image fw.runSlot).getD fw.version }
  let s := s.setMpu 0 { loadKernelRegions (s.mpu 0) with enable := true }
  let s := if fw.activate then answerActivate s fw.fellBack else s
  raiseSource s 0x26B

/-- A restart completes: of the whole firmware, or of one tenant's agent. -/
def execRestartComplete (t : Option Tenant) (s : State) : Host.Outcome State Fault Refusal :=
  .next <|
    if !s.engineReady then s
    else match t with
      | none => if s.mbx.fw.restart then firmwareRuns s else s
      | some t =>
        let m : BitVec 7 := t.setWidth 7
        if s.mbx.fw.restart || !(s.box m).restarting then s
        else raiseSource ((depositDone s m).modBox m fun b => { b with restarting := false }) 0x26B

/-! ## Images (R229, R230) -/

def FwUnit.setImage (fw : FwUnit) (slot : Bool) (v : Option W32) : FwUnit :=
  if slot then { fw with slot1 := v } else { fw with slot0 := v }

/-- RESULT of FW_STAGE. -/
def fateCode : ImageFate → Nat
  | .staged _ => 0
  | .signatureBad => 1
  | .readFailed => 2
  | .formatBad => 3

def fateVersion : ImageFate → Option W32
  | .staged v => some v
  | _ => none

/-- The data-link of the manager port is up. -/
def State.managerLink (s : State) : Bool := s.bnd.linkUp.getLsbD s.ten.managerPort.toNat

def fwStage (s : State) (m : BitVec 7) (c : Snap) (fate : ImageFate) : State :=
  let addr := snapField c 0x08 8
  let size := snapField c 0x10 4
  let slot := snapField c 0x14 1
  if addr % 4096 ≠ 0 then refuseCmd s m stBadField 0x08
  else if size % 4096 ≠ 0 ∨ size < 4096 ∨ 2097152 < size then refuseCmd s m stBadField 0x10
  else if 1 < slot then refuseCmd s m stBadField 0x14
  else if s.mbx.fw.alive ∧ decide (slot = 1) = s.mbx.fw.runSlot then refuseCmd s m stBusyActive 0x14
  else
    let s := s.setFw (s.mbx.fw.setImage (decide (slot = 1)) (fateVersion fate))
    let payload := bytesLE 4 ((fateVersion fate).getD 0).toNat ++ [BitVec.ofNat 8 (fateCode fate), 0, 0, 0]
    match fate with
    | .staged _ => finish s m (okReply payload)
    | _ =>
      let status := if fateCode fate = 2 ∧ ¬ s.managerLink then stLinkDown else stBadField
      finish (raiseSource s 0x26C) m ⟨status, 0x08, payload⟩

def execFwStage (mb : BitVec 7) (fate : ImageFate) (s : State) : Host.Outcome State Fault Refusal :=
  .next <| runTaken s mb 0x70 (fun _ => true) (fun _ _ => []) fun s c => fwStage s mb c fate

/-- FW_ACTIVATE. In safe-minimum mode it records the slot and restarts the block (R365). -/
def fwActivate (s : State) (m : BitVec 7) (c : Snap) : State :=
  let slot := snapField c 0x08 1
  let b := decide (slot = 1)
  let fw := s.mbx.fw
  if 1 < slot then refuseCmd s m stBadField 0x08
  else if (fw.image b).isNone then refuseCmd s m stNoResource 0x08
  else if (snapByte c 0x09).getLsbD 0 then
    let s := s.setFw { fw with nextSlot := some b }
    finish s m (activateReply 2 s.mbx.fw)
  else if s.hm.safeMin then assertBlock (s.setFw { fw with nextSlot := some b }) 4
  else
    let s := s.modBox m fun b => { b with work := .waiting }
    let s := restartFirmware s
    let fw := s.mbx.fw
    s.setFw { fw with activate := true, loads := true, fellBack := false, runSlot := b }

/-- FW_ACTIVATE without NEXT_START_ONLY. -/
def execFwActivate (mb : BitVec 7) (s : State) : Host.Outcome State Fault Refusal :=
  .next <| runTaken s mb 0x71 (fun c => !(snapByte c 0x09).getLsbD 0) (fun _ _ => []) fun s c => fwActivate s mb c

/-- FW_ACTIVATE with NEXT_START_ONLY. -/
def execNextStartOnly (mb : BitVec 7) (s : State) : Host.Outcome State Fault Refusal :=
  .next <| runTaken s mb 0x71 (fun c => (snapByte c 0x09).getLsbD 0) (fun _ _ => []) fun s c => fwActivate s mb c

/-- A new image that does not run is abandoned for the previous one. -/
def execFwFallback (s : State) : Host.Outcome State Fault Refusal :=
  .next <|
    let fw := s.mbx.fw
    if s.engineReady && fw.restart && fw.loads && !fw.fellBack then
      raiseSource (s.setFw { fw with fellBack := true, runSlot := fw.previous.getD fw.runSlot }) 0x26C
    else s

/-! ## The scrub of CTRL RAM (R335, R340) -/

/-- The tenant whose agent RAM a line of CTRL RAM holds: 8,192 lines of the kernel, then 128 for each tenant (R233). -/
def ctrlPart (line : Nat) : Option Tenant := if line < 8192 then none else some (BitVec.ofNat 6 ((line - 8192) / 128))

/-- The RAM of an agent is cleared. -/
def clearAgentRam (s : State) (t : Tenant) : State :=
  let lo := 0x4040000 + 0x1000 * t.toNat
  let ram := (List.range 0x1000).foldl (fun m i => Sparse.set none m (lo + i) (some 0)) s.acu.ram
  s.setAcu { s.acu with ram := ram }

/-- The kernel's part of CTRL RAM holds the firmware's own bytes again. -/
def reloadKernelRam (s : State) : State :=
  s.setAcu { s.acu with ram := Sparse.dropKeys (fun a => decide (a < 0x4040000)) s.acu.ram }

/-- The whole firmware restarts with its kernel loaded anew (R335). -/
def reloadFirmware (s : State) : State :=
  let s := restartFirmware (reloadKernelRam s)
  s.setFw { s.mbx.fw with loads := true }

/-- A line of CTRL RAM read by the scrub. A RESETTING tenant is charged no fault (R335). -/
def scrubLine (s : State) (l : LineId) : State :=
  match decodeLine s.ras.freeReads (s.lineErr l) with
  | .uncorrectable =>
    let s := readLine 4 true s l
    match ctrlPart l.line with
    | none => if s.mbx.fw.restart then reloadKernelRam s else reloadFirmware s
    | some t =>
      let s := clearAgentRam s t
      restartAgent (if s.resetting t then s else chargeFault s t 0x08 0) t
  | _ => readLine 4 true s l

/-- The kernel reads every line of CTRL RAM, after the upsets since the last scrub. -/
def execCtrlScrub (upsets : List Upset) (s : State) : Host.Outcome State Fault Refusal :=
  .next <|
    if !s.kernelRuns then s
    else
      let s := (upsets.filter fun u => u.line.arr == .ctrl).foldl upset s
      ((s.ras.errs.map (·.1)).filter fun l => l.arr == .ctrl).foldl scrubLine s

end Sys2Proof.Machine
end

