-- ==== Sys2Proof/Machine/Loupe.lean ====
section
/-! DEFINITION. Loupe telemetry: the shadow and the ring (R348, R352), and the clear of the wait histogram (R349). -/
namespace Sys2Proof.Machine

/-- The counts of the frame just ended go to the shadow: the sums since the last entry, while LOUPE is ON and entries
are made (R348). A new DIVIDER takes effect. -/
def loupeShadow (s : State) : State :=
  let u := s.loupe
  let n := u.dividerNext
  let add (m : Sparse W32) (k : Nat) : Sparse W32 :=
    Sparse.set 0 m k (satAdd (Sparse.get 0 m k) (Sparse.get 0 u.now k).toNat)
  let sums := if s.isOn dLOUPE && n != 0 then (u.now.map (·.1)).foldl add u.sums else []
  s.setLoupe { u with divider := n, sums := sums, now := [] }

/-- Tenants whose SATURATED bit is set. -/
def State.saturatedTenants (s : State) : Nat := (s.ten.recs.filter fun p => p.2.intakeStatus.getLsbD 0).length

/-- The words of the entry of a tick (R352). -/
def State.loupeEntry (s : State) : List W32 :=
  let w14 : W32 := place 32 (BitVec.ofNat 11 s.pwr.capture.length) 16 ||| BitVec.ofNat 32 s.saturatedTenants
  [s.frameLo] ++ ((List.range 13).map fun i => Sparse.get 0 s.loupe.sums (i + 1))
    ++ [w14, BitVec.ofNat 32 s.tgt.busy.length]

/-- One entry is written at HEAD at a tick that DIVIDER selects. -/
def loupeTick (s : State) : State :=
  let u := s.loupe
  if s.isOn dLOUPE && u.divider != 0 && s.frame.count.toNat % u.divider.toNat == 0 then
    s.setLoupe { u with
      ring := Sparse.set [] u.ring u.head.toNat s.loupeEntry, head := u.head + 1
      wrapped := u.wrapped || u.head == 255, sums := [] }
  else s

/-- A write of `LP_CTRL`: a DIVIDER above 256 is ignored. -/
def writeDivider (s : State) (data : W32) : State :=
  let n : BitVec 9 := field data 0 9
  if 256 < n.toNat then s else s.setLoupe { s.loupe with dividerNext := n }

/-- A write of `LP_HIST_CLEAR`. -/
def writeHistClear (s : State) (data : W32) : State :=
  let n : BitVec 7 := field data 0 7
  if n = 0x7F then s.setLoupe { s.loupe with bins := [] }
  else if n.toNat < 64 then clearBins s (n.setWidth 6)
  else s

end Sys2Proof.Machine
end

