-- ==== Sys2Proof/Machine/Frame.lean ====
section
/-! DEFINITION. The frame: period requests and changes (R29 to R31, R46), the tick with its steps in order (R32), the stop instant (R314), the first tick after a sleep (R320, R322, R323), hold-offs at a tick (R151) and the tick's share of every unit. -/
namespace Sys2Proof.Machine

/-! ## The period (R29 to R31) -/

/-- A write of `MW_FRAME_PERIOD.REQUEST` (R30). -/
def writePeriod (s : State) (data : W32) : State :=
  let f : BitVec 13 := field data 0 13
  let u := s.frame
  let refuse (reason : BitVec 2) : State := s.setFrame { u with periodRefused := true, refuseReason := reason }
  if f.toNat < 256 ∨ 6400 < f.toNat ∨ f.toNat % 32 ≠ 0 then refuse 1
  else if !s.alone && !u.isMaster then refuse 2
  else if u.changePending then refuse 3
  else if f = u.current then s.setFrame { u with request := f }
  else if s.works dCORE then s.setFrame { u with
    request := f, changePending := true, ticksLeft := 32, applyFrame := s.frameLo + 32 }
  else s.setFrame { u with
    request := f, changePending := true, ticksLeft := 33, applyFrame := 0, acceptedAsleep := true }

/-- The pending change takes effect. -/
def applyPeriod (u : FrameUnit) : FrameUnit :=
  { u with
    current := u.request, changePending := false, ticksLeft := 0, applyFrame := 0, acceptedAsleep := false
    followPeriod := none }

/-- CORE is to stop at its next tick (R314). -/
def State.stopping (s : State) : Bool :=
  !s.pwr.stopped && (s.dom dCORE).state == .on && (match (s.dom dCORE).trans with
    | .entering _ => true
    | _ => false)

/-- The change due at the coming tick, made ahead of its other work. -/
def execPeriodChangeApply (s : State) : Host.Outcome State Fault Refusal :=
  .next <|
    let u := s.frame
    if s.coreOn && u.running && u.changePending && u.ticksLeft == 1 && !s.stopping && s.pwr.firstTick.isNone then
      s.setFrame { applyPeriod u with oldPeriod := some u.current }
    else s

/-- The period at a tick: a pending change counts down and applies; a follower takes its master's period. -/
def tickPeriod (s : State) : State :=
  let u := s.frame
  if u.changePending then
    if u.ticksLeft ≤ 1 then s.setFrame (applyPeriod u)
    else s.setFrame { u with ticksLeft := u.ticksLeft - 1, current := u.followPeriod.getD u.current, followPeriod := none }
  else match u.followPeriod with
    | some f => s.setFrame { u with current := f, request := f, followPeriod := none }
    | none => s

/-! ## Time (R26, R46, R47, R322) -/

/-- The frame ends: its length enters TIME_NS. -/
def endFrame (s : State) : State :=
  let u := s.frame
  let len : Int := (u.oldPeriod.getD u.current).toNat + u.adjust
  s.setFrame { u with
    timeCycles := u.timeCycles + BitVec.ofInt 64 len, adjust := u.slewNext, slewNext := 0, oldPeriod := none }

/-- A target's timer after `a` skipped ticks (R323). -/
def skipTimer (a : Nat) (r : TargetRec) : TargetRec :=
  let c := r.timer.toNat
  if c = 0 ∨ a < c then { r with timer := BitVec.ofNat 24 (c - a) }
  else
    let n := r.reload.toNat
    let fired := if r.periodic ∧ n ≠ 0 then 1 + (a - c) / n else 1
    let left := if r.periodic ∧ n ≠ 0 then n - (a - c) % n else 0
    let busy := r.privPend.getLsbD 8 || r.active == some (privSrc 8)
    { r with
      timer := BitVec.ofNat 24 left
      privPend := if busy then r.privPend else r.privPend ||| BitVec.twoPow 13 8
      overrun := satAdd r.overrun (if busy then fired else fired - 1) }

/-- The first tick after a sleep of `l` LKT_CLK cycles, before its own steps: time, timers and hold-offs advance by the
sleep (R322, R323). -/
def wakeTick (s : State) (l : BitVec 48) : State :=
  let u := s.frame
  let g := sleepCycles l.toNat s.pwr.stopCal.toNat
  let a := g / u.stopPeriod.toNat
  let bound := sleepBound g
  let count := u.count + 1 + BitVec.ofNat 64 a
  let s := s.setFrame { u with
    count := count, timeCycles := u.timeCycles + BitVec.ofNat 64 g
    sleepErrNs := u.sleepErrNs + BitVec.ofNat 64 bound, sleeps := u.sleeps + 1
    adjust := u.slewNext, slewNext := 0
    applyFrame := if u.changePending then count.setWidth 32 + BitVec.ofNat 32 (u.ticksLeft - 1) else u.applyFrame
    acceptedAsleep := false }
  let s := s.setPwr { s.pwr with
    firstTick := none, sleepL := l, sleepFrames := satAdd 0 a, sleepErr := satAdd 0 bound }
  let s := s.setTgt { s.tgt with recs := Sparse.mapVals {} (fun _ r => skipTimer a r) s.tgt.recs }
  let s := s.setTen { s.ten with recs := Sparse.mapVals {} (fun _ r =>
    { r with reset := r.reset.map fun q => { q with took := q.took + a } }) s.ten.recs }
  s.setTen { s.ten with clasp := Sparse.mapVals {} (fun _ w =>
    { w with remaining := BitVec.ofNat 16 (w.remaining.toNat - a) }) s.ten.clasp }

/-- The end of a frame that was asked for more than its budget (R24), and of one that ends with a completion waiting
(R157); the coming frame starts with nothing taken. `late`: a bank had more accesses than its cycles of uses that the
model does not order by bank (log entry 52). -/
def countFrame (s : State) (late : Bool) : State :=
  let s := if s.tgt.cplQueue.isEmpty then s
    else s.setTgt { s.tgt with cplWaitFrames := satInc s.tgt.cplWaitFrames }
  let excess := late || s.frame.use.excess
  let s := s.setUse {}
  if excess then
    raiseSource (s.setFrame { s.frame with budgetOver := true, overCount := satInc s.frame.overCount }) 0x278
  else s

/-- The stop instant of CORE, in place of its next tick (R314): the running frame ends, its decisions are withdrawn. -/
def stopInstant (s : State) : State :=
  let s := endFrame (countFrame (deadline s) false)
  let s := s.setFrame { s.frame with stopPeriod := s.frame.current }
  s.setPwr { s.pwr with stopped := true, stopCal := s.pwr.lktCal }

/-! ## Steps of the tick -/

/-- Busy bits whose completion or withdrawal belongs to the frame just ended are cleared (R32). -/
def clearBusy (s : State) : State :=
  let gone := s.tgt.busyClear
  s.setTgt { s.tgt with
    busy := Sparse.dropKeys (fun k => Sparse.get false gone k) s.tgt.busy, busyClear := [] }

/-- Hold-offs of a tick: a group with REMAINING above 0 is held off in its pass, and the count decreases (R151). -/
def tickClasp (s : State) : State :=
  let held := (s.ten.clasp.filter fun p => p.2.remaining != 0).map fun p => (p.1, true)
  let s := s.setTgt { s.tgt with heldOff := held }
  s.setTen { s.ten with clasp := Sparse.mapVals {} (fun _ w =>
    { w with remaining := if w.remaining = 0 then 0 else w.remaining - 1 }) s.ten.clasp }

/-- A hold-off whose count has run out ends: its members are eligible from the coming pass. -/
def execClaspHoldoffEnd (g : BitVec 12) (s : State) : Host.Outcome State Fault Refusal :=
  .next <|
    if s.coreOn && s.frame.running && (s.clasp g).remaining == 0 then
      s.setTgt { s.tgt with heldOff := Sparse.set false s.tgt.heldOff g.toNat false }
    else s

def tickTimers (s : State) : State :=
  s.setTgt { s.tgt with recs := Sparse.mapVals {} (fun _ r => tickTimer r) s.tgt.recs }

/-- The visibility boundary advances: entries of the frame just ended are seen by the pass (R32, R33). -/
def showEntries (s : State) : State :=
  s.setTgt { s.tgt with recs := Sparse.mapVals {} (fun _ r =>
    { r with shortlist := r.shortlist.map fun e => { e with isNew := false } }) s.tgt.recs }

/-- CORE came from OFF: every condition source whose level is 1 raises an edge, and wired inputs compare against 0
(R70). -/
def coldLevels (s : State) : State :=
  if s.pwr.coreCold then
    let s := s.setBead { s.bead with fresh := BitVec.allOnes 96 }
    let s := s.setPwr { s.pwr with coreCold := false }
    let wired (n : Nat) : Bool := 0x280 ≤ n && n < 0x2E0
    ((s.sys.levels.map (·.1)).filter fun n => !wired n).foldl raiseSource s
  else s

/-- The matched source as a tenant may see it (R320): its own vector, or a system source that targets a slot of its. -/
def State.wakeSrcFor (s : State) (t : Tenant) : Src :=
  let x := s.pwr.wakeSrc
  match srcClass x with
  | .message v => if s.rangeOwner v = some t then x else 0
  | .system n => match s.slotOwner (cTarget (Sparse.get 0 s.vec.sysCfg n)) with
    | some (u, _) => if u = t then x else 0
    | none => 0
  | _ => 0

/-- The wake notice of every tenant that has a notice target, and its wake registers (R320). -/
def wakeNotice (s : State) : State :=
  s.listedTenants.foldl (fun s t =>
    if (s.noticeSlot t).isSome then
      (notify s t 11).modTenant t fun r => { r with
        wakeCause := s.pwr.wakeCause, wakeSrc := s.wakeSrcFor t, wakeFrames := s.pwr.sleepFrames }
    else s) s

/-- What Locket held for CORE's first tick: drop notices in arrival order (R399), and data links that fell (R143). -/
def releaseNotices (s : State) : State :=
  let drops := s.tgt.heldDrops
  let fell := s.sys.linkFell.map (·.1)
  let s := (s.setTgt { s.tgt with heldDrops := [] }).setSys { s.sys with linkFell := [] }
  let s := drops.foldl (fun s d => applyDrop s d.1 d.2) s
  fell.foldl (fun s p => match s.portTenant p with
    | some t => park s t
    | none => s) s

/-- INTAKE_BASE and WINDOW_EN reach the fabric port at a tick (R18). -/
def openWindow (s : State) : State :=
  s.setIntake { s.intake with openBase := if s.intake.windowEn then some s.intake.base else none }

/-- The live members of the ring as the sources S:0x4C0 + c show them, and the lock as S:0x277 does. -/
def memberLevels (s : State) : State :=
  alignLevel ((List.range 16).foldl (fun s c => setLevel s (0x4C0 + c) (s.chain.members.getLsbD c)) s)

/-- Steps up to the snapshot: the last mailbox slots of the frame just ended (R101), FRAME_COUNT, period, busy bits,
hold-offs, timers, tenants, and the entries that the pass sees (R32). At the first tick after a sleep, the sleep's part. -/
def tickFront (s : State) (inp : TickIn) : State :=
  let s := inp.upsets.foldl upset s
  let s := advanceLoads (deadline (tickAlign s))
  let s := countFrame (loupeShadow s) inp.budgetOver
  let s := match s.pwr.firstTick with
    | some l => wakeTick s l
    | none => (endFrame s).setFrame { (endFrame s).frame with count := s.frame.count + 1 }
  let s := openWindow (s.setFrame { s.frame with localTicks := s.frame.localTicks + 1 })
  let s := tickTimers (tickClasp (clearBusy (coldLevels (tickPeriod s))))
  let s := showEntries (tickSweeps (tickTenants s))
  loupeTick s

/-- The pass and the work of the frame that the tick starts. `asked`: the refill requests that stood before the tick. -/
def tickBack (asked : TgtUnit) (s : State) (inp : TickIn) : State :=
  let s := tickRefills asked s
  let s := takeResyncSets s
  let s := wakeShortlists (decisionPass (s.setTgt { s.tgt with fabOut := [] }))
  let s := scanSys (scanMsg s)
  let s := tickPolish (beadRound s inp.wired)
  let s := if inp.spareFault then spareFault s else s
  let s := tickLockLost (tickLockLost s .east) .west
  sendTicks (tickRing (memberLevels s)) inp.now

/-- The tick (R32). At the first one after an exit of CORE what Locket held is acted on before the pass (R143, R399), and
the wake notices follow it (R320). -/
def tick (s : State) (inp : TickIn) : State :=
  let first := s.pwr.firstTick.isSome
  let t := tickFront s inp
  let t := tickBack s.tgt (if first then releaseNotices t else t) inp
  if first then wakeNotice t else t

end Sys2Proof.Machine
end

