-- ==== Sys2Proof/Machine/RegsRead.lean ====
section
/-! DEFINITION. What a register reads (R7): the words of both windows, page by page, at offsets that are multiples of 4, and the clearing of RC registers. Offsets that no page assigns read 0. -/
namespace Sys2Proof.Machine

/-- A flag at its place in a register. -/
def flag (b : Bool) (i : Nat) : W32 := place 32 (bit 1 b) i

/-- The low or high word of a 64-bit entry (R369). -/
def half (e : W64) (high : Bool) : W32 := if high then field e 32 32 else field e 0 32

/-! ## Identification (R375) -/

/-- The identification registers of a window, with its own FRAME_COUNT latch and access record. -/
def State.idWord (s : State) (a : AccessRegs) (latch : W32) (off : Nat) : W32 :=
  match off with
  | 0x00 => place 32 (2 : Byte) 24 ||| place 32 Config.stepping 16 ||| place 32 s.mbx.fw.ifRev 0
  | 0x04 => flag s.hm.safeMin 7 ||| flag s.frame.tickLocked 6 ||| place 32 s.chainMode 4 ||| place 32 s.chipId 0
  | 0x08 => place 32 s.frame.current 16 ||| flag s.frame.changePending 0
  | 0x10 => s.frameLo
  | 0x14 => latch
  | 0x18 => flag a.size 0
  | 0x1C => flag a.valid 31 ||| flag a.write 30 ||| place 32 a.offset 0
  | _ => 0

/-! ## A tenant's pages -/

/-- The registers at 0x100 to 0x1FF of a tenant window (R77, R160, R181, R332). -/
def State.tenantWord (s : State) (t : Tenant) (off : Nat) : W32 :=
  let r := s.tenant t
  match off with
  | 0x100 => place 32 r.intakeStatus 0
  | 0x104 => r.discards
  | 0x108 => r.satFrames
  | 0x10C => weightWord r
  | 0x120 => flag r.resyncDone 3 ||| flag r.parkedSeen 2 ||| flag r.staleSeen 1 ||| flag r.straySeen 0
  | 0x124 => r.strayCount
  | 0x128 => flag r.strayFirstValid 31 ||| flag r.strayFirstStale 30 ||| place 32 r.strayFirstTarget 0
  | 0x12C => place 32 r.strayFirstSrc 0
  | 0x130 => BitVec.ofNat 32 (s.parkedOf t)
  | 0x140 => flag (s.resetting t) 31 ||| flag r.consent 30 ||| place 32 r.port 16 ||| place 32 t 0
  | 0x144 => place 32 r.faultSummary 0
  | 0x148 => faultFirstWord r
  | 0x14C => r.faultDetail
  | 0x150 => r.faultFrame
  | 0x154 => r.faultCount
  | 0x158 => place 32 (s.localBlocks t) 0
  | 0x15C => rangeWord r.range
  | 0x160 => place 32 r.wakeCause 28 ||| place 32 r.wakeSrc 0
  | 0x164 => r.wakeFrames
  | _ => 0

/-- A read of an RC register of those pages clears it. -/
def clearTenantWord (s : State) (t : Tenant) (off : Nat) : State :=
  match off with
  | 0x104 => s.modTenant t fun r => { r with discards := 0 }
  | 0x124 => s.modTenant t fun r => { r with strayCount := 0 }
  | 0x154 => s.modTenant t fun r => { r with faultCount := 0 }
  | _ => s

/-! ## Mailboxes (R183, R200) -/

/-- Four bytes of an area. -/
def areaWord (m : Sparse Byte) (off : Nat) : W32 :=
  BitVec.ofNat 32 (ofBytesLE ((List.range 4).map fun i => Sparse.get 0 m (off + i)))

/-- The mailbox page, at offsets from 0x1000. PATH is RSV in tenant windows. -/
def State.boxWord (s : State) (m : BitVec 7) (off : Nat) : W32 :=
  let b := s.box m
  if off < 0x100 then areaWord b.cmd off
  else if off < 0x200 then areaWord b.reply (off - 0x100)
  else match off with
    | 0x200 => flag b.ring 0
    | 0x204 => place 32 b.lastStatus 16 ||| flag b.replyValid 6 ||| flag (b.path && m == 64) 5
        ||| flag b.restarting 4 ||| flag b.lost 3 ||| flag b.overrun 2 ||| flag b.taken 1 ||| flag b.replyReady 0
    | 0x208 => place 32 b.replySeq 16 ||| place 32 b.seq 0
    | 0x20C => place 32 b.restarted 16 ||| place 32 b.executed 0
    | _ => 0

def clearBoxWord (s : State) (m : BitVec 7) (off : Nat) : State :=
  if off = 0x20C then s.modBox m fun b => { b with restarted := 0, executed := 0 } else s

/-! ## Source operations (R95, R105) -/

/-- The status registers of a source-operation page, from 0x10000. The operation addresses read 0. Bit 5 is RSV in the
manager window, whose registers never hold it. -/
def srcWord (r : SrcRegs) (off : Nat) : W32 :=
  match off with
  | 0x20 => place 32 r.status 0
  | 0x24 => r.refused
  | 0x28 => flag r.valid 31 ||| place 32 r.op 27 ||| place 32 r.reason 24 ||| place 32 r.src 0
  | _ => 0

/-! ## Target pages (R134, R159, R377) -/

/-- An entry of the shortlist as a register. -/
def entryWord : Option SlEntry → W32
  | some e => flag true 31 ||| flag e.isNew 30 ||| place 32 e.src 0
  | none => 0

/-- A register of the page of slot `x`, held by tenant `t`. -/
def State.targetWord (s : State) (t : Tenant) (x : Slot) (reg : Nat) : W32 :=
  let r := s.target x
  match reg with
  | 0x010 => place 32 r.privEn 0
  | 0x014 => place 32 r.privPend 0
  | 0x018 => flag r.mask 0
  | 0x01C => flag r.sysOverflow 8 ||| flag true 7 ||| flag (r.daddr != 0) 6 ||| flag (s.busyBit x) 5
      ||| flag r.parked 4 ||| flag r.refilling 3 ||| flag r.overflow 2 ||| flag (s.noticeSlot t == some x) 1
      ||| flag r.ready 0
  | 0x020 => flag r.active.isSome 31 ||| flag r.redeliver 30 ||| place 32 (r.active.getD 0) 0
  | 0x024 => place 32 r.seq 0
  | 0x028 => half r.daddr false &&& 0xFFFFFFF8
  | 0x02C => half r.daddr true
  | 0x088 => flag r.reissued 2 ||| flag r.stale 1 ||| flag r.stray 0
  | 0x08C => place 32 r.staleCount 16 ||| place 32 r.strayCount 0
  | 0x090 => match r.lastCpl with
      | some (seqForm, src) => flag true 31 ||| flag seqForm 30 ||| place 32 src 0
      | none => 0
  | 0x0A0 => flag r.periodic 24 ||| place 32 r.reload 0
  | 0x0A4 => place 32 r.overrun 24 ||| place 32 r.timer 0
  | _ => if 0x040 ≤ reg ∧ reg < 0x060 then entryWord r.shortlist[(reg - 0x040) / 4]? else 0

/-- The RC fields of a target page. -/
def clearTargetWord (s : State) (x : Slot) (reg : Nat) : State :=
  match reg with
  | 0x08C => s.modTarget x fun r => { r with staleCount := 0, strayCount := 0 }
  | 0x0A4 => s.modTarget x fun r => { r with overrun := 0 }
  | _ => s

/-! ## Vector view entries (R104, R380) -/

/-- CONFIG_HI and STATE of a message source. A quarter kept OFF shows its reset values (R16). -/
def State.messageEntry (s : State) (v : Nat) : W64 :=
  if s.keptOff (dTBL (quarterOf v)) then 0
  else half (s.cfgOf (msgSrc v)) true ++ s.stOf (msgSrc v)

/-- A system source: FWD, REQ_CHECK and REQ_ID read 0 (R80). -/
def State.systemEntry (s : State) (n : Nat) : W64 :=
  (half (s.cfgOf (sysSrc n)) true &&& 0x7BFFFFFF) ++ s.stOf (sysSrc n)

/-- The message vector of entry `i` of a tenant's view; none outside its range. -/
def State.viewVector (s : State) (t : Tenant) (i : Nat) : Option Nat :=
  match (s.tenant t).range with
  | some r => if i < rangeSize r then some (r.base.toNat + i) else none
  | none => none

/-- The source that entry `i` of an FM view describes, under a value of `MW_VIEW_SELECT`. -/
def viewSource (view : W32) (i : Nat) : Option Src :=
  if view.getLsbD 31 then (if i < 4096 then some (sysSrc i) else none)
  else some (msgSrc (0x40000 * (field view 24 2 : BitVec 2).toNat + i))

/-- The 64-bit entry of a source. -/
def State.sourceEntry (s : State) (src : Src) : W64 :=
  match srcClass src with
  | .message v => s.messageEntry v
  | .system n => s.systemEntry n
  | _ => 0

/-! ## The manager window (R378) -/

/-- Selection of a path (R379). -/
def State.viewOf (s : State) (p : Path) : W32 := if p = .smbus then s.ten.viewSmbus else s.ten.viewManager

/-- The frame page, from 0x2000 (R50). -/
def State.frameWord (s : State) (latch : W32) (off : Nat) : W32 :=
  let u := s.frame
  match off with
  | 0x00 => place 32 u.current 16 ||| place 32 u.request 0
  | 0x04 => flag u.budgetOver 7 ||| flag u.withdrawn 6 ||| flag u.tickStepped 5 ||| flag u.periodRefused 4
      ||| place 32 u.refuseReason 2 ||| flag u.tickLocked 1 ||| flag u.changePending 0
  | 0x08 => s.applyFrame
  | 0x10 => s.frameLo
  | 0x14 => latch
  | 0x18 => flag u.isMaster 16 ||| place 32 u.masterId 12 ||| place 32 u.offset 0
  | 0x1C => u.withdrawnCount
  | 0x20 => u.overCount
  | _ => 0

def clearFrameWord (s : State) (off : Nat) : State :=
  match off with
  | 0x1C => s.setFrame { s.frame with withdrawnCount := 0 }
  | 0x20 => s.setFrame { s.frame with overCount := 0 }
  | _ => s

/-- The 32 levels of `MW_SYS_LEVEL[n]`; 0 for sources that are not defined (R76). -/
def State.levelWord (s : State) (n : Nat) : W32 :=
  packBits 32 ((List.range 32).map fun j => sysDefined (32 * n + j) && s.level (32 * n + j))

/-- The intake page, from 0x3000 (R76). -/
def State.intakeWord (s : State) (off : Nat) : W32 :=
  let u := s.intake
  let d := u.discard
  match off with
  | 0x00 => flag u.ownerCheck 1 ||| flag u.windowEn 0
  | 0x08 => half u.base false
  | 0x0C => half u.base true
  | 0x10 => flag d.valid 31 ||| place 32 d.reason 24 ||| place 32 d.owner 17 ||| flag d.chain 16
      ||| place 32 d.requester 0
  | 0x14 => place 32 d.vector 0
  | 0x18 => d.frame
  | 0x1C => u.discardCount
  | 0x24 => flag u.chainEventRefused 4 ||| flag u.weightRefused 3 ||| flag u.baseRefused 2
      ||| flag (s.ten.recs.any fun p => p.2.intakeStatus.getLsbD 0) 1 ||| flag d.valid 0
  | _ =>
    if 0x100 ≤ off ∧ off < 0x200 then weightWord (s.tenant (BitVec.ofNat 6 ((off - 0x100) / 4)))
    else if 0x200 ≤ off ∧ off < 0x300 then (s.tenant (BitVec.ofNat 6 ((off - 0x200) / 4))).satFrames
    else if 0x400 ≤ off ∧ off < 0x600 then s.levelWord ((off - 0x400) / 4)
    else 0

def clearIntakeWord (s : State) (off : Nat) : State :=
  if off = 0x1C then s.setIntake { s.intake with discardCount := 0 }
  else if 0x200 ≤ off ∧ off < 0x300 then
    s.modTenant (BitVec.ofNat 6 ((off - 0x200) / 4)) fun r => { r with satFrames := 0 }
  else s

/-- The vector-state page, from 0x4000 (R106). -/
def State.vstateWord (s : State) (off : Nat) : W32 :=
  match off with
  | 0x00 => flag s.vec.satAny 1 ||| flag s.vec.lapsed 0
  | 0x04 => s.vec.lapsedCount
  | 0x08 => s.vec.satCount
  | _ => 0

def clearVstateWord (s : State) (off : Nat) : State :=
  match off with
  | 0x04 => s.setVec { s.vec with lapsedCount := 0 }
  | 0x08 => s.setVec { s.vec with satCount := 0 }
  | _ => s

/-- The delivery page, from 0x5000 (R135). TENANT and CURSOR read 0 while no pass runs, and CURSOR reads all ones once the
running pass has reached the end of its range, which the field cannot hold (DESIGN CHOICE, log entry 57). -/
def State.deliveryWord (s : State) (off : Nat) : W32 :=
  let u := s.tgt
  match off with
  | 0x00 => flag u.dropStale 3 ||| flag u.engineFault 2 ||| flag (decide (s.serving.length < 4)) 1
      ||| flag u.spareInUse 0
  | 0x04 => place 32 u.retired 16 ||| place 32 u.logical3 12 ||| place 32 u.logical2 8 ||| place 32 u.logical1 4
      ||| place 32 u.logical0 0
  | 0x08 => flag u.dropValid 31 ||| flag u.dropFirstStale 30 ||| place 32 u.dropFirstSlot 0
  | 0x0C => place 32 u.dropFirstSeq 0
  | 0x10 => u.dropCount
  | 0x14 => u.decisionCount
  | 0x18 =>
    let queued : W32 := place 32 (BitVec.ofNat 7 u.msgQueue.length) 18
    match u.msgPass with
    | some p => flag true 31 ||| place 32 p.tenant 25 ||| queued ||| place 32 (BitVec.ofNat 18 (min p.cursor 0x3FFFF)) 0
    | none => queued
  | 0x1C => u.refillCount
  | 0x20 => match u.sysPass with
    | some p => flag true 31 ||| flag u.sysRequest 30 ||| place 32 (BitVec.ofNat 10 (min (p.cursor / 4) 0x3FF)) 0
    | none => flag u.sysRequest 30
  | _ => 0

def clearDeliveryWord (s : State) (off : Nat) : State :=
  match off with
  | 0x10 => s.setTgt { s.tgt with dropCount := 0 }
  | 0x14 => s.setTgt { s.tgt with decisionCount := 0 }
  | 0x1C => s.setTgt { s.tgt with refillCount := 0 }
  | _ => s

/-- The completion page, from 0x6000 (R161). -/
def State.completionWord (s : State) (off : Nat) : W32 :=
  let u := s.tgt
  match off with
  | 0x00 => flag u.passFull 2 ||| flag u.parkAny 1 ||| flag u.strayAny 0
  | 0x04 => u.strayTotal
  | 0x08 => u.parkEvents
  | 0x0C => u.reissues
  | 0x10 => u.passFullFrames
  | 0x14 => u.cplWaitFrames
  | _ => 0

def clearCompletionWord (s : State) (off : Nat) : State :=
  match off with
  | 0x04 => s.setTgt { s.tgt with strayTotal := 0 }
  | 0x08 => s.setTgt { s.tgt with parkEvents := 0 }
  | 0x0C => s.setTgt { s.tgt with reissues := 0 }
  | 0x10 => s.setTgt { s.tgt with passFullFrames := 0 }
  | 0x14 => s.setTgt { s.tgt with cplWaitFrames := 0 }
  | _ => s

/-- A word of tenant `t` on the tenant page (R182). -/
def State.bindWord (s : State) (t : Tenant) (k : Nat) : W32 :=
  let r := s.tenant t
  match k with
  | 0 => flag r.bound 31 ||| place 32 r.port 0
  | 1 => place 32 (s.localBlocks t) 0
  | 2 => rangeWord r.range
  | _ => flag (s.resetting t) 31 ||| flag r.consent 30 ||| place 32 r.faultSummary 0

/-- The owner byte of a global block (R182). -/
def State.ownerByte (s : State) (g : Nat) : Byte :=
  match Sparse.get none s.ten.blocks g with
  | some (t, _) => place 8 (bit 1 true) 7 ||| place 8 t 0
  | none => 0

/-- The tenant page, from 0x7000 (R182). -/
def State.tenantsWord (s : State) (off : Nat) : W32 :=
  let faulty (lo : Nat) : W32 :=
    packBits 32 ((List.range 32).map fun j => (s.tenant (BitVec.ofNat 6 (lo + j))).faultSummary != 0)
  if off < 0x400 then s.bindWord (BitVec.ofNat 6 (off / 16)) (off % 16 / 4)
  else if 0x800 ≤ off ∧ off < 0xC00 then
    BitVec.ofNat 32 (ofBytesLE ((List.range 4).map fun i => s.ownerByte ((off - 0x800) + i)))
  else match off with
    | 0x400 => flag s.ten.bindRefused 0
    | 0x408 => faulty 0
    | 0x40C => faulty 32
    | _ => 0

/-- `MW_CLASP_GROUP[g]` (R161). -/
def State.claspEntry (s : State) (g : Nat) : W64 :=
  let w := s.clasp (BitVec.ofNat 12 g)
  place 64 (bit 1 (w.assign != 0x41)) 63 ||| place 64 (bit 1 (w.assign == 0x40)) 62
    ||| place 64 (if w.assign.toNat < 64 then w.assign.setWidth 6 else (0 : Tenant)) 56
    ||| place 64 w.interval 32 ||| place 64 w.remaining 16

/-- A unit of the MPU page, at offsets from its base (R249). -/
def State.mpuWord (s : State) (u off : Nat) : W32 :=
  let m := s.mpu u
  let v := m.viol
  match off with
  | 0x00 => flag m.writeRefused 3 ||| flag m.badRegion 2 ||| flag (!m.enable) 1 ||| flag m.enable 0
  | 0x04 => 1
  | 0x08 => flag v.valid 31 ||| flag v.straddle 30 ||| flag v.priv 29 ||| flag v.locked 28 ||| place 32 v.kind 26
      ||| place 32 v.size 20 ||| place 32 v.tenant 8 ||| place 32 v.region 0
  | 0x0C => field v.addr 0 32
  | 0x10 => place 32 (field v.addr 32 8 : Byte) 0
  | 0x14 => m.count
  | 0x18 => if u = 0 then flag s.acu.user 31 ||| place 32 s.acu.current 0 else 0
  | _ =>
    if 0x100 ≤ off ∧ off < 0x100 + 16 * regionCount u then
      let r := m.region ((off - 0x100) / 16)
      match off % 16 with
      | 0 => field r.base 0 32 &&& 0xFFFFFFC0
      | 4 => place 32 (field r.base 32 8 : Byte) 0
      | 8 => attrWord r
      | _ => 0
    else 0

/-- `MPU_VIOL_COUNT` is RC, but RO from the FM in MPU-C (R249). -/
def clearMpuWord (s : State) (u off : Nat) : State :=
  if off = 0x14 ∧ u ≠ 0 then s.setMpu u { s.mpu u with count := 0 } else s

/-- The state number of R255. -/
def phyNumber : PhyState → BitVec 4
  | .disabled => 0
  | .detect => 1
  | .cdrLock => 2
  | .pam4Check => 3
  | .laneMap => 4
  | .deskew => 5
  | .linkInit => 6
  | .up => 7
  | .sparing => 8
  | .lockLost => 9
  | .down => 10

/-- The Chain PHY registers of a port (R264). -/
def State.phyWord (s : State) (p : PortId) (off : Nat) : W32 :=
  let u := s.phy p
  match off with
  | 0x00 => flag u.halfRate 29 ||| flag u.spareFailed 28 ||| flag u.spareRx 27 ||| flag u.spareTx 26
      ||| place 32 u.sparedLane 24 ||| place 32 u.locked 18 ||| place 32 (inUse u) 15 ||| place 32 u.peerChip 8
      ||| place 32 (phyNumber u.state) 0
  | 0x04 => place 32 u.inForce 16 ||| place 32 (s.portCfg p).ctle 0
  | 0x08 => flag u.wiring 5 ||| flag u.idClash 4 ||| flag u.trainFail 3 ||| flag u.spared 2 ||| flag u.laneLost 1
      ||| flag u.lockLostEv 0
  | 0x0C => u.lockLosses
  | 0x10 => place 32 u.attempts 16 ||| place 32 u.ups 0
  | _ => 0

def clearPhyWord (s : State) (p : PortId) (off : Nat) : State :=
  match off with
  | 0x0C => s.setPhy p { s.phy p with lockLosses := 0 }
  | 0x10 => s.setPhy p { s.phy p with attempts := 0, ups := 0 }
  | _ => s

def State.bypassWord (s : State) : W32 :=
  flag s.chain.retimerOn 2 ||| flag s.chain.released 1 ||| flag s.chain.retimerUsed 0

/-- The Chain link registers of a port (R293). -/
def State.linkWord (s : State) (p : PortId) (off : Nat) : W32 :=
  let l := s.linkPort p
  match off with
  | 0x00 => place 32 (BitVec.ofNat 11 l.replayBuf.length) 18 ||| place 32 l.nextSeq 4 ||| flag (l.replayLeft != 0) 3
      ||| flag (decide (1024 ≤ l.replayBuf.length)) 2
      ||| flag (creditWait l 0 || creditWait l 1 || creditWait l 2) 1 ||| flag (s.linkUp p) 0
  | 0x04 => flag l.protocol 6 ||| flag l.initFail 5 ||| flag l.creditOver 4 ||| flag l.stranded 3
      ||| flag l.rerouted 2 ||| flag l.replayEv 1 ||| flag l.crcError 0
  | 0x08 => l.crcErrors
  | 0x0C => l.replays
  | 0x10 => l.reroutes
  | 0x14 => place 32 l.hopDelay 0
  | _ => 0

def clearLinkWord (s : State) (p : PortId) (off : Nat) : State :=
  match off with
  | 0x08 => s.setLinkPort p { s.linkPort p with crcErrors := 0 }
  | 0x0C => s.setLinkPort p { s.linkPort p with replays := 0 }
  | 0x10 => s.setLinkPort p { s.linkPort p with reroutes := 0 }
  | _ => s

/-- The ring page, from 0x21300 (R294). -/
def State.ringWord (s : State) (off : Nat) : W32 :=
  let u := s.chain
  match off with
  | 0x00 => place 32 (packBits 16 ((List.range 16).map fun c => s.route (BitVec.ofNat 4 c) == some .west)) 16
      ||| place 32 u.members 0
  | 0x08 => half u.eastDist false
  | 0x0C => half u.eastDist true
  | 0x10 => half u.westDist false
  | 0x14 => half u.westDist true
  | 0x18 => flag u.resent 4 ||| flag u.allowOver 3 ||| flag u.duplicate 2 ||| flag u.strandedEv 1
      ||| flag u.membersChanged 0
  | 0x1C => u.dupCount
  | 0x20 => u.strandedCount
  | 0x24 => u.resends
  | _ => 0

def clearRingWord (s : State) (off : Nat) : State :=
  match off with
  | 0x1C => s.setChain { s.chain with dupCount := 0 }
  | 0x20 => s.setChain { s.chain with strandedCount := 0 }
  | 0x24 => s.setChain { s.chain with resends := 0 }
  | _ => s

/-- The bead page, from 0x22000 (R309). -/
def State.beadWord (s : State) (off : Nat) : W32 :=
  let u := s.bead
  match off with
  | 0x00 => place 32 u.strap 0
  | 0x04 => flag s.quietRound 4 ||| flag u.syncHeld 3 ||| flag u.committed 2 ||| flag u.reserved 1
      ||| flag u.unstable 0
  | 0x08 => place 32 (BitVec.ofNat 5 (slotCycles s.frame.current.toNat)) 16 ||| place 32 u.inputSlots 0
  | 0x0C => u.outputs
  | 0x10 => flag u.syncHeld 16 ||| place 32 u.held 0
  | 0x14 => place 32 u.wakeEdge 4 ||| place 32 (if s.isOn dBEAD then 0 else u.level) 0
  | _ => 0

/-- `PWR_DOMAIN[d]` (R331). STATE of a domain in transition is the state it goes to (log entry 30). -/
def domainWord (r : DomainRec) : W32 :=
  let code (p : PState) : W32 := (pcode p).setWidth 32
  let (phase, busy, state) : BitVec 4 × Bool × PState := match r.trans with
    | .none => (0, false, r.state)
    | .entering goal => (5, true, goal)
    | .exiting _ ph _ => (match ph with
        | .regulator => 1
        | .clock => 2
        | .memory => 3
        | .logic => 4, true, .on)
  flag r.failed 31 ||| flag r.deadline 30 ||| place 32 r.lastExit 16 ||| place 32 phase 8 ||| flag r.auto 5
    ||| flag busy 4 ||| place 32 (code r.ordered) 2 ||| code state

/-- The power page, from 0x23000 (R331). -/
def State.powerWord (s : State) (off : Nat) : W32 :=
  let u := s.pwr
  match off with
  | 0x40 => flag u.coreLost 5 ||| flag u.tgtLostEv 4 ||| flag u.tblLostEv 3 ||| flag u.captureFull 2
      ||| flag u.capture75 1 ||| flag u.bounce 0
  | 0x44 => u.tblLost
  | 0x48 => place 32 u.tgtLost 0
  | 0x4C => place 32 u.wakeCause 28 ||| place 32 u.wakeSrc 0
  | 0x50 => u.bounces
  | 0x54 => place 32 u.highWater 16 ||| place 32 (BitVec.ofNat 11 u.capture.length) 0
  | 0x58 => field u.sleepL 0 32
  | 0x5C => place 32 (field u.sleepL 32 16 : BitVec 16) 0
  | 0x60 => u.sleepFrames
  | 0x64 => u.sleepErr
  | 0x68 => place 32 u.lktCal 0
  | _ =>
    if 4 ≤ off ∧ off < 0x30 then domainWord (s.dom (off / 4))
    else if 0x400 ≤ off ∧ off < 0x800 then match u.watch[(off - 0x400) / 4]? with
      | some x => flag true 31 ||| place 32 x 0
      | none => 0
    else 0

def clearPowerWord (s : State) (off : Nat) : State :=
  if off = 0x50 then s.setPwr { s.pwr with bounces := 0 } else s

/-- The reliability page, from 0x24000 (R351). -/
def State.rasWord (s : State) (off : Nat) : W32 :=
  let u := s.ras
  match off with
  | 0x00 => flag u.fatal 31 ||| flag (s.level 0x262) 9 ||| flag u.retireFailed 8 ||| flag u.retiredEv 7
      ||| flag u.busParity 6 ||| flag u.portParity 5 ||| flag u.captureLost 4 ||| flag u.uncorrCtrl 3
      ||| flag u.uncorrCore 2 ||| flag u.uncorrTgt 1 ||| flag u.uncorrTbl 0
  | 0x04 => flag u.firstValid 31 ||| place 32 u.firstFoundBy 28 ||| place 32 u.firstArray 24
      ||| place 32 u.firstBank 16 ||| flag u.firstSpare 15 ||| place 32 u.firstLine 0
  | 0x08 => u.firstFrame
  | 0x0C => u.corrected
  | 0x10 => u.uncorrectable
  | 0x14 => u.parity
  | 0x18 => u.polishPasses
  | 0x20 => flag u.arm 31 ||| place 32 u.symbols 8 ||| place 32 u.injBank 0
  | 0x80 => u.lifeDays
  | 0x84 => BitVec.ofNat 32 (u.agedUnits / 65536)
  | 0x88 => u.poweredHours
  | _ =>
    if 0x40 ≤ off ∧ off < 0x70 then
      BitVec.ofNat 32 (ofBytesLE ((List.range 4).map fun i => BitVec.ofNat 8 (s.sparesShown (off - 0x40 + i))))
    else 0

def clearRasWord (s : State) (off : Nat) : State :=
  match off with
  | 0x0C => s.setRas { s.ras with corrected := 0 }
  | 0x10 => s.setRas { s.ras with uncorrectable := 0 }
  | 0x14 => s.setRas { s.ras with parity := 0 }
  | 0x18 => s.setRas { s.ras with polishPasses := 0 }
  | _ => s

/-- The Hallmark page, from 0x25000 (R368). -/
def State.hallmarkWord (s : State) (off : Nat) : W32 :=
  let u := s.hm
  match off with
  | 0x00 => flag u.ready 31 ||| flag u.safeMin 30 ||| flag u.strapForced 29 ||| place 32 u.step 24
      ||| place 32 u.safeStep 20 ||| place 32 (BitVec.ofNat 4 u.records.length) 16
      ||| flag s.mbx.fw.nextSlot.isSome 2 ||| flag (s.mbx.fw.nextSlot.getD false) 1 ||| flag s.mbx.fw.runSlot 0
  | 0x08 => flag u.flashCopyFail 11 ||| flag u.restartRefused 10 ||| place 32 u.failed 0
  | _ =>
    if 0x100 ≤ off ∧ off < 0x200 then match u.records[(off - 0x100) / 32]? with
      | some r => BitVec.ofNat 32 (ofBytesLE (((recordBytes r).drop ((off - 0x100) % 32)).take 4))
      | none => 0
    else 0

/-- The Loupe page, from 0x28000 (R352). -/
def State.loupeWord (s : State) (off : Nat) : W32 :=
  let u := s.loupe
  match off with
  | 0x00 => place 32 u.dividerNext 0
  | 0x04 => flag u.wrapped 8 ||| place 32 u.head 0
  | _ =>
    if 0x1000 ≤ off ∧ off < 0x5000 then (Sparse.get [] u.ring ((off - 0x1000) / 64)).getD ((off - 0x1000) % 64 / 4) 0
    else if 0x5000 ≤ off ∧ off < 0x6000 then Sparse.get 0 u.bins ((off - 0x5000) / 4)
    else 0

/-! ## Pages and whole windows -/

/-- A page of the manager window that is the same for both paths, with the offset in it. -/
inductive Page where
  | intake | vstate | delivery | completion | tenants
  | mpu (u : Nat)
  | phy (p : PortId)
  | bypass
  | link (p : PortId)
  | ring | bead | power | ras | hallmark | loupe
  deriving DecidableEq, Repr

/-- The page of an offset of the manager window and its base (R378). -/
def pageOf (off : Nat) : Option (Page × Nat) :=
  if off < 0x3000 then none
  else if off < 0x3600 then some (.intake, 0x3000)
  else if off < 0x4000 then none
  else if off < 0x400C then some (.vstate, 0x4000)
  else if off < 0x5000 then none
  else if off < 0x5024 then some (.delivery, 0x5000)
  else if off < 0x6000 then none
  else if off < 0x6018 then some (.completion, 0x6000)
  else if off < 0x7000 then none
  else if off < 0x7C00 then some (.tenants, 0x7000)
  else if off < 0x20000 then none
  else if off < 0x20400 then some (.mpu 0, 0x20000)
  else if off < 0x20800 then some (.mpu 1, 0x20400)
  else if off < 0x20C00 then some (.mpu 2, 0x20800)
  else if off < 0x21000 then none
  else if off < 0x21080 then some (.phy .east, 0x21000)
  else if off < 0x21100 then some (.phy .west, 0x21080)
  else if off < 0x21104 then some (.bypass, 0x21100)
  else if off < 0x21200 then none
  else if off < 0x21240 then some (.link .east, 0x21200)
  else if off < 0x21280 then some (.link .west, 0x21240)
  else if off < 0x21300 then none
  else if off < 0x21328 then some (.ring, 0x21300)
  else if off < 0x22000 then none
  else if off < 0x22018 then some (.bead, 0x22000)
  else if off < 0x23000 then none
  else if off < 0x23800 then some (.power, 0x23000)
  else if off < 0x24000 then none
  else if off < 0x2408C then some (.ras, 0x24000)
  else if off < 0x25000 then none
  else if off < 0x25200 then some (.hallmark, 0x25000)
  else if off < 0x28000 then none
  else if off < 0x2E000 then some (.loupe, 0x28000)
  else none

def State.pageWord (s : State) (pg : Page) (off : Nat) : W32 :=
  match pg with
  | .intake => s.intakeWord off
  | .vstate => s.vstateWord off
  | .delivery => s.deliveryWord off
  | .completion => s.completionWord off
  | .tenants => s.tenantsWord off
  | .mpu u => s.mpuWord u off
  | .phy p => s.phyWord p off
  | .bypass => s.bypassWord
  | .link p => s.linkWord p off
  | .ring => s.ringWord off
  | .bead => s.beadWord off
  | .power => s.powerWord off
  | .ras => s.rasWord off
  | .hallmark => s.hallmarkWord off
  | .loupe => s.loupeWord off

def clearPageWord (s : State) (pg : Page) (off : Nat) : State :=
  match pg with
  | .intake => clearIntakeWord s off
  | .vstate => clearVstateWord s off
  | .delivery => clearDeliveryWord s off
  | .completion => clearCompletionWord s off
  | .tenants => s
  | .mpu u => clearMpuWord s u off
  | .phy p => clearPhyWord s p off
  | .bypass => s
  | .link p => clearLinkWord s p off
  | .ring => clearRingWord s off
  | .bead => s
  | .power => clearPowerWord s off
  | .ras => clearRasWord s off
  | .hallmark => s
  | .loupe => s

/-- FRAME_COUNT[63:32] as latched by a path (R50). -/
def State.frameLatch (s : State) (p : Path) : W32 :=
  match p with
  | .tenant t => (s.tenant t).frameLatch
  | .manager => s.frame.latchManager
  | .smbus => s.frame.latchSmbus

/-- A read of the low word latches the high word for its path (R50). -/
def latchFrame (s : State) (p : Path) : State :=
  let hi : W32 := field s.frame.count 32 32
  match p with
  | .tenant t => s.modTenant t fun r => { r with frameLatch := hi }
  | .manager => s.setFrame { s.frame with latchManager := hi }
  | .smbus => s.setFrame { s.frame with latchSmbus := hi }

/-- The target page that an offset lies in. -/
def pageIndex (off : Nat) : BitVec 10 := BitVec.ofNat 10 ((off - 0x100000) / 0x400)

/-- A register of a target page through a path; a page that is not granted reads 0 (R133, R377). -/
def State.targetReg (s : State) (p : Path) (off : Nat) : W32 :=
  match s.pageSlot p (pageIndex off) with
  | some (t, x) => s.targetWord t x (off % 0x400)
  | none => 0

/-- What one 32-bit read of a tenant window returns (R374). -/
def State.tenantReg (s : State) (t : Tenant) (off : Nat) : W32 :=
  let r := s.tenant t
  if off < 0x20 then s.idWord r.access r.frameLatch off
  else if off < 0x200 then s.tenantWord t off
  else if 0x1000 ≤ off ∧ off < 0x1210 then s.boxWord (t.setWidth 7) (off - 0x1000)
  else if 0x10000 ≤ off ∧ off < 0x1002C then srcWord r.src (off - 0x10000)
  else if 0x100000 ≤ off ∧ off < 0x200000 then s.targetReg (.tenant t) off
  else if 0x200000 ≤ off ∧ off < 0x400000 then
    match s.viewVector t ((off - 0x200000) / 8) with
    | some v => half (s.messageEntry v) (off / 4 % 2 == 1)
    | none => 0
  else 0

/-- The 64-bit entry that an offset of the manager window lies in: of the Clasp group view or the vector view (R371). -/
def State.entryAt (s : State) (p : Path) (off : Nat) : Option W64 :=
  if 0x8000 ≤ off ∧ off < 0x10000 then some (s.claspEntry ((off - 0x8000) / 8))
  else if 0x200000 ≤ off ∧ off < 0x400000 then
    some (match viewSource (s.viewOf p) ((off - 0x200000) / 8) with
      | some src => s.sourceEntry src
      | none => 0)
  else none

/-- What one 32-bit read of the manager window returns (R378, R380, R381). -/
def State.managerReg (s : State) (p : Path) (off : Nat) : W32 :=
  if off < 0x20 then s.idWord s.ten.fmAccess (s.frameLatch p) off
  else if off = 0x20 then s.viewOf p
  else if 0x100 ≤ off ∧ off < 0x200 then s.tenantWord (field (s.viewOf p) 0 6) off
  else if 0x1000 ≤ off ∧ off < 0x1210 then s.boxWord 64 (off - 0x1000)
  else if 0x2000 ≤ off ∧ off < 0x2024 then s.frameWord (s.frameLatch p) (off - 0x2000)
  else if 0x10000 ≤ off ∧ off < 0x1002C then srcWord s.ten.fmSrc (off - 0x10000)
  else if 0x100000 ≤ off ∧ off < 0x200000 then s.targetReg p off
  else match s.entryAt p off, pageOf off with
    | some e, _ => half e (off / 4 % 2 == 1)
    | none, some (pg, base) => s.pageWord pg (off - base)
    | none, none => 0

/-- The value of a register through a path, before any clearing. -/
def State.regValue (s : State) (p : Path) (off : Nat) : W32 :=
  match p with
  | .tenant t => s.tenantReg t off
  | .manager => s.managerReg p off
  | .smbus => s.managerReg p off

/-- What a read of a register clears (R7): the tenant clears its RC registers; the FM clears those of its own pages,
and neither the mirror's nor a target page's (R377, R381). -/
def clearRead (s : State) (p : Path) (off : Nat) : State :=
  match p with
  | .tenant t =>
    if off < 0x200 then clearTenantWord s t off
    else if 0x1000 ≤ off ∧ off < 0x1210 then clearBoxWord s (t.setWidth 7) (off - 0x1000)
    else if off = 0x10024 then s.modTenant t fun r => { r with src := { r.src with refused := 0 } }
    else if 0x100000 ≤ off ∧ off < 0x200000 then
      match s.slotOf t (pageIndex off) with
      | some x => clearTargetWord s x (off % 0x400)
      | none => s
    else s
  | _ =>
    if 0x1000 ≤ off ∧ off < 0x1210 then clearBoxWord s 64 (off - 0x1000)
    else if 0x2000 ≤ off ∧ off < 0x2024 then clearFrameWord s (off - 0x2000)
    else if off = 0x10024 then s.setTen { s.ten with fmSrc := { s.ten.fmSrc with refused := 0 } }
    else match pageOf off with
      | some (pg, base) => clearPageWord s pg (off - base)
      | none => s

end Sys2Proof.Machine
end

