-- ==== Sys2Proof/Machine/Debug.lean ====
section
/-! DEFINITION. The debug master behind the TAP (R388): its access through MPU-D to the internal map of R233. -/
namespace Sys2Proof.Machine

/-! ## The map (R233) -/

/-- What stands at an internal address: the unit and the place in it. -/
inductive Place where
  | config (v : Nat) (i : Nat)
  | state (v : Nat) (i : Nat)
  | target (x : Nat) (i : Nat)
  | sysConfig (n : Nat) (i : Nat)
  | sysState (n : Nat) (i : Nat)
  | clasp (g : Nat) (i : Nat)
  | register (off : Nat) (i : Nat)
  | command (m : Nat) (i : Nat)
  | reply (m : Nat) (i : Nat)
  | box (m : Nat) (reg : Nat) (i : Nat)
  | ram (a : Nat)
  | reserved
  deriving DecidableEq, Repr

/-- A byte of a mailbox area (R233). -/
def mailPlace (m i : Nat) : Place :=
  if i < 0x100 then .command m i
  else if i < 0x200 then .reply m (i - 0x100)
  else if i < 0x210 then .box m ((i - 0x200) / 4 * 4) (i % 4)
  else .reserved

def placeOf (a : Nat) : Place :=
  if a < 0x800000 then .config (a / 8) (a % 8)
  else if a < 0xC00000 then .state ((a - 0x800000) / 4) (a % 4)
  else if a < 0x1000000 then .target ((a - 0xC00000) / 64) (a % 64)
  else if a < 0x1010000 then
    if a % 16 < 8 then .sysConfig ((a - 0x1000000) / 16) (a % 8)
    else if a % 16 < 12 then .sysState ((a - 0x1000000) / 16) (a % 4)
    else .reserved
  else if a < 0x1018000 then .clasp ((a - 0x1010000) / 8) (a % 8)
  else if a < 0x2000000 then .reserved
  else if a < 0x2400000 then .register ((a - 0x2000000) / 4 * 4) (a % 4)
  else if a < 0x3000000 then .reserved
  else if a < 0x3010400 then mailPlace ((a - 0x3000000) / 0x400) ((a - 0x3000000) % 0x400)
  else if 0x4000000 ≤ a ∧ a < 0x4080000 then .ram (a - 0x4000000)
  else .reserved

/-- The domain of a register of the manager window, none for Locket (R378). -/
def State.fmDomain (s : State) (p : Path) (off : Nat) : Option Nat :=
  let pageDomain (pg : Page) (off : Nat) : Option Nat :=
    match pg with
    | .mpu u => some (mpuDomain u)
    | .phy p => some (portDomain p)
    | .bypass => none
    | .link p => some (portDomain p)
    | .bead => if off = 0x00 ∨ off = 0x10 ∨ off = 0x14 then none else some dBEAD
    | .power => none
    | .ras => if 0x80 ≤ off then none else some dCORE
    | .hallmark => none
    | .loupe => some dLOUPE
    | _ => some dCORE
  if off = 0x04 then none
  else if off < 0x20 then some dCORE
  else if 0x100 ≤ off ∧ off < 0x200 then some dCORE
  else if 0x1000 ≤ off ∧ off < 0x1210 then (if off = 0x1200 then none else some dCTRL)
  else if 0x2000 ≤ off ∧ off < 0x2024 then (if off = 0x2000 then none else some dCORE)
  else if 0x8000 ≤ off ∧ off < 0x10000 then some dCORE
  else if 0x10000 ≤ off ∧ off < 0x1002C then some dCORE
  else if 0x100000 ≤ off ∧ off < 0x200000 then some dTGT
  else if 0x200000 ≤ off ∧ off < 0x400000 then
    match viewSource (s.viewOf p) ((off - 0x200000) / 8) with
    | some src => match srcClass src with
      | .message v => some (dTBL (quarterOf v))
      | _ => some dCORE
    | none => some dCORE
  else match pageOf off with
    | some (pg, base) => pageDomain pg (off - base)
    | none => none

/-- The domain that holds a place. -/
def State.placeDomain (s : State) (p : Place) : Option Nat :=
  match p with
  | .config v _ => some (dTBL (quarterOf v))
  | .state v _ => some (dTBL (quarterOf v))
  | .target _ _ => some dTGT
  | .sysConfig _ _ => some dCORE
  | .sysState _ _ => some dCORE
  | .clasp _ _ => some dCORE
  | .register off _ => s.fmDomain .manager off
  | .reserved => none
  | _ => some dCTRL

/-! ## Reads -/

/-- Byte `i` of a word. -/
def byteAt {w : Nat} (x : BitVec w) (i : Nat) : Byte := field x (8 * i) 8

/-- A byte as it stands, and whether it is a free value: a target record's bits have no layout in the spec, and the
firmware's own bytes in CTRL RAM are not given (log entries 32, 33). -/
def State.placeByte (s : State) (p : Place) : Byte :=
  match p with
  | .config v i => byteAt (s.cfgOf (msgSrc v)) i
  | .state v i => byteAt (s.stOf (msgSrc v)) i
  | .target _ i => Config.recordByte s.ras.freeReads i
  | .sysConfig n i => byteAt (s.cfgOf (sysSrc n)) i
  | .sysState n i => byteAt (s.stOf (sysSrc n)) i
  | .clasp g i => byteAt (s.claspEntry g) i
  | .register off i => byteAt (s.managerReg .manager off) i
  | .command m i => Sparse.get 0 (s.box (BitVec.ofNat 7 m)).cmd i
  | .reply m i => Sparse.get 0 (s.box (BitVec.ofNat 7 m)).reply i
  | .box m reg i => byteAt (s.boxWord (BitVec.ofNat 7 m) (0x200 + reg)) i
  | .ram a => match Sparse.get none s.acu.ram a with
    | some b => b
    | none => Config.ramByte s.ras.freeReads a
  | .reserved => 0

/-- What a read of a byte does besides: the line of its array is read, and an RC register is cleared (R7). -/
def touchPlace (s : State) (p : Place) : State :=
  match p with
  | .config v _ => readCfg s (msgSrc v)
  | .state v _ => peekSt s (msgSrc v)
  | .target x _ => readTarget s (BitVec.ofNat 16 x)
  | .sysConfig n _ => readCfg s (sysSrc n)
  | .sysState n _ => peekSt s (sysSrc n)
  | .clasp g _ => readLine 0 false s (claspLine g)
  | _ => s

def clearPlace (s : State) (p : Place) : State :=
  match p with
  | .register off i => if i = 0 then clearRead s .manager off else s
  | .box m reg i => if i = 0 then clearBoxWord s (BitVec.ofNat 7 m) (0x200 + reg) else s
  | _ => s

/-! ## Writes -/

/-- A word with byte `i` replaced. -/
def setByte {w : Nat} (x : BitVec w) (i : Nat) (b : Byte) : BitVec w :=
  (x &&& ~~~ place w (0xFF : Byte) (8 * i)) ||| place w b (8 * i)

/-- A Clasp word from its register form (R161). -/
def claspOf (e : W64) : ClaspWord :=
  { assign := if e.getLsbD 63 then (if e.getLsbD 62 then 0x40 else (field e 56 6 : Tenant).setWidth 7) else 0x41
    interval := field e 32 16, remaining := field e 16 16 }

/-- A source that is not reserved: one that is never becomes pending or active (R5). -/
def unreserved (x : Src) : Bool :=
  match srcClass x with
  | .reserved => false
  | .priv _ => true
  | .system _ => true
  | .message _ => true

/-- A source or none, from 25 free bits. -/
def freeSource (b : BitVec 512) (lo : Nat) : Option Src :=
  if b.getLsbD lo && unreserved (field b (lo + 1) 24) then some (field b (lo + 1) 24) else none

/-- A shortlist entry from 42 free bits, if its first says so. -/
def freeEntry (b : BitVec 512) (lo : Nat) : Option SlEntry :=
  if b.getLsbD lo && unreserved (field b (lo + 2) 24) then
    some ⟨field b (lo + 2) 24, b.getLsbD (lo + 1), field b (lo + 26) 16⟩
  else none

/-- A target record with every field of R107 free. -/
def freeRecord (r : TargetRec) (b : BitVec 512) : TargetRec :=
  { r with
    daddr := field b 0 64, seq := field b 64 16, active := freeSource b 80, tag := field b 105 8
    count := field b 113 16, redeliver := b.getLsbD 129, parked := b.getLsbD 130, mask := b.getLsbD 131
    privPend := field b 132 13, privEn := field b 145 13, overflow := b.getLsbD 158, sysOverflow := b.getLsbD 159
    refilling := b.getLsbD 160
    shortlist := (List.range 8).filterMap fun k => freeEntry b (161 + 42 * k) }

/-- A write of one byte of a mailbox register: its other bytes keep their values. -/
def writeBoxByte (s : State) (m : BitVec 7) (reg i : Nat) (b : Byte) : State :=
  match reg with
  | 0 => if i = 0 then writeDoorbell s m false (b.setWidth 32) else s
  | 4 => if i = 0 then s.modBox m fun x => { x with
      lost := x.lost && !b.getLsbD 3, overrun := x.overrun && !b.getLsbD 2
      replyReady := x.replyReady && !b.getLsbD 0 } else s
  | 8 => s.modBox m fun x => if i < 2 then writeSeq x (setByte (x.seq.setWidth 32) i b) else x
  | _ => s

/-- A permitted write of one byte. State words and registers of the manager window are never written (R233). -/
def writePlace (s : State) (p : Place) (b : Byte) : State :=
  match p with
  | .config v i =>
    let s := readCfg s (msgSrc v)
    writeCfg s (msgSrc v) (setByte (s.cfgOf (msgSrc v)) i b)
  | .target x _ =>
    let x : Slot := BitVec.ofNat 16 x
    let s := (touchTarget s x).modTarget x fun r => freeRecord r (Config.recordWritten s.ras.freeReads b)
    s.setRas { s.ras with freeReads := s.ras.freeReads + 1 }
  | .sysConfig n i =>
    let s := readCfg s (sysSrc n)
    writeCfg s (sysSrc n) (setByte (s.cfgOf (sysSrc n)) i b)
  | .sysState n i =>
    let s := readSt s (sysSrc n)
    writeSt s (sysSrc n) (setByte (s.stOf (sysSrc n)) i b)
  | .clasp g i =>
    let g12 : BitVec 12 := BitVec.ofNat 12 g
    let s := touchClasp s g12
    s.setClasp g12 (claspOf (setByte (s.claspEntry g) i b))
  | .command m i => s.modBox (BitVec.ofNat 7 m) fun x => writeCommandByte x i b
  | .reply m i => s.modBox (BitVec.ofNat 7 m) fun x => { x with reply := Sparse.set 0 x.reply i b }
  | .box m reg i => writeBoxByte s (BitVec.ofNat 7 m) reg i b
  | .ram a => s.setAcu { s.acu with ram := Sparse.set none s.acu.ram a (some b) }
  | _ => s

/-! ## The access -/

/-- Bytes of an access: 1, 2 or 4 (R388). -/
def debugSize (size : BitVec 2) : Nat := 2 ^ size.toNat

def State.debugPlaces (s : State) : List Place :=
  (List.range (debugSize s.acu.tap.size)).map fun i => placeOf (s.acu.tap.addr.toNat + i)

/-- The access waits: MPU-D is disabled or not ON, or a part it reaches is not ON (R16, R244, log entry 34). -/
def State.debugWaits (s : State) : Bool :=
  !s.acu.mpuD.enable || !s.isOn dCORE || s.debugPlaces.any fun p => match s.placeDomain p with
    | some d => !s.isOn d && !s.keptOff d
    | none => false

/-- The bytes of a permitted access, read or written in ascending order. -/
def performDebug (s : State) : State :=
  let u := s.acu.tap
  let ps := s.debugPlaces
  let s :=
    if u.write then (ps.zip (bytesLE 4 u.data.toNat)).foldl (fun s e => writePlace s e.1 e.2) s
    else
      let s := ps.foldl touchPlace s
      let data : W32 := BitVec.ofNat 32 (ofBytesLE (ps.map s.placeByte))
      let s := ps.foldl clearPlace s
      let s := s.setRas { s.ras with freeReads := s.ras.freeReads + 1 }
      s.setAcu { s.acu with tap := { s.acu.tap with data := data } }
  s.setAcu { s.acu with tap := { s.acu.tap with busy := false } }

/-- The error response of R239: a read returns 0. -/
def refuseDebug (s : State) : State :=
  s.setAcu { s.acu with tap := { s.acu.tap with busy := false, error := true, data := 0 } }

/-- The access that the debug master holds is checked and made, once nothing holds it back. -/
def runDebug (s : State) : State :=
  let u := s.acu.tap
  if !u.busy || s.debugWaits then s
  else
    let (s, ok, _) := checkAccess s 2
      ⟨if u.write then 1 else 0, debugSize u.size, u.addr.toNat, false, none⟩
    if ok then performDebug s else refuseDebug s

/-- Update-DR with START 1. A START while BUSY is 1 is ignored; SIZE 3 is refused as ERROR. -/
def execDebugAccess (req : DebugReq) (s : State) : Host.Outcome State Fault Refusal :=
  .next <|
    if s.acu.tap.busy || s.hm.inReset.isSome || s.hm.powerOff then s
    else
      let s := s.setAcu { s.acu with tap := {
        busy := true, write := req.write, size := req.size, error := false, addr := req.addr, data := req.data } }
      if req.size = 3 then refuseDebug s else runDebug s

end Sys2Proof.Machine
end

