-- ==== Sys2Proof/Machine/Regs.lean ====
section
/-! DEFINITION. Register accesses through the windows and the sideband (R7, R16, R369 to R382): what is admitted, what waits for a domain, what is captured, what a write does, and the commands that are accesses. -/
namespace Sys2Proof.Machine

/-! ## Writes of registers without a row of their own: W1C and RW fields (R7) -/

def writeAccess (a : AccessRegs) (off : Nat) (data : W32) : AccessRegs :=
  match off with
  | 0x18 => { a with size := a.size && !data.getLsbD 0 }
  | 0x1C => { a with valid := a.valid && !data.getLsbD 31 }
  | _ => a

/-- A window's own access record. -/
def modAccess (s : State) (p : Path) (f : AccessRegs → AccessRegs) : State :=
  match pathTenant p with
  | some t => s.modTenant t fun r => { r with access := f r.access }
  | none => s.setTen { s.ten with fmAccess := f s.ten.fmAccess }

/-- A write at 0x100 to 0x1FF of tenant `t`'s window, by the tenant or through the mirror (R381). -/
def writeTenantWord (s : State) (t : Tenant) (off : Nat) (data : W32) : State :=
  match off with
  | 0x100 =>
    let s := s.modTenant t fun r => { r with intakeStatus := r.intakeStatus &&& ~~~ data.setWidth 5 }
    if data.getLsbD 0 then setLevel s (0x440 + t.toNat) false else s
  | 0x120 => s.modTenant t fun r => { r with
      resyncDone := r.resyncDone && !data.getLsbD 3, parkedSeen := r.parkedSeen && !data.getLsbD 2
      staleSeen := r.staleSeen && !data.getLsbD 1, straySeen := r.straySeen && !data.getLsbD 0 }
  | 0x128 => s.modTenant t fun r => { r with strayFirstValid := r.strayFirstValid && !data.getLsbD 31 }
  | 0x144 => clearFaults s t (data.setWidth 8) false
  | 0x148 => clearFaults s t 0 (data.getLsbD 31)
  | _ => s

/-- A write on the mailbox page, at offsets from 0x1000 (R183, R190, R200). -/
def writeBoxWord (s : State) (p : Path) (off : Nat) (data : W32) : State :=
  let m := pathMailbox p
  if off < 0x100 then s.modBox m fun b =>
    ((bytesLE 4 data.toNat).zipIdx).foldl (fun b e => writeCommandByte b (off + e.2) e.1) b
  else match off with
    | 0x200 => writeDoorbell s m (p == .smbus) data
    | 0x204 => s.modBox m fun b => { b with
        lost := b.lost && !data.getLsbD 3, overrun := b.overrun && !data.getLsbD 2
        replyReady := b.replyReady && !data.getLsbD 0 }
    | 0x208 => s.modBox m fun b => writeSeq b data
    | _ => s

/-- The status registers of a source-operation page, at offsets from 0x10000 (R105). -/
def writeSrcRegs (r : SrcRegs) (off : Nat) (data : W32) : SrcRegs :=
  match off with
  | 0x20 => { r with status := r.status &&& ~~~ data.setWidth 6 }
  | 0x28 => { r with valid := r.valid && !data.getLsbD 31 }
  | _ => r

def writeSrcPage (s : State) (p : Path) (off : Nat) (data : W32) : State :=
  match pathTenant p with
  | some t => s.modTenant t fun r => { r with src := writeSrcRegs r.src off data }
  | none => s.setTen { s.ten with fmSrc := writeSrcRegs s.ten.fmSrc off data }

/-- `MW_VIEW_SELECT` of one path (R379). -/
def writeView (s : State) (p : Path) (data : W32) : State :=
  let v := data &&& 0x833F003F
  match p with
  | .smbus => s.setTen { s.ten with viewSmbus := v }
  | _ => s.setTen { s.ten with viewManager := v }

/-- The binding of a tenant (R164). Every write that changes it is held to its PORT, one that clears BOUND as well (log
entry 35). -/
def writeBind (s : State) (t : Tenant) (data : W32) : State :=
  let r := s.tenant t
  let bound := data.getLsbD 31
  let port : BitVec 7 := field data 0 7
  let holds := s.localBlocks t != 0 || r.range.isSome
  let badPort := port == s.ten.managerPort || decide (80 ≤ port.toNat) || !s.ten.upstream.getLsbD port.toNat
    || (match s.portTenant port.toNat with
      | some u => u != t
      | none => false)
  if bound = r.bound ∧ port = r.port then s
  else if holds || s.resetting t || badPort then s.setTen { s.ten with bindRefused := true }
  else s.setTenant t { r with bound := bound, port := port }

def writeFramePage (s : State) (off : Nat) (data : W32) : State :=
  match off with
  | 0x00 => writePeriod s data
  | 0x04 =>
    let u := s.frame
    s.setFrame { u with
      budgetOver := u.budgetOver && !data.getLsbD 7, withdrawn := u.withdrawn && !data.getLsbD 6
      tickStepped := u.tickStepped && !data.getLsbD 5, periodRefused := u.periodRefused && !data.getLsbD 4 }
  | _ => s

def writeIntakePage (s : State) (off : Nat) (data : W32) : State :=
  let u := s.intake
  match off with
  | 0x00 => s.setIntake { u with ownerCheck := data.getLsbD 1, windowEn := data.getLsbD 0 }
  | 0x08 => writeIntakeBase s false data
  | 0x0C => writeIntakeBase s true data
  | 0x10 => s.setIntake { u with discard := { u.discard with valid := u.discard.valid && !data.getLsbD 31 } }
  | 0x24 => s.setIntake { u with
      chainEventRefused := u.chainEventRefused && !data.getLsbD 4
      weightRefused := u.weightRefused && !data.getLsbD 3, baseRefused := u.baseRefused && !data.getLsbD 2 }
  | 0x28 => writeChainEvent s data
  | _ => if 0x100 ≤ off ∧ off < 0x200 then writeWeight s (BitVec.ofNat 6 ((off - 0x100) / 4)) data else s

def writeDeliveryPage (s : State) (off : Nat) (data : W32) : State :=
  let u := s.tgt
  match off with
  | 0x00 => s.setTgt { u with
      dropStale := u.dropStale && !data.getLsbD 3, engineFault := u.engineFault && !data.getLsbD 2 }
  | 0x08 => s.setTgt { u with dropValid := u.dropValid && !data.getLsbD 31 }
  | _ => s

def writeTenantsPage (s : State) (off : Nat) (data : W32) : State :=
  if off < 0x400 then (if off % 16 = 0 then writeBind s (BitVec.ofNat 6 (off / 16)) data else s)
  else if off = 0x400 then s.setTen { s.ten with bindRefused := s.ten.bindRefused && !data.getLsbD 0 }
  else s

/-- A unit of the MPU page. An MPU-D that is enabled lets a waiting debug access go on (R244). -/
def writeMpuPage (s : State) (u off : Nat) (data : W32) : State :=
  if off = 0 then runDebug (advanceLoads (writeMpuCtrl s u data))
  else if off = 0x08 then
    let m := s.mpu u
    s.setMpu u { m with viol := { m.viol with valid := m.viol.valid && !data.getLsbD 31 } }
  else if 0x100 ≤ off ∧ off < 0x200 then writeRegion s u ((off - 0x100) / 16) (off % 16 / 4) data
  else s

def writePhyPage (s : State) (p : PortId) (off : Nat) (data : W32) : State :=
  let u := s.phy p
  if off = 0x08 then s.setPhy p { u with
    wiring := u.wiring && !data.getLsbD 5, idClash := u.idClash && !data.getLsbD 4
    trainFail := u.trainFail && !data.getLsbD 3, spared := u.spared && !data.getLsbD 2
    laneLost := u.laneLost && !data.getLsbD 1, lockLostEv := u.lockLostEv && !data.getLsbD 0 }
  else s

def writeLinkPage (s : State) (p : PortId) (off : Nat) (data : W32) : State :=
  let l := s.linkPort p
  if off = 0x04 then s.setLinkPort p { l with
    protocol := l.protocol && !data.getLsbD 6, initFail := l.initFail && !data.getLsbD 5
    creditOver := l.creditOver && !data.getLsbD 4, stranded := l.stranded && !data.getLsbD 3
    rerouted := l.rerouted && !data.getLsbD 2, replayEv := l.replayEv && !data.getLsbD 1
    crcError := l.crcError && !data.getLsbD 0 }
  else s

def writeRingPage (s : State) (off : Nat) (data : W32) : State :=
  let u := s.chain
  if off = 0x18 then s.setChain { u with
    resent := u.resent && !data.getLsbD 4, allowOver := u.allowOver && !data.getLsbD 3
    duplicate := u.duplicate && !data.getLsbD 2, strandedEv := u.strandedEv && !data.getLsbD 1
    membersChanged := u.membersChanged && !data.getLsbD 0 }
  else s

def writeBeadPage (s : State) (off : Nat) (data : W32) : State :=
  let u := s.bead
  match off with
  | 0x04 => s.setBead { u with reserved := u.reserved && !data.getLsbD 1, unstable := u.unstable && !data.getLsbD 0 }
  | 0x14 => s.setBead { u with wakeEdge := u.wakeEdge &&& ~~~ field data 4 4 }
  | _ => s

def writePowerPage (s : State) (off : Nat) (data : W32) : State :=
  let u := s.pwr
  match off with
  | 0x40 => s.setPwr { u with
      coreLost := u.coreLost && !data.getLsbD 5, tgtLostEv := u.tgtLostEv && !data.getLsbD 4
      tblLostEv := u.tblLostEv && !data.getLsbD 3, captureFull := u.captureFull && !data.getLsbD 2
      capture75 := u.capture75 && !data.getLsbD 1, bounce := u.bounce && !data.getLsbD 0 }
  | 0x44 => s.setPwr { u with tblLost := u.tblLost &&& ~~~ data }
  | 0x48 => s.setPwr { u with tgtLost := u.tgtLost &&& ~~~ data.setWidth 16 }
  | _ =>
    if 4 ≤ off ∧ off < 0x30 then
      let r := s.dom (off / 4)
      s.setDom (off / 4) { r with
        failed := r.failed && !data.getLsbD 31, deadline := r.deadline && !data.getLsbD 30 }
    else s

def writeRasPage (s : State) (off : Nat) (data : W32) : State :=
  let u := s.ras
  match off with
  | 0x00 => s.setRas { u with
      fatal := u.fatal && !data.getLsbD 31, retireFailed := u.retireFailed && !data.getLsbD 8
      retiredEv := u.retiredEv && !data.getLsbD 7, busParity := u.busParity && !data.getLsbD 6
      portParity := u.portParity && !data.getLsbD 5, captureLost := u.captureLost && !data.getLsbD 4
      uncorrCtrl := u.uncorrCtrl && !data.getLsbD 3, uncorrCore := u.uncorrCore && !data.getLsbD 2
      uncorrTgt := u.uncorrTgt && !data.getLsbD 1, uncorrTbl := u.uncorrTbl && !data.getLsbD 0 }
  | 0x04 => s.setRas { u with firstValid := u.firstValid && !data.getLsbD 31 }
  | 0x20 => writeInject s data
  | _ => s

def writeHallmarkPage (s : State) (off : Nat) (data : W32) : State :=
  let u := s.hm
  match off with
  | 0x04 => writeHmCtrl s data
  | 0x08 => s.setHm { u with
      flashCopyFail := u.flashCopyFail && !data.getLsbD 11, restartRefused := u.restartRefused && !data.getLsbD 10
      failed := u.failed &&& ~~~ data.setWidth 10 }
  | _ => s

/-- A write on a page of the manager window. -/
def writePage (s : State) (pg : Page) (off : Nat) (data : W32) : State :=
  match pg with
  | .intake => writeIntakePage s off data
  | .vstate => if off = 0 then
      s.setVec { s.vec with satAny := s.vec.satAny && !data.getLsbD 1, lapsed := s.vec.lapsed && !data.getLsbD 0 } else s
  | .delivery => writeDeliveryPage s off data
  | .completion => if off = 0 then
      s.setTgt { s.tgt with
        passFull := s.tgt.passFull && !data.getLsbD 2, parkAny := s.tgt.parkAny && !data.getLsbD 1
        strayAny := s.tgt.strayAny && !data.getLsbD 0 } else s
  | .tenants => writeTenantsPage s off data
  | .mpu u => writeMpuPage s u off data
  | .phy p => writePhyPage s p off data
  | .bypass => s.setChain { s.chain with retimerUsed := s.chain.retimerUsed && !data.getLsbD 0 }
  | .link p => writeLinkPage s p off data
  | .ring => writeRingPage s off data
  | .bead => writeBeadPage s off data
  | .power => writePowerPage s off data
  | .ras => writeRasPage s off data
  | .hallmark => writeHallmarkPage s off data
  | .loupe => match off with
    | 0x00 => writeDivider s data
    | 0x08 => writeHistClear s data
    | _ => s

/-! ## Target pages (R133, R136, R139, R317, R377) -/

/-- The registers that a completion write addresses. -/
def isCompletion (reg : Nat) : Bool := reg == 0x000 || reg == 0x080 || reg == 0x084

/-- A completion write, well formed or not, goes to the completion queue (R136, R137, R139). A half of
`TGT_COMPLETE_SEQ` written alone completes nothing. That one of bad form takes an entry of the queue, and is counted as
stray when it drains, is the model's choice: R136 does not say where it is counted (log entry 56). -/
def writeCompletion (s : State) (p : Path) (page : BitVec 10) (reg bytes : Nat) (full : Bool) (data : W64) : State :=
  match s.pageSlot p page with
  | none => s
  | some (t, x) =>
    let good := full && ((reg == 0 && bytes == 4) || (reg == 0x80 && bytes == 8))
    let src : Src := if reg = 0x084 then 0 else field data 0 24
    queueCompletion s ⟨t, x, src, if reg = 0 then none else some (field data 48 16), !good⟩

/-- A write to another register of a target page. -/
def writePageReg (s : State) (p : Path) (page : BitVec 10) (reg : Nat) (data : W32) : State :=
  match s.pageSlot p page with
  | some (_, x) => writeTargetPage s x reg data
  | none => s

/-- The tenant that holds a page is RESETTING: FM writes to it are ignored (R377), except that its completions are
discarded at the drain (R142). -/
def State.pageResets (s : State) (p : Path) (page : BitVec 10) : Bool :=
  match s.pageSlot p page with
  | some (t, _) => s.resetting t
  | none => false

/-! ## One 32-bit write -/

/-- The source operation of an address (R95). -/
def opAt (off : Nat) : Option SrcOp :=
  match off with
  | 0x10000 => some .setPending
  | 0x10004 => some .clrPending
  | 0x10008 => some .setEnable
  | 0x1000C => some .clrEnable
  | 0x10010 => some .clrSticky
  | _ => none

/-- A 32-bit write that takes effect on a register outside the target pages. Views are read only. -/
def writeWord (s : State) (p : Path) (off : Nat) (data : W32) : State :=
  if off < 0x20 then modAccess s p fun a => writeAccess a off data
  else if 0x1000 ≤ off ∧ off < 0x1210 then writeBoxWord s p (off - 0x1000) data
  else if 0x10020 ≤ off ∧ off < 0x1002C then writeSrcPage s p (off - 0x10000) data
  else match pathTenant p with
    | some t => if off < 0x200 then writeTenantWord s t off data else s
    | none =>
      if off = 0x20 then writeView s p data
      else if 0x100 ≤ off ∧ off < 0x200 then writeTenantWord s (field (s.viewOf p) 0 6) off data
      else if 0x2000 ≤ off ∧ off < 0x2024 then writeFramePage s (off - 0x2000) data
      else match pageOf off with
        | some (pg, base) => writePage s pg (off - base) data
        | none => s

/-! ## Reads -/

/-- A read of an entry or a page reads the lines of its arrays. -/
def touchRead (s : State) (p : Path) (off : Nat) : State :=
  let source (s : State) (src : Src) : State :=
    match srcClass src with
    | .message v => if s.keptOff (dTBL (quarterOf v)) then s else peekSt (readCfg s src) src
    | .system _ => peekSt (readCfg s src) src
    | _ => s
  if 0x100000 ≤ off ∧ off < 0x200000 then match s.pageSlot p (pageIndex off) with
    | some (_, x) => readTarget s x
    | none => s
  else if 0x200000 ≤ off ∧ off < 0x400000 then
    let i := (off - 0x200000) / 8
    match pathTenant p with
    | some t => match s.viewVector t i with
      | some v => source s (msgSrc v)
      | none => s
    | none => match viewSource (s.viewOf p) i with
      | some src => source s src
      | none => s
  else if 0x8000 ≤ off ∧ off < 0x10000 ∧ pathFm p then
    readLine 0 false s (claspLine ((off - 0x8000) / 8))
  else s

/-- The upper half latched by the preceding read of a path (R371). -/
def State.halfOf (s : State) (p : Path) : Option (BitVec 22 × W32) :=
  match p with
  | .smbus => s.bnd.halfSmbus
  | .manager => s.bnd.halfManager
  | .tenant _ => none

def setHalf (s : State) (p : Path) (h : Option (BitVec 22 × W32)) : State :=
  match p with
  | .smbus => s.setBnd { s.bnd with halfSmbus := h }
  | .manager => s.setBnd { s.bnd with halfManager := h }
  | .tenant _ => s

/-- One 32-bit register read (R7, R50, R371). -/
def readWord (s : State) (p : Path) (off : Nat) : State × W32 :=
  let entry : BitVec 22 := BitVec.ofNat 22 (off / 8 * 8)
  let latched : Option W32 := match s.halfOf p with
    | some (e, w) => if e = entry ∧ off % 8 = 4 then some w else none
    | none => none
  match latched with
  | some w => (setHalf s p none, w)
  | none =>
    let s := touchRead s p off
    let v := s.regValue p off
    let s := clearRead s p off
    let s := if off = 0x10 ∨ (off = 0x2010 ∧ pathFm p) then latchFrame s p else s
    let next : Option (BitVec 22 × W32) := match s.entryAt p off with
      | some e => if off % 8 = 0 then some (entry, half e true) else none
      | none => none
    (setHalf s p next, v)

/-- Consecutive 32-bit reads in ascending offset order; beyond the window nothing is assigned. -/
def readWords (s : State) (p : Path) (off n : Nat) : State × List Byte :=
  (List.range n).foldl (fun r k =>
    let at_ := off + 4 * k
    if at_ < 0x400000 then
      let (s, v) := readWord r.1 p at_
      (s, r.2 ++ bytesLE 4 v.toNat)
    else (r.1, r.2 ++ bytesLE 4 0)) (s, [])

/-! ## What waits (R15, R16, R372, R373) -/

/-- The domain that a register of a path needs, none for Locket and for what reads 0 at once (R104, R374, R378). -/
def State.regDomain (s : State) (p : Path) (off : Nat) : Option Nat :=
  match pathTenant p with
  | none => s.fmDomain p off
  | some t =>
    if off = 0x04 then none
    else if off < 0x20 ∨ (0x100 ≤ off ∧ off < 0x168) then some dCORE
    else if 0x1000 ≤ off ∧ off < 0x1210 then (if off = 0x1200 then none else some dCTRL)
    else if 0x10000 ≤ off ∧ off < 0x1002C then some dCORE
    else if 0x100000 ≤ off ∧ off < 0x200000 then some dTGT
    else if 0x200000 ≤ off ∧ off < 0x400000 then
      (s.viewVector t ((off - 0x200000) / 8)).map fun v => dTBL (quarterOf v)
    else none

/-- Every domain that an access needs. A write to a target page needs CORE beside TGT; the sideband needs CTRL for
every page but Hallmark's, since its clock is stretched until CTRL is ON (R389, log entry 31). -/
def State.accessDomains (s : State) (a : RegAccess) : List Nat :=
  let off := a.offset.toNat
  let regs := (List.range (max 1 (a.bytes / 4))).filterMap fun k => s.regDomain a.path (off + 4 * k)
  let regs := if a.write && decide (0x100000 ≤ off) && decide (off < 0x200000) then dCORE :: regs else regs
  let sideband := a.path == .smbus && !(decide (0x25000 ≤ off) && decide (off < 0x25200))
  (if sideband then dCTRL :: regs else regs).filter fun d => !s.keptOff d

/-- A posted write that goes into the capture FIFO when its domain is away, and so never waits (R317). -/
def State.posted (a : RegAccess) : Bool :=
  let off := a.offset.toNat
  let reg := off % 0x400
  a.write && ((opAt off).isSome ||
    (!pathFm a.path && decide (0x100000 ≤ off) && decide (off < 0x200000) &&
      (!isCompletion reg || (reg == 0 && a.bytes == 4 && a.fullBe) || (reg == 0x80 && a.bytes == 8 && a.fullBe))))

/-- An earlier access of the same path to the same page still waits (R372, log entry 36). -/
def State.behind (s : State) (a : RegAccess) : Bool :=
  s.pwr.waiting.any fun b => b.path == a.path && b.offset.toNat / 0x400 == a.offset.toNat / 0x400

/-- A tenant's read of a target-page register that a captured write of the tenant has still to reach (R372). -/
def State.awaitsCapture (s : State) (a : RegAccess) : Bool :=
  let reg := a.offset.toNat % 0x400
  match pathTenant a.path with
  | some t => !a.write && decide (0x100000 ≤ a.offset.toNat) && decide (a.offset.toNat < 0x200000) &&
      s.pwr.capture.any fun e => capKind e.word == 4 && (field e.word 55 6 : Tenant) == t
        && (field e.word 45 10 : BitVec 10) == pageIndex a.offset.toNat
        && (let r := 4 * (field e.word 37 8 : BitVec 8).toNat
            decide (reg ≤ r) && decide (r < reg + a.bytes) && !(r == 0x008 || r == 0x00C || r == 0x010))
  | none => false

/-- A target-page write goes into the capture FIFO (R317). -/
def State.capturedPage (s : State) (a : RegAccess) : Option Tenant :=
  if s.captures none && State.posted a then pathTenant a.path else none

/-- The 32-bit registers of the private lane that a target-page write reaches (R115). -/
def laneWrites (a : RegAccess) : Nat :=
  ((List.range (a.bytes / 4)).filter fun k =>
    [0x008, 0x00C, 0x010].contains (a.offset.toNat % 0x400 + 4 * k)).length

/-- What a write takes beside its domains has room for it: the tenant's credits or the capture FIFO (R61, R318), the
completion queue (R137), the private lane (R156). Without it the write waits in its ingress port. -/
def State.room (s : State) (a : RegAccess) : Bool :=
  let off := a.offset.toNat
  let reg := off % 0x400
  if !a.write then true
  else if (opAt off).isSome then s.opRoom a.path (field a.data 0 24)
  else if off < 0x100000 ∨ 0x200000 ≤ off then true
  else if (s.capturedPage a).isSome then
    decide (s.pwr.capture.length + (if isCompletion reg then 1 else a.bytes / 4) ≤ 1024)
  else if isCompletion reg then
    match s.pageSlot a.path (pageIndex off) with
    | some (t, _) => s.cplRoom t
    | none => true
  else decide (s.tgt.privLane.length + laneWrites a ≤ 256)

/-- A read of the vector state view that returns 0 at once: it lies outside the tenant's range (R104). -/
def State.atOnce (s : State) (a : RegAccess) : Bool :=
  !a.write && decide (0x200000 ≤ a.offset.toNat) && (s.accessDomains a).isEmpty

/-- The access can be made now. -/
def State.ready (s : State) (a : RegAccess) : Bool :=
  s.atOnce a ||
    (!s.behind a && s.room a && (State.posted a || ((s.accessDomains a).all s.isOn && !s.awaitsCapture a)))

/-- The access waits, and Locket wakes what it needs. -/
def holdAccess (s : State) (a : RegAccess) : State :=
  let s := s.setPwr { s.pwr with waiting := s.pwr.waiting ++ [a] }
  if State.posted a then s else ((s.accessDomains a).filter fun d => !s.isOn d).foldl (wake .access) s

/-! ## An access -/

/-- A write of a tenant or the FM to a target page, captured under R317 where it must be. -/
def writeTarget (s : State) (a : RegAccess) : State :=
  let page := pageIndex a.offset.toNat
  let reg := a.offset.toNat % 0x400
  let lo : W32 := field a.data 0 32
  let hi : W32 := field a.data 32 32
  match s.capturedPage a with
  | some t =>
    if reg = 0 then captureCompletion s t page (field a.data 0 24) none
    else if reg = 0x80 then captureCompletion s t page (field a.data 0 24) (some (field a.data 48 16))
    else
      let s := capture s (capTgt t page (BitVec.ofNat 8 (reg / 4)) lo)
      if a.bytes = 8 then capture s (capTgt t page (BitVec.ofNat 8 (reg / 4 + 1)) hi) else s
  | none =>
    if isCompletion reg then writeCompletion s a.path page reg a.bytes a.fullBe a.data
    else if s.pageResets a.path page then s
    else
      let s := writePageReg s a.path page reg lo
      if a.bytes = 8 then writePageReg s a.path page (reg + 4) hi else s

/-- A write that is admitted and need not wait. -/
def performWrite (s : State) (a : RegAccess) : State :=
  let off := a.offset.toNat
  match opAt off with
  | some op => sourceOpWrite s a.path op (field a.data 0 32) a.requester
  | none =>
    if 0x100000 ≤ off ∧ off < 0x200000 then writeTarget s a
    else
      let s := writeWord s a.path off (field a.data 0 32)
      if a.bytes = 8 then writeWord s a.path (off + 4) (field a.data 32 32) else s

/-- A read that is admitted and need not wait: its completion carries the bytes. -/
def performRead (s : State) (a : RegAccess) : State :=
  let (s, bytes) := readWords s a.path a.offset.toNat (a.bytes / 4)
  s.setBnd { s.bnd with lastRead := bytes, lastStatus := .successful }

/-- A read that returns zero in every byte. -/
def readZero (s : State) (a : RegAccess) : State :=
  s.setBnd { s.bnd with lastRead := List.replicate a.bytes 0, lastStatus := .successful }

/-- R175: while a tenant is RESETTING its window answers reads of the identification page and the mailbox registers. -/
def State.closedTo (s : State) (a : RegAccess) : Bool :=
  let off := a.offset.toNat
  match pathTenant a.path with
  | some t => s.resetting t && (a.write || !(decide (off < 0x200) || (decide (0x1200 ≤ off) && decide (off < 0x1210))))
  | none => false

/-- An access that no domain holds back. -/
def perform (s : State) (a : RegAccess) : State :=
  if s.closedTo a then (if a.write then s else readZero s a)
  else if a.write then performWrite s a
  else performRead s a

/-- An access that has entered the block: made now, or held until its domains are ON. -/
def submit (s : State) (a : RegAccess) : State :=
  if s.closedTo a || s.ready a then perform s a else holdAccess s a

/-! ## Admission (R355, R370) -/

/-- An access of an admitted size, alignment and byte enables (R370). -/
def admitted (a : RegAccess) : Bool :=
  let off := a.offset.toNat
  let inArea (lo : Nat) : Bool := decide (lo ≤ off) && decide (off + a.bytes ≤ lo + 0x100)
  a.fullBe && decide (off % 4 = 0) && (a.bytes == 4 || (a.path != .smbus &&
    ((a.bytes == 8 && decide (off % 8 = 0) && !(a.write && decide (0x10000 ≤ off) && decide (off ≤ 0x10010))) ||
      (!a.write && decide (12 ≤ a.bytes) && decide (a.bytes ≤ 256) && decide (a.bytes % 4 = 0)
        && (inArea 0x1000 || inArea 0x1100)))))

/-- The record of an access that is not admitted (R370, R375). -/
def recordAccess (s : State) (a : RegAccess) : State :=
  modAccess s a.path fun r =>
    let r := { r with size := true }
    if r.valid then r else { r with valid := true, write := a.write, offset := a.offset }

/-- An access that is not admitted is recorded and not performed. A write to a completion address in such a form goes on
as a completion of bad form: it waits for CORE, and is counted as stray under R136 as well (R317). -/
def refuseAccess (s : State) (a : RegAccess) : State :=
  let s := recordAccess s a
  let off := a.offset.toNat
  let reg := off % 0x400
  if !a.write then readZero s a
  else if 0x100000 ≤ off ∧ off < 0x200000 ∧ isCompletion reg ∧ ¬ s.closedTo a then
    submit s { a with fullBe := false }
  else s

/-- An access before start-up step 4 has ended: the Hallmark page is read, writes of the manager mailbox are held, and
everything else reads 0 or is ignored (R355). -/
def earlyAccess (s : State) (a : RegAccess) : State :=
  let off := a.offset.toNat
  let mailbox := decide (0x1000 ≤ off) && (decide (off < 0x1100) || off == 0x1200 || off == 0x1208) && decide (off < 0x1210)
  if a.write then (if mailbox && admitted a then performWrite s a else s)
  else if decide (0x25000 ≤ off) && decide (off < 0x25200) && admitted a then performRead s a
  else readZero s a

/-- The window of a path is presented: a tenant's under R164, the manager's always (R369). -/
def State.presented (s : State) (p : Path) : Bool :=
  !s.hm.powerOff && match p with
    | .tenant t => (s.tenant t).windowUp && s.hm.inReset.isNone
    | .manager => true
    | .smbus => true

/-- An access as it arrives at a window. -/
def access (s : State) (a : RegAccess) : State :=
  if !s.presented a.path then s
  else if s.hm.inReset.isSome then earlyAccess s a
  else if admitted a then submit s a
  else refuseAccess s a

/-! ## The commands -/

/-- A 4-byte write. -/
def write4 (s : State) (p : Path) (off : Nat) (data : W32) : State :=
  access s ⟨p, BitVec.ofNat 22 off, 4, true, true, data.setWidth 64, 0⟩

/-- A register that only the manager window holds. -/
def fmWrite4 (s : State) (p : Path) (off : Nat) (data : W32) : State := if pathFm p then write4 s p off data else s

def execRegisterRead (p : Path) (offset : BitVec 22) (bytes : Nat) (fullBe : Bool) (s : State) :
    Host.Outcome State Fault Refusal := .next (access s ⟨p, offset, bytes, fullBe, false, 0, 0⟩)

def execRegisterWrite (p : Path) (offset : BitVec 22) (bytes : Nat) (fullBe : Bool) (data : W64) (s : State) :
    Host.Outcome State Fault Refusal := .next (access s ⟨p, offset, bytes, fullBe, true, data, 0⟩)

def execFrameCountLoRead (p : Path) (s : State) : Host.Outcome State Fault Refusal :=
  .next (access s ⟨p, 0x10, 4, true, false, 0, 0⟩)

/-- SMBus command 0x0A: each 4 data bytes are one write, in ascending order; a malformed transaction is NACKed (R197). -/
def execSmbusBlockWrite (offset : W32) (data : List W32) (pecOk : Bool) (s : State) :
    Host.Outcome State Fault Refusal :=
  .next <|
    if s.hm.powerOff then s
    else if !pecOk ∨ offset.toNat % 4 ≠ 0 ∨ data.length < 1 ∨ 7 < data.length then
      s.setBnd { s.bnd with lastNack := true }
    else
      data.zipIdx.foldl (fun s e =>
        let off := offset.toNat + 4 * e.2
        if off < 0x400000 then write4 s .smbus off e.1 else s) (s.setBnd { s.bnd with lastNack := false })

/-- A process call before start-up step 4 has ended: each 4 bytes are one register access, and those of the Hallmark page
have their value (R197, R355). -/
def earlyWords (s : State) (off n : Nat) : State :=
  let (s, bytes) := (List.range n).foldl (fun r k =>
    let a := off + 4 * k
    if 0x25000 ≤ a ∧ a < 0x25200 then
      let (s, v) := readWord r.1 .smbus a
      (s, r.2 ++ bytesLE 4 v.toNat)
    else (r.1, r.2 ++ bytesLE 4 0)) (s, [])
  s.setBnd { s.bnd with lastRead := bytes, lastStatus := .successful }

/-- SMBus command 0x0B: COUNT bytes are read from OFFSET. -/
def execSmbusProcessCall (offset : W32) (count : Byte) (pecOk : Bool) (s : State) :
    Host.Outcome State Fault Refusal :=
  .next <|
    let n := count.toNat
    if s.hm.powerOff then s
    else if !pecOk ∨ offset.toNat % 4 ≠ 0 ∨ n < 4 ∨ 32 < n ∨ n % 4 ≠ 0 then
      s.setBnd { s.bnd with lastNack := true }
    else
      let s := s.setBnd { s.bnd with lastNack := false }
      let a : RegAccess := ⟨.smbus, BitVec.ofNat 22 offset.toNat, n, true, false, 0, 0⟩
      if 0x400000 ≤ offset.toNat then readZero s a
      else if s.hm.inReset.isSome then earlyWords s offset.toNat (n / 4)
      else submit s a

def execMailboxRing (p : Path) (s : State) : Host.Outcome State Fault Refusal := .next (write4 s p 0x1200 1)
def execMailboxCancel (p : Path) (s : State) : Host.Outcome State Fault Refusal := .next (write4 s p 0x1200 2)

/-- A source-operation write carries its requester ID (R96). -/
def execSrcSetPending (p : Path) (data : W32) (requester : BitVec 16) (s : State) :
    Host.Outcome State Fault Refusal := .next (access s ⟨p, 0x10000, 4, true, true, data.setWidth 64, requester⟩)
def execSrcClrPending (p : Path) (data : W32) (s : State) : Host.Outcome State Fault Refusal :=
  .next (write4 s p 0x10004 data)
def execSrcSetEnable (p : Path) (data : W32) (s : State) : Host.Outcome State Fault Refusal :=
  .next (write4 s p 0x10008 data)
def execSrcClrEnable (p : Path) (data : W32) (s : State) : Host.Outcome State Fault Refusal :=
  .next (write4 s p 0x1000C data)
def execSrcClrSticky (p : Path) (data : W32) (s : State) : Host.Outcome State Fault Refusal :=
  .next (write4 s p 0x10010 data)

/-- Offset of a register of target page `page`. -/
def pageOffset (page : BitVec 10) (reg : Nat) : Nat := 0x100000 + 0x400 * page.toNat + reg

/-- A write to a completion address in one of its forms. -/
def writeForm (s : State) (p : Path) (page : BitVec 10) (reg : Nat) (form : WriteForm) (data : W64) : State :=
  let (bytes, full) : Nat × Bool := match form with
    | .dw => (4, true)
    | .qw => (8, true)
    | .other => (4, false)
  access s ⟨p, BitVec.ofNat 22 (pageOffset page reg), bytes, full, true, data, 0⟩

def execTgtComplete (p : Path) (page : BitVec 10) (form : WriteForm) (data : W64) (s : State) :
    Host.Outcome State Fault Refusal := .next (writeForm s p page 0x000 form data)
def execTgtCompleteSeq (p : Path) (page : BitVec 10) (form : WriteForm) (data : W64) (s : State) :
    Host.Outcome State Fault Refusal := .next (writeForm s p page 0x080 form data)
def execTgtPrivSet (p : Path) (page : BitVec 10) (data : W32) (s : State) : Host.Outcome State Fault Refusal :=
  .next (write4 s p (pageOffset page 0x008) data)
def execTgtPrivClr (p : Path) (page : BitVec 10) (data : W32) (s : State) : Host.Outcome State Fault Refusal :=
  .next (write4 s p (pageOffset page 0x00C) data)
def execTgtPrivEnable (p : Path) (page : BitVec 10) (data : W32) (s : State) : Host.Outcome State Fault Refusal :=
  .next (write4 s p (pageOffset page 0x010) data)
def execTgtCtrl (p : Path) (page : BitVec 10) (data : W32) (s : State) : Host.Outcome State Fault Refusal :=
  .next (write4 s p (pageOffset page 0x018) data)
def execTgtTimerCtrl (p : Path) (page : BitVec 10) (data : W32) (s : State) : Host.Outcome State Fault Refusal :=
  .next (write4 s p (pageOffset page 0x0A0) data)

def execPeriodRequest (p : Path) (data : W32) (s : State) : Host.Outcome State Fault Refusal :=
  .next (fmWrite4 s p 0x2000 data)
def execIntakeBaseWrite (p : Path) (high : Bool) (data : W32) (s : State) : Host.Outcome State Fault Refusal :=
  .next (fmWrite4 s p (if high then 0x300C else 0x3008) data)
def execWeightWrite (p : Path) (t : Tenant) (data : W32) (s : State) : Host.Outcome State Fault Refusal :=
  .next (fmWrite4 s p (0x3100 + 4 * t.toNat) data)
def execChainEvent (p : Path) (data : W32) (s : State) : Host.Outcome State Fault Refusal :=
  .next (fmWrite4 s p 0x3028 data)
def execTenantBind (p : Path) (t : Tenant) (data : W32) (s : State) : Host.Outcome State Fault Refusal :=
  .next (fmWrite4 s p (0x7000 + 16 * t.toNat) data)
def execViewSelect (p : Path) (data : W32) (s : State) : Host.Outcome State Fault Refusal :=
  .next (fmWrite4 s p 0x20 data)
def execFmRestart (p : Path) (data : W32) (s : State) : Host.Outcome State Fault Refusal :=
  .next (fmWrite4 s p 0x25004 data)
def execRasInject (p : Path) (data : W32) (s : State) : Host.Outcome State Fault Refusal :=
  .next (fmWrite4 s p 0x24020 data)
def execHistClear (p : Path) (data : W32) (s : State) : Host.Outcome State Fault Refusal :=
  .next (fmWrite4 s p 0x28008 data)

/-- Offset of unit `u`'s registers. There are units 0 to 2; an offset of a fourth is reserved (R249). -/
def unitOffset (unit : BitVec 2) (reg : Nat) : Nat := 0x20000 + 0x400 * unit.toNat + reg

def execMpuEnableWrite (p : Path) (unit : BitVec 2) (data : W32) (s : State) : Host.Outcome State Fault Refusal :=
  .next (fmWrite4 s p (unitOffset unit 0) data)

/-- The barrier of R245: a write of REQUEST and the read that answers it. Each write is in force as soon as it is made,
so the read returns DONE at once. -/
def execMpuSync (p : Path) (unit : BitVec 2) (s : State) : Host.Outcome State Fault Refusal :=
  .next <|
    if pathFm p then
      access (fmWrite4 s p (unitOffset unit 4) 0x80000000) ⟨p, BitVec.ofNat 22 (unitOffset unit 4), 4, true, false, 0, 0⟩
    else s

def execMpuRegionWrite (p : Path) (unit : BitVec 2) (region : BitVec 4) (reg : BitVec 2) (data : W32) (s : State) :
    Host.Outcome State Fault Refusal :=
  .next (fmWrite4 s p (unitOffset unit (0x100 + 16 * region.toNat + 4 * reg.toNat)) data)

end Sys2Proof.Machine
end

