-- ==== Sys2Proof/Machine/Wake.lean ====
section
/-! DEFINITION. The commands after which held accesses go on: a domain's LOGIC_RDY (R315, R316), the drain of the capture FIFO (R318) and a native MPU_CONFIG write (R224, R244). -/
namespace Sys2Proof.Machine

/-- The accesses that waited are made in order, where their domains now serve them and what they need has room. -/
def resume (s : State) : State :=
  if s.pwr.waiting.isEmpty then s else s.pwr.waiting.foldl submit (s.setPwr { s.pwr with waiting := [] })

/-- What was held at the edge of CORE goes on: private pending bits (R19), then accesses, loads, and a debug access as well. -/
def releaseWaiting (s : State) : State := runDebug (advanceLoads (resume (releaseHeldNotices s)))

def execLogicRdy (d : BitVec 4) (exitUs : BitVec 8) (lkt : BitVec 48) (s : State) :
    Host.Outcome State Fault Refusal := .next (releaseWaiting (logicRdy s d.toNat exitUs lkt))

/-- A drain slot of the intake (R62); the credit it returns lets a held write go on. -/
def execIntakeDrain (s : State) : Host.Outcome State Fault Refusal :=
  .next (if s.coreOn && s.frame.running then resume (intakeStep s) else s)

def execCompletionDrain (s : State) : Host.Outcome State Fault Refusal :=
  .next (if s.coreOn then resume (completionStep s) else s)

def execPrivateLaneApply (s : State) : Host.Outcome State Fault Refusal :=
  .next (if s.coreOn then resume (privateStep s) else s)

/-- The frame period expires. Before step 9 of a start, and while CORE is not ON, there is no tick. -/
def execFrameTick (inp : TickIn) (s : State) : Host.Outcome State Fault Refusal :=
  .next <|
    if s.hm.inReset.isSome || s.hm.powerOff || !s.frame.running then s
    else if s.stopping then stopInstant s
    else if s.coreOn then resume (tick s inp)
    else s

/-- The work of frame 0, whose tick step 9 of a start gives (R32, R348, R353). -/
def firstTick (s : State) (inp : TickIn) : State :=
  if s.frame.running && s.hm.inReset.isNone then
    let s := inp.upsets.foldl upset s
    tickBack s.tgt (loupeTick s) inp
  else s

/-- The release of POR_N or BLK_RST_N (R386): the start runs, from step 1 after a cold reset and from step 2 after a
block reset. -/
def execResetRelease (env : StartEnv) (s : State) : Host.Outcome State Fault Refusal :=
  .next <| match s.hm.inReset with
    | some (cause, cold) => firstTick (runStart s env cause cold) env.tick
    | none => s

/-- One captured entry is drained (R318). -/
def captureStep (s : State) : State :=
  if s.coreUp && s.frame.running then
    let s := s.pwr.capture.foldl (fun s e => wakeQuarter s (capQuarter e.word)) s
    match s.capNext with
    | some e => releaseWaiting (drainCapture s e)
    | none => s
  else s

def execCaptureDrain (s : State) : Host.Outcome State Fault Refusal := .next (captureStep s)

/-- MPU_CONFIG with OP 1, or with an OP that check 1 refuses; it leaves the unit with ENABLE set. -/
def execMpuConfigWrite (mb : BitVec 7) (s : State) : Host.Outcome State Fault Refusal :=
  .next (runDebug (runTaken s mb 0x50 (fun c => snapByte c 0x0A != 0) (fun _ _ => []) fun s c => mpuConfig s mb c))

end Sys2Proof.Machine
end

