-- ==== Sys2Proof/Machine/Dispatch.lean ====
section
/-! DEFINITION. One arm per command of the opcode table: the call of its meaning. -/
namespace Sys2Proof.Machine

/-- The effect of a command on everything but the queue. -/
def exec (i : Instr) (s : State) : Host.Outcome State Fault Refusal :=
  match i with
  | .coldReset => Sys2Proof.Machine.execColdReset s
  | .blockReset => Sys2Proof.Machine.execBlockReset s
  | .frameTick inp => Sys2Proof.Machine.execFrameTick inp s
  | .timerFire x => Sys2Proof.Machine.execTimerFire x s
  | .claspHoldoffEnd g => Sys2Proof.Machine.execClaspHoldoffEnd g s
  | .periodChangeApply => Sys2Proof.Machine.execPeriodChangeApply s
  | .decisionCommit engine mismatch => Sys2Proof.Machine.execDecisionCommit engine mismatch s
  | .decisionWithdraw engine => Sys2Proof.Machine.execDecisionWithdraw engine s
  | .reissueCommit engine mismatch => Sys2Proof.Machine.execReissueCommit engine mismatch s
  | .intakeWrite w => Sys2Proof.Machine.execIntakeWrite w s
  | .intakeDrain => Sys2Proof.Machine.execIntakeDrain s
  | .captureDrain => Sys2Proof.Machine.execCaptureDrain s
  | .srcSetPending p data requester => Sys2Proof.Machine.execSrcSetPending p data requester s
  | .srcClrPending p data => Sys2Proof.Machine.execSrcClrPending p data s
  | .srcSetEnable p data => Sys2Proof.Machine.execSrcSetEnable p data s
  | .srcClrEnable p data => Sys2Proof.Machine.execSrcClrEnable p data s
  | .srcClrSticky p data => Sys2Proof.Machine.execSrcClrSticky p data s
  | .systemLaneTake => Sys2Proof.Machine.execSystemLaneTake s
  | .portLinkChange port level => Sys2Proof.Machine.execPortLinkChange port level s
  | .portPresenceChange port level => Sys2Proof.Machine.execPortPresenceChange port level s
  | .portContained port => Sys2Proof.Machine.execPortContained port s
  | .corValid port => Sys2Proof.Machine.execCorValid port s
  | .uncValid port => Sys2Proof.Machine.execUncValid port s
  | .chainEvent p data => Sys2Proof.Machine.execChainEvent p data s
  | .tgtComplete p page form data => Sys2Proof.Machine.execTgtComplete p page form data s
  | .tgtCompleteSeq p page form data => Sys2Proof.Machine.execTgtCompleteSeq p page form data s
  | .completionDrain => Sys2Proof.Machine.execCompletionDrain s
  | .dropNotice slot seq parityErr => Sys2Proof.Machine.execDropNotice slot seq parityErr s
  | .tgtPrivSet p page data => Sys2Proof.Machine.execTgtPrivSet p page data s
  | .tgtPrivClr p page data => Sys2Proof.Machine.execTgtPrivClr p page data s
  | .tgtPrivEnable p page data => Sys2Proof.Machine.execTgtPrivEnable p page data s
  | .privateLaneApply => Sys2Proof.Machine.execPrivateLaneApply s
  | .tgtCtrl p page data => Sys2Proof.Machine.execTgtCtrl p page data s
  | .tgtTimerCtrl p page data => Sys2Proof.Machine.execTgtTimerCtrl p page data s
  | .messagePassStart => Sys2Proof.Machine.execMessagePassStart s
  | .systemPassStart => Sys2Proof.Machine.execSystemPassStart s
  | .refillPassEnd => Sys2Proof.Machine.execRefillPassEnd s
  | .mailboxRing p => Sys2Proof.Machine.execMailboxRing p s
  | .mailboxCancel p => Sys2Proof.Machine.execMailboxCancel p s
  | .commandTake mb => Sys2Proof.Machine.execCommandTake mb s
  | .replyDeposit mb => Sys2Proof.Machine.execReplyDeposit mb s
  | .getInfo mb => Sys2Proof.Machine.execGetInfo mb s
  | .targetGrant mb => Sys2Proof.Machine.execTargetGrant mb s
  | .targetWithdraw mb => Sys2Proof.Machine.execTargetWithdraw mb s
  | .setDaddr mb => Sys2Proof.Machine.execSetDaddr mb s
  | .setNotice mb => Sys2Proof.Machine.execSetNotice mb s
  | .vectorRangeGrant mb => Sys2Proof.Machine.execVectorRangeGrant mb s
  | .vectorRangeWithdraw mb => Sys2Proof.Machine.execVectorRangeWithdraw mb s
  | .clearSweepEnd base => Sys2Proof.Machine.execClearSweepEnd base s
  | .vectorSet mb => Sys2Proof.Machine.execVectorSet mb s
  | .vectorLoad mb => Sys2Proof.Machine.execVectorLoad mb s
  | .loaderReadCompletion mb ok data => Sys2Proof.Machine.execLoaderReadCompletion mb ok data s
  | .loaderReadTimeout mb => Sys2Proof.Machine.execLoaderReadTimeout mb s
  | .vectorRead mb => Sys2Proof.Machine.execVectorRead mb s
  | .forwardSet mb => Sys2Proof.Machine.execForwardSet mb s
  | .setInterval mb => Sys2Proof.Machine.execSetInterval mb s
  | .setAssign mb => Sys2Proof.Machine.execSetAssign mb s
  | .watchAdd mb => Sys2Proof.Machine.execWatchAdd mb s
  | .watchRemove mb => Sys2Proof.Machine.execWatchRemove mb s
  | .tenantReset mb => Sys2Proof.Machine.execTenantReset mb s
  | .tenantResetWork t => Sys2Proof.Machine.execTenantResetWork t s
  | .tenantResetEnd t => Sys2Proof.Machine.execTenantResetEnd t s
  | .resync mb => Sys2Proof.Machine.execResync mb s
  | .faultRead mb => Sys2Proof.Machine.execFaultRead mb s
  | .faultClear mb => Sys2Proof.Machine.execFaultClear mb s
  | .statsRead mb => Sys2Proof.Machine.execStatsRead mb s
  | .timeRead mb => Sys2Proof.Machine.execTimeRead mb s
  | .domainPower mb => Sys2Proof.Machine.execDomainPower mb s
  | .padRelease mb => Sys2Proof.Machine.execPadRelease mb s
  | .mpuConfigRead mb => Sys2Proof.Machine.execMpuConfigRead mb s
  | .mpuConfigWrite mb => Sys2Proof.Machine.execMpuConfigWrite mb s
  | .setLdt mb => Sys2Proof.Machine.execSetLdt mb s
  | .setCtle mb => Sys2Proof.Machine.execSetCtle mb s
  | .chainRetrain mb => Sys2Proof.Machine.execChainRetrain mb s
  | .chainDisable mb => Sys2Proof.Machine.execChainDisable mb s
  | .chainEnable mb => Sys2Proof.Machine.execChainEnable mb s
  | .setInputs mb => Sys2Proof.Machine.execSetInputs mb s
  | .setOutputs mb => Sys2Proof.Machine.execSetOutputs mb s
  | .repairStatus mb => Sys2Proof.Machine.execRepairStatus mb s
  | .hallmarkRead mb => Sys2Proof.Machine.execHallmarkRead mb s
  | .fwStage mb fate => Sys2Proof.Machine.execFwStage mb fate s
  | .fwActivate mb => Sys2Proof.Machine.execFwActivate mb s
  | .nextStartOnly mb => Sys2Proof.Machine.execNextStartOnly mb s
  | .fwFallback => Sys2Proof.Machine.execFwFallback s
  | .debugConsent mb => Sys2Proof.Machine.execDebugConsent mb s
  | .consentLapse t => Sys2Proof.Machine.execConsentLapse t s
  | .agentRestart t access => Sys2Proof.Machine.execAgentRestart t access s
  | .firmwareRestart access => Sys2Proof.Machine.execFirmwareRestart access s
  | .restartComplete t => Sys2Proof.Machine.execRestartComplete t s
  | .smbusBlockWrite offset data pecOk => Sys2Proof.Machine.execSmbusBlockWrite offset data pecOk s
  | .smbusProcessCall offset count pecOk => Sys2Proof.Machine.execSmbusProcessCall offset count pecOk s
  | .periodRequest p data => Sys2Proof.Machine.execPeriodRequest p data s
  | .intakeBaseWrite p high data => Sys2Proof.Machine.execIntakeBaseWrite p high data s
  | .weightWrite p t data => Sys2Proof.Machine.execWeightWrite p t data s
  | .tenantBind p t data => Sys2Proof.Machine.execTenantBind p t data s
  | .viewSelect p data => Sys2Proof.Machine.execViewSelect p data s
  | .frameCountLoRead p => Sys2Proof.Machine.execFrameCountLoRead p s
  | .fmRestart p data => Sys2Proof.Machine.execFmRestart p data s
  | .rasInject p data => Sys2Proof.Machine.execRasInject p data s
  | .histClear p data => Sys2Proof.Machine.execHistClear p data s
  | .mpuEnableWrite p unit data => Sys2Proof.Machine.execMpuEnableWrite p unit data s
  | .mpuSync p unit => Sys2Proof.Machine.execMpuSync p unit s
  | .mpuRegionWrite p unit region reg data => Sys2Proof.Machine.execMpuRegionWrite p unit region reg data s
  | .registerWrite p offset bytes fullBe data => Sys2Proof.Machine.execRegisterWrite p offset bytes fullBe data s
  | .debugAccess req => Sys2Proof.Machine.execDebugAccess req s
  | .tickMarkerReceive port flit arrival latency => Sys2Proof.Machine.execTickMarkerReceive port flit arrival latency s
  | .markerTimeout => Sys2Proof.Machine.execMarkerTimeout s
  | .mastershipHandover => Sys2Proof.Machine.execMastershipHandover s
  | .signalDetect port lanes => Sys2Proof.Machine.execSignalDetect port lanes s
  | .detectTimeout port => Sys2Proof.Machine.execDetectTimeout port s
  | .cdrLock port lanes => Sys2Proof.Machine.execCdrLock port lanes s
  | .cdrLockTimeout port => Sys2Proof.Machine.execCdrLockTimeout port s
  | .pam4Check port errors => Sys2Proof.Machine.execPam4Check port errors s
  | .trainingSetReceive port set => Sys2Proof.Machine.execTrainingSetReceive port set s
  | .markerBlock port lane block => Sys2Proof.Machine.execMarkerBlock port lane block s
  | .deskewTimeout port => Sys2Proof.Machine.execDeskewTimeout port s
  | .init port flit turn => Sys2Proof.Machine.execInit port flit turn s
  | .initEcho port flit arrival => Sys2Proof.Machine.execInitEcho port flit arrival s
  | .initTimeout port => Sys2Proof.Machine.execInitTimeout port s
  | .laneLockLoss port lane => Sys2Proof.Machine.execLaneLockLoss port lane s
  | .sparingTimeout port => Sys2Proof.Machine.execSparingTimeout port s
  | .linkDown port => Sys2Proof.Machine.execLinkDown port s
  | .downRetry port => Sys2Proof.Machine.execDownRetry port s
  | .flitTransmit port now => Sys2Proof.Machine.execFlitTransmit port now s
  | .dataFlitReceive port flit => Sys2Proof.Machine.execDataFlitReceive port flit s
  | .linkFlitReceive port flit => Sys2Proof.Machine.execLinkFlitReceive port flit s
  | .replayTimeout port => Sys2Proof.Machine.execReplayTimeout port s
  | .e2eResend c => Sys2Proof.Machine.execE2eResend c s
  | .creditOverdue port cls => Sys2Proof.Machine.execCreditOverdue port cls s
  | .allowOverdue c t => Sys2Proof.Machine.execAllowOverdue c t s
  | .beadWakeEdge j => Sys2Proof.Machine.execBeadWakeEdge j s
  | .entryComplete d => Sys2Proof.Machine.execEntryComplete d s
  | .regRdy d => Sys2Proof.Machine.execRegRdy d s
  | .clkRdy d => Sys2Proof.Machine.execClkRdy d s
  | .memRdy d ret => Sys2Proof.Machine.execMemRdy d ret s
  | .logicRdy d exitUs lkt => Sys2Proof.Machine.execLogicRdy d exitUs lkt s
  | .phaseDeadline d => Sys2Proof.Machine.execPhaseDeadline d s
  | .exitTimeout d => Sys2Proof.Machine.execExitTimeout d s
  | .regRdyFall d => Sys2Proof.Machine.execRegRdyFall d s
  | .lktCalibration count => Sys2Proof.Machine.execLktCalibration count s
  | .tempSample temp valid => Sys2Proof.Machine.execTempSample temp valid s
  | .agedHour => Sys2Proof.Machine.execAgedHour s
  | .fieldRepairCopy => Sys2Proof.Machine.execFieldRepairCopy s
  | .ctrlScrub upsets => Sys2Proof.Machine.execCtrlScrub upsets s
  | .rowRetire bank row => Sys2Proof.Machine.execRowRetire bank row s
  | .internalBusParityError path repeatFails => Sys2Proof.Machine.execInternalBusParityError path repeatFails s
  | .registerRead p offset bytes fullBe => Sys2Proof.Machine.execRegisterRead p offset bytes fullBe s
  | .firmwareTblRet q => Sys2Proof.Machine.execFirmwareTblRet q s
  | .containedFall port => Sys2Proof.Machine.execContainedFall port s
  | .wakeInputFall j => Sys2Proof.Machine.execWakeInputFall j s
  | .idleFlitReceive port flit => Sys2Proof.Machine.execIdleFlitReceive port flit s
  | .powerLost => Sys2Proof.Machine.execPowerLost s
  | .resetRelease env => Sys2Proof.Machine.execResetRelease env s

end Sys2Proof.Machine
end

