-- ==== Sys2Proof/Safety.lean ====
section
/-! DEFINITION. What holds of every state that a run meets, and what an outcome leaves alone, in the terms that statements use. -/
namespace Sys2Proof.Machine

/-! ## Coherence -/

/-- The tables of the system-source lane are canonical: keys strictly rising, no value equal to what an unlisted key reads as. -/
structure CanonicalSys (u : SysUnit) : Prop where
  latch : Sparse.wf {} u.latch = true
  levels : Sparse.wf false u.levels = true
  held : Sparse.wf false u.held = true
  linkFell : Sparse.wf false u.linkFell = true

/-- The tables of the vector tables and the system table are canonical: keys strictly rising, no value equal to what an unlisted key reads as. -/
structure CanonicalVec (u : VecUnit) : Prop where
  cfg : Sparse.wf 0 u.cfg = true
  st : Sparse.wf 0 u.st = true
  sysCfg : Sparse.wf 0 u.sysCfg = true
  sysSt : Sparse.wf 0 u.sysSt = true
  lost : Sparse.wf false u.lost = true
  reloaded : Sparse.wf false u.reloaded = true

/-- The tables of the target records and busy maps are canonical: keys strictly rising, no value equal to what an unlisted key reads as. -/
structure CanonicalTgt (u : TgtUnit) : Prop where
  recs : Sparse.wf {} u.recs = true
  busy : Sparse.wf false u.busy = true
  busyClear : Sparse.wf false u.busyClear = true
  heldOff : Sparse.wf false u.heldOff = true

/-- The tables of the tenant records, the block map and the Clasp words are canonical: keys strictly rising, no value equal to what an unlisted key reads as. -/
structure CanonicalTen (u : TenUnit) : Prop where
  recs : Sparse.wf {} u.recs = true
  blocks : Sparse.wf none u.blocks = true
  clasp : Sparse.wf {} u.clasp = true

/-- The tables of the mailboxes are canonical: keys strictly rising, no value equal to what an unlisted key reads as. -/
structure CanonicalMbx (u : MbxUnit) : Prop where
  boxes : Sparse.wf {} u.boxes = true

/-- The tables of CTRL RAM are canonical: keys strictly rising, no value equal to what an unlisted key reads as. -/
structure CanonicalAcu (u : AcuUnit) : Prop where
  ram : Sparse.wf none u.ram = true

/-- The tables of the pairs of the ring are canonical: keys strictly rising, no value equal to what an unlisted key reads as. -/
structure CanonicalChain (u : ChainUnit) : Prop where
  pairs : Sparse.wf {} u.pairs = true

/-- The tables of the power domains are canonical: keys strictly rising, no value equal to what an unlisted key reads as. -/
structure CanonicalPwr (u : PwrUnit) : Prop where
  domains : Sparse.wf {} u.domains = true

/-- The tables of the Polish cursors and retirement records are canonical: keys strictly rising, no value equal to what an unlisted key reads as. -/
structure CanonicalRas (u : RasUnit) : Prop where
  cursors : Sparse.wf 0 u.cursors = true
  records : Sparse.wf [] u.records = true

/-- The tables of the Loupe ring, sums and histogram are canonical: keys strictly rising, no value equal to what an unlisted key reads as. -/
structure CanonicalLoupe (u : LoupeUnit) : Prop where
  ring : Sparse.wf [] u.ring = true
  sums : Sparse.wf 0 u.sums = true
  now : Sparse.wf 0 u.now = true
  bins : Sparse.wf 0 u.bins = true

/-- A command that the firmware has taken keeps RING at 1 until its reply (R187, R192). -/
def TakenRings (b : Mailbox) : Prop := b.taken = true → b.ring = true

/-- Every addressed array is in canonical form, no mailbox is taken without its RING, and what has a bounded length keeps
its bound: the capture FIFO (R20), the watch list (R319), the divider of the Loupe ring (R348), the records (R368). -/
structure Coherent (s : State) : Prop where
  sysCanonical : CanonicalSys s.sys
  vecCanonical : CanonicalVec s.vec
  tgtCanonical : CanonicalTgt s.tgt
  tenCanonical : CanonicalTen s.ten
  mbxCanonical : CanonicalMbx s.mbx
  acuCanonical : CanonicalAcu s.acu
  chainCanonical : CanonicalChain s.chain
  pwrCanonical : CanonicalPwr s.pwr
  rasCanonical : CanonicalRas s.ras
  loupeCanonical : CanonicalLoupe s.loupe
  rung : ∀ p ∈ s.mbx.boxes, TakenRings p.2
  fifo : s.pwr.capture.length ≤ 1024
  watch : s.pwr.watch.length ≤ 256
  divider : s.loupe.divider.toNat ≤ 256
  dividerNext : s.loupe.dividerNext.toNat ≤ 256
  records : s.hm.records.length ≤ 8

/-! ## Conditions on the state alone -/

/-- The block runs: powered, out of reset, its frames started (R353 step 9). -/
structure State.Runs (s : State) : Prop where
  outOfReset : s.hm.inReset = none
  powered    : s.hm.powerOff = false
  framed     : s.frame.running = true

/-- Every stored line is a codeword, and no injection is armed: reads correct nothing and writes disturb nothing
(R333, R347). -/
structure State.Clean (s : State) : Prop where
  errs      : s.ras.errs = []
  uncounted : s.ras.uncounted = []
  arm       : s.ras.arm = false

/-! ## Accesses and commands that the block serves now -/

/-- A write of 4 bytes with every byte enabled, by a path at an offset of its window. -/
def wordWrite (p : Path) (off : Nat) (data : W32) : RegAccess :=
  ⟨p, BitVec.ofNat 22 off, 4, true, true, data.setWidth 64, 0⟩

/-- A read of 4 bytes with every byte enabled. -/
def wordRead (p : Path) (off : Nat) : RegAccess := ⟨p, BitVec.ofNat 22 off, 4, true, false, 0, 0⟩

/-- An access is made at once: its window is presented (R164, R369) and answers it (R175), the block is out of reset
(R355), the domains of what it reaches are ON (R16, R315), and none of the same page waits ahead of it (R372). -/
structure State.Serves (s : State) (a : RegAccess) : Prop where
  shown     : s.presented a.path = true
  outOfReset : s.hm.inReset = none
  opened    : s.closedTo a = false
  ready     : s.ready a = true

/-- Mailbox `m` holds command `c`, taken and past its common checks, with opcode `op`; its engine runs (R187, R196). -/
structure State.Holds (s : State) (m : BitVec 7) (op : Byte) (c : Snap) : Prop where
  snap    : (s.box m).snap = some c
  work    : (s.box m).work = .run
  opcode  : c.opcode = op
  engine  : s.engineReady = true

/-- Mailbox `m` has reply `r` to deposit; nothing else of any mailbox, and nothing of the firmware, has changed. -/
def Answered (m : BitVec 7) (r : Reply) (s t : State) : Prop :=
  t.box m = { s.box m with work := .done r } ∧ (∀ k, k ≠ m → t.box k = s.box k) ∧ t.mbx.fw = s.mbx.fw

/-- Mailbox `m` waits for the end of what its command has begun; nothing else of any mailbox, and nothing of the
firmware, has changed. -/
def Awaits (m : BitVec 7) (s t : State) : Prop :=
  t.box m = { s.box m with work := .waiting } ∧ (∀ k, k ≠ m → t.box k = s.box k) ∧ t.mbx.fw = s.mbx.fw

/-- Nothing waits for a condition that a command may bring about: no register access, no notice of CTRL, no VECTOR_LOAD,
no access of the debug port. -/
structure State.Settled (s : State) : Prop where
  waiting : s.pwr.waiting = []
  notices : s.tgt.heldNotices = []
  loads   : ∀ p ∈ s.mbx.boxes, p.2.load = none
  debug   : s.acu.tap.busy = false

/-- A slot of the intake lane serves `e`, at the head of the queue of the tenant whose turn it is: the frame has a slot and
accesses of the entry's banks left (R23), every quarter serves, and no access waits. -/
structure State.ServesHead (s : State) (e : QEntry) (rest : List QEntry) : Prop where
  on      : s.coreOn = true
  framed  : s.frame.running = true
  lane    : s.laneOpen .intake = true
  banks   : s.banksOpen (msgSrc e.vector.toNat) 2 = true
  awake   : ∀ q, q < 4 → s.quarterAway q = false
  head    : (s.tenant s.intake.turn).queue = e :: rest
  weight  : (s.tenant s.intake.turn).deficit ≠ 0
  pool    : e.pool = .crossbar
  waiting : s.pwr.waiting = []

/-- A slot of the completion queue serves `e`, at its head: the frame has a slot and accesses of the source's banks left
(R23), the quarter of its source serves, and no access waits. Its tenant holds the target and is not RESETTING (R138). -/
structure State.ServesCompletion (s : State) (e : CplEntry) (rest : List CplEntry) : Prop where
  on      : s.coreOn = true
  lane    : s.laneOpen .completion = true
  banks   : s.banksOpen e.src 1 = true
  waiting : s.pwr.waiting = []
  head    : s.tgt.cplQueue = e :: rest
  here    : s.cplMoves e = false
  running : s.resetting e.tenant = false
  held    : (s.slotOwner e.slot).map (·.1) = some e.tenant

/-- No lane of the capture FIFO is in the way: nothing is captured, and no access waits. -/
structure State.Drained (s : State) : Prop where
  capture : s.pwr.capture = []
  waiting : s.pwr.waiting = []

/-- The row of a source operation, and its address (R95). -/
def sourceCommand (op : SrcOp) (p : Path) (data : W32) (requester : BitVec 16) : Instr :=
  match op with
  | .setPending => .srcSetPending p data requester
  | .clrPending => .srcClrPending p data
  | .setEnable => .srcSetEnable p data
  | .clrEnable => .srcClrEnable p data
  | .clrSticky => .srcClrSticky p data

def sourceOffset (op : SrcOp) : Nat :=
  match op with
  | .setPending => 0x10000
  | .clrPending => 0x10004
  | .setEnable => 0x10008
  | .clrEnable => 0x1000C
  | .clrSticky => 0x10010

/-! ## Sources -/

/-- A message or system source. -/
def HasWords (x : Src) : Prop := (∃ v, srcClass x = .message v) ∨ ∃ n, srcClass x = .system n

/-! ## Deliveries -/

/-- The delivery write of a record with the next sequence (R127, R128): two doublewords with every byte enabled to its
address, its data word, its drop tag, and the requester ID of the egress port of its tenant. -/
def deliveryOf (s : State) (n : Tenant) (x : Slot) (r : TargetRec) (count : BitVec 16) (tag : BitVec 8) (src : Src) :
    Delivery :=
  { addr := r.daddr, data := dataWord (r.seq + 1) count tag src, dropTag := x ++ (r.seq + 1), tenant := n
    egress := (s.tenant n).port, lengthDw := 2, firstBe := 0xF, lastBe := 0xF, fourDw := decide (2 ^ 32 ≤ r.daddr.toNat)
    tclass := 0, attr := 0, poisoned := false, requester := Config.managementId (s.tenant n).port }

/-! ## Frames -/

/-- The parts of the state. -/
inductive Part where
  | frame | intake | sys | vec | tgt | ten | mbx | acu | chain | bead | pwr | ras | loupe | hm | bnd | pending
  deriving DecidableEq, Repr

/-- The frame counter and its periods are the same; what is counted of the frame's use may differ (R23, R24). -/
def SameButUse (s t : State) : Prop := t.frame = { s.frame with use := t.frame.use }

/-- Two states agree on a part. -/
def State.same (s t : State) : Part → Prop
  | .frame => t.frame = s.frame
  | .intake => t.intake = s.intake
  | .sys => t.sys = s.sys
  | .vec => t.vec = s.vec
  | .tgt => t.tgt = s.tgt
  | .ten => t.ten = s.ten
  | .mbx => t.mbx = s.mbx
  | .acu => t.acu = s.acu
  | .chain => t.chain = s.chain
  | .bead => t.bead = s.bead
  | .pwr => t.pwr = s.pwr
  | .ras => t.ras = s.ras
  | .loupe => t.loupe = s.loupe
  | .hm => t.hm = s.hm
  | .bnd => t.bnd = s.bnd
  | .pending => t.pending = s.pending

/-- Every part but those listed is unchanged from `s` to `t`. -/
def OnlyChanges (parts : List Part) (s t : State) : Prop := ∀ p : Part, p ∉ parts → s.same t p

end Sys2Proof.Machine
end

