-- ==== Sys2Proof/Certificates/Slice0/Obligations.lean ====
section
/-! DEFINITION. The statements about the block, family by family: what a command does and what it leaves alone. A statement over several claims is the conjunction of definitions `Claims.<Name>`. -/
open Sys2Proof Sys2Proof.Machine

/-! ## The machine -/

/-- A step runs the command at the front of the queue with the queue's rest. On an empty queue the block idles: the
model's choice, log entry 1. -/
def Obligations.StepRunsFrontCommand : Prop :=
  ∀ (c : Instr) (rest : List Instr) (s : State),
    (s.pending = c :: rest → step s = exec c { s with pending := rest }) ∧
    (s.pending = [] → step s = .next s)

/-- Every command of the table answers a next state, from every state. -/
def Obligations.ExecAnswersNext : Prop :=
  ∀ (c : Instr) (s : State), ∃ t, exec c s = .next t

/-- No command touches the queue of waiting commands. -/
def Obligations.ExecLeavesQueue : Prop :=
  ∀ (c : Instr) (s t : State), Coherent s → exec c s = .next t → t.pending = s.pending

/-- The state after reset is coherent. -/
def Obligations.ResetCoherent : Prop := Coherent State.reset

/-- Every step keeps coherence: canonical tables, RING on every taken mailbox, and the bounds of the capture FIFO, the
watch list, the Loupe divider and the firmware records. -/
def Obligations.StepKeepsCoherent : Prop :=
  ∀ s t : State, Coherent s → step s = .next t → Coherent t

/-! ## The message intake -/

/-- A tenant's posted write that passes steps 1 to 6 of R56 enters the queue of the vector's tenant and takes one of
its credits; the last credit also sets SATURATED and the level of S:0x440 + t (R64). -/
def Obligations.IntakeWriteQueuesEdge : Prop :=
  ∀ (w : IntakeReq) (v : BitVec 20) (n : Tenant) (s : State), Coherent s →
    s.hm.inReset = none → s.hm.powerOff = false → s.hm.safeMin = false →
    w.posted = true → w.lengthDw = 1 → w.firstBe = 0xF → w.lastBe = 0 → w.poisoned = false → w.parityErr = false →
    s.windowVector w.addr = some v → s.mapOwner v.toNat = some n → s.resetting n = false →
    s.captures (some (quarterOf v.toNat)) = false →
    (s.intake.ownerCheck = true → w.owner = n.setWidth 7 ∨ w.owner = 64) →
    s.hasCredit n = true →
    ∃ t, exec (.intakeWrite w) s = .next t ∧
      (t.tenant n).queue = (s.tenant n).queue ++ [⟨.edge w.owner, v, w.requester, .crossbar⟩] ∧
      (t.tenant n).credits = (s.tenant n).credits - 1 ∧
      (∀ m, m ≠ n → t.tenant m = s.tenant m) ∧
      ((s.tenant n).credits ≠ 1 →
        t.tenant n = { s.tenant n with
          queue := (s.tenant n).queue ++ [⟨.edge w.owner, v, w.requester, .crossbar⟩]
          credits := (s.tenant n).credits - 1 } ∧
        OnlyChanges [.ten] s t) ∧
      ((s.tenant n).credits = 1 →
        (t.tenant n).intakeStatus = (s.tenant n).intakeStatus ||| 1 ∧ (t.tenant n).zeroSeen = true ∧
        t.level (0x440 + n.toNat) = true)

/-- A drain slot of the tenant whose turn it is: the edge at the head of its queue is applied to its vector by R86 and
R87, the vector is presented to its target when it has become pending, and the credit returns. -/
def Obligations.IntakeDrainAppliesEdge : Prop :=
  ∀ (s : State) (e : QEntry) (rest : List QEntry) (owner : BitVec 7), Coherent s → s.Clean → s.ServesHead e rest →
    let n := s.intake.turn
    let x := msgSrc e.vector.toNat
    let c := s.cfgOf x
    let w := edgeWord (cMode c) (s.stOf x)
    e.kind = .edge owner → s.mapOwner e.vector.toNat = some n → cFwd c = false →
    (cReqCheck c = true → cReqId c = e.requester) →
    ∃ t, exec .intakeDrain s = .next t ∧
      (t.tenant n).queue = rest ∧ (t.tenant n).deficit = (s.tenant n).deficit - 1 ∧
      (t.tenant n).edges = (s.tenant n).edges + 1 ∧
      ((s.tenant n).credits.toNat < 440 → (t.tenant n).credits = (s.tenant n).credits + 1) ∧
      t.stOf x = w.1 ∧ (∀ y, y ≠ x → t.stOf y = s.stOf y) ∧ (∀ y, t.cfgOf y = s.cfgOf y) ∧
      (∀ m, m ≠ n → s.rangeOwner e.vector.toNat ≠ some m → t.tenant m = s.tenant m) ∧
      (w.2.1 = true → cEnable c = true → s.qualifies x (cTarget c) = true →
        t.target (cTarget c) = presentRec (s.target (cTarget c)) x (s.frame.count.setWidth 16)) ∧
      (w.2.1 = false ∨ cEnable c = false → t.tgt = s.tgt) ∧
      SameButUse s t ∧ OnlyChanges [.frame, .ten, .vec, .tgt, .loupe] s t

/-- A vector whose requester check fails at the drain takes no edge: the event is discarded as REQUESTER, charged to the
vector's tenant, and its credit returns. -/
def Claims.IntakeDrainRefusesRequester : Prop :=
  ∀ (s : State) (e : QEntry) (rest : List QEntry) (owner : BitVec 7), Coherent s → s.Clean → s.ServesHead e rest →
    let n := s.intake.turn
    let c := s.cfgOf (msgSrc e.vector.toNat)
    e.kind = .edge owner → s.mapOwner e.vector.toNat = some n → cFwd c = false →
    cReqCheck c = true → cReqId c ≠ e.requester →
    ∃ t, exec .intakeDrain s = .next t ∧ t.vec = s.vec ∧
      t.intake.discardCount = satInc s.intake.discardCount ∧
      t.intake.discard = (if s.intake.discard.valid then s.intake.discard else
        { valid := true, reason := 7, owner := owner, chain := false, requester := e.requester, vector := e.vector,
          frame := s.frameLo }) ∧
      (t.tenant n).queue = rest ∧
      (t.tenant n).discards = satInc (s.tenant n).discards ∧
      (t.tenant n).intakeStatus = (s.tenant n).intakeStatus ||| 0x04 ∧
      (t.tenant n).faultCount = satInc (s.tenant n).faultCount ∧
      (t.tenant n).faultSummary = (s.tenant n).faultSummary ||| 0x02

/-- A drained operation of a tenant on a vector of its own range: a clear takes PENDING and COUNT, an enable operation
writes ENABLE alone, a clear sticky clears SATURATED; nothing else of the words changes. -/
def Claims.IntakeDrainAppliesOperation : Prop :=
  ∀ (s : State) (e : QEntry) (rest : List QEntry) (op : SrcOp), Coherent s → s.Clean → s.ServesHead e rest →
    let n := s.intake.turn
    let x := msgSrc e.vector.toNat
    let c := s.cfgOf x
    e.kind = .op op false → op ≠ .setPending → s.rangeOwner e.vector.toNat = some n → cFwd c = false →
    (op = .setEnable ∨ op = .clrEnable → cLocked c = false) →
    (op = .setEnable → (s.slotOwner (cTarget c)).map (·.1) = some n) →
    ∃ t, exec .intakeDrain s = .next t ∧
      t.stOf x = (match op with
        | .clrPending => clearWord (s.stOf x)
        | .clrSticky => clearStickyWord (s.stOf x)
        | _ => s.stOf x) ∧
      cEnable (t.cfgOf x) = (match op with
        | .setEnable => true
        | .clrEnable => false
        | _ => cEnable c) ∧
      (∀ y, y ≠ x → t.stOf y = s.stOf y ∧ t.cfgOf y = s.cfgOf y) ∧
      (t.tenant n).queue = rest ∧ (∀ m, m ≠ n → t.tenant m = s.tenant m) ∧
      SameButUse s t ∧ OnlyChanges [.frame, .ten, .vec, .tgt, .loupe] s t

/-- A request that no granted range of the range map holds is discarded at the front end: NON_POSTED, which is answered as
an Unsupported Request, or MALFORMED by its form, else SAFE_MINIMUM in safe-minimum mode, else NOT_GRANTED. It is counted,
fills a free first-discard record and raises the source of its reason; no tenant and no queue changes. -/
def Claims.IntakeWriteDiscards : Prop :=
  ∀ (w : IntakeReq) (v : BitVec 20) (s : State), CanonicalSys s.sys →
    s.hm.inReset = none → s.hm.powerOff = false → w.parityErr = false →
    s.windowVector w.addr = some v → s.mapOwner v.toNat = none →
    s.captures (some (quarterOf v.toNat)) = false →
    let formed := w.lengthDw = 1 ∧ w.firstBe = 0xF ∧ w.lastBe = 0 ∧ w.poisoned = false
    let reason : BitVec 4 := if w.posted = false then 2 else if ¬ formed then 1 else if s.hm.safeMin then 3 else 4
    let source : Nat := if w.posted = false ∨ ¬ formed then 0x265 else 0x266
    ∃ t, exec (.intakeWrite w) s = .next t ∧
      t.intake = { s.intake with
        discardCount := satInc s.intake.discardCount
        discard := if s.intake.discard.valid then s.intake.discard else
          { valid := true, reason := reason, owner := w.owner, chain := false, requester := w.requester, vector := v,
            frame := s.frameLo } } ∧
      (t.latch source).arrival = true ∧ (∀ k, k ≠ source → t.latch k = s.latch k) ∧
      t.bnd = (if w.posted then s.bnd else { s.bnd with lastStatus := .unsupported }) ∧
      OnlyChanges [.intake, .loupe, .sys, .bnd] s t

/-- A write by a function of another tenant, or by an unassigned function, is discarded as OWNER and charged to the
vector's tenant; its credit returns (R57, R59). -/
def Claims.IntakeWriteOwnerMismatch : Prop :=
  ∀ (w : IntakeReq) (v : BitVec 20) (n : Tenant) (s : State), Coherent s →
    s.hm.inReset = none → s.hm.powerOff = false → s.hm.safeMin = false →
    w.posted = true → w.lengthDw = 1 → w.firstBe = 0xF → w.lastBe = 0 → w.poisoned = false → w.parityErr = false →
    s.windowVector w.addr = some v → s.mapOwner v.toNat = some n → s.resetting n = false →
    s.captures (some (quarterOf v.toNat)) = false →
    s.intake.ownerCheck = true → w.owner ≠ n.setWidth 7 → w.owner ≠ 64 →
    s.hasCredit n = true → (s.tenant n).credits.toNat ≤ 440 →
    ∃ t, exec (.intakeWrite w) s = .next t ∧
      (t.tenant n).queue = (s.tenant n).queue ∧ (t.tenant n).credits = (s.tenant n).credits ∧
      (t.tenant n).discards = satInc (s.tenant n).discards ∧
      (t.tenant n).intakeStatus.getLsbD 1 = true ∧
      (t.tenant n).faultCount = satInc (s.tenant n).faultCount ∧
      (t.tenant n).faultSummary = (s.tenant n).faultSummary ||| 0x01 ∧
      ((s.tenant n).faultValid = false →
        (t.tenant n).faultCode = 0x01 ∧ (t.tenant n).faultDetail = v.setWidth 32 ∧
        (t.tenant n).faultFrame = s.frameLo) ∧
      t.vec = s.vec

/-- A tenant's source operation on a message vector enters its own intake queue and takes a credit of its pool. -/
def Claims.SourceOperationQueued : Prop :=
  ∀ (op : SrcOp) (n : Tenant) (data : W32) (req : BitVec 16) (v : Nat) (s : State), Coherent s →
    s.Serves (wordWrite (.tenant n) (sourceOffset op) data) → srcClass (data.setWidth 24) = .message v →
    s.captures (some (quarterOf v)) = false → s.hasCredit n = true →
    ∃ t, exec (sourceCommand op (.tenant n) data req) s = .next t ∧
      (t.tenant n).queue = (s.tenant n).queue ++
        [⟨.op op false, BitVec.ofNat 20 v, if op = .setPending then req else 0, .crossbar⟩] ∧
      (t.tenant n).credits = (s.tenant n).credits - 1 ∧
      (∀ m, m ≠ n → t.tenant m = s.tenant m) ∧ OnlyChanges [.ten, .sys, .pwr] s t

/-- An operation of the FM on a system source sets the bits of the arrival latch that R97 gives it. -/
def Claims.SourceOperationLatched : Prop :=
  ∀ (op : SrcOp) (p : Path) (data : W32) (req : BitVec 16) (n : Nat) (s : State), CanonicalSys s.sys →
    pathFm p = true → s.Serves (wordWrite p (sourceOffset op) data) → srcClass (data.setWidth 24) = .system n →
    s.captures none = false →
    (op = .setEnable → s.slotOwner (cTarget (s.cfgOf (data.setWidth 24))) ≠ none) →
    ∃ t, exec (sourceCommand op p data req) s = .next t ∧
      t.latch n = (match op with
        | .setPending => { s.latch n with arrival := true }
        | .clrPending => { s.latch n with arrival := false, clrPend := true }
        | .setEnable => { s.latch n with setEn := true, clrEn := false }
        | .clrEnable => { s.latch n with clrEn := true, setEn := false }
        | .clrSticky => { s.latch n with clrSticky := true }) ∧
      (∀ k, k ≠ n → t.latch k = s.latch k) ∧ OnlyChanges [.sys] s t

/-- An operation on a private or reserved source is refused as CLASS in the registers of the window that wrote it, with
no effect on any source; the credit it takes of its tenant's pool returns at once. -/
def Claims.SourceOperationRefused : Prop :=
  ∀ (op : SrcOp) (n : Tenant) (data : W32) (req : BitVec 16) (s : State), Coherent s →
    s.Serves (wordWrite (.tenant n) (sourceOffset op) data) → s.captures none = false → s.hasCredit n = true →
    (srcClass (data.setWidth 24) = .reserved ∨ ∃ k, srcClass (data.setWidth 24) = .priv k) →
    ∃ t, exec (sourceCommand op (.tenant n) data req) s = .next t ∧
      (t.tenant n).src.refused = satInc (s.tenant n).src.refused ∧
      (t.tenant n).src.status = (s.tenant n).src.status ||| 1 ∧
      ((s.tenant n).src.valid = false →
        (t.tenant n).src.valid = true ∧ (t.tenant n).src.reason = 1 ∧ (t.tenant n).src.src = data.setWidth 24 ∧
        (t.tenant n).src.op = opCode op) ∧
      ((s.tenant n).credits.toNat ≤ 440 → (t.tenant n).credits = (s.tenant n).credits) ∧
      (t.tenant n).queue = (s.tenant n).queue ∧ (∀ m, m ≠ n → t.tenant m = s.tenant m) ∧
      OnlyChanges [.ten, .sys, .pwr] s t

/-- The system-source lane takes the next latched source and applies, in this order, its clear pending, its edge, its
enable operation and its clear sticky. -/
def Obligations.SystemLaneAppliesLatch : Prop :=
  ∀ (n : Nat) (s : State), Coherent s → s.Clean → s.coreOn = true → s.frame.running = true →
    s.laneOpen .system = true → s.nextLatched = some n → sysDefined n = true → n < 0x1000 →
    let x := sysSrc n
    let l := s.latch n
    let w := if l.clrPend then clearWord (s.stOf x) else s.stOf x
    let w := if l.arrival then (edgeWord (cMode (s.cfgOf x)) w).1 else w
    let w := if l.clrSticky then clearStickyWord w else w
    ∃ t, exec .systemLaneTake s = .next t ∧
      t.stOf x = w ∧
      cEnable (t.cfgOf x) = (if l.clrEn then false else if l.setEn then true else cEnable (s.cfgOf x)) ∧
      (∀ y, y ≠ x → t.stOf y = s.stOf y ∧ t.cfgOf y = s.cfgOf y) ∧
      t.latch n = {} ∧ (∀ k, k ≠ n → t.latch k = s.latch k) ∧ t.sys.cursor = BitVec.ofNat 12 n ∧
      SameButUse s t ∧ OnlyChanges [.frame, .sys, .vec, .tgt, .loupe] s t

/-- The data-link level of a port is followed: S:0x000 + p takes it and a change raises one edge. When the link falls,
every outstanding delivery of the tenant bound at the port is parked. -/
def Claims.PortLinkLevel : Prop :=
  ∀ (port : BitVec 7) (level : Bool) (s : State), Coherent s → port.toNat < 80 → s.detecting = true →
    s.coreUp = true →
    ∃ t, exec (.portLinkChange port level) s = .next t ∧
      t.bnd.linkUp.getLsbD port.toNat = level ∧ t.level port.toNat = level ∧
      (s.level port.toNat ≠ level → (t.latch port.toNat).arrival = true) ∧
      (∀ k, k ≠ port.toNat → t.latch k = s.latch k) ∧
      (∀ n, s.bnd.linkUp.getLsbD port.toNat = true → level = false → s.portTenant port.toNat = some n →
        ∀ x, x ∈ s.slotsOf n → (s.target x).active ≠ none → (t.target x).parked = true) ∧
      (level = true → OnlyChanges [.bnd, .sys] s t) ∧ OnlyChanges [.bnd, .sys, .tgt, .ten] s t

/-- The presence level of a port, its containment and the pulses of its two error sources: the level follows, a change
of presence or a rise of containment raises one edge, a fall of containment none, and a pulse raises its event source. -/
def Claims.PortEventSources : Prop :=
  ∀ (port : BitVec 7) (s : State), CanonicalSys s.sys → port.toNat < 80 → s.detecting = true → s.isOn dCORE = true →
    let p := port.toNat
    (∀ level, ∃ t, exec (.portPresenceChange port level) s = .next t ∧ t.bnd.present.getLsbD p = level ∧
      t.level (0x180 + p) = level ∧ (s.level (0x180 + p) ≠ level → (t.latch (0x180 + p)).arrival = true) ∧
      OnlyChanges [.bnd, .sys] s t) ∧
    (∃ t, exec (.portContained port) s = .next t ∧ t.bnd.contained.getLsbD p = true ∧ t.level (0x200 + p) = true ∧
      (s.level (0x200 + p) = false → (t.latch (0x200 + p)).arrival = true) ∧ OnlyChanges [.bnd, .sys] s t) ∧
    (∃ t, exec (.containedFall port) s = .next t ∧ t.bnd.contained.getLsbD p = false ∧ t.level (0x200 + p) = false ∧
      (∀ k, t.latch k = s.latch k) ∧ OnlyChanges [.bnd, .sys] s t) ∧
    (∃ t, exec (.corValid port) s = .next t ∧ (t.latch (0x080 + p)).arrival = true ∧ OnlyChanges [.sys] s t) ∧
    (∃ t, exec (.uncValid port) s = .next t ∧ (t.latch (0x100 + p)).arrival = true ∧ OnlyChanges [.sys] s t)

/-- A line raised toward another live chip originates one LINE record: it takes the next end-to-end sequence of the pair,
enters the store and the queue of the port on its route. -/
def Claims.ChainEventSendsLine : Prop :=
  ∀ (p : Path) (data : W32) (q : PortId) (s : State), CanonicalChain s.chain → pathFm p = true →
    s.Serves (wordWrite p 0x3028 data) →
    let d : Chip := field data 8 4
    let l : BitVec 4 := field data 0 4
    d ≠ s.chipId → s.isLive d = true → s.chainMode ≠ 0 → s.lineOut d l = false → s.windowOpen d = true →
    s.route d = some q →
    ∃ t, exec (.chainEvent p data) s = .next t ∧
      t.pair d = { s.pair d with
        next := (s.pair d).next + 1, store := (s.pair d).store ++ [((s.pair d).next, lineRecord l)] } ∧
      (∀ c, c ≠ d → t.pair c = s.pair c) ∧
      t.linkPort q = { s.linkPort q with
        own := (s.linkPort q).own ++ [⟨0, s.chipId, d, (s.pair d).next, false, [lineRecord l]⟩] } ∧
      t.linkPort (opposite q) = s.linkPort (opposite q) ∧
      OnlyChanges [.chain, .loupe] s t

/-- A write of CHAIN_EVENT toward the chip itself, a chip that is not live, or with the Chain off is refused. -/
def Claims.ChainEventRefused : Prop :=
  ∀ (p : Path) (data : W32) (s : State), pathFm p = true → s.Serves (wordWrite p 0x3028 data) →
    (field data 8 4 : BitVec 4) = s.chipId ∨ s.isLive (field data 8 4) = false ∨ s.chainMode = 0 →
    exec (.chainEvent p data) s = .next (s.setIntake { s.intake with chainEventRefused := true })

/-- A request for a vector whose arrivals are captured (CORE, TGT or its quarter is not ON, or earlier entries wait) is
held in the capture FIFO, as an entry of KIND 0 with its form (R317). A posted one takes a credit of its vector's tenant
and gives it back; any other is answered as an Unsupported Request at once. -/
def Claims.IntakeWriteCaptured : Prop :=
  ∀ (w : IntakeReq) (v : BitVec 20) (s : State), Coherent s →
    s.hm.inReset = none → s.hm.powerOff = false → w.parityErr = false →
    s.windowVector w.addr = some v → s.captures (some (quarterOf v.toNat)) = true →
    s.pwr.capture.length < 1024 → (∀ n, s.mapOwner v.toNat = some n → w.posted = true → s.hasCredit n = true) →
    ∃ t, exec (.intakeWrite w) s = .next t ∧
      t.pwr.capture = s.pwr.capture ++ [⟨s.pwr.capturePos.toNat / 4,
        capWrite w.owner w.requester v (BitVec.ofNat 4 (intakeForm w))⟩] ∧
      t.pwr.capturePos = s.pwr.capturePos + 1 ∧ t.pwr.captureAll = (s.pwr.captureAll || !s.coreUp) ∧
      (∀ n, (t.tenant n).queue = (s.tenant n).queue ∧
        ((s.tenant n).credits.toNat ≤ 440 → (t.tenant n).credits = (s.tenant n).credits)) ∧
      t.bnd = (if w.posted then s.bnd else { s.bnd with lastStatus := .unsupported }) ∧
      OnlyChanges [.pwr, .ras, .sys, .ten, .bnd] s t

/-- A captured intake write drains like an arrival: it leaves the FIFO, takes a credit and enters the queue of its
vector's tenant. -/
def Claims.CaptureDrainEnqueues : Prop :=
  ∀ (e : CaptureEntry) (rest : List CaptureEntry) (n : Tenant) (s : State), Coherent s → s.Clean → s.Settled →
    s.coreUp = true → s.frame.running = true → s.hm.safeMin = false →
    (∀ q, q < 4 → s.quarterAway q = false) → s.pwr.capture = e :: rest → capKind e.word = 0 →
    let v : BitVec 20 := field e.word 18 20
    let owner : BitVec 7 := field e.word 54 7
    let entry : QEntry := ⟨.edge owner, v, field e.word 38 16, .crossbar⟩
    (field e.word 14 4 : BitVec 4) = 0 → s.mapOwner v.toNat = some n → s.resetting n = false →
    (s.intake.ownerCheck = true → owner = n.setWidth 7 ∨ owner = 64) → (s.tenant n).credits ≠ 0 →
    ∃ t, exec .captureDrain s = .next t ∧ t.pwr.capture = rest ∧
      (t.tenant n).queue = (s.tenant n).queue ++ [entry] ∧ (t.tenant n).credits = (s.tenant n).credits - 1 ∧
      (∀ m, m ≠ n → t.tenant m = s.tenant m) ∧
      ((s.tenant n).credits ≠ 1 → t.tenant n = { s.tenant n with
          queue := (s.tenant n).queue ++ [entry], credits := (s.tenant n).credits - 1 } ∧ OnlyChanges [.ten, .pwr] s t) ∧
      ((s.tenant n).credits = 1 → (t.tenant n).intakeStatus = (s.tenant n).intakeStatus ||| 1 ∧
        t.level (0x440 + n.toNat) = true) ∧ OnlyChanges [.ten, .sys, .pwr] s t

/-! ## Completions, private sources and timers -/

/-- A completion write by the holder of a page enters the completion queue with its source and, in the sequenced form,
its sequence; a write of another form enters it as one that completes nothing, and is recorded where its byte enables
are not a register's (R136, R139, R7; that a wrong form takes an entry of the queue is log entry 56). -/
def Obligations.CompletionQueued : Prop :=
  ∀ (p : Path) (page : BitVec 10) (form : WriteForm) (data : W64) (n : Tenant) (x : Slot) (s : State),
    s.captures none = false → s.pageSlot p page = some (n, x) →
    (s.tgt.cplQueue.filter fun c => c.tenant == n).length < 32 → s.tgt.cplQueue.length < 2048 →
    (s.Serves ⟨p, BitVec.ofNat 22 (pageOffset page 0), 4, true, true, data, 0⟩ → form = .dw →
      ∃ t, exec (.tgtComplete p page form data) s = .next t ∧
        t.tgt = { s.tgt with cplQueue := s.tgt.cplQueue ++ [⟨n, x, field data 0 24, none, false⟩] } ∧
        OnlyChanges [.tgt] s t) ∧
    (s.Serves ⟨p, BitVec.ofNat 22 (pageOffset page 0x80), 8, true, true, data, 0⟩ → form = .qw → p ≠ .smbus →
      ∃ t, exec (.tgtCompleteSeq p page form data) s = .next t ∧
        t.tgt = { s.tgt with cplQueue := s.tgt.cplQueue ++ [⟨n, x, field data 0 24, some (field data 48 16), false⟩] } ∧
        OnlyChanges [.tgt] s t) ∧
    (s.Serves ⟨p, BitVec.ofNat 22 (pageOffset page 0x80), 4, true, true, data, 0⟩ → form = .dw →
      ∃ t, exec (.tgtCompleteSeq p page form data) s = .next t ∧
        t.tgt = { s.tgt with cplQueue := s.tgt.cplQueue ++ [⟨n, x, field data 0 24, some (field data 48 16), true⟩] } ∧
        OnlyChanges [.tgt] s t) ∧
    (let a : RegAccess := ⟨p, BitVec.ofNat 22 (pageOffset page 0), 4, false, true, data, 0⟩
    s.Serves a → (recordAccess s a).Serves a → form = .other →
      ∃ t, exec (.tgtComplete p page form data) s = .next t ∧
        t.tgt = { s.tgt with cplQueue := s.tgt.cplQueue ++ [⟨n, x, field data 0 24, none, true⟩] } ∧
        OnlyChanges [.tgt] (recordAccess s a) t)

/-- A completion that names the active source of its target, and its sequence in the sequenced form, frees the target:
ACTIVE, REDELIVER and PARKED clear, the source completes by R86 and R87, and the busy bit clears at the next tick. -/
def Obligations.CompletionFreesTarget : Prop :=
  ∀ (e : CplEntry) (rest : List CplEntry) (s : State), Coherent s → s.Clean → s.ServesCompletion e rest → e.badForm = false →
    (s.target e.slot).active = some e.src → (∀ q, e.seq = some q → q = (s.target e.slot).seq) →
    ∃ t, exec .completionDrain s = .next t ∧
      (t.target e.slot).active = none ∧ (t.target e.slot).parked = false ∧ (t.target e.slot).redeliver = false ∧
      (t.target e.slot).lastCpl = some (e.seq.isSome, e.src) ∧ (t.target e.slot).seq = (s.target e.slot).seq ∧
      Sparse.get false t.tgt.busyClear e.slot.toNat = true ∧ t.tgt.busy = s.tgt.busy ∧
      (HasWords e.src → t.stOf e.src = completeWord (cMode (s.cfgOf e.src)) (s.stOf e.src)) ∧
      (∀ y, y ≠ e.src → t.stOf y = s.stOf y) ∧ (∀ y, t.cfgOf y = s.cfgOf y) ∧
      (t.tenant e.tenant).completions = (s.tenant e.tenant).completions + 1 ∧ t.tgt.cplQueue = rest ∧
      SameButUse s t ∧ OnlyChanges [.tgt, .vec, .ten, .loupe, .frame] s t

/-- A completion that names another source than the active one is stray, one that names it with another sequence is
stale: each is counted and recorded, and no source and no delivery changes. -/
def Obligations.CompletionStrayOrStale : Prop :=
  ∀ (e : CplEntry) (rest : List CplEntry) (s : State), Coherent s → s.Clean → s.isOn dCORE = true → s.ServesCompletion e rest →
    let named := e.badForm = false ∧ (s.target e.slot).active = some e.src
    (named → ∃ q, e.seq = some q ∧ q ≠ (s.target e.slot).seq) →
    ∃ t, exec .completionDrain s = .next t ∧ t.vec = s.vec ∧
      (t.target e.slot).active = (s.target e.slot).active ∧
      (t.tenant e.tenant).strayCount = satInc (s.tenant e.tenant).strayCount ∧
      (named → (t.target e.slot).stale = true ∧ (t.target e.slot).staleCount = satInc (s.target e.slot).staleCount ∧
        (t.tenant e.tenant).staleSeen = true) ∧
      (¬ named → (t.target e.slot).stray = true ∧ (t.target e.slot).strayCount = satInc (s.target e.slot).strayCount ∧
        (t.tenant e.tenant).straySeen = true ∧ (t.latch 0x26F).arrival = true) ∧
      t.tgt.strayTotal = satInc s.tgt.strayTotal ∧ t.tgt.cplQueue = rest ∧
      SameButUse s t ∧ OnlyChanges [.tgt, .ten, .loupe, .sys, .frame] s t

/-- A drop notice that matches the outstanding delivery of its slot parks every outstanding delivery of the slot's
tenant; any notice is counted, fills a free first-drop record and raises S:0x27F. -/
def Obligations.DropNoticeParks : Prop :=
  ∀ (slot : Slot) (seq : BitVec 16) (s : State), Coherent s → s.hm.inReset = none → s.hm.powerOff = false →
    s.coreUp = true →
    let matching := (s.target slot).active ≠ none ∧ (s.target slot).seq = seq ∧ s.slotOwner slot ≠ none
    ∃ t, exec (.dropNotice slot seq false) s = .next t ∧
      t.tgt.dropCount = satInc s.tgt.dropCount ∧ (t.latch 0x27F).arrival = true ∧
      (s.tgt.dropValid = false → t.tgt.dropValid = true ∧ t.tgt.dropFirstSlot = slot ∧ t.tgt.dropFirstSeq = seq ∧
        (t.tgt.dropFirstStale = false ↔ matching)) ∧
      (¬ matching → t.tgt.dropStale = true ∧ ∀ x, t.target x = s.target x) ∧
      (matching → ∀ n i, s.slotOwner slot = some (n, i) →
        ∀ x, x ∈ s.slotsOf n → (s.target x).active ≠ none → (t.target x).parked = true) ∧
      OnlyChanges [.tgt, .sys, .ten] s t

/-! ## Private sources, masks, timers -/

/-- A write of the set, clear or enable register of private sources waits in the private lane with its slot and its
bits; the set register has bits for P:0 to P:7 alone (R113, R115, R133). -/
def Claims.PrivateWriteQueued : Prop :=
  ∀ (p : Path) (page : BitVec 10) (data : W32) (n : Tenant) (x : Slot) (s : State),
    s.captures none = false → s.pageSlot p page = some (n, x) → s.resetting n = false → s.tgt.privLane.length < 256 →
    let queued (c : Instr) (w : PrivWrite) : Prop :=
      ∃ t, exec c s = .next t ∧ t.tgt = { s.tgt with privLane := s.tgt.privLane ++ [w] } ∧ OnlyChanges [.tgt] s t
    (s.Serves (wordWrite p (pageOffset page 0x008) data) →
      queued (.tgtPrivSet p page data) ⟨.set, x, data.setWidth 13 &&& 0xFF⟩) ∧
    (s.Serves (wordWrite p (pageOffset page 0x00C) data) →
      queued (.tgtPrivClr p page data) ⟨.clr, x, data.setWidth 13⟩) ∧
    (s.Serves (wordWrite p (pageOffset page 0x010) data) →
      queued (.tgtPrivEnable p page data) ⟨.enable, x, data.setWidth 13⟩)

/-- The lane's first write sets, clears or replaces private bits of its slot's record, and nothing else of it; no other
record changes (R113, R114). -/
def Claims.PrivateLaneApplies : Prop :=
  ∀ (w : PrivWrite) (rest : List PrivWrite) (s : State), CanonicalTgt s.tgt → s.Clean → s.coreOn = true →
    s.laneOpen .priv = true → s.pwr.waiting = [] → s.tgt.privLane = w :: rest →
    ∃ t, exec .privateLaneApply s = .next t ∧
      t.target w.slot = (match w.op with
        | .set => { s.target w.slot with privPend := (s.target w.slot).privPend ||| w.bits }
        | .clr => { s.target w.slot with privPend := (s.target w.slot).privPend &&& ~~~ w.bits }
        | .enable => { s.target w.slot with privEn := w.bits }) ∧
      (∀ y, y ≠ w.slot → t.target y = s.target y) ∧ t.tgt.privLane = rest ∧ SameButUse s t ∧
      OnlyChanges [.tgt, .loupe, .frame] s t

/-- A write of `TGT_CTRL` writes the target's mask; a write of `TGT_TIMER_CTRL` loads its timer; neither changes
anything else (R131, R155). -/
def Claims.TargetControlWritten : Prop :=
  ∀ (p : Path) (page : BitVec 10) (data : W32) (n : Tenant) (x : Slot) (s : State), CanonicalTgt s.tgt → s.Clean →
    s.captures none = false → s.pageSlot p page = some (n, x) → s.resetting n = false →
    let writes (c : Instr) (r : TargetRec) : Prop :=
      ∃ t, exec c s = .next t ∧ t.target x = r ∧ (∀ y, y ≠ x → t.target y = s.target y) ∧
        t.tgt = { s.tgt with recs := t.tgt.recs } ∧ OnlyChanges [.tgt] s t
    (s.Serves (wordWrite p (pageOffset page 0x018) data) →
      writes (.tgtCtrl p page data) { s.target x with mask := data.getLsbD 0 }) ∧
    (s.Serves (wordWrite p (pageOffset page 0x0A0) data) →
      writes (.tgtTimerCtrl p page data) { s.target x with
        periodic := data.getLsbD 24, reload := field data 0 24, timer := field data 0 24, timerDone := false })

/-- At the tick at which a target's timer counts from 1, its private source P:8 becomes pending, or, when P:8 is
pending or active already, the overrun counts; a periodic timer reloads, another stops at 0 (R155). -/
def Claims.TimerFires : Prop :=
  ∀ (x : Slot) (s : State), CanonicalTgt s.tgt → s.coreOn = true → s.frame.running = true →
    (s.target x).timer = 1 → (s.target x).timerDone = false →
    ∃ t, exec (.timerFire x) s = .next t ∧
      ((s.target x).privPend.getLsbD 8 = false ∧ (s.target x).active ≠ some (privSrc 8) →
        (t.target x).privPend = (s.target x).privPend ||| 0x100 ∧ (t.target x).overrun = (s.target x).overrun) ∧
      ((s.target x).privPend.getLsbD 8 = true ∨ (s.target x).active = some (privSrc 8) →
        (t.target x).privPend = (s.target x).privPend ∧ (t.target x).overrun = satInc (s.target x).overrun) ∧
      (t.target x).timer = (if (s.target x).periodic then (s.target x).reload else 0) ∧
      (t.target x).reload = (s.target x).reload ∧ (t.target x).active = (s.target x).active ∧
      (∀ y, y ≠ x → t.target y = s.target y) ∧ t.tgt = { s.tgt with recs := t.tgt.recs } ∧ OnlyChanges [.tgt] s t

/-! ## Delivery engines -/

/-- A committed decision, with an access of its source's bank left in the frame (R23), is delivered: the fabric port takes
the write of R127 and R128 with the address of the target, the data word and the drop tag of the next sequence, the record
takes the delivery, and the source becomes active. A member of a Clasp group starts the group's hold-off. Private sources
carry tag and count 0. -/
def Obligations.DecisionCommitDelivers : Prop :=
  ∀ (engine : BitVec 2) (d : Emitted) (n : Tenant) (i : BitVec 10) (s : State), Coherent s → s.Clean → s.coreOn = true →
    s.engineHead engine = some d → d.reissue = none → s.banksOpen d.src 1 = true → s.slotOwner d.slot = some (n, i) → s.resetting n = false →
    (s.target d.slot).daddr ≠ 0 →
    let r := s.target d.slot
    let delivers (tag : BitVec 8) (count : BitVec 16) (t : State) : Prop :=
      t.tgt.fabOut = s.tgt.fabOut ++ [deliveryOf s n d.slot r count tag d.src] ∧ SameButUse s t ∧
      (t.target d.slot).seq = r.seq + 1 ∧ (t.target d.slot).active = some d.src ∧ (t.target d.slot).tag = tag ∧
      (t.target d.slot).count = count ∧ (t.target d.slot).redeliver = false ∧ (t.target d.slot).daddr = r.daddr ∧
      (t.target d.slot).parked = r.parked ∧ (∀ y, y ≠ d.slot → t.target y = s.target y) ∧
      t.tgt.emitted = s.tgt.emitted.erase d ∧ t.tgt.busy = s.tgt.busy ∧
      (t.tenant n).deliveries = (s.tenant n).deliveries + 1 ∧ (∀ m, m ≠ n → t.tenant m = s.tenant m)
    let c := s.cfgOf d.src
    let w := s.stOf d.src
    (HasWords d.src → sPending w = true → cEnable c = true → cFwd c = false → cTarget c = d.slot →
      ∃ t, exec (.decisionCommit engine false) s = .next t ∧
        delivers (cTag c) (if cMode c then sCount w else 0) t ∧
        t.stOf d.src = commitWord w ∧ (∀ y, y ≠ d.src → t.stOf y = s.stOf y) ∧ (∀ y, t.cfgOf y = s.cfgOf y) ∧
        (t.target d.slot).privPend = r.privPend ∧
        (∀ g, s.groupOf d.src c = some g → (t.clasp g).remaining = (s.clasp g).interval) ∧
        (∀ g, s.groupOf d.src c ≠ some g → t.clasp g = s.clasp g) ∧
        OnlyChanges [.tgt, .vec, .ten, .loupe, .frame] s t) ∧
    (∀ k, srcClass d.src = .priv k → r.privPend.getLsbD k = true → r.privEn.getLsbD k = true →
      ∃ t, exec (.decisionCommit engine false) s = .next t ∧ delivers 0 0 t ∧
        (t.target d.slot).privPend = r.privPend &&& ~~~ BitVec.twoPow 13 k ∧
        (∀ g, t.clasp g = s.clasp g) ∧ OnlyChanges [.tgt, .ten, .loupe, .frame] s t)

/-- A decision whose source is no longer pending, enabled and directed at the target lapses: nothing is delivered, the
lapse is counted, and the target's busy bit clears at the next tick. -/
def Claims.DecisionCommitLapses : Prop :=
  ∀ (engine : BitVec 2) (d : Emitted) (s : State), Coherent s → s.Clean → s.coreOn = true →
    s.engineHead engine = some d → d.reissue = none → s.banksOpen d.src 1 = true → HasWords d.src →
    ¬ (sPending (s.stOf d.src) = true ∧ cEnable (s.cfgOf d.src) = true ∧ cFwd (s.cfgOf d.src) = false ∧
      cTarget (s.cfgOf d.src) = d.slot ∧ (s.target d.slot).daddr ≠ 0) →
    ∃ t, exec (.decisionCommit engine false) s = .next t ∧
      t.tgt.fabOut = s.tgt.fabOut ∧ t.vec = { s.vec with lapsed := true, lapsedCount := satInc s.vec.lapsedCount } ∧
      Sparse.get false t.tgt.busyClear d.slot.toNat = true ∧ t.tgt.emitted = s.tgt.emitted.erase d ∧
      (t.target d.slot).seq = (s.target d.slot).seq ∧ (t.target d.slot).active = (s.target d.slot).active ∧
      (∀ y, y ≠ d.slot → t.target y = s.target y) ∧ SameButUse s t ∧
      OnlyChanges [.tgt, .vec, .loupe, .frame] s t

/-- A decision that is withdrawn, which the budget exceeded in this frame did, is counted, raises S:0x279 and clears its
target's busy bit at the next tick. -/
def Claims.DecisionWithdrawn : Prop :=
  ∀ (engine : BitVec 2) (d : Emitted) (s : State), Coherent s → s.isOn dCORE = true →
    s.engineHead engine = some d → d.reissue = none →
    ∃ t, exec (.decisionWithdraw engine) s = .next t ∧
      t.frame = { s.frame with
        use := { s.frame.use with excess := true }
        withdrawn := true
        withdrawnCount := satInc s.frame.withdrawnCount } ∧
      (t.latch 0x279).arrival = true ∧ Sparse.get false t.tgt.busyClear d.slot.toNat = true ∧
      t.tgt.emitted = s.tgt.emitted.erase d ∧ t.tgt.fabOut = s.tgt.fabOut ∧ (∀ y, t.target y = s.target y) ∧
      OnlyChanges [.frame, .sys, .tgt, .loupe] s t

/-- A committed re-issue of a parked target delivers its active source again with the next sequence and the tag and
count of the record; REDELIVER is set and the target is no longer parked. A target that is no longer parked, or whose
source has completed, counts as completed and nothing is delivered. -/
def Claims.ReissueCommitDelivers : Prop :=
  ∀ (engine : BitVec 2) (d : Emitted) (n : Tenant) (q : ResyncRun) (s : State), Coherent s → s.Clean → s.coreOn = true →
    s.engineHead engine = some d → d.reissue = some n → (s.tenant n).resync = some q →
    let r := s.target d.slot
    let left := q.emitted.filter (· != d.slot)
    ¬ (q.todo = some [] ∧ left = []) →
    (r.parked = true → r.active = some d.src → r.daddr ≠ 0 →
      ∃ t, exec (.reissueCommit engine false) s = .next t ∧
        t.tgt.fabOut = s.tgt.fabOut ++ [deliveryOf s n d.slot r r.count r.tag d.src] ∧
        t.target d.slot = { r with seq := r.seq + 1, redeliver := true, parked := false, reissued := true } ∧
        (∀ y, y ≠ d.slot → t.target y = s.target y) ∧
        (HasWords d.src → t.stOf d.src = redeliverWord (s.stOf d.src)) ∧ (∀ y, y ≠ d.src → t.stOf y = s.stOf y) ∧
        (t.tenant n).resync = some { q with emitted := left, reissued := q.reissued + 1 } ∧
        t.tgt.reissues = satInc s.tgt.reissues ∧ OnlyChanges [.tgt, .vec, .ten, .loupe] s t) ∧
    (r.parked = false ∨ r.active ≠ some d.src →
      ∃ t, exec (.reissueCommit engine false) s = .next t ∧
        t.tgt.fabOut = s.tgt.fabOut ∧ (∀ y, t.target y = s.target y) ∧
        (t.tenant n).resync = some { q with emitted := left, completed := q.completed + 1 } ∧
        OnlyChanges [.tgt, .ten] s t)

/-! ## The period, hold-offs, refill passes -/

/-- An accepted period request is pending for 32 ticks and shows the frame at which it applies; accepted while CORE makes
no frames, it counts from the first tick after (R323). The period in force is accepted and changes nothing. One that names no
legal period, comes to a chip that follows another, or finds a change pending is refused with its reason and changes no
period (R30, R31). -/
def Obligations.PeriodRequestAccepted : Prop :=
  ∀ (p : Path) (data : W32) (s : State), pathFm p = true → s.Serves (wordWrite p 0x2000 data) →
    let f : BitVec 13 := field data 0 13
    let legal := 256 ≤ f.toNat ∧ f.toNat ≤ 6400 ∧ f.toNat % 32 = 0
    let refused (reason : BitVec 2) : Prop :=
      ∃ t, exec (.periodRequest p data) s = .next t ∧
        t.frame = { s.frame with periodRefused := true, refuseReason := reason } ∧ OnlyChanges [.frame] s t
    (legal → s.alone = true ∨ s.frame.isMaster = true → s.frame.changePending = false → f ≠ s.frame.current →
      ∃ t, exec (.periodRequest p data) s = .next t ∧
        (s.works dCORE = true → t.frame = { s.frame with
          request := f, changePending := true, ticksLeft := 32, applyFrame := s.frame.count.setWidth 32 + 32 }) ∧
        (s.works dCORE = false → t.frame = { s.frame with
          request := f, changePending := true, ticksLeft := 33, applyFrame := 0, acceptedAsleep := true }) ∧
        OnlyChanges [.frame] s t) ∧
    (legal → s.alone = true ∨ s.frame.isMaster = true → s.frame.changePending = false → f = s.frame.current →
      ∃ t, exec (.periodRequest p data) s = .next t ∧ t.frame = { s.frame with request := f } ∧
        OnlyChanges [.frame] s t) ∧
    (¬ legal → refused 1) ∧
    (legal → s.alone = false → s.frame.isMaster = false → refused 2) ∧
    (legal → s.alone = true ∨ s.frame.isMaster = true → s.frame.changePending = true → refused 3)

/-- The pending period takes effect at the tick that ends its count; a hold-off whose count has run out ends, and
no other group's. -/
def Claims.DueTickChangesApply : Prop :=
  ∀ s : State, CanonicalTgt s.tgt → s.coreOn = true → s.frame.running = true →
    (s.frame.changePending = true → s.frame.ticksLeft = 1 → s.stopping = false → s.pwr.firstTick = none →
      ∃ t, exec .periodChangeApply s = .next t ∧
        t.frame.current = s.frame.request ∧ t.frame.oldPeriod = some s.frame.current ∧
        t.frame.request = s.frame.request ∧ t.frame.changePending = false ∧
        t.frame.count = s.frame.count ∧ t.frame.timeCycles = s.frame.timeCycles ∧ OnlyChanges [.frame] s t) ∧
    (∀ g, (s.clasp g).remaining = 0 →
      ∃ t, exec (.claspHoldoffEnd g) s = .next t ∧
        Sparse.get false t.tgt.heldOff g.toNat = false ∧
        (∀ k, k ≠ g.toNat → Sparse.get false t.tgt.heldOff k = Sparse.get false s.tgt.heldOff k) ∧
        t.tgt = { s.tgt with heldOff := t.tgt.heldOff } ∧ OnlyChanges [.tgt] s t)

/-- A free track takes the tenant at the head of the queue of message passes, or the request for a system pass; a pass
whose scan has covered its range ends and is counted. -/
def Claims.RefillPassesStartAndEnd : Prop :=
  ∀ s : State, s.coreOn = true → s.frame.running = true →
    (∀ n rest, s.tgt.msgPass = none → s.tgt.msgQueue = n :: rest → s.rangeOn n = true →
      ∃ t, exec .messagePassStart s = .next t ∧
        t.tgt = { s.tgt with msgPass := some ⟨n, [], 0, true, false, false⟩, msgQueue := rest } ∧
        OnlyChanges [.tgt] s t) ∧
    (s.tgt.sysPass = none → s.tgt.sysRequest = true →
      ∃ t, exec .systemPassStart s = .next t ∧
        t.tgt = { s.tgt with sysPass := some ⟨[], 0, true, false, false⟩, sysRequest := false } ∧
        OnlyChanges [.tgt] s t) ∧
    (∀ p, s.tgt.msgPass = some p → p.covered = true → p.ended = false → s.tgt.sysPass = none →
      ∃ t, exec .refillPassEnd s = .next t ∧
        t.tgt = { s.tgt with msgPass := some { p with ended := true }, refillCount := satInc s.tgt.refillCount } ∧
        OnlyChanges [.tgt] s t) ∧
    (∀ p, s.tgt.sysPass = some p → p.covered = true → p.ended = false → s.tgt.msgPass = none →
      ∃ t, exec .refillPassEnd s = .next t ∧
        t.tgt = { s.tgt with sysPass := some { p with ended := true }, refillCount := satInc s.tgt.refillCount } ∧
        OnlyChanges [.tgt] s t)

/-! ## Mailboxes -/

/-- A ring sets RING with the path it came by; a ring on a ringing mailbox sets OVERRUN, and a cancel drops a ring that
is not yet taken (R186, R190, R192). -/
def Obligations.MailboxRingAndCancel : Prop :=
  ∀ (p : Path) (s : State), CanonicalMbx s.mbx → s.hm.inReset = none → s.isOn dCTRL = true →
    let m := pathMailbox p
    let b := s.box m
    let writes (i : Instr) (r : Mailbox) : Prop :=
      ∃ t, exec i s = .next t ∧ t.box m = r ∧ (∀ k, k ≠ m → t.box k = s.box k) ∧ t.mbx.fw = s.mbx.fw ∧
        OnlyChanges [.mbx] s t
    (s.Serves (wordWrite p 0x1200 1) →
      (b.ring = false → writes (.mailboxRing p) { b with ring := true, ringPath := p == .smbus }) ∧
      (b.ring = true → writes (.mailboxRing p) { b with overrun := true })) ∧
    (s.Serves (wordWrite p 0x1200 2) → b.ring = true →
      (b.taken = false → writes (.mailboxCancel p) { b with ring := false }) ∧
      (b.taken = true → writes (.mailboxCancel p) b))

/-- A ring is taken with a snapshot of the command area: it runs when the common checks pass, and otherwise waits with
the reply of the check that failed first. A repeated sequence number re-signals the reply that stands. In safe-minimum
mode a tenant's ring is answered SAFE_MINIMUM, and during a restart another ring BUSY_RESTART, without execution (R194,
R196). -/
def Obligations.CommandTaken : Prop :=
  ∀ (m : BitVec 7) (s : State), CanonicalMbx s.mbx → m.toNat ≤ 64 → s.engineReady = true →
    (s.box m).ring = true → (s.box m).taken = false → (∀ n, mbTenant m = some n → s.resetting n = false) →
    let b := s.box m
    let others (t : State) : Prop := (∀ k, k ≠ m → t.box k = s.box k) ∧ t.mbx.fw = s.mbx.fw
    (b.replyValid = true ∧ b.seq = b.replySeq →
      ∃ t, exec (.commandTake m) s = .next t ∧
        t.box m = { b with path := b.ringPath, ring := false, replyReady := true } ∧ others t ∧
        OnlyChanges [.mbx, .tgt] s t) ∧
    (¬ (b.replyValid = true ∧ b.seq = b.replySeq) → b.restarting = false → s.hm.safeMin = false →
      (commonChecks m (takeSnap b) = none →
        ∃ t, exec (.commandTake m) s = .next t ∧
          t.box m = { b with path := b.ringPath, taken := true, snap := some (takeSnap b), work := .run, checked := true } ∧
          others t ∧ OnlyChanges [.mbx, .acu] s t) ∧
      (∀ r, commonChecks m (takeSnap b) = some r →
        ∃ t, exec (.commandTake m) s = .next t ∧
          t.box m = { b with path := b.ringPath, taken := true, snap := some (takeSnap b), work := .done r } ∧
          others t ∧ OnlyChanges [.mbx] s t)) ∧
    (¬ (b.replyValid = true ∧ b.seq = b.replySeq) →
      let turned (r : Reply) : Prop :=
        ∃ t, exec (.commandTake m) s = .next t ∧
          t.box m = { b with path := b.ringPath, taken := true, snap := some (takeSnap b), work := .done r } ∧
          others t ∧ OnlyChanges [.mbx] s t
      (s.hm.safeMin = true → (mbTenant m).isSome = true → turned (refuse stSafeMinimum 0xFF)) ∧
      (b.restarting = true → (s.hm.safeMin && (mbTenant m).isSome) = false → turned (refuse stBusyRestart 0xFF)))

/-- The deposit of a reply: header and payload stand in the reply area, READY rises, RING falls, and a command that
passed the common checks counts as executed. A tenant whose command ended with NOT_OWNER or DENIED is charged a fault. -/
def Obligations.ReplyDeposited : Prop :=
  ∀ (m : BitVec 7) (c : Snap) (r : Reply) (s : State), Coherent s →
    (s.box m).work = .done r → (s.box m).snap = some c → (s.box m).discard = false → c.opcode ≠ 0x33 →
    r.status ≠ stBusyRestart →
    let b := s.box m
    let replied (t : State) : Prop :=
      t.box m = { b with
        reply := replyArea c r, replySeq := c.seq, lastStatus := r.status, replyValid := true, replyReady := true
        ring := false, taken := false, snap := none, work := .idle, load := none, checked := false
        executed := if b.checked then satInc b.executed else b.executed } ∧
      (∀ k, k ≠ m → t.box k = s.box k) ∧ t.mbx.fw = s.mbx.fw
    (r.status ≠ stNotOwner → r.status ≠ stDenied →
      ∃ t, exec (.replyDeposit m) s = .next t ∧ replied t ∧ OnlyChanges [.mbx, .acu, .tgt] s t) ∧
    (r.status = stNotOwner ∨ r.status = stDenied → ∀ n, mbTenant m = some n →
      ∃ t, exec (.replyDeposit m) s = .next t ∧ replied t ∧
        (t.tenant n).faultCount = satInc (s.tenant n).faultCount ∧ (t.tenant n).faultSummary.getLsbD 5 = true ∧
        (∀ k, k ≠ n → t.tenant k = s.tenant k) ∧ OnlyChanges [.mbx, .acu, .tgt, .ten, .sys, .pwr] s t)

/-! ## Mailbox commands that only read -/

/-- The commands that only read answer with the values that stand: the mailbox has its reply to deposit, and no register,
table or other mailbox changes. -/
def Claims.ReadCommandsOnlyReply : Prop :=
  ∀ (m : BitVec 7) (c : Snap) (s : State), CanonicalMbx s.mbx →
    let replies (i : Instr) (r : Reply) : Prop :=
      ∃ t, exec i s = .next t ∧ Answered m r s t ∧ OnlyChanges [.mbx] s t
    (s.Holds m 0x01 c → s.isOn dCORE = true → replies (.getInfo m) (okReply (infoPayload s m))) ∧
    (∀ n, s.Holds m 0x30 c → s.isOn dCORE = true → checkTenant m (snapField c 0x08 1) 0x08 = .ok n →
      s.resetting n = false → replies (.faultRead m) (okReply (faultPayload (s.tenant n)))) ∧
    (∀ n, s.Holds m 0x32 c → s.coreUp = true → snapField c 0x09 1 = 0 →
      checkTenant m (snapField c 0x08 1) 0x08 = .ok n → s.resetting n = false →
      replies (.statsRead m) (okReply ((tenantStats s n).flatMap (bytesLE 4)))) ∧
    (m = 64 → s.Holds m 0x32 c → s.coreUp = true → snapField c 0x09 1 = 1 → snapField c 0x08 1 = 0 →
      replies (.statsRead m) (okReply ((chipStats s).flatMap (bytesLE 4)))) ∧
    (s.Holds m 0x33 c → s.isOn dCORE = true → replies (.timeRead m) (okReply (timePayload s))) ∧
    (s.Holds m 0x50 c → snapByte c 0x0A = 0 → snapField c 0x08 1 ≤ 2 →
      snapField c 0x09 1 < regionCount (snapField c 0x08 1) → s.isOn (mpuDomain (snapField c 0x08 1)) = true →
      replies (.mpuConfigRead m) (mpuReply (snapField c 0x08 1) (snapField c 0x09 1)
        ((s.mpu (snapField c 0x08 1)).region (snapField c 0x09 1)))) ∧
    (s.Holds m 0x60 c → s.isOn dCORE = true → s.isOn dCHE = true → s.isOn dCHW = true →
      replies (.repairStatus m) (okReply (repairPayload s))) ∧
    (∀ r, s.Holds m 0x61 c → snapField c 0x08 1 ≤ 7 → s.hm.records[snapField c 0x08 1]? = some r →
      replies (.hallmarkRead m) (okReply ([1, BitVec.ofNat 8 s.hm.records.length, 0, 0] ++ recordBytes r)))

/-- VECTOR_READ answers with the configuration and state word of each source of its run, and changes none. -/
def Claims.VectorReadReplies : Prop :=
  ∀ (m : BitVec 7) (c : Snap) (s : State), CanonicalMbx s.mbx → s.Clean → s.Holds m 0x15 c → s.coreUp = true →
    let first := snapSrc c 0x08
    let count := snapField c 0x0C 4
    let srcs := runSources first count
    1 ≤ count → count ≤ 20 → (∀ x ∈ srcs, HasWords x ∧ isSystem x = isSystem first) →
    (∀ n, mbTenant m = some n → ∀ x ∈ srcs, s.holder x = some n) →
    (∀ x ∈ srcs, s.holderResets x = false ∧ lostSource s x = false) → s.allOn (runDomains first count) = true →
    ∃ t, exec (.vectorRead m) s = .next t ∧
      Answered m (okReply (bytesLE 4 count ++ srcs.flatMap fun x =>
        bytesLE 8 (s.cfgOf x).toNat ++ bytesLE 4 (if cFwd (s.cfgOf x) then 0 else s.stOf x).toNat)) s t ∧
      OnlyChanges [.mbx] s t

/-! ## Grants of targets -/

/-- TARGET_GRANT fills a free local block of a bound tenant with a free global block: its 64 records take their reset
values and ask for both refill passes, no busy bit of theirs stands, and no other record or block changes. It takes the frame's last
mailbox slot of the block's bank (R101, R166, R206). -/
def Claims.TargetBlockGranted : Prop :=
  ∀ (m : BitVec 7) (c : Snap) (n : Tenant) (k : Nat) (s : State), Coherent s → s.Clean → s.Holds m 0x10 c →
    s.coreUp = true → snapByte c 0x08 = 0 → checkTenant m (snapField c 0x09 1) 0x09 = .ok n →
    let g := snapField c 0x0A 2
    let j := snapField c 0x0C 1
    s.slotFree (blockSlot g) = true → g < 1024 → j < 16 ∨ j = 0xFF → (s.tenant n).bound = true → s.resetting n = false →
    Sparse.get none s.ten.blocks g = none → s.blockOut g = false → s.freeLocal n j = some k →
    ∃ t, exec (.targetGrant m) s = .next t ∧ Answered m (blockReply g k 0) s t ∧
      Sparse.get none t.ten.blocks g = some (n, BitVec.ofNat 4 k) ∧
      (∀ h, h ≠ g → Sparse.get none t.ten.blocks h = Sparse.get none s.ten.blocks h) ∧
      (∀ x ∈ blockSlots g, t.target x = { refilling := true, wantsMsg := true, wantsSys := true } ∧
        t.busyBit x = false) ∧
      (∀ x, x ∉ blockSlots g → t.target x = s.target x ∧ t.busyBit x = s.busyBit x) ∧
      n ∈ t.tgt.msgQueue ∧ t.tgt.sysRequest = true ∧ t.ten.recs = s.ten.recs ∧
      SameButUse s t ∧ OnlyChanges [.ten, .tgt, .mbx, .frame] s t

/-- TARGET_GRANT with OP 1 takes a block back when none of its targets is busy or parked, or when FORCE is set: the
records take their reset values and the block is free. FORCE completes the active sources first (R168, R206). -/
def Claims.TargetBlockWithdrawn : Prop :=
  ∀ (m : BitVec 7) (c : Snap) (n : Tenant) (j : BitVec 4) (s : State), Coherent s → s.Clean → s.Holds m 0x10 c →
    s.coreUp = true → snapByte c 0x08 = 1 → checkTenant m (snapField c 0x09 1) 0x09 = .ok n →
    let g := snapField c 0x0A 2
    let force := (snapByte c 0x0D).getLsbD 0
    s.slotFree (blockSlot g) = true → g < 1024 → (s.tenant n).bound = true → s.resetting n = false → Sparse.get none s.ten.blocks g = some (n, j) →
    (force = true ∧ s.allOn (s.activeQuarters (blockSlots g)) = true ∨
      force = false ∧ ∀ x ∈ blockSlots g, s.busyBit x = false ∧ (s.target x).parked = false) →
    ∃ t, exec (.targetWithdraw m) s = .next t ∧
      (∃ f, Answered m (blockReply g j.toNat f) s t ∧ (force = false → f = 0)) ∧
      Sparse.get none t.ten.blocks g = none ∧
      (∀ h, h ≠ g → Sparse.get none t.ten.blocks h = Sparse.get none s.ten.blocks h) ∧
      (∀ x ∈ blockSlots g, t.target x = {} ∧ t.busyBit x = false) ∧
      (force = false → (∀ x, x ∉ blockSlots g → t.target x = s.target x ∧ t.busyBit x = s.busyBit x) ∧
        OnlyChanges [.ten, .tgt, .mbx, .frame] s t) ∧
      SameButUse s t ∧ OnlyChanges [.ten, .tgt, .mbx, .vec, .loupe, .frame] s t

/-- TARGET_SET writes the delivery address of one target, the tenant's choice of notice target, or both in one command;
its reply shows what stands then (R130, R207). -/
def Obligations.TargetFieldsSet : Prop :=
  ∀ (m : BitVec 7) (c : Snap) (n : Tenant) (x : Slot) (s : State), Coherent s → s.Clean → s.Holds m 0x11 c →
    s.coreUp = true → checkTenant m (snapField c 0x08 1) 0x08 = .ok n →
    let flags := snapByte c 0x09
    let l := snapField c 0x0A 2
    let addr : W64 := BitVec.ofNat 64 (snapField c 0x10 8)
    l < 1024 → s.slotOf n (BitVec.ofNat 10 l) = some x → s.resetting n = false →
    (flags.getLsbD 0 = true → (field addr 0 3 : BitVec 3) = 0) →
    let sets (i : Instr) : Prop :=
      ∃ t, exec i s = .next t ∧
        t.target x = (if flags.getLsbD 0 then { s.target x with daddr := addr } else s.target x) ∧
        (t.tenant n).noticeNext = (if flags.getLsbD 1 then some (BitVec.ofNat 10 l) else (s.tenant n).noticeNext) ∧
        (t.tenant n).notice = (s.tenant n).notice ∧
        (∀ y, y ≠ x → t.target y = s.target y) ∧ (∀ k, k ≠ n → t.tenant k = s.tenant k) ∧
        Answered m (okReply (bytesLE 2 x.toNat
          ++ bytesLE 2 (noticeCode (t.noticeLocal n (t.tenant n).noticeNext)) ++ [0, 0, 0, 0]
          ++ bytesLE 8 (t.target x).daddr.toNat)) s t ∧
        OnlyChanges [.tgt, .ten, .mbx] s t
    (flags ≠ 2 → sets (.setDaddr m)) ∧ (flags.getLsbD 1 = true → sets (.setNotice m))

/-! ## Ranges and their words -/

/-- VECTOR_RANGE_GRANT gives a bound tenant the range it names when every check of R169 passes; nothing else changes. -/
def Claims.VectorRangeGranted : Prop :=
  ∀ (m : BitVec 7) (c : Snap) (n : Tenant) (s : State), Coherent s → s.Holds m 0x12 c → s.coreUp = true →
    snapByte c 0x08 = 0 → checkTenant m (snapField c 0x09 1) 0x09 = .ok n →
    let log2 := snapField c 0x0A 1
    let base := snapField c 0x0C 4
    rangeGrantCheck s n log2 base = none → s.slotFree (quarterOf base) = true → s.isOn (dTBL (quarterOf base)) = true →
    ∃ t, exec (.vectorRangeGrant m) s = .next t ∧
      t.tenant n = { s.tenant n with range := some ⟨BitVec.ofNat 20 base, BitVec.ofNat 5 log2⟩ } ∧
      (∀ k, k ≠ n → t.tenant k = s.tenant k) ∧ Answered m (okReply [0, 0, 0, 0, 0, 0, 0, 0]) s t ∧
      SameButUse s t ∧ OnlyChanges [.ten, .mbx, .frame] s t

/-- VECTOR_RANGE_GRANT with OP 1 takes back a range without active sources: both words of each of its vectors read 0,
no other vector's change, and the reply waits for the clear sweep (R170, R171). -/
def Claims.VectorRangeWithdrawn : Prop :=
  ∀ (m : BitVec 7) (c : Snap) (n : Tenant) (r : Range) (s : State), Coherent s → s.Clean → s.Holds m 0x12 c → s.coreUp = true →
    snapByte c 0x08 = 1 → checkTenant m (snapField c 0x09 1) 0x09 = .ok n →
    (s.tenant n).bound = true → s.resetting n = false → (s.tenant n).range = some r →
    snapField c 0x0A 1 = r.log2.toNat → snapField c 0x0C 4 = r.base.toNat → r.base.toNat + rangeSize r ≤ 0x100000 →
    s.isOn (dTBL (quarterOf r.base.toNat)) = true → s.slotFree (quarterOf r.base.toNat) = true → s.activeIn r = [] →
    ∃ t, exec (.vectorRangeWithdraw m) s = .next t ∧
      t.tenant n = { s.tenant n with range := none } ∧ (∀ k, k ≠ n → t.tenant k = s.tenant k) ∧
      (∀ v, rangeHas r v = true → t.cfgOf (msgSrc v) = 0 ∧ t.stOf (msgSrc v) = 0) ∧
      (∀ v, v < 0x100000 → rangeHas r v = false →
        t.cfgOf (msgSrc v) = s.cfgOf (msgSrc v) ∧ t.stOf (msgSrc v) = s.stOf (msgSrc v)) ∧
      t.ten.sweeps = s.ten.sweeps ++ [⟨r, sweepFrames r, sweepFrames r, some (m, 0)⟩] ∧ Awaits m s t ∧
      SameButUse s t ∧ OnlyChanges [.ten, .vec, .tgt, .pwr, .ras, .mbx, .frame] s t

/-- A clear sweep that has cleared its last frame ends with every word of its range at 0, no other vector's changed, and
the withdrawal that waits for it is answered with its forced completions and its frames (R171, R208). -/
def Claims.ClearSweepAnswers : Prop :=
  ∀ (w : Sweep) (m : BitVec 7) (f : Nat) (c : Snap) (s : State), Coherent s → s.Clean →
    mbTenant m = none →
    s.ten.sweeps.find? (fun u => u.range.base == w.range.base) = some w → w.left = 0 → w.reply = some (m, f) →
    w.range.base.toNat + rangeSize w.range ≤ 0x100000 → (s.box m).snap = some c → (s.box m).discard = false →
    ∃ t, exec (.clearSweepEnd w.range.base) s = .next t ∧ t.ten.sweeps = s.ten.sweeps.erase w ∧
      (t.box m).reply = replyArea c (okReply (bytesLE 4 f ++ bytesLE 2 w.frames ++ [0, 0])) ∧
      (t.box m).replyReady = true ∧ (t.box m).ring = false ∧ (t.box m).lastStatus = stOK ∧
      (∀ v, rangeHas w.range v = true → t.cfgOf (msgSrc v) = 0 ∧ t.stOf (msgSrc v) = 0) ∧
      (∀ v, v < 0x100000 → rangeHas w.range v = false →
        t.cfgOf (msgSrc v) = s.cfgOf (msgSrc v) ∧ t.stOf (msgSrc v) = s.stOf (msgSrc v)) ∧
      (∀ k, k ≠ m → t.box k = s.box k) ∧ t.ten.recs = s.ten.recs ∧
      OnlyChanges [.ten, .vec, .tgt, .pwr, .ras, .mbx] s t

/-- VECTOR_SET writes the configuration word of one source, WATCHED kept; a change of MODE converts its state word; no
other source's words change (R100 to R102, R209). -/
def Claims.VectorConfigured : Prop :=
  ∀ (m : BitVec 7) (c : Snap) (s : State), Coherent s → s.Clean → s.Holds m 0x13 c → s.coreUp = true →
    let src := snapSrc c 0x08
    let new : W64 := BitVec.ofNat 64 (snapField c 0x10 8)
    let w := putBit new 59 (cWatched (s.cfgOf src))
    HasWords src → ownCheck s (mbTenant m) src = none → s.allOn (wordDomains src) = true →
    cfgCheck s (mbTenant m) src new = none → (cfgMoves (s.cfgOf src) new = true → s.slotFree (srcSlot src) = true) →
    ∃ t, exec (.vectorSet m) s = .next t ∧
      t.cfgOf src = w ∧
      t.stOf src = (if cMode (s.cfgOf src) ≠ cMode w ∧ cFwd (s.cfgOf src) = false
        then convertWord (cMode w) (s.stOf src) else s.stOf src) ∧
      (∀ y, y ≠ src → t.cfgOf y = s.cfgOf y ∧ t.stOf y = s.stOf y) ∧
      Answered m (okReply (bytesLE 8 w.toNat ++ bytesLE 4 (t.stOf src).toNat ++ bytesLE 4 s.frameLo.toNat)) s t ∧
      SameButUse s t ∧ OnlyChanges [.vec, .tgt, .mbx, .frame] s t

/-- FORWARD_SET gives an idle vector of a tenant the forwarding form, with a state word of 0; no other word changes
(R79, R214). -/
def Claims.VectorForwarded : Prop :=
  ∀ (m : BitVec 7) (c : Snap) (n : Tenant) (s : State), Coherent s → s.Clean → s.Holds m 0x16 c → s.coreUp = true →
    let src := snapSrc c 0x08
    let fwd := forwardWord (BitVec.ofNat 32 (snapField c 0x0C 4))
    s.slotFree (srcSlot src) = true → s.holder src = some n → s.resetting n = false → s.allOn (wordDomains src) = true →
    s.pwr.watch.contains src = false → lostSource s src = false → sPending (s.stOf src) = false →
    sActive (s.stOf src) = false → s.chainMode ≠ 0 → cDestChip fwd ≠ s.chipId →
    ∃ t, exec (.forwardSet m) s = .next t ∧
      t.cfgOf src = fwd ∧ t.stOf src = 0 ∧
      (∀ y, y ≠ src → t.cfgOf y = s.cfgOf y ∧ t.stOf y = s.stOf y) ∧
      Answered m (okReply (bytesLE 8 fwd.toNat)) s t ∧ SameButUse s t ∧ OnlyChanges [.vec, .mbx, .frame] s t

/-! ## Clasp groups, the watch list, loads -/

/-- CLASP_SET assigns a group, which clears its hold-off when the assignee changes, and sets its INTERVAL, which bounds
what remains; an issuer that is a tenant sets the INTERVAL of a group of its own alone (R154, R172, R215). -/
def Claims.ClaspGroupSet : Prop :=
  ∀ (m : BitVec 7) (c : Snap) (s : State), Coherent s → s.Clean → s.Holds m 0x17 c → s.coreUp = true →
    let grp : BitVec 12 := BitVec.ofNat 12 (snapField c 0x08 2)
    let flags := snapByte c 0x0A
    let assign := snapByte c 0x0B
    let interval : BitVec 16 := BitVec.ofNat 16 (snapField c 0x0C 2)
    let w := s.clasp grp
    let w₁ : ClaspWord := if flags.getLsbD 1 ∧ assign.setWidth 7 ≠ w.assign then ⟨assign.setWidth 7, 0, 0⟩ else w
    let w₂ : ClaspWord := if flags.getLsbD 0 then
      ⟨w₁.assign, interval, if w₁.remaining.toNat < interval.toNat then w₁.remaining else interval⟩ else w₁
    snapField c 0x08 2 < 4096 →
    (flags.getLsbD 1 = true → mbTenant m = none ∧ assign.toNat ≤ 0x41 ∧
      (assign.toNat < 64 → (s.tenant (assign.setWidth 6)).bound = true ∧ s.resetting (assign.setWidth 6) = false)) →
    (∀ n, mbTenant m = some n → w.assign = n.setWidth 7) →
    (∀ n, tagTenant w.assign = some n → s.resetting n = false) →
    let sets (i : Instr) : Prop :=
      ∃ t, exec i s = .next t ∧ t.clasp grp = w₂ ∧ (∀ g, g ≠ grp → t.clasp g = s.clasp g) ∧
        t.ten = { s.ten with clasp := t.ten.clasp } ∧
        Answered m (okReply (bytesLE 1 w₂.assign.toNat ++ [0] ++ bytesLE 2 w₂.interval.toNat
          ++ bytesLE 2 w₂.remaining.toNat ++ [0, 0])) s t ∧
        OnlyChanges [.ten, .mbx] s t
    (flags ≠ 2 → sets (.setInterval m)) ∧ (flags.getLsbD 1 = true → sets (.setAssign m))

/-- WATCH_SET with OP 1 adds a source at the end of the watch list and marks its word WATCHED; with OP 0 it takes it
out and clears the mark. A source that is listed, or not listed, already keeps its place (R94, R216). -/
def Claims.WatchListChanged : Prop :=
  ∀ (m : BitVec 7) (c : Snap) (s : State), Coherent s → s.Clean → s.Holds m 0x18 c → s.coreUp = true →
    let src := snapSrc c 0x08
    HasWords src → (∀ v, srcClass src = .message v → s.holder src ≠ none) → s.holderResets src = false →
    s.allOn (wordDomains src) = true → cFwd (s.cfgOf src) = false → lostSource s src = false →
    let listed := s.pwr.watch.contains src
    (snapByte c 0x0C = 1 → listed = false → s.pwr.watch.length < 256 →
      ∃ t, exec (.watchAdd m) s = .next t ∧
        t.pwr = { s.pwr with watch := s.pwr.watch.filter (· != src) ++ [src] } ∧
        t.cfgOf src = putBit (s.cfgOf src) 59 true ∧ (∀ y, y ≠ src → t.cfgOf y = s.cfgOf y) ∧
        (∀ y, t.stOf y = s.stOf y) ∧ (t.box m).work ≠ .run ∧ OnlyChanges [.vec, .pwr, .mbx] s t) ∧
    (snapByte c 0x0C = 0 → listed = true →
      ∃ t, exec (.watchRemove m) s = .next t ∧
        t.pwr = { s.pwr with watch := s.pwr.watch.filter (· != src) } ∧
        t.cfgOf src = putBit (s.cfgOf src) 59 false ∧ (∀ y, y ≠ src → t.cfgOf y = s.cfgOf y) ∧
        (∀ y, t.stOf y = s.stOf y) ∧ (t.box m).work ≠ .run ∧ OnlyChanges [.vec, .pwr, .mbx] s t) ∧
    (snapByte c 0x0C = 1 → listed = true →
      ∃ t, exec (.watchAdd m) s = .next t ∧ Answered m (okReply (bytesLE 2 s.pwr.watch.length
        ++ [bit 8 (cWatched (s.cfgOf src)), 0])) s t ∧ OnlyChanges [.mbx] s t) ∧
    (snapByte c 0x0C = 0 → listed = false →
      ∃ t, exec (.watchRemove m) s = .next t ∧ Answered m (okReply (bytesLE 2 s.pwr.watch.length
        ++ [bit 8 (cWatched (s.cfgOf src)), 0])) s t ∧ OnlyChanges [.mbx] s t)

/-- VECTOR_LOAD begins a load of its run and asks host memory for its entries: at least one and at most 8 reads, none of
which crosses a boundary of 256 bytes, by the port of the issuer (R210, R211, R179). -/
def Claims.VectorLoadBegins : Prop :=
  ∀ (m : BitVec 7) (c : Snap) (s : State), CanonicalMbx s.mbx → s.Holds m 0x14 c → s.coreUp = true →
    let first := snapSrc c 0x08
    let count := snapField c 0x0C 4
    let addr : W64 := BitVec.ofNat 64 (snapField c 0x10 8)
    1 ≤ count → count ≤ 262144 → (field addr 0 3 : BitVec 3) = 0 →
    HasWords first → first.toNat + count - 1 ≤ (if isSystem first then 0x400FFF else 0x8FFFFF) →
    ∃ t l, exec (.vectorLoad m) s = .next t ∧
      t.box m = { s.box m with load := some l, work := .waiting } ∧
      l = { first := first, count := count, addr := addr, next := 0, written := 0, refused := 0, firstRefused := none
            asked := l.asked, reads := l.reads } ∧
      l.reads ≠ [] ∧ l.reads.length ≤ 8 ∧
      (∀ r ∈ l.reads, 1 ≤ r.entries ∧ r.addr.toNat % 256 + 8 * r.entries ≤ 256 ∧ r.port = s.issuerPort m) ∧
      (∀ k, k ≠ m → t.box k = s.box k) ∧ t.mbx.fw = s.mbx.fw ∧ OnlyChanges [.mbx] s t

/-- An entry that host memory returns is written when it passes every check and MPU-L allows its write: its source takes
the configuration word as VECTOR_SET would write it, and the load goes on with the next entry and its next reads. An
entry that fails a check is counted refused with its status, and nothing is written (R210, R211). An entry that changes
MODE or TARGET takes the frame's last mailbox slot (R101). -/
def Claims.LoaderEntryTaken : Prop :=
  ∀ (m : BitVec 7) (l : LoadRun) (rd : HostRead) (rest : List HostRead) (w : W64) (s : State), Coherent s → s.Clean →
    s.hm.inReset = none → (s.box m).load = some l → l.held = [] → l.stalled = [] → l.failed = false →
    l.reads = rd :: rest → rd.entries = 1 → s.acu.mpuL.enable = true → l.next + 1 < l.count →
    let src := entrySrc l l.next
    let goesOn (l : LoadRun) : LoadRun := askReads (s.issuerPort m) 8 { l with reads := rest, next := l.next + 1 }
    s.allOn (wordDomains src) = true →
    (isWordSource src = true → cfgMoves (s.cfgOf src) w = true → s.slotFree (srcSlot src) = true) →
    let check := checkAccess s 1 ⟨1, 8, cfgAddress src, (mbTenant m).isNone, mbTenant m⟩
    (entryCheck s (mbTenant m) src w = none → check.2.1 = true →
      ∃ t, exec (.loaderReadCompletion m true [w]) s = .next t ∧
        t.cfgOf src = putBit w 59 (cWatched (s.cfgOf src)) ∧ (∀ y, y ≠ src → t.cfgOf y = s.cfgOf y ∧ t.stOf y = s.stOf y) ∧
        t.box m = { s.box m with load := some (goesOn { l with written := l.written + 1 }) } ∧
        (∀ k, k ≠ m → t.box k = s.box k) ∧ SameButUse s t ∧ OnlyChanges [.vec, .tgt, .mbx, .frame] s t) ∧
    (∀ st, entryCheck s (mbTenant m) src w = some st →
      ∃ t, exec (.loaderReadCompletion m true [w]) s = .next t ∧
        t.box m = { s.box m with load := some (goesOn { l with
          refused := l.refused + 1, firstRefused := some (l.firstRefused.getD (l.next, st)) }) } ∧
        (∀ k, k ≠ m → t.box k = s.box k) ∧ SameButUse s t ∧ OnlyChanges [.mbx, .frame] s t)

/-- A read of host memory that fails, or that is not answered, stops the load at its entry once no data of an earlier read
is left; a tenant's load is charged fault 0x06 (R211, R212). -/
def Claims.LoaderReadFails : Prop :=
  ∀ (m : BitVec 7) (l : LoadRun) (data : List W64) (s : State), Coherent s → s.hm.inReset = none →
    (s.box m).load = some l → l.held = [] → l.stalled = [] → l.reads ≠ [] → l.next < l.count →
    let stops (i : Instr) : Prop :=
      ∃ t, exec i s = .next t ∧
        t.box m = { s.box m with load := none, work := .done (loadReply s m l 2) } ∧ (∀ k, k ≠ m → t.box k = s.box k) ∧
        (∀ n, mbTenant m = some n → (t.tenant n).faultCount = satInc (s.tenant n).faultCount ∧
          (t.tenant n).faultSummary.getLsbD 3 = true) ∧
        (mbTenant m = none → OnlyChanges [.mbx] s t) ∧ OnlyChanges [.mbx, .ten, .tgt, .sys, .pwr] s t
    stops (.loaderReadCompletion m false data) ∧ stops (.loaderReadTimeout m)

/-! ## Tenant reset, RESYNC, faults, consent -/

/-- An accepted TENANT_RESET of a bound tenant waits for the next tick; one that finds a reset running joins it, and
both are answered together; one that finds its registers cleared already is answered at once (R165, R175, R217). -/
def Claims.TenantResetAccepted : Prop :=
  ∀ (m : BitVec 7) (c : Snap) (n : Tenant) (s : State), Coherent s → s.Holds m 0x20 c →
    checkTenant m (snapField c 0x08 1) 0x08 = .ok n → (s.tenant n).bound = true →
    let accepts (q : ResetRun) : Prop :=
      ∃ t, exec (.tenantReset m) s = .next t ∧ t.tenant n = { s.tenant n with reset := some q } ∧
        (∀ k, k ≠ n → t.tenant k = s.tenant k) ∧ Awaits m s t ∧ OnlyChanges [.ten, .mbx, .pwr] s t
    ((s.tenant n).reset = none → m = n.setWidth 7 ∨ (s.box (n.setWidth 7)).ring = false →
      accepts ⟨[m], false, false, 0, false, s.sweepOf n, 0⟩) ∧
    (∀ r, (s.tenant n).reset = some r → r.cleared = false → accepts { r with repliesTo := r.repliesTo ++ [m] }) ∧
    (∀ r, (s.tenant n).reset = some r → r.cleared = true →
      ∃ t, exec (.tenantReset m) s = .next t ∧ Answered m (okReply (bytesLE 2 r.sweep ++ bytesLE 2 r.took)) s t ∧
        OnlyChanges [.mbx] s t)

/-- The work of a tenant reset in force: every target record of the tenant takes its reset values with no busy bit, with
a refill requested where a pending, enabled system source names it (R117, R118), its Clasp groups end their hold-off and keep their assignment, and its vector range reads 0 (R176). -/
def Claims.TenantResetWorks : Prop :=
  ∀ (n : Tenant) (q : ResetRun) (s : State), Coherent s → s.Clean → (s.tenant n).reset = some q → q.inForce = true →
    q.started = false → s.resetDomainsOn n = true →
    (∀ r, (s.tenant n).range = some r → r.base.toNat + rangeSize r ≤ 0x100000) →
    ∃ t, exec (.tenantResetWork n) s = .next t ∧
      (∀ x ∈ s.slotsOf n, t.target x = { refilling := s.systemNames x, wantsSys := s.systemNames x } ∧ t.busyBit x = false) ∧
      ((∃ x ∈ s.slotsOf n, s.systemNames x = true) → t.tgt.sysRequest = true) ∧
      (∀ g, t.clasp g = if (s.clasp g).assign = n.setWidth 7 then ⟨n.setWidth 7, 0, 0⟩ else s.clasp g) ∧
      (∀ r v, (s.tenant n).range = some r → rangeHas r v = true → t.cfgOf (msgSrc v) = 0 ∧ t.stOf (msgSrc v) = 0) ∧
      (∀ v, v < 0x100000 → (∀ r, (s.tenant n).range = some r → rangeHas r v = false) →
        t.cfgOf (msgSrc v) = s.cfgOf (msgSrc v) ∧ t.stOf (msgSrc v) = s.stOf (msgSrc v)) ∧
      t.tenant n = { s.tenant n with reset := some { q with started := true, left := max 2 q.sweep } } ∧
      (∀ k, k ≠ n → t.tenant k = s.tenant k) ∧ OnlyChanges [.tgt, .ten, .vec, .pwr, .ras] s t

/-- In the frame after its work a tenant reset clears the tenant's registers, its condition sources and its mailbox,
and deposits the replies that wait for it. Grants and binding stay (R176, R178). -/
def Claims.TenantResetEnds : Prop :=
  ∀ (n : Tenant) (q : ResetRun) (s : State), Coherent s → (s.tenant n).reset = some q → q.started = true →
    q.left = 0 → q.cleared = false → (∀ m ∈ q.repliesTo, m = 64 ∨ m = n.setWidth 7) →
    ∃ t, exec (.tenantResetEnd n) s = .next t ∧
      t.tenant n = { clearTenantRegs (s.tenant n) with reset := some { q with cleared := true } } ∧
      (∀ k, k ≠ n → t.tenant k = s.tenant k) ∧ t.level (0x400 + n.toNat) = false ∧ t.level (0x440 + n.toNat) = false ∧
      (q.repliesTo = [] → t.box (n.setWidth 7) = { restarting := (s.box (n.setWidth 7)).restarting } ∧ ∀ k, k ≠ n.setWidth 7 → t.box k = s.box k) ∧
      (q.repliesTo = [n.setWidth 7] → ∀ c, (s.box (n.setWidth 7)).snap = some c →
        t.box (n.setWidth 7) = {
          restarting := (s.box (n.setWidth 7)).restarting
          reply := replyArea c (okReply (bytesLE 2 q.sweep ++ bytesLE 2 q.took))
          replySeq := c.seq, replyValid := true, replyReady := true, executed := 1 } ∧
        ∀ k, k ≠ n.setWidth 7 → t.box k = s.box k) ∧
      OnlyChanges [.ten, .sys, .pwr, .mbx, .loupe, .acu] s t

/-- RESYNC begins for a bound tenant whose link is up and that has none running: its set is taken at the next tick. -/
def Obligations.ResyncBegins : Prop :=
  ∀ (m : BitVec 7) (c : Snap) (n : Tenant) (s : State), Coherent s → s.Holds m 0x21 c → s.coreUp = true →
    checkTenant m (snapField c 0x08 1) 0x08 = .ok n → (s.tenant n).bound = true → s.resetting n = false →
    s.bnd.linkUp.getLsbD (s.tenant n).port.toNat = true → (s.tenant n).resync = none →
    ∃ t, exec (.resync m) s = .next t ∧
      t.tenant n = { s.tenant n with resync := some ⟨m, none, [], 0, 0, 0⟩ } ∧ (∀ k, k ≠ n → t.tenant k = s.tenant k) ∧
      Awaits m s t ∧ OnlyChanges [.ten, .mbx] s t

/-- FAULT_CLEAR answers with the fault registers as they stood, and clears the summary, VALID of the first-fault record
and the level of S:0x400 + n (R174, R219). -/
def Claims.FaultsCleared : Prop :=
  ∀ (m : BitVec 7) (c : Snap) (n : Tenant) (s : State), Coherent s → s.Holds m 0x31 c → s.coreUp = true →
    checkTenant m (snapField c 0x08 1) 0x08 = .ok n → s.resetting n = false →
    ∃ t, exec (.faultClear m) s = .next t ∧
      t.tenant n = { s.tenant n with faultSummary := 0, faultValid := false } ∧ (∀ k, k ≠ n → t.tenant k = s.tenant k) ∧
      t.level (0x400 + n.toNat) = false ∧ Answered m (okReply (faultPayload (s.tenant n))) s t ∧
      OnlyChanges [.ten, .sys, .pwr, .mbx] s t

/-- DEBUG_CONSENT grants from the next tick, for its number of frames or until withdrawn, and withdraws; a consent in
its last frame lapses (R231). -/
def Claims.ConsentChanges : Prop :=
  ∀ (m : BitVec 7) (c : Snap) (n : Tenant) (s : State), Coherent s → s.Holds m 0x72 c → s.coreUp = true →
    mbTenant m = some n →
    let frames : W32 := BitVec.ofNat 32 (snapField c 0x0C 4)
    let others (t : State) : Prop := (∀ k, k ≠ n → t.tenant k = s.tenant k) ∧ OnlyChanges [.ten, .mbx] s t
    (snapByte c 0x08 = 1 → ∃ t, exec (.debugConsent m) s = .next t ∧
      t.tenant n = { s.tenant n with consentNext := true, consentTaking := true, consentLeft := if frames = 0 then none else some frames } ∧
      Answered m (okReply ([1, 0, 0, 0] ++ bytesLE 4 frames.toNat)) s t ∧ others t) ∧
    (snapByte c 0x08 = 0 → ∃ t, exec (.debugConsent m) s = .next t ∧
      t.tenant n = { s.tenant n with consentNext := false, consentTaking := false, consentLeft := none } ∧
      Answered m (okReply [0, 0, 0, 0, 0, 0, 0, 0]) s t ∧ others t)

/-- A consent in its last frame lapses: it ends at the next tick (R231, R242). -/
def Claims.ConsentLapses : Prop :=
  ∀ (n : Tenant) (s : State), Coherent s → (s.tenant n).consentLeft = some 1 → (s.tenant n).consentTaking = false →
    ∃ t, exec (.consentLapse n) s = .next t ∧
      t.tenant n = { s.tenant n with consentNext := false, consentLeft := none } ∧
      (∀ k, k ≠ n → t.tenant k = s.tenant k) ∧ OnlyChanges [.ten] s t

/-! ## Power domains -/

/-- DOMAIN_POWER records the order and begins the transition at once: an entry, or an exit from its regulator phase.
A domain that is there already, and a quarter that is kept OFF, keep still. An order that sends CTRL to sleep is answered before the entry (R222, R311,
R313). -/
def Obligations.DomainOrdered : Prop :=
  ∀ (m : BitVec 7) (c : Snap) (s : State), Coherent s → s.Holds m 0x40 c → mbTenant m = none →
    let d := snapField c 0x08 1
    let goal := pstate (snapField c 0x09 1)
    let r := s.dom d
    let reply := okReply [pcode r.state, pcode goal, 0, 0]
    1 ≤ d → d ≤ 11 → snapField c 0x09 1 ≤ 2 → r.trans = .none → powerHeld s m d goal = false →
    orderBroken s d goal = false →
    (goal = r.state ∨ s.keptOff d = true → ∃ t, exec (.domainPower m) s = .next t ∧ Answered m reply s t ∧
      OnlyChanges [.mbx] s t) ∧
    (goal ≠ r.state → s.keptOff d = false → goal = .on → ∃ t, exec (.domainPower m) s = .next t ∧
      (t.dom d).state = r.state ∧ (t.dom d).trans = .exiting r.state .regulator false ∧ (t.dom d).ordered = .on ∧
      (t.dom d).auto = false ∧ (t.dom d).stuck = false ∧ Answered m reply s t ∧ OnlyChanges [.pwr, .mbx] s t) ∧
    (goal ≠ r.state → s.keptOff d = false → goal ≠ .on → d ≠ dCTRL → ∃ t, exec (.domainPower m) s = .next t ∧
      (t.dom d).trans = .entering goal ∧ (t.dom d).ordered = goal ∧ (t.dom d).auto = false ∧ (t.dom d).latched = none ∧
      (t.box m).work = .done reply ∧
      (d ≠ dCHE → d ≠ dCHW → (t.dom d).state = r.state ∧ (∀ k, k ≠ d → t.dom k = s.dom k) ∧ Answered m reply s t ∧
        OnlyChanges [.pwr, .mbx, .bead] s t)) ∧
    (goal ≠ r.state → s.keptOff d = false → goal ≠ .on → d = dCTRL → (s.box m).discard = false → ∃ t, exec (.domainPower m) s = .next t ∧
      (t.dom d).state = r.state ∧ (t.dom d).trans = .entering goal ∧ (∀ k, k ≠ d → t.dom k = s.dom k) ∧
      (t.box m).reply = replyArea c reply ∧ (t.box m).ring = false ∧ OnlyChanges [.pwr, .mbx] s t)

/-- The firmware places a quarter that holds no granted range in RET (R311). -/
def Claims.QuarterToRetention : Prop :=
  ∀ (q : BitVec 2) (s : State), Coherent s → s.engineReady = true → s.mbx.fw.alive = true →
    s.isOn (dTBL q.toNat) = true → s.quarterGranted q.toNat = false →
    ∃ t, exec (.firmwareTblRet q) s = .next t ∧
      t.dom (dTBL q.toNat) = { s.dom (dTBL q.toNat) with
        trans := .entering .ret, ordered := .ret, auto := true, latched := none, lateSeen := false, logicSeen := false } ∧
      (∀ k, k ≠ dTBL q.toNat → t.dom k = s.dom k) ∧ OnlyChanges [.pwr] s t

/-- An entry that has reached its end leaves the domain in the state ordered and raises S:0x27A; on the way from ON to
RET the canary rows of the domain's banks are written before; a cause latched
during it is replayed and counted as a bounce (R313, R314). -/
def Claims.EntryEnds : Prop :=
  ∀ (d : BitVec 4) (goal : PState) (s : State), Coherent s → 1 ≤ d.toNat → d.toNat ≤ 11 →
    (s.dom d.toNat).trans = .entering goal → s.quiesced d.toNat = true →
    ((s.dom d.toNat).latched = none → sysSrc 0x27A ∉ s.pwr.watch → ∃ t, exec (.entryComplete d) s = .next t ∧
      t.dom d.toNat = { s.dom d.toNat with state := goal, trans := .none } ∧ (∀ k, k ≠ d.toNat → t.dom k = s.dom k) ∧
      ((s.dom d.toNat).state = .on → goal = .ret → ∀ b ∈ domainBanks d.toNat, b < 48 → t.ras.canary.getLsbD b = true) ∧
      (goal ≠ .ret → t.ras = s.ras) ∧ (t.isOn dCORE = true → (t.latch 0x27A).arrival = true) ∧
      (t.isOn dCORE = false → Sparse.get false t.sys.held 0x27A = true) ∧ OnlyChanges [.pwr, .sys, .ras] s t) ∧
    ((s.dom d.toNat).latched ≠ none → ∃ t, exec (.entryComplete d) s = .next t ∧
      t.pwr.bounces = satInc s.pwr.bounces ∧ t.pwr.bounce = true ∧ OnlyChanges [.pwr, .sys, .ras] s t)

/-- The phases of an exit: the regulator's ready signal ends the first and the clock's the second, BEAD having no
memory phase. A deadline marks the domain and raises S:0x27B once; a timeout forces it OFF and tries once more, and
the second leaves it there (R313, R315). -/
def Obligations.ExitAdvances : Prop :=
  ∀ (d : BitVec 4) (frm : PState) (p : Phase) (retry : Bool) (s : State), Coherent s → s.isOn dCORE = true →
    d.toNat ≠ dCORE → (s.dom d.toNat).trans = .exiting frm p retry →
    let r := s.dom d.toNat
    let becomes (i : Instr) (q : DomainRec) (raised : Bool) : Prop :=
      ∃ t, exec i s = .next t ∧ t.dom d.toNat = q ∧ (∀ k, k ≠ d.toNat → t.dom k = s.dom k) ∧
        (raised = true → (t.latch 0x27B).arrival = true) ∧ (raised = false → t.sys = s.sys) ∧ OnlyChanges [.pwr, .sys] s t
    (p = .regulator → becomes (.regRdy d) { r with trans := .exiting frm .clock retry } false) ∧
    (p = .clock → becomes (.clkRdy d)
      { r with trans := .exiting frm (if d.toNat = dBEAD then .logic else .memory) retry } false) ∧
    becomes (.phaseDeadline d) { r with deadline := true, lateSeen := true } (!r.lateSeen) ∧
    (retry = false → becomes (.exitTimeout d)
      { r with state := .off, trans := .exiting .off .regulator true, logicSeen := false } false) ∧
    (retry = true → becomes (.exitTimeout d)
      { r with state := .off, trans := .none, failed := true, stuck := true, logicSeen := false } true)

/-- MEM_RDY ends the memory phase. From OFF there is nothing to check, and from RET no more happens while the check
finds nothing. A bank of a quarter with a broken canary row, or with more than 4 uncorrectable lines, fails it: the bank
reads 0 and is marked, and S:0x27C is raised (R315, R324, R325). -/
def Claims.MemoryReady : Prop :=
  ∀ (d : BitVec 4) (frm : PState) (retry : Bool) (ret : Retention) (s : State), Coherent s →
    (s.dom d.toNat).trans = .exiting frm .memory retry →
    let u := s.setDom d.toNat { s.dom d.toNat with trans := .exiting frm .logic retry }
    let upsets := ret.upsets.filter fun u => lineDomain u.line == d.toNat
    let found := upsets.foldl upset u
    let checked := ((found.ras.errs.map (·.1)).filter fun l => lineDomain l == d.toNat).foldl checkLine found
    (frm ≠ .ret → exec (.memRdy d ret) s = .next u) ∧
    (frm = .ret → upsets = [] → (∀ e ∈ s.ras.errs, lineDomain e.1 ≠ d.toNat) → s.pwr.retLines = [] →
      (∀ b ∈ domainBanks d.toNat, s.canaryBroken b = false) → exec (.memRdy d ret) s = .next u) ∧
    (frm = .ret → ∀ q, q < 4 → d.toNat = dTBL q → ∃ t, exec (.memRdy d ret) s = .next t ∧
      (∀ b, b < 8 → found.canaryBroken (8 * q + b) = true ∨ 4 < checked.badLines (8 * q + b) →
        t.pwr.tblLost.getLsbD (8 * q + b) = true ∧ t.vec.lostBanks.getLsbD (8 * q + b) = true ∧
        ∀ v, (inCfgBank (8 * q + b) v = true → Sparse.get 0 t.vec.cfg v = 0) ∧
          (inStBank (8 * q + b) v = true → Sparse.get 0 t.vec.st v = 0)) ∧
      OnlyChanges [.pwr, .vec, .ras, .sys, .ten, .tgt, .loupe] s t)

/-- LOGIC_RDY of a domain that waits for no other brings it to ON from RET with all it held, and raises S:0x27A
(R315, R316). -/
def Claims.DomainReachesOn : Prop :=
  ∀ (d : BitVec 4) (retry : Bool) (exitUs : BitVec 8) (lkt : BitVec 48) (s : State), Coherent s → s.Settled → s.pwr.retLines = [] → s.pwr.lostActive = [] → s.pwr.lostBanks = 0 →
    s.isOn dCORE = true → d.toNat ∈ [dCTRL, dLOUPE] → (s.dom d.toNat).trans = .exiting .ret .logic retry →
    ∃ t, exec (.logicRdy d exitUs lkt) s = .next t ∧
      t.dom d.toNat = { s.dom d.toNat with state := .on, trans := .none, logicSeen := false, lastExit := exitUs } ∧
      (∀ k, k ≠ d.toNat → t.dom k = s.dom k) ∧ (t.latch 0x27A).arrival = true ∧ OnlyChanges [.pwr, .sys] s t

/-- A fall of REG_RDY of a domain that is ON is a fatal condition (R338, R387); a calibration measurement of CORE is
kept (R321). -/
def Obligations.SupplyAndClock : Prop :=
  ∀ (s : State), Coherent s → s.isOn dCORE = true →
    (∀ d : BitVec 4, 1 ≤ d.toNat → d.toNat ≤ 11 → (s.dom d.toNat).state = .on → (s.dom d.toNat).trans = .none →
      s.hm.inReset = none → s.hm.powerOff = false →
      ∃ t, exec (.regRdyFall d) s = .next t ∧ t.dom d.toNat = { s.dom d.toNat with failed := true } ∧
        t.ras = { s.ras with fatal := true, fatalReq := true } ∧ (t.latch 0x27B).arrival = true ∧
        OnlyChanges [.pwr, .ras, .sys] s t) ∧
    (∀ count, count < 2 ^ 18 → ∃ t, exec (.lktCalibration count) s = .next t ∧
      t.pwr = { s.pwr with lktCal := BitVec.ofNat 18 count } ∧ OnlyChanges [.pwr] s t)

/-! ## Beads -/

/-- PAD_RELEASE marks the held pads it names for release at the next round; BEAD_CONFIG records the number of input
slots and the outputs for the next round (R223, R226). -/
def Claims.BeadCommands : Prop :=
  ∀ (m : BitVec 7) (c : Snap) (s : State), Coherent s →
    let u := s.bead
    (s.Holds m 0x41 c → s.isOn dBEAD = true →
      let mask : BitVec 16 := BitVec.ofNat 16 (snapField c 0x08 2)
      let sync := (snapByte c 0x0A).getLsbD 0
      let releasing := u.releasing ||| (mask &&& u.held)
      let syncReleasing := u.syncReleasing || (sync && u.syncHeld)
      ∃ t, exec (.padRelease m) s = .next t ∧
        t.bead = { u with releasing := releasing, syncReleasing := syncReleasing } ∧
        Answered m (okReply (bytesLE 2 (u.held &&& ~~~ releasing).toNat ++ [bit 8 (u.syncHeld && !syncReleasing), 0])) s t ∧
        OnlyChanges [.bead, .mbx] s t) ∧
    (s.Holds m 0x52 c →
      let flags := snapByte c 0x08
      let n := snapField c 0x09 1
      let value : W32 := BitVec.ofNat 32 (snapField c 0x0C 4)
      let mask : W32 := BitVec.ofNat 32 (snapField c 0x10 4)
      (flags.getLsbD 0 = true → n ≤ 6) →
      let sets (i : Instr) : Prop :=
        ∃ t, exec i s = .next t ∧
          t.bead = { u with
            inputsNext := if flags.getLsbD 0 then BitVec.ofNat 3 n else u.inputsNext
            outputsNext := if flags.getLsbD 1 then (u.outputsNext &&& ~~~ mask) ||| (value &&& mask) else u.outputsNext } ∧
          Answered m (okReply ([u.inputSlots.setWidth 8, 0, 0, 0] ++ bytesLE 4 u.outputs.toNat)) s t ∧
          OnlyChanges [.bead, .mbx] s t
      (flags ≠ 2 → sets (.setInputs m)) ∧ (flags.getLsbD 1 = true → sets (.setOutputs m)))

/-- While BEAD is not ON, a rise of BEAD[j] is recorded and, unless no input slot is in force, raises input j; a fall
lets the levels follow with no edge (R306). -/
def Claims.WakeInputs : Prop :=
  ∀ (j : BitVec 2) (s : State), Coherent s → s.wakeInputs = true → s.isOn dCORE = true →
    let rises := { s.bead with
      wakeEdge := putBit s.bead.wakeEdge j.toNat true, level := putBit s.bead.level j.toNat true }
    let falls := { s.bead with level := putBit s.bead.level j.toNat false }
    (s.bead.inputSlots = 0 →
      (∃ t, exec (.beadWakeEdge j) s = .next t ∧ t.bead = rises ∧ OnlyChanges [.bead] s t) ∧
      (∃ t, exec (.wakeInputFall j) s = .next t ∧ t.bead = falls ∧ OnlyChanges [.bead] s t)) ∧
    (s.bead.inputSlots ≠ 0 →
      (∃ t, exec (.beadWakeEdge j) s = .next t ∧ t.bead = rises ∧ t.level (wiredSrc j.toNat) = true ∧
        (t.latch (wiredSrc j.toNat)).arrival = true ∧ (∀ k, k ≠ wiredSrc j.toNat → t.latch k = s.latch k) ∧
        OnlyChanges [.bead, .sys] s t) ∧
      (∃ t, exec (.wakeInputFall j) s = .next t ∧ t.bead = falls ∧ t.level (wiredSrc j.toNat) = false ∧
        (∀ k, t.latch k = s.latch k) ∧ OnlyChanges [.bead, .sys] s t))

/-! ## Wear, repair and reliability -/

/-- Temperature samples are summed; an aged hour counts the hour, adds its ageing, and starts new sums; the kernel's
copy puts the repair store and the wear counts into flash (R343, R344). -/
def Claims.WearCounted : Prop :=
  ∀ (s : State),
    (∀ temp, s.hm.powerOff = false → ∃ t, exec (.tempSample temp true) s = .next t ∧
      t.ras = { s.ras with tempSum := s.ras.tempSum + temp.toNat, tempCount := s.ras.tempCount + 1 } ∧
      OnlyChanges [.ras] s t) ∧
    (∀ temp, s.hm.powerOff = false → ∃ t, exec (.tempSample temp false) s = .next t ∧
      t.ras = { s.ras with tempMissing := s.ras.tempMissing + 1 } ∧ OnlyChanges [.ras] s t) ∧
    (s.hm.powerOff = false → ∃ t, exec .agedHour s = .next t ∧
      t.ras = { s.ras with
        poweredHours := s.ras.poweredHours + 1
        agedUnits := s.ras.agedUnits + hourUnits s.ras.poweredHours.toNat s.ras.tempSum s.ras.tempCount s.ras.tempMissing
        tempSum := 0, tempCount := 0, tempMissing := 0, lifeDays := BitVec.ofNat 32 t.lifeFigure } ∧
      OnlyChanges [.ras, .sys, .pwr] s t) ∧
    (s.engineReady = true → s.mbx.fw.alive = true → ∃ t, exec .fieldRepairCopy s = .next t ∧
      t.ras = { s.ras with
        fieldFlash := s.ras.fieldStore, fieldCopied := s.ras.fieldStore.length, flashHours := s.ras.poweredHours
        flashAged := s.ras.agedUnits, flashRetire := s.ras.retireHours } ∧ OnlyChanges [.ras] s t)

/-- A row due for retirement moves to the lowest free spare of its bank: the field repair store gains the entry, the
row leaves the due list and its record, and S:0x261 is raised. Without a spare, RETIRE_FAILED is set (R342, R343). -/
def Claims.RowRetired : Prop :=
  ∀ (bank : BitVec 6) (row : BitVec 14) (s : State), Coherent s → s.Clean → s.isOn dCORE = true →
    (bank.toNat, row) ∈ s.ras.dueRetire → s.arrayStands bank.toNat = true →
    (∀ k, s.freeSpare bank.toNat = some k → ∃ t, exec (.rowRetire bank row) s = .next t ∧
      t.ras.fieldStore = s.ras.fieldStore ++ [(bank.toNat, row, k)] ∧ t.ras.retiredEv = true ∧
      t.ras.retiredRows = satInc s.ras.retiredRows ∧ (bank.toNat, row) ∉ t.ras.dueRetire ∧
      (∀ e, e ≠ (bank.toNat, row) → (e ∈ t.ras.dueRetire ↔ e ∈ s.ras.dueRetire)) ∧
      (t.latch 0x261).arrival = true ∧ t.Clean ∧ OnlyChanges [.ras, .sys] s t) ∧
    (s.freeSpare bank.toNat = none → ∃ t, exec (.rowRetire bank row) s = .next t ∧
      t.ras.retireFailed = true ∧ t.ras.fieldStore = s.ras.fieldStore ∧ (bank.toNat, row) ∉ t.ras.dueRetire ∧
      OnlyChanges [.ras] s t)

/-- A parity error on an internal bus is counted and raises S:0x264. When the repeat fails too, the path decides: an
engine is retired, and a path that no unit can be spared from asks for a block reset (R337, R338). -/
def Claims.BusParityErrors : Prop :=
  ∀ (s : State), Coherent s → s.isOn dCORE = true → s.hm.inReset = none → s.hm.powerOff = false →
    (∀ path, ∃ t, exec (.internalBusParityError path false) s = .next t ∧
      t.ras = { s.ras with busParity := true, parity := satInc s.ras.parity } ∧
      (t.latch 0x264).arrival = true ∧ OnlyChanges [.ras, .sys] s t) ∧
    (∀ path, path = .other ∨ (∃ n, path = .fabricInbound n) →
      ∃ t, exec (.internalBusParityError path true) s = .next t ∧
        t.ras = { s.ras with busParity := true, parity := satInc s.ras.parity, fatal := true, fatalReq := true } ∧
        (t.latch 0x264).arrival = true ∧ OnlyChanges [.ras, .sys] s t) ∧
    (∀ p e, s.servedBy p = some e → p.toNat < 4 → s.spareFree = true →
      ∃ t, exec (.internalBusParityError (.engine p) true) s = .next t ∧
        t.logical e = 4 ∧ t.tgt.retired = s.tgt.retired ||| BitVec.twoPow 5 p.toNat ∧ t.tgt.engineFault = true ∧
        t.tgt.spareInUse = true ∧ (t.latch 0x263).arrival = true ∧ OnlyChanges [.ras, .sys, .tgt] s t)

/-- The scrub of CTRL RAM changes nothing when no line of it is in error; an uncorrectable line of the kernel's part
restarts the firmware with its kernel loaded anew (R335, R340). -/
def Claims.ControlRamScrubbed : Prop :=
  ∀ (s : State), Coherent s → s.Clean → s.kernelRuns = true →
    exec (.ctrlScrub []) s = .next s ∧
    (∀ line e, line < 8192 → e ≠ 0 → decodeLine s.ras.freeReads e = .uncorrectable →
      ∃ t, exec (.ctrlScrub [⟨⟨.ctrl, 0, line⟩, e⟩]) s = .next t ∧ t.ras.uncorrCtrl = true ∧
        t.ras.uncorrectable = satInc s.ras.uncorrectable ∧ t.mbx.fw.alive = false ∧ t.mbx.fw.restart = true ∧
        t.mbx.fw.loads = true ∧ t.Clean)

/-! ## Firmware -/

/-- FW_STAGE checks an image and puts it into the slot that does not run. An image that fails any check leaves the slot
empty and raises S:0x26C (R229). -/
def Claims.FirmwareStaged : Prop :=
  ∀ (m : BitVec 7) (c : Snap) (fate : ImageFate) (s : State), Coherent s → s.Holds m 0x70 c →
    let size := snapField c 0x10 4
    let slot := decide (snapField c 0x14 1 = 1)
    snapField c 0x08 8 % 4096 = 0 → size % 4096 = 0 → 4096 ≤ size → size ≤ 2097152 → snapField c 0x14 1 ≤ 1 →
    (s.mbx.fw.alive = true → slot ≠ s.mbx.fw.runSlot) →
    let payload := bytesLE 4 ((fateVersion fate).getD 0).toNat ++ [BitVec.ofNat 8 (fateCode fate), 0, 0, 0]
    let replies (t : State) (r : Reply) : Prop :=
      t.box m = { s.box m with work := .done r } ∧ (∀ k, k ≠ m → t.box k = s.box k)
    ∃ t, exec (.fwStage m fate) s = .next t ∧ t.mbx.fw = s.mbx.fw.setImage slot (fateVersion fate) ∧
      (∀ v, fate = .staged v → replies t (okReply payload) ∧ OnlyChanges [.mbx] s t) ∧
      ((∀ v, fate ≠ .staged v) →
        replies t ⟨if fateCode fate = 2 ∧ s.managerLink = false then stLinkDown else stBadField, 0x08, payload⟩ ∧
        (s.isOn dCORE = true → (t.latch 0x26C).arrival = true) ∧ OnlyChanges [.mbx, .sys, .pwr] s t)

/-- FW_ACTIVATE of a valid image restarts the firmware with it: every mailbox answers BUSY_RESTART until it runs, and
S:0x26A is raised. With NEXT_START_ONLY, and in safe-minimum mode, the slot is recorded for the next start; in
safe-minimum mode the block then resets itself (R230, R365). -/
def Claims.FirmwareActivated : Prop :=
  ∀ (c : Snap) (s : State), Coherent s → s.Holds 64 0x71 c → snapField c 0x08 1 ≤ 1 →
    let slot := decide (snapField c 0x08 1 = 1)
    let only := (snapByte c 0x09).getLsbD 0
    (s.mbx.fw.image slot).isSome = true →
    (only = true → ∃ t, exec (.nextStartOnly 64) s = .next t ∧ t.mbx.fw = { s.mbx.fw with nextSlot := some slot } ∧
      t.box 64 = { s.box 64 with work := .done (activateReply 2 s.mbx.fw) } ∧ (∀ k, k ≠ 64 → t.box k = s.box k) ∧
      OnlyChanges [.mbx] s t) ∧
    (only = false → s.hm.safeMin = false → (s.box 64).load = none → ∃ t, exec (.fwActivate 64) s = .next t ∧
      t.mbx.fw = { s.mbx.fw with
        alive := false, restart := true, loads := true, activate := true, fellBack := false, runSlot := slot
        previous := some s.mbx.fw.runSlot } ∧
      (∀ k : BitVec 7, k.toNat ≤ 64 → (t.box k).restarting = true) ∧ (t.box 64).work = .waiting ∧
      t.acu.user = false ∧ t.acu.current = 0x40 ∧ (s.isOn dCORE = true → (t.latch 0x26A).arrival = true) ∧
      OnlyChanges [.mbx, .acu, .sys, .pwr] s t) ∧
    (only = false → s.hm.safeMin = true → ∃ t, exec (.fwActivate 64) s = .next t ∧
      t.mbx.fw.nextSlot = some slot ∧ t.hm.inReset = some (4, false))

/-- A new image that does not run gives way to the one before it, and S:0x26C is raised (R230). -/
def Claims.FirmwareFallsBack : Prop :=
  ∀ (s : State), Coherent s → s.engineReady = true → s.mbx.fw.restart = true → s.mbx.fw.loads = true →
    s.mbx.fw.fellBack = false →
    ∃ t, exec .fwFallback s = .next t ∧
      t.mbx = { s.mbx with fw := { s.mbx.fw with
        fellBack := true, runSlot := s.mbx.fw.previous.getD s.mbx.fw.runSlot } } ∧
      (s.isOn dCORE = true → (t.latch 0x26C).arrival = true) ∧ OnlyChanges [.mbx, .sys, .pwr] s t

/-- A restart of one agent answers what its mailbox runs with BUSY_RESTART, charges its tenant and raises S:0x26A; a
restart of the whole firmware overtakes every mailbox. An access that MPU-C allows restarts nothing (R194, R239). -/
def Claims.FirmwareRestarts : Prop :=
  ∀ (s : State), Coherent s → s.kernelRuns = true →
    (∀ n : Tenant, (s.box (n.setWidth 7)).restarting = false → (s.box (n.setWidth 7)).snap ≠ none →
      (s.box (n.setWidth 7)).work = .run →
      ∃ t, exec (.agentRestart n none) s = .next t ∧
        t.box (n.setWidth 7) = { s.box (n.setWidth 7) with
          restarting := true, work := .done (refuse stBusyRestart 0xFF) } ∧
        (∀ k, k ≠ n.setWidth 7 → t.box k = s.box k) ∧ (t.tenant n).faultCount = satInc (s.tenant n).faultCount ∧
        (t.tenant n).faultSummary.getLsbD 4 = true ∧ (∀ k, k ≠ n → t.tenant k = s.tenant k) ∧
        OnlyChanges [.mbx, .ten, .tgt, .acu, .sys, .pwr] s t) ∧
    (∃ t, exec (.firmwareRestart none) s = .next t ∧
      t.mbx.fw = { s.mbx.fw with
        alive := false, restart := true, loads := false, previous := some s.mbx.fw.runSlot } ∧
      (∀ k : BitVec 7, k.toNat ≤ 64 → (t.box k).restarting = true) ∧ t.acu.user = false ∧ t.acu.current = 0x40 ∧
      (s.isOn dCORE = true → (t.latch 0x26A).arrival = true) ∧ OnlyChanges [.mbx, .acu, .sys, .pwr] s t) ∧
    (∀ x : CoreAccess, coreAccessOk x = false ∨ (checkController (enterKernel s) x).2.1 = true →
      ∃ t, exec (.firmwareRestart (some x)) s = .next t ∧ t.mbx = s.mbx ∧ OnlyChanges [.acu] s t)

/-- The firmware runs again: a reply that waits is deposited, no mailbox restarts any more, MPU-C is enabled with the
kernel's regions, and an FW_ACTIVATE that caused the restart is answered. The restart of one agent ends for its mailbox
alone. Both raise S:0x26B (R194, R230, R243, R244). -/
def Claims.RestartCompletes : Prop :=
  ∀ (s : State), Coherent s → s.engineReady = true →
    (s.mbx.fw.restart = true → s.mbx.fw.activate = false → ∃ t, exec (.restartComplete none) s = .next t ∧
      let u := allBoxes.foldl depositDone s
      t.mbx.fw.alive = true ∧ t.mbx.fw.restart = false ∧ t.mbx.fw.version = (s.mbx.fw.image s.mbx.fw.runSlot).getD s.mbx.fw.version ∧
      (∀ k, t.box k = { u.box k with restarting := false }) ∧
      t.acu.mpuC = { loadKernelRegions u.acu.mpuC with enable := true } ∧
      (u.isOn dCORE = true → (t.latch 0x26B).arrival = true) ∧ OnlyChanges [.mbx, .acu, .sys, .pwr] u t) ∧
    (∀ n : Tenant, s.mbx.fw.restart = false → (s.box (n.setWidth 7)).restarting = true →
      ∃ t, exec (.restartComplete (some n)) s = .next t ∧
        let u := depositDone s (n.setWidth 7)
        t.box (n.setWidth 7) = { u.box (n.setWidth 7) with restarting := false } ∧
        (∀ k, k ≠ n.setWidth 7 → t.box k = s.box k) ∧ t.mbx.fw = s.mbx.fw ∧
        (u.isOn dCORE = true → (t.latch 0x26B).arrival = true) ∧ OnlyChanges [.mbx, .sys, .pwr] u t ∧
        OnlyChanges [.mbx, .sys, .pwr, .ten, .tgt, .acu] s t)

/-! ## Reset and start-up -/

/-- What registers read after a cold reset: the period is 800 and each tenant's weight 0x10, the engine map is 0 to 3, MPU-L
and MPU-D check while MPU-C does not, the CTLE codes are 8, LKT_CAL is 0x20000, no vector has an owner, no target or tenant
has work, and no frame runs (R29, R77, R135, R248, R249, R264, R331). -/
def Claims.ResetValues : Prop :=
  let s := State.reset
  s.frame.current = 800 ∧ s.frame.running = false ∧ s.frame.count = 0 ∧ s.pending = [] ∧
    (∀ t, (s.tenant t).weight = 0x10 ∧ (s.tenant t).queue = [] ∧ s.resetting t = false) ∧
    s.deliveryWord 4 = 0x3210 ∧ (s.mpuWord 1 0).getLsbD 0 = true ∧ (s.mpuWord 2 0).getLsbD 0 = true ∧
    (s.mpuWord 0 0).getLsbD 0 = false ∧ s.mpuWord 0 0x18 = 0x40 ∧ (∀ p, s.phyWord p 0 = 0 ∧ s.phyWord p 4 = 0x888) ∧
    s.powerWord 0x68 = 0x20000 ∧ (∀ v, s.mapOwner v = none)

/-- A cold reset returns everything, Locket included, to its reset state: only what flash holds, the levels that the
switch drives and the board's latches stand, and the start waits at step 1. The loss of power does the same and leaves
the block without power (R11, R386, R398). -/
def Claims.ColdResetClears : Prop :=
  ∀ s : State,
    let cleared (t : State) : Prop :=
      t.frame = {} ∧ t.intake = {} ∧ t.sys = {} ∧ t.vec = {} ∧ t.tgt = {} ∧ t.ten = {} ∧ t.mbx.boxes = [] ∧ t.acu = {} ∧
      t.chain = {} ∧ t.pwr = {} ∧ t.loupe = {} ∧ t.bead = { latched := s.bead.latched } ∧
      t.ras = {
        fieldFlash := s.ras.fieldFlash, flashHours := s.ras.flashHours, flashAged := s.ras.flashAged
        flashRetire := s.ras.flashRetire } ∧
      t.mbx.fw.slot0 = s.mbx.fw.slot0 ∧ t.mbx.fw.slot1 = s.mbx.fw.slot1 ∧ t.mbx.fw.alive = false ∧
      t.hm.flashA = s.hm.flashA ∧ t.hm.flashB = s.hm.flashB ∧ t.hm.records = [] ∧ t.hm.ready = false ∧ t.hm.inReset = some (0, true)
    (∃ t, exec .coldReset s = .next t ∧ cleared t ∧ t.hm.powerOff = false ∧ OnlyChanges
      [.frame, .intake, .sys, .vec, .tgt, .ten, .mbx, .acu, .chain, .bead, .pwr, .ras, .loupe, .hm, .bnd] s t) ∧
    (∃ t, exec .powerLost s = .next t ∧ cleared t ∧ t.hm.powerOff = true)

/-- A block reset returns everything outside Locket to its reset state and keeps Locket: the period and the time, the
domains' states, the capture FIFO, the records, the field repair data and the held pads. Its cause is 3 when a fatal condition asked for
it, else 1. During a cold reset it changes nothing (R11, R12, R338, R354). -/
def Claims.BlockResetKeepsLocket : Prop :=
  ∀ s : State, Coherent s →
    ((∀ c, s.hm.inReset ≠ some (c, true)) →
      ∃ t, exec .blockReset s = .next t ∧ t.hm.inReset = some (if s.ras.fatalReq then 3 else 1, false) ∧
        t.intake = {} ∧ t.sys = {} ∧ t.vec = {} ∧ t.ten = {} ∧ t.acu = {} ∧ t.loupe = {} ∧ t.mbx.boxes = [] ∧
        t.tgt.recs = [] ∧ t.tgt.busy = [] ∧ t.tgt.cplQueue = [] ∧ t.tgt.retired = s.tgt.retired ∧
        t.frame.count = 0 ∧ t.frame.current = s.frame.current ∧ t.frame.timeCycles = s.frame.timeCycles ∧
        t.frame.running = false ∧ t.pwr.capture = s.pwr.capture ∧
        (∀ d, (t.dom d).state = (s.dom d).state ∧ (t.dom d).trans = .none ∧ (t.dom d).ordered = (s.dom d).ordered) ∧
        t.hm.records = s.hm.records ∧ t.hm.ready = false ∧ t.ras.fieldStore = s.ras.fieldStore ∧
        t.ras.poweredHours = s.ras.poweredHours ∧ t.ras.errs = [] ∧
        t.bead.strap = s.bead.strap ∧ t.bead.held = BitVec.allOnes 16 ∧ t.bead.latched = s.bead.latched ∧
        t.chain.eastCfg = s.chain.eastCfg ∧ t.chain.westCfg = s.chain.westCfg ∧ t.chain.pairs = [] ∧
        t.pending = s.pending) ∧
    (∀ c, s.hm.inReset = some (c, true) → exec .blockReset s = .next s)

/-- The FM's restart is a block reset with cause 4 once the start has ended, and is refused while it runs (R365). -/
def Claims.FmRestartResets : Prop :=
  ∀ (p : Path) (data : W32) (s : State), pathFm p = true → s.Serves (wordWrite p 0x25004 data) →
    data.getLsbD 0 = true →
    (s.hm.safeMin = true ∨ s.hm.ready = true →
      ∃ t, exec (.fmRestart p data) s = .next t ∧ t.hm.inReset = some (4, false) ∧ t.mbx.boxes = [] ∧ t.ten = {} ∧
        t.hm.records = s.hm.records) ∧
    (s.hm.safeMin = false → s.hm.ready = false →
      exec (.fmRestart p data) s = .next (s.setHm { s.hm with restartRefused := true }))

/-! ## Registers of the manager window -/

/-- INTAKE_BASE takes a write of either half while WINDOW_EN is 0; while it is 1 the write is ignored and sets
BASE_REFUSED. A block reset and a cold reset clear WINDOW_EN and set INTAKE_BASE to 0 (R55). -/
def Obligations.IntakeBaseWritten : Prop :=
  (∀ (p : Path) (high : Bool) (data : W32) (s : State), pathFm p = true →
    s.Serves (wordWrite p (if high then 0x300C else 0x3008) data) →
    (s.intake.windowEn = false → ∃ t, exec (.intakeBaseWrite p high data) s = .next t ∧
      t.intake = { s.intake with base :=
        if high then data ++ (field s.intake.base 0 32 : W32)
        else (field s.intake.base 32 32 : W32) ++ (data &&& 0xFFC00000) } ∧ OnlyChanges [.intake] s t) ∧
    (s.intake.windowEn = true → ∃ t, exec (.intakeBaseWrite p high data) s = .next t ∧
      t.intake = { s.intake with baseRefused := true } ∧ OnlyChanges [.intake] s t)) ∧
  (∀ s : State, (∃ t, exec .coldReset s = .next t ∧ t.intake.windowEn = false ∧ t.intake.base = 0) ∧
    ((∀ c, s.hm.inReset ≠ some (c, true)) →
      ∃ t, exec .blockReset s = .next t ∧ t.intake.windowEn = false ∧ t.intake.base = 0))

/-- A weight from 1 to 255 stands for its tenant from the tenant's next turn; a write of 0 is ignored and sets
WEIGHT_REFUSED (R62). -/
def Claims.WeightWritten : Prop :=
  ∀ (p : Path) (n : Tenant) (data : W32) (s : State), CanonicalTen s.ten → pathFm p = true →
    s.Serves (wordWrite p (0x3100 + 4 * n.toNat) data) →
    (data.setWidth 8 ≠ (0 : BitVec 8) → ∃ t, exec (.weightWrite p n data) s = .next t ∧
      t.tenant n = { s.tenant n with weight := data.setWidth 8 } ∧ (∀ k, k ≠ n → t.tenant k = s.tenant k) ∧
      OnlyChanges [.ten] s t) ∧
    (data.setWidth 8 = (0 : BitVec 8) → ∃ t, exec (.weightWrite p n data) s = .next t ∧
      t.intake = { s.intake with weightRefused := true } ∧ OnlyChanges [.intake] s t)

/-- A binding gives a tenant a port, or takes it back. The write that changes nothing is accepted; one for a tenant that
holds a grant or is RESETTING, and one whose PORT is the manager's port, no upstream port or another tenant's, is
refused with BIND_REFUSED and keeps the binding (R164, R165). -/
def Obligations.TenantBound : Prop :=
  ∀ (p : Path) (n : Tenant) (data : W32) (s : State), CanonicalTen s.ten → pathFm p = true →
    s.Serves (wordWrite p (0x7000 + 16 * n.toNat) data) →
    let bound := data.getLsbD 31
    let port : BitVec 7 := field data 0 7
    let same := bound = (s.tenant n).bound ∧ port = (s.tenant n).port
    let holds := s.localBlocks n ≠ 0 ∨ (s.tenant n).range.isSome = true
    let badPort := port = s.ten.managerPort ∨ 80 ≤ port.toNat ∨ s.ten.upstream.getLsbD port.toNat = false ∨
      ∃ u, s.portTenant port.toNat = some u ∧ u ≠ n
    (same → exec (.tenantBind p n data) s = .next s) ∧
    (¬ same → holds ∨ s.resetting n = true ∨ badPort →
      exec (.tenantBind p n data) s = .next (s.setTen { s.ten with bindRefused := true })) ∧
    (¬ same → ¬ holds → s.resetting n = false → ¬ badPort →
      ∃ t, exec (.tenantBind p n data) s = .next t ∧ t.tenant n = { s.tenant n with bound := bound, port := port } ∧
        (∀ k, k ≠ n → t.tenant k = s.tenant k) ∧ OnlyChanges [.ten] s t)

/-- The view selector of a path takes the defined bits of a write, and the other path keeps its own (R379). -/
def Claims.ViewSelected : Prop :=
  ∀ (p : Path) (data : W32) (s : State), pathFm p = true → s.Serves (wordWrite p 0x20 data) →
    ∃ t, exec (.viewSelect p data) s = .next t ∧
      t.ten = (if p = .smbus then { s.ten with viewSmbus := data &&& 0x833F003F }
        else { s.ten with viewManager := data &&& 0x833F003F }) ∧
      t.viewOf p = data &&& 0x833F003F ∧ OnlyChanges [.ten] s t

/-- MW_RAS_INJECT arms one injection of one or two check symbols in a bank of the arrays; SYMBOLS 0 or 3, or a bank
above 47, leaves ARM at 0 (R347). -/
def Claims.InjectionArmed : Prop :=
  ∀ (p : Path) (data : W32) (s : State), pathFm p = true → s.Serves (wordWrite p 0x24020 data) →
    let symbols : BitVec 2 := field data 8 2
    let bank : BitVec 6 := field data 0 6
    (symbols = 1 ∨ symbols = 2 → bank.toNat ≤ 47 → ∃ t, exec (.rasInject p data) s = .next t ∧
      t.ras = { s.ras with symbols := symbols, injBank := bank, arm := s.ras.arm || data.getLsbD 31 } ∧
      OnlyChanges [.ras] s t) ∧
    (symbols = 0 ∨ symbols = 3 ∨ 47 < bank.toNat → ∃ t, exec (.rasInject p data) s = .next t ∧
      t.ras = { s.ras with arm := false } ∧ OnlyChanges [.ras] s t)

/-- LP_HIST_CLEAR clears the bins of the tenant it names, or with 0x7F of every tenant (R350, R352). -/
def Claims.HistogramCleared : Prop :=
  ∀ (p : Path) (data : W32) (s : State), pathFm p = true → s.Serves (wordWrite p 0x28008 data) →
    let n : BitVec 7 := field data 0 7
    let clears (gone : Nat → Bool) : Prop := ∃ t, exec (.histClear p data) s = .next t ∧
      (∀ k, gone k = true → Sparse.get 0 t.loupe.bins k = 0) ∧
      (∀ k, gone k = false → Sparse.get 0 t.loupe.bins k = Sparse.get 0 s.loupe.bins k) ∧ OnlyChanges [.loupe] s t
    (n = 0x7F → clears fun _ => true) ∧ (n.toNat < 64 → clears fun k => k / 16 == n.toNat) ∧
    (64 ≤ n.toNat → n ≠ 0x7F → exec (.histClear p data) s = .next s)

/-! ## Register accesses -/

/-- While RING is 1, a write of the command area, of SEQ or of 1 to RING leaves the mailbox as it stands and sets
OVERRUN, whichever path makes it and whether it has 4 bytes or 8. A write of 1 to CANCEL beside RING has its own effect. -/
def Obligations.RingHoldsMailbox : Prop :=
  ∀ (p : Path) (off bytes : Nat) (data : W64) (s : State), CanonicalMbx s.mbx →
    bytes = 4 ∨ (bytes = 8 ∧ p ≠ .smbus) → off % bytes = 0 →
    (0x1000 ≤ off ∧ off < 0x1100) ∨ off = 0x1208 ∨ (off = 0x1200 ∧ bytes = 4 ∧ data.getLsbD 0 = true) →
    s.Serves ⟨p, BitVec.ofNat 22 off, bytes, true, true, data, 0⟩ → (s.box (pathMailbox p)).ring = true →
    ∃ t, exec (.registerWrite p (BitVec.ofNat 22 off) bytes true data) s = .next t ∧
      t.box (pathMailbox p) = { s.box (pathMailbox p) with
        overrun := true
        ring := !(decide (off = 0x1200) && data.getLsbD 1 && !(s.box (pathMailbox p)).taken) } ∧
      (∀ k, k ≠ pathMailbox p → t.box k = s.box k) ∧ t.mbx.fw = s.mbx.fw ∧ OnlyChanges [.mbx] s t

/-- While RING is 0, a write of 4 bytes of the command area stores them, least significant first, and a write of SEQ
stores the sequence number. The bytes read back where the area is in its canonical form (R183, R190, R200). -/
def Claims.CommandAreaWritten : Prop :=
  ∀ (p : Path) (data : W32) (s : State), CanonicalMbx s.mbx → (s.box (pathMailbox p)).ring = false →
    let b := s.box (pathMailbox p)
    (∀ off, off % 4 = 0 → off < 0x100 → s.Serves (wordWrite p (0x1000 + off) data) →
      ∃ t, exec (.registerWrite p (BitVec.ofNat 22 (0x1000 + off)) 4 true (data.setWidth 64)) s = .next t ∧
        (Sparse.wf 0 b.cmd = true → ∀ i, i < 4 → Sparse.get 0 (t.box (pathMailbox p)).cmd (off + i) = byteAt data i) ∧
        (∀ k, k < off ∨ off + 4 ≤ k → Sparse.get 0 (t.box (pathMailbox p)).cmd k = Sparse.get 0 b.cmd k) ∧
        t.box (pathMailbox p) = { b with cmd := (t.box (pathMailbox p)).cmd } ∧
        (∀ k, k ≠ pathMailbox p → t.box k = s.box k) ∧ OnlyChanges [.mbx] s t) ∧
    (s.Serves (wordWrite p 0x1208 data) →
      ∃ t, exec (.registerWrite p 0x1208 4 true (data.setWidth 64)) s = .next t ∧
        t.box (pathMailbox p) = { b with seq := data.setWidth 16 } ∧
        (∀ k, k ≠ pathMailbox p → t.box k = s.box k) ∧ OnlyChanges [.mbx] s t)

/-- An access of no admitted form is not performed: SIZE of the path's ACCESS_STATUS is set, ACCESS_FIRST is filled when
it holds nothing, and a read returns a zero in every byte (R370). A completion address is left aside (R136). -/
def Claims.AccessRefused : Prop :=
  ∀ (p : Path) (offset : BitVec 22) (bytes : Nat) (full write : Bool) (data : W64) (s : State), CanonicalTen s.ten →
    s.presented p = true → s.hm.inReset = none → pathFm p = true →
    admitted ⟨p, offset, bytes, full, write, data, 0⟩ = false →
    ¬ (0x100000 ≤ offset.toNat ∧ offset.toNat < 0x200000) →
    ∃ t, exec (if write then .registerWrite p offset bytes full data else .registerRead p offset bytes full) s = .next t ∧
      t.ten = { s.ten with fmAccess :=
        if s.ten.fmAccess.valid then { s.ten.fmAccess with size := true }
        else { s.ten.fmAccess with size := true, valid := true, write := write, offset := offset } } ∧
      (write = false → t.bnd.lastRead = List.replicate bytes 0) ∧
      OnlyChanges (if write then [.ten] else [.ten, .bnd]) s t

/-- A read of 4 bytes on an MPU unit's page answers the register, and clears nothing but the violation count of MPU-L
or MPU-D, whose bytes it answers before they clear (R7, R240, R249). -/
def Claims.MpuRegisterRead : Prop :=
  ∀ (p : Path) (u : Nat) (off : Nat) (s : State), pathFm p = true → u < 3 → off < 0x400 → off % 4 = 0 →
    s.halfOf p = none → s.Serves (wordRead p (0x20000 + 0x400 * u + off)) →
    ∃ t, exec (.registerRead p (BitVec.ofNat 22 (0x20000 + 0x400 * u + off)) 4 true) s = .next t ∧
      t.bnd.lastRead = bytesLE 4 (s.mpuWord u off).toNat ∧ t.bnd.lastStatus = .successful ∧
      (off ≠ 0x14 ∨ u = 0 → OnlyChanges [.bnd] s t) ∧
      (off = 0x14 → u ≠ 0 → t.mpu u = { s.mpu u with count := 0 } ∧ OnlyChanges [.acu, .bnd] s t)

/-- A read of the low word of the frame count latches the high word for its path, so that the two words belong to one
count (R50). -/
def Claims.FrameCountLatched : Prop :=
  ∀ (p : Path) (s : State), CanonicalTen s.ten → s.halfOf p = none → s.Serves (wordRead p 0x10) →
    let hi : W32 := field s.frame.count 32 32
    ∃ t, exec (.frameCountLoRead p) s = .next t ∧ t.bnd.lastRead = bytesLE 4 (s.frame.count.setWidth 32 : W32).toNat ∧
      t.frameLatch p = hi ∧
      (match p with
        | .tenant n => t.tenant n = { s.tenant n with frameLatch := hi } ∧ (∀ k, k ≠ n → t.tenant k = s.tenant k) ∧
            OnlyChanges [.ten, .bnd] s t
        | .manager => t.frame = { s.frame with latchManager := hi } ∧ OnlyChanges [.frame, .bnd] s t
        | .smbus => t.frame = { s.frame with latchSmbus := hi } ∧ OnlyChanges [.frame, .bnd] s t)

/-- The sideband's transactions: one without a good PEC, at a misaligned offset or with a bad count is NACKed and changes
nothing; a Block Write of four bytes is one register write and a Process Call reads its count of bytes (R197). -/
def Obligations.SidebandTransactions : Prop :=
  ∀ (s : State), s.hm.powerOff = false →
    (∀ offset data pec, pec = false ∨ offset.toNat % 4 ≠ 0 ∨ data.length = 0 ∨ 7 < data.length →
      exec (.smbusBlockWrite offset data pec) s = .next (s.setBnd { s.bnd with lastNack := true })) ∧
    (∀ offset count pec, pec = false ∨ offset.toNat % 4 ≠ 0 ∨ count.toNat < 4 ∨ 32 < count.toNat ∨ count.toNat % 4 ≠ 0 →
      exec (.smbusProcessCall offset count pec) s = .next (s.setBnd { s.bnd with lastNack := true })) ∧
    (∀ data, s.Serves (wordWrite .smbus 0x20 data) →
      ∃ t, exec (.smbusBlockWrite 0x20 [data] true) s = .next t ∧ t.ten = { s.ten with viewSmbus := data &&& 0x833F003F } ∧
        t.bnd = { s.bnd with lastNack := false } ∧ OnlyChanges [.ten, .bnd] s t) ∧
    (s.bnd.halfSmbus = none → s.Serves (wordRead .smbus 0x20) →
      ∃ t, exec (.smbusProcessCall 0x20 4 true) s = .next t ∧
        t.bnd = { s.bnd with lastNack := false, lastRead := bytesLE 4 s.ten.viewSmbus.toNat, lastStatus := .successful } ∧ OnlyChanges [.bnd] s t)

/-! ## Access control units and the debug master -/

/-- MPU_CTRL of MPU-L and MPU-D takes ENABLE and clears the flags written 1, with no access stalled; the registers of MPU-C take no write, as the
kernel alone writes its rules (R244, R249). -/
def Claims.MpuEnableWritten : Prop :=
  ∀ (p : Path) (unit : BitVec 2) (data : W32) (s : State), pathFm p = true → s.Serves (wordWrite p (unitOffset unit 0) data) →
    s.acu.tap.busy = false → (∀ b ∈ s.mbx.boxes, b.2.load = none) →
    let u := unit.toNat
    (u = 1 ∨ u = 2 → ∃ t, exec (.mpuEnableWrite p unit data) s = .next t ∧
      t.mpu u = { s.mpu u with
        enable := data.getLsbD 0, badRegion := (s.mpu u).badRegion && !data.getLsbD 2
        writeRefused := (s.mpu u).writeRefused && !data.getLsbD 3 } ∧
      (∀ k, k < 3 → k ≠ u → t.mpu k = s.mpu k) ∧ t.acu.tap = s.acu.tap ∧ OnlyChanges [.acu] s t) ∧
    (u = 0 → exec (.mpuEnableWrite p unit data) s = .next s)

/-- A write of a region register of MPU-L or MPU-D changes that register of that region; a SIZE_LOG2 or TAG above its
range sets BAD_REGION. While the region is locked for a bound tenant without consent the write is refused and sets
WRITE_REFUSED. MPU-C takes no write (R234, R241, R249). -/
def Claims.MpuRegionWritten : Prop :=
  ∀ (p : Path) (unit : BitVec 2) (n : BitVec 4) (reg : BitVec 2) (data : W32) (s : State), pathFm p = true →
    s.Serves (wordWrite p (unitOffset unit (0x100 + 16 * n.toNat + 4 * reg.toNat)) data) →
    let u := unit.toNat
    let old := (s.mpu u).region n.toNat
    let i : Instr := .mpuRegionWrite p unit n reg data
    let writes (r : Region) (bad : Bool) : Prop := ∃ t, exec i s = .next t ∧
      (t.mpu u).region n.toNat = r ∧ (t.mpu u).badRegion = ((s.mpu u).badRegion || bad) ∧
      (t.mpu u).enable = (s.mpu u).enable ∧ (∀ k, k ≠ n.toNat → (t.mpu u).region k = (s.mpu u).region k) ∧
      (∀ k, k < 3 → k ≠ u → t.mpu k = s.mpu k) ∧ OnlyChanges [.acu] s t
    (u = 0 → exec i s = .next s) ∧
    (u = 1 ∨ u = 2 → n.toNat < regionCount u → Sparse.wf {} (s.mpu u).regions = true → s.protectedRegion old = false →
      (reg = 0 → writes { old with base := (field old.base 32 8 : BitVec 8) ++ (data &&& 0xFFFFFFC0) } false) ∧
      (reg = 1 → writes { old with base := (data.setWidth 8 : BitVec 8) ++ (field old.base 0 32 : W32) } false) ∧
      (reg = 2 → writes { old with
          size := field data 16 6, tag := field data 8 7, lock := data.getLsbD 4, priv := data.getLsbD 3
          x := data.getLsbD 2, w := data.getLsbD 1, r := data.getLsbD 0 }
        (decide (40 < (field data 16 6 : BitVec 6).toNat) || decide (0x40 < (field data 8 7 : BitVec 7).toNat)))) ∧
    (u = 1 ∨ u = 2 → n.toNat < regionCount u → reg ≠ 3 → s.protectedRegion old = true → ∃ t, exec i s = .next t ∧
      t.mpu u = { s.mpu u with writeRefused := true } ∧ (∀ k, k < 3 → k ≠ u → t.mpu k = s.mpu k) ∧
      OnlyChanges [.acu] s t)

/-- The barrier of the compatible path answers DONE: in the model every write is in force when it is made, so the read
that follows answers at once and nothing changes but the read itself (R245). -/
def Claims.MpuSyncAnswers : Prop :=
  ∀ (p : Path) (unit : BitVec 2) (s : State), pathFm p = true → unit.toNat < 3 → s.halfOf p = none →
    s.Serves (wordWrite p (unitOffset unit 4) 0x80000000) → s.Serves (wordRead p (unitOffset unit 4)) →
    ∃ t, exec (.mpuSync p unit) s = .next t ∧
      t.bnd = { s.bnd with lastRead := [1, 0, 0, 0], lastStatus := .successful } ∧ OnlyChanges [.bnd] s t

/-- MPU_CONFIG writes one region of MPU-L or MPU-D and leaves the unit enabled; a protected region answers LOCKED and
the FM's write to MPU-C answers DENIED, and neither changes a rule (R224, R241, R244). -/
def Claims.MpuConfigured : Prop :=
  ∀ (m : BitVec 7) (c : Snap) (s : State), CanonicalMbx s.mbx → s.acu.tap.busy = false → (∀ b ∈ s.mbx.boxes, b.2.load = none) →
    s.Holds m 0x50 c →
    snapField c 0x0A 1 = 1 →
    let u := snapField c 0x08 1
    let n := snapField c 0x09 1
    let size := snapField c 0x0B 1
    let tag := snapField c 0x0D 1
    let base := snapField c 0x10 8
    let r := regionAttr { base := BitVec.ofNat 40 (base / 64 * 64) } (BitVec.ofNat 6 size) (BitVec.ofNat 7 tag)
      ((snapByte c 0x0C).setWidth 5)
    (u = 1 ∨ u = 2 → n < regionCount u → size ≤ 40 → (6 ≤ size → base % 2 ^ size = 0) → tag ≤ 0x40 →
      s.isOn dCORE = true →
      (s.protectedRegion ((s.mpu u).region n) = false → ∃ t, exec (.mpuConfigWrite m) s = .next t ∧
        t.mpu u = { (s.mpu u).setRegion n r with enable := true } ∧ (∀ k, k < 3 → k ≠ u → t.mpu k = s.mpu k) ∧
        Answered m (mpuReply u n r) s t ∧ OnlyChanges [.acu, .mbx] s t) ∧
      (s.protectedRegion ((s.mpu u).region n) = true → ∃ t, exec (.mpuConfigWrite m) s = .next t ∧
        Answered m (refuse stLocked 0x09) s t ∧ OnlyChanges [.mbx] s t)) ∧
    (u = 0 → n < 16 → ∃ t, exec (.mpuConfigWrite m) s = .next t ∧ Answered m (refuse stDenied 0x08) s t ∧
      OnlyChanges [.mbx] s t)

/-- A debug access that MPU-D allows reads or writes the agent RAM it names; one that MPU-D refuses returns the error
response and is counted as a violation; one of SIZE 3 is an error at once; and a START while the master is busy changes
nothing (R239, R240, R388). -/
def Obligations.DebugAccessMade : Prop :=
  ∀ (req : DebugReq) (s : State), s.hm.inReset = none → s.hm.powerOff = false →
    let size := 2 ^ req.size.toNat
    let x : Access := ⟨if req.write then 1 else 0, size, req.addr.toNat, false, none⟩
    let master (error : Bool) (data : W32) : Tap :=
      { busy := false, write := req.write, size := req.size, error := error, addr := req.addr, data := data }
    (s.acu.tap.busy = true → exec (.debugAccess req) s = .next s) ∧
    (s.acu.tap.busy = false → req.size = 3 → ∃ t, exec (.debugAccess req) s = .next t ∧
      t.acu = { s.acu with tap := master true 0 } ∧ OnlyChanges [.acu] s t) ∧
    (s.acu.tap.busy = false → req.size ≠ 3 → s.acu.mpuD.enable = true → s.isOn dCORE = true → s.isOn dCTRL = true →
      0x4000000 ≤ req.addr.toNat → req.addr.toNat + size ≤ 0x4080000 →
      let at_ := req.addr.toNat - 0x4000000
      (decideByte s 2 x req.addr.toNat).allowed = true ∧ (decideByte s 2 x (req.addr.toNat + size - 1)).allowed = true →
      (decideByte s 2 x req.addr.toNat).opened = none → (decideByte s 2 x (req.addr.toNat + size - 1)).opened = none →
      (req.write = true → Sparse.wf none s.acu.ram = true → ∃ t, exec (.debugAccess req) s = .next t ∧
        t.acu.tap = master false req.data ∧
        (∀ i, i < size → Sparse.get none t.acu.ram (at_ + i) = some (byteAt req.data i)) ∧
        (∀ a, a < at_ ∨ at_ + size ≤ a → Sparse.get none t.acu.ram a = Sparse.get none s.acu.ram a) ∧
        (∀ k, t.mpu k = s.mpu k) ∧ OnlyChanges [.acu] s t) ∧
      (req.write = false → ∃ t data, exec (.debugAccess req) s = .next t ∧
        t.acu = { s.acu with tap := master false data } ∧
        (∀ i b, i < size → Sparse.get none s.acu.ram (at_ + i) = some b → byteAt data i = b) ∧
        OnlyChanges [.acu, .ras] s t)) ∧
    (s.acu.tap.busy = false → req.size ≠ 3 → s.acu.mpuD.enable = true → s.isOn dCORE = true → s.isOn dCTRL = true →
      0x4000000 ≤ req.addr.toNat → req.addr.toNat + size ≤ 0x4080000 →
      ¬ ((decideByte s 2 x req.addr.toNat).allowed = true ∧ (decideByte s 2 x (req.addr.toNat + size - 1)).allowed = true) →
      ∃ t, exec (.debugAccess req) s = .next t ∧ t.acu.tap = master true 0 ∧ t.acu.ram = s.acu.ram ∧
        t.acu.mpuD.count = satInc s.acu.mpuD.count ∧ t.acu.mpuD.viol.valid = true ∧
        t.acu.mpuD.regions = s.acu.mpuD.regions ∧ OnlyChanges [.acu, .sys, .pwr] s t)

/-! ## The tick -/

/-- A frame ends with its period and its slew: what TIME_NS counts. -/
def Claims.frameLength (u : FrameUnit) : W64 := BitVec.ofInt 64 ((u.oldPeriod.getD u.current).toNat + u.adjust)

/-- At a tick of a running chip with no access waiting FRAME_COUNT rises by 1 and TIME_NS by the length of the frame that
ended; a pending period change counts down, and at its tick the requested period is in force. Until then, and with no
change pending, the period stands unless a marker's period is to be taken (R26, R28, R29, R31, R32). -/
def Claims.FrameTicked : Prop :=
  ∀ (inp : TickIn) (s : State), s.hm.inReset = none → s.hm.powerOff = false → s.frame.running = true →
    s.stopping = false → s.coreOn = true → s.pwr.firstTick = none → s.pwr.waiting = [] →
    ∃ t, exec (.frameTick inp) s = .next t ∧
      t.frame.count = s.frame.count + 1 ∧ t.frame.localTicks = s.frame.localTicks + 1 ∧
      t.frame.timeCycles = s.frame.timeCycles + Claims.frameLength s.frame ∧
      (s.frame.changePending = true → s.frame.ticksLeft ≤ 1 →
        t.frame.current = s.frame.request ∧ t.frame.changePending = false) ∧
      (s.frame.changePending = true → 1 < s.frame.ticksLeft →
        t.frame.changePending = true ∧ t.frame.ticksLeft = s.frame.ticksLeft - 1 ∧
        (s.frame.followPeriod = none → t.frame.current = s.frame.current)) ∧
      (s.frame.changePending = false → s.frame.followPeriod = none → t.frame.current = s.frame.current) ∧
      t.frame.running = true ∧ t.hm = s.hm ∧ t.bnd = s.bnd ∧ t.pending = s.pending

/-- The first tick after a sleep: FRAME_COUNT rises by 1 and by the whole frames that the sleep lasted, and TIME_NS by
the sleep, converted with the period in force at the stop instant; the sleep's length and its error bound are recorded
(R322, R323). -/
def Claims.FirstTickCounts : Prop :=
  ∀ (inp : TickIn) (l : BitVec 48) (s : State), s.hm.inReset = none → s.hm.powerOff = false → s.frame.running = true →
    s.stopping = false → s.coreOn = true → s.pwr.firstTick = some l → s.pwr.waiting = [] →
    let g := sleepCycles l.toNat s.pwr.stopCal.toNat
    ∃ t, exec (.frameTick inp) s = .next t ∧
      t.frame.count = s.frame.count + 1 + BitVec.ofNat 64 (g / s.frame.stopPeriod.toNat) ∧
      t.frame.timeCycles = s.frame.timeCycles + BitVec.ofNat 64 g ∧
      t.frame.sleepErrNs = s.frame.sleepErrNs + BitVec.ofNat 64 (sleepBound g) ∧
      t.frame.sleeps = s.frame.sleeps + 1 ∧ t.hm = s.hm ∧ t.bnd = s.bnd ∧ t.pending = s.pending

/-- The stop instant takes the place of CORE's next tick: the running frame ends, every decision not committed is
withdrawn, the period in force is kept for the sleep's conversion, FRAME_COUNT stands, and no tick follows. While CORE is not ON the frame period ends with no tick (R314). -/
def Claims.FramesStop : Prop :=
  ∀ (inp : TickIn) (s : State), s.hm.inReset = none → s.hm.powerOff = false → s.frame.running = true →
    (s.stopping = true → ∃ t, exec (.frameTick inp) s = .next t ∧ t.pwr.stopped = true ∧ t.pwr.stopCal = t.pwr.lktCal ∧
      t.tgt.emitted = [] ∧ t.frame.count = s.frame.count ∧ t.frame.stopPeriod = s.frame.current ∧
      t.frame.timeCycles = s.frame.timeCycles + Claims.frameLength s.frame ∧
      OnlyChanges [.frame, .tgt, .ten, .sys, .pwr, .loupe] s t) ∧
    (s.stopping = false → s.coreOn = false → exec (.frameTick inp) s = .next s)

/-! ## The ports of the Chain -/

/-- A port trains anew: it stands in DETECT with no lane chosen or marked, and the codes configured now serve it; what it counted, the other port and the rest of the
block stand, and the bypass retimer is off. -/
def Claims.trainsAnew (p : PortId) (failed : Bool) (l : LinkPort) (s t : State) : Prop :=
  (t.phy p).state = .detect ∧ (t.phy p).signal = 0 ∧ (t.phy p).locked = 0 ∧ (t.phy p).good = 0 ∧
  (t.phy p).rxLanes = 0 ∧ (t.phy p).txLanes = 0 ∧ (t.phy p).acks = 0 ∧
  (t.phy p).trainFail = ((s.phy p).trainFail || failed) ∧ (t.phy p).attempts = (s.phy p).attempts ∧
  (t.phy p).ups = (s.phy p).ups ∧ (t.phy p).lockLosses = (s.phy p).lockLosses ∧
  t.phy (opposite p) = s.phy (opposite p) ∧ t.linkPort p = l ∧ t.linkPort (opposite p) = s.linkPort (opposite p) ∧
  (t.phy p).markedBad = 0 ∧ (t.phy p).trainCtle = (s.portCfg p).ctle ∧ t.chain.retimerOn = false ∧ OnlyChanges [.chain] s t

/-- Training moves a port from DETECT by signal on two lanes, by CDR lock on every lane with signal, and by the check of
the lanes, whose codes in force are the first that pass; a lane marked bad is no good lane. A timeout counts an attempt or
starts anew (R253, R255, R357). -/
def Claims.TrainingBegins : Prop :=
  ∀ (p : PortId) (s : State), s.isOn (portDomain p) = true →
    ((s.phy p).state = .detect →
      (∀ lanes, 2 ≤ countLanes lanes → exec (.signalDetect p lanes) s =
        .next (s.setPhy p { s.phy p with state := .cdrLock, signal := lanes })) ∧
      (∀ lanes, countLanes lanes < 2 → exec (.signalDetect p lanes) s = .next s) ∧
      exec (.detectTimeout p) s = .next (s.setPhy p { s.phy p with attempts := satInc (s.phy p).attempts })) ∧
    ((s.phy p).state = .cdrLock →
      (∀ lanes, (s.phy p).signal &&& ~~~ lanes = 0 → exec (.cdrLock p lanes) s =
        .next (s.setPhy p { s.phy p with
          state := .pam4Check, locked := (s.phy p).signal, markedBad := (s.phy p).markedBad ||| ~~~ (s.phy p).signal
          txCode := 0, rxCode := 0 })) ∧
      ∃ t, exec (.cdrLockTimeout p) s = .next t ∧ Claims.trainsAnew p false (s.linkPort p) s t) ∧
    ((s.phy p).state = .pam4Check → ∀ errors, ∃ t, exec (.pam4Check p errors) s = .next t ∧
      (t.phy p).state = .laneMap ∧ (t.phy p).signal = (s.phy p).signal ∧ (t.phy p).locked = (s.phy p).locked ∧
      (∀ l, l < 3 →
        let code : Option Nat := if (s.phy p).signal.getLsbD l then
          passingCode (field (s.phy p).trainCtle (4 * l) 4 : BitVec 4).toNat (errors.getD l []) else none
        (t.phy p).good.getLsbD l = (code.isSome && !(s.phy p).markedBad.getLsbD l) ∧
        (t.phy p).failed.getLsbD l = ((s.phy p).signal.getLsbD l && code.isNone) ∧
          (field (t.phy p).inForce (4 * l) 4 : BitVec 4) = BitVec.ofNat 4 (code.getD 0)) ∧
      t.phy (opposite p) = s.phy (opposite p) ∧ (∀ q, t.linkPort q = s.linkPort q) ∧ OnlyChanges [.chain, .ras] s t)

/-- A training set from a port of the other side and another chip, with two good lanes at both ends, chooses the lanes
and answers it with this end's own set; the eighth acknowledgement received with the eighth sent ends LANE_MAP. A wrong
pairing, an equal chip ID or too few good lanes starts anew with TRAIN_FAIL, as a timeout of DESKEW does; a timeout of LINK_INIT sets INIT_FAIL, and DOWN ends in DETECT (R255, R256,
R271). -/
def Claims.TrainingEnds : Prop :=
  ∀ (p : PortId) (s : State), s.isOn (portDomain p) = true →
    ((s.phy p).state = .laneMap → ∀ b : BitVec 128,
      (trainingSetOk b = false → exec (.trainingSetReceive p b) s = .next (s.setPhy p { s.phy p with acks := 0 })) ∧
      (trainingSetOk b = true →
        (b.getLsbD 68 = (p == .west) ∨ (field b 64 4 : Chip) = s.chipId → ∃ t, exec (.trainingSetReceive p b) s = .next t ∧
          Claims.trainsAnew p true (s.linkPort p) s t ∧
          (b.getLsbD 68 = (p == .west) → (t.phy p).wiring = true) ∧
          (b.getLsbD 68 ≠ (p == .west) → (t.phy p).idClash = true)) ∧
        (b.getLsbD 68 ≠ (p == .west) → (field b 64 4 : Chip) ≠ s.chipId →
          chooseLanes s.chainMode (field b 72 3) = none ∨ countLanes (s.phy p).good < 2 →
          ∃ t, exec (.trainingSetReceive p b) s = .next t ∧ Claims.trainsAnew p true (s.linkPort p) s t) ∧
        (∀ tx, b.getLsbD 68 ≠ (p == .west) → (field b 64 4 : Chip) ≠ s.chipId →
          chooseLanes s.chainMode (field b 72 3) = some tx → 2 ≤ countLanes (s.phy p).good →
          let agree := setAgrees s.chainMode (s.phy p) b
          let own := packSet s.chipId (p == .west) s.chainMode (s.phy p).good tx true agree
          ∃ t, exec (.trainingSetReceive p b) s = .next t ∧
            (t.phy p).peerChip = field b 64 4 ∧ (t.phy p).chosenValid = true ∧ (t.phy p).txLanes = tx ∧
            (t.phy p).rxLanes = (if agree then field b 75 3 else (s.phy p).rxLanes) ∧
            (t.phy p).acks = (if agree && b.getLsbD 79 then (s.phy p).acks + 1 else 0) ∧
            (t.phy p).acksSent = (if agree then (s.phy p).acksSent + 1 else 0) ∧
            (t.phy p).state = (if 8 ≤ (t.phy p).acks ∧ 8 ≤ (t.phy p).acksSent then .deskew else .laneMap) ∧
            (t.phy p).sent = ((List.range 3).map fun l => (precodeBlock (laneCode (s.phy p).txCode l) own).1) ∧
            t.phy (opposite p) = s.phy (opposite p) ∧ (∀ q, t.linkPort q = s.linkPort q) ∧
            OnlyChanges [.chain] s t))) ∧
    ((s.phy p).state = .deskew → ∃ t, exec (.deskewTimeout p) s = .next t ∧
      Claims.trainsAnew p true (s.linkPort p) s t) ∧
    ((s.phy p).state = .linkInit → ∃ t, exec (.initTimeout p) s = .next t ∧
      Claims.trainsAnew p false { s.linkPort p with initFail := true } s t) ∧
    ((s.phy p).state = .down → ∃ t, exec (.downRetry p) s = .next t ∧
      Claims.trainsAnew p false (s.linkPort p) s t)

/-- A lane that loses its lock leaves the locked lanes. In UP a data lane with the standing spare locked starts sparing,
and any other lane in use takes the port to LOCK_LOST, as the end of the time for sparing does. A valid marker that
aligns every lane in use ends DESKEW in LINK_INIT and LOCK_LOST in UP. In LOCK_LOST the tick that reaches LINK_DOWN_TIME
declares the link down: its flits and its table are gone, and the port's link-down level is 1 (R255, R257, R258, R278). -/
def Claims.LockAndDown : Prop :=
  ∀ (p : PortId) (s : State), CanonicalSys s.sys → s.isOn (portDomain p) = true →
    let lost (u : PhyPort) : Prop := u.state = .lockLost ∧ u.lockLostEv = true ∧
      u.lockLosses = satInc (s.phy p).lockLosses ∧ u.downTicks = 0
    let frame (t : State) : Prop := t.phy (opposite p) = s.phy (opposite p) ∧ (∀ q, t.linkPort q = s.linkPort q) ∧
      OnlyChanges [.chain] s t
    ((s.phy p).state = .up → ∀ lane : BitVec 2, lane.toNat < 3 → (s.phy p).locked.getLsbD lane.toNat = true →
      (s.phy p).rxLanes.getLsbD lane.toNat = true → ∃ t, exec (.laneLockLoss p lane) s = .next t ∧
        (t.phy p).locked = putBit (s.phy p).locked lane.toNat false ∧ (t.phy p).laneLost = true ∧
        (∀ k, laneRole s.chainMode lane.toNat = some k → standingSpare s.chainMode (s.phy p) = true →
          (t.phy p).state = .sparing ∧ (t.phy p).spareReq = some (BitVec.ofNat 2 k)) ∧
        (laneRole s.chainMode lane.toNat = none ∨ standingSpare s.chainMode (s.phy p) = false → lost (t.phy p)) ∧
        frame t) ∧
    ((s.phy p).state = .sparing → ∃ t, exec (.sparingTimeout p) s = .next t ∧ lost (t.phy p) ∧ frame t) ∧
    (∀ (lane : BitVec 2) (b : BitVec 128), lane.toNat < 3 → markerOk lane.toNat b = true →
      aligned (noteMarker (takeBlock (s.phy p) lane.toNat b) lane.toNat (field b 80 16 : BitVec 16).toNat) (field b 80 16 : BitVec 16).toNat = true →
      ((s.phy p).state = .deskew → ∃ t, exec (.markerBlock p lane b) s = .next t ∧ (t.phy p).state = .linkInit ∧
        t.linkPort p = { s.linkPort p with initSeen := false, echoes := 0, bestDelay := none, echoDue := [], initWait := 0 } ∧
        t.linkPort (opposite p) = s.linkPort (opposite p) ∧ t.phy (opposite p) = s.phy (opposite p) ∧
        OnlyChanges [.chain] s t) ∧
      ((s.phy p).state = .lockLost → ∃ t, exec (.markerBlock p lane b) s = .next t ∧ (t.phy p).state = .up ∧
        (t.phy p).ups = satInc (s.phy p).ups ∧ (t.phy p).downTicks = 0 ∧ t.level (downSource p) = false ∧
        OnlyChanges [.chain, .sys, .pwr] s t)) ∧
    ((s.phy p).state = .lockLost →
      ((s.phy p).downTicks + 1 < (s.portCfg p).ldtNext.toNat → exec (.linkDown p) s = .next s) ∧
      ((s.portCfg p).ldtNext.toNat ≤ (s.phy p).downTicks + 1 → ∃ t, exec (.linkDown p) s = .next t ∧
        (t.phy p).state = .down ∧ t.phy (opposite p) = s.phy (opposite p) ∧ t.distTable p = 0 ∧
        (t.linkPort p).replayBuf = [] ∧ (t.linkPort p).transit = [] ∧ (t.linkPort p).own = [] ∧
        t.level (downSource p) = true ∧ OnlyChanges [.chain, .sys, .pwr] s t))

/-! ## CHAIN_CONFIG and the initialisation of a link -/

/-- CHAIN_CONFIG that passes its checks: SET_LDT and SET_CTLE write the configuration of the port and leave its link
alone; DISABLE takes the port to DISABLED, RETRAIN and ENABLE to DETECT, with the link declared down when it was up.
The reply tells the port as the action leaves it. A check that fails refuses with its status and changes nothing
(R225, R253, R255, R278). -/
def Claims.ChainConfigured : Prop :=
  ∀ (m : BitVec 7) (c : Snap) (s : State), CanonicalMbx s.mbx → CanonicalSys s.sys → s.Holds m 0x51 c →
    let p : PortId := if snapField c 0x08 1 = 0 then .east else .west
    let other (t : State) : Prop := t.phy (opposite p) = s.phy (opposite p) ∧ t.portCfg (opposite p) = s.portCfg (opposite p)
    let declared (t : State) : Prop := s.linkUp p = true → t.distTable p = 0 ∧ t.level (downSource p) = true ∧
      (t.linkPort p).replayBuf = [] ∧ (t.linkPort p).transit = [] ∧ (t.linkPort p).own = []
    let bare (u : PhyPort) : Prop := u.rxLanes = 0 ∧ u.txLanes = 0 ∧ u.signal = 0 ∧ u.locked = 0 ∧ u.good = 0
    (∀ st off, chainCheck s c = some (st, off) →
      let no (i : Instr) : Prop := ∃ t, exec i s = .next t ∧ Answered m (refuse st off) s t ∧ OnlyChanges [.mbx] s t
      ((snapByte c 9).getLsbD 0 = true ∨ snapByte c 9 = 0 → no (.setLdt m)) ∧
      ((snapByte c 9).getLsbD 1 = true → no (.setCtle m)) ∧ ((snapByte c 9).getLsbD 2 = true → no (.chainRetrain m)) ∧
      ((snapByte c 9).getLsbD 3 = true → no (.chainDisable m)) ∧
      ((snapByte c 9).getLsbD 4 = true → no (.chainEnable m))) ∧
    (chainCheck s c = none → s.allOn [dTGT, dCORE, portDomain p] = true →
      (snapByte c 9 = 1 → ∃ t, exec (.setLdt m) s = .next t ∧
        t.portCfg p = { s.portCfg p with ldtNext := snapByte c 0x0A } ∧ (∀ q, t.phy q = s.phy q) ∧
        (∀ q, t.linkPort q = s.linkPort q) ∧ other t ∧ Answered m (chainReply t p) s t ∧ OnlyChanges [.chain, .mbx] s t) ∧
      (snapByte c 9 = 2 → ∃ t, exec (.setCtle m) s = .next t ∧
        t.portCfg p = { s.portCfg p with
          ctle := (snapByte c 0x0E).setWidth 4 ++ (snapByte c 0x0D).setWidth 4 ++ (snapByte c 0x0C).setWidth 4 } ∧
        (∀ q, t.phy q = s.phy q) ∧ (∀ q, t.linkPort q = s.linkPort q) ∧ other t ∧
        Answered m (chainReply t p) s t ∧ OnlyChanges [.chain, .mbx] s t) ∧
      (snapByte c 9 = 8 → ∃ t, exec (.chainDisable m) s = .next t ∧ (t.phy p).state = .disabled ∧ bare (t.phy p) ∧
        t.portCfg p = s.portCfg p ∧ other t ∧ declared t ∧ Answered m (chainReply t p) s t ∧
        OnlyChanges [.chain, .sys, .pwr, .mbx] s t) ∧
      (snapByte c 9 = 4 → (s.phy p).state ≠ .disabled → ∃ t, exec (.chainRetrain m) s = .next t ∧
        (t.phy p).state = .detect ∧ bare (t.phy p) ∧ t.portCfg p = s.portCfg p ∧ other t ∧ declared t ∧
        t.chain.retimerOn = false ∧ Answered m (chainReply t p) s t ∧ OnlyChanges [.chain, .sys, .pwr, .mbx] s t) ∧
      (snapByte c 9 = 16 → (s.phy p).state = .disabled → ∃ t, exec (.chainEnable m) s = .next t ∧
        (t.phy p).state = .detect ∧ bare (t.phy p) ∧ t.portCfg p = s.portCfg p ∧ other t ∧
        t.chain.retimerOn = false ∧ Answered m (chainReply t p) s t ∧ OnlyChanges [.chain, .sys, .pwr, .mbx] s t))

/-- In LINK_INIT every valid INIT is owed an echo, and one of the peer gives its credits; each of four echoes gives a hop
delay, of which the least stands. Once the own part is done, an IDLE flit completes: sequence, credits and replay buffer
start afresh, the port is UP and its source is raised. A flit that fails R266 is counted and nothing else of it is used.
The words of every flit first pass the decoders of their lanes (R251, R266, R271). -/
def Claims.LinkInitialises : Prop :=
  ∀ (p : PortId) (f : Flit) (s : State), Coherent s → s.isOn (portDomain p) = true → (s.phy p).state = .linkInit →
    let l := s.linkPort p
    let v := s.setPhy p (takeWord s.chainMode (s.phy p) f)
    (flitGood f = false → ∀ turn, exec (.init p f turn) s = .next (v.setLinkPort p { l with
      crcErrors := satInc l.crcErrors, crcError := true })) ∧
    (flitGood f = true → flitType f = 4 → ∀ turn,
      let adv := unpackCredits (field f 176 72)
      let peer := decide ((field f 249 4 : Chip) = (s.phy p).peerChip)
      (creditsLegal adv = true → exec (.init p f turn) s = .next (v.setLinkPort p { l with
        echoDue := l.echoDue ++ [(field f 128 32, turn)], initSeen := l.initSeen || peer
        advertised := if peer then adv else l.advertised })) ∧
      (creditsLegal adv = false → exec (.init p f turn) s = .next v)) ∧
    (flitGood f = true → flitType f = 5 → ∀ arrival : W32,
      let d := echoDelay f arrival
      let least : BitVec 24 := match l.bestDelay with
        | some b => if d.toNat < b.toNat then d else b
        | none => d
      l.echoes < 4 → exec (.initEcho p f arrival) s = .next (v.setLinkPort p { l with
        echoes := l.echoes + 1, bestDelay := some least, hopDelay := if l.echoes = 3 then least else l.hopDelay })) ∧
    (flitGood f = true → flitType f = 0 →
      (ownPart l = false → exec (.idleFlitReceive p f) s = .next v) ∧
      (ownPart l = true → ∃ t, exec (.idleFlitReceive p f) s = .next t ∧
        (t.phy p).state = .up ∧ (t.phy p).ups = satInc (s.phy p).ups ∧
        t.linkPort p = { l with
          nextSeq := 0, expected := 0, lastAcked := 0xFFF, replayBuf := [], replayLeft := 0, consumed := {}
          returned := {}, freed := {}, nakSent := false, nakDue := false, linkDue := false, echoDue := [], sinceLink := 0 } ∧
        t.linkPort (opposite p) = s.linkPort (opposite p) ∧ t.phy (opposite p) = s.phy (opposite p) ∧
        t.level (downSource p) = false ∧ (s.isOn dCORE = true → (t.latch (upSource p)).arrival = true) ∧
        OnlyChanges [.chain, .sys, .pwr] s t))

/-! ## The link layer and the ring -/

/-- What a port sends next. In DESKEW it is IDLE. In LINK_INIT echoes go first, then the probe once in 16 flit cycles until
the own part is done, and IDLE otherwise. On a link that is up markers go first, then a LINK flit that is due, for a change,
a NAK, or 1,024 flit cycles without one, then a replay, and within the window a transit flit and an own one that have their
credits; else IDLE. The lanes carry it, which changes nothing of the link layer
(R251, R255, R267, R271, R272, R274, R276). -/
def Claims.FlitsSent : Prop :=
  ∀ (p : PortId) (now : W32) (s : State), s.isOn (portDomain p) = true →
    let l := s.linkPort p
    let m : LinkPort := { l with sinceLink := l.sinceLink + 1 }
    let sends (l' : LinkPort) : Prop := exec (.flitTransmit p now) s = .next (driveLanes (s.setLinkPort p l') p)
    let fresh (l' : LinkPort) (d : DataFlit) : LinkPort := { l' with
      nextSeq := l.nextSeq + 1, replayBuf := l.replayBuf ++ [(l.nextSeq, d)], consumed := consume l.consumed d
      lastTx := packData l.nextSeq d }
    (∀ v : State, (∀ q, (driveLanes v p).linkPort q = v.linkPort q) ∧
      (driveLanes v p).phy (opposite p) = v.phy (opposite p) ∧ OnlyChanges [.chain, .ras] v (driveLanes v p)) ∧
    ((s.phy p).state = .deskew → sends { l with lastTx := idleFlit }) ∧
    ((s.phy p).state = .linkInit →
      (∀ probe turn rest, l.echoDue = (probe, turn) :: rest → sends { l with
        echoDue := rest, lastTx := packEcho s.chipId probe turn, initWait := l.initWait - 1 }) ∧
      (l.echoDue = [] → ownPart l = false → l.initWait = 0 →
        sends { l with lastTx := packInit s.chipId (p == .west) now, initWait := 15 }) ∧
      (l.echoDue = [] → (ownPart l = true ∨ l.initWait ≠ 0) →
        sends { l with lastTx := idleFlit, initWait := l.initWait - 1 })) ∧
    (s.linkUp p = true →
      (∀ f since rest, l.ticks = (f, since) :: rest → sends { m with ticks := rest, lastTx := leavingTick f since now }) ∧
      (l.ticks = [] → linkFlitDue m = true → sends { m with
        lastTx := packLink l.nakDue (l.expected - 1) l.freed, linkDue := false, nakDue := false
        nakSent := l.nakSent || l.nakDue, sinceLink := 0 }) ∧
      (l.ticks = [] → linkFlitDue m = false →
        (∀ q d, 0 < l.replayLeft → l.replayBuf[l.replayBuf.length - l.replayLeft]? = some (q, d) →
          sends { m with replayLeft := l.replayLeft - 1, lastTx := packData q d }) ∧
        (l.replayLeft = 0 →
          (1024 ≤ l.replayBuf.length → sends { m with lastTx := idleFlit }) ∧
          (l.replayBuf.length < 1024 →
            (∀ t rest, firstReady (mayGo l false) TransitFlit.flit [] l.transit = some (t, rest) →
              (t.arrived = none → sends (fresh { m with transit := rest } t.flit)) ∧
              (∀ q, t.arrived = some q → exec (.flitTransmit p now) s = .next
                (driveLanes (freeCredits (s.setLinkPort p (fresh { m with transit := rest } t.flit)) q t.flit) p))) ∧
            (firstReady (mayGo l false) TransitFlit.flit [] l.transit = none →
              (∀ d rest, firstReady (mayGo l true) id [] l.own = some (d, rest) → sends (fresh { m with own := rest } d)) ∧
              (firstReady (mayGo l true) id [] l.own = none → sends { m with lastTx := idleFlit }))))))

/-- A DATA flit on a link that is up. A missing flit before it makes a NAK due unless one has been sent, and a copy makes
a LINK flit due. The next in sequence is accepted: an ill-formed one sets PROTOCOL, one for another chip is forwarded,
and the next LINK record of a live pair raises its line and advances ACKED, while a copy of a record is counted and has
no effect (R269, R273, R276, R282, R284). -/
def Claims.DataFlitsReceived : Prop :=
  ∀ (p : PortId) (f : Flit) (s : State), Coherent s → s.isOn (portDomain p) = true → s.linkUp p = true →
    flitGood f = true → flitType f = 1 →
    let l := s.linkPort p
    let d := (unpackData f).2
    let n := ((unpackData f).1 - l.expected).toNat
    let i : Instr := .dataFlitReceive p f
    let v := s.setPhy p (takeWord s.chainMode (s.phy p) f)
    let taken : LinkPort := { l with expected := l.expected + 1, nakSent := false, nakDue := false, linkDue := true }
    (1 ≤ n → n ≤ 2047 → exec i s = .next (v.setLinkPort p { l with nakDue := l.nakDue || !l.nakSent })) ∧
    (2048 ≤ n → exec i s = .next (v.setLinkPort p { l with linkDue := true })) ∧
    (n = 0 → recordsOk f d = false → ∃ t, exec i s = .next t ∧
      t.linkPort p = { taken with protocol := true, freed := (t.linkPort p).freed } ∧
      t.linkPort (opposite p) = s.linkPort (opposite p) ∧ (∀ c, t.pair c = s.pair c) ∧ OnlyChanges [.chain] s t) ∧
    (n = 0 → recordsOk f d = true → d.cls ≠ 2 → d.dst ≠ s.chipId → s.isLive d.dst = true → d.src ≠ s.chipId →
      s.linkUp (opposite p) = true → ∃ t, exec i s = .next t ∧ t.linkPort p = taken ∧
      t.linkPort (opposite p) = { s.linkPort (opposite p) with
        transit := (s.linkPort (opposite p)).transit ++ [⟨some p, d⟩] } ∧
      (∀ c, t.pair c = s.pair c) ∧ OnlyChanges [.chain] s t) ∧
    (n = 0 → recordsOk f d = true → d.cls = 0 → d.dst = s.chipId → ∀ r, d.records = [r] → (s.pair d.src).live = true →
      s.isOn dCORE = true →
      let pair := s.pair d.src
      let freed : Credits := { l.freed with edgeH := l.freed.edgeH + 1, edgeD := l.freed.edgeD + 1 }
      let line := 0x300 + 16 * d.src.toNat + (field r 0 4 : BitVec 4).toNat
      (recKind r ≠ 0 → (d.e2e - pair.acked).toNat = 1 → pair.ahead = [] →
        ((pair.acked + 1) - pair.lastAckSent).toNat < 512 → sysDefined line = true → ∃ t, exec i s = .next t ∧
        t.linkPort p = { taken with freed := freed } ∧ t.pair d.src = { pair with acked := pair.acked + 1 } ∧
        (∀ c, c ≠ d.src → t.pair c = s.pair c) ∧ (t.latch line).arrival = true ∧
        OnlyChanges [.chain, .sys, .loupe] s t) ∧
      (2048 < (d.e2e - pair.acked).toNat ∨ (d.e2e - pair.acked).toNat = 0 ∨ (d.e2e - pair.acked).toNat ∈ pair.ahead →
        ∃ t, exec i s = .next t ∧ t.linkPort p = { taken with freed := freed } ∧ (∀ c, t.pair c = s.pair c) ∧
        t.chain.dupCount = satInc s.chain.dupCount ∧ t.chain.duplicate = true ∧ OnlyChanges [.chain] s t))

/-- A LINK flit returns credits and acknowledges: the flits its ACK_SEQ covers leave the replay buffer, and one that names
no flit held sets PROTOCOL. A NAK, and the time without an acknowledgement, start a replay from the oldest flit; S:0x275
is raised once a frame (R272, R274). -/
def Claims.FlitsAcknowledged : Prop :=
  ∀ (p : PortId) (s : State), CanonicalSys s.sys → s.isOn (portDomain p) = true → s.linkUp p = true →
    let l := s.linkPort p
    let replays (v : State) (l : LinkPort) (i : Instr) : Prop :=
      (l.replayBuf = [] → exec i s = .next (v.setLinkPort p l)) ∧
      (l.replayBuf ≠ [] → ∃ t, exec i s = .next t ∧
        t.linkPort p = { l with replayLeft := l.replayBuf.length, replays := satInc l.replays, replayEv := true } ∧
        t.linkPort (opposite p) = s.linkPort (opposite p) ∧ t.chain.replayRaised = true ∧
        (s.chain.replayRaised = false → s.isOn dCORE = true → (t.latch 0x275).arrival = true) ∧
        (s.chain.replayRaised = true → t.sys = s.sys) ∧ OnlyChanges [.chain, .sys, .pwr] s t)
    replays s l (.replayTimeout p) ∧
    (∀ f : Flit, flitGood f = true → flitType f = 2 →
      let v := s.setPhy p (takeWord s.chainMode (s.phy p) f)
      let a : BitVec 12 := field f 240 12
      let back := unpackCredits (field f 168 72)
      let acts (l' : LinkPort) : Prop :=
        (f.getLsbD 252 = false → exec (.linkFlitReceive p f) s = .next (v.setLinkPort p { l' with returned := back })) ∧
        (f.getLsbD 252 = true → replays v { l' with returned := back } (.linkFlitReceive p f))
      (a = l.lastAcked → acts l) ∧
      (a ≠ l.lastAcked → ∀ k, l.replayBuf.findIdx? (fun e => e.1 == a) = some k → acts { l with
        lastAcked := a, replayBuf := l.replayBuf.drop (k + 1)
        replayLeft := min l.replayLeft (l.replayBuf.length - (k + 1)) }) ∧
      (a ≠ l.lastAcked → (∀ e ∈ l.replayBuf, e.1 ≠ a) → acts { l with protocol := true }))

/-- A resend round queues every stored record of a live pair anew on its route, with its end-to-end sequence, and takes no
sequence and no allowance. A wait for credits, or for an allowance, that comes to its 64th frame raises S:0x276 once an
episode (R277, R287). -/
def Claims.OverdueRounds : Prop :=
  ∀ s : State, CanonicalSys s.sys → CanonicalChain s.chain →
    (∀ c : Chip, s.coreOn = true → (s.pair c).store ≠ [] → (s.pair c).live = true → ∀ q, s.route c = some q →
      ∃ t, exec (.e2eResend c) s = .next t ∧
        t.linkPort q = { s.linkPort q with own := (s.linkPort q).own ++ (s.pair c).store.map fun e =>
          { cls := 0, src := s.chipId, dst := c, e2e := e.1, passed := false, records := [e.2] } } ∧
        t.linkPort (opposite q) = s.linkPort (opposite q) ∧ (∀ k, t.pair k = s.pair k) ∧
        t.chain.resends = satInc s.chain.resends ∧ t.chain.resent = true ∧ OnlyChanges [.chain] s t) ∧
    (∀ (p : PortId) (cls : FlitClass), s.isOn (portDomain p) = true → s.frame.running = true →
      let l := s.linkPort p
      let k := classCode cls
      let frames : Nat := Sparse.get 0 l.creditFrames k.toNat
      (creditWait l k = true → 63 ≤ frames → l.creditEpisode.getLsbD k.toNat = false → ∃ t, exec (.creditOverdue p cls) s = .next t ∧
        t.linkPort p = { l with creditOver := true, creditEpisode := putBit l.creditEpisode k.toNat true } ∧
        t.linkPort (opposite p) = s.linkPort (opposite p) ∧
        (s.isOn dCORE = true → (t.latch 0x276).arrival = true) ∧ OnlyChanges [.chain, .sys, .pwr] s t) ∧
      (creditWait l k = false ∨ frames < 63 ∨ l.creditEpisode.getLsbD k.toNat = true → exec (.creditOverdue p cls) s = .next s)) ∧
    (∀ (c : Chip) (n : Tenant), s.coreOn = true → s.frame.running = true → c ≠ s.chipId → s.isLive c = true →
      s.allowance c n = 0 → 63 ≤ Sparse.get 0 (s.pair c).allowFrames n.toNat →
      Sparse.get false (s.pair c).allowEpisode n.toNat = false → ∃ t, exec (.allowOverdue c n) s = .next t ∧
        t.pair c = { s.pair c with allowEpisode := Sparse.set false (s.pair c).allowEpisode n.toNat true } ∧
        (∀ k, k ≠ c → t.pair k = s.pair k) ∧ t.chain.allowOver = true ∧
        (s.isOn dCORE = true → (t.latch 0x276).arrival = true) ∧ OnlyChanges [.chain, .sys, .pwr] s t)

/-! ## The start -/

/-- The release of a reset runs the start, its attempts counted over the records that Locket holds, or after a cold reset
over those of the newest valid flash copy. When every mandatory step passes (the banks show no fault) and no strap forces
safe-minimum mode, the frames run and the block is READY, and the record of the start stands first. When step 2 fails, the
block restarts itself with cause 2, unless it failed in the two starts before: then it enters safe-minimum mode
(R353, R356, R358, R360). -/
def Claims.StartRuns : Prop :=
  ∀ (env : StartEnv) (cause : Byte) (cold : Bool) (s : State), s.hm.inReset = some (cause, cold) → s.hm.safeMin = false →
    let strap := if cold then (majority env.straps).1 else s.bead.strap
    let copies := ((readCopies s.hm env.flashBadA env.flashBadB).1.map FlashCopy.records).getD []
    let earlier := if cold then copies else s.hm.records
    strap.getLsbD 7 = false →
    (env.step2 = .pass → env.bistRows = [] → env.bistCore = false → env.bistCtrl = false → env.step4 = .pass →
      env.verifyTbl = 0 → env.verifyTgt = 0 → env.verifyCore = false → env.step9 = .pass → env.step10 = .pass →
      (s.mbx.fw.slot0.isSome = true ∧ s.mbx.fw.slot1.isSome = true) →
      ∃ t, exec (.resetRelease env) s = .next t ∧ t.hm.inReset = none ∧ t.hm.ready = true ∧ t.hm.safeMin = false ∧
        t.hm.step = 0xF ∧ t.frame.running = true ∧ t.hm.startNo = s.hm.startNo + 1 ∧
        (t.hm.records.head?).map (fun r => (r.startNo, r.cause)) = some (s.hm.startNo + 1, cause)) ∧
    (∀ d, env.step2 = .fail d → cause = 4 ∨ failures 2 earlier < 2 →
      ∃ t, exec (.resetRelease env) s = .next t ∧ t.hm.inReset = some (2, false) ∧ t.hm.ready = false ∧
        t.frame.running = false) ∧
    (∀ d, env.step2 = .fail d → cause ≠ 4 → 2 ≤ failures 2 earlier →
      ∃ t, exec (.resetRelease env) s = .next t ∧ t.hm.safeMin = true ∧ t.hm.safeStep = 2)

/-! ## Tick alignment -/

/-- A chip becomes tick master of its ring: its markers carry its own count and period. -/
def Claims.ringMaster (s t : State) : Prop :=
  t.frame.isMaster = true ∧ t.frame.following = false ∧ t.frame.masterId = s.chipId ∧ t.frame.tickLocked = true ∧
  t.frame.masterGap = 0 ∧ t.frame.markerGap = 0 ∧ t.frame.count = s.frame.count ∧ t.frame.current = s.frame.current ∧
  t.frame.timeCycles = s.frame.timeCycles

/-- A marker of the chip's own ticks ends at it. Any other goes on to the opposite port with one more hop and the hop
delay added. Of the master that a chip follows, the first marker of a frame gives its offset, taken from the arrival, the
marker's DELAY and the hop delay, the correction (a slew of at most 4 core cycles, or a step above 64), the run towards the
lock, FRAME_COUNT after a step and while locked, and the period with its pending change. A marker no better than one used
in its frame counts as heard, no more (R29, R31, R47, R48, R290, R291). -/
def Claims.MarkersUsed : Prop :=
  ∀ (p : PortId) (f : Flit) (arrival latency : W32) (s : State), CanonicalSys s.sys → s.isOn (portDomain p) = true →
    s.linkUp p = true → flitGood f = true → flitType f = 3 →
    let i : Instr := .tickMarkerReceive p f arrival latency
    let master : Chip := field f 249 4
    let hops : BitVec 4 := field f 245 4
    let o := opposite p
    let heard (t : State) : Prop := t.frame.isMaster = false ∧ t.frame.following = true ∧ t.frame.masterId = master ∧
      t.frame.masterGap = 0 ∧ t.frame.markerGap = 0 ∧ OnlyChanges [.chain, .frame, .sys, .pwr] s t
    (master = s.chipId → exec i s = .next (s.setPhy p (takeWord s.chainMode (s.phy p) f))) ∧
    (master ≠ s.chipId → hops ≠ 15 → s.carriesTicks o = true → ∃ t, exec i s = .next t ∧
      t.linkPort o = { s.linkPort o with ticks := (s.linkPort o).ticks ++ [(packTick master (hops + 1) (field f 181 64)
        (field f 168 13) (field f 155 13) (field f 123 32) (field f 99 24 + (s.linkPort p).hopDelay), arrival)] } ∧
      t.linkPort p = s.linkPort p ∧ OnlyChanges [.chain, .frame, .sys, .pwr] s t) ∧
    (master ≠ s.chipId → s.alone = false → s.frame.isMaster = false → s.frame.following = true → s.frame.masterId = master →
      (s.frame.bestHops = none → s.frame.markerBase = none → ∃ t, exec i s = .next t ∧ heard t ∧
        let e := markerOffset s.frame (arrival - latency) (field f 99 24) (s.linkPort p).hopDelay
        let run := if e.natAbs ≤ 8 ∧ s.frame.coreClock = false then s.frame.lockRun + 1 else 0
        t.frame.bestHops = some (hops, p == .east) ∧ t.frame.offset = BitVec.ofInt 8 (max (-128) (min 127 e)) ∧
        t.frame.lockRun = run ∧ t.frame.tickLocked = decide (16 ≤ run) ∧ t.level 0x277 = !decide (16 ≤ run) ∧
        t.frame.count = (if s.frame.takeCount = true ∨ 16 ≤ run then field f 181 64 else s.frame.count) ∧
        (e.natAbs ≤ 64 → t.frame.slewNext = (if 0 < e then -(min e.natAbs 4 : Int) else (min e.natAbs 4 : Int)) ∧
          t.frame.adjust = s.frame.adjust) ∧
        (64 < e.natAbs → t.frame.tickStepped = true ∧ t.frame.takeCount = true ∧ t.frame.slewNext = 0) ∧
        t.frame.followPeriod = some (field f 168 13) ∧
        t.frame.changePending = decide ((field f 155 13 : BitVec 13) ≠ 0) ∧
        ((field f 155 13 : BitVec 13) ≠ 0 → t.frame.request = field f 155 13 ∧ t.frame.applyFrame = field f 123 32)) ∧
      (betterMarker s.frame.bestHops hops (p == .east) = false → ∃ t, exec i s = .next t ∧ heard t ∧
        t.frame = { s.frame with masterGap := 0, markerGap := 0 }))

/-- After 64 frames without its master's marker a chip in a ring loses the lock; after 64 without any, the lowest live
chip becomes tick master. A follower of lower ID than its master, locked for 256 frames and lowest of the ring, becomes
it at a tick whose count is a multiple of 256. Otherwise both change nothing of the frame (R48, R49). -/
def Claims.MastershipMoves : Prop :=
  ∀ s : State, CanonicalSys s.sys → s.coreOn = true → s.frame.running = true → s.alone = false →
    (s.frame.isMaster = false → 64 ≤ s.frame.masterGap →
      (64 ≤ s.frame.markerGap → s.lowestMember = true → ∃ t, exec .markerTimeout s = .next t ∧
        Claims.ringMaster s t ∧ t.level 0x277 = s.frame.coreClock ∧ OnlyChanges [.frame, .sys, .pwr] s t) ∧
      (s.frame.markerGap < 64 ∨ s.lowestMember = false → ∃ t, exec .markerTimeout s = .next t ∧
        t.frame = { s.frame with tickLocked := false, lockRun := 0, lockedFrames := 0 } ∧ t.level 0x277 = true ∧
        OnlyChanges [.frame, .sys, .pwr] s t)) ∧
    (s.frame.isMaster = true ∨ s.frame.masterGap < 64 → ∃ t, exec .markerTimeout s = .next t ∧
      t.level 0x277 = (!s.frame.tickLocked || s.frame.coreClock) ∧ OnlyChanges [.sys, .pwr] s t) ∧
    (s.frame.following = true → s.frame.tickLocked = true → 256 ≤ s.frame.lockedFrames →
      s.chipId.toNat < s.frame.masterId.toNat → s.lowestMember = true → (s.frame.count.toNat + 1) % 256 = 0 →
      ∃ t, exec .mastershipHandover s = .next t ∧ Claims.ringMaster s t ∧ OnlyChanges [.frame] s t) ∧
    (s.frame.following = false ∨ s.frame.tickLocked = false ∨ s.frame.lockedFrames < 256 ∨
      s.frame.masterId.toNat ≤ s.chipId.toNat ∨ (s.frame.count.toNat + 1) % 256 ≠ 0 →
      exec .mastershipHandover s = .next s)

/-! ## Statements of several claims -/

/-- Intake writes that the front end discards: by form, without a grant, by a wrong owner. -/
def Obligations.IntakeWriteDisposed : Prop :=
  Claims.IntakeWriteDiscards ∧ Claims.IntakeWriteOwnerMismatch

/-- Drained entries: a failed requester check is discarded and charged; a source operation changes only what it names. -/
def Obligations.IntakeDrainOutcomes : Prop :=
  Claims.IntakeDrainRefusesRequester ∧ Claims.IntakeDrainAppliesOperation

/-- Source operations: queued for message sources, latched for system sources, refused for the rest. -/
def Obligations.SourceOperationsTaken : Prop :=
  Claims.SourceOperationQueued ∧ Claims.SourceOperationLatched ∧ Claims.SourceOperationRefused

/-- Port signals: link, presence, containment and error pulses, and parking when a link falls. -/
def Obligations.PortEvents : Prop :=
  Claims.PortLinkLevel ∧ Claims.PortEventSources

/-- MW_CHAIN_EVENT originates one LINE record toward a live chip, and is refused otherwise. -/
def Obligations.ChainLines : Prop :=
  Claims.ChainEventSendsLine ∧ Claims.ChainEventRefused

/-- The capture FIFO holds intake writes while CORE is not ON, and drains them into the queues. -/
def Obligations.CaptureFifo : Prop :=
  Claims.IntakeWriteCaptured ∧ Claims.CaptureDrainEnqueues

/-- Private sources: register writes wait in the private lane, whose head changes one record. -/
def Obligations.PrivateSources : Prop :=
  Claims.PrivateWriteQueued ∧ Claims.PrivateLaneApplies

/-- TGT_CTRL, TGT_TIMER_CTRL and the timer's firing. -/
def Obligations.TargetTimersAndMask : Prop :=
  Claims.TargetControlWritten ∧ Claims.TimerFires

/-- A decision that lapses or is withdrawn delivers nothing and frees its target at the next tick. -/
def Obligations.DecisionsNotDelivered : Prop :=
  Claims.DecisionCommitLapses ∧ Claims.DecisionWithdrawn

/-- A committed re-issue delivers the parked source again, or lapses. -/
def Obligations.ReissueCommits : Prop :=
  Claims.ReissueCommitDelivers

/-- Parts of a tick as rows of their own (log entry 5): period change, hold-off end, mastership, refill passes. -/
def Obligations.TickPartsDoneEarly : Prop :=
  Claims.DueTickChangesApply ∧ Claims.MastershipMoves ∧ Claims.RefillPassesStartAndEnd

/-- The mailbox commands that read: their replies, and nothing else changes. -/
def Obligations.ReadCommands : Prop :=
  Claims.ReadCommandsOnlyReply ∧ Claims.VectorReadReplies

/-- TARGET_GRANT gives and takes back a block of 64 targets. -/
def Obligations.TargetBlocks : Prop :=
  Claims.TargetBlockGranted ∧ Claims.TargetBlockWithdrawn

/-- VECTOR_RANGE_GRANT gives and takes back a vector range; the clear sweep answers. -/
def Obligations.VectorRanges : Prop :=
  Claims.VectorRangeGranted ∧ Claims.VectorRangeWithdrawn ∧ Claims.ClearSweepAnswers

/-- VECTOR_SET and FORWARD_SET write one configuration word. -/
def Obligations.VectorWords : Prop :=
  Claims.VectorConfigured ∧ Claims.VectorForwarded

/-- CLASP_SET and WATCH_SET. -/
def Obligations.ClaspAndWatch : Prop :=
  Claims.ClaspGroupSet ∧ Claims.WatchListChanged

/-- VECTOR_LOAD: its start, its entries, and a failing read. -/
def Obligations.VectorLoads : Prop :=
  Claims.VectorLoadBegins ∧ Claims.LoaderEntryTaken ∧ Claims.LoaderReadFails

/-- TENANT_RESET: acceptance closes the paths, the work clears the tenant, the end answers. -/
def Obligations.TenantResets : Prop :=
  Claims.TenantResetAccepted ∧ Claims.TenantResetWorks ∧ Claims.TenantResetEnds

/-- FAULT_CLEAR, DEBUG_CONSENT, and the lapse of a consent. -/
def Obligations.FaultsAndConsent : Prop :=
  Claims.FaultsCleared ∧ Claims.ConsentChanges ∧ Claims.ConsentLapses

/-- Entries: the firmware's retention of a quarter, and the end of an entry. -/
def Obligations.DomainEntries : Prop :=
  Claims.QuarterToRetention ∧ Claims.EntryEnds

/-- The memory phase with its retention check, and the arrival at ON. -/
def Obligations.ExitEnds : Prop :=
  Claims.MemoryReady ∧ Claims.DomainReachesOn

/-- PAD_RELEASE, BEAD_CONFIG, and the wake inputs of BEAD asleep. -/
def Obligations.Beads : Prop :=
  Claims.BeadCommands ∧ Claims.WakeInputs

/-- Temperature samples, aged hours, the flash copy, and row retirement. -/
def Obligations.WearAndRepair : Prop :=
  Claims.WearCounted ∧ Claims.RowRetired

/-- Bus parity errors and the scrub of CTRL RAM. -/
def Obligations.FatalErrors : Prop :=
  Claims.BusParityErrors ∧ Claims.ControlRamScrubbed

/-- Registers of the manager window: tenant weights, view selectors, the injection of errors, the histograms. -/
def Obligations.FmRegisters : Prop :=
  Claims.WeightWritten ∧ Claims.ViewSelected ∧ Claims.InjectionArmed ∧ Claims.HistogramCleared

/-- Register accesses: the command area, accesses of no admitted form, and reads with a side effect. -/
def Obligations.RegisterAccesses : Prop :=
  Claims.CommandAreaWritten ∧ Claims.AccessRefused ∧ Claims.MpuRegisterRead ∧ Claims.FrameCountLatched

/-- The MPU units: their registers, the barrier, and MPU_CONFIG. -/
def Obligations.MpuRules : Prop :=
  Claims.MpuEnableWritten ∧ Claims.MpuRegionWritten ∧ Claims.MpuSyncAnswers ∧ Claims.MpuConfigured

/-- FW_STAGE, FW_ACTIVATE, and the return to the image before. -/
def Obligations.FirmwareImages : Prop :=
  Claims.FirmwareStaged ∧ Claims.FirmwareActivated ∧ Claims.FirmwareFallsBack

/-- Restarts of the firmware and of one agent, and their end. -/
def Obligations.FirmwareRestart : Prop :=
  Claims.FirmwareRestarts ∧ Claims.RestartCompletes

/-- The tick: the count, the time and the period; the first tick after a sleep; the stop. -/
def Obligations.FrameTicks : Prop :=
  Claims.FrameTicked ∧ Claims.FirstTickCounts ∧ Claims.FramesStop

/-- Reset values, cold and block resets, the FM's restart, and the start with its attempts. -/
def Obligations.ResetAndStart : Prop :=
  Claims.ResetValues ∧ Claims.ColdResetClears ∧ Claims.BlockResetKeepsLocket ∧ Claims.FmRestartResets ∧ Claims.StartRuns

/-- Chain ports: training, lock loss, CHAIN_CONFIG, and the initialisation of a link. -/
def Obligations.ChainPorts : Prop :=
  Claims.TrainingBegins ∧ Claims.TrainingEnds ∧ Claims.LockAndDown ∧ Claims.ChainConfigured ∧ Claims.LinkInitialises

/-- The link layer, the ring, and tick markers. -/
def Obligations.ChainLink : Prop :=
  Claims.FlitsSent ∧ Claims.DataFlitsReceived ∧ Claims.FlitsAcknowledged ∧ Claims.OverdueRounds ∧ Claims.MarkersUsed
end

