-- ==== Sys2Proof/Laws/Sparse.lean ====
section
/-! SUPPORT. Laws of sparse memory: a read after a write, and the canonical form, which every operation keeps. -/
namespace Sys2Proof.Machine

theorem Sparse.wfFrom_weaken {V : Type} [DecidableEq V] (d : V) (m : Sparse V) : ∀ (a b : Nat), a ≤ b →
    Sparse.wfFrom d (some b) m = true → Sparse.wfFrom d (some a) m = true := by
  intro a b hab h
  cases m with
  | nil => rfl
  | cons e m =>
    obtain ⟨j, v⟩ := e
    simp only [Sparse.wfFrom, Bool.and_eq_true, decide_eq_true_eq] at h ⊢
    exact ⟨⟨by omega, h.1.2⟩, h.2⟩

theorem Sparse.wfFrom_none {V : Type} [DecidableEq V] (d : V) (m : Sparse V) (a : Nat) (h : Sparse.wfFrom d (some
    a) m = true) : Sparse.wfFrom d none m = true := by
  cases m with
  | nil => rfl
  | cons e m =>
    obtain ⟨j, v⟩ := e
    simp only [Sparse.wfFrom, Bool.and_eq_true, decide_eq_true_eq] at h ⊢
    exact ⟨⟨trivial, h.1.2⟩, h.2⟩

theorem Sparse.wfFrom_erase {V : Type} [DecidableEq V] (d : V) (m : Sparse V) (k : Nat) : ∀ lo, Sparse.wfFrom d lo
    m = true → Sparse.wfFrom d lo (Sparse.erase m k) = true := by
  induction m with
  | nil => intro lo h; exact h
  | cons e m ih =>
    obtain ⟨j, v⟩ := e
    intro lo h
    simp only [Sparse.wfFrom, Bool.and_eq_true, decide_eq_true_eq] at h
    simp only [Sparse.erase]
    split
    · cases lo with
      | none => exact Sparse.wfFrom_none d m j h.2
      | some l => exact Sparse.wfFrom_weaken d m l j (Nat.le_of_lt (by simpa using h.1.1)) h.2
    · simp only [Sparse.wfFrom, Bool.and_eq_true, decide_eq_true_eq]
      exact ⟨h.1, ih _ h.2⟩

theorem Sparse.above (lo : Option Nat) (k : Nat) : (∀ l, lo = some l → l < k) →
    (match lo with
      | none => true
      | some l => decide (l < k)) = true := by
  cases lo with
  | none => intro _; rfl
  | some l => intro hl; simpa using hl l rfl

theorem Sparse.wfFrom_insert {V : Type} [DecidableEq V] (d : V) (m : Sparse V) (k : Nat) (v : V) (hv : v ≠ d) : ∀
    lo, (∀ l, lo = some l → l < k) → Sparse.wfFrom d lo m = true → Sparse.wfFrom d lo (Sparse.insert m k v) = true
    := by
  induction m with
  | nil =>
    intro lo hl h
    cases lo with
    | none => simp [Sparse.insert, Sparse.wfFrom, hv]
    | some l => simp [Sparse.insert, Sparse.wfFrom, hv, hl l rfl]
  | cons e m ih =>
    obtain ⟨j, w⟩ := e
    intro lo hl h
    simp only [Sparse.wfFrom, Bool.and_eq_true, decide_eq_true_eq] at h
    simp only [Sparse.insert]
    have hhead := Sparse.above lo k hl
    split
    · rename_i hkj
      simp only [Sparse.wfFrom, Bool.and_eq_true, decide_eq_true_eq]
      exact ⟨⟨hhead, hv⟩, ⟨hkj, h.1.2⟩, h.2⟩
    · split
      · rename_i hkj
        subst hkj
        simp only [Sparse.wfFrom, Bool.and_eq_true, decide_eq_true_eq]
        exact ⟨⟨hhead, hv⟩, h.2⟩
      · simp only [Sparse.wfFrom, Bool.and_eq_true, decide_eq_true_eq]
        refine ⟨h.1, ih _ ?_ h.2⟩
        intro l hl'
        cases hl'
        omega

theorem Sparse.wf_set {V : Type} [DecidableEq V] (d : V) (m : Sparse V) (k : Nat) (v : V) (h : Sparse.wf d m =
    true) : Sparse.wf d (Sparse.set d m k v) = true := by
  unfold Sparse.set
  split
  · exact Sparse.wfFrom_erase d m k none h
  · rename_i hv
    exact Sparse.wfFrom_insert d m k v hv none (by intro l hl; cases hl) h

theorem Sparse.wfFrom_dropKeys {V : Type} [DecidableEq V] (d : V) (p : Nat → Bool) (m : Sparse V) : ∀ lo,
    Sparse.wfFrom d lo m = true → Sparse.wfFrom d lo (Sparse.dropKeys p m) = true := by
  induction m with
  | nil => intro lo h; exact h
  | cons e m ih =>
    obtain ⟨j, v⟩ := e
    intro lo h
    simp only [Sparse.wfFrom, Bool.and_eq_true, decide_eq_true_eq] at h
    simp only [Sparse.dropKeys]
    split
    · refine ih _ ?_
      cases lo with
      | none => exact Sparse.wfFrom_none d m j h.2
      | some l => exact Sparse.wfFrom_weaken d m l j (Nat.le_of_lt (by simpa using h.1.1)) h.2
    · simp only [Sparse.wfFrom, Bool.and_eq_true, decide_eq_true_eq]
      exact ⟨h.1, ih _ h.2⟩

theorem Sparse.wf_dropKeys {V : Type} [DecidableEq V] (d : V) (p : Nat → Bool) (m : Sparse V) (h : Sparse.wf d m =
    true) : Sparse.wf d (Sparse.dropKeys p m) = true := Sparse.wfFrom_dropKeys d p m none h

theorem Sparse.mem_erase {V : Type} {m : Sparse V} {k : Nat} {p : Nat × V} (h : p ∈ Sparse.erase m k) : p ∈ m := by
  induction m with
  | nil => exact h
  | cons e m ih =>
    obtain ⟨j, v⟩ := e
    simp only [Sparse.erase] at h
    split at h
    · exact List.mem_cons_of_mem _ h
    · rcases List.mem_cons.1 h with h | h
      · exact h ▸ List.mem_cons_self
      · exact List.mem_cons_of_mem _ (ih h)

theorem Sparse.mem_insert {V : Type} {m : Sparse V} {k : Nat} {v : V} {p : Nat × V} (h : p ∈ Sparse.insert m k v)
    : p = (k, v) ∨ p ∈ m := by
  induction m with
  | nil => exact .inl (List.mem_singleton.1 h)
  | cons e m ih =>
    obtain ⟨j, w⟩ := e
    simp only [Sparse.insert] at h
    split at h
    · rcases List.mem_cons.1 h with h | h
      · exact .inl h
      · exact .inr h
    · split at h
      · rcases List.mem_cons.1 h with h | h
        · exact .inl h
        · exact .inr (List.mem_cons_of_mem _ h)
      · rcases List.mem_cons.1 h with h | h
        · exact .inr (h ▸ List.mem_cons_self)
        · rcases ih h with h | h
          · exact .inl h
          · exact .inr (List.mem_cons_of_mem _ h)

theorem Sparse.mem_set {V : Type} [DecidableEq V] {d : V} {m : Sparse V} {k : Nat} {v : V} {p : Nat × V} (h : p ∈
    Sparse.set d m k v) : p = (k, v) ∨ p ∈ m := by
  unfold Sparse.set at h
  split at h
  · exact .inr (Sparse.mem_erase h)
  · exact Sparse.mem_insert h

theorem Sparse.get_mem {V : Type} (d : V) (m : Sparse V) (k : Nat) : Sparse.get d m k = d ∨ (k, Sparse.get d m k)
    ∈ m := by
  induction m with
  | nil => exact .inl rfl
  | cons e m ih =>
    obtain ⟨j, v⟩ := e
    simp only [Sparse.get]
    split
    · rename_i hj
      subst hj
      exact .inr List.mem_cons_self
    · rcases ih with h | h
      · exact .inl h
      · exact .inr (List.mem_cons_of_mem _ h)

theorem Sparse.wfFrom_mapVals {V : Type} [DecidableEq V] (d : V) (f : Nat → V → V) (m : Sparse V) :
    ∀ lo, Sparse.wfFrom d lo m = true → Sparse.wfFrom d lo (Sparse.mapVals d f m) = true := by
  induction m with
  | nil => intro lo h; exact h
  | cons e m ih =>
    obtain ⟨j, v⟩ := e
    intro lo h
    simp only [Sparse.wfFrom, Bool.and_eq_true, decide_eq_true_eq] at h
    simp only [Sparse.mapVals]
    split
    · refine ih _ ?_
      cases lo with
      | none => exact Sparse.wfFrom_none d m j h.2
      | some l => exact Sparse.wfFrom_weaken d m l j (Nat.le_of_lt (by simpa using h.1.1)) h.2
    · rename_i hv
      simp only [Sparse.wfFrom, Bool.and_eq_true, decide_eq_true_eq]
      exact ⟨⟨h.1.1, hv⟩, ih _ h.2⟩

theorem Sparse.wf_mapVals {V : Type} [DecidableEq V] (d : V) (f : Nat → V → V) (m : Sparse V)
    (h : Sparse.wf d m = true) : Sparse.wf d (Sparse.mapVals d f m) = true :=
  Sparse.wfFrom_mapVals d f m none h

theorem Sparse.wf_foldl {V α : Type} [DecidableEq V] (d : V) (g : Sparse V → α → Sparse V) (l : List α) (m : Sparse V)
    (hg : ∀ m a, Sparse.wf d m = true → Sparse.wf d (g m a) = true) (h : Sparse.wf d m = true) :
    Sparse.wf d (l.foldl g m) = true := by
  induction l generalizing m with
  | nil => exact h
  | cons a l ih => exact ih _ (hg _ _ h)

theorem Sparse.wfFrom_marks {V : Type} [DecidableEq V] (d : V) (p : Nat × V → Bool) (m : Sparse V) :
    ∀ lo, Sparse.wfFrom d lo m = true → Sparse.wfFrom false lo ((m.filter p).map fun e => (e.1, true)) = true := by
  induction m with
  | nil => intro lo _; rfl
  | cons e m ih =>
    obtain ⟨j, v⟩ := e
    intro lo h
    simp only [Sparse.wfFrom, Bool.and_eq_true, decide_eq_true_eq] at h
    rw [List.filter_cons]
    split
    · simp only [List.map_cons, Sparse.wfFrom, Bool.and_eq_true, decide_eq_true_eq]
      exact ⟨⟨h.1.1, by decide⟩, ih _ h.2⟩
    · refine ih _ ?_
      cases lo with
      | none => exact Sparse.wfFrom_none d m j h.2
      | some l => exact Sparse.wfFrom_weaken d m l j (Nat.le_of_lt (by simpa using h.1.1)) h.2

theorem Sparse.wf_marks {V : Type} [DecidableEq V] (d : V) (p : Nat × V → Bool) (m : Sparse V) (h : Sparse.wf d m
    = true) :
    Sparse.wf false ((m.filter p).map fun e => (e.1, true)) = true := Sparse.wfFrom_marks d p m none h

theorem Sparse.wfFrom_run {V : Type} [DecidableEq V] (d : V) (f : Nat → V) (hf : ∀ k, f k ≠ d) :
    ∀ n k lo, (∀ l, lo = some l → l < k) → Sparse.wfFrom d lo ((List.range' k n).map fun i => (i, f i)) = true := by
  intro n
  induction n with
  | zero => intro _ _ _; rfl
  | succ n ih =>
    intro k lo hlo
    rw [List.range'_succ, List.map_cons]
    simp only [Sparse.wfFrom, Bool.and_eq_true, decide_eq_true_eq]
    refine ⟨⟨Sparse.above lo k hlo, hf k⟩, ih _ _ fun l hl => ?_⟩
    cases hl
    omega

theorem Sparse.wf_run {V : Type} [DecidableEq V] (d : V) (f : Nat → V) (n : Nat) (hf : ∀ k, f k ≠ d) :
    Sparse.wf d ((List.range n).map fun i => (i, f i)) = true := by
  rw [List.range_eq_range']
  exact Sparse.wfFrom_run d f hf n 0 none (fun l hl => nomatch hl)

theorem Sparse.wf_ite {V : Type} [DecidableEq V] (d : V) {c : Prop} [Decidable c] {m n : Sparse V}
    (hm : Sparse.wf d m = true) (hn : Sparse.wf d n = true) : Sparse.wf d (if c then m else n) = true := by
  split
  · exact hm
  · exact hn

/-- Keys of a canonical table above `lo` do not list `j ≤ lo`. -/
theorem Sparse.get_below {V : Type} [DecidableEq V] (d : V) (m : Sparse V) :
    ∀ lo j, j ≤ lo → Sparse.wfFrom d (some lo) m = true → Sparse.get d m j = d := by
  induction m with
  | nil => intro _ _ _ _; rfl
  | cons e m ih =>
    obtain ⟨i, v⟩ := e
    intro lo j hj h
    simp only [Sparse.wfFrom, Bool.and_eq_true, decide_eq_true_eq] at h
    have hi : ¬ i = j := by omega
    simp only [Sparse.get, if_neg hi]
    exact ih i j (by omega) h.2

theorem Sparse.get_insert {V : Type} (d : V) (m : Sparse V) (k : Nat) (v : V) (j : Nat) :
    Sparse.get d (Sparse.insert m k v) j = if k = j then v else Sparse.get d m j := by
  induction m with
  | nil => rfl
  | cons e m ih =>
    obtain ⟨i, w⟩ := e
    simp only [Sparse.insert]
    split
    · rfl
    · split
      · rename_i h
        subst h
        simp only [Sparse.get]
        split <;> rfl
      · simp only [Sparse.get, ih]
        split
        · rename_i h1 h2 h3
          subst h3
          rw [if_neg h2]
        · rfl

theorem Sparse.get_erase_wf {V : Type} [DecidableEq V] (d : V) (m : Sparse V) (k j : Nat) :
    ∀ lo, Sparse.wfFrom d lo m = true → Sparse.get d (Sparse.erase m k) j = if k = j then d else Sparse.get d m j
        := by
  induction m with
  | nil => intro _ _; simp [Sparse.erase, Sparse.get]
  | cons e m ih =>
    obtain ⟨i, w⟩ := e
    intro lo h
    simp only [Sparse.wfFrom, Bool.and_eq_true, decide_eq_true_eq] at h
    simp only [Sparse.erase]
    split
    · rename_i hik
      subst hik
      simp only [Sparse.get]
      split
      · rename_i hij
        subst hij
        exact Sparse.get_below d m _ _ (Nat.le_refl _) h.2
      · rfl
    · rename_i hik
      simp only [Sparse.get, ih _ h.2]
      split
      · rename_i hij
        subst hij
        rw [if_neg fun e => hik e.symm]
      · rfl

/-- A read after a write of a table in canonical form. -/
theorem Sparse.get_set {V : Type} [DecidableEq V] (d : V) (m : Sparse V) (k : Nat) (v : V) (j : Nat)
    (h : Sparse.wf d m = true) : Sparse.get d (Sparse.set d m k v) j = if k = j then v else Sparse.get d m j := by
  unfold Sparse.set
  split
  · rename_i hv
    subst hv
    exact Sparse.get_erase_wf _ m k j none h
  · exact Sparse.get_insert d m k v j

theorem Sparse.get_erase_ne {V : Type} (d : V) (m : Sparse V) (k j : Nat) (h : j ≠ k) :
    Sparse.get d (Sparse.erase m k) j = Sparse.get d m j := by
  induction m with
  | nil => rfl
  | cons e m ih =>
    obtain ⟨i, w⟩ := e
    simp only [Sparse.erase]
    split
    · rename_i hik
      subst hik
      simp only [Sparse.get, if_neg h.symm]
    · simp only [Sparse.get, ih]

/-- A write leaves every other key alone, whatever the form of the table. -/
theorem Sparse.get_set_ne {V : Type} [DecidableEq V] (d : V) (m : Sparse V) (k : Nat) (v : V) (j : Nat) (h : j ≠ k) :
    Sparse.get d (Sparse.set d m k v) j = Sparse.get d m j := by
  unfold Sparse.set
  split
  · exact Sparse.get_erase_ne d m k j h
  · rw [Sparse.get_insert, if_neg h.symm]

theorem Sparse.find_erase {V : Type} [DecidableEq V] (d : V) (p : V → Bool) (m : Sparse V) (k : Nat)
    (hv : p (Sparse.get d m k) = false) :
    ((Sparse.erase m k).find? fun q => p q.2).map (·.1) = (m.find? fun q => p q.2).map (·.1) := by
  induction m with
  | nil => rfl
  | cons e m ih =>
    obtain ⟨j, w⟩ := e
    by_cases hjk : j = k
    · subst hjk
      have hw : p w = false := by simpa [Sparse.get] using hv
      simp [Sparse.erase, hw]
    · have ih := ih (by simpa [Sparse.get, hjk] using hv)
      simp only [Sparse.erase, if_neg hjk, List.find?_cons]
      split
      · rfl
      · exact ih

theorem Sparse.find_insert {V : Type} [DecidableEq V] (d : V) (p : V → Bool) (hd : p d = false) (m : Sparse V) (k : Nat) (v : V) :
    ∀ lo, Sparse.wfFrom d lo m = true → p v = p (Sparse.get d m k) →
    ((Sparse.insert m k v).find? fun q => p q.2).map (·.1) = (m.find? fun q => p q.2).map (·.1) := by
  induction m with
  | nil => intro _ _ hv; simp [Sparse.insert, Sparse.get] at hv ⊢; simp [hv, hd]
  | cons e m ih =>
    obtain ⟨j, w⟩ := e
    intro lo h hv
    by_cases hkj : k < j
    · have hj : j ≠ k := by omega
      have hg : Sparse.get d m k = d := by
        refine Sparse.get_below d m j k (by omega) ?_
        simp only [Sparse.wfFrom, Bool.and_eq_true] at h
        exact h.2
      have hw : p v = false := by simpa [Sparse.get, hj, hg, hd] using hv
      simp [Sparse.insert, hkj, hw]
    · by_cases hjk : k = j
      · subst hjk
        have hw : p v = p w := by simpa [Sparse.get] using hv
        simp [Sparse.insert, hw, List.find?_cons]
        split <;> simp_all
      · have hj : j ≠ k := fun e => hjk e.symm
        simp only [Sparse.wfFrom, Bool.and_eq_true] at h
        have ih := ih (some j) h.2 (by simpa [Sparse.get, hj] using hv)
        simp only [Sparse.insert, if_neg hkj, if_neg hjk, List.find?_cons]
        split
        · rfl
        · exact ih

/-- The first key whose value satisfies `p` stays the first when a write keeps what `p` says of the key it writes. -/
theorem Sparse.find_set {V : Type} [DecidableEq V] (d : V) (p : V → Bool) (hd : p d = false) (m : Sparse V) (k : Nat) (v : V)
    (h : Sparse.wf d m = true) (hv : p v = p (Sparse.get d m k)) :
    ((Sparse.set d m k v).find? fun q => p q.2).map (·.1) = (m.find? fun q => p q.2).map (·.1) := by
  unfold Sparse.set
  split
  · rename_i e
    subst e
    exact Sparse.find_erase v p m k (by rw [← hv]; exact hd)
  · exact Sparse.find_insert d p hd m k v none h hv

/-- A key's value after a change of every listed value, by a function that leaves the unlisted value alone. -/
theorem Sparse.get_mapVals {V : Type} [DecidableEq V] (d : V) (f : Nat → V → V) (k : Nat) (hf : f k d = d) (m : Sparse V) :
    ∀ lo, Sparse.wfFrom d lo m = true → Sparse.get d (Sparse.mapVals d f m) k = f k (Sparse.get d m k) := by
  induction m with
  | nil => intro _ _; exact hf.symm
  | cons e m ih =>
    obtain ⟨j, v⟩ := e
    intro lo h
    simp only [Sparse.wfFrom, Bool.and_eq_true] at h
    have hi := ih _ h.2
    simp only [Sparse.mapVals, Sparse.get]
    by_cases e : j = k
    · subst e
      rw [if_pos rfl]
      split
      · rename_i hv
        rw [hi, Sparse.get_below d m j j (Nat.le_refl _) h.2, hf, hv]
      · simp only [Sparse.get, if_true]
    · rw [if_neg e]
      split
      · exact hi
      · simp only [Sparse.get, if_neg e]; exact hi

/-- The kept keys keep their values; a dropped key reads as unlisted. -/
theorem Sparse.get_dropKeys {V : Type} (d : V) (p : Nat → Bool) (m : Sparse V) (k : Nat) :
    Sparse.get d (Sparse.dropKeys p m) k = if p k then d else Sparse.get d m k := by
  induction m with
  | nil => simp [Sparse.dropKeys, Sparse.get]
  | cons e m ih =>
    obtain ⟨j, v⟩ := e
    simp only [Sparse.dropKeys, Sparse.get]
    by_cases e : j = k
    · subst e
      cases hp : p j
      · simp [Sparse.get]
      · simp only [if_true]; rw [ih, hp]; rfl
    · rw [if_neg e]
      cases hp : p j
      · simp only [Bool.false_eq_true, if_false, Sparse.get, if_neg e]; exact ih
      · simp only [if_true]; exact ih

end Sys2Proof.Machine
end

