-- ==== Sys2Proof/Laws/State.lean ====
section
/-! SUPPORT. State under its setters: one lemma for each field of each update, and a read of a record after a write of one. -/
namespace Sys2Proof.Machine

variable (s : State)

/-! ## One unit is replaced -/

@[simp] theorem State.setFrame_frame (u : FrameUnit) : (s.setFrame u).frame = u := rfl
@[simp] theorem State.setFrame_intake (u : FrameUnit) : (s.setFrame u).intake = s.intake := rfl
@[simp] theorem State.setFrame_sys (u : FrameUnit) : (s.setFrame u).sys = s.sys := rfl
@[simp] theorem State.setFrame_vec (u : FrameUnit) : (s.setFrame u).vec = s.vec := rfl
@[simp] theorem State.setFrame_tgt (u : FrameUnit) : (s.setFrame u).tgt = s.tgt := rfl
@[simp] theorem State.setFrame_ten (u : FrameUnit) : (s.setFrame u).ten = s.ten := rfl
@[simp] theorem State.setFrame_mbx (u : FrameUnit) : (s.setFrame u).mbx = s.mbx := rfl
@[simp] theorem State.setFrame_acu (u : FrameUnit) : (s.setFrame u).acu = s.acu := rfl
@[simp] theorem State.setFrame_chain (u : FrameUnit) : (s.setFrame u).chain = s.chain := rfl
@[simp] theorem State.setFrame_bead (u : FrameUnit) : (s.setFrame u).bead = s.bead := rfl
@[simp] theorem State.setFrame_pwr (u : FrameUnit) : (s.setFrame u).pwr = s.pwr := rfl
@[simp] theorem State.setFrame_ras (u : FrameUnit) : (s.setFrame u).ras = s.ras := rfl
@[simp] theorem State.setFrame_loupe (u : FrameUnit) : (s.setFrame u).loupe = s.loupe := rfl
@[simp] theorem State.setFrame_hm (u : FrameUnit) : (s.setFrame u).hm = s.hm := rfl
@[simp] theorem State.setFrame_bnd (u : FrameUnit) : (s.setFrame u).bnd = s.bnd := rfl
@[simp] theorem State.setFrame_pending (u : FrameUnit) : (s.setFrame u).pending = s.pending := rfl

@[simp] theorem State.setIntake_frame (u : IntakeUnit) : (s.setIntake u).frame = s.frame := rfl
@[simp] theorem State.setIntake_intake (u : IntakeUnit) : (s.setIntake u).intake = u := rfl
@[simp] theorem State.setIntake_sys (u : IntakeUnit) : (s.setIntake u).sys = s.sys := rfl
@[simp] theorem State.setIntake_vec (u : IntakeUnit) : (s.setIntake u).vec = s.vec := rfl
@[simp] theorem State.setIntake_tgt (u : IntakeUnit) : (s.setIntake u).tgt = s.tgt := rfl
@[simp] theorem State.setIntake_ten (u : IntakeUnit) : (s.setIntake u).ten = s.ten := rfl
@[simp] theorem State.setIntake_mbx (u : IntakeUnit) : (s.setIntake u).mbx = s.mbx := rfl
@[simp] theorem State.setIntake_acu (u : IntakeUnit) : (s.setIntake u).acu = s.acu := rfl
@[simp] theorem State.setIntake_chain (u : IntakeUnit) : (s.setIntake u).chain = s.chain := rfl
@[simp] theorem State.setIntake_bead (u : IntakeUnit) : (s.setIntake u).bead = s.bead := rfl
@[simp] theorem State.setIntake_pwr (u : IntakeUnit) : (s.setIntake u).pwr = s.pwr := rfl
@[simp] theorem State.setIntake_ras (u : IntakeUnit) : (s.setIntake u).ras = s.ras := rfl
@[simp] theorem State.setIntake_loupe (u : IntakeUnit) : (s.setIntake u).loupe = s.loupe := rfl
@[simp] theorem State.setIntake_hm (u : IntakeUnit) : (s.setIntake u).hm = s.hm := rfl
@[simp] theorem State.setIntake_bnd (u : IntakeUnit) : (s.setIntake u).bnd = s.bnd := rfl
@[simp] theorem State.setIntake_pending (u : IntakeUnit) : (s.setIntake u).pending = s.pending := rfl

@[simp] theorem State.setSys_frame (u : SysUnit) : (s.setSys u).frame = s.frame := rfl
@[simp] theorem State.setSys_intake (u : SysUnit) : (s.setSys u).intake = s.intake := rfl
@[simp] theorem State.setSys_sys (u : SysUnit) : (s.setSys u).sys = u := rfl
@[simp] theorem State.setSys_vec (u : SysUnit) : (s.setSys u).vec = s.vec := rfl
@[simp] theorem State.setSys_tgt (u : SysUnit) : (s.setSys u).tgt = s.tgt := rfl
@[simp] theorem State.setSys_ten (u : SysUnit) : (s.setSys u).ten = s.ten := rfl
@[simp] theorem State.setSys_mbx (u : SysUnit) : (s.setSys u).mbx = s.mbx := rfl
@[simp] theorem State.setSys_acu (u : SysUnit) : (s.setSys u).acu = s.acu := rfl
@[simp] theorem State.setSys_chain (u : SysUnit) : (s.setSys u).chain = s.chain := rfl
@[simp] theorem State.setSys_bead (u : SysUnit) : (s.setSys u).bead = s.bead := rfl
@[simp] theorem State.setSys_pwr (u : SysUnit) : (s.setSys u).pwr = s.pwr := rfl
@[simp] theorem State.setSys_ras (u : SysUnit) : (s.setSys u).ras = s.ras := rfl
@[simp] theorem State.setSys_loupe (u : SysUnit) : (s.setSys u).loupe = s.loupe := rfl
@[simp] theorem State.setSys_hm (u : SysUnit) : (s.setSys u).hm = s.hm := rfl
@[simp] theorem State.setSys_bnd (u : SysUnit) : (s.setSys u).bnd = s.bnd := rfl
@[simp] theorem State.setSys_pending (u : SysUnit) : (s.setSys u).pending = s.pending := rfl

@[simp] theorem State.setVec_frame (u : VecUnit) : (s.setVec u).frame = s.frame := rfl
@[simp] theorem State.setVec_intake (u : VecUnit) : (s.setVec u).intake = s.intake := rfl
@[simp] theorem State.setVec_sys (u : VecUnit) : (s.setVec u).sys = s.sys := rfl
@[simp] theorem State.setVec_vec (u : VecUnit) : (s.setVec u).vec = u := rfl
@[simp] theorem State.setVec_tgt (u : VecUnit) : (s.setVec u).tgt = s.tgt := rfl
@[simp] theorem State.setVec_ten (u : VecUnit) : (s.setVec u).ten = s.ten := rfl
@[simp] theorem State.setVec_mbx (u : VecUnit) : (s.setVec u).mbx = s.mbx := rfl
@[simp] theorem State.setVec_acu (u : VecUnit) : (s.setVec u).acu = s.acu := rfl
@[simp] theorem State.setVec_chain (u : VecUnit) : (s.setVec u).chain = s.chain := rfl
@[simp] theorem State.setVec_bead (u : VecUnit) : (s.setVec u).bead = s.bead := rfl
@[simp] theorem State.setVec_pwr (u : VecUnit) : (s.setVec u).pwr = s.pwr := rfl
@[simp] theorem State.setVec_ras (u : VecUnit) : (s.setVec u).ras = s.ras := rfl
@[simp] theorem State.setVec_loupe (u : VecUnit) : (s.setVec u).loupe = s.loupe := rfl
@[simp] theorem State.setVec_hm (u : VecUnit) : (s.setVec u).hm = s.hm := rfl
@[simp] theorem State.setVec_bnd (u : VecUnit) : (s.setVec u).bnd = s.bnd := rfl
@[simp] theorem State.setVec_pending (u : VecUnit) : (s.setVec u).pending = s.pending := rfl

@[simp] theorem State.setTgt_frame (u : TgtUnit) : (s.setTgt u).frame = s.frame := rfl
@[simp] theorem State.setTgt_intake (u : TgtUnit) : (s.setTgt u).intake = s.intake := rfl
@[simp] theorem State.setTgt_sys (u : TgtUnit) : (s.setTgt u).sys = s.sys := rfl
@[simp] theorem State.setTgt_vec (u : TgtUnit) : (s.setTgt u).vec = s.vec := rfl
@[simp] theorem State.setTgt_tgt (u : TgtUnit) : (s.setTgt u).tgt = u := rfl
@[simp] theorem State.setTgt_ten (u : TgtUnit) : (s.setTgt u).ten = s.ten := rfl
@[simp] theorem State.setTgt_mbx (u : TgtUnit) : (s.setTgt u).mbx = s.mbx := rfl
@[simp] theorem State.setTgt_acu (u : TgtUnit) : (s.setTgt u).acu = s.acu := rfl
@[simp] theorem State.setTgt_chain (u : TgtUnit) : (s.setTgt u).chain = s.chain := rfl
@[simp] theorem State.setTgt_bead (u : TgtUnit) : (s.setTgt u).bead = s.bead := rfl
@[simp] theorem State.setTgt_pwr (u : TgtUnit) : (s.setTgt u).pwr = s.pwr := rfl
@[simp] theorem State.setTgt_ras (u : TgtUnit) : (s.setTgt u).ras = s.ras := rfl
@[simp] theorem State.setTgt_loupe (u : TgtUnit) : (s.setTgt u).loupe = s.loupe := rfl
@[simp] theorem State.setTgt_hm (u : TgtUnit) : (s.setTgt u).hm = s.hm := rfl
@[simp] theorem State.setTgt_bnd (u : TgtUnit) : (s.setTgt u).bnd = s.bnd := rfl
@[simp] theorem State.setTgt_pending (u : TgtUnit) : (s.setTgt u).pending = s.pending := rfl

@[simp] theorem State.setTen_frame (u : TenUnit) : (s.setTen u).frame = s.frame := rfl
@[simp] theorem State.setTen_intake (u : TenUnit) : (s.setTen u).intake = s.intake := rfl
@[simp] theorem State.setTen_sys (u : TenUnit) : (s.setTen u).sys = s.sys := rfl
@[simp] theorem State.setTen_vec (u : TenUnit) : (s.setTen u).vec = s.vec := rfl
@[simp] theorem State.setTen_tgt (u : TenUnit) : (s.setTen u).tgt = s.tgt := rfl
@[simp] theorem State.setTen_ten (u : TenUnit) : (s.setTen u).ten = u := rfl
@[simp] theorem State.setTen_mbx (u : TenUnit) : (s.setTen u).mbx = s.mbx := rfl
@[simp] theorem State.setTen_acu (u : TenUnit) : (s.setTen u).acu = s.acu := rfl
@[simp] theorem State.setTen_chain (u : TenUnit) : (s.setTen u).chain = s.chain := rfl
@[simp] theorem State.setTen_bead (u : TenUnit) : (s.setTen u).bead = s.bead := rfl
@[simp] theorem State.setTen_pwr (u : TenUnit) : (s.setTen u).pwr = s.pwr := rfl
@[simp] theorem State.setTen_ras (u : TenUnit) : (s.setTen u).ras = s.ras := rfl
@[simp] theorem State.setTen_loupe (u : TenUnit) : (s.setTen u).loupe = s.loupe := rfl
@[simp] theorem State.setTen_hm (u : TenUnit) : (s.setTen u).hm = s.hm := rfl
@[simp] theorem State.setTen_bnd (u : TenUnit) : (s.setTen u).bnd = s.bnd := rfl
@[simp] theorem State.setTen_pending (u : TenUnit) : (s.setTen u).pending = s.pending := rfl

@[simp] theorem State.setMbx_frame (u : MbxUnit) : (s.setMbx u).frame = s.frame := rfl
@[simp] theorem State.setMbx_intake (u : MbxUnit) : (s.setMbx u).intake = s.intake := rfl
@[simp] theorem State.setMbx_sys (u : MbxUnit) : (s.setMbx u).sys = s.sys := rfl
@[simp] theorem State.setMbx_vec (u : MbxUnit) : (s.setMbx u).vec = s.vec := rfl
@[simp] theorem State.setMbx_tgt (u : MbxUnit) : (s.setMbx u).tgt = s.tgt := rfl
@[simp] theorem State.setMbx_ten (u : MbxUnit) : (s.setMbx u).ten = s.ten := rfl
@[simp] theorem State.setMbx_mbx (u : MbxUnit) : (s.setMbx u).mbx = u := rfl
@[simp] theorem State.setMbx_acu (u : MbxUnit) : (s.setMbx u).acu = s.acu := rfl
@[simp] theorem State.setMbx_chain (u : MbxUnit) : (s.setMbx u).chain = s.chain := rfl
@[simp] theorem State.setMbx_bead (u : MbxUnit) : (s.setMbx u).bead = s.bead := rfl
@[simp] theorem State.setMbx_pwr (u : MbxUnit) : (s.setMbx u).pwr = s.pwr := rfl
@[simp] theorem State.setMbx_ras (u : MbxUnit) : (s.setMbx u).ras = s.ras := rfl
@[simp] theorem State.setMbx_loupe (u : MbxUnit) : (s.setMbx u).loupe = s.loupe := rfl
@[simp] theorem State.setMbx_hm (u : MbxUnit) : (s.setMbx u).hm = s.hm := rfl
@[simp] theorem State.setMbx_bnd (u : MbxUnit) : (s.setMbx u).bnd = s.bnd := rfl
@[simp] theorem State.setMbx_pending (u : MbxUnit) : (s.setMbx u).pending = s.pending := rfl

@[simp] theorem State.setAcu_frame (u : AcuUnit) : (s.setAcu u).frame = s.frame := rfl
@[simp] theorem State.setAcu_intake (u : AcuUnit) : (s.setAcu u).intake = s.intake := rfl
@[simp] theorem State.setAcu_sys (u : AcuUnit) : (s.setAcu u).sys = s.sys := rfl
@[simp] theorem State.setAcu_vec (u : AcuUnit) : (s.setAcu u).vec = s.vec := rfl
@[simp] theorem State.setAcu_tgt (u : AcuUnit) : (s.setAcu u).tgt = s.tgt := rfl
@[simp] theorem State.setAcu_ten (u : AcuUnit) : (s.setAcu u).ten = s.ten := rfl
@[simp] theorem State.setAcu_mbx (u : AcuUnit) : (s.setAcu u).mbx = s.mbx := rfl
@[simp] theorem State.setAcu_acu (u : AcuUnit) : (s.setAcu u).acu = u := rfl
@[simp] theorem State.setAcu_chain (u : AcuUnit) : (s.setAcu u).chain = s.chain := rfl
@[simp] theorem State.setAcu_bead (u : AcuUnit) : (s.setAcu u).bead = s.bead := rfl
@[simp] theorem State.setAcu_pwr (u : AcuUnit) : (s.setAcu u).pwr = s.pwr := rfl
@[simp] theorem State.setAcu_ras (u : AcuUnit) : (s.setAcu u).ras = s.ras := rfl
@[simp] theorem State.setAcu_loupe (u : AcuUnit) : (s.setAcu u).loupe = s.loupe := rfl
@[simp] theorem State.setAcu_hm (u : AcuUnit) : (s.setAcu u).hm = s.hm := rfl
@[simp] theorem State.setAcu_bnd (u : AcuUnit) : (s.setAcu u).bnd = s.bnd := rfl
@[simp] theorem State.setAcu_pending (u : AcuUnit) : (s.setAcu u).pending = s.pending := rfl

@[simp] theorem State.setChain_frame (u : ChainUnit) : (s.setChain u).frame = s.frame := rfl
@[simp] theorem State.setChain_intake (u : ChainUnit) : (s.setChain u).intake = s.intake := rfl
@[simp] theorem State.setChain_sys (u : ChainUnit) : (s.setChain u).sys = s.sys := rfl
@[simp] theorem State.setChain_vec (u : ChainUnit) : (s.setChain u).vec = s.vec := rfl
@[simp] theorem State.setChain_tgt (u : ChainUnit) : (s.setChain u).tgt = s.tgt := rfl
@[simp] theorem State.setChain_ten (u : ChainUnit) : (s.setChain u).ten = s.ten := rfl
@[simp] theorem State.setChain_mbx (u : ChainUnit) : (s.setChain u).mbx = s.mbx := rfl
@[simp] theorem State.setChain_acu (u : ChainUnit) : (s.setChain u).acu = s.acu := rfl
@[simp] theorem State.setChain_chain (u : ChainUnit) : (s.setChain u).chain = u := rfl
@[simp] theorem State.setChain_bead (u : ChainUnit) : (s.setChain u).bead = s.bead := rfl
@[simp] theorem State.setChain_pwr (u : ChainUnit) : (s.setChain u).pwr = s.pwr := rfl
@[simp] theorem State.setChain_ras (u : ChainUnit) : (s.setChain u).ras = s.ras := rfl
@[simp] theorem State.setChain_loupe (u : ChainUnit) : (s.setChain u).loupe = s.loupe := rfl
@[simp] theorem State.setChain_hm (u : ChainUnit) : (s.setChain u).hm = s.hm := rfl
@[simp] theorem State.setChain_bnd (u : ChainUnit) : (s.setChain u).bnd = s.bnd := rfl
@[simp] theorem State.setChain_pending (u : ChainUnit) : (s.setChain u).pending = s.pending := rfl

@[simp] theorem State.setBead_frame (u : BeadUnit) : (s.setBead u).frame = s.frame := rfl
@[simp] theorem State.setBead_intake (u : BeadUnit) : (s.setBead u).intake = s.intake := rfl
@[simp] theorem State.setBead_sys (u : BeadUnit) : (s.setBead u).sys = s.sys := rfl
@[simp] theorem State.setBead_vec (u : BeadUnit) : (s.setBead u).vec = s.vec := rfl
@[simp] theorem State.setBead_tgt (u : BeadUnit) : (s.setBead u).tgt = s.tgt := rfl
@[simp] theorem State.setBead_ten (u : BeadUnit) : (s.setBead u).ten = s.ten := rfl
@[simp] theorem State.setBead_mbx (u : BeadUnit) : (s.setBead u).mbx = s.mbx := rfl
@[simp] theorem State.setBead_acu (u : BeadUnit) : (s.setBead u).acu = s.acu := rfl
@[simp] theorem State.setBead_chain (u : BeadUnit) : (s.setBead u).chain = s.chain := rfl
@[simp] theorem State.setBead_bead (u : BeadUnit) : (s.setBead u).bead = u := rfl
@[simp] theorem State.setBead_pwr (u : BeadUnit) : (s.setBead u).pwr = s.pwr := rfl
@[simp] theorem State.setBead_ras (u : BeadUnit) : (s.setBead u).ras = s.ras := rfl
@[simp] theorem State.setBead_loupe (u : BeadUnit) : (s.setBead u).loupe = s.loupe := rfl
@[simp] theorem State.setBead_hm (u : BeadUnit) : (s.setBead u).hm = s.hm := rfl
@[simp] theorem State.setBead_bnd (u : BeadUnit) : (s.setBead u).bnd = s.bnd := rfl
@[simp] theorem State.setBead_pending (u : BeadUnit) : (s.setBead u).pending = s.pending := rfl

@[simp] theorem State.setPwr_frame (u : PwrUnit) : (s.setPwr u).frame = s.frame := rfl
@[simp] theorem State.setPwr_intake (u : PwrUnit) : (s.setPwr u).intake = s.intake := rfl
@[simp] theorem State.setPwr_sys (u : PwrUnit) : (s.setPwr u).sys = s.sys := rfl
@[simp] theorem State.setPwr_vec (u : PwrUnit) : (s.setPwr u).vec = s.vec := rfl
@[simp] theorem State.setPwr_tgt (u : PwrUnit) : (s.setPwr u).tgt = s.tgt := rfl
@[simp] theorem State.setPwr_ten (u : PwrUnit) : (s.setPwr u).ten = s.ten := rfl
@[simp] theorem State.setPwr_mbx (u : PwrUnit) : (s.setPwr u).mbx = s.mbx := rfl
@[simp] theorem State.setPwr_acu (u : PwrUnit) : (s.setPwr u).acu = s.acu := rfl
@[simp] theorem State.setPwr_chain (u : PwrUnit) : (s.setPwr u).chain = s.chain := rfl
@[simp] theorem State.setPwr_bead (u : PwrUnit) : (s.setPwr u).bead = s.bead := rfl
@[simp] theorem State.setPwr_pwr (u : PwrUnit) : (s.setPwr u).pwr = u := rfl
@[simp] theorem State.setPwr_ras (u : PwrUnit) : (s.setPwr u).ras = s.ras := rfl
@[simp] theorem State.setPwr_loupe (u : PwrUnit) : (s.setPwr u).loupe = s.loupe := rfl
@[simp] theorem State.setPwr_hm (u : PwrUnit) : (s.setPwr u).hm = s.hm := rfl
@[simp] theorem State.setPwr_bnd (u : PwrUnit) : (s.setPwr u).bnd = s.bnd := rfl
@[simp] theorem State.setPwr_pending (u : PwrUnit) : (s.setPwr u).pending = s.pending := rfl

@[simp] theorem State.setRas_frame (u : RasUnit) : (s.setRas u).frame = s.frame := rfl
@[simp] theorem State.setRas_intake (u : RasUnit) : (s.setRas u).intake = s.intake := rfl
@[simp] theorem State.setRas_sys (u : RasUnit) : (s.setRas u).sys = s.sys := rfl
@[simp] theorem State.setRas_vec (u : RasUnit) : (s.setRas u).vec = s.vec := rfl
@[simp] theorem State.setRas_tgt (u : RasUnit) : (s.setRas u).tgt = s.tgt := rfl
@[simp] theorem State.setRas_ten (u : RasUnit) : (s.setRas u).ten = s.ten := rfl
@[simp] theorem State.setRas_mbx (u : RasUnit) : (s.setRas u).mbx = s.mbx := rfl
@[simp] theorem State.setRas_acu (u : RasUnit) : (s.setRas u).acu = s.acu := rfl
@[simp] theorem State.setRas_chain (u : RasUnit) : (s.setRas u).chain = s.chain := rfl
@[simp] theorem State.setRas_bead (u : RasUnit) : (s.setRas u).bead = s.bead := rfl
@[simp] theorem State.setRas_pwr (u : RasUnit) : (s.setRas u).pwr = s.pwr := rfl
@[simp] theorem State.setRas_ras (u : RasUnit) : (s.setRas u).ras = u := rfl
@[simp] theorem State.setRas_loupe (u : RasUnit) : (s.setRas u).loupe = s.loupe := rfl
@[simp] theorem State.setRas_hm (u : RasUnit) : (s.setRas u).hm = s.hm := rfl
@[simp] theorem State.setRas_bnd (u : RasUnit) : (s.setRas u).bnd = s.bnd := rfl
@[simp] theorem State.setRas_pending (u : RasUnit) : (s.setRas u).pending = s.pending := rfl

@[simp] theorem State.setLoupe_frame (u : LoupeUnit) : (s.setLoupe u).frame = s.frame := rfl
@[simp] theorem State.setLoupe_intake (u : LoupeUnit) : (s.setLoupe u).intake = s.intake := rfl
@[simp] theorem State.setLoupe_sys (u : LoupeUnit) : (s.setLoupe u).sys = s.sys := rfl
@[simp] theorem State.setLoupe_vec (u : LoupeUnit) : (s.setLoupe u).vec = s.vec := rfl
@[simp] theorem State.setLoupe_tgt (u : LoupeUnit) : (s.setLoupe u).tgt = s.tgt := rfl
@[simp] theorem State.setLoupe_ten (u : LoupeUnit) : (s.setLoupe u).ten = s.ten := rfl
@[simp] theorem State.setLoupe_mbx (u : LoupeUnit) : (s.setLoupe u).mbx = s.mbx := rfl
@[simp] theorem State.setLoupe_acu (u : LoupeUnit) : (s.setLoupe u).acu = s.acu := rfl
@[simp] theorem State.setLoupe_chain (u : LoupeUnit) : (s.setLoupe u).chain = s.chain := rfl
@[simp] theorem State.setLoupe_bead (u : LoupeUnit) : (s.setLoupe u).bead = s.bead := rfl
@[simp] theorem State.setLoupe_pwr (u : LoupeUnit) : (s.setLoupe u).pwr = s.pwr := rfl
@[simp] theorem State.setLoupe_ras (u : LoupeUnit) : (s.setLoupe u).ras = s.ras := rfl
@[simp] theorem State.setLoupe_loupe (u : LoupeUnit) : (s.setLoupe u).loupe = u := rfl
@[simp] theorem State.setLoupe_hm (u : LoupeUnit) : (s.setLoupe u).hm = s.hm := rfl
@[simp] theorem State.setLoupe_bnd (u : LoupeUnit) : (s.setLoupe u).bnd = s.bnd := rfl
@[simp] theorem State.setLoupe_pending (u : LoupeUnit) : (s.setLoupe u).pending = s.pending := rfl

@[simp] theorem State.setHm_frame (u : HmUnit) : (s.setHm u).frame = s.frame := rfl
@[simp] theorem State.setHm_intake (u : HmUnit) : (s.setHm u).intake = s.intake := rfl
@[simp] theorem State.setHm_sys (u : HmUnit) : (s.setHm u).sys = s.sys := rfl
@[simp] theorem State.setHm_vec (u : HmUnit) : (s.setHm u).vec = s.vec := rfl
@[simp] theorem State.setHm_tgt (u : HmUnit) : (s.setHm u).tgt = s.tgt := rfl
@[simp] theorem State.setHm_ten (u : HmUnit) : (s.setHm u).ten = s.ten := rfl
@[simp] theorem State.setHm_mbx (u : HmUnit) : (s.setHm u).mbx = s.mbx := rfl
@[simp] theorem State.setHm_acu (u : HmUnit) : (s.setHm u).acu = s.acu := rfl
@[simp] theorem State.setHm_chain (u : HmUnit) : (s.setHm u).chain = s.chain := rfl
@[simp] theorem State.setHm_bead (u : HmUnit) : (s.setHm u).bead = s.bead := rfl
@[simp] theorem State.setHm_pwr (u : HmUnit) : (s.setHm u).pwr = s.pwr := rfl
@[simp] theorem State.setHm_ras (u : HmUnit) : (s.setHm u).ras = s.ras := rfl
@[simp] theorem State.setHm_loupe (u : HmUnit) : (s.setHm u).loupe = s.loupe := rfl
@[simp] theorem State.setHm_hm (u : HmUnit) : (s.setHm u).hm = u := rfl
@[simp] theorem State.setHm_bnd (u : HmUnit) : (s.setHm u).bnd = s.bnd := rfl
@[simp] theorem State.setHm_pending (u : HmUnit) : (s.setHm u).pending = s.pending := rfl

@[simp] theorem State.setBnd_frame (u : BoundaryUnit) : (s.setBnd u).frame = s.frame := rfl
@[simp] theorem State.setBnd_intake (u : BoundaryUnit) : (s.setBnd u).intake = s.intake := rfl
@[simp] theorem State.setBnd_sys (u : BoundaryUnit) : (s.setBnd u).sys = s.sys := rfl
@[simp] theorem State.setBnd_vec (u : BoundaryUnit) : (s.setBnd u).vec = s.vec := rfl
@[simp] theorem State.setBnd_tgt (u : BoundaryUnit) : (s.setBnd u).tgt = s.tgt := rfl
@[simp] theorem State.setBnd_ten (u : BoundaryUnit) : (s.setBnd u).ten = s.ten := rfl
@[simp] theorem State.setBnd_mbx (u : BoundaryUnit) : (s.setBnd u).mbx = s.mbx := rfl
@[simp] theorem State.setBnd_acu (u : BoundaryUnit) : (s.setBnd u).acu = s.acu := rfl
@[simp] theorem State.setBnd_chain (u : BoundaryUnit) : (s.setBnd u).chain = s.chain := rfl
@[simp] theorem State.setBnd_bead (u : BoundaryUnit) : (s.setBnd u).bead = s.bead := rfl
@[simp] theorem State.setBnd_pwr (u : BoundaryUnit) : (s.setBnd u).pwr = s.pwr := rfl
@[simp] theorem State.setBnd_ras (u : BoundaryUnit) : (s.setBnd u).ras = s.ras := rfl
@[simp] theorem State.setBnd_loupe (u : BoundaryUnit) : (s.setBnd u).loupe = s.loupe := rfl
@[simp] theorem State.setBnd_hm (u : BoundaryUnit) : (s.setBnd u).hm = s.hm := rfl
@[simp] theorem State.setBnd_bnd (u : BoundaryUnit) : (s.setBnd u).bnd = u := rfl
@[simp] theorem State.setBnd_pending (u : BoundaryUnit) : (s.setBnd u).pending = s.pending := rfl

@[simp] theorem State.setFw_frame (u : FwUnit) : (s.setFw u).frame = s.frame := rfl
@[simp] theorem State.setFw_intake (u : FwUnit) : (s.setFw u).intake = s.intake := rfl
@[simp] theorem State.setFw_sys (u : FwUnit) : (s.setFw u).sys = s.sys := rfl
@[simp] theorem State.setFw_vec (u : FwUnit) : (s.setFw u).vec = s.vec := rfl
@[simp] theorem State.setFw_tgt (u : FwUnit) : (s.setFw u).tgt = s.tgt := rfl
@[simp] theorem State.setFw_ten (u : FwUnit) : (s.setFw u).ten = s.ten := rfl
@[simp] theorem State.setFw_mbx (u : FwUnit) : (s.setFw u).mbx = { s.mbx with fw := u } := rfl
@[simp] theorem State.setFw_acu (u : FwUnit) : (s.setFw u).acu = s.acu := rfl
@[simp] theorem State.setFw_chain (u : FwUnit) : (s.setFw u).chain = s.chain := rfl
@[simp] theorem State.setFw_bead (u : FwUnit) : (s.setFw u).bead = s.bead := rfl
@[simp] theorem State.setFw_pwr (u : FwUnit) : (s.setFw u).pwr = s.pwr := rfl
@[simp] theorem State.setFw_ras (u : FwUnit) : (s.setFw u).ras = s.ras := rfl
@[simp] theorem State.setFw_loupe (u : FwUnit) : (s.setFw u).loupe = s.loupe := rfl
@[simp] theorem State.setFw_hm (u : FwUnit) : (s.setFw u).hm = s.hm := rfl
@[simp] theorem State.setFw_bnd (u : FwUnit) : (s.setFw u).bnd = s.bnd := rfl
@[simp] theorem State.setFw_pending (u : FwUnit) : (s.setFw u).pending = s.pending := rfl

/-! ## One record is replaced -/

@[simp] theorem State.setTenant_frame (t : Tenant) (r : TenantRec) : (s.setTenant t r).frame = s.frame := rfl
@[simp] theorem State.setTenant_intake (t : Tenant) (r : TenantRec) : (s.setTenant t r).intake = s.intake := rfl
@[simp] theorem State.setTenant_sys (t : Tenant) (r : TenantRec) : (s.setTenant t r).sys = s.sys := rfl
@[simp] theorem State.setTenant_vec (t : Tenant) (r : TenantRec) : (s.setTenant t r).vec = s.vec := rfl
@[simp] theorem State.setTenant_tgt (t : Tenant) (r : TenantRec) : (s.setTenant t r).tgt = s.tgt := rfl
@[simp] theorem State.setTenant_mbx (t : Tenant) (r : TenantRec) : (s.setTenant t r).mbx = s.mbx := rfl
@[simp] theorem State.setTenant_acu (t : Tenant) (r : TenantRec) : (s.setTenant t r).acu = s.acu := rfl
@[simp] theorem State.setTenant_chain (t : Tenant) (r : TenantRec) : (s.setTenant t r).chain = s.chain := rfl
@[simp] theorem State.setTenant_bead (t : Tenant) (r : TenantRec) : (s.setTenant t r).bead = s.bead := rfl
@[simp] theorem State.setTenant_pwr (t : Tenant) (r : TenantRec) : (s.setTenant t r).pwr = s.pwr := rfl
@[simp] theorem State.setTenant_ras (t : Tenant) (r : TenantRec) : (s.setTenant t r).ras = s.ras := rfl
@[simp] theorem State.setTenant_loupe (t : Tenant) (r : TenantRec) : (s.setTenant t r).loupe = s.loupe := rfl
@[simp] theorem State.setTenant_hm (t : Tenant) (r : TenantRec) : (s.setTenant t r).hm = s.hm := rfl
@[simp] theorem State.setTenant_bnd (t : Tenant) (r : TenantRec) : (s.setTenant t r).bnd = s.bnd := rfl
@[simp] theorem State.setTenant_pending (t : Tenant) (r : TenantRec) : (s.setTenant t r).pending = s.pending := rfl

@[simp] theorem State.setTarget_frame (x : Slot) (r : TargetRec) : (s.setTarget x r).frame = s.frame := rfl
@[simp] theorem State.setTarget_intake (x : Slot) (r : TargetRec) : (s.setTarget x r).intake = s.intake := rfl
@[simp] theorem State.setTarget_sys (x : Slot) (r : TargetRec) : (s.setTarget x r).sys = s.sys := rfl
@[simp] theorem State.setTarget_vec (x : Slot) (r : TargetRec) : (s.setTarget x r).vec = s.vec := rfl
@[simp] theorem State.setTarget_ten (x : Slot) (r : TargetRec) : (s.setTarget x r).ten = s.ten := rfl
@[simp] theorem State.setTarget_mbx (x : Slot) (r : TargetRec) : (s.setTarget x r).mbx = s.mbx := rfl
@[simp] theorem State.setTarget_acu (x : Slot) (r : TargetRec) : (s.setTarget x r).acu = s.acu := rfl
@[simp] theorem State.setTarget_chain (x : Slot) (r : TargetRec) : (s.setTarget x r).chain = s.chain := rfl
@[simp] theorem State.setTarget_bead (x : Slot) (r : TargetRec) : (s.setTarget x r).bead = s.bead := rfl
@[simp] theorem State.setTarget_pwr (x : Slot) (r : TargetRec) : (s.setTarget x r).pwr = s.pwr := rfl
@[simp] theorem State.setTarget_ras (x : Slot) (r : TargetRec) : (s.setTarget x r).ras = s.ras := rfl
@[simp] theorem State.setTarget_loupe (x : Slot) (r : TargetRec) : (s.setTarget x r).loupe = s.loupe := rfl
@[simp] theorem State.setTarget_hm (x : Slot) (r : TargetRec) : (s.setTarget x r).hm = s.hm := rfl
@[simp] theorem State.setTarget_bnd (x : Slot) (r : TargetRec) : (s.setTarget x r).bnd = s.bnd := rfl
@[simp] theorem State.setTarget_pending (x : Slot) (r : TargetRec) : (s.setTarget x r).pending = s.pending := rfl

@[simp] theorem State.setDom_frame (d : Nat) (r : DomainRec) : (s.setDom d r).frame = s.frame := rfl
@[simp] theorem State.setDom_intake (d : Nat) (r : DomainRec) : (s.setDom d r).intake = s.intake := rfl
@[simp] theorem State.setDom_sys (d : Nat) (r : DomainRec) : (s.setDom d r).sys = s.sys := rfl
@[simp] theorem State.setDom_vec (d : Nat) (r : DomainRec) : (s.setDom d r).vec = s.vec := rfl
@[simp] theorem State.setDom_tgt (d : Nat) (r : DomainRec) : (s.setDom d r).tgt = s.tgt := rfl
@[simp] theorem State.setDom_ten (d : Nat) (r : DomainRec) : (s.setDom d r).ten = s.ten := rfl
@[simp] theorem State.setDom_mbx (d : Nat) (r : DomainRec) : (s.setDom d r).mbx = s.mbx := rfl
@[simp] theorem State.setDom_acu (d : Nat) (r : DomainRec) : (s.setDom d r).acu = s.acu := rfl
@[simp] theorem State.setDom_chain (d : Nat) (r : DomainRec) : (s.setDom d r).chain = s.chain := rfl
@[simp] theorem State.setDom_bead (d : Nat) (r : DomainRec) : (s.setDom d r).bead = s.bead := rfl
@[simp] theorem State.setDom_ras (d : Nat) (r : DomainRec) : (s.setDom d r).ras = s.ras := rfl
@[simp] theorem State.setDom_loupe (d : Nat) (r : DomainRec) : (s.setDom d r).loupe = s.loupe := rfl
@[simp] theorem State.setDom_hm (d : Nat) (r : DomainRec) : (s.setDom d r).hm = s.hm := rfl
@[simp] theorem State.setDom_bnd (d : Nat) (r : DomainRec) : (s.setDom d r).bnd = s.bnd := rfl
@[simp] theorem State.setDom_pending (d : Nat) (r : DomainRec) : (s.setDom d r).pending = s.pending := rfl

@[simp] theorem State.setBox_frame (m : BitVec 7) (b : Mailbox) : (s.setBox m b).frame = s.frame := rfl
@[simp] theorem State.setBox_intake (m : BitVec 7) (b : Mailbox) : (s.setBox m b).intake = s.intake := rfl
@[simp] theorem State.setBox_sys (m : BitVec 7) (b : Mailbox) : (s.setBox m b).sys = s.sys := rfl
@[simp] theorem State.setBox_vec (m : BitVec 7) (b : Mailbox) : (s.setBox m b).vec = s.vec := rfl
@[simp] theorem State.setBox_tgt (m : BitVec 7) (b : Mailbox) : (s.setBox m b).tgt = s.tgt := rfl
@[simp] theorem State.setBox_ten (m : BitVec 7) (b : Mailbox) : (s.setBox m b).ten = s.ten := rfl
@[simp] theorem State.setBox_acu (m : BitVec 7) (b : Mailbox) : (s.setBox m b).acu = s.acu := rfl
@[simp] theorem State.setBox_chain (m : BitVec 7) (b : Mailbox) : (s.setBox m b).chain = s.chain := rfl
@[simp] theorem State.setBox_bead (m : BitVec 7) (b : Mailbox) : (s.setBox m b).bead = s.bead := rfl
@[simp] theorem State.setBox_pwr (m : BitVec 7) (b : Mailbox) : (s.setBox m b).pwr = s.pwr := rfl
@[simp] theorem State.setBox_ras (m : BitVec 7) (b : Mailbox) : (s.setBox m b).ras = s.ras := rfl
@[simp] theorem State.setBox_loupe (m : BitVec 7) (b : Mailbox) : (s.setBox m b).loupe = s.loupe := rfl
@[simp] theorem State.setBox_hm (m : BitVec 7) (b : Mailbox) : (s.setBox m b).hm = s.hm := rfl
@[simp] theorem State.setBox_bnd (m : BitVec 7) (b : Mailbox) : (s.setBox m b).bnd = s.bnd := rfl
@[simp] theorem State.setBox_pending (m : BitVec 7) (b : Mailbox) : (s.setBox m b).pending = s.pending := rfl

@[simp] theorem State.setClasp_frame (g : BitVec 12) (w : ClaspWord) : (s.setClasp g w).frame = s.frame := rfl
@[simp] theorem State.setClasp_intake (g : BitVec 12) (w : ClaspWord) : (s.setClasp g w).intake = s.intake := rfl
@[simp] theorem State.setClasp_sys (g : BitVec 12) (w : ClaspWord) : (s.setClasp g w).sys = s.sys := rfl
@[simp] theorem State.setClasp_vec (g : BitVec 12) (w : ClaspWord) : (s.setClasp g w).vec = s.vec := rfl
@[simp] theorem State.setClasp_tgt (g : BitVec 12) (w : ClaspWord) : (s.setClasp g w).tgt = s.tgt := rfl
@[simp] theorem State.setClasp_mbx (g : BitVec 12) (w : ClaspWord) : (s.setClasp g w).mbx = s.mbx := rfl
@[simp] theorem State.setClasp_acu (g : BitVec 12) (w : ClaspWord) : (s.setClasp g w).acu = s.acu := rfl
@[simp] theorem State.setClasp_chain (g : BitVec 12) (w : ClaspWord) : (s.setClasp g w).chain = s.chain := rfl
@[simp] theorem State.setClasp_bead (g : BitVec 12) (w : ClaspWord) : (s.setClasp g w).bead = s.bead := rfl
@[simp] theorem State.setClasp_pwr (g : BitVec 12) (w : ClaspWord) : (s.setClasp g w).pwr = s.pwr := rfl
@[simp] theorem State.setClasp_ras (g : BitVec 12) (w : ClaspWord) : (s.setClasp g w).ras = s.ras := rfl
@[simp] theorem State.setClasp_loupe (g : BitVec 12) (w : ClaspWord) : (s.setClasp g w).loupe = s.loupe := rfl
@[simp] theorem State.setClasp_hm (g : BitVec 12) (w : ClaspWord) : (s.setClasp g w).hm = s.hm := rfl
@[simp] theorem State.setClasp_bnd (g : BitVec 12) (w : ClaspWord) : (s.setClasp g w).bnd = s.bnd := rfl
@[simp] theorem State.setClasp_pending (g : BitVec 12) (w : ClaspWord) : (s.setClasp g w).pending = s.pending := rfl

@[simp] theorem State.setBusy_frame (x : Slot) (b : Bool) : (s.setBusy x b).frame = s.frame := rfl
@[simp] theorem State.setBusy_intake (x : Slot) (b : Bool) : (s.setBusy x b).intake = s.intake := rfl
@[simp] theorem State.setBusy_sys (x : Slot) (b : Bool) : (s.setBusy x b).sys = s.sys := rfl
@[simp] theorem State.setBusy_vec (x : Slot) (b : Bool) : (s.setBusy x b).vec = s.vec := rfl
@[simp] theorem State.setBusy_ten (x : Slot) (b : Bool) : (s.setBusy x b).ten = s.ten := rfl
@[simp] theorem State.setBusy_mbx (x : Slot) (b : Bool) : (s.setBusy x b).mbx = s.mbx := rfl
@[simp] theorem State.setBusy_acu (x : Slot) (b : Bool) : (s.setBusy x b).acu = s.acu := rfl
@[simp] theorem State.setBusy_chain (x : Slot) (b : Bool) : (s.setBusy x b).chain = s.chain := rfl
@[simp] theorem State.setBusy_bead (x : Slot) (b : Bool) : (s.setBusy x b).bead = s.bead := rfl
@[simp] theorem State.setBusy_pwr (x : Slot) (b : Bool) : (s.setBusy x b).pwr = s.pwr := rfl
@[simp] theorem State.setBusy_ras (x : Slot) (b : Bool) : (s.setBusy x b).ras = s.ras := rfl
@[simp] theorem State.setBusy_loupe (x : Slot) (b : Bool) : (s.setBusy x b).loupe = s.loupe := rfl
@[simp] theorem State.setBusy_hm (x : Slot) (b : Bool) : (s.setBusy x b).hm = s.hm := rfl
@[simp] theorem State.setBusy_bnd (x : Slot) (b : Bool) : (s.setBusy x b).bnd = s.bnd := rfl
@[simp] theorem State.setBusy_pending (x : Slot) (b : Bool) : (s.setBusy x b).pending = s.pending := rfl

@[simp] theorem State.clearBusyNext_frame (x : Slot) : (s.clearBusyNext x).frame = s.frame := rfl
@[simp] theorem State.clearBusyNext_intake (x : Slot) : (s.clearBusyNext x).intake = s.intake := rfl
@[simp] theorem State.clearBusyNext_sys (x : Slot) : (s.clearBusyNext x).sys = s.sys := rfl
@[simp] theorem State.clearBusyNext_vec (x : Slot) : (s.clearBusyNext x).vec = s.vec := rfl
@[simp] theorem State.clearBusyNext_ten (x : Slot) : (s.clearBusyNext x).ten = s.ten := rfl
@[simp] theorem State.clearBusyNext_mbx (x : Slot) : (s.clearBusyNext x).mbx = s.mbx := rfl
@[simp] theorem State.clearBusyNext_acu (x : Slot) : (s.clearBusyNext x).acu = s.acu := rfl
@[simp] theorem State.clearBusyNext_chain (x : Slot) : (s.clearBusyNext x).chain = s.chain := rfl
@[simp] theorem State.clearBusyNext_bead (x : Slot) : (s.clearBusyNext x).bead = s.bead := rfl
@[simp] theorem State.clearBusyNext_pwr (x : Slot) : (s.clearBusyNext x).pwr = s.pwr := rfl
@[simp] theorem State.clearBusyNext_ras (x : Slot) : (s.clearBusyNext x).ras = s.ras := rfl
@[simp] theorem State.clearBusyNext_loupe (x : Slot) : (s.clearBusyNext x).loupe = s.loupe := rfl
@[simp] theorem State.clearBusyNext_hm (x : Slot) : (s.clearBusyNext x).hm = s.hm := rfl
@[simp] theorem State.clearBusyNext_bnd (x : Slot) : (s.clearBusyNext x).bnd = s.bnd := rfl
@[simp] theorem State.clearBusyNext_pending (x : Slot) : (s.clearBusyNext x).pending = s.pending := rfl

theorem State.setTenant_tenant_self (t : Tenant) (v : TenantRec) (h : Sparse.wf {} s.ten.recs = true) : (s.setTenant t v).tenant t = v :=
  (Sparse.get_set _ _ _ _ _ h).trans (if_pos rfl)

theorem State.setTenant_tenant_ne (t j : Tenant) (v : TenantRec) (h : j ≠ t) : (s.setTenant t v).tenant j = s.tenant j :=
  Sparse.get_set_ne _ _ _ _ _ (fun e => h (BitVec.eq_of_toNat_eq e))

theorem State.setTarget_target_self (x : Slot) (v : TargetRec) (h : Sparse.wf {} s.tgt.recs = true) : (s.setTarget x v).target x = v :=
  (Sparse.get_set _ _ _ _ _ h).trans (if_pos rfl)

theorem State.setTarget_target_ne (x j : Slot) (v : TargetRec) (h : j ≠ x) : (s.setTarget x v).target j = s.target j :=
  Sparse.get_set_ne _ _ _ _ _ (fun e => h (BitVec.eq_of_toNat_eq e))

theorem State.setDom_dom_self (d : Nat) (v : DomainRec) (h : Sparse.wf {} s.pwr.domains = true) : (s.setDom d v).dom d = v :=
  (Sparse.get_set _ _ _ _ _ h).trans (if_pos rfl)

theorem State.setDom_dom_ne (d j : Nat) (v : DomainRec) (h : j ≠ d) : (s.setDom d v).dom j = s.dom j :=
  Sparse.get_set_ne _ _ _ _ _ h

theorem State.setBox_box_self (m : BitVec 7) (v : Mailbox) (h : Sparse.wf {} s.mbx.boxes = true) : (s.setBox m v).box m = v :=
  (Sparse.get_set _ _ _ _ _ h).trans (if_pos rfl)

theorem State.setBox_box_ne (m j : BitVec 7) (v : Mailbox) (h : j ≠ m) : (s.setBox m v).box j = s.box j :=
  Sparse.get_set_ne _ _ _ _ _ (fun e => h (BitVec.eq_of_toNat_eq e))

theorem State.setClasp_clasp_self (g : BitVec 12) (v : ClaspWord) (h : Sparse.wf {} s.ten.clasp = true) : (s.setClasp g v).clasp g = v :=
  (Sparse.get_set _ _ _ _ _ h).trans (if_pos rfl)

theorem State.setClasp_clasp_ne (g j : BitVec 12) (v : ClaspWord) (h : j ≠ g) : (s.setClasp g v).clasp j = s.clasp j :=
  Sparse.get_set_ne _ _ _ _ _ (fun e => h (BitVec.eq_of_toNat_eq e))

theorem State.setBusy_busyBit_self (x : Slot) (v : Bool) (h : Sparse.wf false s.tgt.busy = true) : (s.setBusy x v).busyBit x = v :=
  (Sparse.get_set _ _ _ _ _ h).trans (if_pos rfl)

theorem State.setBusy_busyBit_ne (x j : Slot) (v : Bool) (h : j ≠ x) : (s.setBusy x v).busyBit j = s.busyBit j :=
  Sparse.get_set_ne _ _ _ _ _ (fun e => h (BitVec.eq_of_toNat_eq e))

end Sys2Proof.Machine
end

