-- ==== Sys2Proof/Laws/Clean.lean ====
section
/-! SUPPORT. What the shared operations do in a state with no stored error (Safety.lean): accesses to lines leave the state alone, and a write of a word is the word's write. -/
namespace Sys2Proof.Machine

variable {s : State}

theorem readLine_clean (h : s.Clean) (f : BitVec 3) (rmw : Bool) (l : LineId) : readLine f rmw s l = s := by
  unfold readLine
  rw [if_pos (by rw [h.errs]; rfl)]

theorem wroteLine_clean (h : s.Clean) (l : LineId) : wroteLine s l = s := by
  have h1 : (if s.ras.errs.isEmpty && s.ras.uncounted.isEmpty then s else freshLine s l) = s :=
    if_pos (by rw [h.errs, h.uncounted]; rfl)
  unfold wroteLine
  rw [h1]
  exact if_neg (by rw [h.arm]; exact Bool.false_ne_true)

theorem readCfg_clean (h : s.Clean) (src : Src) : readCfg s src = s := by
  unfold readCfg
  split
  · exact readLine_clean h _ _ _
  · rfl

theorem readSt_clean (h : s.Clean) (src : Src) : readSt s src = s := by
  unfold readSt
  split
  · exact readLine_clean h _ _ _
  · rfl

/-- Cleanness is a matter of the reliability unit alone. -/
theorem State.Clean.of_ras (h : s.Clean) {t : State} (e : t.ras = s.ras) : t.Clean :=
  ⟨by rw [e]; exact h.errs, by rw [e]; exact h.uncounted, by rw [e]; exact h.arm⟩

@[simp] theorem State.putCfg_ras (s : State) (src : Src) (c : W64) : (s.putCfg src c).ras = s.ras := by
  unfold State.putCfg
  split <;> rfl

@[simp] theorem State.putSt_ras (s : State) (src : Src) (w : W32) : (s.putSt src w).ras = s.ras := by
  unfold State.putSt
  split <;> rfl

theorem State.Clean.putCfg (h : s.Clean) (src : Src) (c : W64) : (s.putCfg src c).Clean :=
  h.of_ras (State.putCfg_ras _ _ _)

theorem State.Clean.putSt (h : s.Clean) (src : Src) (w : W32) : (s.putSt src w).Clean :=
  h.of_ras (State.putSt_ras _ _ _)

/-- A source that has no words is written nowhere. -/
theorem State.putCfg_none {src : Src} (h : cfgLineOf src = none) (c : W64) : s.putCfg src c = s := by
  unfold cfgLineOf at h
  unfold State.putCfg
  split <;> simp_all

theorem State.putSt_none {src : Src} (h : stLineOf src = none) (w : W32) : s.putSt src w = s := by
  unfold stLineOf at h
  unfold State.putSt
  split <;> simp_all

theorem writeCfg_clean (h : s.Clean) (src : Src) (c : W64) : writeCfg s src c = s.putCfg src c := by
  unfold writeCfg
  split
  · rw [readLine_clean h]
    exact wroteLine_clean (h.of_ras (State.putCfg_ras _ _ _)) _
  · rename_i e
    exact (State.putCfg_none e c).symm

theorem writeSt_clean (h : s.Clean) (src : Src) (w : W32) : writeSt s src w = s.putSt src w := by
  unfold writeSt
  split
  · exact wroteLine_clean (h.of_ras (State.putSt_ras _ _ _)) _
  · rename_i e
    exact (State.putSt_none e w).symm

theorem touchTarget_clean (h : s.Clean) (x : Slot) : touchTarget s x = s := by
  unfold touchTarget
  simp only [readLine_clean h, wroteLine_clean h]

theorem readTarget_clean (h : s.Clean) (x : Slot) : readTarget s x = s := by
  unfold readTarget
  simp only [readLine_clean h]

theorem peekSt_clean (h : s.Clean) (src : Src) : peekSt s src = s := by
  unfold peekSt
  split
  · exact readLine_clean h _ _ _
  · rfl

theorem wroteTarget_clean (h : s.Clean) (x : Slot) : wroteTarget s x = s := by
  unfold wroteTarget
  simp only [wroteLine_clean h]

theorem removeSrc_clean (h : s.Clean) (x : Slot) (src : Src) : removeSrc s x src = removeRaw s x src := by
  unfold removeSrc
  rw [touchTarget_clean h]

theorem present_clean (h : s.Clean) (src : Src) (x : Slot) : present s src x = presentRaw s src x := by
  unfold present presentRaw
  rw [touchTarget_clean h]
  split <;> simp_all

/-- Two folds whose steps agree in every clean state, and keep it clean, agree from a clean state. -/
theorem foldl_clean {V : Type} {f g : State → V → State} (e : ∀ s : State, s.Clean → ∀ v, f s v = g s v)
    (k : ∀ s v, (g s v).ras = s.ras) : ∀ (l : List V) (s : State), s.Clean → l.foldl f s = l.foldl g s
  | [], _, _ => rfl
  | v :: l, s, h => by
    rw [List.foldl_cons, List.foldl_cons, e s h v]
    exact foldl_clean e k l _ (h.of_ras (k s v))

theorem readIndex_clean (h : s.Clean) (lo hi : Nat) : readIndex s lo hi = s := by
  unfold readIndex
  rw [h.errs]
  rfl

theorem readGroups_clean (h : s.Clean) (lo hi : Nat) : readGroups s lo hi = s := by
  have e : ∀ {V : Type} (f : State → V → State), (∀ v, f s v = s) → ∀ l : List V, l.foldl f s = s := by
    intro V f k l
    induction l with
    | nil => rfl
    | cons v l ih => rw [List.foldl_cons, k v, ih]
  unfold readGroups
  refine e _ (fun g => ?_) _
  exact e (fun s k => peekSt s (indexSrc (64 * g + 8 * k))) (fun k => peekSt_clean h _) _

theorem readGroupWord_clean (h : s.Clean) (c : W64) : readGroupWord s c = s := by
  unfold readGroupWord
  simp only [readLine_clean h, ite_self]

theorem touchClasp_clean (h : s.Clean) (g : BitVec 12) : touchClasp s g = s := by
  unfold touchClasp
  simp only [readLine_clean h, wroteLine_clean h]

end Sys2Proof.Machine
end

