-- ==== Sys2Proof/Laws/Frames.lean ====
section
/-! SUPPORT. Frames of the shared operations: which parts of the state (Safety.lean) each of them can change. -/
namespace Sys2Proof.Machine

variable {s t u : State} {a b : List Part}

/-! ## Composing frames -/

theorem OnlyChanges.refl (a : List Part) (s : State) : OnlyChanges a s s := by
  intro p _; cases p <;> rfl

theorem OnlyChanges.trans (h : OnlyChanges a s t) (k : OnlyChanges a t u) : OnlyChanges a s u := by
  intro p hp
  have := h p hp
  have := k p hp
  cases p <;> simp_all [State.same]

theorem OnlyChanges.mono (h : OnlyChanges a s t) (k : ∀ p ∈ a, p ∈ b) : OnlyChanges b s t :=
  fun p hp => h p fun ha => hp (k p ha)

theorem OnlyChanges.foldl {V : Type} (f : State → V → State) (h : ∀ s v, OnlyChanges a s (f s v)) :
    ∀ (l : List V) (s : State), OnlyChanges a s (l.foldl f s)
  | [], s => .refl a s
  | v :: l, s => (h s v).trans (OnlyChanges.foldl f h l (f s v))

theorem OnlyChanges.ite {c : Prop} [Decidable c] (h : OnlyChanges a s t) (k : OnlyChanges a s u) :
    OnlyChanges a s (if c then t else u) := by
  split <;> assumption

/-! ## Setters -/

theorem setFrame_only (v : FrameUnit) : OnlyChanges [.frame] s (s.setFrame v) := by
  intro p h; cases p <;> first | rfl | exact absurd (by decide) h
theorem setIntake_only (v : IntakeUnit) : OnlyChanges [.intake] s (s.setIntake v) := by
  intro p h; cases p <;> first | rfl | exact absurd (by decide) h
theorem setSys_only (v : SysUnit) : OnlyChanges [.sys] s (s.setSys v) := by
  intro p h; cases p <;> first | rfl | exact absurd (by decide) h
theorem setVec_only (v : VecUnit) : OnlyChanges [.vec] s (s.setVec v) := by
  intro p h; cases p <;> first | rfl | exact absurd (by decide) h
theorem setTgt_only (v : TgtUnit) : OnlyChanges [.tgt] s (s.setTgt v) := by
  intro p h; cases p <;> first | rfl | exact absurd (by decide) h
theorem setTen_only (v : TenUnit) : OnlyChanges [.ten] s (s.setTen v) := by
  intro p h; cases p <;> first | rfl | exact absurd (by decide) h
theorem setMbx_only (v : MbxUnit) : OnlyChanges [.mbx] s (s.setMbx v) := by
  intro p h; cases p <;> first | rfl | exact absurd (by decide) h
theorem setAcu_only (v : AcuUnit) : OnlyChanges [.acu] s (s.setAcu v) := by
  intro p h; cases p <;> first | rfl | exact absurd (by decide) h
theorem setChain_only (v : ChainUnit) : OnlyChanges [.chain] s (s.setChain v) := by
  intro p h; cases p <;> first | rfl | exact absurd (by decide) h
theorem setBead_only (v : BeadUnit) : OnlyChanges [.bead] s (s.setBead v) := by
  intro p h; cases p <;> first | rfl | exact absurd (by decide) h
theorem setPwr_only (v : PwrUnit) : OnlyChanges [.pwr] s (s.setPwr v) := by
  intro p h; cases p <;> first | rfl | exact absurd (by decide) h
theorem setRas_only (v : RasUnit) : OnlyChanges [.ras] s (s.setRas v) := by
  intro p h; cases p <;> first | rfl | exact absurd (by decide) h
theorem setLoupe_only (v : LoupeUnit) : OnlyChanges [.loupe] s (s.setLoupe v) := by
  intro p h; cases p <;> first | rfl | exact absurd (by decide) h
theorem setHm_only (v : HmUnit) : OnlyChanges [.hm] s (s.setHm v) := by
  intro p h; cases p <;> first | rfl | exact absurd (by decide) h
theorem setBnd_only (v : BoundaryUnit) : OnlyChanges [.bnd] s (s.setBnd v) := by
  intro p h; cases p <;> first | rfl | exact absurd (by decide) h
theorem setTenant_only (n : Tenant) (r : TenantRec) : OnlyChanges [.ten] s (s.setTenant n r) := setTen_only _
theorem modTenant_only (n : Tenant) (f : TenantRec → TenantRec) : OnlyChanges [.ten] s (s.modTenant n f) := setTen_only _
theorem setTarget_only (x : Slot) (r : TargetRec) : OnlyChanges [.tgt] s (s.setTarget x r) := setTgt_only _
theorem modTarget_only (x : Slot) (f : TargetRec → TargetRec) : OnlyChanges [.tgt] s (s.modTarget x f) := setTgt_only _
theorem setDom_only (d : Nat) (r : DomainRec) : OnlyChanges [.pwr] s (s.setDom d r) := setPwr_only _
theorem setBox_only (m : BitVec 7) (r : Mailbox) : OnlyChanges [.mbx] s (s.setBox m r) := setMbx_only _
theorem modBox_only (m : BitVec 7) (f : Mailbox → Mailbox) : OnlyChanges [.mbx] s (s.modBox m f) := setMbx_only _
theorem setClasp_only (g : BitVec 12) (r : ClaspWord) : OnlyChanges [.ten] s (s.setClasp g r) := setTen_only _
theorem clearBusyNext_only (x : Slot) : OnlyChanges [.tgt] s (s.clearBusyNext x) := setTgt_only _
theorem setBusy_only (x : Slot) (v : Bool) : OnlyChanges [.tgt] s (s.setBusy x v) := setTgt_only _
theorem setLatch_only (n : Nat) (l : SysLatch) : OnlyChanges [.sys] s (s.setLatch n l) := setSys_only _
theorem setUse_only (w : FrameUse) : OnlyChanges [.frame] s (s.setUse w) := setFrame_only _

/-- A slot of a lane, and the bank accesses of a source, are counted in the frame's use and nowhere else. -/
theorem takeLane_use (s : State) (k : Lane) : ∃ w, takeLane s k = s.setUse w := ⟨_, rfl⟩

theorem takeBanks_use (s : State) (x : Src) (n : Nat) : ∃ w, takeBanks s x n = s.setUse w := by
  unfold takeBanks
  split
  · exact ⟨_, rfl⟩
  · exact ⟨s.frame.use, rfl⟩

theorem takeSlot_use (s : State) (k : Lane) (x : Src) (n : Nat) : ∃ w, takeBanks (takeLane s k) x n = s.setUse w := by
  obtain ⟨w, e⟩ := takeBanks_use (takeLane s k) x n
  exact ⟨w, e.trans rfl⟩

theorem count_only (w n : Nat) : OnlyChanges [.loupe] s (s.count w n) := setLoupe_only _

/-! ## Waking, sources and levels -/

theorem wakeOne_only (c : WakeCause) (s : State) (d : Nat) : OnlyChanges [.pwr] s (wakeOne c s d) := by
  unfold wakeOne
  dsimp only
  split
  · exact setDom_only _ _
  · exact .refl _ _
  · split
    · exact .refl _ _
    · split
      · exact .refl _ _
      · split
        · exact (setDom_only _ _).trans (setPwr_only _)
        · exact setDom_only _ _

theorem wake_only (c : WakeCause) (s : State) (d : Nat) : OnlyChanges [.pwr] s (wake c s d) :=
  OnlyChanges.foldl _ (wakeOne_only c) _ s

theorem wakeAll_only (c : WakeCause) (s : State) : OnlyChanges [.pwr] s (wakeAll c s) := by
  unfold wakeAll
  split
  · exact .refl _ _
  · exact OnlyChanges.foldl _ (wake_only c) _ s

theorem watchMatch_only (s : State) (x : Src) : OnlyChanges [.pwr] s (watchMatch s x) := by
  unfold watchMatch
  split
  · exact wakeAll_only _ _
  · exact .refl _ _

theorem raiseSource_only (s : State) (n : Nat) : OnlyChanges [.sys, .pwr] s (raiseSource s n) := by
  unfold raiseSource
  split
  · exact .refl _ _
  · split
    · exact (setLatch_only _ _).mono (by decide)
    · exact ((setSys_only _).mono (by decide)).trans ((watchMatch_only _ _).mono (by decide))

theorem setLevel_only (s : State) (n : Nat) (v : Bool) : OnlyChanges [.sys, .pwr] s (setLevel s n v) := by
  unfold setLevel
  split
  · exact .refl _ _
  · dsimp only
    split
    · exact ((setSys_only _).mono (by decide)).trans (raiseSource_only _ _)
    · exact (setSys_only _).mono (by decide)

/-- Raising a source leaves every level alone. -/
theorem raiseSource_levels (s : State) (n : Nat) : (raiseSource s n).sys.levels = s.sys.levels := by
  unfold raiseSource
  split
  · rfl
  · split
    · rfl
    · rw [watchMatch_only _ _ .sys (by decide)]; rfl

theorem setLevel_level (h : CanonicalSys s.sys) (n : Nat) (v : Bool) : (setLevel s n v).level n = v := by
  unfold setLevel
  split
  · assumption
  · dsimp only
    have e : (s.setSys { s.sys with levels := Sparse.set false s.sys.levels n v }).level n = v :=
      (Sparse.get_set _ _ _ _ _ h.levels).trans (if_pos rfl)
    split
    · unfold State.level at e ⊢
      rw [raiseSource_levels]; exact e
    · exact e

theorem setLevel_level_ne (s : State) (n k : Nat) (v : Bool) (hk : k ≠ n) : (setLevel s n v).level k = s.level k := by
  unfold setLevel
  split
  · rfl
  · dsimp only
    have e : (s.setSys { s.sys with levels := Sparse.set false s.sys.levels n v }).level k = s.level k :=
      Sparse.get_set_ne _ _ _ _ _ hk
    split
    · unfold State.level at e ⊢
      rw [raiseSource_levels]; exact e
    · exact e

/-! ## Notices, faults, discards and credits -/

theorem setPriv_only (s : State) (x : Slot) (n : Nat) : OnlyChanges [.tgt] s (setPriv s x n) := setTgt_only _

theorem raiseNotice_only (s : State) (m : Tenant) (n : Nat) : OnlyChanges [.tgt] s (raiseNotice s m n) := by
  unfold raiseNotice
  split
  · exact setPriv_only _ _ _
  · exact .refl _ _

theorem notify_only (s : State) (m : Tenant) (n : Nat) : OnlyChanges [.tgt] s (notify s m n) := by
  unfold notify
  split
  · exact raiseNotice_only _ _ _
  · split
    · exact .refl _ _
    · exact setTgt_only _

theorem chargeFault_only (s : State) (m : Tenant) (code : Nat) (d : W32) :
    OnlyChanges [.ten, .tgt, .sys, .pwr] s (chargeFault s m code d) := by
  unfold chargeFault
  refine OnlyChanges.trans ?_ ((setLevel_only _ _ _).mono (by decide))
  dsimp only
  split
  · exact ((setTenant_only _ _).mono (by decide)).trans ((notify_only _ _ _).mono (by decide))
  · exact (setTenant_only _ _).mono (by decide)

theorem discard_only (s : State) (reason : Nat) (v : BitVec 20) (owner : BitVec 7) (c : Option Chip)
    (req : BitVec 16) (m : Option Tenant) :
    OnlyChanges [.intake, .loupe, .sys, .pwr, .ten, .tgt] s (discard s reason v owner c req m) := by
  unfold discard
  dsimp only
  have h : ∀ u : IntakeUnit, OnlyChanges [.intake, .loupe, .sys, .pwr, .ten, .tgt] s
      (raiseSource ((s.setIntake u).count 2 1) (discardSource reason)) := fun u =>
    (((setIntake_only _).mono (by decide)).trans ((count_only _ _).mono (by decide))).trans
      ((raiseSource_only _ _).mono (by decide))
  split
  · split
    · exact ((h _).trans ((modTenant_only _ _).mono (by decide))).trans ((chargeFault_only _ _ _ _).mono (by decide))
    · exact (h _).trans ((modTenant_only _ _).mono (by decide))
  · exact h _

theorem takeCredit_only (s : State) (m : Tenant) : OnlyChanges [.ten, .sys, .pwr] s (takeCredit s m) := by
  unfold takeCredit
  dsimp only
  split
  · exact (((setTenant_only _ _).mono (by decide)).trans ((modTenant_only _ _).mono (by decide))).trans
      ((setLevel_only _ _ _).mono (by decide))
  · exact (setTenant_only _ _).mono (by decide)

theorem returnCredit_only (s : State) (m : Tenant) : OnlyChanges [.ten] s (returnCredit s m) := modTenant_only _ _

/-! ## Shortlists and words -/

theorem requestMsg_only (s : State) (m : Tenant) : OnlyChanges [.tgt] s (requestMsg s m) := by
  unfold requestMsg
  split
  · exact .refl _ _
  · exact setTgt_only _

theorem requestSys_only (s : State) : OnlyChanges [.tgt] s (requestSys s) := setTgt_only _

theorem requestRefill_only (s : State) (x : Slot) : OnlyChanges [.tgt] s (requestRefill s x) := by
  have msg : ∀ (t : State) (o : Option (Tenant × BitVec 10)),
      OnlyChanges [.tgt] t (match o with
        | some (m, _) => requestMsg t m
        | none => t) := by
    intro t o
    split
    · exact requestMsg_only _ _
    · exact .refl _ _
  unfold requestRefill
  dsimp only
  split
  · split
    · split
      · exact ((setTarget_only x _).trans (msg _ _)).trans (requestSys_only _)
      · exact (setTarget_only x _).trans (requestSys_only _)
    · split
      · exact (setTarget_only x _).trans (msg _ _)
      · exact setTarget_only x _
  · exact .refl _ _

theorem removeRaw_only (s : State) (x : Slot) (src : Src) : OnlyChanges [.tgt] s (removeRaw s x src) :=
  (setTarget_only _ _).trans (requestRefill_only _ _)

theorem resetTarget_only (s : State) (x : Slot) : OnlyChanges [.tgt] s (resetTarget s x) :=
  (setTarget_only x {}).trans (setTgt_only _)

theorem presentRaw_only (s : State) (src : Src) (x : Slot) : OnlyChanges [.tgt] s (presentRaw s src x) := by
  unfold presentRaw
  split
  · exact modTarget_only _ _
  · exact .refl _ _

theorem putCfg_only (s : State) (src : Src) (c : W64) : OnlyChanges [.vec] s (s.putCfg src c) := by
  unfold State.putCfg
  split
  · exact setVec_only _
  · exact setVec_only _
  · exact .refl _ _

theorem putSt_only (s : State) (src : Src) (w : W32) : OnlyChanges [.vec] s (s.putSt src w) := by
  unfold State.putSt
  split
  · exact setVec_only _
  · exact setVec_only _
  · exact .refl _ _

theorem noteSaturated_only (s : State) (src : Src) : OnlyChanges [.vec, .ten] s (noteSaturated s src) := by
  unfold noteSaturated
  dsimp only
  split
  · split
    · exact ((setVec_only _).mono (by decide)).trans ((modTenant_only _ _).mono (by decide))
    · exact (setVec_only _).mono (by decide)
  · exact (setVec_only _).mono (by decide)

theorem recordRefusal_only (s : State) (w : Option Tenant) (op : SrcOp) (reason : Nat) (src : Src) :
    OnlyChanges [.ten] s (recordRefusal s w op reason src) := by
  unfold recordRefusal
  split
  · exact modTenant_only _ _
  · exact setTen_only _

theorem enqueue_only (s : State) (m : Tenant) (e : QEntry) : OnlyChanges [.ten] s (enqueue s m e) := modTenant_only _ _

end Sys2Proof.Machine
end

