-- ==== Sys2Proof/Laws/Tenants.lean ====
section
/-! SUPPORT. Tenant records: who owns a vector, a slot or a port after a write of a record, and what the credit operations leave. -/
namespace Sys2Proof.Machine

variable {s t : State}

/-! ## What the tenant unit alone decides -/

theorem tenant_congr (h : t.ten = s.ten) (n : Tenant) : t.tenant n = s.tenant n := by
  unfold State.tenant; rw [h]
theorem resetting_congr (h : t.ten = s.ten) (n : Tenant) : t.resetting n = s.resetting n := by
  unfold State.resetting; rw [tenant_congr h]
theorem mapOwner_congr (h : t.ten = s.ten) (v : Nat) : t.mapOwner v = s.mapOwner v := by
  unfold State.mapOwner; rw [h]
theorem rangeOwner_congr (h : t.ten = s.ten) (v : Nat) : t.rangeOwner v = s.rangeOwner v := by
  unfold State.rangeOwner; rw [h]
theorem slotOwner_congr (h : t.ten = s.ten) (x : Slot) : t.slotOwner x = s.slotOwner x := by
  unfold State.slotOwner; rw [h]
theorem blockOf_congr (h : t.ten = s.ten) (n : Tenant) (j : Nat) : t.blockOf n j = s.blockOf n j := by
  unfold State.blockOf; rw [h]
theorem slotOf_congr (h : t.ten = s.ten) (n : Tenant) (i : BitVec 10) : t.slotOf n i = s.slotOf n i := by
  unfold State.slotOf; rw [blockOf_congr h]

/-! ## Writing one record -/

theorem setTenant_wf (n : Tenant) (r : TenantRec) (h : Sparse.wf {} s.ten.recs = true) :
    Sparse.wf {} (s.setTenant n r).ten.recs = true := Sparse.wf_set _ _ _ _ h

theorem mapOwner_setTenant (h : Sparse.wf {} s.ten.recs = true) (n : Tenant) (r : TenantRec)
    (hr : r.rangeMap = (s.tenant n).rangeMap) (v : Nat) : (s.setTenant n r).mapOwner v = s.mapOwner v := by
  have := Sparse.find_set ({} : TenantRec) (fun q => match q.rangeMap with
    | some g => rangeHas g v
    | none => false) rfl s.ten.recs n.toNat r h (by rw [hr]; rfl)
  have := congrArg (Option.map (BitVec.ofNat 6)) this
  simp only [Option.map_map] at this
  exact this

theorem rangeOwner_setTenant (h : Sparse.wf {} s.ten.recs = true) (n : Tenant) (r : TenantRec)
    (hr : r.range = (s.tenant n).range) (v : Nat) : (s.setTenant n r).rangeOwner v = s.rangeOwner v := by
  have := Sparse.find_set ({} : TenantRec) (fun q => match q.range with
    | some g => rangeHas g v
    | none => false) rfl s.ten.recs n.toNat r h (by rw [hr]; rfl)
  have := congrArg (Option.map (BitVec.ofNat 6)) this
  simp only [Option.map_map] at this
  exact this

theorem modTenant_self (h : Sparse.wf {} s.ten.recs = true) (n : Tenant) (f : TenantRec → TenantRec) :
    (s.modTenant n f).tenant n = f (s.tenant n) := State.setTenant_tenant_self _ _ _ h

theorem modTenant_ne (n m : Tenant) (f : TenantRec → TenantRec) (h : m ≠ n) :
    (s.modTenant n f).tenant m = s.tenant m := State.setTenant_tenant_ne _ _ _ _ h

theorem modTenant_rangeOwner (h : Sparse.wf {} s.ten.recs = true) (n : Tenant) (f : TenantRec → TenantRec)
    (hf : (f (s.tenant n)).range = (s.tenant n).range) (v : Nat) : (s.modTenant n f).rangeOwner v = s.rangeOwner v :=
  rangeOwner_setTenant h n _ hf v

theorem modTenant_mapOwner (h : Sparse.wf {} s.ten.recs = true) (n : Tenant) (f : TenantRec → TenantRec)
    (hf : (f (s.tenant n)).rangeMap = (s.tenant n).rangeMap) (v : Nat) : (s.modTenant n f).mapOwner v = s.mapOwner v :=
  mapOwner_setTenant h n _ hf v

@[simp] theorem modTenant_slotOwner (n : Tenant) (f : TenantRec → TenantRec) (x : Slot) :
    (s.modTenant n f).slotOwner x = s.slotOwner x := rfl
@[simp] theorem setTenant_slotOwner (n : Tenant) (r : TenantRec) (x : Slot) :
    (s.setTenant n r).slotOwner x = s.slotOwner x := rfl
@[simp] theorem modTenant_blockOf (n m : Tenant) (f : TenantRec → TenantRec) (j : Nat) :
    (s.modTenant n f).blockOf m j = s.blockOf m j := rfl

/-! ## Credits -/

theorem returnCredit_tenant (h : Sparse.wf {} s.ten.recs = true) (n : Tenant) :
    (returnCredit s n).tenant n = { s.tenant n with
      credits := if (s.tenant n).credits.toNat < 440 then (s.tenant n).credits + 1 else (s.tenant n).credits } :=
  modTenant_self h n _

theorem returnCredit_tenant_ne (n m : Tenant) (h : m ≠ n) : (returnCredit s n).tenant m = s.tenant m :=
  modTenant_ne n m _ h

/-- Taking a credit: the count falls by one; at zero SATURATED and the frame's mark are set. -/
theorem takeCredit_tenant (h : Sparse.wf {} s.ten.recs = true) (n : Tenant) :
    (takeCredit s n).tenant n =
      if (s.tenant n).credits - 1 = 0 then
        { s.tenant n with
          credits := 0, zeroSeen := true
          satFrames := if (s.tenant n).zeroSeen then (s.tenant n).satFrames else satInc (s.tenant n).satFrames
          intakeStatus := (s.tenant n).intakeStatus ||| 1 }
      else { s.tenant n with credits := (s.tenant n).credits - 1 } := by
  unfold takeCredit
  dsimp only
  split
  · rename_i e
    rw [tenant_congr (setLevel_only _ _ _ .ten (by decide)), State.modTenant,
      State.setTenant_tenant_self _ n _ (setTenant_wf _ _ h), State.setTenant_tenant_self _ n _ h, e]
  · rw [State.setTenant_tenant_self _ n _ h]

theorem takeCredit_ten (s : State) (n : Tenant) : ∃ r, (takeCredit s n).ten = (s.setTenant n r).ten ∨
    ∃ q, (takeCredit s n).ten = ((s.setTenant n q).setTenant n r).ten := by
  unfold takeCredit
  dsimp only
  split
  · exact ⟨_, .inr ⟨_, setLevel_only _ _ _ .ten (by decide)⟩⟩
  · exact ⟨_, .inl rfl⟩

theorem takeCredit_tenant_ne (n m : Tenant) (h : m ≠ n) : (takeCredit s n).tenant m = s.tenant m := by
  obtain ⟨r, e | ⟨q, e⟩⟩ := takeCredit_ten s n
  · rw [tenant_congr e, State.setTenant_tenant_ne _ _ _ _ h]
  · rw [tenant_congr e, State.setTenant_tenant_ne _ _ _ _ h, State.setTenant_tenant_ne _ _ _ _ h]

theorem takeCredit_wf (h : Sparse.wf {} s.ten.recs = true) (n : Tenant) :
    Sparse.wf {} (takeCredit s n).ten.recs = true := by
  obtain ⟨r, e | ⟨q, e⟩⟩ := takeCredit_ten s n
  · rw [e]; exact setTenant_wf _ _ h
  · rw [e]; exact setTenant_wf _ _ (setTenant_wf _ _ h)

theorem takeCredit_mapOwner (h : Sparse.wf {} s.ten.recs = true) (n : Tenant) (v : Nat) :
    (takeCredit s n).mapOwner v = s.mapOwner v := by
  unfold takeCredit
  dsimp only
  split
  · rw [mapOwner_congr (setLevel_only _ _ _ .ten (by decide)), State.modTenant,
      mapOwner_setTenant (setTenant_wf _ _ h), mapOwner_setTenant h]
    · rfl
    · rfl
  · rw [mapOwner_setTenant h]; rfl

theorem takeCredit_resetting (h : Sparse.wf {} s.ten.recs = true) (n m : Tenant) :
    (takeCredit s n).resetting m = s.resetting m := by
  unfold State.resetting
  by_cases e : m = n
  · subst e
    have : ((takeCredit s m).tenant m).reset = (s.tenant m).reset := by
      rw [takeCredit_tenant h]
      split <;> rfl
    rw [this]
  · rw [takeCredit_tenant_ne n m e]

/-- The fall to zero raises the level of S:0x440 + n. -/
theorem takeCredit_level (h : CanonicalSys s.sys) (n : Tenant) (e : (s.tenant n).credits - 1 = 0) :
    (takeCredit s n).level (0x440 + n.toNat) = true := by
  have key : ∀ t : State, t.sys = s.sys → (setLevel t (0x440 + n.toNat) true).level (0x440 + n.toNat) = true :=
    fun t et => setLevel_level (by rw [et]; exact h) _ _
  unfold takeCredit
  simp only [e, if_true]
  exact key _ rfl

/-- A credit that is not the last: the record alone changes. -/
theorem takeCredit_more (n : Tenant) (e : (s.tenant n).credits - 1 ≠ 0) :
    takeCredit s n = s.setTenant n { s.tenant n with credits := (s.tenant n).credits - 1 } := by
  unfold takeCredit
  simp only [if_neg e]

end Sys2Proof.Machine
end

