-- ==== Sys2Proof/Laws/Words.lean ====
section
/-! SUPPORT. Configuration and state words: reads after writes, and what the transitions of a source do in a state with no stored error. -/
namespace Sys2Proof.Machine

variable {s t : State}

/-! ## Classes -/

/-- The defining equation of a class, number by number. -/
theorem srcClass_eq (x : Src) : srcClass x =
    if x.toNat < 16 then .priv x.toNat
    else if 0x400000 ≤ x.toNat ∧ x.toNat < 0x401000 then
      if sysDefined (x.toNat - 0x400000) then .system (x.toNat - 0x400000) else .reserved
    else if 0x800000 ≤ x.toNat ∧ x.toNat < 0x900000 then .message (x.toNat - 0x800000)
    else .reserved := rfl

theorem srcClass_message {x : Src} {v : Nat} (h : srcClass x = .message v) : x.toNat = 0x800000 + v := by
  rw [srcClass_eq] at h
  generalize x.toNat = n at h
  by_cases h1 : n < 16
  · rw [if_pos h1] at h; cases h
  · rw [if_neg h1] at h
    by_cases h2 : 0x400000 ≤ n ∧ n < 0x401000
    · rw [if_pos h2] at h
      by_cases h3 : sysDefined (n - 0x400000) = true
      · rw [if_pos h3] at h; cases h
      · rw [if_neg h3] at h; cases h
    · rw [if_neg h2] at h
      by_cases h3 : 0x800000 ≤ n ∧ n < 0x900000
      · rw [if_pos h3] at h
        have h := SrcClass.message.inj h
        omega
      · rw [if_neg h3] at h; cases h

theorem srcClass_system {x : Src} {v : Nat} (h : srcClass x = .system v) : x.toNat = 0x400000 + v := by
  rw [srcClass_eq] at h
  generalize x.toNat = n at h
  by_cases h1 : n < 16
  · rw [if_pos h1] at h; cases h
  · rw [if_neg h1] at h
    by_cases h2 : 0x400000 ≤ n ∧ n < 0x401000
    · rw [if_pos h2] at h
      by_cases h3 : sysDefined (n - 0x400000) = true
      · rw [if_pos h3] at h
        have h := SrcClass.system.inj h
        omega
      · rw [if_neg h3] at h; cases h
    · rw [if_neg h2] at h
      by_cases h3 : 0x800000 ≤ n ∧ n < 0x900000
      · rw [if_pos h3] at h; cases h
      · rw [if_neg h3] at h; cases h

theorem srcClass_msgSrc {v : Nat} (h : v < 0x100000) : srcClass (msgSrc v) = .message v := by
  have e : (msgSrc v).toNat = 0x800000 + v := by
    unfold msgSrc
    rw [BitVec.toNat_ofNat]
    omega
  have e' : 0x800000 + v - 0x800000 = v := by omega
  rw [srcClass_eq, e, if_neg (by omega), if_neg (by omega), if_pos (by omega), e']

theorem srcClass_sysSrc {n : Nat} (h : n < 0x1000) (d : sysDefined n = true) : srcClass (sysSrc n) = .system n := by
  have e : (sysSrc n).toNat = 0x400000 + n := by
    unfold sysSrc
    rw [BitVec.toNat_ofNat]
    omega
  have e' : 0x400000 + n - 0x400000 = n := by omega
  rw [srcClass_eq, e, if_neg (by omega), if_pos (by omega), e', if_pos d]

/-- A system source's index is defined. -/
theorem srcClass_defined {x : Src} {n : Nat} (hv : srcClass x = .system n) : sysDefined n = true := by
  rw [srcClass_eq] at hv
  revert hv
  generalize x.toNat = k
  intro hv
  by_cases h1 : k < 16
  · rw [if_pos h1] at hv; cases hv
  · rw [if_neg h1] at hv
    by_cases h2 : 0x400000 ≤ k ∧ k < 0x401000
    · rw [if_pos h2] at hv
      by_cases h3 : sysDefined (k - 0x400000) = true
      · rw [if_pos h3] at hv; rw [← SrcClass.system.inj hv]; exact h3
      · rw [if_neg h3] at hv; cases hv
    · rw [if_neg h2] at hv
      by_cases h3 : 0x800000 ≤ k ∧ k < 0x900000
      · rw [if_pos h3] at hv; cases hv
      · rw [if_neg h3] at hv; cases hv

/-! ## Reads after writes -/

@[simp] theorem putSt_cfgOf (x y : Src) (w : W32) : (s.putSt x w).cfgOf y = s.cfgOf y := by
  unfold State.putSt State.cfgOf
  cases srcClass x <;> rfl

@[simp] theorem putCfg_stOf (x y : Src) (c : W64) : (s.putCfg x c).stOf y = s.stOf y := by
  unfold State.putCfg State.stOf
  cases srcClass x <;> rfl

theorem putSt_stOf_self (h : CanonicalVec s.vec) {x : Src} (hx : HasWords x) (w : W32) : (s.putSt x w).stOf x = w := by
  rcases hx with ⟨v, e⟩ | ⟨n, e⟩
  · unfold State.putSt State.stOf
    simp only [e]
    exact (Sparse.get_set _ _ _ _ _ h.st).trans (if_pos rfl)
  · unfold State.putSt State.stOf
    simp only [e]
    exact (Sparse.get_set _ _ _ _ _ h.sysSt).trans (if_pos rfl)

theorem putCfg_cfgOf_self (h : CanonicalVec s.vec) {x : Src} (hx : HasWords x) (c : W64) : (s.putCfg x c).cfgOf x = c := by
  rcases hx with ⟨v, e⟩ | ⟨n, e⟩
  · unfold State.putCfg State.cfgOf
    simp only [e]
    exact (Sparse.get_set _ _ _ _ _ h.cfg).trans (if_pos rfl)
  · unfold State.putCfg State.cfgOf
    simp only [e]
    exact (Sparse.get_set _ _ _ _ _ h.sysCfg).trans (if_pos rfl)

theorem putSt_stOf_ne {x y : Src} (h : y ≠ x) (w : W32) : (s.putSt x w).stOf y = s.stOf y := by
  unfold State.putSt State.stOf
  cases ex : srcClass x <;> cases ey : srcClass y <;> try rfl
  · rename_i n m
    refine Sparse.get_set_ne _ _ _ _ _ fun e => h ?_
    have a := srcClass_system ex
    have b := srcClass_system ey
    exact BitVec.eq_of_toNat_eq (by omega)
  · rename_i n m
    refine Sparse.get_set_ne _ _ _ _ _ fun e => h ?_
    have a := srcClass_message ex
    have b := srcClass_message ey
    exact BitVec.eq_of_toNat_eq (by omega)

theorem putCfg_cfgOf_ne {x y : Src} (h : y ≠ x) (c : W64) : (s.putCfg x c).cfgOf y = s.cfgOf y := by
  unfold State.putCfg State.cfgOf
  cases ex : srcClass x <;> cases ey : srcClass y <;> try rfl
  · rename_i n m
    refine Sparse.get_set_ne _ _ _ _ _ fun e => h ?_
    have a := srcClass_system ex
    have b := srcClass_system ey
    exact BitVec.eq_of_toNat_eq (by omega)
  · rename_i n m
    refine Sparse.get_set_ne _ _ _ _ _ fun e => h ?_
    have a := srcClass_message ex
    have b := srcClass_message ey
    exact BitVec.eq_of_toNat_eq (by omega)

theorem cfgOf_congr (h : t.vec = s.vec) (x : Src) : t.cfgOf x = s.cfgOf x := by unfold State.cfgOf; rw [h]
theorem stOf_congr (h : t.vec = s.vec) (x : Src) : t.stOf x = s.stOf x := by unfold State.stOf; rw [h]

theorem noteSaturated_words (s : State) (x : Src) :
    (noteSaturated s x).vec.cfg = s.vec.cfg ∧ (noteSaturated s x).vec.st = s.vec.st ∧
      (noteSaturated s x).vec.sysCfg = s.vec.sysCfg ∧ (noteSaturated s x).vec.sysSt = s.vec.sysSt := by
  unfold noteSaturated
  dsimp only
  split
  · split <;> exact ⟨rfl, rfl, rfl, rfl⟩
  · exact ⟨rfl, rfl, rfl, rfl⟩

@[simp] theorem noteSaturated_cfgOf (x y : Src) : (noteSaturated s x).cfgOf y = s.cfgOf y := by
  obtain ⟨a, b, c, d⟩ := noteSaturated_words s x
  unfold State.cfgOf
  rw [a, c]

@[simp] theorem noteSaturated_stOf (x y : Src) : (noteSaturated s x).stOf y = s.stOf y := by
  obtain ⟨a, b, c, d⟩ := noteSaturated_words s x
  unfold State.stOf
  rw [b, d]

theorem presentRaw_cfgOf (x y : Src) (z : Slot) : (presentRaw s x z).cfgOf y = s.cfgOf y :=
  cfgOf_congr (presentRaw_only _ _ _ .vec (by decide)) _
theorem presentRaw_stOf (x y : Src) (z : Slot) : (presentRaw s x z).stOf y = s.stOf y :=
  stOf_congr (presentRaw_only _ _ _ .vec (by decide)) _

/-! ## Transitions in a clean state -/

theorem applyEdge_clean (h : s.Clean) (x : Src) :
    applyEdge s x =
      (let e := edgeWord (cMode (s.cfgOf x)) (s.stOf x)
       let u := if e.2.2 then noteSaturated (s.putSt x e.1) x else s.putSt x e.1
       if e.2.1 && cEnable (s.cfgOf x) && !cFwd (s.cfgOf x) then presentRaw u x (cTarget (s.cfgOf x)) else u) := by
  unfold applyEdge
  rw [readCfg_clean h, readSt_clean h]
  simp only [writeSt_clean h]
  split
  · refine present_clean ?_ _ _
    split
    · exact (h.putSt _ _).of_ras (noteSaturated_only _ _ .ras (by decide))
    · exact h.putSt _ _
  · rfl

theorem applyClear_clean (h : s.Clean) (x : Src) :
    applyClear s x =
      (if sPending (s.stOf x) && !cFwd (s.cfgOf x) then
        if sActive (s.stOf x) && cMode (s.cfgOf x) then s.putSt x (clearWord (s.stOf x))
        else removeRaw (s.putSt x (clearWord (s.stOf x))) (cTarget (s.cfgOf x)) x
      else s.putSt x (clearWord (s.stOf x))) := by
  unfold applyClear
  rw [readCfg_clean h, readSt_clean h]
  simp only [writeSt_clean h, removeSrc_clean (h.putSt _ _)]

theorem applyEnable_clean (h : s.Clean) (x : Src) (b : Bool) :
    applyEnable s x b =
      (if cEnable (s.cfgOf x) = b then s
      else if sPending (s.stOf x) then
        if b then presentRaw (s.putCfg x (putBit (s.cfgOf x) 62 b)) x (cTarget (s.cfgOf x))
        else removeRaw (s.putCfg x (putBit (s.cfgOf x) 62 b)) (cTarget (s.cfgOf x)) x
      else s.putCfg x (putBit (s.cfgOf x) 62 b)) := by
  unfold applyEnable
  rw [readCfg_clean h]
  simp only [writeCfg_clean h, putCfg_stOf, removeSrc_clean (h.putCfg _ _), present_clean (h.putCfg _ _)]

theorem applyClrSticky_clean (h : s.Clean) (x : Src) :
    applyClrSticky s x = s.putSt x (clearStickyWord (s.stOf x)) := by
  unfold applyClrSticky
  rw [readSt_clean h]
  exact writeSt_clean h _ _

theorem applyCompletion_clean (h : s.Clean) (x : Src) : applyCompletion s x = completeState s x := by
  unfold applyCompletion completeState
  rw [readCfg_clean h, readSt_clean h]
  simp only [writeSt_clean h]
  split
  · exact present_clean (h.putSt _ _) _ _
  · rfl

theorem applyEdge_only (h : s.Clean) (x : Src) : OnlyChanges [.vec, .ten, .tgt] s (applyEdge s x) := by
  rw [applyEdge_clean h]
  dsimp only
  have e : ∀ b : Bool, OnlyChanges [.vec, .ten, .tgt] s
      (if b then noteSaturated (s.putSt x (edgeWord (cMode (s.cfgOf x)) (s.stOf x)).1) x
       else s.putSt x (edgeWord (cMode (s.cfgOf x)) (s.stOf x)).1) := by
    intro b
    split
    · exact ((putSt_only _ _ _).mono (by decide)).trans ((noteSaturated_only _ _).mono (by decide))
    · exact (putSt_only _ _ _).mono (by decide)
  split
  · exact (e _).trans ((presentRaw_only _ _ _).mono (by decide))
  · exact e _

theorem applyEdge_cfgOf (h : s.Clean) (x y : Src) : (applyEdge s x).cfgOf y = s.cfgOf y := by
  rw [applyEdge_clean h]
  dsimp only
  split <;> split <;> simp [presentRaw_cfgOf]

theorem applyEdge_stOf (h : s.Clean) (c : CanonicalVec s.vec) {x : Src} (hx : HasWords x) :
    (applyEdge s x).stOf x = (edgeWord (cMode (s.cfgOf x)) (s.stOf x)).1 := by
  rw [applyEdge_clean h]
  dsimp only
  split <;> split <;> simp [presentRaw_stOf, putSt_stOf_self c hx]

theorem applyEdge_stOf_ne (h : s.Clean) {x y : Src} (e : y ≠ x) : (applyEdge s x).stOf y = s.stOf y := by
  rw [applyEdge_clean h]
  dsimp only
  split <;> split <;> simp [presentRaw_stOf, putSt_stOf_ne e]

theorem noteSaturated_tenant (c : Sparse.wf {} s.ten.recs = true) (x : Src) (m : Tenant) :
    (∃ r, (noteSaturated s x).tenant m = { s.tenant m with src := r }) ∧
    (∀ v, srcClass x = .message v → s.rangeOwner v ≠ some m → (noteSaturated s x).tenant m = s.tenant m) := by
  unfold noteSaturated
  dsimp only
  split
  · rename_i v hv
    split
    · rename_i n hn
      by_cases k : m = n
      · subst k
        refine ⟨?_, ?_⟩
        · rw [modTenant_self (by exact c)]
          exact ⟨_, rfl⟩
        · intro v' e ne
          rw [hv] at e
          cases e
          exact absurd hn ne
      · rw [modTenant_ne _ _ _ k]
        exact ⟨⟨(s.tenant m).src, rfl⟩, fun _ _ _ => rfl⟩
    · exact ⟨⟨(s.tenant m).src, rfl⟩, fun _ _ _ => rfl⟩
  · exact ⟨⟨(s.tenant m).src, rfl⟩, fun _ _ _ => rfl⟩

/-- An edge touches nothing of a tenant but its source registers, and only those of the source's own tenant. -/
theorem applyEdge_tenant (h : s.Clean) (c : Sparse.wf {} s.ten.recs = true) (x : Src) (m : Tenant) :
    (∃ r, (applyEdge s x).tenant m = { s.tenant m with src := r }) ∧
    (∀ v, srcClass x = .message v → s.rangeOwner v ≠ some m → (applyEdge s x).tenant m = s.tenant m) := by
  have put : ∀ w, (s.putSt x w).ten = s.ten := fun w => putSt_only s x w .ten (by decide)
  have sat : ∀ w, (∃ r, (noteSaturated (s.putSt x w) x).tenant m = { s.tenant m with src := r }) ∧
      (∀ v, srcClass x = .message v → s.rangeOwner v ≠ some m → (noteSaturated (s.putSt x w) x).tenant m = s.tenant m) := by
    intro w
    have := noteSaturated_tenant (s := s.putSt x w) (by rw [put]; exact c) x m
    rw [tenant_congr (put w)] at this
    exact ⟨this.1, fun v e n => this.2 v e (by rw [rangeOwner_congr (put w)]; exact n)⟩
  rw [applyEdge_clean h]
  dsimp only
  split <;> split
  · rw [tenant_congr (presentRaw_only _ _ _ .ten (by decide))]
    exact sat _
  · rw [tenant_congr (presentRaw_only _ _ _ .ten (by decide)), tenant_congr (put _)]
    exact ⟨⟨(s.tenant m).src, rfl⟩, fun _ _ _ => rfl⟩
  · exact sat _
  · rw [tenant_congr (put _)]
    exact ⟨⟨(s.tenant m).src, rfl⟩, fun _ _ _ => rfl⟩

theorem noteSaturated_rangeOwner (c : Sparse.wf {} s.ten.recs = true) (x : Src) (v : Nat) :
    (noteSaturated s x).rangeOwner v = s.rangeOwner v := by
  unfold noteSaturated
  dsimp only
  split
  · split
    · rw [modTenant_rangeOwner (by exact c) _ _ rfl]; rfl
    · rfl
  · rfl

theorem noteSaturated_slotOwner (x : Src) (y : Slot) : (noteSaturated s x).slotOwner y = s.slotOwner y := by
  unfold noteSaturated
  dsimp only
  split
  · split <;> rfl
  · rfl

/-- Presentation to a qualifying target is a change of its record. -/
theorem presentRaw_target (c : Sparse.wf {} s.tgt.recs = true) {x : Src} {y : Slot} (h : s.qualifies x y = true) :
    (presentRaw s x y).target y = presentRec (s.target y) x (s.frame.count.setWidth 16) := by
  unfold presentRaw
  rw [if_pos h]
  exact State.setTarget_target_self _ _ _ c

theorem presentRaw_target_ne {x : Src} {y z : Slot} (h : z ≠ y) : (presentRaw s x y).target z = s.target z := by
  unfold presentRaw
  split
  · exact State.setTarget_target_ne _ _ _ _ h
  · rfl

theorem qualifies_congr (a : t.ten = s.ten) (x : Src) (y : Slot) : t.qualifies x y = s.qualifies x y := by
  unfold State.qualifies
  rw [slotOwner_congr a]
  cases s.slotOwner y with
  | none => rfl
  | some o =>
    cases srcClass x <;> try rfl
    simp only [rangeOwner_congr a]

/-- An edge that makes an enabled source pending presents it to its target. -/
theorem applyEdge_target (h : s.Clean) (c : Coherent s) {x : Src}
    (fresh : (edgeWord (cMode (s.cfgOf x)) (s.stOf x)).2.1 = true) (en : cEnable (s.cfgOf x) = true)
    (fw : cFwd (s.cfgOf x) = false) (q : s.qualifies x (cTarget (s.cfgOf x)) = true) :
    (applyEdge s x).target (cTarget (s.cfgOf x)) =
      presentRec (s.target (cTarget (s.cfgOf x))) x (s.frame.count.setWidth 16) := by
  have put : ∀ w, (s.putSt x w).ten = s.ten := fun w => putSt_only s x w .ten (by decide)
  have putT : ∀ w, (s.putSt x w).tgt = s.tgt := fun w => putSt_only s x w .tgt (by decide)
  have putF : ∀ w, (s.putSt x w).frame = s.frame := fun w => putSt_only s x w .frame (by decide)
  have key : ∀ u : State, u.tgt = s.tgt → u.frame = s.frame → u.qualifies x (cTarget (s.cfgOf x)) = true →
      (presentRaw u x (cTarget (s.cfgOf x))).target (cTarget (s.cfgOf x)) =
        presentRec (s.target (cTarget (s.cfgOf x))) x (s.frame.count.setWidth 16) := by
    intro u a b d
    rw [presentRaw_target (by rw [a]; exact c.tgtCanonical.recs) d, b]
    unfold State.target
    rw [a]
  rw [applyEdge_clean h]
  dsimp only
  rw [fresh, en, fw]
  simp only [Bool.not_false, Bool.and_self, if_true]
  split
  · refine key _ ?_ ?_ ?_
    · rw [noteSaturated_only _ _ .tgt (by decide), putT]
    · rw [noteSaturated_only _ _ .frame (by decide), putF]
    · unfold State.qualifies at q ⊢
      rw [noteSaturated_slotOwner, slotOwner_congr (put _)]
      cases e : s.slotOwner (cTarget (s.cfgOf x)) with
      | none => rw [e] at q; exact q
      | some o =>
        rw [e] at q
        cases k : srcClass x <;> rw [k] at q <;> try exact q
        simp only at q ⊢
        rw [noteSaturated_rangeOwner (by rw [put]; exact c.tenCanonical.recs), rangeOwner_congr (put _)]
        exact q
  · exact key _ (putT _) (putF _) (by rw [qualifies_congr (put _)]; exact q)

theorem applyEdge_tgt (h : s.Clean) {x : Src}
    (e : (edgeWord (cMode (s.cfgOf x)) (s.stOf x)).2.1 = false ∨ cEnable (s.cfgOf x) = false) :
    (applyEdge s x).tgt = s.tgt := by
  rw [applyEdge_clean h]
  have : ((edgeWord (cMode (s.cfgOf x)) (s.stOf x)).2.1 && cEnable (s.cfgOf x) && !cFwd (s.cfgOf x)) = false := by
    rcases e with e | e <;> simp [e]
  simp only [this, Bool.false_eq_true, if_false]
  split
  · rw [noteSaturated_only _ _ .tgt (by decide)]; exact putSt_only s x _ .tgt (by decide)
  · exact putSt_only s x _ .tgt (by decide)

/-! ## Clears, enables and clear sticky in a clean state -/

theorem removeRaw_stOf (x y : Src) (z : Slot) : (removeRaw s z x).stOf y = s.stOf y :=
  stOf_congr (removeRaw_only _ _ _ .vec (by decide)) _
theorem removeRaw_cfgOf (x y : Src) (z : Slot) : (removeRaw s z x).cfgOf y = s.cfgOf y :=
  cfgOf_congr (removeRaw_only _ _ _ .vec (by decide)) _

theorem applyClear_only (h : s.Clean) (x : Src) : OnlyChanges [.vec, .tgt] s (applyClear s x) := by
  rw [applyClear_clean h]
  have e : OnlyChanges [.vec, .tgt] s (s.putSt x (clearWord (s.stOf x))) := (putSt_only _ _ _).mono (by decide)
  split
  · split
    · exact e
    · exact e.trans ((removeRaw_only _ _ _).mono (by decide))
  · exact e

theorem applyClear_stOf (h : s.Clean) (c : CanonicalVec s.vec) {x : Src} (hx : HasWords x) :
    (applyClear s x).stOf x = clearWord (s.stOf x) := by
  rw [applyClear_clean h]
  split
  · split
    · exact putSt_stOf_self c hx _
    · rw [removeRaw_stOf]; exact putSt_stOf_self c hx _
  · exact putSt_stOf_self c hx _

theorem applyClear_stOf_ne (h : s.Clean) {x y : Src} (e : y ≠ x) : (applyClear s x).stOf y = s.stOf y := by
  rw [applyClear_clean h]
  split
  · split
    · exact putSt_stOf_ne e _
    · rw [removeRaw_stOf]; exact putSt_stOf_ne e _
  · exact putSt_stOf_ne e _

theorem applyClear_cfgOf (h : s.Clean) (x y : Src) : (applyClear s x).cfgOf y = s.cfgOf y := by
  rw [applyClear_clean h]
  split
  · split
    · exact putSt_cfgOf _ _ _
    · rw [removeRaw_cfgOf]; exact putSt_cfgOf _ _ _
  · exact putSt_cfgOf _ _ _

theorem applyEnable_only (h : s.Clean) (x : Src) (b : Bool) : OnlyChanges [.vec, .tgt] s (applyEnable s x b) := by
  rw [applyEnable_clean h]
  have e : OnlyChanges [.vec, .tgt] s (s.putCfg x (putBit (s.cfgOf x) 62 b)) := (putCfg_only _ _ _).mono (by decide)
  split
  · exact .refl _ _
  · split
    · split
      · exact e.trans ((presentRaw_only _ _ _).mono (by decide))
      · exact e.trans ((removeRaw_only _ _ _).mono (by decide))
    · exact e

theorem applyEnable_stOf (h : s.Clean) (x y : Src) (b : Bool) : (applyEnable s x b).stOf y = s.stOf y := by
  rw [applyEnable_clean h]
  split
  · rfl
  · split
    · split
      · rw [presentRaw_stOf, putCfg_stOf]
      · rw [removeRaw_stOf, putCfg_stOf]
    · exact putCfg_stOf _ _ _

theorem applyEnable_cfgOf_ne (h : s.Clean) {x y : Src} (e : y ≠ x) (b : Bool) :
    (applyEnable s x b).cfgOf y = s.cfgOf y := by
  rw [applyEnable_clean h]
  split
  · rfl
  · split
    · split
      · rw [presentRaw_cfgOf, putCfg_cfgOf_ne e]
      · rw [removeRaw_cfgOf, putCfg_cfgOf_ne e]
    · exact putCfg_cfgOf_ne e _

theorem putBit_get (c : W64) (b : Bool) : cEnable (putBit c 62 b) = b := by
  unfold cEnable putBit
  cases b <;> simp

/-- After an enable operation ENABLE has the value asked for; every other bit of the word stands. -/
theorem applyEnable_cfgOf (h : s.Clean) (c : CanonicalVec s.vec) {x : Src} (hx : HasWords x) (b : Bool) :
    (applyEnable s x b).cfgOf x = if cEnable (s.cfgOf x) = b then s.cfgOf x else putBit (s.cfgOf x) 62 b := by
  rw [applyEnable_clean h]
  split
  · rfl
  · split
    · split
      · rw [presentRaw_cfgOf, putCfg_cfgOf_self c hx]
      · rw [removeRaw_cfgOf, putCfg_cfgOf_self c hx]
    · exact putCfg_cfgOf_self c hx _

theorem applyEnable_enable (h : s.Clean) (c : CanonicalVec s.vec) {x : Src} (hx : HasWords x) (b : Bool) :
    cEnable ((applyEnable s x b).cfgOf x) = b := by
  rw [applyEnable_cfgOf h c hx]
  split
  · assumption
  · exact putBit_get _ _

theorem putBit_mode (c : W64) (b : Bool) : cMode (putBit c 62 b) = cMode c := by
  unfold cMode putBit
  cases b <;> simp

end Sys2Proof.Machine
end

