-- ==== Sys2Proof/Laws/Drain.lean ====
section
/-! SUPPORT. The drain of the intake queues and what a discard records. -/
namespace Sys2Proof.Machine

variable {s t : State}

theorem quarterOf_lt (v : Nat) : quarterOf v < 4 := Nat.mod_lt _ (by decide)

/-- With no quarter away, an arrival wakes nothing. -/
theorem wakeQuarter_on (h : ∀ q, q < 4 → s.quarterAway q = false) {o : Option Nat} (ho : ∀ q, o = some q → q < 4) :
    wakeQuarter s o = s := by
  unfold wakeQuarter
  split
  · rw [h _ (ho _ rfl), Bool.and_false]; rfl
  · rfl

theorem foldl_same {V : Type} {f : State → V → State} (h : ∀ v, f s v = s) : ∀ l : List V, l.foldl f s = s
  | [] => rfl
  | v :: l => by rw [List.foldl_cons, h v]; exact foldl_same h l

theorem wakeHeads_on (h : ∀ q, q < 4 → s.quarterAway q = false) : wakeHeads s = s := by
  unfold wakeHeads
  refine foldl_same (fun a => ?_) _
  split
  · exact wakeQuarter_on h (by rintro q ⟨⟩; exact quarterOf_lt _)
  · rfl

/-- An edge never waits at the head when its quarter serves, its banks have accesses left in the frame and its vector is
not forwarded. -/
theorem headWaits_edge (h : ∀ q, q < 4 → s.quarterAway q = false) (e : QEntry)
    (b : s.banksOpen (msgSrc e.vector.toNat) 2 = true)
    (f : cFwd (s.cfgOf (msgSrc e.vector.toNat)) = false) : s.headWaits e = false := by
  unfold State.headWaits sendsRecord
  rw [h _ (quarterOf_lt _), b]
  simp [f]

/-- A drain slot of the tenant whose turn it is, with nothing asleep and a head that does not wait; the slot and its bank
accesses are counted in the frame's use. -/
theorem drainSlot_turn {e : QEntry} {rest : List QEntry} (hq : (s.tenant s.intake.turn).queue = e :: rest)
    (hd : (s.tenant s.intake.turn).deficit ≠ 0) (h : ∀ q, q < 4 → s.quarterAway q = false)
    (hw : s.headWaits e = false) :
    ∃ w, drainSlot s = drainEntry ((s.setUse w).setTenant s.intake.turn { s.tenant s.intake.turn with
      queue := rest, deficit := (s.tenant s.intake.turn).deficit - 1 }) s.intake.turn e := by
  obtain ⟨w, hw'⟩ := takeSlot_use s .intake (msgSrc e.vector.toNat) 2
  have hs : s.servable s.intake.turn = true := by
    unfold State.servable
    rw [hq]
    simp [hw]
  unfold drainSlot
  simp only [hq, List.isEmpty_cons, Bool.false_eq_true, if_false, wakeHeads_on h, hs, hd, ne_eq, not_false_eq_true,
    and_self, if_true, hw']
  exact ⟨w, rfl⟩

/-! ## Arrivals with CORE ON -/

/-- With CORE ON an arrival sets its latch bit. -/
theorem raiseSource_on {n : Nat} (d : sysDefined n = true) (h : s.isOn dCORE = true) :
    raiseSource s n = s.setLatch n { s.latch n with arrival := true } := by
  unfold raiseSource; rw [d, h]; rfl
theorem works_of_isOn {d : Nat} (h : s.isOn d = true) : s.works d = true := by
  unfold State.isOn at h
  unfold State.works
  rw [Bool.and_eq_true, beq_iff_eq, beq_iff_eq] at h
  simp only [h.1, h.2]
  rfl

theorem captures_coreUp {q : Option Nat} (h : s.captures q = false) : s.coreUp = true := by
  unfold State.captures at h
  cases e : s.coreUp
  · rw [e] at h; cases h
  · rfl

theorem coreUp_core (h : s.coreUp = true) : s.isOn dCORE = true := by
  unfold State.coreUp at h
  simp_all

theorem coreUp_coreOn (h : s.coreUp = true) : s.coreOn = true := by
  unfold State.coreUp at h
  rw [Bool.and_eq_true] at h
  unfold State.coreOn
  rw [works_of_isOn h.1, h.2]
  rfl

theorem captures_coreOn {q : Option Nat} (h : s.captures q = false) : s.coreOn = true := coreUp_coreOn (captures_coreUp h)
theorem setLatch_latch_self (h : CanonicalSys s.sys) (n : Nat) (l : SysLatch) : (s.setLatch n l).latch n = l :=
  (Sparse.get_set _ _ _ _ _ h.latch).trans (if_pos rfl)
theorem setLatch_latch_ne (n k : Nat) (l : SysLatch) (h : k ≠ n) : (s.setLatch n l).latch k = s.latch k :=
  Sparse.get_set_ne _ _ _ _ _ h
theorem putBit_self {w : Nat} (x : BitVec w) (i : Nat) (b : Bool) (h : i < w) : (putBit x i b).getLsbD i = b := by
  unfold putBit
  cases b <;> simp [h]
/-- What an arrival on a defined source does with CORE ON. -/
theorem raiseSource_effect (c : CanonicalSys s.sys) {n : Nat} (d : sysDefined n = true) (on : s.isOn dCORE = true) : 
   ((raiseSource s n).latch n).arrival = true ∧ (∀ k, k ≠ n → (raiseSource s n).latch k = s.latch k) ∧ OnlyChanges [.sys] s (raiseSource s n) := by
  rw [raiseSource_on d on]
  exact ⟨by rw [setLatch_latch_self c], fun k hk => setLatch_latch_ne _ _ _ hk, setLatch_only _ _⟩
/-- What a level does with CORE ON. -/
theorem setLevel_effect (c : CanonicalSys s.sys) {n : Nat} (d : sysDefined n = true) (on : s.isOn dCORE = true) (b : Bool) :
    (setLevel s n b).level n = b ∧ (s.level n ≠ b → (b = true ∨ raisesOnEach n = true) → ((setLevel s n b).latch n).arrival = true) ∧
    (∀ k, k ≠ n → (setLevel s n b).latch k = s.latch k) ∧ 
    (b = false → raisesOnEach n = false → ∀ k, (setLevel s n b).latch k = s.latch k) ∧ OnlyChanges [.sys] s (setLevel s n b) := by
  refine ⟨setLevel_level c n b, ?_⟩
  unfold setLevel
  split
  · rename_i h
    exact ⟨fun k => absurd h k, fun _ _ => rfl, fun _ _ _ => rfl, .refl _ _⟩
  · dsimp only
    have c' : CanonicalSys (s.setSys { s.sys with levels := Sparse.set false s.sys.levels n b }).sys := 
      ⟨c.latch, Sparse.wf_set _ _ _ _ c.levels, c.held, c.linkFell⟩
    have on' : (s.setSys { s.sys with levels := Sparse.set false s.sys.levels n b }).isOn dCORE = true := on
    obtain ⟨r1, r2, r3⟩ := raiseSource_effect c' d on'
    split
    · rename_i h
      refine ⟨fun _ _ => r1, fun k hk => r2 k hk, ?_, (setSys_only _).trans r3⟩
      intro hb hr
      rw [hb, hr] at h; cases h
    · rename_i h
      refine ⟨fun _ k => absurd (by simpa using k) h, fun _ _ => rfl, fun _ _ _ => rfl, setSys_only _⟩

/-! ## Waking leaves the capture FIFO and the lists of Locket alone -/

/-- The lists of Locket are the same. -/
def SameFifo (s t : State) : Prop :=
  t.pwr.capture = s.pwr.capture ∧ t.pwr.capturePos = s.pwr.capturePos ∧ t.pwr.captureAll = s.pwr.captureAll ∧
    t.pwr.waiting = s.pwr.waiting ∧ t.pwr.watch = s.pwr.watch ∧ t.pwr.highWater = s.pwr.highWater

theorem SameFifo.trans {u : State} (h : SameFifo s t) (k : SameFifo t u) : SameFifo s u :=
  ⟨k.1.trans h.1, k.2.1.trans h.2.1, k.2.2.1.trans h.2.2.1, k.2.2.2.1.trans h.2.2.2.1,
    k.2.2.2.2.1.trans h.2.2.2.2.1, k.2.2.2.2.2.trans h.2.2.2.2.2⟩

theorem SameFifo.rfl : SameFifo s s := ⟨Eq.refl _, Eq.refl _, Eq.refl _, Eq.refl _, Eq.refl _, Eq.refl _⟩

theorem SameFifo.foldl {V : Type} (f : State → V → State) (h : ∀ s v, SameFifo s (f s v)) :
    ∀ (l : List V) (s : State), SameFifo s (l.foldl f s)
  | [], _ => .rfl
  | v :: l, s => (h s v).trans (SameFifo.foldl f h l (f s v))

theorem wakeOne_fifo (c : WakeCause) (s : State) (d : Nat) : SameFifo s (wakeOne c s d) := by
  have a : ∀ (u : State) r, SameFifo u (u.setDom d r) := fun u r => SameFifo.rfl
  unfold wakeOne
  dsimp only
  split
  · exact a _ _
  · exact .rfl
  · split
    · exact .rfl
    · split
      · exact .rfl
      · split
        · exact ⟨Eq.refl _, Eq.refl _, Eq.refl _, Eq.refl _, Eq.refl _, Eq.refl _⟩
        · exact a _ _

theorem wake_fifo (c : WakeCause) (s : State) (d : Nat) : SameFifo s (wake c s d) :=
  SameFifo.foldl _ (wakeOne_fifo c) _ s

theorem wakeAll_fifo (c : WakeCause) (s : State) : SameFifo s (wakeAll c s) := by
  unfold wakeAll
  split
  · exact .rfl
  · exact SameFifo.foldl _ (wake_fifo c) _ s

theorem watchMatch_fifo (s : State) (x : Src) : SameFifo s (watchMatch s x) := by
  unfold watchMatch
  split
  · exact wakeAll_fifo _ _
  · exact .rfl

theorem raiseSource_fifo (s : State) (n : Nat) : SameFifo s (raiseSource s n) := by
  unfold raiseSource
  split
  · exact .rfl
  · split
    · exact ⟨Eq.refl _, Eq.refl _, Eq.refl _, Eq.refl _, Eq.refl _, Eq.refl _⟩
    · exact SameFifo.trans (t := s.setSys { s.sys with held := Sparse.set false s.sys.held n true })
        ⟨Eq.refl _, Eq.refl _, Eq.refl _, Eq.refl _, Eq.refl _, Eq.refl _⟩ (watchMatch_fifo _ _)

theorem setLevel_fifo (s : State) (n : Nat) (v : Bool) : SameFifo s (setLevel s n v) := by
  unfold setLevel
  split
  · exact .rfl
  · dsimp only
    split
    · exact SameFifo.trans (t := s.setSys { s.sys with levels := Sparse.set false s.sys.levels n v })
        ⟨Eq.refl _, Eq.refl _, Eq.refl _, Eq.refl _, Eq.refl _, Eq.refl _⟩ (raiseSource_fifo _ _)
    · exact ⟨Eq.refl _, Eq.refl _, Eq.refl _, Eq.refl _, Eq.refl _, Eq.refl _⟩

/-- What leaves Locket alone leaves its lists alone. -/
theorem SameFifo.of_pwr (e : t.pwr = s.pwr) : SameFifo s t := by
  unfold SameFifo
  rw [e]
  exact ⟨Eq.refl _, Eq.refl _, Eq.refl _, Eq.refl _, Eq.refl _, Eq.refl _⟩

theorem takeCredit_fifo (s : State) (m : Tenant) : SameFifo s (takeCredit s m) := by
  unfold takeCredit
  dsimp only
  split
  · exact SameFifo.trans (.of_pwr (Eq.refl _)) (setLevel_fifo _ _ _)
  · exact .of_pwr (Eq.refl _)

theorem wakeQuarter_fifo (s : State) (q : Option Nat) : SameFifo s (wakeQuarter s q) := by
  unfold wakeQuarter
  split
  · split
    · exact wake_fifo _ _ _
    · exact .rfl
  · exact .rfl

/-- An entry is captured: it stands last in the FIFO (R317, R318). -/
theorem capture_effect (w : W64) (h : s.pwr.capture.length < 1024) :
    (capture s w).pwr.capture = s.pwr.capture ++ [⟨s.pwr.capturePos.toNat / 4, w⟩] ∧
    (capture s w).pwr.capturePos = s.pwr.capturePos + 1 ∧
    (capture s w).pwr.captureAll = (s.pwr.captureAll || !s.coreUp) ∧
    (capture s w).pwr.waiting = s.pwr.waiting ∧ OnlyChanges [.pwr, .ras, .sys] s (capture s w) := by
  generalize hf : (if s.pwr.capturePos.toNat % 4 = 0 then freshLine s ⟨.capture, 0, s.pwr.capturePos.toNat / 4⟩ else s) = f
  have hfp : f.pwr = s.pwr := by rw [← hf]; split <;> rfl
  have hfo : OnlyChanges [.ras] s f := by
    rw [← hf]; unfold freshLine State.setErr
    exact OnlyChanges.ite ((setRas_only _).trans (setRas_only _)) (.refl _ _)
  have hfc : f.coreUp = s.coreUp := by unfold State.coreUp State.isOn State.dom; rw [hfp]
  unfold capture
  simp only [if_neg (show ¬ 1024 ≤ s.pwr.capture.length by omega), hf, hfp, hfc]
  generalize hg : f.setPwr _ = g
  have g1 : g.pwr.capture = s.pwr.capture ++ [⟨s.pwr.capturePos.toNat / 4, w⟩] := by rw [← hg]; rfl
  have g2 : g.pwr.capturePos = s.pwr.capturePos + 1 := by rw [← hg]; rfl
  have g3 : g.pwr.captureAll = (s.pwr.captureAll || !s.coreUp) := by rw [← hg]; rfl
  have g4 : g.pwr.waiting = s.pwr.waiting := by rw [← hg]; rfl
  have g5 : OnlyChanges [.pwr, .ras, .sys] s g := by
    rw [← hg]; exact (hfo.mono (by decide)).trans ((setPwr_only _).mono (by decide))
  have wq : OnlyChanges [.pwr] g (wakeQuarter g (capQuarter w)) := by
    unfold wakeQuarter
    split
    · exact OnlyChanges.ite (wake_only _ _ _) (.refl _ _)
    · exact .refl _ _
  obtain ⟨q1, q2, q3, q4, -, -⟩ := wakeQuarter_fifo g (capQuarter w)
  generalize wakeQuarter g (capQuarter w) = v at wq q1 q2 q3 q4
  split
  · generalize hx : v.setPwr { v.pwr with capture75 := true } = x
    have xo : OnlyChanges [.pwr] v x := by rw [← hx]; exact setPwr_only _
    have xf : SameFifo v x := by
      rw [← hx]; exact ⟨Eq.refl _, Eq.refl _, Eq.refl _, Eq.refl _, Eq.refl _, Eq.refl _⟩
    have yo : OnlyChanges [.pwr] x (if x.exiting dCORE then x else wakeAll .captureFill x) :=
      OnlyChanges.ite (.refl _ _) (wakeAll_only _ _)
    have yf : SameFifo x (if x.exiting dCORE then x else wakeAll .captureFill x) := by
      split
      · exact .rfl
      · exact wakeAll_fifo _ _
    obtain ⟨r1, r2, r3, r4, -, -⟩ := (xf.trans yf).trans (raiseSource_fifo _ 0x27E)
    exact ⟨r1.trans (q1.trans g1), r2.trans (q2.trans g2), r3.trans (q3.trans g3), r4.trans (q4.trans g4),
      (g5.trans (wq.mono (by decide))).trans (((xo.trans yo).mono (by decide)).trans ((raiseSource_only _ _).mono (by decide)))⟩
  · exact ⟨q1.trans g1, q2.trans g2, q3.trans g3, q4.trans g4, g5.trans (wq.mono (by decide))⟩

theorem chargeFault_fifo (s : State) (m : Tenant) (code : Nat) (d : W32) : SameFifo s (chargeFault s m code d) := by
  unfold chargeFault
  refine SameFifo.trans (.of_pwr ?_) (setLevel_fifo _ _ _)
  dsimp only
  split
  · exact notify_only _ _ _ .pwr (by decide)
  · exact Eq.refl _

theorem discard_fifo (s : State) (reason : Nat) (v : BitVec 20) (owner : BitVec 7) (c : Option Chip)
    (req : BitVec 16) (m : Option Tenant) : SameFifo s (discard s reason v owner c req m) := by
  unfold discard
  dsimp only
  have h : ∀ u : IntakeUnit, SameFifo s (raiseSource ((s.setIntake u).count 2 1) (discardSource reason)) := fun u =>
    SameFifo.trans (.of_pwr (Eq.refl _)) (raiseSource_fifo _ _)
  split
  · split
    · exact ((h _).trans (.of_pwr (modTenant_only _ _ .pwr (by decide)))).trans (chargeFault_fifo _ _ _ _)
    · exact (h _).trans (.of_pwr (modTenant_only _ _ .pwr (by decide)))
  · exact h _

/-! ## Faults and discards -/

/-- A tenant record after a fault with a code, a detail and the frame it falls in (R173, R174). -/
def faulted (r : TenantRec) (code : Nat) (detail frame : W32) : TenantRec :=
  let q := { r with
    faultCount := satInc r.faultCount
    faultSummary := r.faultSummary ||| BitVec.twoPow 8 (faultBit code) }
  if q.faultValid then q else { q with
    faultValid := true, faultCode := BitVec.ofNat 8 code, faultDetail := detail, faultFrame := frame }

theorem chargeFault_tenant (h : Sparse.wf {} s.ten.recs = true) (m : Tenant) (code : Nat) (d : W32) :
    (chargeFault s m code d).tenant m = faulted (s.tenant m) code d s.frameLo := by
  have key : ∀ u : State, u.ten = (s.setTenant m (faulted (s.tenant m) code d s.frameLo)).ten →
      (setLevel u (0x400 + m.toNat) true).tenant m = faulted (s.tenant m) code d s.frameLo := by
    intro u e
    rw [tenant_congr (setLevel_only _ _ _ .ten (by decide)), tenant_congr e, State.setTenant_tenant_self _ _ _ h]
  unfold chargeFault
  refine key _ ?_
  dsimp only
  split
  · rw [notify_only _ _ _ .ten (by decide)]; rfl
  · rfl

theorem chargeFault_tenant_ne (m k : Tenant) (code : Nat) (d : W32) (h : k ≠ m) :
    (chargeFault s m code d).tenant k = s.tenant k := by
  have key : ∀ u : State, (∃ r, u.ten = (s.setTenant m r).ten) →
      (setLevel u (0x400 + m.toNat) true).tenant k = s.tenant k := by
    rintro u ⟨r, e⟩
    rw [tenant_congr (setLevel_only _ _ _ .ten (by decide)), tenant_congr e, State.setTenant_tenant_ne _ _ _ _ h]
  unfold chargeFault
  refine key _ ?_
  dsimp only
  split
  · exact ⟨_, by rw [notify_only _ _ _ .ten (by decide)]⟩
  · exact ⟨_, rfl⟩

/-- The first-discard record after a discard (R59, R74). -/
def discarded (s : State) (reason : Nat) (v : BitVec 20) (owner : BitVec 7) (c : Option Chip) (req : BitVec 16) :
    IntakeUnit :=
  { s.intake with
    discardCount := satInc s.intake.discardCount
    discard := if s.intake.discard.valid then s.intake.discard else
      { valid := true, reason := BitVec.ofNat 4 reason, owner := if c.isSome then 0 else owner, chain := c.isSome
        requester := match c with
          | some c => c.setWidth 16
          | none => req
        vector := v, frame := s.frameLo } }

/-- The discard as it is recorded: every part before the charge to a tenant. -/
theorem discard_eq (s : State) (reason : Nat) (v : BitVec 20) (owner : BitVec 7) (c : Option Chip)
    (req : BitVec 16) (m : Option Tenant) : discard s reason v owner c req m =
      (let u := raiseSource ((s.setIntake (discarded s reason v owner c req)).count 2 1) (discardSource reason)
       match m, chargedBit reason with
       | some m, some b =>
         let u := u.modTenant m fun r => { r with
           discards := satInc r.discards, intakeStatus := r.intakeStatus ||| BitVec.twoPow 5 b }
         match discardFault reason with
         | some code => chargeFault u m code (v.setWidth 32)
         | none => u
       | _, _ => u) := by
  by_cases e : s.intake.discard.valid = true
  · simp only [discard, discarded, e, if_true]
    all_goals rfl
  · simp only [discard, discarded, e, if_false, Bool.false_eq_true]
    all_goals rfl

theorem discard_intake (s : State) (reason : Nat) (v : BitVec 20) (owner : BitVec 7) (c : Option Chip)
    (req : BitVec 16) (m : Option Tenant) :
    (discard s reason v owner c req m).intake = discarded s reason v owner c req := by
  have e : (raiseSource ((s.setIntake (discarded s reason v owner c req)).count 2 1) (discardSource reason)).intake =
      discarded s reason v owner c req := by rw [raiseSource_only _ _ .intake (by decide)]; rfl
  rw [discard_eq]
  dsimp only
  split
  · split
    · rw [chargeFault_only _ _ _ _ .intake (by decide)]; exact e
    · exact e
  · exact e

/-- A discard charged to a tenant as a fault (R59, R173). -/
theorem discard_tenant (h : Sparse.wf {} s.ten.recs = true) {reason b code : Nat} (hb : chargedBit reason = some b)
    (hf : discardFault reason = some code) (v : BitVec 20) (owner : BitVec 7) (c : Option Chip) (req : BitVec 16)
    (m : Tenant) :
    (discard s reason v owner c req (some m)).tenant m =
      faulted { s.tenant m with
        discards := satInc (s.tenant m).discards
        intakeStatus := (s.tenant m).intakeStatus ||| BitVec.twoPow 5 b } code (v.setWidth 32) s.frameLo := by
  have e : ∀ u : State, u.ten = s.ten → u.frame = s.frame → u.tenant m = s.tenant m ∧ u.frameLo = s.frameLo :=
    fun u a b => ⟨tenant_congr a m, by unfold State.frameLo; rw [b]⟩
  have ht : (raiseSource ((s.setIntake (discarded s reason v owner c req)).count 2 1) (discardSource reason)).ten =
      s.ten := by rw [raiseSource_only _ _ .ten (by decide)]; rfl
  have hfr : (raiseSource ((s.setIntake (discarded s reason v owner c req)).count 2 1) (discardSource reason)).frame =
      s.frame := by rw [raiseSource_only _ _ .frame (by decide)]; rfl
  rw [discard_eq]
  simp only [hb, hf]
  generalize raiseSource ((s.setIntake (discarded s reason v owner c req)).count 2 1) (discardSource reason) = u at ht hfr
  have hw : Sparse.wf {} u.ten.recs = true := by rw [ht]; exact h
  rw [chargeFault_tenant (by exact setTenant_wf _ _ hw), modTenant_self hw, (e u ht hfr).1]
  show faulted _ _ _ u.frameLo = _
  rw [(e u ht hfr).2]

end Sys2Proof.Machine
end

