-- ==== Sys2Proof/Laws/Access.lean ====
section
/-! SUPPORT. Accesses that the block serves at once: an admitted write or read is made (R370, R372). -/
namespace Sys2Proof.Machine

variable {s t : State}

theorem access_serves {a : RegAccess} (h : s.Serves a) (ad : admitted a = true) :
    access s a = if a.write then performWrite s a else performRead s a := by
  unfold access submit perform
  rw [h.shown, h.outOfReset, ad, h.opened, h.ready]
  simp

theorem wordWrite_admitted (p : Path) (off : Nat) (data : W32) (h : off < 0x400000) (k : off % 4 = 0) :
    admitted (wordWrite p off data) = true := by
  unfold admitted wordWrite
  simp only [BitVec.toNat_ofNat]
  have : off % 2 ^ 22 = off := Nat.mod_eq_of_lt h
  simp [this, k]

theorem wordRead_admitted (p : Path) (off : Nat) (h : off < 0x400000) (k : off % 4 = 0) :
    admitted (wordRead p off) = true := by
  unfold admitted wordRead
  simp only [BitVec.toNat_ofNat]
  have : off % 2 ^ 22 = off := Nat.mod_eq_of_lt h
  simp [this, k]

theorem write4_serves {p : Path} {off : Nat} {data : W32} (h : s.Serves (wordWrite p off data)) (l : off < 0x400000)
    (k : off % 4 = 0) : write4 s p off data = performWrite s (wordWrite p off data) :=
  access_serves h (wordWrite_admitted p off data l k)

/-- The low word of a 4-byte write is its data. -/
theorem wordWrite_low (p : Path) (off : Nat) (data : W32) : (field (wordWrite p off data).data 0 32 : W32) = data := by
  unfold wordWrite field
  simp

/-- A 4-byte write outside the target pages and the operation addresses is one register write. -/
theorem performWrite_word {p : Path} {off : Nat} {data : W32} (l : off < 0x400000) (o : opAt off = none)
    (q : ¬ (0x100000 ≤ off ∧ off < 0x200000)) :
    performWrite s (wordWrite p off data) = writeWord s p off data := by
  have e : (wordWrite p off data).offset.toNat = off := by
    show (BitVec.ofNat 22 off).toNat = off
    rw [BitVec.toNat_ofNat]; exact Nat.mod_eq_of_lt l
  unfold performWrite
  simp only [e, o]
  rw [if_neg q]
  show (if (4 : Nat) = 8 then _ else writeWord s p off (field (wordWrite p off data).data 0 32)) = _
  rw [wordWrite_low, if_neg (by decide)]

theorem fmWrite4_serves {p : Path} {off : Nat} {data : W32} (f : pathFm p = true)
    (h : s.Serves (wordWrite p off data)) (l : off < 0x400000) (k : off % 4 = 0) (o : opAt off = none)
    (q : ¬ (0x100000 ≤ off ∧ off < 0x200000)) : fmWrite4 s p off data = writeWord s p off data := by
  unfold fmWrite4
  rw [if_pos f, write4_serves h l k, performWrite_word l o q]

/-- The FM's path names no tenant. -/
theorem pathFm_none {p : Path} (f : pathFm p = true) : pathTenant p = none := by
  cases p with
  | tenant t => exact absurd f (by simp [pathFm, pathTenant])
  | manager => rfl
  | smbus => rfl

/-- A register write of the FM on a page of the manager window. -/
theorem writeWord_page {p : Path} {off : Nat} {data : W32} (f : pathFm p = true) (l : 0x2024 ≤ off) (u : off < 0x100000)
    (n : ¬ (0x10020 ≤ off ∧ off < 0x1002C)) :
    writeWord s p off data = match pageOf off with
      | some (pg, base) => writePage s pg (off - base) data
      | none => s := by
  unfold writeWord
  rw [if_neg (by omega), if_neg (by omega), if_neg n, pathFm_none f]
  simp only
  rw [if_neg (by omega), if_neg (by omega), if_neg (by omega)]
  all_goals rfl

/-- A served write of an operation address acts on its source (R95). -/
theorem exec_sourceCommand (op : SrcOp) (p : Path) (data : W32) (req : BitVec 16) (s : State)
    (h : s.Serves (wordWrite p (sourceOffset op) data)) :
    exec (sourceCommand op p data req) s = .next (sourceOpWrite s p op data (if op = .setPending then req else 0)) := by
  have key : ∀ r, access s ⟨p, BitVec.ofNat 22 (sourceOffset op), 4, true, true, data.setWidth 64, r⟩ =
      sourceOpWrite s p op data r := by
    intro r
    have h' : s.Serves ⟨p, BitVec.ofNat 22 (sourceOffset op), 4, true, true, data.setWidth 64, r⟩ :=
      ⟨h.shown, h.outOfReset, h.opened, h.ready⟩
    rw [access_serves h' (wordWrite_admitted p (sourceOffset op) data (by cases op <;> decide) (by cases op <;> decide))]
    have e : opAt (BitVec.ofNat 22 (sourceOffset op)).toNat = some op := by cases op <;> rfl
    simp only [if_true, performWrite, e]
    have := wordWrite_low p 0 data
    unfold wordWrite at this
    simp only at this
    rw [this]
  cases op
  · exact congrArg Host.Outcome.next (key req)
  all_goals exact congrArg Host.Outcome.next (key 0)

end Sys2Proof.Machine
end

