-- ==== Sys2Proof/Laws/Coherent.lean ====
section
/-! SUPPORT. Coherence (Safety.lean), with the queue that a command leaves alone, under the setters of State's units, under folds and under conditionals. -/
namespace Sys2Proof.Machine

/-- A coherent state whose queue is the one given. -/
structure Kept (queue : List Instr) (s : State) : Prop extends Coherent s where
  pending : s.pending = queue

/-- An outcome that goes on goes on in such a state. -/
def OutKept (queue : List Instr) (o : Host.Outcome State Fault Refusal) : Prop := match o with
  | .next t => Kept queue t
  | _ => True

variable {queue : List Instr}

theorem kept_foldl {α : Type} (l : List α) (g : State → α → State) (s : State) (hg : ∀ s a, Kept queue s → Kept
    queue (g s a)) (h : Kept queue s) : Kept queue (l.foldl g s) := by
  induction l generalizing s with
  | nil => exact h
  | cons a l ih => exact ih _ (hg _ _ h)

theorem kept_foldl_fst {α β : Type} (l : List α) (g : State × β → α → State × β) (p : State × β) (hg : ∀ p a, Kept
    queue p.1 → Kept queue (g p a).1) (h : Kept queue p.1) : Kept queue (l.foldl g p).1 := by
  induction l generalizing p with
  | nil => exact h
  | cons a l ih => exact ih _ (hg _ _ h)

theorem kept_ite {c : Prop} [Decidable c] {a b : State} (ha : Kept queue a) (hb : Kept queue b) : Kept queue (if c
    then a else b) := by
  split
  · exact ha
  · exact hb

theorem kept_dite {c : Prop} [Decidable c] {a b : State} (ha : c → Kept queue a) (hb : ¬c → Kept queue b) : Kept
    queue (if c then a else b) := by
  split
  · exact ha ‹_›
  · exact hb ‹_›

theorem kept_ite_of {c : Prop} [Decidable c] {a b : State} (ha : c → Kept queue a) (hb : Kept queue b) : Kept
    queue (if c then a else b) := by
  split
  · exact ha ‹_›
  · exact hb

theorem kept_setFrame {s : State} (u) (h : Kept queue s) : Kept queue (s.setFrame u) := by
  obtain ⟨h, e⟩ := h; cases h; exact ⟨by constructor <;> assumption, e⟩

theorem kept_setIntake {s : State} (u) (h : Kept queue s) : Kept queue (s.setIntake u) := by
  obtain ⟨h, e⟩ := h; cases h; exact ⟨by constructor <;> assumption, e⟩

theorem kept_setBead {s : State} (u) (h : Kept queue s) : Kept queue (s.setBead u) := by
  obtain ⟨h, e⟩ := h; cases h; exact ⟨by constructor <;> assumption, e⟩

theorem kept_setBnd {s : State} (u) (h : Kept queue s) : Kept queue (s.setBnd u) := by
  obtain ⟨h, e⟩ := h; cases h; exact ⟨by constructor <;> assumption, e⟩

theorem kept_setSys {s : State} {u : SysUnit} (h : Kept queue s) (h_latch : Sparse.wf {} u.latch = true) (h_levels
    : Sparse.wf false u.levels = true) (h_held : Sparse.wf false u.held = true) (h_linkFell : Sparse.wf false
    u.linkFell = true) : Kept queue (s.setSys u) := by
  obtain ⟨h, e⟩ := h; cases h; exact ⟨by constructor <;> first | assumption | (constructor <;> assumption), e⟩

theorem kept_setVec {s : State} {u : VecUnit} (h : Kept queue s) (h_cfg : Sparse.wf 0 u.cfg = true) (h_st :
    Sparse.wf 0 u.st = true) (h_sysCfg : Sparse.wf 0 u.sysCfg = true) (h_sysSt : Sparse.wf 0 u.sysSt = true)
    (h_lost : Sparse.wf false u.lost = true) (h_reloaded : Sparse.wf false u.reloaded = true) : Kept queue
    (s.setVec u) := by
  obtain ⟨h, e⟩ := h; cases h; exact ⟨by constructor <;> first | assumption | (constructor <;> assumption), e⟩

theorem kept_setTgt {s : State} {u : TgtUnit} (h : Kept queue s) (h_recs : Sparse.wf {} u.recs = true) (h_busy :
    Sparse.wf false u.busy = true) (h_busyClear : Sparse.wf false u.busyClear = true) (h_heldOff : Sparse.wf false
    u.heldOff = true) : Kept queue (s.setTgt u) := by
  obtain ⟨h, e⟩ := h; cases h; exact ⟨by constructor <;> first | assumption | (constructor <;> assumption), e⟩

theorem kept_setTen {s : State} {u : TenUnit} (h : Kept queue s) (h_recs : Sparse.wf {} u.recs = true) (h_blocks :
    Sparse.wf none u.blocks = true) (h_clasp : Sparse.wf {} u.clasp = true) : Kept queue (s.setTen u) := by
  obtain ⟨h, e⟩ := h; cases h; exact ⟨by constructor <;> first | assumption | (constructor <;> assumption), e⟩

theorem kept_setBoxes {s : State} {u : MbxUnit} (h : Kept queue s) (h_boxes : Sparse.wf {} u.boxes = true) (rung :
    ∀ p ∈ u.boxes, TakenRings p.2) : Kept queue (s.setMbx u) := by
  obtain ⟨h, e⟩ := h; cases h; exact ⟨by constructor <;> first | assumption | (constructor <;> assumption), e⟩

theorem kept_setAcu {s : State} {u : AcuUnit} (h : Kept queue s) (h_ram : Sparse.wf none u.ram = true) : Kept
    queue (s.setAcu u) := by
  obtain ⟨h, e⟩ := h; cases h; exact ⟨by constructor <;> first | assumption | (constructor <;> assumption), e⟩

theorem kept_setChain {s : State} {u : ChainUnit} (h : Kept queue s) (h_pairs : Sparse.wf {} u.pairs = true) :
    Kept queue (s.setChain u) := by
  obtain ⟨h, e⟩ := h; cases h; exact ⟨by constructor <;> first | assumption | (constructor <;> assumption), e⟩

theorem kept_setFifo {s : State} {u : PwrUnit} (h : Kept queue s) (h_domains : Sparse.wf {} u.domains = true)
    (fifo : u.capture.length ≤ 1024) (watch : u.watch.length ≤ 256) : Kept queue (s.setPwr u) := by
  obtain ⟨h, e⟩ := h; cases h; exact ⟨by constructor <;> first | assumption | (constructor <;> assumption), e⟩

theorem kept_setRas {s : State} {u : RasUnit} (h : Kept queue s) (h_cursors : Sparse.wf 0 u.cursors = true)
    (h_records : Sparse.wf [] u.records = true) : Kept queue (s.setRas u) := by
  obtain ⟨h, e⟩ := h; cases h; exact ⟨by constructor <;> first | assumption | (constructor <;> assumption), e⟩

theorem kept_setDivider {s : State} {u : LoupeUnit} (h : Kept queue s) (h_ring : Sparse.wf [] u.ring = true)
    (h_sums : Sparse.wf 0 u.sums = true) (h_now : Sparse.wf 0 u.now = true) (h_bins : Sparse.wf 0 u.bins = true)
    (div : u.divider.toNat ≤ 256) (divn : u.dividerNext.toNat ≤ 256) : Kept queue (s.setLoupe u) := by
  obtain ⟨h, e⟩ := h; cases h; exact ⟨by constructor <;> first | assumption | (constructor <;> assumption), e⟩

theorem kept_setMbx {s : State} {u : MbxUnit} (h : Kept queue s) (e : u.boxes = s.mbx.boxes) : Kept queue
    (s.setMbx u) :=
  kept_setBoxes h (e ▸ h.mbxCanonical.boxes) (e ▸ h.rung)

theorem kept_setFw {s : State} (u : FwUnit) (h : Kept queue s) : Kept queue (s.setFw u) := kept_setMbx h rfl

theorem kept_setPwr {s r : State} {u : PwrUnit} (d : Sparse.wf {} u.domains = true) (a : u.capture =
    r.pwr.capture) (b : u.watch = r.pwr.watch) (h : Kept queue s) (hr : Kept queue r) : Kept queue (s.setPwr u) :=
  kept_setFifo h d (a ▸ hr.fifo) (b ▸ hr.watch)

theorem kept_setLoupe {s r : State} {u : LoupeUnit} (h1 : Sparse.wf [] u.ring = true) (h2 : Sparse.wf 0 u.sums =
    true) (h3 : Sparse.wf 0 u.now = true) (h4 : Sparse.wf 0 u.bins = true) (a : u.divider = r.loupe.divider) (b :
    u.dividerNext = r.loupe.dividerNext) (h : Kept queue s) (hr : Kept queue r) : Kept queue (s.setLoupe u) :=
  kept_setDivider h h1 h2 h3 h4 (a ▸ hr.divider) (b ▸ hr.dividerNext)

theorem kept_setRecords {s : State} {u : HmUnit} (h : Kept queue s) (a : u.records.length ≤ 8) : Kept queue
    (s.setHm u) := by
  obtain ⟨h, e⟩ := h; cases h; exact ⟨by constructor <;> assumption, e⟩

theorem kept_setHm {s r : State} {u : HmUnit} (a : u.records = r.hm.records) (h : Kept queue s) (hr : Kept queue
    r) : Kept queue (s.setHm u) :=
  kept_setRecords h (a ▸ hr.records)

theorem kept_pwr {s : State} {u : PwrUnit} (d : u.domains = s.pwr.domains) (a : u.capture = s.pwr.capture) (b :
    u.watch = s.pwr.watch) (h : Kept queue s) : Kept queue (s.setPwr u) := kept_setPwr (d ▸
    h.pwrCanonical.domains) a b h h

theorem kept_hm {s : State} {u : HmUnit} (a : u.records = s.hm.records) (h : Kept queue s) : Kept queue (s.setHm
    u) := kept_setHm a h h

theorem kept_filterWatch {s : State} {u : PwrUnit} (p : Src → Bool) (d : u.domains = s.pwr.domains) (a : u.capture
    = s.pwr.capture) (b : u.watch = s.pwr.watch.filter p) (h : Kept queue s) : Kept queue (s.setPwr u) :=
  kept_setFifo h (d ▸ h.pwrCanonical.domains) (a ▸ h.fifo) (b ▸ Nat.le_trans (List.length_filter_le _ _) h.watch)

theorem kept_sys {s : State} {u : SysUnit} (e_latch : u.latch = s.sys.latch) (e_levels : u.levels = s.sys.levels)
    (e_held : u.held = s.sys.held) (e_linkFell : u.linkFell = s.sys.linkFell) (h : Kept queue s) : Kept queue
    (s.setSys u) := kept_setSys h (e_latch ▸ h.sysCanonical.latch) (e_levels ▸ h.sysCanonical.levels) (e_held ▸
    h.sysCanonical.held) (e_linkFell ▸ h.sysCanonical.linkFell)

theorem kept_vec {s : State} {u : VecUnit} (e_cfg : u.cfg = s.vec.cfg) (e_st : u.st = s.vec.st) (e_sysCfg :
    u.sysCfg = s.vec.sysCfg) (e_sysSt : u.sysSt = s.vec.sysSt) (e_lost : u.lost = s.vec.lost) (e_reloaded :
    u.reloaded = s.vec.reloaded) (h : Kept queue s) : Kept queue (s.setVec u) := kept_setVec h (e_cfg ▸
    h.vecCanonical.cfg) (e_st ▸ h.vecCanonical.st) (e_sysCfg ▸ h.vecCanonical.sysCfg) (e_sysSt ▸
    h.vecCanonical.sysSt) (e_lost ▸ h.vecCanonical.lost) (e_reloaded ▸ h.vecCanonical.reloaded)

theorem kept_tgt {s : State} {u : TgtUnit} (e_recs : u.recs = s.tgt.recs) (e_busy : u.busy = s.tgt.busy)
    (e_busyClear : u.busyClear = s.tgt.busyClear) (e_heldOff : u.heldOff = s.tgt.heldOff) (h : Kept queue s) :
    Kept queue (s.setTgt u) := kept_setTgt h (e_recs ▸ h.tgtCanonical.recs) (e_busy ▸ h.tgtCanonical.busy)
    (e_busyClear ▸ h.tgtCanonical.busyClear) (e_heldOff ▸ h.tgtCanonical.heldOff)

theorem kept_ten {s : State} {u : TenUnit} (e_recs : u.recs = s.ten.recs) (e_blocks : u.blocks = s.ten.blocks)
    (e_clasp : u.clasp = s.ten.clasp) (h : Kept queue s) : Kept queue (s.setTen u) := kept_setTen h (e_recs ▸
    h.tenCanonical.recs) (e_blocks ▸ h.tenCanonical.blocks) (e_clasp ▸ h.tenCanonical.clasp)

theorem kept_acu {s : State} {u : AcuUnit} (e_ram : u.ram = s.acu.ram) (h : Kept queue s) : Kept queue (s.setAcu
    u) := kept_setAcu h (e_ram ▸ h.acuCanonical.ram)

theorem kept_chain {s : State} {u : ChainUnit} (e_pairs : u.pairs = s.chain.pairs) (h : Kept queue s) : Kept queue
    (s.setChain u) := kept_setChain h (e_pairs ▸ h.chainCanonical.pairs)

theorem kept_ras {s : State} {u : RasUnit} (e_cursors : u.cursors = s.ras.cursors) (e_records : u.records =
    s.ras.records) (h : Kept queue s) : Kept queue (s.setRas u) := kept_setRas h (e_cursors ▸
    h.rasCanonical.cursors) (e_records ▸ h.rasCanonical.records)

theorem kept_loupe {s : State} {u : LoupeUnit} (e_ring : u.ring = s.loupe.ring) (e_sums : u.sums = s.loupe.sums)
    (e_now : u.now = s.loupe.now) (e_bins : u.bins = s.loupe.bins) (a : u.divider = s.loupe.divider) (b :
    u.dividerNext = s.loupe.dividerNext) (h : Kept queue s) : Kept queue (s.setLoupe u) := kept_setDivider h
    (e_ring ▸ h.loupeCanonical.ring) (e_sums ▸ h.loupeCanonical.sums) (e_now ▸ h.loupeCanonical.now) (e_bins ▸
    h.loupeCanonical.bins) (a ▸ h.divider) (b ▸ h.dividerNext)

theorem kept_acu_ram {s : State} {u : AcuUnit} (e : u.ram = []) (h : Kept queue s) : Kept queue (s.setAcu u) :=
    kept_setAcu h (e ▸ rfl)

theorem wf_sys_latch {s : State} (h : Kept queue s) : Sparse.wf {} s.sys.latch = true := h.sysCanonical.latch

theorem wf_sys_levels {s : State} (h : Kept queue s) : Sparse.wf false s.sys.levels = true := h.sysCanonical.levels

theorem wf_sys_held {s : State} (h : Kept queue s) : Sparse.wf false s.sys.held = true := h.sysCanonical.held

theorem wf_sys_linkFell {s : State} (h : Kept queue s) : Sparse.wf false s.sys.linkFell = true :=
    h.sysCanonical.linkFell

theorem wf_vec_cfg {s : State} (h : Kept queue s) : Sparse.wf 0 s.vec.cfg = true := h.vecCanonical.cfg

theorem wf_vec_st {s : State} (h : Kept queue s) : Sparse.wf 0 s.vec.st = true := h.vecCanonical.st

theorem wf_vec_sysCfg {s : State} (h : Kept queue s) : Sparse.wf 0 s.vec.sysCfg = true := h.vecCanonical.sysCfg

theorem wf_vec_sysSt {s : State} (h : Kept queue s) : Sparse.wf 0 s.vec.sysSt = true := h.vecCanonical.sysSt

theorem wf_vec_lost {s : State} (h : Kept queue s) : Sparse.wf false s.vec.lost = true := h.vecCanonical.lost

theorem wf_vec_reloaded {s : State} (h : Kept queue s) : Sparse.wf false s.vec.reloaded = true :=
    h.vecCanonical.reloaded

theorem wf_tgt_recs {s : State} (h : Kept queue s) : Sparse.wf {} s.tgt.recs = true := h.tgtCanonical.recs

theorem wf_tgt_busy {s : State} (h : Kept queue s) : Sparse.wf false s.tgt.busy = true := h.tgtCanonical.busy

theorem wf_tgt_busyClear {s : State} (h : Kept queue s) : Sparse.wf false s.tgt.busyClear = true :=
    h.tgtCanonical.busyClear

theorem wf_tgt_heldOff {s : State} (h : Kept queue s) : Sparse.wf false s.tgt.heldOff = true := h.tgtCanonical.heldOff

theorem wf_ten_recs {s : State} (h : Kept queue s) : Sparse.wf {} s.ten.recs = true := h.tenCanonical.recs

theorem wf_ten_blocks {s : State} (h : Kept queue s) : Sparse.wf none s.ten.blocks = true := h.tenCanonical.blocks

theorem wf_ten_clasp {s : State} (h : Kept queue s) : Sparse.wf {} s.ten.clasp = true := h.tenCanonical.clasp

theorem wf_mbx_boxes {s : State} (h : Kept queue s) : Sparse.wf {} s.mbx.boxes = true := h.mbxCanonical.boxes

theorem wf_acu_ram {s : State} (h : Kept queue s) : Sparse.wf none s.acu.ram = true := h.acuCanonical.ram

theorem wf_chain_pairs {s : State} (h : Kept queue s) : Sparse.wf {} s.chain.pairs = true := h.chainCanonical.pairs

theorem wf_pwr_domains {s : State} (h : Kept queue s) : Sparse.wf {} s.pwr.domains = true := h.pwrCanonical.domains

theorem wf_ras_cursors {s : State} (h : Kept queue s) : Sparse.wf 0 s.ras.cursors = true := h.rasCanonical.cursors

theorem wf_ras_records {s : State} (h : Kept queue s) : Sparse.wf [] s.ras.records = true := h.rasCanonical.records

theorem wf_loupe_ring {s : State} (h : Kept queue s) : Sparse.wf [] s.loupe.ring = true := h.loupeCanonical.ring

theorem wf_loupe_sums {s : State} (h : Kept queue s) : Sparse.wf 0 s.loupe.sums = true := h.loupeCanonical.sums

theorem wf_loupe_now {s : State} (h : Kept queue s) : Sparse.wf 0 s.loupe.now = true := h.loupeCanonical.now

theorem wf_loupe_bins {s : State} (h : Kept queue s) : Sparse.wf 0 s.loupe.bins = true := h.loupeCanonical.bins

theorem kept_box {s : State} (h : Kept queue s) (m : BitVec 7) : TakenRings (s.box m) := by
  rcases Sparse.get_mem ({} : Mailbox) s.mbx.boxes m.toNat with e | e
  · unfold State.box; rw [e]; exact fun h => nomatch h
  · exact h.rung _ e

theorem kept_setBox {s : State} {m : BitVec 7} {b : Mailbox} (h : Kept queue s) (hb : TakenRings b) : Kept queue
    (s.setBox m b) := by
  refine kept_setBoxes (u := { s.mbx with boxes := Sparse.set {} s.mbx.boxes m.toNat b }) h (Sparse.wf_set _ _ _ _
      h.mbxCanonical.boxes) fun p hp => ?_
  rcases Sparse.mem_set hp with e | e
  · rw [e]; exact hb
  · exact h.rung p e

theorem kept_modBox {s : State} {m : BitVec 7} {f : Mailbox → Mailbox} (h : Kept queue s) (hf : ∀ b, TakenRings b
    → TakenRings (f b)) : Kept queue (s.modBox m f) :=
  kept_setBox h (hf _ (kept_box h m))

theorem takenRings_untaken {b : Mailbox} (h : b.taken = false) : TakenRings b := fun e => nomatch (h.symm.trans e)

theorem takenRings_idle {b : Mailbox} (h : b.taken = false) : TakenRings b := fun e => nomatch (h.symm.trans e)

theorem writeSeq_takenRings (b : Mailbox) (d : W32) (h : TakenRings b) : TakenRings (writeSeq b d) := by
  unfold writeSeq
  split <;> exact h

theorem writeCommandByte_takenRings (b : Mailbox) (off : Nat) (v : Byte) (h : TakenRings b) : TakenRings
    (writeCommandByte b off v) := by
  unfold writeCommandByte
  split <;> exact h

theorem writeCommandBytes_takenRings (l : List (Byte × Nat)) (b : Mailbox) (off : Nat) (h : TakenRings b) :
    TakenRings (l.foldl (fun b e => writeCommandByte b (off + e.2) e.1) b) := by
  induction l generalizing b with
  | nil => exact h
  | cons e l ih => exact ih _ (writeCommandByte_takenRings _ _ _ h)

theorem Sparse.forall_mapVals (d : Mailbox) (f : Nat → Mailbox → Mailbox) (m : Sparse Mailbox) (hf : ∀ k b,
    TakenRings b → TakenRings (f k b)) (h : ∀ p ∈ m, TakenRings p.2) : ∀ p ∈ Sparse.mapVals d f m, TakenRings p.2
    := by
  induction m with
  | nil => exact fun p hp => nomatch hp
  | cons e m ih =>
    have hm := ih fun p hp => h p (List.mem_cons_of_mem _ hp)
    intro p hp
    simp only [Sparse.mapVals] at hp
    split at hp
    · exact hm p hp
    · rcases List.mem_cons.1 hp with e' | e'
      · exact e' ▸ hf _ _ (h e List.mem_cons_self)
      · exact hm p e'

end Sys2Proof.Machine
end

