-- ==== Sys2Proof/Laws/CoherentTables.lean ====
section
/-! SUPPORT. Coherence and the queue are kept by the tables, the ring and the intake: one lemma for each operation. -/
namespace Sys2Proof.Machine

variable {queue : List Instr}

/-! ## Machine/Ops.lean -/

theorem State.setTenant_keeps (s : State) (t : Tenant) (r : TenantRec) (hs : Kept queue s) : Kept queue
    (State.setTenant s t r) :=
  kept_setTen (s := s) hs (Sparse.wf_set _ _ _ _ hs.tenCanonical.recs) hs.tenCanonical.blocks hs.tenCanonical.clasp

theorem State.modTenant_keeps (s : State) (t : Tenant) (f : TenantRec → TenantRec) (hs : Kept queue s) : Kept
    queue (State.modTenant s t f) := by
  unfold State.modTenant
  repeat' first
    | (with_reducible first
      | assumption | apply State.setTenant_keeps)

theorem State.setTarget_keeps (s : State) (x : Slot) (r : TargetRec) (hs : Kept queue s) : Kept queue
    (State.setTarget s x r) :=
  kept_setTgt (s := s) hs (Sparse.wf_set _ _ _ _ hs.tgtCanonical.recs) hs.tgtCanonical.busy
      hs.tgtCanonical.busyClear hs.tgtCanonical.heldOff

theorem State.modTarget_keeps (s : State) (x : Slot) (f : TargetRec → TargetRec) (hs : Kept queue s) : Kept queue
    (State.modTarget s x f) := by
  unfold State.modTarget
  repeat' first
    | (with_reducible first
      | assumption | apply State.setTarget_keeps)

theorem State.setDom_keeps (s : State) (d : Nat) (r : DomainRec) (hs : Kept queue s) : Kept queue (State.setDom s
    d r) :=
  kept_setFifo (s := s) hs (Sparse.wf_set _ _ _ _ hs.pwrCanonical.domains) hs.fifo hs.watch

theorem State.setClasp_keeps (s : State) (g : BitVec 12) (w : ClaspWord) (hs : Kept queue s) : Kept queue
    (State.setClasp s g w) :=
  kept_setTen (s := s) hs hs.tenCanonical.recs hs.tenCanonical.blocks (Sparse.wf_set _ _ _ _ hs.tenCanonical.clasp)

theorem State.setBusy_keeps (s : State) (x : Slot) (b : Bool) (hs : Kept queue s) : Kept queue (State.setBusy s x
    b) :=
  kept_setTgt (s := s) hs hs.tgtCanonical.recs (Sparse.wf_set _ _ _ _ hs.tgtCanonical.busy)
      hs.tgtCanonical.busyClear hs.tgtCanonical.heldOff

theorem State.clearBusyNext_keeps (s : State) (x : Slot) (hs : Kept queue s) : Kept queue (State.clearBusyNext s x) :=
  kept_setTgt (s := s) hs hs.tgtCanonical.recs hs.tgtCanonical.busy (Sparse.wf_set false s.tgt.busyClear x.toNat
      true hs.tgtCanonical.busyClear) hs.tgtCanonical.heldOff

theorem State.count_keeps (s : State) (w : Nat) (n : Nat) (hs : Kept queue s) : Kept queue (State.count s w n) := by
  unfold State.count
  repeat' first
    | (with_reducible first
      | assumption | apply kept_setLoupe | apply Sparse.wf_set | apply wf_loupe_ring | apply wf_loupe_sums
      | apply wf_loupe_now | apply wf_loupe_bins)
    | exact rfl

theorem State.setUse_keeps (s : State) (u : FrameUse) (hs : Kept queue s) : Kept queue (State.setUse s u) := by
  unfold State.setUse
  try dsimp only
  repeat' first
    | (intro _)
    | (with_reducible first
      | assumption | apply kept_setFrame | apply kept_foldl | apply kept_ite)
    | split

theorem takeLane_keeps (s : State) (k : Lane) (hs : Kept queue s) : Kept queue (takeLane s k) := by
  unfold takeLane
  try dsimp only
  repeat' first
    | (intro _)
    | (with_reducible first
      | assumption | apply State.setUse_keeps | apply kept_foldl | apply kept_ite)
    | split

theorem exceed_keeps (s : State) (hs : Kept queue s) : Kept queue (exceed s) := by
  unfold exceed
  try dsimp only
  repeat' first
    | (intro _)
    | (with_reducible first
      | assumption | apply State.setUse_keeps | apply kept_foldl | apply kept_ite)
    | split

theorem takeBanks_keeps (s : State) (src : Src) (n : Nat) (hs : Kept queue s) : Kept queue (takeBanks s src n) := by
  unfold takeBanks
  try dsimp only
  repeat' first
    | (intro _)
    | (with_reducible first
      | assumption | apply State.setUse_keeps | apply kept_foldl | apply kept_ite)
    | split

theorem wakeOne_keeps (cause : WakeCause) (s : State) (d : Nat) (hs : Kept queue s) : Kept queue (wakeOne cause s
    d) := by
  unfold wakeOne
  try dsimp only
  repeat' first
    | (with_reducible first
      | assumption | apply State.setDom_keeps | apply kept_setPwr | apply wf_pwr_domains)
    | exact rfl | split

theorem wake_keeps (cause : WakeCause) (s : State) (d : Nat) (hs : Kept queue s) : Kept queue (wake cause s d) := by
  unfold wake
  repeat' first
    | (with_reducible first
      | assumption | apply wakeOne_keeps | apply kept_foldl)

theorem wakeAll_keeps (cause : WakeCause) (s : State) (hs : Kept queue s) : Kept queue (wakeAll cause s) := by
  unfold wakeAll
  repeat' first
    | (with_reducible first
      | assumption | apply wake_keeps | apply kept_foldl | apply kept_ite)

theorem watchMatch_keeps (s : State) (x : Src) (hs : Kept queue s) : Kept queue (watchMatch s x) := by
  unfold watchMatch
  repeat' first
    | (with_reducible first
      | assumption | apply wakeAll_keeps | apply kept_ite)

theorem State.setLatch_keeps (s : State) (n : Nat) (l : SysLatch) (hs : Kept queue s) : Kept queue (State.setLatch
    s n l) := by
  unfold State.setLatch
  repeat' first
    | (with_reducible first
      | assumption | apply kept_setSys | apply Sparse.wf_set | apply wf_sys_latch | apply wf_sys_levels
      | apply wf_sys_held | apply wf_sys_linkFell)

theorem raiseSource_keeps (s : State) (n : Nat) (hs : Kept queue s) : Kept queue (raiseSource s n) := by
  unfold raiseSource
  repeat' first
    | (with_reducible first
      | assumption | apply State.setLatch_keeps | apply watchMatch_keeps | apply kept_setSys | apply Sparse.wf_set
      | apply wf_sys_latch | apply wf_sys_levels | apply wf_sys_held | apply wf_sys_linkFell | apply kept_ite)

theorem setLevel_keeps (s : State) (n : Nat) (b : Bool) (hs : Kept queue s) : Kept queue (setLevel s n b) := by
  unfold setLevel
  repeat' first
    | (with_reducible first
      | assumption | apply kept_setSys | apply Sparse.wf_set | apply wf_sys_latch | apply wf_sys_levels
      | apply wf_sys_held | apply wf_sys_linkFell | apply raiseSource_keeps | apply kept_ite)

theorem setPriv_keeps (s : State) (x : Slot) (n : Nat) (hs : Kept queue s) : Kept queue (setPriv s x n) := by
  unfold setPriv
  repeat' first
    | (with_reducible first
      | assumption | apply State.modTarget_keeps)

theorem raiseNotice_keeps (s : State) (t : Tenant) (n : Nat) (hs : Kept queue s) : Kept queue (raiseNotice s t n)
    := by
  unfold raiseNotice
  try dsimp only
  repeat' first
    | (intro _)
    | (with_reducible first
      | assumption | apply setPriv_keeps | apply kept_foldl | apply kept_ite)
    | split

theorem notify_keeps (s : State) (t : Tenant) (n : Nat) (hs : Kept queue s) : Kept queue (notify s t n) := by
  unfold notify
  try dsimp only
  repeat' first
    | (intro _)
    | (with_reducible first
      | assumption | apply raiseNotice_keeps | apply kept_setTgt | apply Sparse.wf_set | apply Sparse.wf_dropKeys |
        apply Sparse.wf_mapVals | apply wf_tgt_recs | apply wf_tgt_busy | apply wf_tgt_busyClear | apply
            wf_tgt_heldOff | apply kept_foldl | apply kept_ite)
    | exact rfl
    | split

theorem releaseHeldNotices_keeps (s : State) (hs : Kept queue s) : Kept queue (releaseHeldNotices s) := by
  unfold releaseHeldNotices
  try dsimp only
  repeat' first
    | (intro _)
    | (with_reducible first
      | assumption | apply raiseNotice_keeps | apply kept_setTgt | apply Sparse.wf_set | apply Sparse.wf_dropKeys |
        apply Sparse.wf_mapVals | apply wf_tgt_recs | apply wf_tgt_busy | apply wf_tgt_busyClear | apply
            wf_tgt_heldOff | apply kept_foldl | apply kept_ite)
    | exact rfl
    | split

theorem chargeFault_keeps (s : State) (t : Tenant) (code : Nat) (detail : W32) (hs : Kept queue s) : Kept queue
    (chargeFault s t code detail) := by
  unfold chargeFault
  repeat' first
    | (with_reducible first
      | assumption | apply State.setTenant_keeps | apply notify_keeps | apply setLevel_keeps | apply kept_ite)

theorem discard_keeps (s : State) (reason : Nat) (v : BitVec 20) (owner : BitVec 7) (chain : Option Chip)
    (requester : BitVec 16) (t : Option Tenant) (hs : Kept queue s) : Kept queue (discard s reason v owner chain
    requester t) := by
  unfold discard
  repeat' first
    | (with_reducible first
      | assumption | apply State.count_keeps | apply kept_setIntake | apply raiseSource_keeps
      | apply State.modTenant_keeps | apply chargeFault_keeps)
    | split

theorem takeCredit_keeps (s : State) (t : Tenant) (hs : Kept queue s) : Kept queue (takeCredit s t) := by
  unfold takeCredit
  repeat' first
    | (with_reducible first
      | assumption | apply State.setTenant_keeps | apply State.modTenant_keeps | apply setLevel_keeps | apply
          kept_ite)

theorem returnCredit_keeps (s : State) (t : Tenant) (hs : Kept queue s) : Kept queue (returnCredit s t) := by
  unfold returnCredit
  repeat' first
    | (with_reducible first
      | assumption | apply State.modTenant_keeps)

theorem requestMsg_keeps (s : State) (t : Tenant) (hs : Kept queue s) : Kept queue (requestMsg s t) := by
  unfold requestMsg
  repeat' first
    | (with_reducible first
      | assumption | apply kept_setTgt | apply wf_tgt_recs | apply wf_tgt_busy | apply wf_tgt_busyClear
      | apply wf_tgt_heldOff | apply kept_ite)

theorem requestSys_keeps (s : State) (hs : Kept queue s) : Kept queue (requestSys s) := by
  unfold requestSys
  repeat' first
    | (with_reducible first
      | assumption | apply kept_setTgt | apply wf_tgt_recs | apply wf_tgt_busy | apply wf_tgt_busyClear
      | apply wf_tgt_heldOff)

theorem requestRefill_keeps (s : State) (x : Slot) (hs : Kept queue s) : Kept queue (requestRefill s x) := by
  unfold requestRefill
  repeat' first
    | (with_reducible first
      | assumption | apply State.setTarget_keeps | apply requestMsg_keeps | apply requestSys_keeps | apply kept_ite)
    | split

theorem removeRaw_keeps (s : State) (x : Slot) (src : Src) (hs : Kept queue s) : Kept queue (removeRaw s x src) :=
    by
  unfold removeRaw
  try dsimp only
  repeat' first
    | (intro _)
    | (with_reducible first
      | assumption | apply State.setTarget_keeps | apply requestRefill_keeps | apply kept_foldl | apply kept_ite)
    | split

theorem presentRaw_keeps (s : State) (src : Src) (x : Slot) (hs : Kept queue s) : Kept queue (presentRaw s src x)
    := by
  unfold presentRaw
  try dsimp only
  repeat' first
    | (intro _)
    | (with_reducible first
      | assumption | apply State.modTarget_keeps | apply kept_foldl | apply kept_ite)
    | split

theorem State.putCfg_keeps (s : State) (src : Src) (c : W64) (hs : Kept queue s) : Kept queue (State.putCfg s src
    c) := by
  unfold State.putCfg
  repeat' first
    | (with_reducible first
      | assumption | apply kept_setVec | apply Sparse.wf_set | apply wf_vec_cfg | apply wf_vec_st
      | apply wf_vec_sysCfg | apply wf_vec_sysSt | apply wf_vec_lost | apply wf_vec_reloaded)
    | split

theorem State.putSt_keeps (s : State) (src : Src) (w : W32) (hs : Kept queue s) : Kept queue (State.putSt s src w)
    := by
  unfold State.putSt
  repeat' first
    | (with_reducible first
      | assumption | apply kept_setVec | apply Sparse.wf_set | apply wf_vec_cfg | apply wf_vec_st
      | apply wf_vec_sysCfg | apply wf_vec_sysSt | apply wf_vec_lost | apply wf_vec_reloaded)
    | split

theorem noteSaturated_keeps (s : State) (src : Src) (hs : Kept queue s) : Kept queue (noteSaturated s src) := by
  unfold noteSaturated
  try dsimp only
  repeat' first
    | (with_reducible first
      | assumption | apply kept_setVec | apply wf_vec_cfg | apply wf_vec_st | apply wf_vec_sysCfg
      | apply wf_vec_sysSt | apply wf_vec_lost | apply wf_vec_reloaded | apply State.modTenant_keeps)
    | split

theorem recordRefusal_keeps (s : State) (w : Option Tenant) (op : SrcOp) (reason : Nat) (src : Src) (hs : Kept
    queue s) : Kept queue (recordRefusal s w op reason src) := by
  unfold recordRefusal
  repeat' first
    | (with_reducible first
      | assumption | apply State.modTenant_keeps | apply kept_setTen | apply wf_ten_recs | apply wf_ten_blocks
      | apply wf_ten_clasp)
    | split


/-! ## Machine/Lines.lean -/

theorem resetTarget_keeps (s : State) (x : Slot) (hs : Kept queue s) : Kept queue (resetTarget s x) := by
  unfold resetTarget
  repeat' first
    | (with_reducible first
      | assumption | apply State.setTarget_keeps | apply kept_setTgt | apply wf_tgt_recs | apply wf_tgt_busy
      | apply wf_tgt_busyClear | apply wf_tgt_heldOff)

theorem presentAll_keeps (s : State) (x : Slot) (hs : Kept queue s) : Kept queue (presentAll s x) := by
  unfold presentAll
  try dsimp only
  repeat' first
    | (intro _)
    | (with_reducible first
      | assumption | apply presentRaw_keeps | apply kept_foldl | apply kept_ite)
    | split

theorem completeState_keeps (s : State) (src : Src) (hs : Kept queue s) : Kept queue (completeState s src) := by
  unfold completeState
  try dsimp only
  repeat' first
    | (intro _)
    | (with_reducible first
      | assumption | apply State.putSt_keeps | apply presentRaw_keeps | apply kept_foldl | apply kept_ite)
    | split

theorem loseTarget_keeps (s : State) (xn : Nat) (hs : Kept queue s) : Kept queue (loseTarget s xn) := by
  unfold loseTarget
  try dsimp only
  repeat' first
    | (with_reducible first
      | assumption | apply State.clearBusyNext_keeps | apply resetTarget_keeps | apply completeState_keeps
      | apply presentAll_keeps | apply chargeFault_keeps)
    | split

theorem zeroCfg_keeps (s : State) (src : Src) (hs : Kept queue s) : Kept queue (zeroCfg s src) := by
  unfold zeroCfg
  have h := State.putCfg_keeps s src 0 hs
  exact kept_filterWatch _ rfl rfl rfl (kept_ite (removeRaw_keeps _ _ _ h) h)

theorem reload_keeps (s : State) (v : Nat) (hs : Kept queue s) : Kept queue (reload s v) := by
  unfold reload
  repeat' first
    | (with_reducible first
      | assumption | apply kept_setVec | apply Sparse.wf_set | apply Sparse.wf_ite | apply wf_vec_cfg
      | apply wf_vec_st | apply wf_vec_sysCfg | apply wf_vec_sysSt | apply wf_vec_lost | apply wf_vec_reloaded
      | apply kept_ite)

theorem loseVector_keeps (s : State) (v : Nat) (hs : Kept queue s) : Kept queue (loseVector s v) := by
  unfold loseVector
  try dsimp only
  repeat' first
    | (with_reducible first
      | assumption | apply kept_setVec | apply Sparse.wf_set | apply wf_vec_cfg | apply wf_vec_st
      | apply wf_vec_sysCfg | apply wf_vec_sysSt | apply wf_vec_lost | apply wf_vec_reloaded
      | apply chargeFault_keeps)
    | split

theorem rewriteLine_keeps (s : State) (l : LineId) (hs : Kept queue s) : Kept queue (rewriteLine s l) := by
  unfold rewriteLine
  try dsimp only
  repeat' first
    | (intro _)
    | (with_reducible first
      | assumption | apply loseVector_keeps | apply zeroCfg_keeps | apply State.putSt_keeps | apply
        loseTarget_keeps | apply State.setClasp_keeps | apply kept_setVec | apply Sparse.wf_set | apply
            Sparse.wf_dropKeys | apply Sparse.wf_mapVals | apply wf_vec_cfg | apply wf_vec_st | apply wf_vec_sysCfg
                | apply wf_vec_sysSt | apply wf_vec_lost | apply wf_vec_reloaded | apply kept_foldl | apply
                  kept_ite)
    | exact rfl
    | split

theorem noteUncorrectable_keeps (s : State) (foundBy : BitVec 3) (l : LineId) (hs : Kept queue s) : Kept queue
    (noteUncorrectable s foundBy l) := by
  have h1 : ∀ (u : RasUnit) (a : ArrayKind), (markArray u a).cursors = u.cursors := fun u a => by cases a <;> rfl
  have h2 : ∀ (u : RasUnit) (a : ArrayKind), (markArray u a).records = u.records := fun u a => by cases a <;> rfl
  unfold noteUncorrectable
  dsimp only
  refine raiseSource_keeps _ _ (kept_setRas hs ?_ ?_)
  · split
    · exact (h1 _ _).symm ▸ hs.rasCanonical.cursors
    · exact (h1 _ _).symm ▸ hs.rasCanonical.cursors
  · split
    · exact (h2 _ _).symm ▸ hs.rasCanonical.records
    · exact (h2 _ _).symm ▸ hs.rasCanonical.records

theorem noteCorrected_keeps (s : State) (l : LineId) (hs : Kept queue s) : Kept queue (noteCorrected s l) := by
  unfold noteCorrected
  repeat' first
    | (with_reducible first
      | assumption | apply State.count_keeps | apply kept_setRas | apply Sparse.wf_set | apply wf_ras_cursors
      | apply wf_ras_records | apply kept_ite)
    | split

theorem State.setErr_keeps (s : State) (l : LineId) (e : BitVec 280) (hs : Kept queue s) : Kept queue
    (State.setErr s l e) := by
  unfold State.setErr
  repeat' first
    | (with_reducible first
      | assumption | apply kept_setRas | apply wf_ras_cursors | apply wf_ras_records)

theorem upset_keeps (s : State) (u : Upset) (hs : Kept queue s) : Kept queue (upset s u) := by
  unfold upset
  repeat' first
    | (with_reducible first
      | assumption | apply State.setErr_keeps)

theorem State.dropLines_keeps (s : State) (gone : LineId → Bool) (hs : Kept queue s) : Kept queue (State.dropLines
    s gone) := by
  unfold State.dropLines
  try dsimp only
  repeat' first
    | (intro _)
    | (with_reducible first
      | assumption | apply kept_setRas | apply Sparse.wf_set | apply Sparse.wf_dropKeys | apply Sparse.wf_mapVals |
        apply wf_ras_cursors | apply wf_ras_records | apply kept_foldl | apply kept_ite)
    | exact rfl
    | split

theorem freshLine_keeps (s : State) (l : LineId) (hs : Kept queue s) : Kept queue (freshLine s l) := by
  unfold freshLine
  repeat' first
    | (with_reducible first
      | assumption | apply State.setErr_keeps | apply kept_setRas | apply wf_ras_cursors | apply wf_ras_records)

theorem disturbLine_keeps (s : State) (l : LineId) (e : BitVec 256) (hs : Kept queue s) : Kept queue (disturbLine
    s l e) := by
  unfold disturbLine
  split
  · split
    · exact kept_foldl _ _ _ (fun _ _ h => State.putCfg_keeps _ _ _ h) hs
    · exact hs
  · split
    · exact kept_foldl _ _ _ (fun _ _ h => State.putSt_keeps _ _ _ h) hs
    · exact hs
  · split
    · exact kept_foldl _ _ _ (fun _ _ h => State.putCfg_keeps _ _ _ h) hs
    · exact kept_foldl _ _ _ (fun _ _ h => State.putSt_keeps _ _ _ h) hs
  · split
    · exact kept_foldl _ _ _ (fun _ _ h => State.modTarget_keeps _ _ _ h) hs
    · exact hs
  · exact kept_foldl _ _ _ (fun _ _ h => State.setClasp_keeps _ _ _ h) hs
  all_goals exact hs

theorem readLine_keeps (foundBy : BitVec 3) (rmw : Bool) (s : State) (l : LineId) (hs : Kept queue s) : Kept queue
    (readLine foundBy rmw s l) := by
  unfold readLine
  split
  · exact hs
  split
  · exact hs
  split
  · exact hs
  · have h := noteCorrected_keeps s l hs
    generalize noteCorrected s l = t at h ⊢
    dsimp only
    split
    · exact State.setErr_keeps _ _ _ h
    split
    · exact h
    split
    · exact kept_ras rfl rfl h
    · exact h
  · refine rewriteLine_keeps _ _ (noteUncorrectable_keeps _ _ _ (freshLine_keeps _ _ ?_))
    split
    · exact hs
    · exact kept_ras rfl rfl hs
  · exact disturbLine_keeps _ _ _ (freshLine_keeps _ _ (noteCorrected_keeps _ _ (kept_ras rfl rfl hs)))

theorem wroteLine_keeps (s : State) (l : LineId) (hs : Kept queue s) : Kept queue (wroteLine s l) := by
  unfold wroteLine
  repeat' first
    | (with_reducible first
      | assumption | apply freshLine_keeps | apply kept_setRas | apply wf_ras_cursors | apply wf_ras_records
      | apply State.setErr_keeps | apply kept_ite)

theorem readCfg_keeps (s : State) (src : Src) (hs : Kept queue s) : Kept queue (readCfg s src) := by
  unfold readCfg
  repeat' first
    | (with_reducible first
      | assumption | apply readLine_keeps)
    | split

theorem readSt_keeps (s : State) (src : Src) (hs : Kept queue s) : Kept queue (readSt s src) := by
  unfold readSt
  repeat' first
    | (with_reducible first
      | assumption | apply readLine_keeps)
    | split

theorem writeCfg_keeps (s : State) (src : Src) (c : W64) (hs : Kept queue s) : Kept queue (writeCfg s src c) := by
  unfold writeCfg
  repeat' first
    | (with_reducible first
      | assumption | apply wroteLine_keeps | apply State.putCfg_keeps | apply readLine_keeps)
    | split

theorem writeSt_keeps (s : State) (src : Src) (w : W32) (hs : Kept queue s) : Kept queue (writeSt s src w) := by
  unfold writeSt
  repeat' first
    | (with_reducible first
      | assumption | apply wroteLine_keeps | apply State.putSt_keeps)
    | split

theorem touchTarget_keeps (s : State) (x : Slot) (hs : Kept queue s) : Kept queue (touchTarget s x) := by
  unfold touchTarget
  repeat' first
    | (with_reducible first
      | assumption | apply readLine_keeps | apply wroteLine_keeps)

theorem readTarget_keeps (s : State) (x : Slot) (hs : Kept queue s) : Kept queue (readTarget s x) := by
  unfold readTarget
  try dsimp only
  repeat' first
    | (intro _)
    | (with_reducible first
      | assumption | apply readLine_keeps | apply kept_foldl | apply kept_ite)
    | split

theorem peekSt_keeps (s : State) (src : Src) (hs : Kept queue s) : Kept queue (peekSt s src) := by
  unfold peekSt
  try dsimp only
  repeat' first
    | (intro _)
    | (with_reducible first
      | assumption | apply readLine_keeps | apply kept_foldl | apply kept_ite)
    | split

theorem wroteTarget_keeps (s : State) (x : Slot) (hs : Kept queue s) : Kept queue (wroteTarget s x) := by
  unfold wroteTarget
  try dsimp only
  repeat' first
    | (intro _)
    | (with_reducible first
      | assumption | apply wroteLine_keeps | apply kept_foldl | apply kept_ite)
    | split

theorem present_keeps (s : State) (src : Src) (x : Slot) (hs : Kept queue s) : Kept queue (present s src x) := by
  unfold present
  try dsimp only
  repeat' first
    | (intro _)
    | (with_reducible first
      | assumption | apply presentRaw_keeps | apply touchTarget_keeps | apply kept_foldl | apply kept_ite)
    | split

theorem removeSrc_keeps (s : State) (x : Slot) (src : Src) (hs : Kept queue s) : Kept queue (removeSrc s x src) :=
    by
  unfold removeSrc
  try dsimp only
  repeat' first
    | (intro _)
    | (with_reducible first
      | assumption | apply removeRaw_keeps | apply touchTarget_keeps | apply kept_foldl | apply kept_ite)
    | split

theorem readIndex_keeps (s : State) (lo : Nat) (hi : Nat) (hs : Kept queue s) : Kept queue (readIndex s lo hi) := by
  unfold readIndex
  try dsimp only
  repeat' first
    | (intro _)
    | (with_reducible first
      | assumption | apply readLine_keeps | apply kept_foldl | apply kept_ite)
    | split

theorem readGroups_keeps (s : State) (lo : Nat) (hi : Nat) (hs : Kept queue s) : Kept queue (readGroups s lo hi) :=
    by
  unfold readGroups
  try dsimp only
  repeat' first
    | (intro _)
    | (with_reducible first
      | assumption | apply peekSt_keeps | apply kept_foldl | apply kept_ite)
    | split

theorem trueGroups_keeps (s : State) (lo : Nat) (hi : Nat) (hs : Kept queue s) : Kept queue (trueGroups s lo hi) :=
    by
  unfold trueGroups
  try dsimp only
  repeat' first
    | (intro _)
    | (with_reducible first
      | assumption | apply kept_setVec | apply Sparse.wf_set | apply Sparse.wf_dropKeys | apply Sparse.wf_mapVals |
        apply wf_vec_cfg | apply wf_vec_st | apply wf_vec_sysCfg | apply wf_vec_sysSt | apply wf_vec_lost | apply
            wf_vec_reloaded | apply kept_foldl | apply kept_ite)
    | exact rfl
    | split

theorem readGroupWord_keeps (s : State) (c : W64) (hs : Kept queue s) : Kept queue (readGroupWord s c) := by
  unfold readGroupWord
  try dsimp only
  repeat' first
    | (intro _)
    | (with_reducible first
      | assumption | apply readLine_keeps | apply kept_foldl | apply kept_ite)
    | split

theorem touchClasp_keeps (s : State) (g : BitVec 12) (hs : Kept queue s) : Kept queue (touchClasp s g) := by
  unfold touchClasp
  repeat' first
    | (with_reducible first
      | assumption | apply wroteLine_keeps | apply readLine_keeps)


/-! ## Machine/Ring.lean -/

theorem State.setLinkPort_keeps (s : State) (p : PortId) (l : LinkPort) (hs : Kept queue s) : Kept queue
    (State.setLinkPort s p l) := by
  unfold State.setLinkPort
  repeat' first
    | (with_reducible first
      | assumption | apply kept_setChain | apply wf_chain_pairs)
    | split

theorem State.setPhy_keeps (s : State) (p : PortId) (u : PhyPort) (hs : Kept queue s) : Kept queue (State.setPhy s
    p u) := by
  unfold State.setPhy
  repeat' first
    | (with_reducible first
      | assumption | apply kept_setChain | apply wf_chain_pairs)
    | split

theorem State.setPortCfg_keeps (s : State) (p : PortId) (c : PortCfg) (hs : Kept queue s) : Kept queue
    (State.setPortCfg s p c) := by
  unfold State.setPortCfg
  repeat' first
    | (with_reducible first
      | assumption | apply kept_setChain | apply wf_chain_pairs)
    | split

theorem State.setPair_keeps (s : State) (c : Chip) (p : Pair) (hs : Kept queue s) : Kept queue (State.setPair s c
    p) := by
  unfold State.setPair
  repeat' first
    | (with_reducible first
      | assumption | apply kept_setChain | apply Sparse.wf_set | apply wf_chain_pairs)

theorem freeCredits_keeps (s : State) (p : PortId) (d : DataFlit) (hs : Kept queue s) : Kept queue (freeCredits s
    p d) := by
  unfold freeCredits
  repeat' first
    | (with_reducible first
      | assumption | apply State.setLinkPort_keeps)

theorem strand_keeps (s : State) (d : DataFlit) (hs : Kept queue s) : Kept queue (strand s d) := by
  unfold strand
  repeat' first
    | (with_reducible first
      | assumption | apply kept_setChain | apply wf_chain_pairs)

theorem originate_keeps (s : State) (d : DataFlit) (hs : Kept queue s) : Kept queue (originate s d) := by
  unfold originate
  repeat' first
    | (with_reducible first
      | assumption | apply State.setLinkPort_keeps)
    | split

theorem originateCtrl_keeps (s : State) (c : Chip) (r : BitVec 44) (hs : Kept queue s) : Kept queue (originateCtrl
    s c r) := by
  unfold originateCtrl
  repeat' first
    | (with_reducible first
      | assumption | apply originate_keeps)

theorem startSession_keeps (s : State) (c : Chip) (hs : Kept queue s) : Kept queue (startSession s c) := by
  unfold startSession
  repeat' first
    | (with_reducible first
      | assumption | apply State.setPair_keeps | apply kept_ite)

theorem strandQueued_keeps (s : State) (p : PortId) (c : Chip) (hs : Kept queue s) : Kept queue (strandQueued s p
    c) := by
  unfold strandQueued
  repeat' first
    | (intro _)
    | (with_reducible first
      | assumption | apply State.setLinkPort_keeps | apply freeCredits_keeps | apply strand_keeps | apply kept_foldl)
    | split

theorem endSession_keeps (s : State) (c : Chip) (hs : Kept queue s) : Kept queue (endSession s c) := by
  unfold endSession
  repeat' first
    | (with_reducible first
      | assumption | apply strandQueued_keeps | apply State.setPair_keeps)

theorem sendAllow_keeps (s : State) (c : Chip) (t : Nat) (hs : Kept queue s) : Kept queue (sendAllow s c t) := by
  unfold sendAllow
  try dsimp only
  repeat' first
    | (intro _)
    | (with_reducible first
      | assumption | apply State.setPair_keeps | apply originateCtrl_keeps | apply kept_foldl | apply kept_ite)
    | split

theorem sendDueAllows_keeps (s : State) (c : Chip) (hs : Kept queue s) : Kept queue (sendDueAllows s c) := by
  unfold sendDueAllows
  try dsimp only
  repeat' first
    | (intro _)
    | (with_reducible first
      | assumption | apply sendAllow_keeps | apply kept_foldl | apply kept_ite)
    | split

theorem updateMembers_keeps (s : State) (hs : Kept queue s) : Kept queue (updateMembers s) := by
  unfold updateMembers
  try dsimp only
  repeat' first
    | (intro _)
    | (with_reducible first
      | assumption | apply kept_setChain | apply Sparse.wf_set | apply Sparse.wf_dropKeys | apply Sparse.wf_mapVals
        | apply wf_chain_pairs | apply sendDueAllows_keeps | apply startSession_keeps | apply endSession_keeps |
          apply kept_foldl | apply kept_ite)
    | exact rfl
    | split

theorem setDist_keeps (s : State) (p : PortId) (table : BitVec 64) (hs : Kept queue s) : Kept queue (setDist s p
    table) := by
  unfold setDist
  apply updateMembers_keeps
  split <;> exact kept_chain rfl hs

theorem sendMap_keeps (s : State) (p : PortId) (hs : Kept queue s) : Kept queue (sendMap s p) := by
  unfold sendMap
  repeat' first
    | (with_reducible first
      | assumption | apply State.setLinkPort_keeps | apply kept_ite)

theorem originateEdge_keeps (s : State) (c : Chip) (r : BitVec 44) (hs : Kept queue s) : Kept queue (originateEdge
    s c r) := by
  unfold originateEdge
  repeat' first
    | (with_reducible first
      | assumption | apply State.setPair_keeps | apply State.count_keeps | apply originate_keeps)

theorem sendEdge_keeps (s : State) (c : Chip) (t : Tenant) (v : BitVec 20) (requester : BitVec 16) (hs : Kept
    queue s) : Kept queue (sendEdge s c t v requester) := by
  unfold sendEdge
  repeat' first
    | (with_reducible first
      | assumption | apply originateEdge_keeps | apply State.setPair_keeps)

theorem raiseLine_keeps (s : State) (c : Chip) (l : BitVec 4) (hs : Kept queue s) : Kept queue (raiseLine s c l) := by
  unfold raiseLine
  repeat' first
    | (with_reducible first
      | assumption | apply State.setPair_keeps | apply originateEdge_keeps | apply kept_ite)

theorem releaseLines_keeps (s : State) (c : Chip) (hs : Kept queue s) : Kept queue (releaseLines s c) := by
  unfold releaseLines
  repeat' first
    | (intro _)
    | (with_reducible first
      | assumption | apply originateEdge_keeps | apply State.setPair_keeps | apply kept_foldl | apply kept_ite)

theorem returnAllowance_keeps (s : State) (c : Chip) (t : Tenant) (hs : Kept queue s) : Kept queue (returnAllowance
    s c t) := by
  unfold returnAllowance
  try dsimp only
  repeat' first
    | (intro _)
    | (with_reducible first
      | assumption | apply sendAllow_keeps | apply State.setPair_keeps | apply kept_foldl | apply kept_ite)
    | split


/-! ## Machine/Source.lean -/

theorem applyEdge_keeps (s : State) (src : Src) (hs : Kept queue s) : Kept queue (applyEdge s src) := by
  unfold applyEdge
  repeat' first
    | (with_reducible first
      | assumption | apply readSt_keeps | apply readCfg_keeps | apply writeSt_keeps | apply noteSaturated_keeps
      | apply present_keeps | apply kept_ite)

theorem applyClear_keeps (s : State) (src : Src) (hs : Kept queue s) : Kept queue (applyClear s src) := by
  unfold applyClear
  repeat' first
    | (with_reducible first
      | assumption | apply readSt_keeps | apply readCfg_keeps | apply writeSt_keeps | apply removeSrc_keeps
      | apply kept_ite)

theorem applyEnable_keeps (s : State) (src : Src) (b : Bool) (hs : Kept queue s) : Kept queue (applyEnable s src
    b) := by
  unfold applyEnable
  repeat' first
    | (with_reducible first
      | assumption | apply readCfg_keeps | apply writeCfg_keeps | apply present_keeps | apply removeSrc_keeps
      | apply kept_ite)

theorem applyClrSticky_keeps (s : State) (src : Src) (hs : Kept queue s) : Kept queue (applyClrSticky s src) := by
  unfold applyClrSticky
  repeat' first
    | (with_reducible first
      | assumption | apply readSt_keeps | apply writeSt_keeps)

theorem applyCompletion_keeps (s : State) (src : Src) (hs : Kept queue s) : Kept queue (applyCompletion s src) := by
  unfold applyCompletion
  try dsimp only
  repeat' first
    | (intro _)
    | (with_reducible first
      | assumption | apply readSt_keeps | apply readCfg_keeps | apply writeSt_keeps | apply present_keeps | apply
        kept_foldl | apply kept_ite)
    | split

theorem applyCommit_keeps (s : State) (src : Src) (x : Slot) (hs : Kept queue s) : Kept queue (applyCommit s src
    x) := by
  unfold applyCommit
  repeat' first
    | (with_reducible first
      | assumption | apply removeSrc_keeps | apply writeSt_keeps)

theorem moveTarget_keeps (s : State) (src : Src) (old : W64) (new : W64) (hs : Kept queue s) : Kept queue
    (moveTarget s src old new) := by
  unfold moveTarget
  repeat' first
    | (with_reducible first
      | assumption | apply removeSrc_keeps | apply present_keeps | apply kept_ite)

theorem zeroVector_keeps (s : State) (v : Nat) (hs : Kept queue s) : Kept queue (zeroVector s v) := by
  unfold zeroVector
  have h := State.putSt_keeps _ (msgSrc v) 0 (State.putCfg_keeps s (msgSrc v) 0 hs)
  exact kept_filterWatch _ rfl rfl rfl (kept_ite (removeSrc_keeps _ _ _ h) h)

theorem zeroRange.writtenRange_keeps (s : State) (r : Range) (hs : Kept queue s) : Kept queue
    (zeroRange.writtenRange s r) := by
  unfold zeroRange.writtenRange
  try dsimp only
  repeat' first
    | (intro _)
    | (with_reducible first
      | assumption | apply wroteLine_keeps | apply kept_foldl | apply kept_ite)
    | split

theorem zeroRange_keeps (s : State) (r : Range) (hs : Kept queue s) : Kept queue (zeroRange s r) := by
  unfold zeroRange
  exact zeroRange.writtenRange_keeps _ _ (State.dropLines_keeps _ _ (kept_foldl _ _ _ (fun _ _ h =>
    zeroVector_keeps _ _ h) hs))


/-! ## Machine/Capture.lean -/

theorem wakeQuarter_keeps (s : State) (q : Option Nat) (hs : Kept queue s) : Kept queue (wakeQuarter s q) := by
  unfold wakeQuarter
  repeat' first
    | (with_reducible first
      | assumption | apply wake_keeps)
    | split

theorem capture_keeps (s : State) (w : W64) (hs : Kept queue s) : Kept queue (capture s w) := by
  unfold capture
  dsimp only
  split
  · exact hs
  · rename_i hn
    have last : ∀ t : State, Kept queue t → Kept queue (if s.pwr.capture.length + 1 = 768 then raiseSource
        (if (t.setPwr { t.pwr with capture75 := true }).exiting dCORE then t.setPwr { t.pwr with capture75 := true }
        else wakeAll .captureFill (t.setPwr { t.pwr with capture75 := true })) 0x27E else t) :=
      fun t ht => have h75 : Kept queue (t.setPwr { t.pwr with capture75 := true }) := kept_pwr rfl rfl rfl ht
        kept_ite (raiseSource_keeps _ _ (kept_ite h75 (wakeAll_keeps _ _ h75))) ht
    refine last _ (wakeQuarter_keeps _ _ ?_)
    have h : ∀ (t : State) (e : CaptureEntry), Kept queue t → t.pwr.capture = s.pwr.capture → (t.pwr.capture ++
        [e]).length ≤ 1024 := by
      intro t _ ht e
      rw [e, List.length_append, List.length_singleton]
      omega
    split
    · exact kept_setFifo (freshLine_keeps _ _ hs) hs.pwrCanonical.domains (h _ _ (freshLine_keeps _ _ hs) rfl)
        hs.watch
    · exact kept_setFifo hs hs.pwrCanonical.domains (h s _ hs rfl) hs.watch


/-! ## Machine/Intake.lean -/

theorem enqueue_keeps (s : State) (t : Tenant) (e : QEntry) (hs : Kept queue s) : Kept queue (enqueue s t e) := by
  unfold enqueue
  repeat' first
    | (with_reducible first
      | assumption | apply State.modTenant_keeps)

theorem frontEnd_keeps (s : State) (v : BitVec 20) (requester : BitVec 16) (owner : BitVec 7) (hs : Kept queue s)
    : Kept queue (frontEnd s v requester owner) := by
  unfold frontEnd
  repeat' first
    | (with_reducible first
      | assumption | apply discard_keeps | apply returnCredit_keeps | apply enqueue_keeps | apply kept_ite)
    | split

theorem discardForm_keeps (s : State) (form : Nat) (v : BitVec 20) (requester : BitVec 16) (owner : BitVec 7) (hs
    : Kept queue s) : Kept queue (discardForm s form v requester owner) := by
  unfold discardForm
  repeat' first
    | (with_reducible first
      | assumption | apply discard_keeps)

theorem portParityError_keeps (s : State) (hs : Kept queue s) : Kept queue (portParityError s) := by
  unfold portParityError
  repeat' first
    | (with_reducible first
      | assumption | apply raiseSource_keeps | apply kept_setRas | apply wf_ras_cursors | apply wf_ras_records)

theorem chargePool_keeps (s : State) (x1 : Option Tenant) (hs : Kept queue s) : Kept queue (chargePool s x1) := by
  unfold chargePool
  try dsimp only
  repeat' first
    | (intro _)
    | (with_reducible first
      | assumption | apply takeCredit_keeps | apply kept_foldl | apply kept_ite)
    | split

theorem refundPool_keeps (s : State) (x1 : Option Tenant) (hs : Kept queue s) : Kept queue (refundPool s x1) := by
  unfold refundPool
  try dsimp only
  repeat' first
    | (intro _)
    | (with_reducible first
      | assumption | apply returnCredit_keeps | apply kept_foldl | apply kept_ite)
    | split

theorem answer_keeps (s : State) (c : CplStatus) (hs : Kept queue s) : Kept queue (answer s c) := by
  unfold answer
  try dsimp only
  repeat' first
    | (intro _)
    | (with_reducible first
      | assumption | apply kept_setBnd | apply kept_foldl | apply kept_ite)
    | split

theorem parityBeat_keeps (s : State) (posted : Bool) (t : Option Tenant) (hs : Kept queue s) : Kept queue
    (parityBeat s posted t) := by
  unfold parityBeat
  try dsimp only
  repeat' first
    | (intro _)
    | (with_reducible first
      | assumption | apply portParityError_keeps | apply refundPool_keeps | apply chargePool_keeps | apply
        answer_keeps | apply kept_foldl | apply kept_ite)
    | split

theorem windowRequest_keeps (s : State) (w : IntakeReq) (v : BitVec 20) (t : Option Tenant) (hs : Kept queue s) :
    Kept queue (windowRequest s w v t) := by
  unfold windowRequest
  try dsimp only
  repeat' first
    | (intro _)
    | (with_reducible first
      | assumption | apply answer_keeps | apply refundPool_keeps | apply chargePool_keeps | apply capture_keeps |
        apply watchMatch_keeps | apply frontEnd_keeps | apply discardForm_keeps | apply kept_foldl | apply kept_ite)
    | split

theorem execIntakeWrite_keeps (w : IntakeReq) (s : State) (hs : Kept queue s) : OutKept queue (execIntakeWrite w s)
    := by
  unfold execIntakeWrite
  show Kept _ _
  try dsimp only
  repeat' first
    | (intro _)
    | (with_reducible first
      | assumption | apply parityBeat_keeps | apply windowRequest_keeps | apply kept_foldl | apply kept_ite)
    | split

theorem latchOp_keeps (s : State) (n : Nat) (op : SrcOp) (hs : Kept queue s) : Kept queue (latchOp s n op) := by
  unfold latchOp
  repeat' first
    | (with_reducible first
      | assumption | apply raiseSource_keeps | apply State.setLatch_keeps)
    | split

theorem sourceOp_keeps (s : State) (w : Option Tenant) (op : SrcOp) (src : Src) (requester : BitVec 16) (hs : Kept
    queue s) : Kept queue (sourceOp s w op src requester) := by
  unfold sourceOp
  repeat' first
    | (with_reducible first
      | assumption | apply recordRefusal_keeps | apply latchOp_keeps | apply enqueue_keeps | apply takeCredit_keeps
      | apply discard_keeps | apply State.modTenant_keeps | apply kept_ite)
    | split

theorem sourceOpWrite_keeps (s : State) (p : Path) (op : SrcOp) (data : W32) (requester : BitVec 16) (hs : Kept
    queue s) : Kept queue (sourceOpWrite s p op data requester) := by
  unfold sourceOpWrite
  try dsimp only
  repeat' first
    | (intro _)
    | (with_reducible first
      | assumption | apply capture_keeps | apply refundPool_keeps | apply chargePool_keeps | apply watchMatch_keeps
        | apply sourceOp_keeps | apply kept_foldl | apply kept_ite)
    | split

theorem releaseEntry_keeps (s : State) (t : Tenant) (e : QEntry) (hs : Kept queue s) : Kept queue (releaseEntry s
    t e) := by
  unfold releaseEntry
  repeat' first
    | (with_reducible first
      | assumption | apply returnCredit_keeps | apply State.modTenant_keeps)
    | split

theorem tenantEdge_keeps (s : State) (t : Tenant) (src : Src) (hs : Kept queue s) : Kept queue (tenantEdge s t
    src) := by
  unfold tenantEdge
  repeat' first
    | (with_reducible first
      | assumption | apply State.modTenant_keeps | apply applyEdge_keeps)

theorem forwardEvent_keeps (s : State) (t : Tenant) (e : QEntry) (owner : BitVec 7) (c : W64) (hs : Kept queue s)
    : Kept queue (forwardEvent s t e owner c) := by
  unfold forwardEvent
  repeat' first
    | (with_reducible first
      | assumption | apply sendEdge_keeps | apply discard_keeps | apply kept_ite)

theorem drainEdge_keeps (s : State) (t : Tenant) (e : QEntry) (owner : BitVec 7) (origin : Option Chip) (hs : Kept
    queue s) : Kept queue (drainEdge s t e owner origin) := by
  unfold drainEdge
  repeat' first
    | (with_reducible first
      | assumption | apply discard_keeps | apply readCfg_keeps | apply forwardEvent_keeps | apply tenantEdge_keeps
      | apply kept_ite)
    | split

theorem drainOp_keeps (s : State) (t : Tenant) (e : QEntry) (op : SrcOp) (fm : Bool) (hs : Kept queue s) : Kept
    queue (drainOp s t e op fm) := by
  unfold drainOp
  repeat' first
    | (with_reducible first
      | assumption | apply readCfg_keeps | apply recordRefusal_keeps | apply forwardEvent_keeps | apply
          tenantEdge_keeps
      | apply applyClear_keeps | apply applyEnable_keeps | apply applyClrSticky_keeps | apply kept_ite)
    | split

theorem drainEntry_keeps (s : State) (t : Tenant) (e : QEntry) (hs : Kept queue s) : Kept queue (drainEntry s t e)
    := by
  unfold drainEntry
  repeat' first
    | (with_reducible first
      | assumption | apply State.count_keeps | apply releaseEntry_keeps | apply drainEdge_keeps | apply drainOp_keeps)
    | split

theorem wakeHeads_keeps (s : State) (hs : Kept queue s) : Kept queue (wakeHeads s) := by
  unfold wakeHeads
  repeat' first
    | (intro _)
    | (with_reducible first
      | assumption | apply wakeQuarter_keeps | apply kept_foldl)
    | split

theorem drainSlot_keeps (s : State) (hs : Kept queue s) : Kept queue (drainSlot s) := by
  unfold drainSlot
  try dsimp only
  repeat' first
    | (intro _)
    | (with_reducible first
      | assumption | apply State.setTenant_keeps | apply wakeHeads_keeps | apply takeBanks_keeps | apply
        takeLane_keeps | apply drainEntry_keeps | apply State.modTenant_keeps | apply kept_setIntake | apply
            kept_foldl | apply kept_ite)
    | split

theorem intakeStep_keeps (s : State) (hs : Kept queue s) : Kept queue (intakeStep s) := by
  unfold intakeStep
  try dsimp only
  repeat' first
    | (intro _)
    | (with_reducible first
      | assumption | apply drainSlot_keeps | apply exceed_keeps | apply kept_foldl | apply kept_ite)
    | split

theorem writeIntakeBase_keeps (s : State) (high : Bool) (data : W32) (hs : Kept queue s) : Kept queue
    (writeIntakeBase s high data) := by
  unfold writeIntakeBase
  repeat' first
    | (with_reducible first
      | assumption | apply kept_setIntake | apply kept_ite)

theorem writeWeight_keeps (s : State) (t : Tenant) (data : W32) (hs : Kept queue s) : Kept queue (writeWeight s t
    data) := by
  unfold writeWeight
  repeat' first
    | (with_reducible first
      | assumption | apply kept_setIntake | apply State.modTenant_keeps | apply kept_ite)

theorem writeChainEvent_keeps (s : State) (data : W32) (hs : Kept queue s) : Kept queue (writeChainEvent s data) := by
  unfold writeChainEvent
  repeat' first
    | (with_reducible first
      | assumption | apply kept_setIntake | apply raiseLine_keeps | apply kept_ite)

end Sys2Proof.Machine
end

