-- ==== Sys2Proof/Laws/CoherentDelivery.lean ====
section
/-! SUPPORT. Coherence and the queue are kept by targets, system sources, access control, mailboxes and delivery: one lemma for each operation. -/
namespace Sys2Proof.Machine

variable {queue : List Instr}

/-! ## Machine/Target.lean -/

theorem strayCompletion_keeps (s : State) (t : Tenant) (x : Slot) (src : Src) (stale : Bool) (hs : Kept queue s) :
    Kept queue (strayCompletion s t x src stale) := by
  unfold strayCompletion
  repeat' first
    | (with_reducible first
      | assumption | apply State.modTarget_keeps | apply State.modTenant_keeps | apply State.count_keeps
      | apply kept_setTgt | apply wf_tgt_recs | apply wf_tgt_busy | apply wf_tgt_busyClear | apply wf_tgt_heldOff
      | apply raiseSource_keeps | apply kept_ite)

theorem completeSource_keeps (s : State) (src : Src) (hs : Kept queue s) : Kept queue (completeSource s src) := by
  unfold completeSource
  repeat' first
    | (with_reducible first
      | assumption | apply applyCompletion_keeps)
    | split

theorem completeTarget_keeps (s : State) (t : Tenant) (x : Slot) (src : Src) (seqForm : Bool) (hs : Kept queue s)
    : Kept queue (completeTarget s t x src seqForm) := by
  unfold completeTarget
  repeat' first
    | (with_reducible first
      | assumption | apply State.modTarget_keeps | apply completeSource_keeps | apply State.clearBusyNext_keeps
      | apply State.count_keeps | apply State.modTenant_keeps)

theorem applyCplEntry_keeps (s : State) (e : CplEntry) (hs : Kept queue s) : Kept queue (applyCplEntry s e) := by
  unfold applyCplEntry
  repeat' first
    | (with_reducible first
      | assumption | apply touchTarget_keeps | apply strayCompletion_keeps | apply completeTarget_keeps
      | apply kept_ite)
    | split

theorem drainCompletion_keeps (s : State) (hs : Kept queue s) : Kept queue (drainCompletion s) := by
  unfold drainCompletion
  repeat' first
    | (with_reducible first
      | assumption | apply kept_setTgt | apply wf_tgt_recs | apply wf_tgt_busy | apply wf_tgt_busyClear
      | apply wf_tgt_heldOff | apply capture_keeps | apply applyCplEntry_keeps)
    | split

theorem completionStep_keeps (s : State) (hs : Kept queue s) : Kept queue (completionStep s) := by
  unfold completionStep
  try dsimp only
  repeat' first
    | (intro _)
    | (with_reducible first
      | assumption | apply drainCompletion_keeps | apply takeBanks_keeps | apply takeLane_keeps | apply
        exceed_keeps | apply kept_foldl | apply kept_ite)
    | split

theorem queueCompletion_keeps (s : State) (e : CplEntry) (hs : Kept queue s) : Kept queue (queueCompletion s e) := by
  unfold queueCompletion
  repeat' first
    | (with_reducible first
      | assumption | apply kept_setTgt | apply wf_tgt_recs | apply wf_tgt_busy | apply wf_tgt_busyClear
      | apply wf_tgt_heldOff | apply kept_ite)

theorem captureCompletion_keeps (s : State) (t : Tenant) (page : BitVec 10) (src : Src) (seq : Option (BitVec 16))
    (hs : Kept queue s) : Kept queue (captureCompletion s t page src seq) := by
  unfold captureCompletion
  repeat' first
    | (with_reducible first
      | assumption | apply capture_keeps)

theorem park_keeps (s : State) (t : Tenant) (hs : Kept queue s) : Kept queue (park s t) := by
  unfold park
  repeat' first
    | (intro _)
    | (with_reducible first
      | assumption | apply State.modTarget_keeps | apply kept_setTgt | apply wf_tgt_recs | apply wf_tgt_busy
      | apply wf_tgt_busyClear | apply wf_tgt_heldOff | apply State.modTenant_keeps | apply kept_foldl)
    | split

theorem applyDrop_keeps (s : State) (slot : Slot) (seq : BitVec 16) (hs : Kept queue s) : Kept queue (applyDrop s
    slot seq) := by
  unfold applyDrop
  try dsimp only
  repeat' first
    | (with_reducible first
      | assumption | apply raiseSource_keeps | apply kept_setTgt | apply wf_tgt_recs | apply wf_tgt_busy
      | apply wf_tgt_busyClear | apply wf_tgt_heldOff | apply park_keeps)
    | split

theorem execDropNotice_keeps (slot : Slot) (seq : BitVec 16) (parityErr : Bool) (s : State) (hs : Kept queue s) :
    OutKept queue (execDropNotice slot seq parityErr s) := by
  unfold execDropNotice
  show Kept _ _
  repeat' first
    | (with_reducible first
      | assumption | apply portParityError_keeps | apply applyDrop_keeps | apply kept_setTgt | apply wf_tgt_recs
      | apply wf_tgt_busy | apply wf_tgt_busyClear | apply wf_tgt_heldOff | apply kept_ite)

theorem queuePrivate_keeps (s : State) (w : PrivWrite) (hs : Kept queue s) : Kept queue (queuePrivate s w) := by
  unfold queuePrivate
  repeat' first
    | (with_reducible first
      | assumption | apply kept_setTgt | apply wf_tgt_recs | apply wf_tgt_busy | apply wf_tgt_busyClear
      | apply wf_tgt_heldOff | apply kept_ite)

theorem applyPrivate_keeps (s : State) (w : PrivWrite) (hs : Kept queue s) : Kept queue (applyPrivate s w) := by
  unfold applyPrivate
  repeat' first
    | (with_reducible first
      | assumption | apply touchTarget_keeps | apply State.count_keeps | apply State.modTarget_keeps)
    | split

theorem privateStep_keeps (s : State) (hs : Kept queue s) : Kept queue (privateStep s) := by
  unfold privateStep
  try dsimp only
  repeat' first
    | (intro _)
    | (with_reducible first
      | assumption | apply applyPrivate_keeps | apply takeLane_keeps | apply kept_setTgt | apply Sparse.wf_set |
        apply Sparse.wf_dropKeys | apply Sparse.wf_mapVals | apply wf_tgt_recs | apply wf_tgt_busy | apply
            wf_tgt_busyClear | apply wf_tgt_heldOff | apply kept_foldl | apply kept_ite)
    | exact rfl
    | split

theorem writeTgtCtrl_keeps (s : State) (x : Slot) (data : W32) (hs : Kept queue s) : Kept queue (writeTgtCtrl s x
    data) := by
  unfold writeTgtCtrl
  repeat' first
    | (with_reducible first
      | assumption | apply State.modTarget_keeps | apply touchTarget_keeps)

theorem writeTimerCtrl_keeps (s : State) (x : Slot) (data : W32) (hs : Kept queue s) : Kept queue (writeTimerCtrl
    s x data) := by
  unfold writeTimerCtrl
  repeat' first
    | (with_reducible first
      | assumption | apply State.modTarget_keeps | apply touchTarget_keeps)

theorem execTimerFire_keeps (x : Slot) (s : State) (hs : Kept queue s) : OutKept queue (execTimerFire x s) := by
  unfold execTimerFire
  show Kept _ _
  repeat' first
    | (with_reducible first
      | assumption | apply State.setTarget_keeps | apply kept_ite)

theorem writeTargetPage_keeps (s : State) (x : Slot) (reg : Nat) (data : W32) (hs : Kept queue s) : Kept queue
    (writeTargetPage s x reg data) := by
  unfold writeTargetPage
  repeat' first
    | (with_reducible first
      | assumption | apply queuePrivate_keeps | apply writeTgtCtrl_keeps | apply State.modTarget_keeps
      | apply writeTimerCtrl_keeps | apply kept_ite)

theorem capCompletion_keeps (s : State) (w : W64) (seq : Option (BitVec 16)) (hs : Kept queue s) : Kept queue
    (capCompletion s w seq) := by
  unfold capCompletion
  try dsimp only
  repeat' first
    | (with_reducible first
      | assumption | apply applyCplEntry_keeps)
    | split

theorem applyCaptured_keeps (s : State) (w : W64) (hs : Kept queue s) : Kept queue (applyCaptured s w) := by
  unfold applyCaptured
  repeat' first
    | (with_reducible first
      | assumption | apply frontEnd_keeps | apply takeCredit_keeps | apply discardForm_keeps | apply
          capCompletion_keeps
      | apply sourceOp_keeps | apply writeTargetPage_keeps | apply kept_ite)
    | split

theorem drainCapture_keeps (s : State) (e : CaptureEntry) (hs : Kept queue s) : Kept queue (drainCapture s e) := by
  have hu : Kept queue (s.setPwr
      { s.pwr with capture := s.pwr.capture.erase e, captureAll := s.pwr.captureAll && !(s.pwr.capture.erase e).isEmpty })
      :=
    kept_setFifo hs hs.pwrCanonical.domains (Nat.le_trans (List.length_erase_le ..) hs.fifo) hs.watch
  unfold drainCapture
  dsimp only at hu ⊢
  generalize State.setPwr s _ = t at hu ⊢
  split
  · exact kept_ite hu (noteUncorrectable_keeps _ _ _ (kept_ras rfl rfl hu))
  · exact applyCaptured_keeps _ _ (noteCorrected_keeps _ _ hu)
  · exact applyCaptured_keeps _ _ hu
  · exact applyCaptured_keeps _ _ (noteCorrected_keeps _ _ (kept_ras rfl rfl hu))


/-! ## Machine/System.lean -/

theorem takeSource_keeps (s : State) (n : Nat) (hs : Kept queue s) : Kept queue (takeSource s n) := by
  unfold takeSource
  repeat' first
    | (with_reducible first
      | assumption | apply kept_setSys | apply wf_sys_latch | apply wf_sys_levels | apply wf_sys_held
      | apply wf_sys_linkFell | apply State.setLatch_keeps | apply applyClear_keeps | apply State.count_keeps
      | apply applyEdge_keeps | apply applyEnable_keeps | apply applyClrSticky_keeps | apply kept_ite)

theorem execSystemLaneTake_keeps (s : State) (hs : Kept queue s) : OutKept queue (execSystemLaneTake s) := by
  unfold execSystemLaneTake
  show Kept _ _
  try dsimp only
  repeat' first
    | (intro _)
    | (with_reducible first
      | assumption | apply takeSource_keeps | apply takeLane_keeps | apply kept_foldl | apply kept_ite)
    | split

theorem execPortLinkChange_keeps (port : BitVec 7) (level : Bool) (s : State) (hs : Kept queue s) : OutKept queue
    (execPortLinkChange port level s) := by
  unfold execPortLinkChange
  show Kept _ _
  repeat' first
    | (with_reducible first
      | assumption | apply kept_setBnd | apply setLevel_keeps | apply park_keeps | apply kept_setSys
      | apply Sparse.wf_set | apply wf_sys_latch | apply wf_sys_levels | apply wf_sys_held
      | apply wf_sys_linkFell | apply kept_ite)
    | split

theorem execPortPresenceChange_keeps (port : BitVec 7) (level : Bool) (s : State) (hs : Kept queue s) : OutKept
    queue (execPortPresenceChange port level s) := by
  unfold execPortPresenceChange
  show Kept _ _
  repeat' first
    | (with_reducible first
      | assumption | apply kept_setBnd | apply setLevel_keeps | apply kept_ite)

theorem execPortContained_keeps (port : BitVec 7) (s : State) (hs : Kept queue s) : OutKept queue
    (execPortContained port s) := by
  unfold execPortContained
  show Kept _ _
  repeat' first
    | (with_reducible first
      | assumption | apply kept_setBnd | apply setLevel_keeps | apply kept_ite)

theorem execContainedFall_keeps (port : BitVec 7) (s : State) (hs : Kept queue s) : OutKept queue
    (execContainedFall port s) := by
  unfold execContainedFall
  show Kept _ _
  repeat' first
    | (with_reducible first
      | assumption | apply kept_setBnd | apply setLevel_keeps | apply kept_ite)

theorem execCorValid_keeps (port : BitVec 7) (s : State) (hs : Kept queue s) : OutKept queue (execCorValid port s)
    := by
  unfold execCorValid
  show Kept _ _
  repeat' first
    | (with_reducible first
      | assumption | apply raiseSource_keeps | apply kept_ite)

theorem execUncValid_keeps (port : BitVec 7) (s : State) (hs : Kept queue s) : OutKept queue (execUncValid port s)
    := by
  unfold execUncValid
  show Kept _ _
  repeat' first
    | (with_reducible first
      | assumption | apply raiseSource_keeps | apply kept_ite)


/-! ## Machine/Acu.lean -/

theorem State.setMpu_keeps (s : State) (u : Nat) (m : Mpu) (hs : Kept queue s) : Kept queue (State.setMpu s u m) := by
  unfold State.setMpu
  repeat' first
    | (with_reducible first
      | assumption | apply kept_setAcu | apply wf_acu_ram)
    | split

theorem noteViolation_keeps (s : State) (u : Nat) (x : Access) (straddle : Bool) (r : Ruling) (hs : Kept queue s)
    : Kept queue (noteViolation s u x straddle r) := by
  unfold noteViolation
  repeat' first
    | (with_reducible first
      | assumption | apply State.setMpu_keeps | apply raiseSource_keeps | apply kept_ite)

theorem chargeOpened_keeps (s : State) (a : Ruling) (b : Ruling) (hs : Kept queue s) : Kept queue (chargeOpened s
    a b) := by
  unfold chargeOpened
  try dsimp only
  repeat' first
    | (with_reducible first
      | assumption | apply chargeFault_keeps)
    | split

theorem checkAccess_keeps (s : State) (u : Nat) (x : Access) (hs : Kept queue s) : Kept queue (checkAccess s u
    x).1 := by
  unfold checkAccess
  try dsimp only
  repeat' first
    | (with_reducible first
      | assumption | apply chargeOpened_keeps | apply noteViolation_keeps)
    | split

theorem writeRegion_keeps (s : State) (u : Nat) (n : Nat) (reg : Nat) (data : W32) (hs : Kept queue s) : Kept
    queue (writeRegion s u n reg data) := by
  unfold writeRegion
  repeat' first
    | (with_reducible first
      | assumption | apply State.setMpu_keeps | apply kept_ite)

theorem writeMpuCtrl_keeps (s : State) (u : Nat) (data : W32) (hs : Kept queue s) : Kept queue (writeMpuCtrl s u
    data) := by
  unfold writeMpuCtrl
  repeat' first
    | (with_reducible first
      | assumption | apply State.setMpu_keeps | apply kept_ite)

theorem loadAgentRegions_keeps (s : State) (t : Tenant) (hs : Kept queue s) : Kept queue (loadAgentRegions s t) := by
  unfold loadAgentRegions
  repeat' first
    | (with_reducible first
      | assumption | apply State.setMpu_keeps | apply kept_setAcu | apply wf_acu_ram | apply kept_ite)

theorem leaveAgent_keeps (s : State) (t : Tenant) (hs : Kept queue s) : Kept queue (leaveAgent s t) := by
  unfold leaveAgent
  repeat' first
    | (with_reducible first
      | assumption | apply kept_setAcu | apply wf_acu_ram | apply kept_ite)

theorem dispatchAgent_keeps (s : State) (t : Tenant) (hs : Kept queue s) : Kept queue (dispatchAgent s t) := by
  unfold dispatchAgent
  try dsimp only
  repeat' first
    | (intro _)
    | (with_reducible first
      | assumption | apply loadAgentRegions_keeps | apply kept_foldl | apply kept_ite)
    | split

theorem enterKernel_keeps (s : State) (hs : Kept queue s) : Kept queue (enterKernel s) := by
  unfold enterKernel
  try dsimp only
  repeat' first
    | (intro _)
    | (with_reducible first
      | assumption | apply kept_setAcu | apply Sparse.wf_set | apply Sparse.wf_dropKeys | apply Sparse.wf_mapVals |
        apply wf_acu_ram | apply kept_foldl | apply kept_ite)
    | exact rfl
    | split

theorem checkController_keeps (s : State) (x : CoreAccess) (hs : Kept queue s) : Kept queue (checkController s x).1
    := by
  unfold checkController
  try dsimp only
  repeat' first
    | (intro _)
    | (with_reducible first
      | assumption | apply checkAccess_keeps | apply kept_foldl | apply kept_ite)
    | split


/-! ## Machine/Mailbox.lean -/

theorem chargeMailbox_keeps (s : State) (m : BitVec 7) (c : Snap) (status : Byte) (hs : Kept queue s) : Kept queue
    (chargeMailbox s m c status) := by
  unfold chargeMailbox
  repeat' first
    | (with_reducible first
      | assumption | apply chargeFault_keeps)
    | split

theorem replyNotice_keeps (s : State) (m : BitVec 7) (hs : Kept queue s) : Kept queue (replyNotice s m) := by
  unfold replyNotice
  repeat' first
    | (with_reducible first
      | assumption | apply notify_keeps)
    | split

theorem leaveMailbox_keeps (s : State) (m : BitVec 7) (hs : Kept queue s) : Kept queue (leaveMailbox s m) := by
  unfold leaveMailbox
  repeat' first
    | (with_reducible first
      | assumption | apply leaveAgent_keeps)
    | split

theorem deposit_keeps (s : State) (m : BitVec 7) (r : Reply) (hs : Kept queue s) : Kept queue (deposit s m r) := by
  unfold deposit
  try dsimp only
  repeat' first
    | (with_reducible first
      | assumption | apply leaveMailbox_keeps | apply kept_setBox | apply replyNotice_keeps | apply
          chargeMailbox_keeps)
    | (exact takenRings_idle rfl) | split

theorem finish_keeps (s : State) (m : BitVec 7) (r : Reply) (hs : Kept queue s) : Kept queue (finish s m r) := by
  unfold finish
  repeat' first
    | (intro _ hb; exact hb)
    | (with_reducible first
      | assumption | apply kept_modBox)

theorem ringWake_keeps (s : State) (hs : Kept queue s) : Kept queue (ringWake s) := by
  unfold ringWake
  repeat' first
    | (with_reducible first
      | assumption | apply wake_keeps | apply kept_ite)

theorem writeDoorbell_keeps (s : State) (m : BitVec 7) (smbus : Bool) (data : W32) (hs : Kept queue s) : Kept
    queue (writeDoorbell s m smbus data) := by
  have hb := kept_box hs m
  unfold writeDoorbell
  dsimp only
  split
  · refine kept_setBox hs ?_
    split <;> split <;> first | exact hb | exact takenRings_untaken (by simp_all)
  split
  · refine ringWake_keeps _ (kept_setBox hs fun _ => rfl)
  · exact hs

theorem takeCommand_keeps (s : State) (m : BitVec 7) (hs : Kept queue s) (hr : (s.box m).ring = true) (ht : (s.box
    m).taken = false) : Kept queue (takeCommand s m) := by
  unfold takeCommand
  dsimp only
  refine kept_ite (replyNotice_keeps _ _ (kept_setBox hs (takenRings_untaken ht))) (kept_ite (kept_setBox hs fun _
      => hr) (kept_ite (kept_setBox hs fun _ => hr) (kept_ite (kept_setBox hs fun _ => hr) ?_)))
  split
  · exact kept_setBox hs fun _ => hr
  · have h := kept_setBox (b := { s.box m with path := (s.box m).ringPath, taken := true, snap := some (takeSnap
      { s.box m with path := (s.box m).ringPath }), work := .run, checked := true }) (m := m) hs fun _ => hr
    split
    · exact loadAgentRegions_keeps _ _ h
    · exact h

theorem execCommandTake_keeps (mb : BitVec 7) (s : State) (hs : Kept queue s) : OutKept queue (execCommandTake mb
    s) := by
  unfold execCommandTake
  show Kept _ _
  dsimp only
  refine kept_ite_of (fun h => takeCommand_keeps _ _ hs h.2.1 (by simpa using h.2.2.1)) (kept_ite (ringWake_keeps
      _ hs) hs)

theorem depositDone_keeps (s : State) (m : BitVec 7) (hs : Kept queue s) : Kept queue (depositDone s m) := by
  unfold depositDone
  try dsimp only
  repeat' first
    | (intro _)
    | (with_reducible first
      | assumption | apply deposit_keeps | apply kept_foldl | apply kept_ite)
    | split

theorem execReplyDeposit_keeps (mb : BitVec 7) (s : State) (hs : Kept queue s) : OutKept queue (execReplyDeposit mb
    s) := by
  unfold execReplyDeposit
  show Kept _ _
  try dsimp only
  repeat' first
    | (intro _)
    | (with_reducible first
      | assumption | apply depositDone_keeps | apply kept_foldl | apply kept_ite)
    | split

theorem runTaken_keeps (s : State) (m : BitVec 7) (op : Byte) (select : Snap → Bool) (needs : State → Snap → List
    Nat) (body : State → Snap → State) (hs : Kept queue s) (hbody : ∀ y0 y1, Kept queue y0 → Kept queue (body y0
    y1)) : Kept queue (runTaken s m op select needs body) := by
  unfold runTaken
  try dsimp only
  repeat' first
    | (with_reducible first
      | assumption | apply wake_keeps | apply kept_foldl)
    | apply hbody | split


/-! ## Machine/Engine.lean -/

theorem setLogical_keeps (s : State) (e : BitVec 2) (p : BitVec 3) (hs : Kept queue s) : Kept queue (setLogical s
    e p) := by
  unfold setLogical
  repeat' first
    | (with_reducible first
      | assumption | apply kept_setTgt | apply wf_tgt_recs | apply wf_tgt_busy | apply wf_tgt_busyClear
      | apply wf_tgt_heldOff)
    | split

theorem withdraw_keeps (s : State) (e : Emitted) (hs : Kept queue s) : Kept queue (withdraw s e) := by
  unfold withdraw
  repeat' first
    | (with_reducible first
      | assumption | apply kept_setFrame | apply State.count_keeps | apply raiseSource_keeps
      | apply State.clearBusyNext_keeps | apply State.modTenant_keeps)
    | split

theorem withdrawAll_keeps (s : State) (hs : Kept queue s) : Kept queue (withdrawAll s) := by
  unfold withdrawAll
  repeat' first
    | (with_reducible first
      | assumption | apply kept_setTgt | apply wf_tgt_recs | apply wf_tgt_busy | apply wf_tgt_busyClear
      | apply wf_tgt_heldOff | apply withdraw_keeps | apply kept_foldl)

theorem deadline_keeps (s : State) (hs : Kept queue s) : Kept queue (deadline s) := by
  unfold deadline
  try dsimp only
  repeat' first
    | (intro _)
    | (with_reducible first
      | assumption | apply withdrawAll_keeps | apply exceed_keeps | apply kept_foldl | apply kept_ite)
    | split

theorem engineFault_keeps (s : State) (e : BitVec 2) (hs : Kept queue s) : Kept queue (engineFault s e) := by
  unfold engineFault
  try dsimp only
  repeat' first
    | (with_reducible first
      | assumption | apply kept_setTgt | apply wf_tgt_recs | apply wf_tgt_busy | apply wf_tgt_busyClear
      | apply wf_tgt_heldOff | apply raiseSource_keeps | apply setLogical_keeps | apply withdrawAll_keeps)
    | split

theorem spareFault_keeps (s : State) (hs : Kept queue s) : Kept queue (spareFault s) := by
  unfold spareFault
  repeat' first
    | (with_reducible first
      | assumption | apply kept_setTgt | apply wf_tgt_recs | apply wf_tgt_busy | apply wf_tgt_busyClear
      | apply wf_tgt_heldOff | apply kept_ite)

theorem issue_keeps (s : State) (t : Tenant) (x : Slot) (addr : W64) (seq : BitVec 16) (count : BitVec 16) (tag :
    BitVec 8) (src : Src) (hs : Kept queue s) : Kept queue (issue s t x addr seq count tag src) := by
  unfold issue
  repeat' first
    | (with_reducible first
      | assumption | apply kept_setTgt | apply wf_tgt_recs | apply wf_tgt_busy | apply wf_tgt_busyClear
      | apply wf_tgt_heldOff | apply State.count_keeps | apply State.modTenant_keeps)

theorem recordWait_keeps (s : State) (t : Tenant) (x : Slot) (src : Src) (hs : Kept queue s) : Kept queue
    (recordWait s t x src) := by
  unfold recordWait
  repeat' first
    | (with_reducible first
      | assumption | apply kept_setLoupe | apply Sparse.wf_set | apply wf_loupe_ring | apply wf_loupe_sums
      | apply wf_loupe_now | apply wf_loupe_bins)
    | exact rfl | split

theorem lapse_keeps (s : State) (x : Slot) (src : Src) (hs : Kept queue s) : Kept queue (lapse s x src) := by
  unfold lapse
  repeat' first
    | (with_reducible first
      | assumption | apply kept_setVec | apply wf_vec_cfg | apply wf_vec_st | apply wf_vec_sysCfg
      | apply wf_vec_sysSt | apply wf_vec_lost | apply wf_vec_reloaded | apply State.count_keeps
      | apply State.clearBusyNext_keeps | apply removeSrc_keeps | apply kept_ite)
    | split

theorem commitPrivate_keeps (s : State) (t : Tenant) (x : Slot) (src : Src) (n : Nat) (hs : Kept queue s) : Kept
    queue (commitPrivate s t x src n) := by
  unfold commitPrivate
  repeat' first
    | (with_reducible first
      | assumption | apply State.setTarget_keeps | apply issue_keeps | apply lapse_keeps | apply kept_ite)

theorem startHoldoff_keeps (s : State) (src : Src) (c : W64) (hs : Kept queue s) : Kept queue (startHoldoff s src
    c) := by
  unfold startHoldoff
  try dsimp only
  repeat' first
    | (intro _)
    | (with_reducible first
      | assumption | apply readGroupWord_keeps | apply touchClasp_keeps | apply State.setClasp_keeps | apply
        kept_foldl | apply kept_ite)
    | split

theorem commitSource_keeps (s : State) (t : Tenant) (x : Slot) (src : Src) (hs : Kept queue s) : Kept queue
    (commitSource s t x src) := by
  unfold commitSource
  try dsimp only
  repeat' first
    | (intro _)
    | (with_reducible first
      | assumption | apply peekSt_keeps | apply readCfg_keeps | apply recordWait_keeps | apply applyCommit_keeps |
        apply State.modTarget_keeps | apply startHoldoff_keeps | apply issue_keeps | apply lapse_keeps | apply
            kept_foldl | apply kept_ite)
    | split

theorem commitDecision_keeps (s : State) (e : Emitted) (hs : Kept queue s) : Kept queue (commitDecision s e) := by
  unfold commitDecision
  try dsimp only
  repeat' first
    | (with_reducible first
      | assumption | apply touchTarget_keeps | apply lapse_keeps | apply commitPrivate_keeps | apply
          commitSource_keeps)
    | split

theorem dropEmitted_keeps (s : State) (d : Emitted) (hs : Kept queue s) : Kept queue (dropEmitted s d) := by
  unfold dropEmitted
  repeat' first
    | (with_reducible first
      | assumption | apply kept_setTgt | apply wf_tgt_recs | apply wf_tgt_busy | apply wf_tgt_busyClear
      | apply wf_tgt_heldOff)

theorem execDecisionCommit_keeps (engine : BitVec 2) (mismatch : Bool) (s : State) (hs : Kept queue s) : OutKept
    queue (execDecisionCommit engine mismatch s) := by
  unfold execDecisionCommit
  show Kept _ _
  try dsimp only
  repeat' first
    | (intro _)
    | (with_reducible first
      | assumption | apply engineFault_keeps | apply commitDecision_keeps | apply dropEmitted_keeps | apply
        takeBanks_keeps | apply exceed_keeps | apply kept_foldl | apply kept_ite)
    | split

theorem execDecisionWithdraw_keeps (engine : BitVec 2) (s : State) (hs : Kept queue s) : OutKept queue
    (execDecisionWithdraw engine s) := by
  unfold execDecisionWithdraw
  show Kept _ _
  try dsimp only
  repeat' first
    | (intro _)
    | (with_reducible first
      | assumption | apply withdraw_keeps | apply dropEmitted_keeps | apply exceed_keeps | apply kept_foldl | apply
        kept_ite)
    | split

theorem finishResync_keeps (s : State) (t : Tenant) (hs : Kept queue s) : Kept queue (finishResync s t) := by
  unfold finishResync
  repeat' first
    | (with_reducible first
      | assumption | apply State.modTenant_keeps | apply notify_keeps | apply deposit_keeps)
    | split

theorem markRedeliver_keeps (s : State) (src : Src) (hs : Kept queue s) : Kept queue (markRedeliver s src) := by
  unfold markRedeliver
  repeat' first
    | (with_reducible first
      | assumption | apply readSt_keeps | apply writeSt_keeps)
    | split

theorem commitReissue_keeps (s : State) (e : Emitted) (t : Tenant) (hs : Kept queue s) : Kept queue (commitReissue
    s e t) := by
  unfold commitReissue
  repeat' first
    | (with_reducible first
      | assumption | apply touchTarget_keeps | apply finishResync_keeps | apply State.modTenant_keeps
      | apply State.setTarget_keeps | apply markRedeliver_keeps | apply kept_setTgt | apply wf_tgt_recs
      | apply wf_tgt_busy | apply wf_tgt_busyClear | apply wf_tgt_heldOff | apply issue_keeps | apply kept_ite)

theorem execReissueCommit_keeps (engine : BitVec 2) (mismatch : Bool) (s : State) (hs : Kept queue s) : OutKept
    queue (execReissueCommit engine mismatch s) := by
  unfold execReissueCommit
  show Kept _ _
  repeat' first
    | (with_reducible first
      | assumption | apply engineFault_keeps | apply commitReissue_keeps | apply dropEmitted_keeps)
    | split


/-! ## Machine/Pass.lean -/

theorem emitDecision_keeps (s : State) (p : PassRun) (t : Tenant) (x : Slot) (src : Src) (hs : Kept queue s) :
    Kept queue (emitDecision s p t x src).1 := by
  unfold emitDecision
  repeat' first
    | (with_reducible first
      | assumption | apply kept_setTgt | apply wf_tgt_recs | apply wf_tgt_busy | apply wf_tgt_busyClear
      | apply wf_tgt_heldOff | apply State.setBusy_keeps | apply State.count_keeps | apply State.modTenant_keeps)

theorem passLoop_keeps (limit : Nat) (x1 : Nat) (x2 : State) (x3 : PassRun) (hx2 : Kept queue x2) : Kept queue
    (passLoop limit x1 x2 x3).1 := by
  induction x1 generalizing x2 x3 with
  | zero => exact hx2
  | succ fuel ih =>
    unfold passLoop
    split
    · exact hx2
    dsimp only
    split
    · exact hx2
    · rename_i u _
      have h : Kept queue (if (x2.tenant x2.tgt.turn).passDeficit ≠ 0 ∧ (x3.ready.any fun q => q.1 == x2.tgt.turn)
          = true then x2 else (x2.modTenant u fun r => { r with passDeficit := r.weight.toNat }).setTgt
          { x2.tgt with turn := u }) :=
        kept_ite hx2 (kept_tgt rfl rfl rfl rfl (State.modTenant_keeps _ _ _ hx2))
      split
      · exact h
      split
      · exact ih _ _ h
      · exact ih _ _ (emitDecision_keeps _ _ _ _ _ h)

theorem takeResyncSets_keeps (s : State) (hs : Kept queue s) : Kept queue (takeResyncSets s) := by
  unfold takeResyncSets
  repeat' first
    | (intro _)
    | (with_reducible first
      | assumption | apply State.setTenant_keeps | apply kept_foldl)
    | split

theorem emitReissues_keeps (s : State) (t : Tenant) (quota : Nat) (n : Nat) (hs : Kept queue s) : Kept queue
    (emitReissues s t quota n).1 := by
  unfold emitReissues
  repeat' first
    | (with_reducible first
      | assumption | apply State.setTenant_keeps | apply kept_setTgt | apply wf_tgt_recs | apply wf_tgt_busy
      | apply wf_tgt_busyClear | apply wf_tgt_heldOff)
    | split

theorem reissuePass_keeps (s : State) (hs : Kept queue s) : Kept queue (reissuePass s).1 := by
  unfold reissuePass
  split
  · exact hs
  · exact kept_foldl_fst _ _ _ (fun p _ h => emitReissues_keeps _ _ _ _ h) hs

theorem decisionPass_keeps (s : State) (hs : Kept queue s) : Kept queue (decisionPass s) := by
  unfold decisionPass
  try dsimp only
  repeat' first
    | (intro _)
    | (with_reducible first
      | assumption | apply State.modTarget_keeps | apply reissuePass_keeps | apply passLoop_keeps | apply
        finishResync_keeps | apply exceed_keeps | apply kept_setTgt | apply Sparse.wf_set | apply
            Sparse.wf_dropKeys | apply Sparse.wf_mapVals | apply wf_tgt_recs | apply wf_tgt_busy | apply
                wf_tgt_busyClear | apply wf_tgt_heldOff | apply kept_foldl | apply kept_ite)
    | exact rfl
    | split

theorem wakeShortlists_keeps (s : State) (hs : Kept queue s) : Kept queue (wakeShortlists s) := by
  unfold wakeShortlists
  repeat' first
    | (intro _)
    | (with_reducible first
      | assumption | apply wakeQuarter_keeps | apply kept_foldl | apply kept_ite)
    | split

theorem endRefill_keeps (s : State) (x : Slot) (msg : Bool) (hs : Kept queue s) : Kept queue (endRefill s x msg) := by
  unfold endRefill
  repeat' first
    | (with_reducible first
      | assumption | apply State.modTarget_keeps | apply State.setTarget_keeps | apply kept_ite)

theorem coverEnd_keeps (s : State) (hs : Kept queue s) : Kept queue (coverEnd s) := by
  unfold coverEnd
  try dsimp only
  repeat' first
    | (with_reducible first
      | assumption | apply kept_setTgt | apply wf_tgt_recs | apply wf_tgt_busy | apply wf_tgt_busyClear
      | apply wf_tgt_heldOff)
    | split

theorem execRefillPassEnd_keeps (s : State) (hs : Kept queue s) : OutKept queue (execRefillPassEnd s) := by
  unfold execRefillPassEnd
  show Kept _ _
  repeat' first
    | (with_reducible first
      | assumption | apply coverEnd_keeps)

theorem completeRefills_keeps (s : State) (hs : Kept queue s) : Kept queue (completeRefills s) := by
  unfold completeRefills
  try dsimp only
  repeat' first
    | (intro _)
    | (with_reducible first
      | assumption | apply endRefill_keeps | apply kept_setTgt | apply wf_tgt_recs | apply wf_tgt_busy
      | apply wf_tgt_busyClear | apply wf_tgt_heldOff | apply kept_foldl)
    | split

theorem startMsg_keeps (asked : TgtUnit) (s : State) (hs : Kept queue s) : Kept queue (startMsg asked s) := by
  unfold startMsg
  repeat' first
    | (with_reducible first
      | assumption | apply kept_setTgt | apply wf_tgt_recs | apply wf_tgt_busy | apply wf_tgt_busyClear
      | apply wf_tgt_heldOff | apply wakeQuarter_keeps)
    | split

theorem startSysPass_keeps (asked : TgtUnit) (s : State) (hs : Kept queue s) : Kept queue (startSysPass asked s) := by
  unfold startSysPass
  repeat' first
    | (with_reducible first
      | assumption | apply kept_setTgt | apply wf_tgt_recs | apply wf_tgt_busy | apply wf_tgt_busyClear
      | apply wf_tgt_heldOff)
    | split

theorem execMessagePassStart_keeps (s : State) (hs : Kept queue s) : OutKept queue (execMessagePassStart s) := by
  unfold execMessagePassStart
  show Kept _ _
  repeat' first
    | (with_reducible first
      | assumption | apply startMsg_keeps | apply kept_ite)

theorem execSystemPassStart_keeps (s : State) (hs : Kept queue s) : OutKept queue (execSystemPassStart s) := by
  unfold execSystemPassStart
  show Kept _ _
  repeat' first
    | (with_reducible first
      | assumption | apply startSysPass_keeps | apply kept_ite)

theorem takeServed_keeps (asked : TgtUnit) (s : State) (hs : Kept queue s) : Kept queue (takeServed asked s) := by
  unfold takeServed
  try dsimp only
  repeat' first
    | (with_reducible first
      | assumption | apply kept_setTgt | apply wf_tgt_recs | apply wf_tgt_busy | apply wf_tgt_busyClear
      | apply wf_tgt_heldOff)
    | split

theorem tickRefills_keeps (asked : TgtUnit) (s : State) (hs : Kept queue s) : Kept queue (tickRefills asked s) := by
  unfold tickRefills
  repeat' first
    | (with_reducible first
      | assumption | apply coverEnd_keeps | apply takeServed_keeps | apply startSysPass_keeps | apply startMsg_keeps
      | apply completeRefills_keeps | apply requestRefill_keeps | apply kept_foldl)

theorem candidate_keeps (served : List Slot) (s : State) (src : Src) (hs : Kept queue s) : Kept queue (candidate
    served s src) := by
  unfold candidate
  repeat' first
    | (with_reducible first
      | assumption | apply present_keeps | apply kept_ite)

theorem scanMsg_keeps (s : State) (hs : Kept queue s) : Kept queue (scanMsg s) := by
  unfold scanMsg
  try dsimp only
  repeat' first
    | (intro _)
    | (with_reducible first
      | assumption | apply kept_setTgt | apply Sparse.wf_set | apply Sparse.wf_dropKeys | apply Sparse.wf_mapVals |
        apply wf_tgt_recs | apply wf_tgt_busy | apply wf_tgt_busyClear | apply wf_tgt_heldOff | apply
            wakeQuarter_keeps | apply readGroups_keeps | apply readIndex_keeps | apply candidate_keeps | apply
                readCfg_keeps | apply State.count_keeps | apply trueGroups_keeps | apply kept_foldl | apply
                    kept_ite)
    | exact rfl
    | split

theorem scanSys_keeps (s : State) (hs : Kept queue s) : Kept queue (scanSys s) := by
  unfold scanSys
  try dsimp only
  repeat' first
    | (intro _)
    | (with_reducible first
      | assumption | apply readGroups_keeps | apply readIndex_keeps | apply candidate_keeps | apply readCfg_keeps |
        apply trueGroups_keeps | apply kept_setTgt | apply Sparse.wf_set | apply Sparse.wf_dropKeys | apply
            Sparse.wf_mapVals | apply wf_tgt_recs | apply wf_tgt_busy | apply wf_tgt_busyClear | apply
                wf_tgt_heldOff | apply kept_foldl | apply kept_ite)
    | exact rfl
    | split

end Sys2Proof.Machine
end

