-- ==== Sys2Proof/Laws/CoherentCommands.lean ====
section
/-! SUPPORT. Coherence and the queue are kept by the mailbox commands and Bead: one lemma for each operation. -/
namespace Sys2Proof.Machine

variable {queue : List Instr}

/-! ## Machine/Tenants.lean -/

theorem acceptReset_keeps (s : State) (t : Tenant) (m : BitVec 7) (hs : Kept queue s) : Kept queue (acceptReset s
    t m) := by
  unfold acceptReset
  repeat' first
    | (with_reducible first
      | assumption | apply State.setTenant_keeps)
    | split

theorem abandonResync_keeps (s : State) (t : Tenant) (hs : Kept queue s) : Kept queue (abandonResync s t) := by
  unfold abandonResync
  repeat' first
    | (with_reducible first
      | assumption | apply State.setTenant_keeps | apply kept_setTgt | apply wf_tgt_recs | apply wf_tgt_busy
      | apply wf_tgt_busyClear | apply wf_tgt_heldOff | apply finish_keeps)
    | split

theorem dropFmWaiting_keeps (s : State) (t : Tenant) (hs : Kept queue s) : Kept queue (dropFmWaiting s t) := by
  unfold dropFmWaiting
  repeat' first
    | (intro _)
    | (with_reducible first
      | assumption | apply State.modTenant_keeps | apply discard_keeps | apply kept_foldl)

theorem closeBox_keeps (s : State) (t : Tenant) (hs : Kept queue s) : Kept queue (closeBox s t) := by
  unfold closeBox
  dsimp only
  refine kept_ite hs (kept_ite_of (fun ht => kept_setBox hs (takenRings_untaken (by simpa using ht))) (kept_ite hs
    (kept_ite ?_ (kept_setBox hs (kept_box hs _)))))
  exact kept_modBox (leaveAgent_keeps _ _ hs) fun _ _ => takenRings_untaken rfl

theorem closePaths_keeps (s : State) (t : Tenant) (hs : Kept queue s) : Kept queue (closePaths s t) := by
  unfold closePaths
  try dsimp only
  repeat' first
    | (intro _)
    | (with_reducible first
      | assumption | apply abandonResync_keeps | apply coverEnd_keeps | apply dropFmWaiting_keeps | apply
        State.modTenant_keeps | apply kept_setTgt | apply Sparse.wf_set | apply Sparse.wf_dropKeys | apply
            Sparse.wf_mapVals | apply wf_tgt_recs | apply wf_tgt_busy | apply wf_tgt_busyClear | apply
                wf_tgt_heldOff | apply closeBox_keeps | apply kept_foldl | apply kept_ite)
    | exact rfl
    | split

theorem resetGranted_keeps (s : State) (x : Slot) (hs : Kept queue s) : Kept queue (resetGranted s x) := by
  unfold resetGranted
  try dsimp only
  repeat' first
    | (intro _)
    | (with_reducible first
      | assumption | apply State.setBusy_keeps | apply wroteTarget_keeps | apply resetTarget_keeps | apply
        requestRefill_keeps | apply State.modTarget_keeps | apply kept_foldl | apply kept_ite)
    | split

theorem resetClasp_keeps (s : State) (t : Tenant) (hs : Kept queue s) : Kept queue (resetClasp s t) := by
  unfold resetClasp
  exact kept_setTen hs hs.tenCanonical.recs hs.tenCanonical.blocks (Sparse.wf_mapVals _ _ _ hs.tenCanonical.clasp)

theorem startResetWork_keeps (s : State) (t : Tenant) (hs : Kept queue s) : Kept queue (startResetWork s t) := by
  unfold startResetWork
  try dsimp only
  repeat' first
    | (intro _)
    | (with_reducible first
      | assumption | apply resetGranted_keeps | apply resetClasp_keeps | apply zeroRange_keeps | apply
        State.modTenant_keeps | apply kept_foldl | apply kept_ite)
    | split

theorem execTenantResetWork_keeps (t : Tenant) (s : State) (hs : Kept queue s) : OutKept queue
    (execTenantResetWork t s) := by
  unfold execTenantResetWork
  show Kept _ _
  repeat' first
    | (with_reducible first
      | assumption | apply startResetWork_keeps)

theorem clearBins_keeps (s : State) (t : Tenant) (hs : Kept queue s) : Kept queue (clearBins s t) := by
  unfold clearBins
  repeat' first
    | (with_reducible first
      | assumption | apply kept_setLoupe | apply Sparse.wf_dropKeys | apply wf_loupe_ring | apply wf_loupe_sums
      | apply wf_loupe_now | apply wf_loupe_bins)
    | exact rfl

theorem resetMailbox_keeps (s : State) (t : Tenant) (hs : Kept queue s) : Kept queue (resetMailbox s t) := by
  unfold resetMailbox
  have hb := kept_box hs (t.setWidth 7)
  refine kept_setBox hs fun e => ?_
  have e' : (s.box (t.setWidth 7)).taken = true := e
  show ((s.box (t.setWidth 7)).ring && (s.box (t.setWidth 7)).taken) = true
  rw [hb e', e']; rfl

theorem resetReply_keeps (t : Tenant) (q : ResetRun) (s : State) (m : BitVec 7) (hs : Kept queue s) : Kept queue
    (resetReply t q s m) := by
  unfold resetReply
  repeat' first
    | (with_reducible first
      | assumption | apply kept_setBox | apply deposit_keeps)
    | (exact takenRings_idle rfl) | split

theorem clearReset_keeps (s : State) (t : Tenant) (hs : Kept queue s) : Kept queue (clearReset s t) := by
  unfold clearReset
  repeat' first
    | (with_reducible first
      | assumption | apply State.modTenant_keeps | apply setLevel_keeps | apply resetMailbox_keeps
      | apply clearBins_keeps | apply kept_setBox | apply resetReply_keeps | apply kept_foldl)
    | (exact takenRings_idle rfl) | split

theorem execTenantResetEnd_keeps (t : Tenant) (s : State) (hs : Kept queue s) : OutKept queue (execTenantResetEnd
    t s) := by
  unfold execTenantResetEnd
  show Kept _ _
  repeat' first
    | (with_reducible first
      | assumption | apply clearReset_keeps)

theorem boundAgain_keeps (s : State) (t : Tenant) (q : ResetRun) (hs : Kept queue s) : Kept queue (boundAgain s t
    q) := by
  unfold boundAgain
  repeat' first
    | (with_reducible first
      | assumption | apply State.modTenant_keeps | apply raiseSource_keeps | apply notify_keeps | apply kept_ite)

theorem tickReset_keeps (s : State) (t : Tenant) (hs : Kept queue s) : Kept queue (tickReset s t) := by
  unfold tickReset
  try dsimp only
  repeat' first
    | (with_reducible first
      | assumption | apply clearReset_keeps | apply boundAgain_keeps | apply State.modTenant_keeps
      | apply closePaths_keeps | apply startResetWork_keeps)
    | split

theorem endSweep_keeps (s : State) (w : Sweep) (hs : Kept queue s) : Kept queue (endSweep s w) := by
  unfold endSweep
  try dsimp only
  repeat' first
    | (intro _)
    | (with_reducible first
      | assumption | apply zeroRange_keeps | apply kept_setTen | apply Sparse.wf_set | apply Sparse.wf_dropKeys |
        apply Sparse.wf_mapVals | apply wf_ten_recs | apply wf_ten_blocks | apply wf_ten_clasp | apply
            deposit_keeps | apply kept_foldl | apply kept_ite)
    | exact rfl
    | split

theorem execClearSweepEnd_keeps (base : BitVec 20) (s : State) (hs : Kept queue s) : OutKept queue
    (execClearSweepEnd base s) := by
  unfold execClearSweepEnd
  show Kept _ _
  repeat' first
    | (with_reducible first
      | assumption | apply endSweep_keeps)
    | split

theorem tickSweeps_keeps (s : State) (hs : Kept queue s) : Kept queue (tickSweeps s) := by
  unfold tickSweeps
  repeat' first
    | (with_reducible first
      | assumption | apply endSweep_keeps | apply kept_setTen | apply wf_ten_recs | apply wf_ten_blocks
      | apply wf_ten_clasp | apply kept_foldl)

theorem lapseConsent_keeps (s : State) (t : Tenant) (hs : Kept queue s) : Kept queue (lapseConsent s t) := by
  unfold lapseConsent
  repeat' first
    | (with_reducible first
      | assumption | apply State.modTenant_keeps | apply kept_ite)

theorem execConsentLapse_keeps (t : Tenant) (s : State) (hs : Kept queue s) : OutKept queue (execConsentLapse t s)
    := by
  unfold execConsentLapse
  show Kept _ _
  repeat' first
    | (with_reducible first
      | assumption | apply lapseConsent_keeps)

theorem tickTenants_keeps (s : State) (hs : Kept queue s) : Kept queue (tickTenants s) := by
  unfold tickTenants
  repeat' first
    | (with_reducible first
      | assumption | apply lapseConsent_keeps | apply kept_setTen | apply Sparse.wf_mapVals | apply wf_ten_recs
      | apply wf_ten_blocks | apply wf_ten_clasp | apply tickReset_keeps | apply kept_foldl)


/-! ## Machine/Grants.lean -/

theorem refuseCmd_keeps (s : State) (m : BitVec 7) (status : Byte) (off : Nat) (hs : Kept queue s) : Kept queue
    (refuseCmd s m status off) := by
  unfold refuseCmd
  repeat' first
    | (with_reducible first
      | assumption | apply finish_keeps)

theorem withDomains_keeps (s : State) (ds : List Nat) (k : State) (hs : Kept queue s) (hk : Kept queue k) : Kept
    queue (withDomains s ds k) := by
  unfold withDomains
  repeat' first
    | (with_reducible first
      | assumption | apply wake_keeps | apply kept_foldl | apply kept_ite)

theorem takeSlot_keeps (s : State) (n : Nat) (hs : Kept queue s) : Kept queue (takeSlot s n) := by
  unfold takeSlot
  try dsimp only
  repeat' first
    | (intro _)
    | (with_reducible first
      | assumption | apply State.setUse_keeps | apply kept_foldl | apply kept_ite)
    | split

theorem inLastSlot_keeps (s : State) (n : Nat) (k : State → State) (hs : Kept queue s) (hk : ∀ y0, Kept queue y0 →
    Kept queue (k y0)) : Kept queue (inLastSlot s n k) := by
  unfold inLastSlot
  try dsimp only
  repeat' first
    | (intro _)
    | (with_reducible first
      | assumption | apply takeSlot_keeps | apply hk | apply kept_foldl | apply kept_ite)
    | split

theorem grantBlock_keeps (s : State) (t : Tenant) (g : Nat) (j : Nat) (hs : Kept queue s) : Kept queue (grantBlock
    s t g j) := by
  unfold grantBlock
  try dsimp only
  repeat' first
    | (intro _)
    | (with_reducible first
      | assumption | apply kept_setTen | apply Sparse.wf_set | apply Sparse.wf_dropKeys | apply Sparse.wf_mapVals |
        apply wf_ten_recs | apply wf_ten_blocks | apply wf_ten_clasp | apply State.modTarget_keeps | apply
            State.setBusy_keeps | apply wroteTarget_keeps | apply resetTarget_keeps | apply requestSys_keeps |
                apply requestMsg_keeps | apply kept_foldl | apply kept_ite)
    | exact rfl
    | split

theorem targetGrant_keeps (s : State) (m : BitVec 7) (c : Snap) (hs : Kept queue s) : Kept queue (targetGrant s m
    c) := by
  unfold targetGrant
  try dsimp only
  repeat' first
    | (intro _)
    | (with_reducible first
      | assumption | apply finish_keeps | apply refuseCmd_keeps | apply withDomains_keeps | apply inLastSlot_keeps
        | apply grantBlock_keeps | apply kept_foldl | apply kept_ite)
    | split

theorem forceSlot_keeps (p : State × Nat) (t : Tenant) (x : Slot) (hp : Kept queue p.1) : Kept queue (forceSlot p
    t x).1 := by
  unfold forceSlot
  repeat' first
    | (with_reducible first
      | assumption | apply completeTarget_keeps)
    | split

theorem forceSlots_keeps (t : Tenant) (xs : List Slot) (s : State) (hs : Kept queue s) :
    Kept queue (forceSlots t xs s).1 :=
  kept_foldl_fst _ _ _ (fun _ _ h => forceSlot_keeps _ _ _ h) hs

theorem withdrawBlock_keeps (s : State) (t : Tenant) (g : Nat) (j : Nat) (hs : Kept queue s) : Kept queue
    (withdrawBlock s t g j) := by
  unfold withdrawBlock
  try dsimp only
  repeat' first
    | (intro _)
    | (with_reducible first
      | assumption | apply State.setBusy_keeps | apply wroteTarget_keeps | apply resetTarget_keeps | apply
        kept_setTen | apply Sparse.wf_set | apply Sparse.wf_dropKeys | apply Sparse.wf_mapVals | apply wf_ten_recs
            | apply wf_ten_blocks | apply wf_ten_clasp | apply State.modTenant_keeps | apply kept_foldl | apply
              kept_ite)
    | exact rfl
    | split

theorem targetWithdraw_keeps (s : State) (m : BitVec 7) (c : Snap) (hs : Kept queue s) : Kept queue (targetWithdraw
    s m c) := by
  unfold targetWithdraw
  try dsimp only
  repeat' first
    | (intro _)
    | (with_reducible first
      | assumption | apply finish_keeps | apply refuseCmd_keeps | apply withDomains_keeps | apply inLastSlot_keeps
        | apply forceSlots_keeps | apply withdrawBlock_keeps | apply kept_foldl | apply kept_ite)
    | split

theorem execTargetGrant_keeps (mb : BitVec 7) (s : State) (hs : Kept queue s) : OutKept queue (execTargetGrant mb
    s) := by
  unfold execTargetGrant
  show Kept _ _
  repeat' first
    | (intro _)
    | (with_reducible first
      | assumption | apply runTaken_keeps | apply refuseCmd_keeps | apply targetGrant_keeps | apply kept_ite)

theorem execTargetWithdraw_keeps (mb : BitVec 7) (s : State) (hs : Kept queue s) : OutKept queue
    (execTargetWithdraw mb s) := by
  unfold execTargetWithdraw
  show Kept _ _
  repeat' first
    | (intro _)
    | (with_reducible first
      | assumption | apply runTaken_keeps | apply targetWithdraw_keeps)

theorem setTargetFields_keeps (s : State) (t : Tenant) (x : Slot) (i : BitVec 10) (daddr : Option W64) (notice :
    Bool) (hs : Kept queue s) : Kept queue (setTargetFields s t x i daddr notice) := by
  unfold setTargetFields
  repeat' first
    | (with_reducible first
      | assumption | apply State.modTarget_keeps | apply touchTarget_keeps | apply State.modTenant_keeps)
    | split

theorem targetSet_keeps (s : State) (m : BitVec 7) (c : Snap) (hs : Kept queue s) : Kept queue (targetSet s m c) := by
  unfold targetSet
  try dsimp only
  repeat' first
    | (with_reducible first
      | assumption | apply finish_keeps | apply refuseCmd_keeps | apply setTargetFields_keeps)
    | split

theorem execSetDaddr_keeps (mb : BitVec 7) (s : State) (hs : Kept queue s) : OutKept queue (execSetDaddr mb s) := by
  unfold execSetDaddr
  show Kept _ _
  repeat' first
    | (intro _)
    | (with_reducible first
      | assumption | apply runTaken_keeps | apply targetSet_keeps)

theorem execSetNotice_keeps (mb : BitVec 7) (s : State) (hs : Kept queue s) : OutKept queue (execSetNotice mb s) := by
  unfold execSetNotice
  show Kept _ _
  repeat' first
    | (intro _)
    | (with_reducible first
      | assumption | apply runTaken_keeps | apply targetSet_keeps)

theorem rangeGrant_keeps (s : State) (m : BitVec 7) (c : Snap) (hs : Kept queue s) : Kept queue (rangeGrant s m c)
    := by
  unfold rangeGrant
  try dsimp only
  repeat' first
    | (intro _)
    | (with_reducible first
      | assumption | apply finish_keeps | apply refuseCmd_keeps | apply withDomains_keeps | apply inLastSlot_keeps
        | apply State.modTenant_keeps | apply kept_foldl | apply kept_ite)
    | split

theorem forceSource_keeps (t : Tenant) (s : State) (src : Src) (hs : Kept queue s) : Kept queue (forceSource t s
    src) := by
  unfold forceSource
  repeat' first
    | (with_reducible first
      | assumption | apply completeTarget_keeps | apply applyCompletion_keeps)
    | split

theorem withdrawRange_keeps (s : State) (m : BitVec 7) (t : Tenant) (r : Range) (forced : Nat) (hs : Kept queue s)
    : Kept queue (withdrawRange s m t r forced) := by
  unfold withdrawRange
  repeat' first
    | (intro _ hb; exact hb)
    | (with_reducible first
      | assumption | apply zeroRange_keeps | apply State.modTenant_keeps | apply kept_setTen | apply wf_ten_recs
      | apply wf_ten_blocks | apply wf_ten_clasp | apply kept_modBox)

theorem rangeWithdraw_keeps (s : State) (m : BitVec 7) (c : Snap) (hs : Kept queue s) : Kept queue (rangeWithdraw s
    m c) := by
  unfold rangeWithdraw
  try dsimp only
  repeat' first
    | (intro _)
    | (with_reducible first
      | assumption | apply finish_keeps | apply refuseCmd_keeps | apply withDomains_keeps | apply inLastSlot_keeps
        | apply withdrawRange_keeps | apply forceSource_keeps | apply kept_foldl | apply kept_ite)
    | split

theorem execVectorRangeGrant_keeps (mb : BitVec 7) (s : State) (hs : Kept queue s) : OutKept queue
    (execVectorRangeGrant mb s) := by
  unfold execVectorRangeGrant
  show Kept _ _
  repeat' first
    | (intro _)
    | (with_reducible first
      | assumption | apply runTaken_keeps | apply refuseCmd_keeps | apply rangeGrant_keeps | apply kept_ite)

theorem execVectorRangeWithdraw_keeps (mb : BitVec 7) (s : State) (hs : Kept queue s) : OutKept queue
    (execVectorRangeWithdraw mb s) := by
  unfold execVectorRangeWithdraw
  show Kept _ _
  repeat' first
    | (intro _)
    | (with_reducible first
      | assumption | apply runTaken_keeps | apply rangeWithdraw_keeps)


/-! ## Machine/Vectors.lean -/

theorem applyConfig_keeps (s : State) (src : Src) (new : W64) (hs : Kept queue s) : Kept queue (applyConfig s src
    new) := by
  unfold applyConfig
  repeat' first
    | (with_reducible first
      | assumption | apply readSt_keeps | apply readCfg_keeps | apply writeCfg_keeps | apply writeSt_keeps
      | apply moveTarget_keeps | apply reload_keeps)
    | split

theorem readWordsOf_keeps (s : State) (src : Src) (hs : Kept queue s) : Kept queue (readWordsOf s src) := by
  unfold readWordsOf
  try dsimp only
  repeat' first
    | (intro _)
    | (with_reducible first
      | assumption | apply peekSt_keeps | apply readCfg_keeps | apply kept_foldl | apply kept_ite)
    | split

theorem setConfig_keeps (s : State) (m : BitVec 7) (src : Src) (new : W64) (hs : Kept queue s) : Kept queue
    (setConfig s m src new) := by
  unfold setConfig
  try dsimp only
  repeat' first
    | (intro _)
    | (with_reducible first
      | assumption | apply readGroupWord_keeps | apply refuseCmd_keeps | apply applyConfig_keeps | apply
        finish_keeps | apply kept_foldl | apply kept_ite)
    | split

theorem vectorSet_keeps (s : State) (m : BitVec 7) (c : Snap) (hs : Kept queue s) : Kept queue (vectorSet s m c) :=
    by
  unfold vectorSet
  try dsimp only
  repeat' first
    | (intro _)
    | (with_reducible first
      | assumption | apply refuseCmd_keeps | apply withDomains_keeps | apply readWordsOf_keeps | apply
        inLastSlot_keeps | apply setConfig_keeps | apply kept_foldl | apply kept_ite)
    | split

theorem execVectorSet_keeps (mb : BitVec 7) (s : State) (hs : Kept queue s) : OutKept queue (execVectorSet mb s) := by
  unfold execVectorSet
  show Kept _ _
  repeat' first
    | (intro _)
    | (with_reducible first
      | assumption | apply runTaken_keeps | apply vectorSet_keeps)

theorem endLoad_keeps (s : State) (m : BitVec 7) (l : LoadRun) (stop : Nat) (hs : Kept queue s) : Kept queue
    (endLoad s m l stop) := by
  unfold endLoad
  repeat' first
    | (intro _ hb; exact hb)
    | (with_reducible first
      | assumption | apply kept_modBox)

theorem vectorLoad_keeps (s : State) (m : BitVec 7) (c : Snap) (hs : Kept queue s) : Kept queue (vectorLoad s m c)
    := by
  unfold vectorLoad
  dsimp only
  repeat (with_reducible refine kept_ite (refuseCmd_keeps _ _ _ _ hs) ?_)
  exact kept_ite (endLoad_keeps _ _ _ _ hs) (withDomains_keeps _ _ _ hs (kept_modBox hs fun _ h => h))

theorem execVectorLoad_keeps (mb : BitVec 7) (s : State) (hs : Kept queue s) : OutKept queue (execVectorLoad mb s)
    := by
  unfold execVectorLoad
  show Kept _ _
  repeat' first
    | (intro _)
    | (with_reducible first
      | assumption | apply runTaken_keeps | apply vectorLoad_keeps)

theorem loaderWrite_keeps (s : State) (issuer : Option Tenant) (l : LoadRun) (hs : Kept queue s) : Kept queue
    (loaderWrite s issuer l).1 := by
  unfold loaderWrite
  try dsimp only
  repeat' first
    | (intro _)
    | (with_reducible first
      | assumption | apply checkAccess_keeps | apply applyConfig_keeps | apply chargeFault_keeps | apply kept_foldl
        | apply kept_ite)
    | split

theorem loadEntries_keeps (issuer : Option Tenant) (x1 : Nat) (x2 : Option Nat) (x3 : State) (x4 : LoadRun) (hx3 :
    Kept queue x3) : Kept queue (loadEntries issuer x1 x2 x3 x4).1 := by
  induction x1 generalizing x2 x3 x4 with
  | zero => exact hx3
  | succ fuel ih =>
    unfold loadEntries
    split
    · split
      · exact ih _ _ _ (loaderWrite_keeps _ _ _ hx3)
      · exact hx3
    · exact hx3
    · dsimp only
      have h := readWordsOf_keeps x3 (entrySrc x4 x4.next) hx3
      split
      · split
        · split
          · exact ih _ _ _ (takeSlot_keeps _ _ h)
          · exact h
        · exact ih _ _ _ h
      · exact kept_foldl _ _ _ (fun _ _ h => wake_keeps _ _ _ h) hx3

theorem failRead_keeps (s : State) (m : BitVec 7) (l : LoadRun) (hs : Kept queue s) : Kept queue (failRead s m l)
    := by
  unfold failRead
  repeat' first
    | (with_reducible first
      | assumption | apply chargeFault_keeps | apply endLoad_keeps)
    | split

theorem runLoad_keeps (s : State) (m : BitVec 7) (l : LoadRun) (hs : Kept queue s) : Kept queue (runLoad s m l) :=
    by
  unfold runLoad
  have h := loadEntries_keeps (mbTenant m) (3 * l.held.length + 2) none s l hs
  generalize loadEntries (mbTenant m) (3 * l.held.length + 2) none s l = r at h ⊢
  exact kept_ite (kept_modBox h fun _ h => h) (kept_ite (endLoad_keeps _ _ _ _ h) (kept_ite (failRead_keeps _ _ _ h)
    (kept_modBox h fun _ h => h)))

theorem advanceLoad_keeps (s : State) (m : BitVec 7) (hs : Kept queue s) : Kept queue (advanceLoad s m) := by
  unfold advanceLoad
  try dsimp only
  repeat' first
    | (intro _)
    | (with_reducible first
      | assumption | apply runLoad_keeps | apply kept_foldl | apply kept_ite)
    | split

theorem advanceLoads_keeps (s : State) (hs : Kept queue s) : Kept queue (advanceLoads s) := by
  unfold advanceLoads
  try dsimp only
  repeat' first
    | (intro _)
    | (with_reducible first
      | assumption | apply advanceLoad_keeps | apply kept_foldl | apply kept_ite)
    | split

theorem readDone_keeps (s : State) (m : BitVec 7) (ok : Bool) (data : List W64) (hs : Kept queue s) : Kept queue
    (readDone s m ok data) := by
  unfold readDone
  try dsimp only
  repeat' first
    | (intro _)
    | (with_reducible first
      | assumption | apply runLoad_keeps | apply kept_foldl | apply kept_ite)
    | split

theorem execLoaderReadCompletion_keeps (mb : BitVec 7) (ok : Bool) (data : List W64) (s : State) (hs : Kept queue
    s) : OutKept queue (execLoaderReadCompletion mb ok data s) := by
  unfold execLoaderReadCompletion
  show Kept _ _
  try dsimp only
  repeat' first
    | (intro _)
    | (with_reducible first
      | assumption | apply readDone_keeps | apply kept_foldl | apply kept_ite)
    | split

theorem execLoaderReadTimeout_keeps (mb : BitVec 7) (s : State) (hs : Kept queue s) : OutKept queue
    (execLoaderReadTimeout mb s) := by
  unfold execLoaderReadTimeout
  show Kept _ _
  try dsimp only
  repeat' first
    | (intro _)
    | (with_reducible first
      | assumption | apply readDone_keeps | apply kept_foldl | apply kept_ite)
    | split

theorem readEntry_keeps (p : State × List Byte) (src : Src) (hp : Kept queue p.1) : Kept queue (readEntry p src).1
    := by
  unfold readEntry
  repeat' first
    | (with_reducible first
      | assumption | apply readLine_keeps | apply readCfg_keeps)
    | split

theorem vectorRead_keeps (s : State) (m : BitVec 7) (c : Snap) (hs : Kept queue s) : Kept queue (vectorRead s m c)
    := by
  unfold vectorRead
  dsimp only
  repeat (with_reducible refine kept_ite (refuseCmd_keeps _ _ _ _ hs) ?_)
  refine withDomains_keeps _ _ _ hs (finish_keeps _ _ _ (kept_foldl_fst _ _ _ (fun p _ h => readEntry_keeps _ _ h)
      hs))

theorem execVectorRead_keeps (mb : BitVec 7) (s : State) (hs : Kept queue s) : OutKept queue (execVectorRead mb s)
    := by
  unfold execVectorRead
  show Kept _ _
  repeat' first
    | (intro _)
    | (with_reducible first
      | assumption | apply runTaken_keeps | apply vectorRead_keeps)

theorem forwardSet_keeps (s : State) (m : BitVec 7) (c : Snap) (hs : Kept queue s) : Kept queue (forwardSet s m c)
    := by
  unfold forwardSet
  try dsimp only
  repeat' first
    | (intro _)
    | (with_reducible first
      | assumption | apply refuseCmd_keeps | apply withDomains_keeps | apply inLastSlot_keeps | apply
        readWordsOf_keeps | apply writeSt_keeps | apply writeCfg_keeps | apply finish_keeps | apply kept_foldl |
            apply kept_ite)
    | split

theorem execForwardSet_keeps (mb : BitVec 7) (s : State) (hs : Kept queue s) : OutKept queue (execForwardSet mb s)
    := by
  unfold execForwardSet
  show Kept _ _
  repeat' first
    | (intro _)
    | (with_reducible first
      | assumption | apply runTaken_keeps | apply forwardSet_keeps)

theorem claspSet_keeps (s : State) (m : BitVec 7) (c : Snap) (hs : Kept queue s) : Kept queue (claspSet s m c) := by
  unfold claspSet
  try dsimp only
  repeat' first
    | (intro _)
    | (with_reducible first
      | assumption | apply readLine_keeps | apply refuseCmd_keeps | apply touchClasp_keeps | apply finish_keeps |
        apply State.setClasp_keeps | apply kept_foldl | apply kept_ite)
    | split

theorem execSetInterval_keeps (mb : BitVec 7) (s : State) (hs : Kept queue s) : OutKept queue (execSetInterval mb
    s) := by
  unfold execSetInterval
  show Kept _ _
  repeat' first
    | (intro _)
    | (with_reducible first
      | assumption | apply runTaken_keeps | apply claspSet_keeps)

theorem execSetAssign_keeps (mb : BitVec 7) (s : State) (hs : Kept queue s) : OutKept queue (execSetAssign mb s) := by
  unfold execSetAssign
  show Kept _ _
  repeat' first
    | (intro _)
    | (with_reducible first
      | assumption | apply runTaken_keeps | apply claspSet_keeps)

theorem setWatched_keeps (s : State) (src : Src) (b : Bool) (hs : Kept queue s) (hb : b = true →
    s.pwr.watch.length < 256) : Kept queue (setWatched s src b) := by
  have hl : (s.pwr.watch.filter (· != src)).length ≤ s.pwr.watch.length := List.length_filter_le _ _
  have hw := writeCfg_keeps s src (putBit (s.cfgOf src) 59 b) hs
  unfold setWatched
  refine kept_setFifo hw hw.pwrCanonical.domains hw.fifo ?_
  cases b with
  | true =>
    have := hb rfl
    show (s.pwr.watch.filter (· != src) ++ [src]).length ≤ 256
    rw [List.length_append, List.length_singleton]
    omega
  | false => exact Nat.le_trans hl hs.watch

theorem watchSet_keeps (s : State) (m : BitVec 7) (c : Snap) (hs : Kept queue s) : Kept queue (watchSet s m c) := by
  unfold watchSet
  dsimp only
  repeat (with_reducible refine kept_ite (refuseCmd_keeps _ _ _ _ hs) ?_)
  refine withDomains_keeps _ _ _ hs ?_
  have hq := readCfg_keeps s (snapSrc c 0x08) hs
  generalize readCfg s (snapSrc c 0x08) = q at hq ⊢
  refine kept_ite (refuseCmd_keeps _ _ _ _ hq) (kept_ite (refuseCmd_keeps _ _ _ _ hq) ?_)
  apply kept_dite
  · exact fun _ => refuseCmd_keeps _ _ _ _ hq
  intro h
  refine finish_keeps _ _ _ ?_
  apply kept_dite
  · exact fun _ => hq
  intro hl
  refine setWatched_keeps _ _ _ hq fun hb => ?_
  have h1 : snapField c 0x0C 1 = 1 := by simpa using hb
  have h2 : ¬ q.pwr.watch.contains (snapSrc c 0x08) = true := fun e => hl (e.trans hb.symm)
  exact Nat.lt_of_not_le fun hle => h ⟨h1, h2, hle⟩

theorem execWatchAdd_keeps (mb : BitVec 7) (s : State) (hs : Kept queue s) : OutKept queue (execWatchAdd mb s) := by
  unfold execWatchAdd
  show Kept _ _
  repeat' first
    | (intro _)
    | (with_reducible first
      | assumption | apply runTaken_keeps | apply watchSet_keeps)

theorem execWatchRemove_keeps (mb : BitVec 7) (s : State) (hs : Kept queue s) : OutKept queue (execWatchRemove mb
    s) := by
  unfold execWatchRemove
  show Kept _ _
  repeat' first
    | (intro _)
    | (with_reducible first
      | assumption | apply runTaken_keeps | apply watchSet_keeps)


/-! ## Machine/Services.lean -/

theorem execGetInfo_keeps (mb : BitVec 7) (s : State) (hs : Kept queue s) : OutKept queue (execGetInfo mb s) := by
  unfold execGetInfo
  show Kept _ _
  repeat' first
    | (intro _)
    | (with_reducible first
      | assumption | apply runTaken_keeps | apply finish_keeps)

theorem overtake_keeps (s : State) (t : Tenant) (hs : Kept queue s) : Kept queue (overtake s t).1 := by
  unfold overtake
  have hb := kept_box hs (t.setWidth 7)
  dsimp only
  split
  · exact hs
  split
  · exact kept_setBox hs (takenRings_untaken (by simp_all))
  · exact kept_setBox hs hb

theorem stopTaken_keeps (s : State) (t : Tenant) (hs : Kept queue s) : Kept queue (stopTaken s t) := by
  unfold stopTaken
  repeat' first
    | (with_reducible first
      | assumption | apply leaveAgent_keeps | apply kept_setBox | apply kept_ite)
    | (exact takenRings_idle rfl)

theorem tenantReset.join_keeps (m : BitVec 7) (s : State) (t : Tenant) (hs : Kept queue s) : Kept queue
    (tenantReset.join m s t) := by
  unfold tenantReset.join
  dsimp only
  exact kept_foldl _ _ _ (fun _ _ h => wake_keeps _ _ _ h) (kept_modBox (acceptReset_keeps _ _ _ hs) fun _ h => h)

theorem tenantReset_keeps (s : State) (m : BitVec 7) (c : Snap) (hs : Kept queue s) : Kept queue (tenantReset s m
    c) := by
  unfold tenantReset
  have accept : ∀ (s : State) (t : Tenant), Kept queue s → Kept queue (match (s.tenant t).reset with
      | some q => if q.cleared then finish s m (resetDone q) else tenantReset.join m s t
      | none => tenantReset.join m s t) := by
    intro s t h
    split
    · exact kept_ite (finish_keeps _ _ _ h) (tenantReset.join_keeps _ _ _ h)
    · exact tenantReset.join_keeps _ _ _ h
  split
  · exact finish_keeps _ _ _ hs
  · rename_i t _
    refine kept_ite (refuseCmd_keeps _ _ _ _ hs) (kept_ite (accept _ _ hs) ?_)
    have h := overtake_keeps s t hs
    generalize overtake s t = r at h ⊢
    exact kept_ite (accept _ _ (stopTaken_keeps _ _ h)) h

theorem execTenantReset_keeps (mb : BitVec 7) (s : State) (hs : Kept queue s) : OutKept queue (execTenantReset mb
    s) := by
  unfold execTenantReset
  show Kept _ _
  repeat' first
    | (intro _)
    | (with_reducible first
      | assumption | apply runTaken_keeps | apply tenantReset_keeps)

theorem resyncStart_keeps (s : State) (m : BitVec 7) (c : Snap) (hs : Kept queue s) : Kept queue (resyncStart s m
    c) := by
  unfold resyncStart
  repeat' first
    | (intro _ hb; exact hb)
    | (with_reducible first
      | assumption | apply finish_keeps | apply refuseCmd_keeps | apply kept_modBox | apply State.modTenant_keeps)
    | split

theorem execResync_keeps (mb : BitVec 7) (s : State) (hs : Kept queue s) : OutKept queue (execResync mb s) := by
  unfold execResync
  show Kept _ _
  repeat' first
    | (intro _)
    | (with_reducible first
      | assumption | apply runTaken_keeps | apply resyncStart_keeps)

theorem clearFaults_keeps (s : State) (t : Tenant) (bits : BitVec 8) (first : Bool) (hs : Kept queue s) : Kept
    queue (clearFaults s t bits first) := by
  unfold clearFaults
  repeat' first
    | (with_reducible first
      | assumption | apply State.modTenant_keeps | apply setLevel_keeps)

theorem faultCommand_keeps (s : State) (m : BitVec 7) (c : Snap) (clear : Bool) (hs : Kept queue s) : Kept queue
    (faultCommand s m c clear) := by
  unfold faultCommand
  repeat' first
    | (with_reducible first
      | assumption | apply finish_keeps | apply refuseCmd_keeps | apply clearFaults_keeps)
    | split

theorem execFaultRead_keeps (mb : BitVec 7) (s : State) (hs : Kept queue s) : OutKept queue (execFaultRead mb s) := by
  unfold execFaultRead
  show Kept _ _
  repeat' first
    | (intro _)
    | (with_reducible first
      | assumption | apply runTaken_keeps | apply faultCommand_keeps)

theorem execFaultClear_keeps (mb : BitVec 7) (s : State) (hs : Kept queue s) : OutKept queue (execFaultClear mb s)
    := by
  unfold execFaultClear
  show Kept _ _
  repeat' first
    | (intro _)
    | (with_reducible first
      | assumption | apply runTaken_keeps | apply faultCommand_keeps)

theorem statsRead_keeps (s : State) (m : BitVec 7) (c : Snap) (hs : Kept queue s) : Kept queue (statsRead s m c) := by
  unfold statsRead
  repeat' first
    | (with_reducible first
      | assumption | apply refuseCmd_keeps | apply finish_keeps | apply kept_ite)
    | split

theorem execStatsRead_keeps (mb : BitVec 7) (s : State) (hs : Kept queue s) : OutKept queue (execStatsRead mb s) := by
  unfold execStatsRead
  show Kept _ _
  repeat' first
    | (intro _)
    | (with_reducible first
      | assumption | apply runTaken_keeps | apply statsRead_keeps)

theorem execTimeRead_keeps (mb : BitVec 7) (s : State) (hs : Kept queue s) : OutKept queue (execTimeRead mb s) := by
  unfold execTimeRead
  show Kept _ _
  repeat' first
    | (intro _)
    | (with_reducible first
      | assumption | apply runTaken_keeps | apply finish_keeps)

theorem mpuConfig_keeps (s : State) (m : BitVec 7) (c : Snap) (hs : Kept queue s) : Kept queue (mpuConfig s m c) :=
    by
  unfold mpuConfig
  try dsimp only
  repeat' first
    | (intro _)
    | (with_reducible first
      | assumption | apply refuseCmd_keeps | apply withDomains_keeps | apply finish_keeps | apply
        advanceLoads_keeps | apply State.setMpu_keeps | apply kept_foldl | apply kept_ite)
    | split

theorem execMpuConfigRead_keeps (mb : BitVec 7) (s : State) (hs : Kept queue s) : OutKept queue (execMpuConfigRead
    mb s) := by
  unfold execMpuConfigRead
  show Kept _ _
  repeat' first
    | (intro _)
    | (with_reducible first
      | assumption | apply runTaken_keeps | apply mpuConfig_keeps)

theorem execRepairStatus_keeps (mb : BitVec 7) (s : State) (hs : Kept queue s) : OutKept queue (execRepairStatus
    mb s) := by
  unfold execRepairStatus
  show Kept _ _
  repeat' first
    | (intro _)
    | (with_reducible first
      | assumption | apply runTaken_keeps | apply finish_keeps)

theorem hallmarkRead_keeps (s : State) (m : BitVec 7) (c : Snap) (hs : Kept queue s) : Kept queue (hallmarkRead s
    m c) := by
  unfold hallmarkRead
  repeat' first
    | (with_reducible first
      | assumption | apply refuseCmd_keeps | apply finish_keeps | apply kept_ite)

theorem execHallmarkRead_keeps (mb : BitVec 7) (s : State) (hs : Kept queue s) : OutKept queue (execHallmarkRead
    mb s) := by
  unfold execHallmarkRead
  show Kept _ _
  repeat' first
    | (intro _)
    | (with_reducible first
      | assumption | apply runTaken_keeps | apply hallmarkRead_keeps)

theorem debugConsent_keeps (s : State) (m : BitVec 7) (c : Snap) (hs : Kept queue s) : Kept queue (debugConsent s
    m c) := by
  unfold debugConsent
  repeat' first
    | (with_reducible first
      | assumption | apply refuseCmd_keeps | apply finish_keeps | apply State.modTenant_keeps | apply kept_ite)
    | split

theorem execDebugConsent_keeps (mb : BitVec 7) (s : State) (hs : Kept queue s) : OutKept queue (execDebugConsent
    mb s) := by
  unfold execDebugConsent
  show Kept _ _
  repeat' first
    | (intro _)
    | (with_reducible first
      | assumption | apply runTaken_keeps | apply debugConsent_keeps)


/-! ## Machine/Bead.lean -/

theorem setWired_keeps (s : State) (i : Nat) (b : Bool) (hs : Kept queue s) : Kept queue (setWired s i b) := by
  unfold setWired
  repeat' first
    | (with_reducible first
      | assumption | apply kept_setSys | apply Sparse.wf_set | apply wf_sys_latch | apply wf_sys_levels
      | apply wf_sys_held | apply wf_sys_linkFell)

theorem sampleInput_keeps (wired : BitVec 96) (s : State) (i : Nat) (hs : Kept queue s) : Kept queue (sampleInput
    wired s i) := by
  unfold sampleInput
  repeat' first
    | (with_reducible first
      | assumption | apply setWired_keeps | apply kept_setBead | apply State.count_keeps | apply applyEdge_keeps
      | apply kept_ite)

theorem adoptConfig_keeps (s : State) (hs : Kept queue s) : Kept queue (adoptConfig s) := by
  unfold adoptConfig
  repeat' first
    | (intro _)
    | (with_reducible first
      | assumption | apply setWired_keeps | apply kept_setBead | apply kept_foldl | apply kept_ite)

theorem runRound_keeps (s : State) (wired : BitVec 96) (hs : Kept queue s) : Kept queue (runRound s wired) := by
  unfold runRound
  try dsimp only
  repeat' first
    | (intro _)
    | (with_reducible first
      | assumption | apply sampleInput_keeps | apply kept_setBead | apply kept_foldl | apply kept_ite)
    | split

theorem beadRound_keeps (s : State) (wired : BitVec 96) (hs : Kept queue s) : Kept queue (beadRound s wired) := by
  unfold beadRound
  try dsimp only
  repeat' first
    | (intro _)
    | (with_reducible first
      | assumption | apply kept_setBead | apply runRound_keeps | apply adoptConfig_keeps | apply kept_foldl | apply
        kept_ite)
    | split

theorem holdPads_keeps (s : State) (hs : Kept queue s) : Kept queue (holdPads s) := by
  unfold holdPads
  repeat' first
    | (with_reducible first
      | assumption | apply kept_setBead)

theorem beadReturns_keeps (s : State) (hs : Kept queue s) : Kept queue (beadReturns s) := by
  unfold beadReturns
  repeat' first
    | (with_reducible first
      | assumption | apply kept_setBead)

theorem execBeadWakeEdge_keeps (j : BitVec 2) (s : State) (hs : Kept queue s) : OutKept queue (execBeadWakeEdge j
    s) := by
  unfold execBeadWakeEdge
  show Kept _ _
  repeat' first
    | (with_reducible first
      | assumption | apply kept_setBead | apply raiseSource_keeps | apply setWired_keeps | apply kept_ite)

theorem execWakeInputFall_keeps (j : BitVec 2) (s : State) (hs : Kept queue s) : OutKept queue (execWakeInputFall
    j s) := by
  unfold execWakeInputFall
  show Kept _ _
  repeat' first
    | (with_reducible first
      | assumption | apply kept_setBead | apply setWired_keeps | apply kept_ite)

theorem padRelease_keeps (s : State) (m : BitVec 7) (c : Snap) (hs : Kept queue s) : Kept queue (padRelease s m c)
    := by
  unfold padRelease
  repeat' first
    | (with_reducible first
      | assumption | apply refuseCmd_keeps | apply finish_keeps | apply kept_setBead | apply kept_ite)

theorem execPadRelease_keeps (mb : BitVec 7) (s : State) (hs : Kept queue s) : OutKept queue (execPadRelease mb s)
    := by
  unfold execPadRelease
  show Kept _ _
  repeat' first
    | (intro _)
    | (with_reducible first
      | assumption | apply runTaken_keeps | apply padRelease_keeps)

theorem beadConfig_keeps (s : State) (m : BitVec 7) (c : Snap) (hs : Kept queue s) : Kept queue (beadConfig s m c)
    := by
  unfold beadConfig
  repeat' first
    | (with_reducible first
      | assumption | apply refuseCmd_keeps | apply finish_keeps | apply kept_setBead | apply kept_ite)

theorem execSetInputs_keeps (mb : BitVec 7) (s : State) (hs : Kept queue s) : OutKept queue (execSetInputs mb s) := by
  unfold execSetInputs
  show Kept _ _
  repeat' first
    | (intro _)
    | (with_reducible first
      | assumption | apply runTaken_keeps | apply beadConfig_keeps)

theorem execSetOutputs_keeps (mb : BitVec 7) (s : State) (hs : Kept queue s) : OutKept queue (execSetOutputs mb s)
    := by
  unfold execSetOutputs
  show Kept _ _
  repeat' first
    | (intro _)
    | (with_reducible first
      | assumption | apply runTaken_keeps | apply beadConfig_keeps)

end Sys2Proof.Machine
end

