-- ==== Sys2Proof/Laws/CoherentChain.lean ====
section
/-! SUPPORT. Coherence and the queue are kept by Chain, the power domains and reliability: one lemma for each operation. -/
namespace Sys2Proof.Machine

variable {queue : List Instr}

/-! ## Machine/ChainPhy.lean -/

theorem dropControl_keeps (s : State) (p : PortId) (held : List TransitFlit) (hs : Kept queue s) : Kept queue
    (dropControl s p held) := by
  unfold dropControl
  repeat' first
    | (intro _)
    | (with_reducible first
      | assumption | apply freeCredits_keeps | apply kept_foldl)
    | split

theorem rerouteOne_keeps (p : PortId) (acc : State × List TransitFlit) (t : TransitFlit) (hacc : Kept queue acc.1)
    : Kept queue (rerouteOne p acc t).1 := by
  unfold rerouteOne
  try dsimp only
  repeat' first
    | (with_reducible first
      | assumption | apply State.setLinkPort_keeps | apply strand_keeps | apply freeCredits_keeps)
    | split

theorem declareDown_keeps (s : State) (p : PortId) (hs : Kept queue s) : Kept queue (declareDown s p) := by
  unfold declareDown
  dsimp only
  refine setLevel_keeps _ _ _ (kept_chain rfl (State.setLinkPort_keeps _ _ _ (kept_foldl_fst _ _ _ (fun p _ h =>
      rerouteOne_keeps _ _ _ h) ?_)))
  exact dropControl_keeps _ _ _ (setDist_keeps _ _ _ (State.setLinkPort_keeps _ _ _ (State.setLinkPort_keeps _ _ _
      hs)))

theorem declareIfUp_keeps (s : State) (p : PortId) (hs : Kept queue s) : Kept queue (declareIfUp s p) := by
  unfold declareIfUp
  repeat' first
    | (with_reducible first
      | assumption | apply declareDown_keeps | apply kept_ite)

theorem refreshRetimer_keeps (s : State) (hs : Kept queue s) : Kept queue (refreshRetimer s) := by
  unfold refreshRetimer
  repeat' first
    | (with_reducible first
      | assumption | apply kept_setChain | apply wf_chain_pairs)

theorem enterDetect_keeps (s : State) (p : PortId) (hs : Kept queue s) : Kept queue (enterDetect s p) := by
  unfold enterDetect
  repeat' first
    | (with_reducible first
      | assumption | apply declareIfUp_keeps | apply refreshRetimer_keeps | apply State.setPhy_keeps)

theorem enterDisabled_keeps (s : State) (p : PortId) (hs : Kept queue s) : Kept queue (enterDisabled s p) := by
  unfold enterDisabled
  repeat' first
    | (with_reducible first
      | assumption | apply declareIfUp_keeps | apply refreshRetimer_keeps | apply State.setPhy_keeps)

theorem trainFail_keeps (s : State) (p : PortId) (hs : Kept queue s) : Kept queue (trainFail s p) := by
  unfold trainFail
  repeat' first
    | (with_reducible first
      | assumption | apply enterDetect_keeps | apply State.setPhy_keeps)

theorem enterLockLost_keeps (s : State) (p : PortId) (hs : Kept queue s) : Kept queue (enterLockLost s p) := by
  unfold enterLockLost
  repeat' first
    | (with_reducible first
      | assumption | apply State.setPhy_keeps)

theorem enterDown_keeps (s : State) (p : PortId) (hs : Kept queue s) : Kept queue (enterDown s p) := by
  unfold enterDown
  repeat' first
    | (with_reducible first
      | assumption | apply declareDown_keeps | apply State.setPhy_keeps)

theorem enterUp_keeps (s : State) (p : PortId) (hs : Kept queue s) : Kept queue (enterUp s p) := by
  unfold enterUp
  repeat' first
    | (with_reducible first
      | assumption | apply setLevel_keeps | apply State.setPhy_keeps)

theorem atState_keeps (s : State) (p : PortId) (st : PhyState) (k : State) (hs : Kept queue s) (hk : Kept queue k)
    : Kept queue (atState s p st k) := by
  unfold atState
  repeat' first
    | (with_reducible first
      | assumption | apply kept_ite)

theorem execSignalDetect_keeps (port : PortId) (lanes : BitVec 3) (s : State) (hs : Kept queue s) : OutKept queue
    (execSignalDetect port lanes s) := by
  unfold execSignalDetect
  show Kept _ _
  repeat' first
    | (with_reducible first
      | assumption | apply atState_keeps | apply State.setPhy_keeps | apply kept_ite)

theorem execDetectTimeout_keeps (port : PortId) (s : State) (hs : Kept queue s) : OutKept queue (execDetectTimeout
    port s) := by
  unfold execDetectTimeout
  show Kept _ _
  repeat' first
    | (with_reducible first
      | assumption | apply atState_keeps | apply State.setPhy_keeps)

theorem execCdrLock_keeps (port : PortId) (lanes : BitVec 3) (s : State) (hs : Kept queue s) : OutKept queue
    (execCdrLock port lanes s) := by
  unfold execCdrLock
  show Kept _ _
  repeat' first
    | (with_reducible first
      | assumption | apply atState_keeps | apply State.setPhy_keeps | apply kept_ite)

theorem execCdrLockTimeout_keeps (port : PortId) (s : State) (hs : Kept queue s) : OutKept queue
    (execCdrLockTimeout port s) := by
  unfold execCdrLockTimeout
  show Kept _ _
  repeat' first
    | (with_reducible first
      | assumption | apply atState_keeps | apply enterDetect_keeps)

theorem execPam4Check_keeps (port : PortId) (errors : List (List Nat)) (s : State) (hs : Kept queue s) : OutKept
    queue (execPam4Check port errors s) := by
  unfold execPam4Check
  show Kept _ _
  try dsimp only
  repeat' first
    | (intro _)
    | (with_reducible first
      | assumption | apply atState_keeps | apply kept_setRas | apply Sparse.wf_set | apply Sparse.wf_dropKeys |
        apply Sparse.wf_mapVals | apply wf_ras_cursors | apply wf_ras_records | apply State.setPhy_keeps | apply
            kept_foldl | apply kept_ite)
    | exact rfl
    | split

theorem exchangeSets_keeps (s : State) (p : PortId) (b : BitVec 128) (ack : Bool) (hs : Kept queue s) : Kept queue
    (exchangeSets s p b ack) := by
  unfold exchangeSets
  try dsimp only
  repeat' first
    | (intro _)
    | (with_reducible first
      | assumption | apply State.setPhy_keeps | apply kept_foldl | apply kept_ite)
    | split

theorem trainingSet_keeps (s : State) (p : PortId) (b : BitVec 128) (hs : Kept queue s) : Kept queue (trainingSet s
    p b) := by
  unfold trainingSet
  try dsimp only
  repeat' first
    | (intro _)
    | (with_reducible first
      | assumption | apply State.setPhy_keeps | apply trainFail_keeps | apply exchangeSets_keeps | apply kept_foldl
        | apply kept_ite)
    | split

theorem execTrainingSetReceive_keeps (port : PortId) (set : BitVec 128) (s : State) (hs : Kept queue s) : OutKept
    queue (execTrainingSetReceive port set s) := by
  unfold execTrainingSetReceive
  show Kept _ _
  repeat' first
    | (with_reducible first
      | assumption | apply atState_keeps | apply trainingSet_keeps | apply State.setPhy_keeps | apply kept_ite)

theorem loseLane_keeps (s : State) (p : PortId) (lane : Nat) (hs : Kept queue s) : Kept queue (loseLane s p lane)
    := by
  unfold loseLane
  repeat' first
    | (with_reducible first
      | assumption | apply State.setPhy_keeps | apply enterLockLost_keeps | apply kept_ite)
    | split

theorem execLaneLockLoss_keeps (port : PortId) (lane : BitVec 2) (s : State) (hs : Kept queue s) : OutKept queue
    (execLaneLockLoss port lane s) := by
  unfold execLaneLockLoss
  show Kept _ _
  repeat' first
    | (with_reducible first
      | assumption | apply loseLane_keeps | apply kept_ite)

theorem execSparingTimeout_keeps (port : PortId) (s : State) (hs : Kept queue s) : OutKept queue
    (execSparingTimeout port s) := by
  unfold execSparingTimeout
  show Kept _ _
  repeat' first
    | (with_reducible first
      | assumption | apply atState_keeps | apply enterLockLost_keeps)

theorem takeAck_keeps (s : State) (p : PortId) (k : Nat) (hs : Kept queue s) : Kept queue (takeAck s p k) := by
  unfold takeAck
  repeat' first
    | (with_reducible first
      | assumption | apply State.setPhy_keeps | apply raiseSource_keeps | apply enterUp_keeps | apply kept_ite)

theorem markerSpare_keeps (s : State) (p : PortId) (code : Nat) (hs : Kept queue s) : Kept queue (markerSpare s p
    code) := by
  unfold markerSpare
  repeat' first
    | (with_reducible first
      | assumption | apply State.setPhy_keeps | apply takeAck_keeps | apply kept_ite)

theorem validMarker_keeps (s : State) (p : PortId) (lane : Nat) (b : BitVec 128) (hs : Kept queue s) : Kept queue
    (validMarker s p lane b) := by
  unfold validMarker
  try dsimp only
  repeat' first
    | (with_reducible first
      | assumption | apply State.setPhy_keeps | apply State.setLinkPort_keeps | apply enterUp_keeps
      | apply markerSpare_keeps)
    | split

theorem missedMarker_keeps (s : State) (p : PortId) (lane : Nat) (hs : Kept queue s) : Kept queue (missedMarker s
    p lane) := by
  unfold missedMarker
  repeat' first
    | (with_reducible first
      | assumption | apply State.setPhy_keeps | apply loseLane_keeps | apply kept_ite)

theorem execMarkerBlock_keeps (port : PortId) (lane : BitVec 2) (block : BitVec 128) (s : State) (hs : Kept queue
    s) : OutKept queue (execMarkerBlock port lane block s) := by
  unfold execMarkerBlock
  show Kept _ _
  try dsimp only
  repeat' first
    | (intro _)
    | (with_reducible first
      | assumption | apply State.setPhy_keeps | apply validMarker_keeps | apply missedMarker_keeps | apply
        kept_foldl | apply kept_ite)
    | split

theorem execDeskewTimeout_keeps (port : PortId) (s : State) (hs : Kept queue s) : OutKept queue (execDeskewTimeout
    port s) := by
  unfold execDeskewTimeout
  show Kept _ _
  repeat' first
    | (with_reducible first
      | assumption | apply atState_keeps | apply trainFail_keeps)

theorem tickLockLost_keeps (s : State) (p : PortId) (hs : Kept queue s) : Kept queue (tickLockLost s p) := by
  unfold tickLockLost
  repeat' first
    | (with_reducible first
      | assumption | apply State.setPortCfg_keeps | apply State.setPhy_keeps | apply enterDown_keeps | apply kept_ite)

theorem execLinkDown_keeps (port : PortId) (s : State) (hs : Kept queue s) : OutKept queue (execLinkDown port s) := by
  unfold execLinkDown
  show Kept _ _
  repeat' first
    | (with_reducible first
      | assumption | apply atState_keeps | apply enterDown_keeps | apply kept_ite)

theorem execDownRetry_keeps (port : PortId) (s : State) (hs : Kept queue s) : OutKept queue (execDownRetry port s)
    := by
  unfold execDownRetry
  show Kept _ _
  repeat' first
    | (with_reducible first
      | assumption | apply atState_keeps | apply enterDetect_keeps)

theorem chainActions_keeps (s : State) (p : PortId) (c : Snap) (hs : Kept queue s) : Kept queue (chainActions s p
    c) := by
  unfold chainActions
  repeat' first
    | (with_reducible first
      | assumption | apply State.setPortCfg_keeps | apply enterDisabled_keeps | apply enterDetect_keeps
      | apply kept_ite)

theorem chainConfig_keeps (s : State) (m : BitVec 7) (c : Snap) (hs : Kept queue s) : Kept queue (chainConfig s m
    c) := by
  unfold chainConfig
  repeat' first
    | (with_reducible first
      | assumption | apply refuseCmd_keeps | apply withDomains_keeps | apply chainActions_keeps | apply finish_keeps)
    | split

theorem runChain_keeps (mb : BitVec 7) (sel : Byte → Bool) (s : State) (hs : Kept queue s) : Kept queue (runChain
    mb sel s) := by
  unfold runChain
  repeat' first
    | (intro _)
    | (with_reducible first
      | assumption | apply runTaken_keeps | apply chainConfig_keeps)

theorem execSetLdt_keeps (mb : BitVec 7) (s : State) (hs : Kept queue s) : OutKept queue (execSetLdt mb s) := by
  unfold execSetLdt
  show Kept _ _
  repeat' first
    | (with_reducible first
      | assumption | apply runChain_keeps)

theorem execSetCtle_keeps (mb : BitVec 7) (s : State) (hs : Kept queue s) : OutKept queue (execSetCtle mb s) := by
  unfold execSetCtle
  show Kept _ _
  repeat' first
    | (with_reducible first
      | assumption | apply runChain_keeps)

theorem execChainRetrain_keeps (mb : BitVec 7) (s : State) (hs : Kept queue s) : OutKept queue (execChainRetrain
    mb s) := by
  unfold execChainRetrain
  show Kept _ _
  repeat' first
    | (with_reducible first
      | assumption | apply runChain_keeps)

theorem execChainDisable_keeps (mb : BitVec 7) (s : State) (hs : Kept queue s) : OutKept queue (execChainDisable
    mb s) := by
  unfold execChainDisable
  show Kept _ _
  repeat' first
    | (with_reducible first
      | assumption | apply runChain_keeps)

theorem execChainEnable_keeps (mb : BitVec 7) (s : State) (hs : Kept queue s) : OutKept queue (execChainEnable mb
    s) := by
  unfold execChainEnable
  show Kept _ _
  repeat' first
    | (with_reducible first
      | assumption | apply runChain_keeps)


/-! ## Machine/ChainLink.lean -/

theorem badFlit_keeps (s : State) (p : PortId) (hs : Kept queue s) : Kept queue (badFlit s p) := by
  unfold badFlit
  repeat' first
    | (with_reducible first
      | assumption | apply State.setLinkPort_keeps)

theorem hearWord_keeps (s : State) (p : PortId) (f : Flit) (hs : Kept queue s) : Kept queue (hearWord s p f) := by
  unfold hearWord
  try dsimp only
  repeat' first
    | (intro _)
    | (with_reducible first
      | assumption | apply State.setPhy_keeps | apply kept_foldl | apply kept_ite)
    | split

theorem onFlit_keeps (s : State) (p : PortId) (f : Flit) (type : BitVec 3) (k : State → State) (hs : Kept queue s)
    (hk : ∀ y0, Kept queue y0 → Kept queue (k y0)) : Kept queue (onFlit s p f type k) := by
  unfold onFlit
  try dsimp only
  repeat' first
    | (intro _)
    | (with_reducible first
      | assumption | apply hearWord_keeps | apply badFlit_keeps | apply hk | apply kept_foldl | apply kept_ite)
    | split

theorem execInit_keeps (port : PortId) (flit : Flit) (turn : W32) (s : State) (hs : Kept queue s) : OutKept queue
    (execInit port flit turn s) := by
  unfold execInit
  show Kept _ _
  try dsimp only
  repeat' first
    | (intro _)
    | (with_reducible first
      | assumption | apply onFlit_keeps | apply State.setLinkPort_keeps | apply kept_foldl | apply kept_ite)
    | split

theorem execInitEcho_keeps (port : PortId) (flit : Flit) (arrival : W32) (s : State) (hs : Kept queue s) : OutKept
    queue (execInitEcho port flit arrival s) := by
  unfold execInitEcho
  show Kept _ _
  try dsimp only
  repeat' first
    | (intro _)
    | (with_reducible first
      | assumption | apply onFlit_keeps | apply State.setLinkPort_keeps | apply kept_foldl | apply kept_ite)
    | split

theorem execInitTimeout_keeps (port : PortId) (s : State) (hs : Kept queue s) : OutKept queue (execInitTimeout
    port s) := by
  unfold execInitTimeout
  show Kept _ _
  repeat' first
    | (with_reducible first
      | assumption | apply atState_keeps | apply enterDetect_keeps | apply State.setLinkPort_keeps)

theorem completeInit_keeps (s : State) (p : PortId) (hs : Kept queue s) : Kept queue (completeInit s p) := by
  unfold completeInit
  repeat' first
    | (with_reducible first
      | assumption | apply State.setLinkPort_keeps | apply raiseSource_keeps | apply enterUp_keeps)

theorem peerDone_keeps (s : State) (p : PortId) (hs : Kept queue s) : Kept queue (peerDone s p) := by
  unfold peerDone
  repeat' first
    | (with_reducible first
      | assumption | apply completeInit_keeps | apply kept_ite)

theorem execIdleFlitReceive_keeps (port : PortId) (flit : Flit) (s : State) (hs : Kept queue s) : OutKept queue
    (execIdleFlitReceive port flit s) := by
  unfold execIdleFlitReceive
  show Kept _ _
  try dsimp only
  repeat' first
    | (intro _)
    | (with_reducible first
      | assumption | apply onFlit_keeps | apply peerDone_keeps | apply kept_foldl | apply kept_ite)
    | split

theorem startReplay_keeps (s : State) (p : PortId) (hs : Kept queue s) : Kept queue (startReplay s p) := by
  unfold startReplay
  repeat' first
    | (with_reducible first
      | assumption | apply State.setLinkPort_keeps | apply raiseSource_keeps | apply kept_setChain
      | apply wf_chain_pairs | apply kept_ite)

theorem takeLink_keeps (s : State) (p : PortId) (f : Flit) (hs : Kept queue s) : Kept queue (takeLink s p f) := by
  unfold takeLink
  repeat' first
    | (with_reducible first
      | assumption | apply State.setLinkPort_keeps | apply startReplay_keeps | apply kept_ite)

theorem execLinkFlitReceive_keeps (port : PortId) (flit : Flit) (s : State) (hs : Kept queue s) : OutKept queue
    (execLinkFlitReceive port flit s) := by
  unfold execLinkFlitReceive
  show Kept _ _
  try dsimp only
  repeat' first
    | (intro _)
    | (with_reducible first
      | assumption | apply onFlit_keeps | apply peerDone_keeps | apply takeLink_keeps | apply kept_foldl | apply
        kept_ite)
    | split

theorem execReplayTimeout_keeps (port : PortId) (s : State) (hs : Kept queue s) : OutKept queue (execReplayTimeout
    port s) := by
  unfold execReplayTimeout
  show Kept _ _
  repeat' first
    | (with_reducible first
      | assumption | apply startReplay_keeps | apply kept_ite)

theorem sendData_keeps (s : State) (p : PortId) (d : DataFlit) (hs : Kept queue s) : Kept queue (sendData s p d) := by
  unfold sendData
  repeat' first
    | (with_reducible first
      | assumption | apply State.setLinkPort_keeps)

theorem chooseFlit_keeps (s : State) (p : PortId) (now : W32) (hs : Kept queue s) : Kept queue (chooseFlit s p now)
    := by
  unfold chooseFlit
  try dsimp only
  repeat' first
    | (intro _)
    | (with_reducible first
      | assumption | apply State.setLinkPort_keeps | apply sendData_keeps | apply freeCredits_keeps | apply
        kept_foldl | apply kept_ite)
    | split

theorem transmitUp_keeps (s : State) (p : PortId) (now : W32) (hs : Kept queue s) : Kept queue (transmitUp s p now)
    := by
  unfold transmitUp
  try dsimp only
  repeat' first
    | (intro _)
    | (with_reducible first
      | assumption | apply chooseFlit_keeps | apply State.setLinkPort_keeps | apply kept_foldl | apply kept_ite)
    | split

theorem transmitInit_keeps (s : State) (p : PortId) (now : W32) (hs : Kept queue s) : Kept queue (transmitInit s p
    now) := by
  unfold transmitInit
  try dsimp only
  repeat' first
    | (with_reducible first
      | assumption | apply State.setLinkPort_keeps)
    | split

theorem driveLanes_keeps (s : State) (p : PortId) (hs : Kept queue s) : Kept queue (driveLanes s p) := by
  unfold driveLanes
  try dsimp only
  repeat' first
    | (intro _)
    | (with_reducible first
      | assumption | apply State.setPhy_keeps | apply kept_setRas | apply Sparse.wf_set | apply Sparse.wf_dropKeys
        | apply Sparse.wf_mapVals | apply wf_ras_cursors | apply wf_ras_records | apply kept_foldl | apply kept_ite)
    | exact rfl
    | split

theorem transmitDeskew_keeps (s : State) (p : PortId) (hs : Kept queue s) : Kept queue (transmitDeskew s p) := by
  unfold transmitDeskew
  try dsimp only
  repeat' first
    | (intro _)
    | (with_reducible first
      | assumption | apply State.setLinkPort_keeps | apply kept_foldl | apply kept_ite)
    | split

theorem execFlitTransmit_keeps (port : PortId) (now : W32) (s : State) (hs : Kept queue s) : OutKept queue
    (execFlitTransmit port now s) := by
  unfold execFlitTransmit
  show Kept _ _
  try dsimp only
  repeat' first
    | (intro _)
    | (with_reducible first
      | assumption | apply driveLanes_keeps | apply transmitDeskew_keeps | apply transmitInit_keeps | apply
        transmitUp_keeps | apply kept_foldl | apply kept_ite)
    | split

theorem homeRecord_keeps (s : State) (origin : Chip) (r : BitVec 44) (hs : Kept queue s) : Kept queue (homeRecord
    s origin r) := by
  unfold homeRecord
  repeat' first
    | (with_reducible first
      | assumption | apply discard_keeps | apply enqueue_keeps | apply returnAllowance_keeps | apply kept_ite)

theorem acceptRecord_keeps (s : State) (origin : Chip) (r : BitVec 44) (hs : Kept queue s) : Kept queue
    (acceptRecord s origin r) := by
  unfold acceptRecord
  repeat' first
    | (with_reducible first
      | assumption | apply homeRecord_keeps | apply raiseSource_keeps | apply kept_ite)

theorem sendAck_keeps (s : State) (c : Chip) (hs : Kept queue s) : Kept queue (sendAck s c) := by
  unfold sendAck
  try dsimp only
  repeat' first
    | (intro _)
    | (with_reducible first
      | assumption | apply originateCtrl_keeps | apply State.setPair_keeps | apply kept_foldl | apply kept_ite)
    | split

theorem endToEnd_keeps (origin : Chip) (s : State) (q : BitVec 16) (r : BitVec 44) (hs : Kept queue s) : Kept
    queue (endToEnd origin s q r) := by
  unfold endToEnd
  repeat' first
    | (with_reducible first
      | assumption | apply State.count_keeps | apply acceptRecord_keeps | apply State.setPair_keeps
      | apply sendAck_keeps | apply kept_setChain | apply wf_chain_pairs | apply kept_ite)

theorem takeAckRecord_keeps (s : State) (c : Chip) (acked : BitVec 16) (hs : Kept queue s) : Kept queue
    (takeAckRecord s c acked) := by
  unfold takeAckRecord
  repeat' first
    | (with_reducible first
      | assumption | apply releaseLines_keeps | apply State.setPair_keeps | apply kept_ite)

theorem takeAllow_keeps (s : State) (c : Chip) (t : Tenant) (n : BitVec 16) (hs : Kept queue s) : Kept queue
    (takeAllow s c t n) := by
  unfold takeAllow
  repeat' first
    | (with_reducible first
      | assumption | apply State.setPair_keeps | apply kept_ite)

theorem takeCtrl_keeps (s : State) (c : Chip) (r : BitVec 44) (hs : Kept queue s) : Kept queue (takeCtrl s c r) := by
  unfold takeCtrl
  repeat' first
    | (with_reducible first
      | assumption | apply takeAckRecord_keeps | apply takeAllow_keeps | apply kept_ite)

theorem applyFlit_keeps (s : State) (d : DataFlit) (hs : Kept queue s) : Kept queue (applyFlit s d) := by
  unfold applyFlit
  repeat' first
    | (intro _)
    | (with_reducible first
      | assumption | apply startSession_keeps | apply endToEnd_keeps | apply takeCtrl_keeps | apply kept_foldl
      | apply kept_ite)

theorem takeMap_keeps (s : State) (p : PortId) (d : DataFlit) (hs : Kept queue s) : Kept queue (takeMap s p d) := by
  unfold takeMap
  repeat' first
    | (with_reducible first
      | assumption | apply setDist_keeps)
    | split

theorem forwardFlit_keeps (s : State) (p : PortId) (d : DataFlit) (hs : Kept queue s) : Kept queue (forwardFlit s
    p d) := by
  unfold forwardFlit
  repeat' first
    | (with_reducible first
      | assumption | apply freeCredits_keeps | apply strand_keeps | apply State.setLinkPort_keeps | apply kept_ite)

theorem acceptData_keeps (s : State) (p : PortId) (f : Flit) (d : DataFlit) (hs : Kept queue s) : Kept queue
    (acceptData s p f d) := by
  unfold acceptData
  repeat' first
    | (with_reducible first
      | assumption | apply State.setLinkPort_keeps | apply freeCredits_keeps | apply takeMap_keeps
      | apply applyFlit_keeps | apply forwardFlit_keeps | apply kept_ite)

theorem dataFlit_keeps (s : State) (p : PortId) (f : Flit) (hs : Kept queue s) : Kept queue (dataFlit s p f) := by
  unfold dataFlit
  repeat' first
    | (with_reducible first
      | assumption | apply acceptData_keeps | apply State.setLinkPort_keeps | apply kept_ite)

theorem execDataFlitReceive_keeps (port : PortId) (flit : Flit) (s : State) (hs : Kept queue s) : OutKept queue
    (execDataFlitReceive port flit s) := by
  unfold execDataFlitReceive
  show Kept _ _
  try dsimp only
  repeat' first
    | (intro _)
    | (with_reducible first
      | assumption | apply onFlit_keeps | apply dataFlit_keeps | apply kept_foldl | apply kept_ite)
    | split

theorem execE2eResend_keeps (c : Chip) (s : State) (hs : Kept queue s) : OutKept queue (execE2eResend c s) := by
  unfold execE2eResend
  show Kept _ _
  repeat' first
    | (intro _)
    | (with_reducible first
      | assumption | apply originate_keeps | apply kept_setChain | apply wf_chain_pairs | apply kept_foldl
      | apply kept_ite)

theorem creditOverdue_keeps (s : State) (p : PortId) (k : BitVec 2) (n : Nat) (hs : Kept queue s) : Kept queue
    (creditOverdue s p k n) := by
  unfold creditOverdue
  try dsimp only
  repeat' first
    | (intro _)
    | (with_reducible first
      | assumption | apply raiseSource_keeps | apply State.setLinkPort_keeps | apply kept_foldl | apply kept_ite)
    | split

theorem allowOverdue_keeps (s : State) (c : Chip) (t : Tenant) (n : Nat) (hs : Kept queue s) : Kept queue
    (allowOverdue s c t n) := by
  unfold allowOverdue
  try dsimp only
  repeat' first
    | (intro _)
    | (with_reducible first
      | assumption | apply State.setPair_keeps | apply raiseSource_keeps | apply kept_setChain | apply
        Sparse.wf_set | apply Sparse.wf_dropKeys | apply Sparse.wf_mapVals | apply wf_chain_pairs | apply
            kept_foldl | apply kept_ite)
    | exact rfl
    | split

theorem execCreditOverdue_keeps (port : PortId) (cls : FlitClass) (s : State) (hs : Kept queue s) : OutKept queue
    (execCreditOverdue port cls s) := by
  unfold execCreditOverdue
  show Kept _ _
  try dsimp only
  repeat' first
    | (intro _)
    | (with_reducible first
      | assumption | apply creditOverdue_keeps | apply kept_foldl | apply kept_ite)
    | split

theorem execAllowOverdue_keeps (c : Chip) (t : Tenant) (s : State) (hs : Kept queue s) : OutKept queue
    (execAllowOverdue c t s) := by
  unfold execAllowOverdue
  show Kept _ _
  try dsimp only
  repeat' first
    | (intro _)
    | (with_reducible first
      | assumption | apply allowOverdue_keeps | apply kept_foldl | apply kept_ite)
    | split

theorem tickCredit_keeps (s : State) (p : PortId) (k : Nat) (hs : Kept queue s) : Kept queue (tickCredit s p k) :=
    by
  unfold tickCredit
  try dsimp only
  repeat' first
    | (intro _)
    | (with_reducible first
      | assumption | apply State.setLinkPort_keeps | apply creditOverdue_keeps | apply kept_foldl | apply kept_ite)
    | split

theorem tickAllow_keeps (s : State) (c : Chip) (t : Nat) (hs : Kept queue s) : Kept queue (tickAllow s c t) := by
  unfold tickAllow
  try dsimp only
  repeat' first
    | (intro _)
    | (with_reducible first
      | assumption | apply State.setPair_keeps | apply allowOverdue_keeps | apply kept_foldl | apply kept_ite)
    | split

theorem tickWaits_keeps (s : State) (hs : Kept queue s) : Kept queue (tickWaits s) := by
  unfold tickWaits
  try dsimp only
  repeat' first
    | (intro _)
    | (with_reducible first
      | assumption | apply tickCredit_keeps | apply tickAllow_keeps | apply kept_foldl | apply kept_ite)
    | split

theorem tickPair_keeps (s : State) (c : Chip) (hs : Kept queue s) : Kept queue (tickPair s c) := by
  unfold tickPair
  try dsimp only
  repeat' first
    | (intro _)
    | (with_reducible first
      | assumption | apply sendAck_keeps | apply sendAllow_keeps | apply sendDueAllows_keeps | apply kept_foldl |
        apply kept_ite)
    | split

theorem tickRing_keeps (s : State) (hs : Kept queue s) : Kept queue (tickRing s) := by
  unfold tickRing
  try dsimp only
  repeat' first
    | (intro _)
    | (with_reducible first
      | assumption | apply kept_setChain | apply Sparse.wf_set | apply Sparse.wf_dropKeys | apply Sparse.wf_mapVals
        | apply wf_chain_pairs | apply sendMap_keeps | apply tickWaits_keeps | apply tickPair_keeps | apply
          kept_foldl | apply kept_ite)
    | exact rfl
    | split


/-! ## Machine/Marker.lean -/

theorem alignLevel_keeps (s : State) (hs : Kept queue s) : Kept queue (alignLevel s) := by
  unfold alignLevel
  repeat' first
    | (with_reducible first
      | assumption | apply setLevel_keeps)

theorem forwardMarker_keeps (s : State) (p : PortId) (f : Flit) (arrival : W32) (hs : Kept queue s) : Kept queue
    (forwardMarker s p f arrival) := by
  unfold forwardMarker
  repeat' first
    | (with_reducible first
      | assumption | apply State.setLinkPort_keeps | apply kept_ite)

theorem execTickMarkerReceive_keeps (port : PortId) (flit : Flit) (arrival latency : W32) (s : State) (hs : Kept queue s) :
    OutKept queue (execTickMarkerReceive port flit arrival latency s) := by
  unfold execTickMarkerReceive
  show Kept _ _
  try dsimp only
  repeat' first
    | (intro _)
    | (with_reducible first
      | assumption | apply onFlit_keeps | apply forwardMarker_keeps | apply kept_setFrame | apply alignLevel_keeps
        | apply kept_foldl | apply kept_ite)
    | split

theorem becomeMaster_keeps (s : State) (hs : Kept queue s) : Kept queue (becomeMaster s) := by
  unfold becomeMaster
  repeat' first
    | (with_reducible first
      | assumption | apply kept_setFrame)

theorem aloneMaster_keeps (s : State) (hs : Kept queue s) : Kept queue (aloneMaster s) := by
  unfold aloneMaster
  repeat' first
    | (with_reducible first
      | assumption | apply kept_setFrame | apply becomeMaster_keeps)

theorem markerTimeout_keeps (s : State) (hs : Kept queue s) : Kept queue (markerTimeout s) := by
  unfold markerTimeout
  repeat' first
    | (with_reducible first
      | assumption | apply kept_setFrame | apply becomeMaster_keeps | apply kept_ite)

theorem execMarkerTimeout_keeps (s : State) (hs : Kept queue s) : OutKept queue (execMarkerTimeout s) := by
  unfold execMarkerTimeout
  show Kept _ _
  repeat' first
    | (with_reducible first
      | assumption | apply alignLevel_keeps | apply markerTimeout_keeps | apply kept_ite)

theorem handover_keeps (s : State) (hs : Kept queue s) : Kept queue (handover s) := by
  unfold handover
  repeat' first
    | (with_reducible first
      | assumption | apply becomeMaster_keeps | apply kept_ite)

theorem execMastershipHandover_keeps (s : State) (hs : Kept queue s) : OutKept queue (execMastershipHandover s) := by
  unfold execMastershipHandover
  show Kept _ _
  repeat' first
    | (with_reducible first
      | assumption | apply handover_keeps | apply kept_ite)

theorem tickAlign_keeps (s : State) (hs : Kept queue s) : Kept queue (tickAlign s) := by
  unfold tickAlign
  repeat' first
    | (with_reducible first
      | assumption | apply aloneMaster_keeps | apply kept_setFrame | apply handover_keeps | apply markerTimeout_keeps
      | apply kept_ite)

theorem sendTicks_keeps (s : State) (now : W32) (hs : Kept queue s) : Kept queue (sendTicks s now) := by
  unfold sendTicks
  try dsimp only
  repeat' first
    | (intro _)
    | (with_reducible first
      | assumption | apply kept_setFrame | apply State.setLinkPort_keeps | apply kept_foldl | apply kept_ite)
    | split


/-! ## Machine/Power.lean -/

theorem leaveOn_keeps (s : State) (d : Nat) (hs : Kept queue s) : Kept queue (leaveOn s d) := by
  unfold leaveOn
  repeat' first
    | (with_reducible first
      | assumption | apply enterDisabled_keeps | apply holdPads_keeps | apply kept_ite)

theorem beginEntry_keeps (s : State) (d : Nat) (goal : PState) (auto : Bool) (hs : Kept queue s) : Kept queue
    (beginEntry s d goal auto) := by
  unfold beginEntry
  repeat' first
    | (with_reducible first
      | assumption | apply leaveOn_keeps | apply State.setDom_keeps | apply kept_ite)

theorem replayCause_keeps (s : State) (d : Nat) (cause : WakeCause) (hs : Kept queue s) : Kept queue (replayCause
    s d cause) := by
  unfold replayCause
  extract_lets u t r
  have hr : Kept queue r := raiseSource_keeps t 0x27D (kept_pwr rfl rfl rfl hs)
  clear_value r
  exact kept_ite (wakeAll_keeps _ _ hr) (wake_keeps _ _ _ hr)

theorem writeCanaries_keeps (s : State) (d : Nat) (hs : Kept queue s) : Kept queue (writeCanaries s d) := by
  unfold writeCanaries
  try dsimp only
  repeat' first
    | (intro _)
    | (with_reducible first
      | assumption | apply State.dropLines_keeps | apply kept_setRas | apply Sparse.wf_set | apply
        Sparse.wf_dropKeys | apply Sparse.wf_mapVals | apply wf_ras_cursors | apply wf_ras_records | apply
            kept_foldl | apply kept_ite)
    | exact rfl
    | split

theorem entryComplete_keeps (s : State) (d : Nat) (hs : Kept queue s) : Kept queue (entryComplete s d) := by
  unfold entryComplete
  try dsimp only
  repeat' first
    | (intro _)
    | (with_reducible first
      | assumption | apply writeCanaries_keeps | apply State.setDom_keeps | apply raiseSource_keeps | apply
        replayCause_keeps | apply kept_foldl | apply kept_ite)
    | split

theorem execEntryComplete_keeps (d : BitVec 4) (s : State) (hs : Kept queue s) : OutKept queue (execEntryComplete
    d s) := by
  unfold execEntryComplete
  show Kept _ _
  repeat' first
    | (with_reducible first
      | assumption | apply entryComplete_keeps | apply kept_ite)

theorem orderOn_keeps (s : State) (d : Nat) (hs : Kept queue s) : Kept queue (orderOn s d) := by
  unfold orderOn
  repeat' first
    | (intro _)
    | (with_reducible first
      | assumption | apply wakeOne_keeps | apply State.setDom_keeps | apply kept_foldl | apply kept_ite)

theorem domainPower_keeps (s : State) (m : BitVec 7) (c : Snap) (hs : Kept queue s) : Kept queue (domainPower s m
    c) := by
  unfold domainPower
  repeat' first
    | (with_reducible first
      | assumption | apply refuseCmd_keeps | apply State.setDom_keeps | apply finish_keeps | apply orderOn_keeps
      | apply beginEntry_keeps | apply deposit_keeps | apply kept_ite)

theorem execDomainPower_keeps (mb : BitVec 7) (s : State) (hs : Kept queue s) : OutKept queue (execDomainPower mb
    s) := by
  unfold execDomainPower
  show Kept _ _
  repeat' first
    | (intro _)
    | (with_reducible first
      | assumption | apply runTaken_keeps | apply domainPower_keeps)

theorem execFirmwareTblRet_keeps (q : BitVec 2) (s : State) (hs : Kept queue s) : OutKept queue
    (execFirmwareTblRet q s) := by
  unfold execFirmwareTblRet
  show Kept _ _
  repeat' first
    | (with_reducible first
      | assumption | apply beginEntry_keeps | apply kept_ite)

theorem toPhase_keeps (s : State) (d : Nat) (p : Phase) (hs : Kept queue s) : Kept queue (toPhase s d p) := by
  unfold toPhase
  try dsimp only
  repeat' first
    | (with_reducible first
      | assumption | apply State.setDom_keeps)
    | split

theorem execRegRdy_keeps (d : BitVec 4) (s : State) (hs : Kept queue s) : OutKept queue (execRegRdy d s) := by
  unfold execRegRdy
  show Kept _ _
  repeat' first
    | (with_reducible first
      | assumption | apply toPhase_keeps | apply kept_ite)

theorem execClkRdy_keeps (d : BitVec 4) (s : State) (hs : Kept queue s) : OutKept queue (execClkRdy d s) := by
  unfold execClkRdy
  show Kept _ _
  repeat' first
    | (with_reducible first
      | assumption | apply toPhase_keeps | apply kept_ite)

theorem execPhaseDeadline_keeps (d : BitVec 4) (s : State) (hs : Kept queue s) : OutKept queue (execPhaseDeadline
    d s) := by
  unfold execPhaseDeadline
  show Kept _ _
  try dsimp only
  repeat' first
    | (with_reducible first
      | assumption | apply State.setDom_keeps | apply raiseSource_keeps)
    | split

theorem execExitTimeout_keeps (d : BitVec 4) (s : State) (hs : Kept queue s) : OutKept queue (execExitTimeout d s)
    := by
  unfold execExitTimeout
  show Kept _ _
  try dsimp only
  repeat' first
    | (intro _)
    | (with_reducible first
      | assumption | apply kept_setPwr | apply Sparse.wf_set | apply Sparse.wf_dropKeys | apply Sparse.wf_mapVals |
        apply wf_pwr_domains | apply State.setDom_keeps | apply raiseSource_keeps | apply kept_foldl | apply
            kept_ite)
    | exact rfl
    | split

theorem fatalRequest_keeps (s : State) (hs : Kept queue s) : Kept queue (fatalRequest s) := by
  unfold fatalRequest
  repeat' first
    | (with_reducible first
      | assumption | apply kept_setRas | apply wf_ras_cursors | apply wf_ras_records)

theorem execRegRdyFall_keeps (d : BitVec 4) (s : State) (hs : Kept queue s) : OutKept queue (execRegRdyFall d s) := by
  unfold execRegRdyFall
  show Kept _ _
  repeat' first
    | (with_reducible first
      | assumption | apply fatalRequest_keeps | apply raiseSource_keeps | apply State.setDom_keeps | apply kept_ite)

theorem execLktCalibration_keeps (count : Nat) (s : State) (hs : Kept queue s) : OutKept queue (execLktCalibration
    count s) := by
  unfold execLktCalibration
  show Kept _ _
  repeat' first
    | (with_reducible first
      | assumption | apply kept_setPwr | apply wf_pwr_domains | apply kept_ite)
    | exact rfl

theorem loseTableBank_keeps (s : State) (b : Nat) (hs : Kept queue s) : Kept queue (loseTableBank s b) := by
  unfold loseTableBank
  dsimp only
  refine raiseSource_keeps _ _ (kept_ras rfl rfl (kept_filterWatch _ rfl rfl rfl ?_))
  exact kept_setVec hs (Sparse.wf_dropKeys _ _ _ hs.vecCanonical.cfg) (Sparse.wf_dropKeys _ _ _
      hs.vecCanonical.st) hs.vecCanonical.sysCfg hs.vecCanonical.sysSt hs.vecCanonical.lost (Sparse.wf_dropKeys _
      _ _ hs.vecCanonical.reloaded)

theorem chargeQuarter_keeps (s : State) (q : Nat) (mask : BitVec 8) (hs : Kept queue s) : Kept queue
    (chargeQuarter s q mask) := by
  unfold chargeQuarter
  repeat' first
    | (intro _)
    | (with_reducible first
      | assumption | apply chargeFault_keeps | apply kept_foldl)
    | split

theorem loseQuarter_keeps (s : State) (q : Nat) (banks : BitVec 8) (hs : Kept queue s) : Kept queue (loseQuarter s
    q banks) := by
  unfold loseQuarter
  repeat' first
    | (intro _)
    | (with_reducible first
      | assumption | apply loseTableBank_keeps | apply chargeQuarter_keeps | apply kept_foldl | apply kept_ite)

theorem loseRecord_keeps (s : State) (x : Nat) (hs : Kept queue s) : Kept queue (loseRecord s x) := by
  unfold loseRecord
  repeat' first
    | (with_reducible first
      | assumption | apply kept_setPwr | apply wf_pwr_domains | apply State.clearBusyNext_keeps
      | apply resetTarget_keeps)
    | exact rfl | split

theorem loseTargetBank_keeps (s : State) (b : Nat) (hs : Kept queue s) : Kept queue (loseTargetBank s b) := by
  unfold loseTargetBank
  try dsimp only
  repeat' first
    | (intro _)
    | (with_reducible first
      | assumption | apply loseRecord_keeps | apply kept_setPwr | apply Sparse.wf_set | apply Sparse.wf_dropKeys |
        apply Sparse.wf_mapVals | apply wf_pwr_domains | apply raiseSource_keeps | apply State.dropLines_keeps |
            apply chargeFault_keeps | apply kept_foldl | apply kept_ite)
    | exact rfl
    | split

theorem zeroArray_keeps (s : State) (key : Nat) (hs : Kept queue s) : Kept queue (zeroArray s key) := by
  unfold zeroArray
  refine kept_ite (kept_filterWatch _ rfl rfl rfl ?_) (kept_ite ?_ ?_)
  · exact kept_setVec hs hs.vecCanonical.cfg hs.vecCanonical.st rfl rfl hs.vecCanonical.lost hs.vecCanonical.reloaded
  · exact kept_vec rfl rfl rfl rfl rfl rfl hs
  · exact kept_setTen hs hs.tenCanonical.recs hs.tenCanonical.blocks rfl

theorem loseArray_keeps (s : State) (key : Nat) (hs : Kept queue s) : Kept queue (loseArray s key) := by
  unfold loseArray
  try dsimp only
  repeat' first
    | (intro _)
    | (with_reducible first
      | assumption | apply State.dropLines_keeps | apply zeroArray_keeps | apply raiseSource_keeps | apply
        kept_setPwr | apply Sparse.wf_set | apply Sparse.wf_dropKeys | apply Sparse.wf_mapVals | apply
            wf_pwr_domains | apply kept_foldl | apply kept_ite)
    | exact rfl
    | split

theorem beginLoad_keeps (s : State) (hs : Kept queue s) : Kept queue (beginLoad s) := by
  unfold beginLoad
  dsimp only
  have h0 := State.dropLines_keeps _ (fun l => l.arr == .ctrl) (kept_acu_ram (u := { s.acu with
      ram := [], user := false, current := 0x40 }) rfl (kept_setVec (u := { s.vec with
      lost := [], reloaded := [], lostBanks := s.pwr.tblLost }) hs hs.vecCanonical.cfg hs.vecCanonical.st
      hs.vecCanonical.sysCfg hs.vecCanonical.sysSt rfl rfl))
  refine raiseSource_keeps _ _ (kept_setBoxes (kept_setFw _ h0) ?_ fun p hp => ?_)
  · refine Sparse.wf_run _ _ _ fun k e => ?_
    exact Bool.noConfusion (congrArg Mailbox.restarting e)
  · obtain ⟨m, -, rfl⟩ := List.mem_map.1 hp
    exact kept_box (kept_setFw _ h0) (BitVec.ofNat 7 m)

theorem checkLine_keeps (s : State) (l : LineId) (hs : Kept queue s) : Kept queue (checkLine s l) := by
  unfold checkLine
  try dsimp only
  repeat' first
    | (intro _)
    | (with_reducible first
      | assumption | apply State.setErr_keeps | apply noteCorrected_keeps | apply kept_setRas | apply Sparse.wf_set
        | apply Sparse.wf_dropKeys | apply Sparse.wf_mapVals | apply wf_ras_cursors | apply wf_ras_records | apply
          kept_setPwr | apply wf_pwr_domains | apply disturbLine_keeps | apply freshLine_keeps | apply kept_foldl |
              apply kept_ite)
    | exact rfl
    | split

theorem loseFailed_keeps (s : State) (d : Nat) (failed : List Nat) (hs : Kept queue s) : Kept queue (loseFailed s d
    failed) := by
  unfold loseFailed
  try dsimp only
  repeat' first
    | (intro _)
    | (with_reducible first
      | assumption | apply loseQuarter_keeps | apply loseTargetBank_keeps | apply loseArray_keeps | apply
        beginLoad_keeps | apply kept_foldl | apply kept_ite)
    | split

theorem retentionCheck_keeps (s : State) (d : Nat) (ret : Retention) (hs : Kept queue s) : Kept queue
    (retentionCheck s d ret) := by
  unfold retentionCheck
  try dsimp only
  repeat' first
    | (intro _)
    | (with_reducible first
      | assumption | apply upset_keeps | apply checkLine_keeps | apply kept_setPwr | apply Sparse.wf_set | apply
        Sparse.wf_dropKeys | apply Sparse.wf_mapVals | apply wf_pwr_domains | apply loseFailed_keeps | apply
            kept_foldl | apply kept_ite)
    | exact rfl
    | split

theorem execMemRdy_keeps (d : BitVec 4) (ret : Retention) (s : State) (hs : Kept queue s) : OutKept queue
    (execMemRdy d ret s) := by
  unfold execMemRdy
  show Kept _ _
  try dsimp only
  repeat' first
    | (with_reducible first
      | assumption | apply toPhase_keeps | apply retentionCheck_keeps)
    | split

theorem rewatch_keeps (s : State) (mine : Src → Bool) (hs : Kept queue s) : Kept queue (rewatch s mine) := by
  unfold rewatch
  try dsimp only
  repeat' first
    | (intro _)
    | (with_reducible first
      | assumption | apply State.putCfg_keeps | apply kept_foldl | apply kept_ite)
    | split

theorem resetCore_keeps (s : State) (hs : Kept queue s) : Kept queue (resetCore s) := by
  unfold resetCore
  try dsimp only
  repeat' first
    | (intro _)
    | (with_reducible first
      | assumption | apply kept_setFrame | apply kept_setSys | apply Sparse.wf_set | apply Sparse.wf_dropKeys |
        apply Sparse.wf_mapVals | apply wf_sys_latch | apply wf_sys_levels | apply wf_sys_held | apply
            wf_sys_linkFell | apply kept_setIntake | apply kept_setVec | apply wf_vec_cfg | apply wf_vec_st | apply
                wf_vec_sysCfg | apply wf_vec_sysSt | apply wf_vec_lost | apply wf_vec_reloaded | apply
                    rewatch_keeps | apply kept_setTgt | apply wf_tgt_recs | apply wf_tgt_busy | apply
                        wf_tgt_busyClear | apply wf_tgt_heldOff | apply kept_setTen | apply wf_ten_recs | apply
                            wf_ten_blocks | apply wf_ten_clasp | apply kept_setAcu | apply wf_acu_ram | apply
                                kept_setChain | apply wf_chain_pairs | apply State.dropLines_keeps | apply
                                    kept_setRas | apply wf_ras_cursors | apply wf_ras_records | apply kept_setLoupe
                                        | apply wf_loupe_ring | apply wf_loupe_sums | apply wf_loupe_now | apply
                                          wf_loupe_bins | apply kept_foldl | apply kept_ite)
    | exact rfl
    | split

theorem resetQuarter_keeps (s : State) (q : Nat) (hs : Kept queue s) : Kept queue (resetQuarter s q) := by
  unfold resetQuarter
  try dsimp only
  repeat' first
    | (intro _)
    | (with_reducible first
      | assumption | apply kept_setVec | apply Sparse.wf_set | apply Sparse.wf_dropKeys | apply Sparse.wf_mapVals |
        apply wf_vec_cfg | apply wf_vec_st | apply wf_vec_sysCfg | apply wf_vec_sysSt | apply wf_vec_lost | apply
            wf_vec_reloaded | apply rewatch_keeps | apply State.dropLines_keeps | apply kept_setRas | apply
                wf_ras_cursors | apply wf_ras_records | apply kept_foldl | apply kept_ite)
    | exact rfl
    | split

theorem resetTargets_keeps (s : State) (hs : Kept queue s) : Kept queue (resetTargets s) := by
  unfold resetTargets
  try dsimp only
  repeat' first
    | (intro _)
    | (with_reducible first
      | assumption | apply kept_setTgt | apply Sparse.wf_set | apply Sparse.wf_dropKeys | apply Sparse.wf_mapVals |
        apply wf_tgt_recs | apply wf_tgt_busy | apply wf_tgt_busyClear | apply wf_tgt_heldOff | apply
            State.dropLines_keeps | apply kept_setRas | apply wf_ras_cursors | apply wf_ras_records | apply
                kept_foldl | apply kept_ite)
    | exact rfl
    | split

theorem ringLeft_takenRings (b : Mailbox) : TakenRings (ringLeft b) := by
  unfold ringLeft
  split <;> exact takenRings_untaken rfl

theorem resetController_keeps (s : State) (hs : Kept queue s) : Kept queue (resetController s) := by
  unfold resetController
  exact beginLoad_keeps _ (kept_acu rfl (kept_setBoxes hs (Sparse.wf_mapVals _ _ _ hs.mbxCanonical.boxes)
    (Sparse.forall_mapVals _ _ _ (fun _ b _ => ringLeft_takenRings b) hs.rung)))

theorem resetPort_keeps (s : State) (p : PortId) (hs : Kept queue s) : Kept queue (resetPort s p) := by
  unfold resetPort
  repeat' first
    | (with_reducible first
      | assumption | apply State.setLinkPort_keeps | apply State.setPhy_keeps)

theorem resetLoupe_keeps (s : State) (hs : Kept queue s) : Kept queue (resetLoupe s) := by
  exact kept_setDivider hs rfl rfl hs.loupeCanonical.now rfl (show (1 : BitVec 9).toNat ≤ 256 by decide) (show (1
      : BitVec 9).toNat ≤ 256 by decide)

theorem resetDomain_keeps (s : State) (d : Nat) (hs : Kept queue s) : Kept queue (resetDomain s d) := by
  unfold resetDomain
  repeat' first
    | (with_reducible first
      | assumption | apply resetCore_keeps | apply kept_setPwr | apply wf_pwr_domains | apply resetQuarter_keeps
      | apply resetTargets_keeps | apply resetController_keeps | apply resetPort_keeps | apply kept_setBead
      | apply resetLoupe_keeps | apply kept_ite)
    | exact rfl

theorem releaseHeld_keeps (s : State) (hs : Kept queue s) : Kept queue (releaseHeld s) := by
  unfold releaseHeld
  repeat' first
    | (intro _)
    | (with_reducible first
      | assumption | apply kept_setSys | apply wf_sys_latch | apply wf_sys_levels | apply wf_sys_linkFell
      | apply State.setLatch_keeps | apply kept_foldl)
    | exact rfl

theorem reportLine_keeps (s : State) (e : LineId × Bool) (hs : Kept queue s) : Kept queue (reportLine s e) := by
  unfold reportLine
  try dsimp only
  repeat' first
    | (intro _)
    | (with_reducible first
      | assumption | apply noteUncorrectable_keeps | apply rewriteLine_keeps | apply freshLine_keeps | apply
        kept_foldl | apply kept_ite)
    | split

theorem reportLines_keeps (s : State) (d : Nat) (hs : Kept queue s) : Kept queue (reportLines s d) := by
  unfold reportLines
  try dsimp only
  repeat' first
    | (intro _)
    | (with_reducible first
      | assumption | apply kept_setPwr | apply Sparse.wf_set | apply Sparse.wf_dropKeys | apply Sparse.wf_mapVals |
        apply wf_pwr_domains | apply reportLine_keeps | apply kept_foldl | apply kept_ite)
    | exact rfl
    | split

theorem drainLost_keeps (s : State) (hs : Kept queue s) : Kept queue (drainLost s) := by
  unfold drainLost
  repeat' first
    | (intro _)
    | (with_reducible first
      | assumption | apply kept_setPwr | apply wf_pwr_domains | apply wakeQuarter_keeps | apply applyCompletion_keeps
      | apply kept_foldl)
    | exact rfl | split

theorem presentBanks_keeps (s : State) (hs : Kept queue s) : Kept queue (presentBanks s) := by
  unfold presentBanks
  repeat' first
    | (intro _)
    | (with_reducible first
      | assumption | apply kept_setPwr | apply wf_pwr_domains | apply present_keeps | apply kept_foldl
      | apply kept_ite)
    | exact rfl

theorem portReturns_keeps (s : State) (p : PortId) (hs : Kept queue s) : Kept queue (portReturns s p) := by
  unfold portReturns
  repeat' first
    | (with_reducible first
      | assumption | apply enterDetect_keeps | apply kept_ite)

theorem atOn_keeps (s : State) (d : Nat) (frm : PState) (lkt : BitVec 48) (hs : Kept queue s) : Kept queue (atOn s
    d frm lkt) := by
  unfold atOn
  repeat' first
    | (with_reducible first
      | assumption | apply reportLines_keeps | apply releaseHeld_keeps | apply kept_setPwr | apply wf_pwr_domains
      | apply portReturns_keeps | apply beadReturns_keeps | apply presentBanks_keeps | apply drainLost_keeps
      | apply kept_ite)
    | exact rfl

theorem reachOn_keeps (s : State) (d : Nat) (lkt : BitVec 48) (hs : Kept queue s) : Kept queue (reachOn s d lkt) := by
  unfold reachOn
  try dsimp only
  repeat' first
    | (with_reducible first
      | assumption | apply resetDomain_keeps | apply State.setDom_keeps | apply raiseSource_keeps | apply atOn_keeps)
    | split

theorem logicRdy_keeps (s : State) (d : Nat) (exitUs : BitVec 8) (lkt : BitVec 48) (hs : Kept queue s) : Kept
    queue (logicRdy s d exitUs lkt) := by
  unfold logicRdy
  refine kept_ite hs (kept_ite hs ?_)
  dsimp only
  have h := State.setDom_keeps _ d { s.dom d with lastExit := exitUs } hs
  refine kept_ite (State.setDom_keeps _ _ _ h) ?_
  have h2 := reachOn_keeps _ d lkt h
  refine kept_ite (kept_foldl _ _ _ (fun t n ht => kept_ite (reachOn_keeps _ _ _ ht) ht) h2) h2


/-! ## Machine/Ras.lean -/

theorem refreshLife_keeps (s : State) (hs : Kept queue s) : Kept queue (refreshLife s) := by
  unfold refreshLife
  repeat' first
    | (with_reducible first
      | assumption | apply kept_setRas | apply wf_ras_cursors | apply wf_ras_records | apply setLevel_keeps)

theorem execTempSample_keeps (temp : BitVec 10) (valid : Bool) (s : State) (hs : Kept queue s) : OutKept queue
    (execTempSample temp valid s) := by
  unfold execTempSample
  show Kept _ _
  repeat' first
    | (with_reducible first
      | assumption | apply kept_setRas | apply wf_ras_cursors | apply wf_ras_records | apply kept_ite)

theorem execAgedHour_keeps (s : State) (hs : Kept queue s) : OutKept queue (execAgedHour s) := by
  unfold execAgedHour
  show Kept _ _
  repeat' first
    | (with_reducible first
      | assumption | apply refreshLife_keeps | apply kept_setRas | apply wf_ras_cursors | apply wf_ras_records
      | apply kept_ite)

theorem execFieldRepairCopy_keeps (s : State) (hs : Kept queue s) : OutKept queue (execFieldRepairCopy s) := by
  unfold execFieldRepairCopy
  show Kept _ _
  repeat' first
    | (with_reducible first
      | assumption | apply kept_setRas | apply wf_ras_cursors | apply wf_ras_records | apply kept_ite)

theorem retireRow_keeps (s : State) (bank : Nat) (row : BitVec 14) (hs : Kept queue s) : Kept queue (retireRow s
    bank row) := by
  unfold retireRow
  repeat' first
    | (with_reducible first
      | assumption | apply kept_setRas | apply Sparse.wf_set | apply wf_ras_cursors | apply wf_ras_records
      | apply wroteLine_keeps | apply readLine_keeps | apply refreshLife_keeps | apply raiseSource_keeps)
    | split

theorem execRowRetire_keeps (bank : BitVec 6) (row : BitVec 14) (s : State) (hs : Kept queue s) : OutKept queue
    (execRowRetire bank row s) := by
  unfold execRowRetire
  show Kept _ _
  repeat' first
    | (with_reducible first
      | assumption | apply retireRow_keeps | apply kept_ite)

theorem polishLine_keeps (s : State) (l : LineId) (hs : Kept queue s) : Kept queue (polishLine s l) := by
  unfold polishLine
  repeat' first
    | (with_reducible first
      | assumption | apply readLine_keeps | apply kept_setRas | apply wf_ras_cursors | apply wf_ras_records
      | apply kept_ite)

theorem polishCycle_keeps (s : State) (key : Nat) (c : Nat) (hs : Kept queue s) : Kept queue (polishCycle s key
    c).1 := by
  unfold polishCycle
  try dsimp only
  repeat' first
    | (with_reducible first
      | assumption | apply polishLine_keeps | apply kept_foldl)
    | split

theorem writeBackCycles.queued_keeps (key : Nat) (used : Nat) (s : State) (hs : Kept queue s) : Kept queue
    (writeBackCycles.queued key used s) := by
  unfold writeBackCycles.queued
  repeat' first
    | (with_reducible first
      | assumption | apply freshLine_keeps | apply kept_foldl)

theorem writeBackCycles_keeps (s : State) (key : Nat) (used : Nat) (hs : Kept queue s) : Kept queue
    (writeBackCycles s key used) := by
  have q : ∀ t, Kept queue t → Kept queue (writeBackCycles.queued key used t) := fun t h => kept_foldl _ _ _ (fun
      u l h => freshLine_keeps _ _ h) h
  unfold writeBackCycles
  split
  · exact kept_ite (retireRow_keeps _ _ _ hs) (q _ hs)
  · exact q _ hs

theorem polishArray_keeps (s : State) (key : Nat) (hs : Kept queue s) : Kept queue (polishArray s key) := by
  unfold polishArray
  repeat' first
    | (with_reducible first
      | assumption | apply polishCycle_keeps | apply writeBackCycles_keeps | apply kept_setRas | apply Sparse.wf_set
      | apply wf_ras_cursors | apply wf_ras_records | apply kept_ite)

theorem tickPolish_keeps (s : State) (hs : Kept queue s) : Kept queue (tickPolish s) := by
  exact kept_foldl _ _ _ (fun t n h => polishArray_keeps _ _ h) hs

theorem writeInject_keeps (s : State) (data : W32) (hs : Kept queue s) : Kept queue (writeInject s data) := by
  unfold writeInject
  repeat' first
    | (with_reducible first
      | assumption | apply kept_setRas | apply wf_ras_cursors | apply wf_ras_records | apply kept_ite)

theorem loseLine_keeps (s : State) (l : LineId) (hs : Kept queue s) : Kept queue (loseLine s l) := by
  unfold loseLine
  repeat' first
    | (with_reducible first
      | assumption | apply rewriteLine_keeps | apply noteUncorrectable_keeps | apply freshLine_keeps)

theorem execInternalBusParityError_keeps (path : BusPath) (repeatFails : Bool) (s : State) (hs : Kept queue s) :
    OutKept queue (execInternalBusParityError path repeatFails s) := by
  unfold execInternalBusParityError
  show Kept _ _
  repeat' first
    | (with_reducible first
      | assumption | apply raiseSource_keeps | apply kept_setRas | apply wf_ras_cursors | apply wf_ras_records
      | apply engineFault_keeps | apply spareFault_keeps | apply loseLine_keeps | apply fatalRequest_keeps
      | apply kept_ite)
    | split

end Sys2Proof.Machine
end

