-- ==== Sys2Proof/Laws/CoherentBoot.lean ====
section
/-! SUPPORT. Coherence and the queue are kept by reset, start-up, firmware, Loupe and the frame: one lemma for each operation. -/
namespace Sys2Proof.Machine

variable {queue : List Instr}

/-! ## Machine/Boot.lean -/

theorem coldState_keeps (s : State) (hs : Kept queue s) : Kept queue (coldState s) := by
  exact ⟨⟨⟨rfl, rfl, rfl, rfl⟩, ⟨rfl, rfl, rfl, rfl, rfl, rfl⟩, ⟨rfl, rfl, rfl, rfl⟩, ⟨rfl, rfl, rfl⟩, ⟨rfl⟩,
      ⟨rfl⟩, ⟨rfl⟩, ⟨rfl⟩, ⟨rfl, rfl⟩,
    ⟨rfl, rfl, rfl, rfl⟩, (fun _ h => nomatch h), Nat.zero_le _, Nat.zero_le _, (show (1 : BitVec 9).toNat ≤ 256
        by decide), (show (1 : BitVec 9).toNat ≤ 256 by decide), Nat.zero_le _⟩, hs.pending⟩

theorem blockState_keeps (s : State) (hs : Kept queue s) : Kept queue (blockState s) := by
  exact ⟨⟨⟨rfl, rfl, rfl, rfl⟩, ⟨rfl, rfl, rfl, rfl, rfl, rfl⟩, ⟨rfl, rfl, rfl, rfl⟩, ⟨rfl, rfl, rfl⟩, ⟨rfl⟩,
      ⟨rfl⟩, ⟨rfl⟩, ⟨Sparse.wf_mapVals _ _ _ hs.pwrCanonical.domains⟩, ⟨rfl, rfl⟩,
    ⟨rfl, rfl, rfl, rfl⟩, (fun _ h => nomatch h), hs.fifo, Nat.zero_le _, (show (1 : BitVec 9).toNat ≤ 256
        by decide), (show (1 : BitVec 9).toNat ≤ 256 by decide), hs.records⟩, hs.pending⟩

theorem assertBlock_keeps (s : State) (cause : Byte) (hs : Kept queue s) : Kept queue (assertBlock s cause) := by
  unfold assertBlock
  exact kept_hm rfl (refreshRetimer_keeps _ (blockState_keeps _ hs))

theorem execColdReset_keeps (s : State) (hs : Kept queue s) : OutKept queue (execColdReset s) := by
  unfold execColdReset
  show Kept _ _
  repeat' first
    | (with_reducible first
      | assumption | apply coldState_keeps | apply kept_setHm)
    | exact rfl

theorem execBlockReset_keeps (s : State) (hs : Kept queue s) : OutKept queue (execBlockReset s) := by
  unfold execBlockReset
  show Kept _ _
  repeat' first
    | (with_reducible first
      | assumption | apply assertBlock_keeps)
    | split

theorem execPowerLost_keeps (s : State) (hs : Kept queue s) : OutKept queue (execPowerLost s) := by
  unfold execPowerLost
  show Kept _ _
  repeat' first
    | (with_reducible first
      | assumption | apply coldState_keeps | apply kept_setHm)
    | exact rfl

theorem Start.st_keeps (self : Start) (hself : Kept queue self.st) : Kept queue (Start.st self) := by
  unfold Start.st
  repeat' first
    | with_reducible assumption

theorem Start.note_keeps (b : Start) (n : Nat) (o : Byte) (hb : Kept queue b.st) : Kept queue (Start.note b n
    o).st := by
  exact kept_hm rfl hb

theorem Start.copyOut_keeps (b : Start) (hb : Kept queue b.st) : Kept queue (Start.copyOut b).st := by
  unfold Start.copyOut
  try dsimp only
  repeat' first
    | (intro _)
    | (with_reducible first
      | assumption | apply Start.st_keeps | apply kept_setHm | apply kept_foldl | apply kept_ite)
    | exact rfl
    | split

theorem Start.enterSafe_keeps (b : Start) (n : Nat) (forced : Bool) (hb : Kept queue b.st) : Kept queue
    (Start.enterSafe b n forced).st := by
  unfold Start.enterSafe
  exact Start.copyOut_keeps _ (kept_hm rfl hb)

theorem Start.fails_keeps (b : Start) (n : Nat) (hb : Kept queue b.st) : Kept queue (Start.fails b n).st := by
  unfold Start.fails
  split
  · exact hb
  split
  · exact Start.enterSafe_keeps _ _ _ hb
  · exact hb

theorem Start.mandatory_keeps (b : Start) (n : Nat) (fate : StepFate) (work : Start → Start) (hb : Kept queue
    b.st) (hwork : ∀ y0, Kept queue y0.st → Kept queue (work y0).st) : Kept queue (Start.mandatory b n fate
    work).st := by
  unfold Start.mandatory
  split
  · exact hb
  dsimp only
  cases fate with
  | pass => exact hwork _ (Start.note_keeps _ _ _ hb)
  | degraded d => exact hwork _ (Start.note_keeps _ _ _ hb)
  | fail d => exact Start.fails_keeps _ _ (Start.note_keeps _ _ _ hb)

theorem Start.locketUp_keeps (b : Start) (hb : Kept queue b.st) : Kept queue (Start.locketUp b).st := by
  unfold Start.locketUp
  extract_lets near
  split
  split
  extract_lets detail result s u1 s1 u2 s2 u3 s3 u4 s4
  have h3 : Kept queue s3 := kept_chain rfl (kept_setFrame _ (kept_pwr rfl rfl rfl (kept_setBead _ hb)))
  have h4 : Kept queue s4 := kept_ite (kept_ras rfl rfl h3) h3
  exact Start.note_keeps _ _ _ (refreshRetimer_keeps _ h4)

theorem Start.repair_keeps (b : Start) (hb : Kept queue b.st) : Kept queue (Start.repair b).st := by
  exact kept_ras rfl rfl hb

theorem repairRow_keeps (s : State) (e : Nat × BitVec 14) (hs : Kept queue s) : Kept queue (repairRow s e) := by
  unfold repairRow
  repeat' first
    | (with_reducible first
      | assumption | apply kept_setRas | apply wf_ras_cursors | apply wf_ras_records)
    | split

theorem leaveOut_keeps (s : State) (tbl : BitVec 4) (tgt : BitVec 16) (hs : Kept queue s) : Kept queue (leaveOut s
    tbl tgt) := by
  unfold leaveOut
  try dsimp only
  repeat' first
    | (intro _)
    | (with_reducible first
      | assumption | apply kept_setPwr | apply Sparse.wf_set | apply Sparse.wf_dropKeys | apply Sparse.wf_mapVals |
        apply wf_pwr_domains | apply kept_foldl | apply kept_ite)
    | exact rfl
    | split

theorem Start.ended_keeps (b : Start) (n : Nat) (fails : Bool) (degraded : Bool) (detail : BitVec 4) (hb : Kept
    queue b.st) : Kept queue (Start.ended b n fails degraded detail).st := by
  unfold Start.ended
  try dsimp only
  repeat' first
    | (intro _)
    | (with_reducible first
      | assumption | apply Start.note_keeps | apply Start.fails_keeps | apply kept_foldl | apply kept_ite)
    | split

theorem Start.bist_keeps (b : Start) (hb : Kept queue b.st) : Kept queue (Start.bist b).st := by
  unfold Start.bist
  extract_lets rows short repaired tbl tgt bad out s b'
  have hs : Kept queue s := kept_foldl _ _ _ (fun _ _ h => repairRow_keeps _ _ h) hb
  have h' : Kept queue b'.st := kept_ite (leaveOut_keeps _ _ _ hs) hs
  split
  · exact hb
  · exact Start.ended_keeps _ _ _ _ _ h'

theorem Start.initTables_keeps (b : Start) (hb : Kept queue b.st) : Kept queue (Start.initTables b).st := by
  unfold Start.initTables
  extract_lets tbl tgt bad out b'
  have h' : Kept queue b'.st := kept_ite (leaveOut_keeps _ _ _ hb) hb
  split
  · exact hb
  · exact Start.ended_keeps _ _ _ _ _ h'

theorem startKernel_keeps (s : State) (slot : Bool) (hs : Kept queue s) : Kept queue (startKernel s slot) := by
  unfold startKernel
  exact State.setMpu_keeps _ _ _ (kept_setFw _ hs)

theorem Start.firmware_keeps (b : Start) (hb : Kept queue b.st) : Kept queue (Start.firmware b).st := by
  unfold Start.firmware
  split
  · exact hb
  dsimp only
  refine Start.mandatory_keeps _ _ _ _ ?_ fun y hy => startKernel_keeps _ _ hy
  refine kept_ite (kept_setFw _ hb) hb

theorem trainedPort_keeps (s : State) (p : PortId) (fate : PortFate) (half : Bool) (hs : Kept queue s) : Kept queue
    (trainedPort s p fate half) := by
  unfold trainedPort
  try dsimp only
  repeat' first
    | (intro _)
    | (with_reducible first
      | assumption | apply enterDetect_keeps | apply State.setPhy_keeps | apply completeInit_keeps | apply
        State.setLinkPort_keeps | apply kept_foldl | apply kept_ite)
    | split

theorem Start.train_keeps (b : Start) (n : Nat) (p : PortId) (fate : PortFate) (hb : Kept queue b.st) : Kept queue
    (Start.train b n p fate).st := by
  unfold Start.train
  split
  · exact hb
  dsimp only
  split
  · exact Start.note_keeps _ _ _ hb
  · exact Start.note_keeps _ _ _ (trainedPort_keeps _ _ _ _ hb)

theorem Start.release_keeps (b : Start) (hb : Kept queue b.st) : Kept queue (Start.release b).st := by
  unfold Start.release
  split
  · exact hb
  · exact kept_chain rfl hb

theorem Start.beads_keeps (b : Start) (hb : Kept queue b.st) : Kept queue (Start.beads b).st := by
  unfold Start.beads
  split
  · exact hb
  · exact Start.note_keeps _ _ _ (kept_setBead _ hb)

theorem presentLevels_keeps (s : State) (hs : Kept queue s) : Kept queue (presentLevels s) := by
  have p : ∀ (t : State) (base : Nat) (v : BitVec 80), Kept queue t → Kept queue (((List.range 80).filter fun p =>
      v.getLsbD p).foldl (fun s p => setLevel s (base + p) true) t) :=
    fun t base v h => kept_foldl _ _ _ (fun u c h => setLevel_keeps _ _ _ h) h
  unfold presentLevels
  exact kept_foldl _ _ _ (fun u c h => setLevel_keeps _ _ _ h) (setLevel_keeps _ _ _ (p _ _ _ (p _ _ _ (p _ _ _ hs))))

theorem addResetTime_keeps (s : State) (l : BitVec 48) (hs : Kept queue s) : Kept queue (addResetTime s l) := by
  unfold addResetTime
  repeat' first
    | (with_reducible first
      | assumption | apply kept_setFrame)

theorem Start.fastPath_keeps (b : Start) (cold : Bool) (hb : Kept queue b.st) : Kept queue (Start.fastPath b
    cold).st := by
  unfold Start.fastPath
  refine Start.mandatory_keeps _ _ _ _ hb fun y hy => ?_
  extract_lets s0 u1 s1 u2 s2 u3 s3 s4 s5 s6 u6
  have h1 : Kept queue s1 := kept_setFrame _ hy
  have h2 : Kept queue s2 := kept_ite (aloneMaster_keeps _ h1) (kept_setFrame _ h1)
  have h3 : Kept queue s3 := kept_setFrame _ h2
  have h4 : Kept queue s4 := kept_ite h3 (addResetTime_keeps _ _ h3)
  have h5 : Kept queue s5 := presentLevels_keeps _ (refreshLife_keeps _ h4)
  have h6 : Kept queue s6 := kept_ite h5 (raiseSource_keeps _ _ h5)
  exact kept_hm rfl h6

theorem Start.windows_keeps (b : Start) (hb : Kept queue b.st) : Kept queue (Start.windows b).st := by
  unfold Start.windows
  exact Start.mandatory_keeps _ _ _ _ hb fun y hy => kept_hm rfl hy

theorem Start.domains_keeps (b : Start) (hb : Kept queue b.st) : Kept queue (Start.domains b).st := by
  exact kept_foldl _ _ _ (fun u c h => State.setDom_keeps _ _ _ h) hb

theorem Start.finish_keeps (b : Start) (hb : Kept queue b.st) : Kept queue (Start.finish b).st := by
  have h : ∀ (t : State) (r : HmRecord) (l : List HmRecord), Kept queue t → Kept queue (t.setHm
      { t.hm with records := (r :: l).take 8, step := 0xF }) :=
    fun t r l ht => kept_setRecords ht (List.length_take_le 8 _)
  unfold Start.finish
  dsimp only
  split
  · exact h _ _ _ hb
  · exact h _ _ _ (Start.copyOut_keeps _ hb)

theorem runStart_keeps (s : State) (env : StartEnv) (cause : Byte) (cold : Bool) (hs : Kept queue s) : Kept queue
    (runStart s env cause cold) := by
  have st : ∀ {c : Prop} [Decidable c] {x y : Start}, Kept queue x.st → Kept queue y.st → Kept queue (if c then x
      else y).st := by
    intro c _ x y h1 h2
    split
    · exact h1
    · exact h2
  unfold runStart
  extract_lets u1 s1 u2 s2 u3 s3 b0 b1 r b2 b3 b4 b5 b6 b7 b8 b9
  have h0 : Kept queue b0.st := kept_hm rfl (kept_ten rfl rfl rfl (kept_setBnd _ hs))
  have h1 : Kept queue b1.st := st (Start.locketUp_keeps _ h0) h0
  have h2 : Kept queue b2.st := h1
  have h3 : Kept queue b3.st := st (Start.enterSafe_keeps _ _ _ h2) h2
  have h4 : Kept queue b4.st := Start.mandatory_keeps _ _ _ _ (Start.copyOut_keeps _ h3) fun y hy =>
      Start.repair_keeps _ hy
  have h5 : Kept queue b5.st := Start.release_keeps _ (Start.domains_keeps _ (Start.initTables_keeps _
    (Start.firmware_keeps _ (Start.bist_keeps _ h4))))
  have h6 : Kept queue b6.st := Start.train_keeps _ _ _ _ h5
  have h7 : Kept queue b7.st := Start.train_keeps _ _ _ _ h6
  have h8 : Kept queue b8.st := Start.windows_keeps _ (Start.fastPath_keeps _ _ (Start.beads_keeps _ h7))
  have h9 : Kept queue b9.st := Start.finish_keeps _ h8
  exact kept_ite (assertBlock_keeps _ _ h9) h9

theorem writeHmCtrl_keeps (s : State) (data : W32) (hs : Kept queue s) : Kept queue (writeHmCtrl s data) := by
  unfold writeHmCtrl
  exact kept_ite (kept_ite (assertBlock_keeps _ _ hs) (kept_hm rfl hs)) hs


/-! ## Machine/Firmware.lean -/

theorem overtakeBox_keeps (s : State) (m : BitVec 7) (hs : Kept queue s) : Kept queue (overtakeBox s m) := by
  unfold overtakeBox
  have h : Kept queue (s.modBox m fun b => { b with restarting := true }) := kept_modBox hs fun _ h => h
  dsimp only
  generalize (s.modBox m fun b => { b with restarting := true }) = t at h ⊢
  have hb := kept_box h m
  split
  · exact kept_setBox h hb
  · split
    · exact endLoad_keeps _ _ _ _ h
    · exact h
  · exact h
  · exact h

theorem restartFirmware_keeps (s : State) (hs : Kept queue s) : Kept queue (restartFirmware s) := by
  unfold restartFirmware
  have h := kept_foldl ((List.range 65).map (BitVec.ofNat 7)) overtakeBox s (fun t m h => overtakeBox_keeps _ _ h) hs
  generalize List.foldl overtakeBox s _ = t at h ⊢
  exact raiseSource_keeps _ _ (kept_acu rfl (kept_setFw _ h))

theorem restartAgent_keeps (s : State) (t : Tenant) (hs : Kept queue s) : Kept queue (restartAgent s t) := by
  unfold restartAgent
  repeat' first
    | (with_reducible first
      | assumption | apply raiseSource_keeps | apply leaveAgent_keeps | apply overtakeBox_keeps)

theorem agentAccess_keeps (s : State) (t : Tenant) (a : CoreAccess) (hs : Kept queue s) : Kept queue (agentAccess s
    t a) := by
  unfold agentAccess
  try dsimp only
  repeat' first
    | (intro _)
    | (with_reducible first
      | assumption | apply dispatchAgent_keeps | apply checkController_keeps | apply restartAgent_keeps | apply
        chargeFault_keeps | apply kept_foldl | apply kept_ite)
    | split

theorem execAgentRestart_keeps (t : Tenant) (access : Option CoreAccess) (s : State) (hs : Kept queue s) : OutKept
    queue (execAgentRestart t access s) := by
  unfold execAgentRestart
  show Kept _ _
  try dsimp only
  repeat' first
    | (intro _)
    | (with_reducible first
      | assumption | apply agentAccess_keeps | apply restartAgent_keeps | apply chargeFault_keeps | apply
        kept_foldl | apply kept_ite)
    | split

theorem execFirmwareRestart_keeps (access : Option CoreAccess) (s : State) (hs : Kept queue s) : OutKept queue
    (execFirmwareRestart access s) := by
  unfold execFirmwareRestart
  show Kept _ _
  try dsimp only
  repeat' first
    | (intro _)
    | (with_reducible first
      | assumption | apply checkController_keeps | apply enterKernel_keeps | apply restartFirmware_keeps | apply
        kept_foldl | apply kept_ite)
    | split

theorem answerActivate_keeps (s : State) (fell : Bool) (hs : Kept queue s) : Kept queue (answerActivate s fell) := by
  unfold answerActivate
  repeat' first
    | (with_reducible first
      | assumption | apply finish_keeps)

theorem firmwareRuns_keeps (s : State) (hs : Kept queue s) : Kept queue (firmwareRuns s) := by
  unfold firmwareRuns
  have h1 : Kept queue (allBoxes.foldl depositDone s) := kept_foldl _ _ _ (fun _ _ h => depositDone_keeps _ _ h) hs
  generalize allBoxes.foldl depositDone s = q at h1 ⊢
  have h : Kept queue (q.setMbx { q.mbx with
      boxes := Sparse.mapVals {} (fun _ b => { b with restarting := false }) q.mbx.boxes }) :=
    kept_setBoxes h1 (Sparse.wf_mapVals _ _ _ h1.mbxCanonical.boxes) (Sparse.forall_mapVals _ _ _ (fun _ b hb =>
        hb) h1.rung)
  dsimp only
  refine raiseSource_keeps _ _ (kept_ite (answerActivate_keeps _ _ ?_) ?_) <;> exact State.setMpu_keeps _ _ _
      (kept_setFw _ h)

theorem execRestartComplete_keeps (t : Option Tenant) (s : State) (hs : Kept queue s) : OutKept queue
    (execRestartComplete t s) := by
  unfold execRestartComplete
  show Kept _ _
  refine kept_ite hs ?_
  cases t with
  | none => exact kept_ite (firmwareRuns_keeps _ hs) hs
  | some t => exact kept_ite hs (raiseSource_keeps _ _ (kept_modBox (depositDone_keeps _ _ hs) fun _ h => h))

theorem fwStage_keeps (s : State) (m : BitVec 7) (c : Snap) (fate : ImageFate) (hs : Kept queue s) : Kept queue
    (fwStage s m c fate) := by
  unfold fwStage
  dsimp only
  repeat (with_reducible refine kept_ite (refuseCmd_keeps _ _ _ _ hs) ?_)
  cases fate with
  | staged v => exact finish_keeps _ _ _ (kept_setFw _ hs)
  | signatureBad => exact finish_keeps _ _ _ (raiseSource_keeps _ _ (kept_setFw _ hs))
  | readFailed => exact finish_keeps _ _ _ (raiseSource_keeps _ _ (kept_setFw _ hs))
  | formatBad => exact finish_keeps _ _ _ (raiseSource_keeps _ _ (kept_setFw _ hs))

theorem execFwStage_keeps (mb : BitVec 7) (fate : ImageFate) (s : State) (hs : Kept queue s) : OutKept queue
    (execFwStage mb fate s) := by
  unfold execFwStage
  show Kept _ _
  repeat' first
    | (intro _)
    | (with_reducible first
      | assumption | apply runTaken_keeps | apply fwStage_keeps)

theorem fwActivate_keeps (s : State) (m : BitVec 7) (c : Snap) (hs : Kept queue s) : Kept queue (fwActivate s m c)
    := by
  unfold fwActivate
  dsimp only
  refine kept_ite (refuseCmd_keeps _ _ _ _ hs) (kept_ite (refuseCmd_keeps _ _ _ _ hs) (kept_ite (finish_keeps _ _
      _ (kept_setFw _ hs)) (kept_ite (assertBlock_keeps _ _ (kept_setFw _ hs)) ?_)))
  exact kept_setFw _ (restartFirmware_keeps _ (kept_modBox hs fun _ h => h))

theorem execFwActivate_keeps (mb : BitVec 7) (s : State) (hs : Kept queue s) : OutKept queue (execFwActivate mb s)
    := by
  unfold execFwActivate
  show Kept _ _
  repeat' first
    | (intro _)
    | (with_reducible first
      | assumption | apply runTaken_keeps | apply fwActivate_keeps)

theorem execNextStartOnly_keeps (mb : BitVec 7) (s : State) (hs : Kept queue s) : OutKept queue (execNextStartOnly
    mb s) := by
  unfold execNextStartOnly
  show Kept _ _
  repeat' first
    | (intro _)
    | (with_reducible first
      | assumption | apply runTaken_keeps | apply fwActivate_keeps)

theorem execFwFallback_keeps (s : State) (hs : Kept queue s) : OutKept queue (execFwFallback s) := by
  unfold execFwFallback
  show Kept _ _
  repeat' first
    | (with_reducible first
      | assumption | apply raiseSource_keeps | apply kept_setFw | apply kept_ite)

theorem clearAgentRam_keeps (s : State) (t : Tenant) (hs : Kept queue s) : Kept queue (clearAgentRam s t) := by
  unfold clearAgentRam
  extract_lets lo ram u
  have h : Sparse.wf none ram = true := Sparse.wf_foldl _ _ _ _ (fun m i h => Sparse.wf_set _ _ _ _ h)
      hs.acuCanonical.ram
  clear_value ram
  exact kept_setAcu hs h

theorem reloadKernelRam_keeps (s : State) (hs : Kept queue s) : Kept queue (reloadKernelRam s) := by
  unfold reloadKernelRam
  try dsimp only
  repeat' first
    | (intro _)
    | (with_reducible first
      | assumption | apply kept_setAcu | apply Sparse.wf_set | apply Sparse.wf_dropKeys | apply Sparse.wf_mapVals |
        apply wf_acu_ram | apply kept_foldl | apply kept_ite)
    | exact rfl
    | split

theorem reloadFirmware_keeps (s : State) (hs : Kept queue s) : Kept queue (reloadFirmware s) := by
  unfold reloadFirmware
  try dsimp only
  repeat' first
    | (intro _)
    | (with_reducible first
      | assumption | apply restartFirmware_keeps | apply reloadKernelRam_keeps | apply kept_setFw | apply
        kept_foldl | apply kept_ite)
    | split

theorem scrubLine_keeps (s : State) (l : LineId) (hs : Kept queue s) : Kept queue (scrubLine s l) := by
  unfold scrubLine
  try dsimp only
  repeat' first
    | (intro _)
    | (with_reducible first
      | assumption | apply readLine_keeps | apply reloadKernelRam_keeps | apply reloadFirmware_keeps | apply
        clearAgentRam_keeps | apply restartAgent_keeps | apply chargeFault_keeps | apply kept_foldl | apply
            kept_ite)
    | split

theorem execCtrlScrub_keeps (upsets : List Upset) (s : State) (hs : Kept queue s) : OutKept queue (execCtrlScrub
    upsets s) := by
  unfold execCtrlScrub
  show Kept _ _
  repeat' first
    | (with_reducible first
      | assumption | apply upset_keeps | apply scrubLine_keeps | apply kept_foldl | apply kept_ite)


/-! ## Machine/Loupe.lean -/

theorem loupeShadow_keeps (s : State) (hs : Kept queue s) : Kept queue (loupeShadow s) := by
  unfold loupeShadow
  extract_lets u n add sums
  have h : Sparse.wf 0 sums = true :=
    Sparse.wf_ite _ (Sparse.wf_foldl _ _ _ _ (fun m k h => Sparse.wf_set _ _ _ _ h) hs.loupeCanonical.sums) rfl
  exact kept_setDivider hs hs.loupeCanonical.ring h rfl hs.loupeCanonical.bins hs.dividerNext hs.dividerNext

theorem loupeTick_keeps (s : State) (hs : Kept queue s) : Kept queue (loupeTick s) := by
  unfold loupeTick
  repeat' first
    | (with_reducible first
      | assumption | apply kept_setLoupe | apply Sparse.wf_set | apply wf_loupe_ring | apply wf_loupe_now
      | apply wf_loupe_bins | apply kept_ite)
    | exact rfl

theorem writeDivider_keeps (s : State) (data : W32) (hs : Kept queue s) : Kept queue (writeDivider s data) := by
  unfold writeDivider
  dsimp only
  split
  · exact hs
  · rename_i h
    exact kept_setDivider hs hs.loupeCanonical.ring hs.loupeCanonical.sums hs.loupeCanonical.now
        hs.loupeCanonical.bins hs.divider (Nat.le_of_not_lt h)

theorem writeHistClear_keeps (s : State) (data : W32) (hs : Kept queue s) : Kept queue (writeHistClear s data) := by
  unfold writeHistClear
  repeat' first
    | (with_reducible first
      | assumption | apply kept_setLoupe | apply wf_loupe_ring | apply wf_loupe_sums | apply wf_loupe_now
      | apply clearBins_keeps | apply kept_ite)
    | exact rfl


/-! ## Machine/Frame.lean -/

theorem writePeriod_keeps (s : State) (data : W32) (hs : Kept queue s) : Kept queue (writePeriod s data) := by
  unfold writePeriod
  repeat' first
    | (with_reducible first
      | assumption | apply kept_setFrame | apply kept_ite)

theorem execPeriodChangeApply_keeps (s : State) (hs : Kept queue s) : OutKept queue (execPeriodChangeApply s) := by
  unfold execPeriodChangeApply
  show Kept _ _
  repeat' first
    | (with_reducible first
      | assumption | apply kept_setFrame | apply kept_ite)

theorem tickPeriod_keeps (s : State) (hs : Kept queue s) : Kept queue (tickPeriod s) := by
  unfold tickPeriod
  repeat' first
    | (with_reducible first
      | assumption | apply kept_setFrame | apply kept_ite)
    | split

theorem endFrame_keeps (s : State) (hs : Kept queue s) : Kept queue (endFrame s) := by
  unfold endFrame
  repeat' first
    | (with_reducible first
      | assumption | apply kept_setFrame)

theorem wakeTick_keeps (s : State) (l : BitVec 48) (hs : Kept queue s) : Kept queue (wakeTick s l) := by
  unfold wakeTick
  repeat' first
    | (with_reducible first
      | assumption | apply kept_setFrame | apply kept_setPwr | apply Sparse.wf_mapVals | apply wf_pwr_domains
      | apply kept_setTgt | apply wf_tgt_recs | apply wf_tgt_busy | apply wf_tgt_busyClear | apply wf_tgt_heldOff
      | apply kept_setTen | apply wf_ten_recs | apply wf_ten_blocks | apply wf_ten_clasp)
    | exact rfl

theorem countFrame_keeps (s : State) (late : Bool) (hs : Kept queue s) : Kept queue (countFrame s late) := by
  unfold countFrame
  try dsimp only
  repeat' first
    | (intro _)
    | (with_reducible first
      | assumption | apply kept_setTgt | apply Sparse.wf_set | apply Sparse.wf_dropKeys | apply Sparse.wf_mapVals |
        apply wf_tgt_recs | apply wf_tgt_busy | apply wf_tgt_busyClear | apply wf_tgt_heldOff | apply
            State.setUse_keeps | apply raiseSource_keeps | apply kept_setFrame | apply kept_foldl | apply kept_ite)
    | exact rfl
    | split

theorem stopInstant_keeps (s : State) (hs : Kept queue s) : Kept queue (stopInstant s) := by
  unfold stopInstant
  try dsimp only
  repeat' first
    | (intro _)
    | (with_reducible first
      | assumption | apply endFrame_keeps | apply countFrame_keeps | apply deadline_keeps | apply kept_setFrame |
        apply kept_setPwr | apply Sparse.wf_set | apply Sparse.wf_dropKeys | apply Sparse.wf_mapVals | apply
            wf_pwr_domains | apply kept_foldl | apply kept_ite)
    | exact rfl
    | split

theorem clearBusy_keeps (s : State) (hs : Kept queue s) : Kept queue (clearBusy s) := by
  unfold clearBusy
  repeat' first
    | (with_reducible first
      | assumption | apply kept_setTgt | apply Sparse.wf_dropKeys | apply wf_tgt_recs | apply wf_tgt_busy
      | apply wf_tgt_heldOff)
    | exact rfl

theorem tickClasp_keeps (s : State) (hs : Kept queue s) : Kept queue (tickClasp s) := by
  unfold tickClasp
  extract_lets held u s1
  have h1 : Kept queue s1 := kept_setTgt hs hs.tgtCanonical.recs hs.tgtCanonical.busy hs.tgtCanonical.busyClear
      (Sparse.wf_marks _ _ _ hs.tenCanonical.clasp)
  clear_value s1
  refine kept_setTen h1 h1.tenCanonical.recs h1.tenCanonical.blocks ?_
  exact Sparse.wf_mapVals _ _ _ h1.tenCanonical.clasp

theorem execClaspHoldoffEnd_keeps (g : BitVec 12) (s : State) (hs : Kept queue s) : OutKept queue
    (execClaspHoldoffEnd g s) := by
  unfold execClaspHoldoffEnd
  show Kept _ _
  repeat' first
    | (with_reducible first
      | assumption | apply kept_setTgt | apply Sparse.wf_set | apply wf_tgt_recs | apply wf_tgt_busy
      | apply wf_tgt_busyClear | apply wf_tgt_heldOff | apply kept_ite)

theorem tickTimers_keeps (s : State) (hs : Kept queue s) : Kept queue (tickTimers s) := by
  unfold tickTimers
  repeat' first
    | (with_reducible first
      | assumption | apply kept_setTgt | apply Sparse.wf_mapVals | apply wf_tgt_recs | apply wf_tgt_busy
      | apply wf_tgt_busyClear | apply wf_tgt_heldOff)

theorem showEntries_keeps (s : State) (hs : Kept queue s) : Kept queue (showEntries s) := by
  unfold showEntries
  repeat' first
    | (with_reducible first
      | assumption | apply kept_setTgt | apply Sparse.wf_mapVals | apply wf_tgt_recs | apply wf_tgt_busy
      | apply wf_tgt_busyClear | apply wf_tgt_heldOff)

theorem coldLevels_keeps (s : State) (hs : Kept queue s) : Kept queue (coldLevels s) := by
  unfold coldLevels
  repeat' first
    | (with_reducible first
      | assumption | apply kept_setBead | apply kept_setPwr | apply wf_pwr_domains | apply raiseSource_keeps
      | apply kept_foldl | apply kept_ite)
    | exact rfl

theorem wakeNotice_keeps (s : State) (hs : Kept queue s) : Kept queue (wakeNotice s) := by
  unfold wakeNotice
  repeat' first
    | (intro _)
    | (with_reducible first
      | assumption | apply State.modTenant_keeps | apply notify_keeps | apply kept_foldl | apply kept_ite)

theorem releaseNotices_keeps (s : State) (hs : Kept queue s) : Kept queue (releaseNotices s) := by
  unfold releaseNotices
  repeat' first
    | (intro _)
    | (with_reducible first
      | assumption | apply kept_setSys | apply wf_sys_latch | apply wf_sys_levels | apply wf_sys_held
      | apply kept_setTgt | apply wf_tgt_recs | apply wf_tgt_busy | apply wf_tgt_busyClear | apply wf_tgt_heldOff
      | apply applyDrop_keeps | apply park_keeps | apply kept_foldl)
    | exact rfl | split

theorem openWindow_keeps (s : State) (hs : Kept queue s) : Kept queue (openWindow s) := by
  unfold openWindow
  try dsimp only
  repeat' first
    | (intro _)
    | (with_reducible first
      | assumption | apply kept_setIntake | apply kept_foldl | apply kept_ite)
    | split

theorem memberLevels_keeps (s : State) (hs : Kept queue s) : Kept queue (memberLevels s) := by
  unfold memberLevels
  exact alignLevel_keeps _ (kept_foldl _ _ _ (fun t c h => setLevel_keeps _ _ _ h) hs)

theorem tickFront_keeps (s : State) (inp : TickIn) (hs : Kept queue s) : Kept queue (tickFront s inp) := by
  unfold tickFront
  try dsimp only
  repeat' first
    | (intro _)
    | (with_reducible first
      | assumption | apply upset_keeps | apply advanceLoads_keeps | apply deadline_keeps | apply tickAlign_keeps |
        apply countFrame_keeps | apply loupeShadow_keeps | apply wakeTick_keeps | apply kept_setFrame | apply
            endFrame_keeps | apply openWindow_keeps | apply tickTimers_keeps | apply tickClasp_keeps | apply
                clearBusy_keeps | apply coldLevels_keeps | apply tickPeriod_keeps | apply showEntries_keeps | apply
                    tickSweeps_keeps | apply tickTenants_keeps | apply loupeTick_keeps | apply kept_foldl | apply
                        kept_ite)
    | split

theorem tickBack_keeps (asked : TgtUnit) (s : State) (inp : TickIn) (hs : Kept queue s) : Kept queue (tickBack
    asked s inp) := by
  unfold tickBack
  dsimp only
  refine sendTicks_keeps _ _ (tickRing_keeps _ (memberLevels_keeps _ (tickLockLost_keeps _ _ (tickLockLost_keeps _
      _ ?_))))
  have h : Kept queue (tickPolish (beadRound (scanSys (scanMsg (wakeShortlists (decisionPass ((takeResyncSets
      (tickRefills asked s)).setTgt { (takeResyncSets (tickRefills asked s)).tgt with fabOut := [] })))))
      inp.wired)) :=
    tickPolish_keeps _ (beadRound_keeps _ _ (scanSys_keeps _ (scanMsg_keeps _ (wakeShortlists_keeps _
        (decisionPass_keeps _ (kept_tgt rfl rfl rfl rfl (takeResyncSets_keeps _ (tickRefills_keeps _ _ hs))))))))
  exact kept_ite (spareFault_keeps _ h) h

theorem tick_keeps (s : State) (inp : TickIn) (hs : Kept queue s) : Kept queue (tick s inp) := by
  unfold tick
  try dsimp only
  repeat' first
    | (intro _)
    | (with_reducible first
      | assumption | apply tickFront_keeps | apply tickBack_keeps | apply releaseNotices_keeps | apply
        wakeNotice_keeps | apply kept_foldl | apply kept_ite)
    | split

end Sys2Proof.Machine
end

