-- ==== Sys2Proof/Laws/CoherentAccess.lean ====
section
/-! SUPPORT. Coherence and the queue are kept by register accesses, debug and wake-up: one lemma for each operation. -/
namespace Sys2Proof.Machine

variable {queue : List Instr}

/-! ## Machine/RegsRead.lean -/

theorem clearTenantWord_keeps (s : State) (t : Tenant) (off : Nat) (hs : Kept queue s) : Kept queue
    (clearTenantWord s t off) := by
  unfold clearTenantWord
  repeat' first
    | (with_reducible first
      | assumption | apply State.modTenant_keeps)
    | split

theorem clearBoxWord_keeps (s : State) (m : BitVec 7) (off : Nat) (hs : Kept queue s) : Kept queue (clearBoxWord s
    m off) := by
  unfold clearBoxWord
  repeat' first
    | (intro _ hb; exact hb)
    | (with_reducible first
      | assumption | apply kept_modBox | apply kept_ite)

theorem clearTargetWord_keeps (s : State) (x : Slot) (reg : Nat) (hs : Kept queue s) : Kept queue (clearTargetWord
    s x reg) := by
  unfold clearTargetWord
  repeat' first
    | (with_reducible first
      | assumption | apply State.modTarget_keeps)
    | split

theorem clearFrameWord_keeps (s : State) (off : Nat) (hs : Kept queue s) : Kept queue (clearFrameWord s off) := by
  unfold clearFrameWord
  repeat' first
    | (with_reducible first
      | assumption | apply kept_setFrame)
    | split

theorem clearIntakeWord_keeps (s : State) (off : Nat) (hs : Kept queue s) : Kept queue (clearIntakeWord s off) := by
  unfold clearIntakeWord
  repeat' first
    | (with_reducible first
      | assumption | apply kept_setIntake | apply State.modTenant_keeps | apply kept_ite)

theorem clearVstateWord_keeps (s : State) (off : Nat) (hs : Kept queue s) : Kept queue (clearVstateWord s off) := by
  unfold clearVstateWord
  split
  · exact kept_vec rfl rfl rfl rfl rfl rfl hs
  · exact kept_vec rfl rfl rfl rfl rfl rfl hs
  · exact hs

theorem clearDeliveryWord_keeps (s : State) (off : Nat) (hs : Kept queue s) : Kept queue (clearDeliveryWord s off)
    := by
  unfold clearDeliveryWord
  repeat' first
    | (with_reducible first
      | assumption | apply kept_setTgt | apply wf_tgt_recs | apply wf_tgt_busy | apply wf_tgt_busyClear
      | apply wf_tgt_heldOff)
    | split

theorem clearCompletionWord_keeps (s : State) (off : Nat) (hs : Kept queue s) : Kept queue (clearCompletionWord s
    off) := by
  unfold clearCompletionWord
  repeat' first
    | (with_reducible first
      | assumption | apply kept_setTgt | apply wf_tgt_recs | apply wf_tgt_busy | apply wf_tgt_busyClear
      | apply wf_tgt_heldOff)
    | split

theorem clearMpuWord_keeps (s : State) (u : Nat) (off : Nat) (hs : Kept queue s) : Kept queue (clearMpuWord s u
    off) := by
  unfold clearMpuWord
  repeat' first
    | (with_reducible first
      | assumption | apply State.setMpu_keeps | apply kept_ite)

theorem clearPhyWord_keeps (s : State) (p : PortId) (off : Nat) (hs : Kept queue s) : Kept queue (clearPhyWord s p
    off) := by
  unfold clearPhyWord
  repeat' first
    | (with_reducible first
      | assumption | apply State.setPhy_keeps)
    | split

theorem clearLinkWord_keeps (s : State) (p : PortId) (off : Nat) (hs : Kept queue s) : Kept queue (clearLinkWord s
    p off) := by
  unfold clearLinkWord
  repeat' first
    | (with_reducible first
      | assumption | apply State.setLinkPort_keeps)
    | split

theorem clearRingWord_keeps (s : State) (off : Nat) (hs : Kept queue s) : Kept queue (clearRingWord s off) := by
  unfold clearRingWord
  repeat' first
    | (with_reducible first
      | assumption | apply kept_setChain | apply wf_chain_pairs)
    | split

theorem clearPowerWord_keeps (s : State) (off : Nat) (hs : Kept queue s) : Kept queue (clearPowerWord s off) := by
  unfold clearPowerWord
  repeat' first
    | (with_reducible first
      | assumption | apply kept_setPwr | apply wf_pwr_domains | apply kept_ite)
    | exact rfl

theorem clearRasWord_keeps (s : State) (off : Nat) (hs : Kept queue s) : Kept queue (clearRasWord s off) := by
  unfold clearRasWord
  repeat' first
    | (with_reducible first
      | assumption | apply kept_setRas | apply wf_ras_cursors | apply wf_ras_records)
    | split

theorem clearPageWord_keeps (s : State) (pg : Page) (off : Nat) (hs : Kept queue s) : Kept queue (clearPageWord s
    pg off) := by
  unfold clearPageWord
  repeat' first
    | (with_reducible first
      | assumption | apply clearIntakeWord_keeps | apply clearVstateWord_keeps | apply clearDeliveryWord_keeps
      | apply clearCompletionWord_keeps | apply clearMpuWord_keeps | apply clearPhyWord_keeps
      | apply clearLinkWord_keeps | apply clearRingWord_keeps | apply clearPowerWord_keeps | apply clearRasWord_keeps)
    | split

theorem latchFrame_keeps (s : State) (p : Path) (hs : Kept queue s) : Kept queue (latchFrame s p) := by
  unfold latchFrame
  repeat' first
    | (with_reducible first
      | assumption | apply State.modTenant_keeps | apply kept_setFrame)
    | split

theorem clearRead_keeps (s : State) (p : Path) (off : Nat) (hs : Kept queue s) : Kept queue (clearRead s p off) := by
  unfold clearRead
  cases p with
  | tenant t =>
    dsimp only
    refine kept_ite (clearTenantWord_keeps _ _ _ hs) (kept_ite (clearBoxWord_keeps _ _ _ hs) (kept_ite
        (State.modTenant_keeps _ _ _ hs) (kept_ite ?_ hs)))
    cases s.slotOf t (pageIndex off) with
    | some x => exact clearTargetWord_keeps _ _ _ hs
    | none => exact hs
  | _ =>
    dsimp only
    refine kept_ite (clearBoxWord_keeps _ _ _ hs) (kept_ite (clearFrameWord_keeps _ _ hs) (kept_ite (kept_ten rfl
        rfl rfl hs) ?_))
    cases pageOf off with
    | some e => exact clearPageWord_keeps _ _ _ hs
    | none => exact hs


/-! ## Machine/Debug.lean -/

theorem touchPlace_keeps (s : State) (p : Place) (hs : Kept queue s) : Kept queue (touchPlace s p) := by
  unfold touchPlace
  try dsimp only
  repeat' first
    | (intro _)
    | (with_reducible first
      | assumption | apply readCfg_keeps | apply peekSt_keeps | apply readTarget_keeps | apply readLine_keeps |
        apply kept_foldl | apply kept_ite)
    | split

theorem clearPlace_keeps (s : State) (p : Place) (hs : Kept queue s) : Kept queue (clearPlace s p) := by
  unfold clearPlace
  repeat' first
    | (with_reducible first
      | assumption | apply clearRead_keeps | apply clearBoxWord_keeps)
    | split

theorem writeBoxByte_keeps (s : State) (m : BitVec 7) (reg : Nat) (i : Nat) (b : Byte) (hs : Kept queue s) : Kept
    queue (writeBoxByte s m reg i b) := by
  unfold writeBoxByte
  split
  · exact kept_ite (writeDoorbell_keeps _ _ _ _ hs) hs
  · exact kept_ite (kept_modBox hs fun _ h => h) hs
  · refine kept_modBox hs fun b h => ?_
    split
    · exact writeSeq_takenRings _ _ h
    · exact h
  · exact hs

theorem writePlace_keeps (s : State) (p : Place) (b : Byte) (hs : Kept queue s) : Kept queue (writePlace s p b) := by
  unfold writePlace
  cases p with
  | command m i => exact kept_modBox hs fun _ h => writeCommandByte_takenRings _ _ _ h
  | reply m i => exact kept_modBox hs fun _ h => h
  | config v i => exact writeCfg_keeps _ _ _ (readCfg_keeps _ _ hs)
  | target x n => exact kept_ras rfl rfl (State.modTarget_keeps _ _ _ (touchTarget_keeps _ _ hs))
  | sysConfig n i => exact writeCfg_keeps _ _ _ (readCfg_keeps _ _ hs)
  | sysState n i => exact writeSt_keeps _ _ _ (readSt_keeps _ _ hs)
  | clasp g i => exact State.setClasp_keeps _ _ _ (touchClasp_keeps _ _ hs)
  | box m reg i => exact writeBoxByte_keeps _ _ _ _ _ hs
  | ram a =>
    refine kept_setAcu hs ?_
    exact Sparse.wf_set none s.acu.ram a (some b) hs.acuCanonical.ram
  | _ => exact hs

theorem performDebug_keeps (s : State) (hs : Kept queue s) : Kept queue (performDebug s) := by
  unfold performDebug
  repeat' first
    | (intro _)
    | (with_reducible first
      | assumption | apply writePlace_keeps | apply touchPlace_keeps | apply clearPlace_keeps | apply kept_setRas
      | apply wf_ras_cursors | apply wf_ras_records | apply kept_setAcu | apply wf_acu_ram | apply kept_foldl
      | apply kept_ite)

theorem refuseDebug_keeps (s : State) (hs : Kept queue s) : Kept queue (refuseDebug s) := by
  unfold refuseDebug
  repeat' first
    | (with_reducible first
      | assumption | apply kept_setAcu | apply wf_acu_ram)

theorem runDebug_keeps (s : State) (hs : Kept queue s) : Kept queue (runDebug s) := by
  unfold runDebug
  repeat' first
    | (with_reducible first
      | assumption | apply checkAccess_keeps | apply performDebug_keeps | apply refuseDebug_keeps | apply kept_ite)

theorem execDebugAccess_keeps (req : DebugReq) (s : State) (hs : Kept queue s) : OutKept queue (execDebugAccess
    req s) := by
  unfold execDebugAccess
  show Kept _ _
  repeat' first
    | (with_reducible first
      | assumption | apply kept_setAcu | apply wf_acu_ram | apply refuseDebug_keeps | apply runDebug_keeps
      | apply kept_ite)


/-! ## Machine/Regs.lean -/

theorem modAccess_keeps (s : State) (p : Path) (f : AccessRegs → AccessRegs) (hs : Kept queue s) : Kept queue
    (modAccess s p f) := by
  unfold modAccess
  repeat' first
    | (with_reducible first
      | assumption | apply State.modTenant_keeps | apply kept_setTen | apply wf_ten_recs | apply wf_ten_blocks
      | apply wf_ten_clasp)
    | split

theorem writeTenantWord_keeps (s : State) (t : Tenant) (off : Nat) (data : W32) (hs : Kept queue s) : Kept queue
    (writeTenantWord s t off data) := by
  unfold writeTenantWord
  repeat' first
    | (with_reducible first
      | assumption | apply State.modTenant_keeps | apply setLevel_keeps | apply clearFaults_keeps)
    | split

theorem writeBoxWord_keeps (s : State) (p : Path) (off : Nat) (data : W32) (hs : Kept queue s) : Kept queue
    (writeBoxWord s p off data) := by
  unfold writeBoxWord
  dsimp only
  split
  · exact kept_modBox hs fun b h => writeCommandBytes_takenRings _ _ _ h
  · split
    · exact writeDoorbell_keeps _ _ _ _ hs
    · exact kept_modBox hs fun _ h => h
    · exact kept_modBox hs fun _ h => writeSeq_takenRings _ _ h
    · exact hs

theorem writeSrcPage_keeps (s : State) (p : Path) (off : Nat) (data : W32) (hs : Kept queue s) : Kept queue
    (writeSrcPage s p off data) := by
  unfold writeSrcPage
  repeat' first
    | (with_reducible first
      | assumption | apply State.modTenant_keeps | apply kept_setTen | apply wf_ten_recs | apply wf_ten_blocks
      | apply wf_ten_clasp)
    | split

theorem writeView_keeps (s : State) (p : Path) (data : W32) (hs : Kept queue s) : Kept queue (writeView s p data)
    := by
  unfold writeView
  repeat' first
    | (with_reducible first
      | assumption | apply kept_setTen | apply wf_ten_recs | apply wf_ten_blocks | apply wf_ten_clasp)
    | split

theorem writeBind_keeps (s : State) (t : Tenant) (data : W32) (hs : Kept queue s) : Kept queue (writeBind s t
    data) := by
  unfold writeBind
  repeat' first
    | (with_reducible first
      | assumption | apply kept_setTen | apply wf_ten_recs | apply wf_ten_blocks | apply wf_ten_clasp
      | apply State.setTenant_keeps | apply kept_ite)

theorem writeFramePage_keeps (s : State) (off : Nat) (data : W32) (hs : Kept queue s) : Kept queue (writeFramePage
    s off data) := by
  unfold writeFramePage
  repeat' first
    | (with_reducible first
      | assumption | apply writePeriod_keeps | apply kept_setFrame)
    | split

theorem writeIntakePage_keeps (s : State) (off : Nat) (data : W32) (hs : Kept queue s) : Kept queue
    (writeIntakePage s off data) := by
  unfold writeIntakePage
  repeat' first
    | (with_reducible first
      | assumption | apply kept_setIntake | apply writeIntakeBase_keeps | apply writeChainEvent_keeps
      | apply writeWeight_keeps)
    | split

theorem writeDeliveryPage_keeps (s : State) (off : Nat) (data : W32) (hs : Kept queue s) : Kept queue
    (writeDeliveryPage s off data) := by
  unfold writeDeliveryPage
  repeat' first
    | (with_reducible first
      | assumption | apply kept_setTgt | apply wf_tgt_recs | apply wf_tgt_busy | apply wf_tgt_busyClear
      | apply wf_tgt_heldOff)
    | split

theorem writeTenantsPage_keeps (s : State) (off : Nat) (data : W32) (hs : Kept queue s) : Kept queue
    (writeTenantsPage s off data) := by
  unfold writeTenantsPage
  repeat' first
    | (with_reducible first
      | assumption | apply writeBind_keeps | apply kept_setTen | apply wf_ten_recs | apply wf_ten_blocks
      | apply wf_ten_clasp | apply kept_ite)

theorem writeMpuPage_keeps (s : State) (u : Nat) (off : Nat) (data : W32) (hs : Kept queue s) : Kept queue
    (writeMpuPage s u off data) := by
  unfold writeMpuPage
  try dsimp only
  repeat' first
    | (intro _)
    | (with_reducible first
      | assumption | apply runDebug_keeps | apply advanceLoads_keeps | apply writeMpuCtrl_keeps | apply
        State.setMpu_keeps | apply writeRegion_keeps | apply kept_foldl | apply kept_ite)
    | split

theorem writePhyPage_keeps (s : State) (p : PortId) (off : Nat) (data : W32) (hs : Kept queue s) : Kept queue
    (writePhyPage s p off data) := by
  unfold writePhyPage
  repeat' first
    | (with_reducible first
      | assumption | apply State.setPhy_keeps | apply kept_ite)

theorem writeLinkPage_keeps (s : State) (p : PortId) (off : Nat) (data : W32) (hs : Kept queue s) : Kept queue
    (writeLinkPage s p off data) := by
  unfold writeLinkPage
  repeat' first
    | (with_reducible first
      | assumption | apply State.setLinkPort_keeps | apply kept_ite)

theorem writeRingPage_keeps (s : State) (off : Nat) (data : W32) (hs : Kept queue s) : Kept queue (writeRingPage s
    off data) := by
  unfold writeRingPage
  repeat' first
    | (with_reducible first
      | assumption | apply kept_setChain | apply wf_chain_pairs | apply kept_ite)

theorem writeBeadPage_keeps (s : State) (off : Nat) (data : W32) (hs : Kept queue s) : Kept queue (writeBeadPage s
    off data) := by
  unfold writeBeadPage
  repeat' first
    | (with_reducible first
      | assumption | apply kept_setBead)
    | split

theorem writePowerPage_keeps (s : State) (off : Nat) (data : W32) (hs : Kept queue s) : Kept queue (writePowerPage
    s off data) := by
  unfold writePowerPage
  repeat' first
    | (with_reducible first
      | assumption | apply kept_setPwr | apply wf_pwr_domains | apply State.setDom_keeps)
    | exact rfl | split

theorem writeRasPage_keeps (s : State) (off : Nat) (data : W32) (hs : Kept queue s) : Kept queue (writeRasPage s
    off data) := by
  unfold writeRasPage
  repeat' first
    | (with_reducible first
      | assumption | apply kept_setRas | apply wf_ras_cursors | apply wf_ras_records | apply writeInject_keeps)
    | split

theorem writeHallmarkPage_keeps (s : State) (off : Nat) (data : W32) (hs : Kept queue s) : Kept queue
    (writeHallmarkPage s off data) := by
  unfold writeHallmarkPage
  repeat' first
    | (with_reducible first
      | assumption | apply writeHmCtrl_keeps | apply kept_setHm)
    | exact rfl | split

theorem writePage_keeps (s : State) (pg : Page) (off : Nat) (data : W32) (hs : Kept queue s) : Kept queue
    (writePage s pg off data) := by
  unfold writePage
  repeat' first
    | (with_reducible first
      | assumption | apply writeIntakePage_keeps | apply kept_setVec | apply wf_vec_cfg | apply wf_vec_st
      | apply wf_vec_sysCfg | apply wf_vec_sysSt | apply wf_vec_lost | apply wf_vec_reloaded
      | apply writeDeliveryPage_keeps | apply kept_setTgt | apply wf_tgt_recs | apply wf_tgt_busy
      | apply wf_tgt_busyClear | apply wf_tgt_heldOff | apply writeTenantsPage_keeps | apply writeMpuPage_keeps
      | apply writePhyPage_keeps | apply kept_setChain | apply wf_chain_pairs | apply writeLinkPage_keeps
      | apply writeRingPage_keeps | apply writeBeadPage_keeps | apply writePowerPage_keeps | apply writeRasPage_keeps
      | apply writeHallmarkPage_keeps | apply writeDivider_keeps | apply writeHistClear_keeps)
    | split

theorem writeCompletion_keeps (s : State) (p : Path) (page : BitVec 10) (reg : Nat) (bytes : Nat) (full : Bool)
    (data : W64) (hs : Kept queue s) : Kept queue (writeCompletion s p page reg bytes full data) := by
  unfold writeCompletion
  repeat' first
    | (with_reducible first
      | assumption | apply queueCompletion_keeps)
    | split

theorem writePageReg_keeps (s : State) (p : Path) (page : BitVec 10) (reg : Nat) (data : W32) (hs : Kept queue s)
    : Kept queue (writePageReg s p page reg data) := by
  unfold writePageReg
  repeat' first
    | (with_reducible first
      | assumption | apply writeTargetPage_keeps)
    | split

theorem writeWord_keeps (s : State) (p : Path) (off : Nat) (data : W32) (hs : Kept queue s) : Kept queue
    (writeWord s p off data) := by
  unfold writeWord
  refine kept_ite (modAccess_keeps _ _ _ hs) (kept_ite (writeBoxWord_keeps _ _ _ _ hs) (kept_ite
      (writeSrcPage_keeps _ _ _ _ hs) ?_))
  cases pathTenant p with
  | some t => exact kept_ite (writeTenantWord_keeps _ _ _ _ hs) hs
  | none =>
    dsimp only
    refine kept_ite (writeView_keeps _ _ _ hs) (kept_ite (writeTenantWord_keeps _ _ _ _ hs) (kept_ite
        (writeFramePage_keeps _ _ _ hs) ?_))
    cases pageOf off with
    | some e => exact writePage_keeps _ _ _ _ hs
    | none => exact hs

theorem touchRead_keeps (s : State) (p : Path) (off : Nat) (hs : Kept queue s) : Kept queue (touchRead s p off) :=
    by
  unfold touchRead
  try dsimp only
  repeat' first
    | (intro _)
    | (with_reducible first
      | assumption | apply peekSt_keeps | apply readCfg_keeps | apply readTarget_keeps | apply readLine_keeps |
        apply kept_foldl | apply kept_ite)
    | split

theorem setHalf_keeps (s : State) (p : Path) (h : Option (BitVec 22 × W32)) (hs : Kept queue s) : Kept queue
    (setHalf s p h) := by
  unfold setHalf
  repeat' first
    | (with_reducible first
      | assumption | apply kept_setBnd)
    | split

theorem readWord_keeps (s : State) (p : Path) (off : Nat) (hs : Kept queue s) : Kept queue (readWord s p off).1 := by
  unfold readWord
  try dsimp only
  repeat' first
    | (with_reducible first
      | assumption | apply setHalf_keeps | apply touchRead_keeps | apply clearRead_keeps | apply latchFrame_keeps)
    | split

theorem readWords_keeps (s : State) (p : Path) (off : Nat) (n : Nat) (hs : Kept queue s) : Kept queue (readWords s
    p off n).1 := by
  unfold readWords
  refine kept_foldl_fst _ _ _ (fun r k h => ?_) hs
  dsimp only
  split
  · exact readWord_keeps _ _ _ h
  · exact h

theorem holdAccess_keeps (s : State) (a : RegAccess) (hs : Kept queue s) : Kept queue (holdAccess s a) := by
  unfold holdAccess
  try dsimp only
  repeat' first
    | (intro _)
    | (with_reducible first
      | assumption | apply kept_setPwr | apply Sparse.wf_set | apply Sparse.wf_dropKeys | apply Sparse.wf_mapVals |
        apply wf_pwr_domains | apply wake_keeps | apply kept_foldl | apply kept_ite)
    | exact rfl
    | split

theorem writeTarget_keeps (s : State) (a : RegAccess) (hs : Kept queue s) : Kept queue (writeTarget s a) := by
  unfold writeTarget
  try dsimp only
  repeat' first
    | (with_reducible first
      | assumption | apply captureCompletion_keeps | apply capture_keeps | apply writeCompletion_keeps
      | apply writePageReg_keeps)
    | split

theorem performWrite_keeps (s : State) (a : RegAccess) (hs : Kept queue s) : Kept queue (performWrite s a) := by
  unfold performWrite
  try dsimp only
  repeat' first
    | (with_reducible first
      | assumption | apply sourceOpWrite_keeps | apply writeTarget_keeps | apply writeWord_keeps)
    | split

theorem performRead_keeps (s : State) (a : RegAccess) (hs : Kept queue s) : Kept queue (performRead s a) := by
  unfold performRead
  repeat' first
    | (with_reducible first
      | assumption | apply readWords_keeps | apply kept_setBnd)

theorem readZero_keeps (s : State) (a : RegAccess) (hs : Kept queue s) : Kept queue (readZero s a) := by
  unfold readZero
  repeat' first
    | (with_reducible first
      | assumption | apply kept_setBnd)

theorem perform_keeps (s : State) (a : RegAccess) (hs : Kept queue s) : Kept queue (perform s a) := by
  unfold perform
  repeat' first
    | (with_reducible first
      | assumption | apply readZero_keeps | apply performWrite_keeps | apply performRead_keeps | apply kept_ite)

theorem submit_keeps (s : State) (a : RegAccess) (hs : Kept queue s) : Kept queue (submit s a) := by
  unfold submit
  repeat' first
    | (with_reducible first
      | assumption | apply perform_keeps | apply holdAccess_keeps | apply kept_ite)

theorem recordAccess_keeps (s : State) (a : RegAccess) (hs : Kept queue s) : Kept queue (recordAccess s a) := by
  unfold recordAccess
  repeat' first
    | (with_reducible first
      | assumption | apply modAccess_keeps)

theorem refuseAccess_keeps (s : State) (a : RegAccess) (hs : Kept queue s) : Kept queue (refuseAccess s a) := by
  unfold refuseAccess
  try dsimp only
  repeat' first
    | (intro _)
    | (with_reducible first
      | assumption | apply recordAccess_keeps | apply readZero_keeps | apply submit_keeps | apply kept_foldl |
        apply kept_ite)
    | split

theorem earlyAccess_keeps (s : State) (a : RegAccess) (hs : Kept queue s) : Kept queue (earlyAccess s a) := by
  unfold earlyAccess
  repeat' first
    | (with_reducible first
      | assumption | apply performWrite_keeps | apply performRead_keeps | apply readZero_keeps | apply kept_ite)

theorem access_keeps (s : State) (a : RegAccess) (hs : Kept queue s) : Kept queue (access s a) := by
  unfold access
  repeat' first
    | (with_reducible first
      | assumption | apply earlyAccess_keeps | apply submit_keeps | apply refuseAccess_keeps | apply kept_ite)

theorem write4_keeps (s : State) (p : Path) (off : Nat) (data : W32) (hs : Kept queue s) : Kept queue (write4 s p
    off data) := by
  unfold write4
  repeat' first
    | (with_reducible first
      | assumption | apply access_keeps)

theorem fmWrite4_keeps (s : State) (p : Path) (off : Nat) (data : W32) (hs : Kept queue s) : Kept queue (fmWrite4
    s p off data) := by
  unfold fmWrite4
  repeat' first
    | (with_reducible first
      | assumption | apply write4_keeps | apply kept_ite)

theorem execRegisterRead_keeps (p : Path) (offset : BitVec 22) (bytes : Nat) (fullBe : Bool) (s : State) (hs :
    Kept queue s) : OutKept queue (execRegisterRead p offset bytes fullBe s) := by
  unfold execRegisterRead
  show Kept _ _
  repeat' first
    | (with_reducible first
      | assumption | apply access_keeps)

theorem execRegisterWrite_keeps (p : Path) (offset : BitVec 22) (bytes : Nat) (fullBe : Bool) (data : W64) (s :
    State) (hs : Kept queue s) : OutKept queue (execRegisterWrite p offset bytes fullBe data s) := by
  unfold execRegisterWrite
  show Kept _ _
  repeat' first
    | (with_reducible first
      | assumption | apply access_keeps)

theorem execFrameCountLoRead_keeps (p : Path) (s : State) (hs : Kept queue s) : OutKept queue
    (execFrameCountLoRead p s) := by
  unfold execFrameCountLoRead
  show Kept _ _
  repeat' first
    | (with_reducible first
      | assumption | apply access_keeps)

theorem execSmbusBlockWrite_keeps (offset : W32) (data : List W32) (pecOk : Bool) (s : State) (hs : Kept queue s)
    : OutKept queue (execSmbusBlockWrite offset data pecOk s) := by
  unfold execSmbusBlockWrite
  show Kept _ _
  repeat' first
    | (intro _)
    | (with_reducible first
      | assumption | apply kept_setBnd | apply write4_keeps | apply kept_foldl | apply kept_ite)

theorem earlyWords_keeps (s : State) (off : Nat) (n : Nat) (hs : Kept queue s) : Kept queue (earlyWords s off n)
    := by
  unfold earlyWords
  refine kept_setBnd _ (kept_foldl_fst _ _ _ (fun p k h => ?_) hs)
  dsimp only
  split
  · exact readWord_keeps _ _ _ h
  · exact h

theorem execSmbusProcessCall_keeps (offset : W32) (count : Byte) (pecOk : Bool) (s : State) (hs : Kept queue s) :
    OutKept queue (execSmbusProcessCall offset count pecOk s) := by
  unfold execSmbusProcessCall
  show Kept _ _
  try dsimp only
  repeat' first
    | (intro _)
    | (with_reducible first
      | assumption | apply kept_setBnd | apply readZero_keeps | apply earlyWords_keeps | apply submit_keeps | apply
        kept_foldl | apply kept_ite)
    | split

theorem execMailboxRing_keeps (p : Path) (s : State) (hs : Kept queue s) : OutKept queue (execMailboxRing p s) := by
  unfold execMailboxRing
  show Kept _ _
  repeat' first
    | (with_reducible first
      | assumption | apply write4_keeps)

theorem execMailboxCancel_keeps (p : Path) (s : State) (hs : Kept queue s) : OutKept queue (execMailboxCancel p s)
    := by
  unfold execMailboxCancel
  show Kept _ _
  repeat' first
    | (with_reducible first
      | assumption | apply write4_keeps)

theorem execSrcSetPending_keeps (p : Path) (data : W32) (requester : BitVec 16) (s : State) (hs : Kept queue s) :
    OutKept queue (execSrcSetPending p data requester s) := by
  unfold execSrcSetPending
  show Kept _ _
  repeat' first
    | (with_reducible first
      | assumption | apply access_keeps)

theorem execSrcClrPending_keeps (p : Path) (data : W32) (s : State) (hs : Kept queue s) : OutKept queue
    (execSrcClrPending p data s) := by
  unfold execSrcClrPending
  show Kept _ _
  repeat' first
    | (with_reducible first
      | assumption | apply write4_keeps)

theorem execSrcSetEnable_keeps (p : Path) (data : W32) (s : State) (hs : Kept queue s) : OutKept queue
    (execSrcSetEnable p data s) := by
  unfold execSrcSetEnable
  show Kept _ _
  repeat' first
    | (with_reducible first
      | assumption | apply write4_keeps)

theorem execSrcClrEnable_keeps (p : Path) (data : W32) (s : State) (hs : Kept queue s) : OutKept queue
    (execSrcClrEnable p data s) := by
  unfold execSrcClrEnable
  show Kept _ _
  repeat' first
    | (with_reducible first
      | assumption | apply write4_keeps)

theorem execSrcClrSticky_keeps (p : Path) (data : W32) (s : State) (hs : Kept queue s) : OutKept queue
    (execSrcClrSticky p data s) := by
  unfold execSrcClrSticky
  show Kept _ _
  repeat' first
    | (with_reducible first
      | assumption | apply write4_keeps)

theorem writeForm_keeps (s : State) (p : Path) (page : BitVec 10) (reg : Nat) (form : WriteForm) (data : W64) (hs
    : Kept queue s) : Kept queue (writeForm s p page reg form data) := by
  unfold writeForm
  repeat' first
    | (with_reducible first
      | assumption | apply access_keeps)

theorem execTgtComplete_keeps (p : Path) (page : BitVec 10) (form : WriteForm) (data : W64) (s : State) (hs : Kept
    queue s) : OutKept queue (execTgtComplete p page form data s) := by
  unfold execTgtComplete
  show Kept _ _
  repeat' first
    | (with_reducible first
      | assumption | apply writeForm_keeps)

theorem execTgtCompleteSeq_keeps (p : Path) (page : BitVec 10) (form : WriteForm) (data : W64) (s : State) (hs :
    Kept queue s) : OutKept queue (execTgtCompleteSeq p page form data s) := by
  unfold execTgtCompleteSeq
  show Kept _ _
  repeat' first
    | (with_reducible first
      | assumption | apply writeForm_keeps)

theorem execTgtPrivSet_keeps (p : Path) (page : BitVec 10) (data : W32) (s : State) (hs : Kept queue s) : OutKept
    queue (execTgtPrivSet p page data s) := by
  unfold execTgtPrivSet
  show Kept _ _
  repeat' first
    | (with_reducible first
      | assumption | apply write4_keeps)

theorem execTgtPrivClr_keeps (p : Path) (page : BitVec 10) (data : W32) (s : State) (hs : Kept queue s) : OutKept
    queue (execTgtPrivClr p page data s) := by
  unfold execTgtPrivClr
  show Kept _ _
  repeat' first
    | (with_reducible first
      | assumption | apply write4_keeps)

theorem execTgtPrivEnable_keeps (p : Path) (page : BitVec 10) (data : W32) (s : State) (hs : Kept queue s) :
    OutKept queue (execTgtPrivEnable p page data s) := by
  unfold execTgtPrivEnable
  show Kept _ _
  repeat' first
    | (with_reducible first
      | assumption | apply write4_keeps)

theorem execTgtCtrl_keeps (p : Path) (page : BitVec 10) (data : W32) (s : State) (hs : Kept queue s) : OutKept
    queue (execTgtCtrl p page data s) := by
  unfold execTgtCtrl
  show Kept _ _
  repeat' first
    | (with_reducible first
      | assumption | apply write4_keeps)

theorem execTgtTimerCtrl_keeps (p : Path) (page : BitVec 10) (data : W32) (s : State) (hs : Kept queue s) :
    OutKept queue (execTgtTimerCtrl p page data s) := by
  unfold execTgtTimerCtrl
  show Kept _ _
  repeat' first
    | (with_reducible first
      | assumption | apply write4_keeps)

theorem execPeriodRequest_keeps (p : Path) (data : W32) (s : State) (hs : Kept queue s) : OutKept queue
    (execPeriodRequest p data s) := by
  unfold execPeriodRequest
  show Kept _ _
  repeat' first
    | (with_reducible first
      | assumption | apply fmWrite4_keeps)

theorem execIntakeBaseWrite_keeps (p : Path) (high : Bool) (data : W32) (s : State) (hs : Kept queue s) : OutKept
    queue (execIntakeBaseWrite p high data s) := by
  unfold execIntakeBaseWrite
  show Kept _ _
  repeat' first
    | (with_reducible first
      | assumption | apply fmWrite4_keeps)

theorem execWeightWrite_keeps (p : Path) (t : Tenant) (data : W32) (s : State) (hs : Kept queue s) : OutKept queue
    (execWeightWrite p t data s) := by
  unfold execWeightWrite
  show Kept _ _
  repeat' first
    | (with_reducible first
      | assumption | apply fmWrite4_keeps)

theorem execChainEvent_keeps (p : Path) (data : W32) (s : State) (hs : Kept queue s) : OutKept queue
    (execChainEvent p data s) := by
  unfold execChainEvent
  show Kept _ _
  repeat' first
    | (with_reducible first
      | assumption | apply fmWrite4_keeps)

theorem execTenantBind_keeps (p : Path) (t : Tenant) (data : W32) (s : State) (hs : Kept queue s) : OutKept queue
    (execTenantBind p t data s) := by
  unfold execTenantBind
  show Kept _ _
  repeat' first
    | (with_reducible first
      | assumption | apply fmWrite4_keeps)

theorem execViewSelect_keeps (p : Path) (data : W32) (s : State) (hs : Kept queue s) : OutKept queue
    (execViewSelect p data s) := by
  unfold execViewSelect
  show Kept _ _
  repeat' first
    | (with_reducible first
      | assumption | apply fmWrite4_keeps)

theorem execFmRestart_keeps (p : Path) (data : W32) (s : State) (hs : Kept queue s) : OutKept queue (execFmRestart
    p data s) := by
  unfold execFmRestart
  show Kept _ _
  repeat' first
    | (with_reducible first
      | assumption | apply fmWrite4_keeps)

theorem execRasInject_keeps (p : Path) (data : W32) (s : State) (hs : Kept queue s) : OutKept queue (execRasInject
    p data s) := by
  unfold execRasInject
  show Kept _ _
  repeat' first
    | (with_reducible first
      | assumption | apply fmWrite4_keeps)

theorem execHistClear_keeps (p : Path) (data : W32) (s : State) (hs : Kept queue s) : OutKept queue (execHistClear
    p data s) := by
  unfold execHistClear
  show Kept _ _
  repeat' first
    | (with_reducible first
      | assumption | apply fmWrite4_keeps)

theorem execMpuEnableWrite_keeps (p : Path) (unit : BitVec 2) (data : W32) (s : State) (hs : Kept queue s) :
    OutKept queue (execMpuEnableWrite p unit data s) := by
  unfold execMpuEnableWrite
  show Kept _ _
  repeat' first
    | (with_reducible first
      | assumption | apply fmWrite4_keeps)

theorem execMpuSync_keeps (p : Path) (unit : BitVec 2) (s : State) (hs : Kept queue s) : OutKept queue
    (execMpuSync p unit s) := by
  unfold execMpuSync
  show Kept _ _
  repeat' first
    | (with_reducible first
      | assumption | apply access_keeps | apply fmWrite4_keeps | apply kept_ite)

theorem execMpuRegionWrite_keeps (p : Path) (unit : BitVec 2) (region : BitVec 4) (reg : BitVec 2) (data : W32) (s
    : State) (hs : Kept queue s) : OutKept queue (execMpuRegionWrite p unit region reg data s) := by
  unfold execMpuRegionWrite
  show Kept _ _
  repeat' first
    | (with_reducible first
      | assumption | apply fmWrite4_keeps)


/-! ## Machine/Wake.lean -/

theorem resume_keeps (s : State) (hs : Kept queue s) : Kept queue (resume s) := by
  unfold resume
  try dsimp only
  repeat' first
    | (intro _)
    | (with_reducible first
      | assumption | apply submit_keeps | apply kept_setPwr | apply Sparse.wf_set | apply Sparse.wf_dropKeys |
        apply Sparse.wf_mapVals | apply wf_pwr_domains | apply kept_foldl | apply kept_ite)
    | exact rfl
    | split

theorem releaseWaiting_keeps (s : State) (hs : Kept queue s) : Kept queue (releaseWaiting s) := by
  unfold releaseWaiting
  try dsimp only
  repeat' first
    | (intro _)
    | (with_reducible first
      | assumption | apply runDebug_keeps | apply advanceLoads_keeps | apply resume_keeps | apply
        releaseHeldNotices_keeps | apply kept_foldl | apply kept_ite)
    | split

theorem execLogicRdy_keeps (d : BitVec 4) (exitUs : BitVec 8) (lkt : BitVec 48) (s : State) (hs : Kept queue s) :
    OutKept queue (execLogicRdy d exitUs lkt s) := by
  unfold execLogicRdy
  show Kept _ _
  repeat' first
    | (with_reducible first
      | assumption | apply releaseWaiting_keeps | apply logicRdy_keeps)

theorem execIntakeDrain_keeps (s : State) (hs : Kept queue s) : OutKept queue (execIntakeDrain s) := by
  unfold execIntakeDrain
  show Kept _ _
  try dsimp only
  repeat' first
    | (intro _)
    | (with_reducible first
      | assumption | apply resume_keeps | apply intakeStep_keeps | apply kept_foldl | apply kept_ite)
    | split

theorem execCompletionDrain_keeps (s : State) (hs : Kept queue s) : OutKept queue (execCompletionDrain s) := by
  unfold execCompletionDrain
  show Kept _ _
  try dsimp only
  repeat' first
    | (intro _)
    | (with_reducible first
      | assumption | apply resume_keeps | apply completionStep_keeps | apply kept_foldl | apply kept_ite)
    | split

theorem execPrivateLaneApply_keeps (s : State) (hs : Kept queue s) : OutKept queue (execPrivateLaneApply s) := by
  unfold execPrivateLaneApply
  show Kept _ _
  try dsimp only
  repeat' first
    | (intro _)
    | (with_reducible first
      | assumption | apply resume_keeps | apply privateStep_keeps | apply kept_foldl | apply kept_ite)
    | split

theorem execFrameTick_keeps (inp : TickIn) (s : State) (hs : Kept queue s) : OutKept queue (execFrameTick inp s) :=
    by
  unfold execFrameTick
  show Kept _ _
  try dsimp only
  repeat' first
    | (intro _)
    | (with_reducible first
      | assumption | apply stopInstant_keeps | apply resume_keeps | apply tick_keeps | apply kept_foldl | apply
        kept_ite)
    | split

theorem firstTick_keeps (s : State) (inp : TickIn) (hs : Kept queue s) : Kept queue (firstTick s inp) := by
  unfold firstTick
  try dsimp only
  repeat' first
    | (intro _)
    | (with_reducible first
      | assumption | apply upset_keeps | apply tickBack_keeps | apply loupeTick_keeps | apply kept_foldl | apply
        kept_ite)
    | split

theorem execResetRelease_keeps (env : StartEnv) (s : State) (hs : Kept queue s) : OutKept queue (execResetRelease
    env s) := by
  unfold execResetRelease
  show Kept _ _
  try dsimp only
  repeat' first
    | (intro _)
    | (with_reducible first
      | assumption | apply firstTick_keeps | apply runStart_keeps | apply kept_foldl | apply kept_ite)
    | split

theorem captureStep_keeps (s : State) (hs : Kept queue s) : Kept queue (captureStep s) := by
  unfold captureStep
  try dsimp only
  repeat' first
    | (intro _)
    | (with_reducible first
      | assumption | apply wakeQuarter_keeps | apply releaseWaiting_keeps | apply drainCapture_keeps | apply
          kept_foldl)
    | split

theorem execCaptureDrain_keeps (s : State) (hs : Kept queue s) : OutKept queue (execCaptureDrain s) := by
  unfold execCaptureDrain
  show Kept _ _
  repeat' first
    | (with_reducible first
      | assumption | apply captureStep_keeps)

theorem execMpuConfigWrite_keeps (mb : BitVec 7) (s : State) (hs : Kept queue s) : OutKept queue
    (execMpuConfigWrite mb s) := by
  unfold execMpuConfigWrite
  show Kept _ _
  try dsimp only
  repeat' first
    | (intro _)
    | (with_reducible first
      | assumption | apply runDebug_keeps | apply runTaken_keeps | apply mpuConfig_keeps | apply kept_foldl | apply
        kept_ite)
    | split

end Sys2Proof.Machine
end

