-- ==== Sys2Proof/Laws/Intake.lean ====
section
/-! SUPPORT. A drain slot of the intake: the state in which the entry that has left its queue is acted on. -/
namespace Sys2Proof.Machine

variable {s : State}

theorem crowded_use (s : State) : ∃ w, (if s.crowded then exceed s else s) = s.setUse w ∧ w.banks = s.frame.use.banks := by
  split
  · exact ⟨_, rfl, rfl⟩
  · exact ⟨s.frame.use, rfl, rfl⟩

/-- A drain slot of the tenant whose turn it is, for an entry of the crossbar pool that does not wait: the entry leaves
the queue, its credit returns, the slot is counted in the frame's use, and it is acted on. -/
theorem intakeStep_entry (hc : Coherent s) {e : QEntry} {rest : List QEntry} (hh : s.ServesHead e rest)
    (hw : s.headWaits e = false) :
    ∃ v, intakeStep s = (match e.kind with
        | .edge owner => drainEdge v s.intake.turn e owner none
        | .chainEdge origin => drainEdge v s.intake.turn e 0 (some origin)
        | .op o fm => drainOp v s.intake.turn e o fm) ∧
      Kept s.pending v ∧ OnlyChanges [.ten, .loupe, .frame] s v ∧ SameButUse s v ∧
      v.tenant s.intake.turn = { s.tenant s.intake.turn with
        queue := rest, deficit := (s.tenant s.intake.turn).deficit - 1
        credits := if (s.tenant s.intake.turn).credits.toNat < 440 then (s.tenant s.intake.turn).credits + 1
          else (s.tenant s.intake.turn).credits } ∧
      (∀ m, m ≠ s.intake.turn → v.tenant m = s.tenant m) ∧
      (∀ y, v.rangeOwner y = s.rangeOwner y) ∧ (∀ y, v.mapOwner y = s.mapOwner y) ∧ (∀ y, v.slotOwner y = s.slotOwner y) := by
  obtain ⟨-, -, lane, -, h, hq, hd, hp, -⟩ := hh
  have hwf := hc.tenCanonical.recs
  have hks : Kept s.pending s := ⟨hc, rfl⟩
  obtain ⟨w0, e0, b0⟩ := crowded_use s
  have hw0 : (s.setUse w0).headWaits e = false := by
    have b : ∀ b, (s.setUse w0).bankUse b = s.bankUse b := fun b => congrArg (fun m => Sparse.get 0 m b) b0
    have o : (s.setUse w0).banksOpen (msgSrc e.vector.toNat) 2 = s.banksOpen (msgSrc e.vector.toNat) 2 := by
      unfold State.banksOpen
      split
      · simp only [b]; rfl
      · rfl
    rw [← hw]
    unfold State.headWaits
    rw [o]
    rfl
  obtain ⟨use, hds⟩ := drainSlot_turn (s := s.setUse w0) hq hd h hw0
  have hds : intakeStep s = drainEntry ((s.setUse use).setTenant s.intake.turn { s.tenant s.intake.turn with
      queue := rest, deficit := (s.tenant s.intake.turn).deficit - 1 }) s.intake.turn e := by
    unfold intakeStep
    rw [if_pos lane, e0]
    exact hds
  generalize hn : s.intake.turn = n at *
  have hku0 : Kept s.pending (s.setUse use) := State.setUse_keeps _ _ hks
  generalize hu : ((s.setUse use).setTenant n { s.tenant n with
      queue := rest, deficit := (s.tenant n).deficit - 1 }) = u at hds
  have hun : u.tenant n = { s.tenant n with queue := rest, deficit := (s.tenant n).deficit - 1 } := by
    rw [← hu]; exact State.setTenant_tenant_self _ _ _ hwf
  have hum : ∀ m, m ≠ n → u.tenant m = s.tenant m := by
    intro m hm; rw [← hu]; exact State.setTenant_tenant_ne _ _ _ _ hm
  have huo : OnlyChanges [.ten, .frame] s u := by
    rw [← hu]; exact ((setUse_only _).mono (by decide)).trans ((setTenant_only _ _).mono (by decide))
  have hku : Kept s.pending u := by rw [← hu]; exact State.setTenant_keeps _ _ _ hku0
  have huw := hku.tenCanonical.recs
  refine ⟨(returnCredit u n).count 1 1, ?_, ?_, ?_, ?_, ?_, ?_, ?_, ?_, ?_⟩
  · rw [hds]
    unfold drainEntry releaseEntry
    simp only [hp]
    all_goals rfl
  · exact State.count_keeps _ _ _ (returnCredit_keeps _ _ hku)
  · exact (huo.mono (by decide)).trans (((returnCredit_only _ _).mono (by decide)).trans ((count_only _ _).mono (by decide)))
  · show u.frame = { s.frame with use := u.frame.use }
    rw [← hu]; rfl
  · show (returnCredit u n).tenant n = _
    rw [returnCredit_tenant huw, hun]
  · intro m hm
    show (returnCredit u n).tenant m = _
    rw [returnCredit_tenant_ne n m hm]
    exact hum m hm
  · intro y
    have a : (returnCredit u n).rangeOwner y = u.rangeOwner y := modTenant_rangeOwner huw n _ (by rfl) y
    have b : u.rangeOwner y = s.rangeOwner y := by rw [← hu]; exact rangeOwner_setTenant (s := s.setUse use) hwf n _ (by rfl) y
    exact a.trans b
  · intro y
    have a : (returnCredit u n).mapOwner y = u.mapOwner y := modTenant_mapOwner huw n _ (by rfl) y
    have b : u.mapOwner y = s.mapOwner y := by
      rw [← hu]; exact mapOwner_setTenant (s := s.setUse use) hwf n _ (by rfl) y
    exact a.trans b
  · intro y
    rw [← hu]
    rfl

/-! ## The capture FIFO -/

/-- An entry concerns one of the four quarters, if any. -/
theorem capQuarter_lt (w : W64) : ∀ q, capQuarter w = some q → q < 4 := by
  have key : ∀ x : Src, ∀ q, (match srcClass x with
    | .message v => some (quarterOf v)
    | _ => none) = some q → q < 4 := by
    intro x q h
    cases k : srcClass x <;> rw [k] at h <;> simp only at h <;> try cases h
    exact quarterOf_lt _
  intro q h
  unfold capQuarter at h
  split at h
  · cases h; exact quarterOf_lt _
  · exact key _ _ h
  · exact key _ _ h
  · exact key _ _ h
  · cases h

theorem resume_none (h : s.pwr.waiting = []) : resume s = s := by
  unfold resume
  rw [h]
  rfl

/-- A drained entry, with no access waiting. -/
theorem exec_drain {e : QEntry} {rest : List QEntry} (h : s.ServesHead e rest) {t : State} (k : intakeStep s = t)
    (w : SameFifo s t) : exec .intakeDrain s = .next t := by
  have e : resume t = t := resume_none (w.2.2.2.1.trans h.waiting)
  show Host.Outcome.next _ = _
  rw [h.on, h.framed, k]
  exact congrArg Host.Outcome.next e

/-- A slot of the completion queue: the head leaves it, the slot is counted, and it is applied. -/
theorem exec_completion {e : CplEntry} {rest : List CplEntry} (h : s.ServesCompletion e rest) :
    ∃ w, exec .completionDrain s =
      .next (resume (applyCplEntry ((s.setUse w).setTgt { s.tgt with cplQueue := rest }) e)) := by
  obtain ⟨w, k⟩ := takeSlot_use s .completion e.src 1
  refine ⟨w, ?_⟩
  show Host.Outcome.next _ = _
  rw [h.on, if_pos rfl]
  refine congrArg (fun t => Host.Outcome.next (resume t)) ?_
  unfold completionStep
  rw [h.head]
  simp only [h.lane, h.banks, k, Bool.not_true, Bool.false_eq_true, if_false, if_true]
  have m : (s.setUse w).cplMoves e = false := h.here
  have q : (s.setUse w).tgt.cplQueue = e :: rest := h.head
  unfold drainCompletion
  rw [q]
  simp only [m, Bool.false_and, Bool.false_eq_true, if_false]
  rfl

theorem releaseHeldNotices_none (h : s.tgt.heldNotices = []) : releaseHeldNotices s = s := by
  have e : s.setTgt { s.tgt with heldNotices := [] } = s := by rw [← h]; rfl
  unfold releaseHeldNotices
  rw [h, List.foldl_nil, e]
  split <;> rfl

theorem advanceLoads_none (h : ∀ p ∈ s.mbx.boxes, p.2.load = none) : advanceLoads s = s := by
  have e : (s.mbx.boxes.filter fun p => p.2.load.isSome) = [] := by
    rw [List.filter_eq_nil_iff]
    intro p hp
    rw [h p hp]
    decide
  unfold advanceLoads
  rw [e]
  rfl

theorem runDebug_none (h : s.acu.tap.busy = false) : runDebug s = s := by
  unfold runDebug
  simp only [h]
  rfl

/-- With nothing waiting nothing goes on. -/
theorem releaseWaiting_none (h : s.Settled) : releaseWaiting s = s := by
  unfold releaseWaiting
  rw [releaseHeldNotices_none h.notices, resume_none h.waiting, advanceLoads_none h.loads, runDebug_none h.debug]

theorem symbolErrors_zero : symbolErrors 0 = 0 := by
  have h : ∀ i, (field (0 : BitVec 280) (8 * i) 8 : BitVec 8) = 0 := by
    intro i; unfold field; simp
  unfold symbolErrors
  rw [List.length_eq_zero_iff, List.filter_eq_nil_iff]
  intro i _
  rw [h i]
  decide

/-- A line without an error vector reads clean. -/
theorem decodeLine_zero (k : Nat) : decodeLine k 0 = .clean := by
  unfold decodeLine
  rw [symbolErrors_zero]
  rfl

theorem lineErr_clean (h : s.Clean) (l : LineId) : s.lineErr l = 0 := by
  unfold State.lineErr
  rw [h.errs]
  rfl

/-- In a clean state a drained entry leaves the FIFO and is applied. -/
theorem drainCapture_clean (h : s.Clean) (e : CaptureEntry) :
    drainCapture s e = applyCaptured (s.setPwr { s.pwr with
      capture := s.pwr.capture.erase e, captureAll := s.pwr.captureAll && !(s.pwr.capture.erase e).isEmpty }) e.word := by
  have c : ∀ u : State, u.ras = s.ras → ∀ k l, decodeLine k (u.lineErr l) = .clean := by
    intro u hu k l
    rw [lineErr_clean (h.of_ras hu), decodeLine_zero]
  unfold drainCapture
  simp only
  rw [c _ (by rfl)]

/-- The first entry drains when it does not wait. -/
theorem capNext_head {e : CaptureEntry} {rest : List CaptureEntry} (h : s.pwr.capture = e :: rest)
    (w : s.capWaits e.word = false) : s.capNext = some e := by
  unfold State.capNext
  rw [h]
  unfold State.capNext.go
  simp only [List.not_mem_nil, false_or, w, Bool.false_eq_true, if_false]

end Sys2Proof.Machine
end

