-- ==== Sys2Proof/Laws/Targets.lean ====
section
/-! SUPPORT. Target records: presentation, completion, parking. -/
namespace Sys2Proof.Machine

variable {s : State}

/-! ## Presentation changes the shortlist alone -/

/-- Two records that differ in the shortlist and its overflow flags only. -/
def SameButList (r q : TargetRec) : Prop :=
  q = { r with shortlist := q.shortlist, overflow := q.overflow, sysOverflow := q.sysOverflow }

theorem setOverflow_same (r : TargetRec) (x : Src) : SameButList r (setOverflow r x) := by
  unfold setOverflow
  split <;> rfl

theorem presentRec_same (r : TargetRec) (x : Src) (m : BitVec 16) : SameButList r (presentRec r x m) := by
  have put : ∀ l, SameButList r { r with shortlist := l } := fun _ => rfl
  have ov := setOverflow_same r
  unfold presentRec
  split
  · rfl
  · dsimp only
    cases slHighest r.shortlist with
    | none =>
      simp only
      refine iteInduction (fun _ => iteInduction (fun _ => put _) fun _ => ov _) fun _ => ?_
      exact iteInduction (fun h => absurd h (by decide)) fun _ => ov _
    | some h =>
      simp only
      refine iteInduction (fun _ => iteInduction (fun _ => put _) fun _ => ov _) fun _ => ?_
      refine iteInduction (fun _ => ?_) fun _ => ov _
      have := ov h.src
      unfold SameButList at this ⊢
      rw [this]

theorem presentRaw_same (c : Sparse.wf {} s.tgt.recs = true) (x : Src) (y z : Slot) :
    SameButList (s.target z) ((presentRaw s x y).target z) := by
  by_cases h : s.qualifies x y = true
  · by_cases e : z = y
    · subst e
      rw [presentRaw_target c h]
      exact presentRec_same _ _ _
    · rw [presentRaw_target_ne e]
      rfl
  · have : presentRaw s x y = s := by unfold presentRaw; rw [if_neg h]
    rw [this]
    rfl

/-- Of the target unit only the records change. -/
theorem presentRaw_tgt (x : Src) (y : Slot) :
    (presentRaw s x y).tgt = { s.tgt with recs := (presentRaw s x y).tgt.recs } := by
  unfold presentRaw
  split <;> rfl

/-! ## The completion of a source -/

theorem completeState_only (x : Src) : OnlyChanges [.vec, .tgt] s (completeState s x) := by
  unfold completeState
  dsimp only
  split
  · exact ((putSt_only _ _ _).mono (by decide)).trans ((presentRaw_only _ _ _).mono (by decide))
  · exact (putSt_only _ _ _).mono (by decide)

theorem completeState_stOf (c : CanonicalVec s.vec) {x : Src} (hx : HasWords x) :
    (completeState s x).stOf x = completeWord (cMode (s.cfgOf x)) (s.stOf x) := by
  unfold completeState
  dsimp only
  split
  · rw [presentRaw_stOf, putSt_stOf_self c hx]
  · rw [putSt_stOf_self c hx]

theorem completeState_stOf_ne {x y : Src} (h : y ≠ x) : (completeState s x).stOf y = s.stOf y := by
  unfold completeState
  dsimp only
  split
  · rw [presentRaw_stOf, putSt_stOf_ne h]
  · rw [putSt_stOf_ne h]

theorem completeState_cfgOf (x y : Src) : (completeState s x).cfgOf y = s.cfgOf y := by
  unfold completeState
  dsimp only
  split
  · rw [presentRaw_cfgOf, putSt_cfgOf]
  · rw [putSt_cfgOf]

theorem completeState_target (c : Sparse.wf {} s.tgt.recs = true) (x : Src) (z : Slot) :
    SameButList (s.target z) ((completeState s x).target z) := by
  have e : ∀ w, (s.putSt x w).tgt = s.tgt := fun w => putSt_only s x w .tgt (by decide)
  have et : ∀ w, (s.putSt x w).target z = s.target z := fun w => by unfold State.target; rw [e]
  unfold completeState
  dsimp only
  split
  · have := presentRaw_same (s := s.putSt x (completeWord (cMode (s.cfgOf x)) (s.stOf x))) (by rw [e]; exact c) x
      (cTarget (s.cfgOf x)) z
    rw [et] at this
    exact this
  · rw [et]
    rfl

theorem completeState_tgt (x : Src) :
    (completeState s x).tgt = { s.tgt with recs := (completeState s x).tgt.recs } := by
  have e : ∀ w, (s.putSt x w).tgt = s.tgt := fun w => putSt_only s x w .tgt (by decide)
  unfold completeState
  dsimp only
  split
  · rw [presentRaw_tgt, e]
  · rw [e]

/-! ## Parking -/

/-- Parking a list of slots. -/
theorem park_foldl (xs : List Slot) : ∀ s : State, Sparse.wf {} s.tgt.recs = true →
    (∀ x, (x ∈ xs ∨ (s.target x).parked = true) → ((xs.foldl (fun s x => s.modTarget x fun r => { r with parked := true }) s).target x).parked = true) := by
  induction xs with
  | nil => intro s _ x h; simpa using h
  | cons a xs ih =>
    intro s hw x h
    rw [List.foldl_cons]
    refine ih (s.modTarget a fun r => { r with parked := true }) (Sparse.wf_set _ _ _ _ hw) x ?_
    by_cases e : x = a
    · subst e; right
      show ((s.setTarget x _).target x).parked = true
      rw [State.setTarget_target_self _ _ _ hw]
    · rcases h with h | h
      · left; simpa [e] using h
      · right
        show ((s.setTarget a _).target x).parked = true
        rw [State.setTarget_target_ne _ _ _ _ e]; exact h
theorem park_only (s : State) (n : Tenant) : OnlyChanges [.tgt, .ten] s (park s n) := by
  unfold park
  split
  · exact .refl _ _
  · dsimp only
    exact (OnlyChanges.foldl _ (fun s v => (modTarget_only _ _).mono (by decide)) _ _).trans (((setTgt_only _).mono (by decide)).trans ((modTenant_only _ _).mono (by decide)))
/-- A park action parks every outstanding delivery of the tenant (R143). -/
theorem park_parked (hw : Sparse.wf {} s.tgt.recs = true) (n : Tenant) (x : Slot) (h : x ∈ s.slotsOf n) (a : (s.target x).active ≠ none) : 
    ((park s n).target x).parked = true := by
  have key : x ∈ s.parkable n ∨ (s.target x).parked = true := by
    unfold State.parkable
    cases k : (s.target x).parked
    · left
      rw [List.mem_filter]
      refine ⟨h, ?_⟩
      cases e : (s.target x).active
      · exact absurd e a
      · simp [k]
    · right; rfl
  unfold park
  split
  · rename_i e
    rw [e] at key
    simpa using key
  · rename_i xs e
    exact park_foldl _ s hw x key

/-! ## Removal of a source from a shortlist -/

/-- Two records that differ in the shortlist, its overflow flags and its refill alone. -/
def SameButRefill (r q : TargetRec) : Prop :=
  q = { r with
    shortlist := q.shortlist, overflow := q.overflow, sysOverflow := q.sysOverflow
    refilling := q.refilling, wantsMsg := q.wantsMsg, wantsSys := q.wantsSys }

/-- Two target units that differ in their records and the requested passes alone. -/
def SameButRequests (u v : TgtUnit) : Prop :=
  v = { u with recs := v.recs, msgQueue := v.msgQueue, sysRequest := v.sysRequest }

theorem requestMsg_recs (n : Tenant) : (requestMsg s n).tgt.recs = s.tgt.recs ∧ SameButRequests s.tgt (requestMsg s n).tgt := by
  unfold requestMsg
  split <;> exact ⟨rfl, rfl⟩

theorem requestRefill_effect (c : Sparse.wf {} s.tgt.recs = true) (x : Slot) :
    SameButRefill (s.target x) ((requestRefill s x).target x) ∧
    (∀ y, y ≠ x → (requestRefill s x).target y = s.target y) ∧
    SameButRequests s.tgt (requestRefill s x).tgt := by
  have base : ∀ r, SameButRefill (s.target x) r → ∀ u : State, u.tgt.recs = (s.setTarget x r).tgt.recs →
      SameButRequests (s.setTarget x r).tgt u.tgt →
      SameButRefill (s.target x) (u.target x) ∧ (∀ y, y ≠ x → u.target y = s.target y) ∧ SameButRequests s.tgt u.tgt := by
    intro r hr u hu hq
    have e : ∀ y, u.target y = (s.setTarget x r).target y := fun y => by unfold State.target; rw [hu]
    refine ⟨?_, fun y hy => (e y).trans (State.setTarget_target_ne _ _ _ _ hy), ?_⟩
    · rw [e, State.setTarget_target_self _ _ _ c]; exact hr
    · unfold SameButRequests at hq ⊢; rw [hq]; rfl
  unfold requestRefill
  dsimp only
  split
  · generalize hr : ({ s.target x with refilling := true, overflow := false, sysOverflow := false, wantsMsg := _, wantsSys := _ } : TargetRec) = r
    have sr : SameButRefill (s.target x) r := by rw [← hr]; rfl
    generalize hu : (if (s.target x).overflow = true then
        match (s.setTarget x r).slotOwner x with
        | some (t, _) => requestMsg (s.setTarget x r) t
        | none => s.setTarget x r
      else s.setTarget x r) = u
    have k : u.tgt.recs = (s.setTarget x r).tgt.recs ∧ SameButRequests (s.setTarget x r).tgt u.tgt := by
      rw [← hu]
      split
      · split
        · exact requestMsg_recs _
        · exact ⟨rfl, rfl⟩
      · exact ⟨rfl, rfl⟩
    split
    · refine base r sr (requestSys u) k.1 ?_
      have := k.2
      unfold SameButRequests at this ⊢
      show ({ u.tgt with sysRequest := true } : TgtUnit) = _
      rw [this]; rfl
    · exact base r sr u k.1 k.2
  · exact ⟨rfl, fun _ _ => rfl, rfl⟩

theorem removeRaw_effect (c : Sparse.wf {} s.tgt.recs = true) (x : Slot) (src : Src) :
    SameButRefill (s.target x) ((removeRaw s x src).target x) ∧
    (∀ y, y ≠ x → (removeRaw s x src).target y = s.target y) ∧
    SameButRequests s.tgt (removeRaw s x src).tgt := by
  unfold removeRaw
  dsimp only
  generalize hr : ({ s.target x with shortlist := _ } : TargetRec) = r
  have sr : SameButRefill (s.target x) r := by rw [← hr]; rfl
  obtain ⟨a, b, d⟩ := requestRefill_effect (s := s.setTarget x r) (Sparse.wf_set _ _ _ _ c) x
  rw [State.setTarget_target_self _ _ _ c] at a
  refine ⟨?_, fun y hy => (b y hy).trans (State.setTarget_target_ne _ _ _ _ hy), ?_⟩
  · unfold SameButRefill at a sr ⊢; rw [a, sr]
  · unfold SameButRequests at d ⊢; rw [d]; rfl

end Sys2Proof.Machine
end

