-- ==== Sys2Proof/Laws/Mailboxes.lean ====
section
/-! SUPPORT. Commands taken by a mailbox: the run of one that its mailbox holds, and the reply it leaves. -/
namespace Sys2Proof.Machine

variable {s t : State}

/-- A command that its mailbox holds is run when the domains it needs serve. -/
theorem runTaken_holds {m : BitVec 7} {op : Byte} {c : Snap} (h : s.Holds m op c) {select : Snap → Bool}
    {needs : State → Snap → List Nat} {body : State → Snap → State} (hs : select c = true)
    (hn : s.allOn (needs s c) = true) : runTaken s m op select needs body = body s c := by
  unfold runTaken
  simp only [h.snap, h.work]
  rw [if_pos ⟨h.opcode, hs, h.engine⟩]
  simp only [hn, if_true]

theorem allOn_nil : s.allOn [] = true := rfl
theorem allOn_one {d : Nat} (h : s.isOn d = true) : s.allOn [d] = true := by
  unfold State.allOn; rw [List.all_cons, h]; rfl
theorem allOn_coreTgt (h : s.coreUp = true) : s.allOn coreTgt = true := by
  unfold State.coreUp at h
  rw [Bool.and_eq_true] at h
  unfold State.allOn coreTgt
  rw [List.all_cons, h.2, List.all_cons, h.1]; rfl

theorem box_congr (h : t.mbx = s.mbx) (m : BitVec 7) : t.box m = s.box m := by unfold State.box; rw [h]

@[simp] theorem finish_target (m : BitVec 7) (r : Reply) (x : Slot) : (finish s m r).target x = s.target x := rfl
@[simp] theorem finish_busyBit (m : BitVec 7) (r : Reply) (x : Slot) : (finish s m r).busyBit x = s.busyBit x := rfl
@[simp] theorem finish_tenant (m : BitVec 7) (r : Reply) (n : Tenant) : (finish s m r).tenant n = s.tenant n := rfl
@[simp] theorem finish_ten (m : BitVec 7) (r : Reply) : (finish s m r).ten = s.ten := rfl
@[simp] theorem finish_stOf (m : BitVec 7) (r : Reply) (x : Src) : (finish s m r).stOf x = s.stOf x := rfl
@[simp] theorem finish_cfgOf (m : BitVec 7) (r : Reply) (x : Src) : (finish s m r).cfgOf x = s.cfgOf x := rfl
@[simp] theorem finish_clasp (m : BitVec 7) (r : Reply) (g : BitVec 12) : (finish s m r).clasp g = s.clasp g := rfl

theorem finish_only (m : BitVec 7) (r : Reply) : OnlyChanges [.mbx] s (finish s m r) := modBox_only _ _

theorem modBox_self (c : CanonicalMbx s.mbx) (m : BitVec 7) (f : Mailbox → Mailbox) : (s.modBox m f).box m = f (s.box m) :=
  State.setBox_box_self _ _ _ c.boxes

theorem modBox_ne (m k : BitVec 7) (f : Mailbox → Mailbox) (h : k ≠ m) : (s.modBox m f).box k = s.box k :=
  State.setBox_box_ne _ _ _ _ h

/-- The reply of a command whose effect has left the mailboxes alone. -/
theorem finish_answered (c : CanonicalMbx s.mbx) (u : t.mbx = s.mbx) (m : BitVec 7) (r : Reply) :
    Answered m r s (finish t m r) := by
  have c' : CanonicalMbx t.mbx := by rw [u]; exact c
  exact ⟨by rw [show (finish t m r).box m = _ from modBox_self c' _ _, box_congr u],
    fun k hk => (modBox_ne _ _ _ hk).trans (box_congr u k), by rw [← u]; rfl⟩

/-- A command that waits for what it has begun. -/
theorem await_awaits (c : CanonicalMbx s.mbx) (u : t.mbx = s.mbx) (m : BitVec 7) :
    Awaits m s (t.modBox m fun b => { b with work := .waiting }) := by
  have c' : CanonicalMbx t.mbx := by rw [u]; exact c
  exact ⟨by rw [modBox_self c', box_congr u], fun k hk => (modBox_ne _ _ _ hk).trans (box_congr u k), by rw [← u]; rfl⟩

/-- A command whose whole effect is its reply. -/
theorem reply_only (c : CanonicalMbx s.mbx) {i : Instr} {m : BitVec 7} {r : Reply} (h : exec i s = .next (finish s m r)) :
    ∃ u, exec i s = .next u ∧ Answered m r s u ∧ OnlyChanges [.mbx] s u :=
  ⟨_, h, finish_answered c rfl m r, finish_only m r⟩

end Sys2Proof.Machine
end

