-- ==== Sys2Proof/Laws/Grants.lean ====
section
/-! SUPPORT. Grants and withdrawals of target blocks, and forced completions. -/
namespace Sys2Proof.Machine

variable {s t : State}

/-! ## Slots of a block -/

theorem slots_foldl {f : State → Slot → State} {r : TargetRec}
    (h1 : ∀ s x, Sparse.wf {} s.tgt.recs = true → Sparse.wf false s.tgt.busy = true →
      (f s x).target x = r ∧ (f s x).busyBit x = false ∧ Sparse.wf {} (f s x).tgt.recs = true ∧ Sparse.wf false (f s x).tgt.busy = true)
    (h2 : ∀ s x y, y ≠ x → (f s x).target y = s.target y ∧ (f s x).busyBit y = s.busyBit y) :
    ∀ (xs : List Slot) (s : State), Sparse.wf {} s.tgt.recs = true → Sparse.wf false s.tgt.busy = true →
      (∀ x, x ∈ xs ∨ (s.target x = r ∧ s.busyBit x = false) → (xs.foldl f s).target x = r ∧ (xs.foldl f s).busyBit x = false) ∧
      (∀ y, y ∉ xs → (xs.foldl f s).target y = s.target y ∧ (xs.foldl f s).busyBit y = s.busyBit y) := by
  intro xs
  induction xs with
  | nil => intro s _ _; exact ⟨fun x h => by rcases h with h | h; exact absurd h (by simp); exact h, fun y _ => ⟨rfl, rfl⟩⟩
  | cons a xs ih =>
    intro s w1 w2
    obtain ⟨a1, a2, a3, a4⟩ := h1 s a w1 w2
    obtain ⟨i1, i2⟩ := ih (f s a) a3 a4
    refine ⟨fun x h => ?_, fun y hy => ?_⟩
    · rw [List.foldl_cons]
      refine i1 x ?_
      by_cases e : x = a
      · subst e; exact .inr ⟨a1, a2⟩
      · rcases h with h | h
        · left; simpa [e] using h
        · right; rw [(h2 s a x e).1, (h2 s a x e).2]; exact h
    · rw [List.foldl_cons]
      have : y ≠ a ∧ y ∉ xs := by simpa using hy
      rw [(i2 y this.2).1, (i2 y this.2).2]
      exact h2 s a y this.1
theorem clearSlot_self (x : Slot) (w1 : Sparse.wf {} s.tgt.recs = true) (w2 : Sparse.wf false s.tgt.busy = true) :
    ((resetTarget s x).setBusy x false).target x = {} ∧ ((resetTarget s x).setBusy x false).busyBit x = false ∧
    Sparse.wf {} ((resetTarget s x).setBusy x false).tgt.recs = true ∧ Sparse.wf false ((resetTarget s x).setBusy x false).tgt.busy = true :=
by
  refine ⟨?_, ?_, ?_, ?_⟩
  · show Sparse.get {} (Sparse.set {} s.tgt.recs x.toNat {}) x.toNat = _; exact (Sparse.get_set _ _ _ _ _ w1).trans (if_pos rfl)
  · show Sparse.get false (Sparse.set false s.tgt.busy x.toNat false) x.toNat = _; exact (Sparse.get_set _ _ _ _ _ w2).trans (if_pos rfl)
  · show Sparse.wf {} (Sparse.set {} s.tgt.recs x.toNat {}) = _; exact Sparse.wf_set _ _ _ _ w1
  · show Sparse.wf false (Sparse.set false s.tgt.busy x.toNat false) = _; exact Sparse.wf_set _ _ _ _ w2
theorem clearSlot_ne {x y : Slot} (hy : y ≠ x) :
    ((resetTarget s x).setBusy x false).target y = s.target y ∧ ((resetTarget s x).setBusy x false).busyBit y = s.busyBit y :=
by
  constructor
  · show Sparse.get {} (Sparse.set {} s.tgt.recs x.toNat {}) y.toNat = _; exact Sparse.get_set_ne _ _ _ _ _ (fun e => hy (BitVec.eq_of_toNat_eq e))
  · show Sparse.get false (Sparse.set false s.tgt.busy x.toNat false) y.toNat = _; exact Sparse.get_set_ne _ _ _ _ _ (fun e => hy (BitVec.eq_of_toNat_eq e))
theorem wf_modTarget (x : Slot) (f : TargetRec → TargetRec) (w1 : Sparse.wf {} s.tgt.recs = true) :
    Sparse.wf {} (s.modTarget x f).tgt.recs = true := Sparse.wf_set _ _ _ _ w1

/-! ## Forced completions -/

theorem completeTarget_only (h : s.Clean) (n : Tenant) (x : Slot) (src : Src) (b : Bool) :
    OnlyChanges [.tgt, .vec, .ten, .loupe] s (completeTarget s n x src b) ∧ (completeTarget s n x src b).ten.blocks = s.ten.blocks := by
  generalize hu0 : (s.modTarget x fun r => { r with active := none, redeliver := false, parked := false, lastCpl := some (b, src) }) = u0
  have o0 : OnlyChanges [.tgt] s u0 := by rw [← hu0]; exact modTarget_only _ _
  have cl0 : u0.Clean := h.of_ras (o0 .ras (by decide))
  have o1 : OnlyChanges [.vec, .tgt] u0 (completeSource u0 src) := by
    unfold completeSource
    split
    · exact .refl _ _
    · rw [applyCompletion_clean cl0]; exact completeState_only _
  have e : completeTarget s n x src b = (((completeSource u0 src).clearBusyNext x).modTenant n fun r => { r with completions := r.completions + 1 }).count 7 1 := by
    unfold completeTarget; rw [← hu0]
  rw [e]
  refine ⟨(o0.mono (by decide)).trans ((o1.mono (by decide)).trans (((clearBusyNext_only _).mono (by decide)).trans (((modTenant_only _ _).mono (by decide)).trans ((count_only _ _).mono (by decide))))), ?_⟩
  show (completeSource u0 src).ten.blocks = _
  rw [o1 .ten (by decide), o0 .ten (by decide)]

theorem forceSlots_only (n : Tenant) (xs : List Slot) (h : s.Clean) :
    OnlyChanges [.tgt, .vec, .ten, .loupe] s (forceSlots n xs s).1 ∧ (forceSlots n xs s).1.ten.blocks = s.ten.blocks := by
  have fold : ∀ (xs : List Slot) (p : State × Nat), p.1.Clean →
    OnlyChanges [.tgt, .vec, .ten, .loupe] p.1 (xs.foldl (fun p x => forceSlot p n x) p).1 ∧
    (xs.foldl (fun p x => forceSlot p n x) p).1.ten.blocks = p.1.ten.blocks := by
    intro xs
    induction xs with
    | nil => intro p _; exact ⟨.refl _ _, rfl⟩
    | cons x xs ih =>
      intro p h
      have k : OnlyChanges [.tgt, .vec, .ten, .loupe] p.1 (forceSlot p n x).1 ∧ (forceSlot p n x).1.ten.blocks = p.1.ten.blocks := by
        unfold forceSlot
        split
        · exact completeTarget_only h n x _ false
        · exact ⟨.refl _ _, rfl⟩
      obtain ⟨a, b⟩ := ih (forceSlot p n x) (h.of_ras (k.1 .ras (by decide)))
      rw [List.foldl_cons]
      exact ⟨k.1.trans a, b.trans k.2⟩
  exact fold xs (s, 0) h

/-! ## Blocks -/

/-- What the withdrawal of a block does (R168). -/
theorem withdrawBlock_effect (hcl : s.Clean) (w1 : Sparse.wf {} s.tgt.recs = true) (w2 : Sparse.wf false s.tgt.busy = true)
    (w3 : Sparse.wf none s.ten.blocks = true) (n : Tenant) (g j : Nat) :
    OnlyChanges [.ten, .tgt] s (withdrawBlock s n g j) ∧
    Sparse.get none (withdrawBlock s n g j).ten.blocks g = none ∧
    (∀ h, h ≠ g → Sparse.get none (withdrawBlock s n g j).ten.blocks h = Sparse.get none s.ten.blocks h) ∧
    (∀ x ∈ blockSlots g, (withdrawBlock s n g j).target x = {} ∧ (withdrawBlock s n g j).busyBit x = false) ∧
    (∀ x, x ∉ blockSlots g → (withdrawBlock s n g j).target x = s.target x ∧ (withdrawBlock s n g j).busyBit x = s.busyBit x) := by
  have hf := slots_foldl (r := {}) (f := fun s x => (resetTarget s x).setBusy x false)
    (fun s x w1 w2 => clearSlot_self x w1 w2) (fun s x y hy => clearSlot_ne hy) (blockSlots g) s w1 w2
  have o1 : OnlyChanges [.tgt] s ((blockSlots g).foldl (fun s x => (resetTarget s x).setBusy x false) s) :=
    OnlyChanges.foldl _ (fun s x => (resetTarget_only s x).trans (setBusy_only _ _)) _ _
  have ec : (blockSlots g).foldl (fun s x => (wroteTarget (resetTarget s x) x).setBusy x false) s =
      (blockSlots g).foldl (fun s x => (resetTarget s x).setBusy x false) s := by
    refine foldl_clean (fun s h x => ?_) (fun s x => ?_) _ _ hcl
    · rw [wroteTarget_clean (h.of_ras (resetTarget_only s x .ras (by decide)))]
    · exact (resetTarget_only s x).trans (setBusy_only x false) .ras (by decide)
  unfold withdrawBlock
  rw [ec]
  generalize (blockSlots g).foldl (fun s x => (resetTarget s x).setBusy x false) s = u at hf o1
  have tu : u.ten = s.ten := o1 .ten (by decide)
  refine ⟨(o1.mono (by decide)).trans (((setTen_only _).mono (by decide)).trans ((modTenant_only _ _).mono (by decide))), ?_, ?_, fun x hx => hf.1 x (.inl hx), fun x hx => hf.2 x hx⟩
  · show Sparse.get none (Sparse.set none u.ten.blocks g none) g = _
    rw [tu]
    exact (Sparse.get_set _ _ _ _ _ w3).trans (if_pos rfl)
  · intro h hh
    show Sparse.get none (Sparse.set none u.ten.blocks g none) h = _
    rw [tu]
    exact Sparse.get_set_ne _ _ _ _ _ hh

/-- What the grant of a block does (R166). -/
theorem grantBlock_effect (hcl : s.Clean) (w1 : Sparse.wf {} s.tgt.recs = true) (w2 : Sparse.wf false s.tgt.busy = true)
    (w3 : Sparse.wf none s.ten.blocks = true) (n : Tenant) (g k : Nat) :
    OnlyChanges [.ten, .tgt] s (grantBlock s n g k) ∧
    Sparse.get none (grantBlock s n g k).ten.blocks g = some (n, BitVec.ofNat 4 k) ∧
    (∀ h, h ≠ g → Sparse.get none (grantBlock s n g k).ten.blocks h = Sparse.get none s.ten.blocks h) ∧
    (∀ x ∈ blockSlots g, (grantBlock s n g k).target x = { refilling := true, wantsMsg := true, wantsSys := true } ∧
      (grantBlock s n g k).busyBit x = false) ∧
    (∀ x, x ∉ blockSlots g → (grantBlock s n g k).target x = s.target x ∧ (grantBlock s n g k).busyBit x = s.busyBit x) ∧
    n ∈ (grantBlock s n g k).tgt.msgQueue ∧ (grantBlock s n g k).tgt.sysRequest = true ∧
    (grantBlock s n g k).ten.recs = s.ten.recs := by
  generalize hu0 : s.setTen { s.ten with blocks := Sparse.set none s.ten.blocks g (some (n, BitVec.ofNat 4 k)) } = u0
  have t0 : u0.tgt = s.tgt := by rw [← hu0]; rfl
  have b0 : u0.ten.blocks = Sparse.set none s.ten.blocks g (some (n, BitVec.ofNat 4 k)) := by rw [← hu0]; rfl
  have r0 : u0.ten.recs = s.ten.recs := by rw [← hu0]; rfl
  have o0 : OnlyChanges [.ten] s u0 := by rw [← hu0]; exact setTen_only _
  have hf := slots_foldl (r := { refilling := true, wantsMsg := true, wantsSys := true }) (f := fun s x =>
    ((resetTarget s x).setBusy x false).modTarget x fun r => { r with
      refilling := true, wantsMsg := true, wantsSys := true })
    (fun s x w1 w2 => by
      obtain ⟨a1, a2, a3, a4⟩ := clearSlot_self x w1 w2
      refine ⟨?_, a2, wf_modTarget _ _ a3, a4⟩
      show (State.setTarget _ x _).target x = _
      rw [State.setTarget_target_self _ _ _ a3, a1])
    (fun s x y hy => ⟨(State.setTarget_target_ne _ _ _ _ hy).trans (clearSlot_ne hy).1, (clearSlot_ne (s := s) hy).2⟩)
    (blockSlots g) u0 (by rw [t0]; exact w1) (by rw [t0]; exact w2)
  have o1 : OnlyChanges [.tgt] u0 ((blockSlots g).foldl (fun s x => ((resetTarget s x).setBusy x false).modTarget x fun r => { r with
      refilling := true, wantsMsg := true, wantsSys := true }) u0) := by
    refine OnlyChanges.foldl _ (fun s x => ?_) _ _
    exact (resetTarget_only s x).trans
      ((setBusy_only _ _).trans (modTarget_only _ _))
  have ec : (blockSlots g).foldl (fun s x =>
      ((wroteTarget (resetTarget s x) x).setBusy x false).modTarget x fun r => { r with
        refilling := true, wantsMsg := true, wantsSys := true }) u0 =
      (blockSlots g).foldl (fun s x => ((resetTarget s x).setBusy x false).modTarget x fun r => { r with
        refilling := true, wantsMsg := true, wantsSys := true }) u0 := by
    refine foldl_clean (fun s h x => ?_) (fun s x => ?_) _ _ (hcl.of_ras (o0 .ras (by decide)))
    · rw [wroteTarget_clean (h.of_ras (resetTarget_only s x .ras (by decide)))]
    · exact ((resetTarget_only s x).trans (setBusy_only x false)).trans (modTarget_only x _) .ras (by decide)
  unfold grantBlock
  rw [hu0]
  dsimp only
  rw [ec]
  generalize (blockSlots g).foldl _ u0 = u1 at hf o1
  obtain ⟨q1, q2⟩ := requestMsg_recs (s := u1) n
  have q3 : n ∈ (requestMsg u1 n).tgt.msgQueue := by
    unfold requestMsg
    split
    · assumption
    · show n ∈ u1.tgt.msgQueue ++ [n]; simp
  have o2 := requestMsg_only u1 n
  generalize requestMsg u1 n = u2 at q1 q2 q3 o2
  have busy2 : u2.tgt.busy = u1.tgt.busy := by unfold SameButRequests at q2; rw [q2]
  have ten2 : u2.ten = u0.ten := (o2 .ten (by decide)).trans (o1 .ten (by decide))
  have tg : ∀ x, (requestSys u2).target x = u1.target x := fun x => by
    show Sparse.get {} u2.tgt.recs _ = _; rw [q1]; rfl
  have bz : ∀ x, (requestSys u2).busyBit x = u1.busyBit x := fun x => by
    show Sparse.get false u2.tgt.busy _ = _; rw [busy2]; rfl
  refine ⟨?_, ?_, ?_, ?_, ?_, q3, rfl, ?_⟩
  · exact (o0.mono (by decide)).trans ((o1.mono (by decide)).trans ((o2.mono (by decide)).trans ((requestSys_only _).mono (by decide))))
  · show Sparse.get none u2.ten.blocks g = _
    rw [ten2, b0]; exact (Sparse.get_set _ _ _ _ _ w3).trans (if_pos rfl)
  · intro h hh
    show Sparse.get none u2.ten.blocks h = _
    rw [ten2, b0]; exact Sparse.get_set_ne _ _ _ _ _ hh
  · intro x hx; rw [tg, bz]; exact hf.1 x (.inl hx)
  · intro x hx; rw [tg, bz, (hf.2 x hx).1, (hf.2 x hx).2]; unfold State.target State.busyBit; rw [t0]; exact ⟨rfl, rfl⟩
  · show u2.ten.recs = _; rw [ten2, r0]

end Sys2Proof.Machine
end

