-- ==== Sys2Proof/Laws/Configs.lean ====
section
/-! SUPPORT. Configuration writes (R100 to R102) and the zeroing of a range (R81, R171). -/
namespace Sys2Proof.Machine

variable {s t : State}

/-! ## A configuration write -/

theorem moveTarget_only (h : s.Clean) (src : Src) (old new : W64) :
    OnlyChanges [.tgt] s (moveTarget s src old new) := by
  unfold moveTarget
  split
  · dsimp only
    generalize hu : (if (cEnable old && !cFwd old && (!(cEnable new && !cFwd new) || cTarget old != cTarget new)) = true
      then removeSrc s (cTarget old) src else s) = u
    have a : OnlyChanges [.tgt] s u := by
      rw [← hu]
      split
      · rw [removeSrc_clean h]; exact removeRaw_only _ _ _
      · exact .refl _ _
    refine a.trans ?_
    split
    · rw [present_clean (h.of_ras (a .ras (by decide)))]; exact presentRaw_only _ _ _
    · exact .refl _ _
  · exact .refl _ _

theorem reload_only (v : Nat) : OnlyChanges [.vec] s (reload s v) := by
  unfold reload
  split
  · exact setVec_only _
  · exact .refl _ _

theorem reload_words (v : Nat) (x : Src) : (reload s v).cfgOf x = s.cfgOf x ∧ (reload s v).stOf x = s.stOf x := by
  unfold reload
  split <;> exact ⟨rfl, rfl⟩

/-- The new word, WATCHED kept, and the state word converted when MODE changes (R100 to R102). -/
theorem applyConfig_effect (h : s.Clean) (c : CanonicalVec s.vec) {x : Src} (hx : HasWords x) (new : W64) :
    let w := putBit new 59 (cWatched (s.cfgOf x))
    (applyConfig s x new).cfgOf x = w ∧
    (applyConfig s x new).stOf x = (if cMode (s.cfgOf x) ≠ cMode w ∧ cFwd (s.cfgOf x) = false
      then convertWord (cMode w) (s.stOf x) else s.stOf x) ∧
    (∀ y, y ≠ x → (applyConfig s x new).cfgOf y = s.cfgOf y ∧ (applyConfig s x new).stOf y = s.stOf y) ∧
    OnlyChanges [.vec, .tgt] s (applyConfig s x new) := by
  intro w
  generalize hu : s.putCfg x w = u
  have ou : OnlyChanges [.vec] s u := by rw [← hu]; exact putCfg_only _ _ _
  have cu : CanonicalVec u.vec := by
    have : Kept s.pending s → CanonicalVec (s.putCfg x w).vec := fun k => (State.putCfg_keeps _ _ _ k).vecCanonical
    rw [← hu]
    unfold State.putCfg
    rcases hx with ⟨v, hv⟩ | ⟨v, hv⟩ <;> rw [hv]
    · exact ⟨Sparse.wf_set _ _ _ _ c.cfg, c.st, c.sysCfg, c.sysSt, c.lost, c.reloaded⟩
    · exact ⟨c.cfg, c.st, Sparse.wf_set _ _ _ _ c.sysCfg, c.sysSt, c.lost, c.reloaded⟩
  have clu : u.Clean := h.of_ras (ou .ras (by decide))
  generalize hv : (if (cMode (s.cfgOf x) != cMode w && !cFwd (s.cfgOf x)) = true then
      u.putSt x (convertWord (cMode w) (u.stOf x)) else u) = v
  have e : applyConfig s x new = match srcClass x with
      | .message k => reload (moveTarget v x (s.cfgOf x) w) k
      | _ => moveTarget v x (s.cfgOf x) w := by
    unfold applyConfig
    simp only [readCfg_clean h, readSt_clean h, writeCfg_clean h, writeSt_clean clu, hu, hv, w]
    all_goals (cases srcClass x <;> rfl)
  have ov : OnlyChanges [.vec] u v := by
    rw [← hv]
    split
    · exact putSt_only _ _ _
    · exact .refl _ _
  have su : ∀ y, u.stOf y = s.stOf y := fun y => by rw [← hu]; exact putCfg_stOf _ _ _
  have cv : ∀ y, v.cfgOf y = u.cfgOf y := fun y => by
    rw [← hv]
    split
    · exact putSt_cfgOf _ _ _
    · rfl
  have clv : v.Clean := clu.of_ras (ov .ras (by decide))
  have m : ∀ y, (moveTarget v x (s.cfgOf x) w).cfgOf y = v.cfgOf y ∧ (moveTarget v x (s.cfgOf x) w).stOf y = v.stOf y :=
    fun y => ⟨cfgOf_congr (moveTarget_only clv _ _ _ .vec (by decide)) y,
      stOf_congr (moveTarget_only clv _ _ _ .vec (by decide)) y⟩
  have a : ∀ y, (applyConfig s x new).cfgOf y = v.cfgOf y ∧ (applyConfig s x new).stOf y = v.stOf y := by
    intro y
    rw [e]
    split
    · rw [(reload_words _ y).1, (reload_words _ y).2]; exact m y
    · exact m y
  have o : OnlyChanges [.vec, .tgt] s (applyConfig s x new) := by
    rw [e]
    have k : OnlyChanges [.vec, .tgt] s (moveTarget v x (s.cfgOf x) w) :=
      (ou.mono (by decide)).trans ((ov.mono (by decide)).trans ((moveTarget_only clv _ _ _).mono (by decide)))
    split
    · exact k.trans ((reload_only _).mono (by decide))
    · exact k
  refine ⟨?_, ?_, ?_, o⟩
  · rw [(a x).1, cv, ← hu]; exact putCfg_cfgOf_self c hx _
  · rw [(a x).2, ← hv]
    by_cases k : cMode (s.cfgOf x) ≠ cMode w ∧ cFwd (s.cfgOf x) = false
    · rw [if_pos k, if_pos (by simp [k.1, k.2]), putSt_stOf_self cu hx, su]
    · rw [if_neg k, if_neg (by simpa using k), su]
  · intro y hy
    refine ⟨?_, ?_⟩
    · rw [(a y).1, cv, ← hu]; exact putCfg_cfgOf_ne hy _
    · rw [(a y).2, ← hv]
      split
      · rw [putSt_stOf_ne hy, su]
      · exact su y

/-! ## Zeroing -/

theorem zeroVector_only (h : s.Clean) (v : Nat) : OnlyChanges [.vec, .tgt, .pwr] s (zeroVector s v) := by
  have e := removeSrc_clean ((h.putCfg (msgSrc v) 0).putSt (msgSrc v) 0) (cTarget (s.cfgOf (msgSrc v))) (msgSrc v)
  unfold zeroVector
  dsimp only
  rw [e]
  refine OnlyChanges.trans (t := if _ then _ else _) ?_ ((setPwr_only _).mono (by decide))
  split
  · exact (((putCfg_only _ _ _).trans (putSt_only _ _ _)).mono (by decide)).trans ((removeRaw_only _ _ _).mono (by decide))
  · exact ((putCfg_only _ _ _).trans (putSt_only _ _ _)).mono (by decide)

/-- The two words of a vector are zero and every other word is as it was. -/
theorem zeroVector_vec (h : s.Clean) (v : Nat) (hv : v < 0x100000) :
    (zeroVector s v).vec = { s.vec with cfg := Sparse.set 0 s.vec.cfg v 0, st := Sparse.set 0 s.vec.st v 0 } := by
  have e : ((s.putCfg (msgSrc v) 0).putSt (msgSrc v) 0).vec =
      { s.vec with cfg := Sparse.set 0 s.vec.cfg v 0, st := Sparse.set 0 s.vec.st v 0 } := by
    unfold State.putSt State.putCfg
    simp only [srcClass_msgSrc hv]
    rfl
  have er := removeSrc_clean ((h.putCfg (msgSrc v) 0).putSt (msgSrc v) 0) (cTarget (s.cfgOf (msgSrc v))) (msgSrc v)
  rw [← e]
  unfold zeroVector
  dsimp only
  rw [er]
  generalize (s.putCfg (msgSrc v) 0).putSt (msgSrc v) 0 = u
  split
  · exact removeRaw_only u _ _ .vec (by decide)
  · rfl

theorem zeroVectors (xs : List Nat) : ∀ s : State, s.Clean → (∀ v ∈ xs, v < 0x100000) → Sparse.wf 0 s.vec.cfg = true →
    Sparse.wf 0 s.vec.st = true →
    (∀ v, v ∈ xs ∨ Sparse.get 0 s.vec.cfg v = 0 → Sparse.get 0 (xs.foldl zeroVector s).vec.cfg v = 0) ∧
    (∀ v, v ∈ xs ∨ Sparse.get 0 s.vec.st v = 0 → Sparse.get 0 (xs.foldl zeroVector s).vec.st v = 0) ∧
    (∀ v, v ∉ xs → Sparse.get 0 (xs.foldl zeroVector s).vec.cfg v = Sparse.get 0 s.vec.cfg v ∧
      Sparse.get 0 (xs.foldl zeroVector s).vec.st v = Sparse.get 0 s.vec.st v) ∧
    (xs.foldl zeroVector s).vec.sysCfg = s.vec.sysCfg ∧ (xs.foldl zeroVector s).vec.sysSt = s.vec.sysSt ∧
    OnlyChanges [.vec, .tgt, .pwr] s (xs.foldl zeroVector s) := by
  induction xs with
  | nil =>
    intro s _ _ _ _
    exact ⟨fun v h => by simpa using h, fun v h => by simpa using h, fun _ _ => ⟨rfl, rfl⟩, rfl, rfl, .refl _ _⟩
  | cons a xs ih =>
    intro s hcl hb w1 w2
    have ha : a < 0x100000 := hb a (List.mem_cons_self ..)
    have e := zeroVector_vec hcl a ha
    have oa := zeroVector_only hcl a
    have e1 : (zeroVector s a).vec.cfg = Sparse.set 0 s.vec.cfg a 0 := by rw [e]
    have e2 : (zeroVector s a).vec.st = Sparse.set 0 s.vec.st a 0 := by rw [e]
    obtain ⟨i1, i2, i3, i4, i5, i6⟩ := ih (zeroVector s a) (hcl.of_ras (oa .ras (by decide))) (fun v hv => hb v (List.mem_cons_of_mem _ hv))
      (by rw [e1]; exact Sparse.wf_set _ _ _ _ w1) (by rw [e2]; exact Sparse.wf_set _ _ _ _ w2)
    rw [e1] at i1 i3
    rw [e2] at i2 i3
    rw [List.foldl_cons]
    refine ⟨fun v h => i1 v ?_, fun v h => i2 v ?_, fun v hv => ?_, by rw [i4, e], by rw [i5, e], oa.trans i6⟩
    · rw [Sparse.get_set _ _ _ _ _ w1]
      by_cases k : a = v
      · rw [if_pos k]; exact .inr rfl
      · rw [if_neg k]
        rcases h with h | h
        · rcases List.mem_cons.1 h with h | h
          · exact absurd h.symm k
          · exact .inl h
        · exact .inr h
    · rw [Sparse.get_set _ _ _ _ _ w2]
      by_cases k : a = v
      · rw [if_pos k]; exact .inr rfl
      · rw [if_neg k]
        rcases h with h | h
        · rcases List.mem_cons.1 h with h | h
          · exact absurd h.symm k
          · exact .inl h
        · exact .inr h
    · have : v ≠ a ∧ v ∉ xs := by simpa using hv
      rw [(i3 v this.2).1, (i3 v this.2).2]
      exact ⟨Sparse.get_set_ne _ _ _ _ _ this.1, Sparse.get_set_ne _ _ _ _ _ this.1⟩

/-- Every vector of a range has zero words after it is cleared; every other vector keeps its own (R81, R171). -/
theorem zeroRange_effect (h : s.Clean) (c : CanonicalVec s.vec) (r : Range) (hr : ∀ v, rangeHas r v = true → v < 0x100000) :
    (∀ v, rangeHas r v = true → (zeroRange s r).cfgOf (msgSrc v) = 0 ∧ (zeroRange s r).stOf (msgSrc v) = 0) ∧
    (∀ v, v < 0x100000 → rangeHas r v = false → (zeroRange s r).cfgOf (msgSrc v) = s.cfgOf (msgSrc v) ∧
      (zeroRange s r).stOf (msgSrc v) = s.stOf (msgSrc v)) ∧
    OnlyChanges [.vec, .tgt, .pwr, .ras] s (zeroRange s r) := by
  have z := zeroVectors ((s.vec.cfg.map (·.1) ++ s.vec.st.map (·.1)).filter (rangeHas r)) s h
    (fun v hv => hr v (List.mem_filter.1 hv).2) c.cfg c.st
  have w : ∀ u : State, u.ras.arm = false → zeroRange.writtenRange u r = u := fun u hu => by
    unfold zeroRange.writtenRange
    rw [hu]
    rfl
  unfold zeroRange
  dsimp only
  generalize hk : (s.vec.cfg.map (·.1) ++ s.vec.st.map (·.1)).filter (rangeHas r) = keys at z
  have mem : ∀ v, rangeHas r v = true → v ∉ keys → Sparse.get 0 s.vec.cfg v = 0 ∧ Sparse.get 0 s.vec.st v = 0 := by
    intro v hv hn
    rw [← hk, List.mem_filter] at hn
    have hn' : v ∉ s.vec.cfg.map (·.1) ++ s.vec.st.map (·.1) := fun h => hn ⟨h, hv⟩
    rw [List.mem_append, not_or] at hn'
    refine ⟨?_, ?_⟩
    · rcases Sparse.get_mem 0 s.vec.cfg v with h | h
      · exact h
      · exact absurd (List.mem_map.2 ⟨_, h, rfl⟩) hn'.1
    · rcases Sparse.get_mem 0 s.vec.st v with h | h
      · exact h
      · exact absurd (List.mem_map.2 ⟨_, h, rfl⟩) hn'.2
  obtain ⟨z1, z2, z3, -, -, o⟩ := z
  have ar : (keys.foldl zeroVector s).ras.arm = false := by rw [o .ras (by decide)]; exact h.arm
  rw [w _ (by exact ar)]
  refine ⟨fun v hv => ?_, fun v hv hn => ?_, (o.mono (by decide)).trans ((setRas_only _).mono (by decide))⟩
  · unfold State.cfgOf State.stOf
    rw [srcClass_msgSrc (hr v hv)]
    by_cases k : v ∈ keys
    · exact ⟨z1 v (.inl k), z2 v (.inl k)⟩
    · exact ⟨z1 v (.inr (mem v hv k).1), z2 v (.inr (mem v hv k).2)⟩
  · unfold State.cfgOf State.stOf
    rw [srcClass_msgSrc hv]
    exact z3 v fun k => by
      rw [← hk, List.mem_filter] at k
      rw [hn] at k
      exact absurd k.2 (by decide)

end Sys2Proof.Machine
end

