-- ==== Sys2Proof/Laws/Power.lean ====
section
/-! SUPPORT. Power domains: the record of one domain after a write of it, and what waking leaves alone. -/
namespace Sys2Proof.Machine

variable {s t : State}

/-! ## Records -/

theorem setDom_self (c : CanonicalPwr s.pwr) (d : Nat) (r : DomainRec) : (s.setDom d r).dom d = r :=
  State.setDom_dom_self _ _ _ c.domains
theorem setDom_ne (d k : Nat) (r : DomainRec) (h : k ≠ d) : (s.setDom d r).dom k = s.dom k :=
  Sparse.get_set_ne _ _ _ _ _ h
theorem setDom_wf (c : CanonicalPwr s.pwr) (d : Nat) (r : DomainRec) : CanonicalPwr (s.setDom d r).pwr :=
  ⟨Sparse.wf_set _ _ _ _ c.domains⟩
theorem dom_congr (h : t.pwr = s.pwr) (d : Nat) : t.dom d = s.dom d := by unfold State.dom; rw [h]
theorem isOn_congr (h : t.pwr = s.pwr) (d : Nat) : t.isOn d = s.isOn d := by unfold State.isOn; rw [dom_congr h]

/-! ## Waking -/

/-- Nothing of Locket but the domains and the wake record of CORE differs. -/
def SameButWoken (s t : State) : Prop :=
  t.pwr = { s.pwr with domains := t.pwr.domains, wakeCause := t.pwr.wakeCause, wakeSrc := t.pwr.wakeSrc }

theorem SameButWoken.refl : SameButWoken s s := rfl
theorem SameButWoken.trans {u : State} (h : SameButWoken s t) (k : SameButWoken t u) : SameButWoken s u := by
  unfold SameButWoken at h k ⊢
  rw [k, h]
theorem SameButWoken.foldl {V : Type} (f : State → V → State) (h : ∀ s v, SameButWoken s (f s v)) :
    ∀ (l : List V) (s : State), SameButWoken s (l.foldl f s)
  | [], _ => .refl
  | v :: l, s => (h s v).trans (SameButWoken.foldl f h l (f s v))

theorem wakeOne_same (c : WakeCause) (s : State) (d : Nat) : SameButWoken s (wakeOne c s d) := by
  unfold wakeOne
  dsimp only
  split
  · rfl
  · exact .refl
  · split
    · exact .refl
    · split
      · exact .refl
      · split <;> rfl

theorem wake_same (c : WakeCause) (s : State) (d : Nat) : SameButWoken s (wake c s d) :=
  SameButWoken.foldl _ (wakeOne_same c) _ s

theorem wakeAll_same (c : WakeCause) (s : State) : SameButWoken s (wakeAll c s) := by
  unfold wakeAll
  split
  · exact .refl
  · exact SameButWoken.foldl _ (wake_same c) _ s

theorem watchMatch_same (s : State) (x : Src) : SameButWoken s (watchMatch s x) := by
  unfold watchMatch
  split
  · exact wakeAll_same _ _
  · exact .refl

theorem raiseSource_same (s : State) (n : Nat) : SameButWoken s (raiseSource s n) := by
  unfold raiseSource
  split
  · exact .refl
  · split
    · rfl
    · exact SameButWoken.trans (t := s.setSys { s.sys with held := Sparse.set false s.sys.held n true }) rfl (watchMatch_same _ _)

theorem wakeOne_ne (c : WakeCause) (d k : Nat) (h : k ≠ d) : (wakeOne c s d).dom k = s.dom k := by
  unfold wakeOne
  dsimp only
  split
  · exact setDom_ne _ _ _ h
  · rfl
  · split
    · rfl
    · split
      · rfl
      · split
        · exact setDom_ne _ _ _ h
        · exact setDom_ne _ _ _ h

/-- Waking begins exits and latches causes; it changes no domain that is ON and brings none to ON at once. -/
theorem wakeOne_isOn (h : CanonicalPwr s.pwr) (c : WakeCause) (d k : Nat) :
    (wakeOne c s d).isOn k = s.isOn k ∧ CanonicalPwr (wakeOne c s d).pwr := by
  have key : ∀ (r : DomainRec) (u : State), s.isOn d = false → (r.state == .on && r.trans == .none) = false →
      u.pwr.domains = (s.setDom d r).pwr.domains → u.isOn k = s.isOn k ∧ CanonicalPwr u.pwr := by
    intro r u h1 h2 h3
    have e : u.dom k = (s.setDom d r).dom k := by unfold State.dom; rw [h3]
    refine ⟨?_, ⟨by rw [h3]; exact (setDom_wf h d r).domains⟩⟩
    unfold State.isOn at h1 ⊢
    rw [e]
    by_cases x : k = d
    · subst x; rw [setDom_self h, h1, h2]
    · rw [setDom_ne _ _ _ x]
  unfold wakeOne
  dsimp only
  split
  · rename_i g hg
    refine key _ _ ?_ ?_ rfl
    · unfold State.isOn; rw [hg]; simp
    · dsimp only; rw [hg]; simp
  · exact ⟨rfl, h⟩
  · rename_i hg
    split
    · exact ⟨rfl, h⟩
    · rename_i hs
      split
      · exact ⟨rfl, h⟩
      · have h1 : s.isOn d = false := by
          unfold State.isOn
          rw [Bool.and_eq_false_iff]
          left
          rw [beq_eq_false_iff_ne]
          exact hs
        split <;> exact key _ _ h1 (by simp) rfl

theorem isOn_foldl {V : Type} (f : State → V → State) (k : Nat)
    (hf : ∀ s v, CanonicalPwr s.pwr → (f s v).isOn k = s.isOn k ∧ CanonicalPwr (f s v).pwr) :
    ∀ (l : List V) (s : State), CanonicalPwr s.pwr → (l.foldl f s).isOn k = s.isOn k ∧ CanonicalPwr (l.foldl f s).pwr
  | [], _, h => ⟨rfl, h⟩
  | v :: l, s, h => by
    obtain ⟨a, b⟩ := hf s v h
    obtain ⟨c, d⟩ := isOn_foldl f k hf l _ b
    exact ⟨c.trans a, d⟩

theorem wake_isOn (h : CanonicalPwr s.pwr) (c : WakeCause) (d k : Nat) :
    (wake c s d).isOn k = s.isOn k ∧ CanonicalPwr (wake c s d).pwr :=
  isOn_foldl _ k (fun _ v h => wakeOne_isOn h c v k) _ s h

theorem wakeAll_isOn (h : CanonicalPwr s.pwr) (c : WakeCause) (k : Nat) :
    (wakeAll c s).isOn k = s.isOn k ∧ CanonicalPwr (wakeAll c s).pwr := by
  unfold wakeAll
  split
  · exact ⟨rfl, h⟩
  · exact isOn_foldl _ k (fun _ v h => wake_isOn h c v k) _ s h

theorem watchMatch_isOn (h : CanonicalPwr s.pwr) (x : Src) (k : Nat) :
    (watchMatch s x).isOn k = s.isOn k ∧ CanonicalPwr (watchMatch s x).pwr := by
  unfold watchMatch
  split
  · exact wakeAll_isOn h _ k
  · exact ⟨rfl, h⟩

theorem raiseSource_isOn (h : CanonicalPwr s.pwr) (n k : Nat) :
    (raiseSource s n).isOn k = s.isOn k ∧ CanonicalPwr (raiseSource s n).pwr := by
  unfold raiseSource
  split
  · exact ⟨rfl, h⟩
  · split
    · exact ⟨rfl, h⟩
    · exact watchMatch_isOn (s := s.setSys { s.sys with held := Sparse.set false s.sys.held n true }) h _ k

theorem setLevel_isOn (h : CanonicalPwr s.pwr) (n k : Nat) (v : Bool) :
    (setLevel s n v).isOn k = s.isOn k ∧ CanonicalPwr (setLevel s n v).pwr := by
  unfold setLevel
  split
  · exact ⟨rfl, h⟩
  · dsimp only
    split
    · exact raiseSource_isOn (s := s.setSys { s.sys with levels := Sparse.set false s.sys.levels n v }) h n k
    · exact ⟨rfl, h⟩

theorem takeCredit_isOn (h : CanonicalPwr s.pwr) (m : Tenant) (k : Nat) :
    (takeCredit s m).isOn k = s.isOn k ∧ CanonicalPwr (takeCredit s m).pwr := by
  unfold takeCredit
  dsimp only
  split
  · generalize hu : State.modTenant _ m _ = u
    have e : u.pwr = s.pwr := by rw [← hu]; rfl
    obtain ⟨a, b⟩ := setLevel_isOn (s := u) (by rw [e]; exact h) (0x440 + m.toNat) k true
    exact ⟨a.trans (isOn_congr e k), b⟩
  · exact ⟨rfl, h⟩

theorem foldl_wake_only (c : WakeCause) (ds : List Nat) (s : State) : OnlyChanges [.pwr] s (ds.foldl (wake c) s) :=
  OnlyChanges.foldl _ (fun s d => wake_only c s d) _ _

/-! ## Entries -/

/-- The record of a domain whose entry begins. -/
theorem beginEntry_dom {queue : List Instr} (c : Kept queue s) (d : Nat) (goal : PState) (auto : Bool) :
    ((beginEntry s d goal auto).dom d).trans = .entering goal ∧ ((beginEntry s d goal auto).dom d).ordered = goal ∧
    ((beginEntry s d goal auto).dom d).auto = auto ∧ ((beginEntry s d goal auto).dom d).latched = none := by
  generalize hu : (if (s.dom d).state = .on then leaveOn s d else s) = u
  have e : beginEntry s d goal auto = u.setDom d { u.dom d with trans := .entering goal, ordered := goal, auto := auto, latched := none, lateSeen := false, logicSeen := false } := by
    rw [← hu]; rfl
  have k : Kept queue u := by rw [← hu]; split; exact leaveOn_keeps _ _ c; exact c
  rw [e, setDom_self k.pwrCanonical]
  exact ⟨rfl, rfl, rfl, rfl⟩

/-- The entry of a domain that is no Chain port changes its record alone, and BEAD holds its pads. -/
theorem beginEntry_plain (c : CanonicalPwr s.pwr) (d : Nat) (goal : PState) (auto : Bool) (h1 : d ≠ dCHE) (h2 : d ≠ dCHW) :
    (beginEntry s d goal auto).dom d = { s.dom d with trans := .entering goal, ordered := goal, auto := auto, latched := none, lateSeen := false, logicSeen := false } ∧
    (∀ k, k ≠ d → (beginEntry s d goal auto).dom k = s.dom k) ∧ OnlyChanges [.pwr, .bead] s (beginEntry s d goal auto) := by
  have o : OnlyChanges [.bead] s (leaveOn s d) := by
    unfold leaveOn
    rw [if_neg h1, if_neg h2]
    split
    · exact setBead_only _
    · exact .refl _ _
  generalize hu : (if (s.dom d).state = .on then leaveOn s d else s) = u
  have ou : OnlyChanges [.bead] s u := by rw [← hu]; split; exact o; exact .refl _ _
  have e : beginEntry s d goal auto = u.setDom d { u.dom d with trans := .entering goal, ordered := goal, auto := auto, latched := none, lateSeen := false, logicSeen := false } := by
    rw [← hu]; rfl
  have pu : u.pwr = s.pwr := ou .pwr (by decide)
  rw [e, ← dom_congr pu]
  refine ⟨setDom_self (by rw [pu]; exact c) _ _, fun k hk => ?_, (ou.mono (by decide)).trans ((setDom_only _ _).mono (by decide))⟩
  rw [setDom_ne _ _ _ hk, dom_congr pu]

end Sys2Proof.Machine
end

