-- ==== Sys2Proof/Laws/Effects.lean ====
section
/-! SUPPORT. What shared operations and parts of commands do: each lemma says once the effect of one of them, or what it leaves alone. -/
namespace Sys2Proof.Machine
open Sys2Proof

theorem next_frame {c : Instr} {s : State} {u : FrameUnit} (h : exec c s = .next (s.setFrame u)) :
    ∃ t, exec c s = .next t ∧ t.frame = u ∧ OnlyChanges [.frame] s t := ⟨_, h, rfl, setFrame_only _⟩

theorem next_intake {c : Instr} {s : State} {u : IntakeUnit} (h : exec c s = .next (s.setIntake u)) :
    ∃ t, exec c s = .next t ∧ t.intake = u ∧ OnlyChanges [.intake] s t := ⟨_, h, rfl, setIntake_only _⟩

theorem next_sys {c : Instr} {s : State} {u : SysUnit} (h : exec c s = .next (s.setSys u)) :
    ∃ t, exec c s = .next t ∧ t.sys = u ∧ OnlyChanges [.sys] s t := ⟨_, h, rfl, setSys_only _⟩

theorem next_vec {c : Instr} {s : State} {u : VecUnit} (h : exec c s = .next (s.setVec u)) :
    ∃ t, exec c s = .next t ∧ t.vec = u ∧ OnlyChanges [.vec] s t := ⟨_, h, rfl, setVec_only _⟩

theorem next_tgt {c : Instr} {s : State} {u : TgtUnit} (h : exec c s = .next (s.setTgt u)) :
    ∃ t, exec c s = .next t ∧ t.tgt = u ∧ OnlyChanges [.tgt] s t := ⟨_, h, rfl, setTgt_only _⟩

theorem next_ten {c : Instr} {s : State} {u : TenUnit} (h : exec c s = .next (s.setTen u)) :
    ∃ t, exec c s = .next t ∧ t.ten = u ∧ OnlyChanges [.ten] s t := ⟨_, h, rfl, setTen_only _⟩

theorem next_mbx {c : Instr} {s : State} {u : MbxUnit} (h : exec c s = .next (s.setMbx u)) :
    ∃ t, exec c s = .next t ∧ t.mbx = u ∧ OnlyChanges [.mbx] s t := ⟨_, h, rfl, setMbx_only _⟩

theorem next_acu {c : Instr} {s : State} {u : AcuUnit} (h : exec c s = .next (s.setAcu u)) :
    ∃ t, exec c s = .next t ∧ t.acu = u ∧ OnlyChanges [.acu] s t := ⟨_, h, rfl, setAcu_only _⟩

theorem next_chain {c : Instr} {s : State} {u : ChainUnit} (h : exec c s = .next (s.setChain u)) :
    ∃ t, exec c s = .next t ∧ t.chain = u ∧ OnlyChanges [.chain] s t := ⟨_, h, rfl, setChain_only _⟩

theorem next_bead {c : Instr} {s : State} {u : BeadUnit} (h : exec c s = .next (s.setBead u)) :
    ∃ t, exec c s = .next t ∧ t.bead = u ∧ OnlyChanges [.bead] s t := ⟨_, h, rfl, setBead_only _⟩

theorem next_pwr {c : Instr} {s : State} {u : PwrUnit} (h : exec c s = .next (s.setPwr u)) :
    ∃ t, exec c s = .next t ∧ t.pwr = u ∧ OnlyChanges [.pwr] s t := ⟨_, h, rfl, setPwr_only _⟩

theorem next_ras {c : Instr} {s : State} {u : RasUnit} (h : exec c s = .next (s.setRas u)) :
    ∃ t, exec c s = .next t ∧ t.ras = u ∧ OnlyChanges [.ras] s t := ⟨_, h, rfl, setRas_only _⟩

theorem next_loupe {c : Instr} {s : State} {u : LoupeUnit} (h : exec c s = .next (s.setLoupe u)) :
    ∃ t, exec c s = .next t ∧ t.loupe = u ∧ OnlyChanges [.loupe] s t := ⟨_, h, rfl, setLoupe_only _⟩

theorem next_hm {c : Instr} {s : State} {u : HmUnit} (h : exec c s = .next (s.setHm u)) :
    ∃ t, exec c s = .next t ∧ t.hm = u ∧ OnlyChanges [.hm] s t := ⟨_, h, rfl, setHm_only _⟩

theorem next_bnd {c : Instr} {s : State} {u : BoundaryUnit} (h : exec c s = .next (s.setBnd u)) :
    ∃ t, exec c s = .next t ∧ t.bnd = u ∧ OnlyChanges [.bnd] s t := ⟨_, h, rfl, setBnd_only _⟩

theorem snap1 (c : Snap) (o : Nat) : snapField c o 1 = (snapByte c o).toNat := by
  unfold snapField
  show ofBytesLE [snapByte c (o + 0)] = _
  unfold ofBytesLE ofBytesLE
  simp

theorem isWord_of {x : Src} (h : HasWords x) : isWordSource x = true := by
  unfold isWordSource
  rcases h with ⟨v, h⟩ | ⟨v, h⟩ <;> rw [h]

theorem allOn_append (s : State) (a b : List Nat) : s.allOn (a ++ b) = (s.allOn a && s.allOn b) := List.all_append

theorem edge_only_sys {s : State} (h : s.Clean) {x : Src} {n : Nat} (hx : srcClass x = .system n) : OnlyChanges [.vec, .tgt] s (applyEdge s x) := by
  have sat : ∀ u : State, OnlyChanges [.vec, .tgt] u (noteSaturated u x) := by
    intro u
    unfold noteSaturated
    simp only [hx]
    exact (setVec_only _).mono (by decide)
  rw [applyEdge_clean h]
  dsimp only
  have e : ∀ b : Bool, OnlyChanges [.vec, .tgt] s
      (if b then noteSaturated (s.putSt x (edgeWord (cMode (s.cfgOf x)) (s.stOf x)).1) x
       else s.putSt x (edgeWord (cMode (s.cfgOf x)) (s.stOf x)).1) := by
    intro b
    split
    · exact ((putSt_only _ _ _).mono (by decide)).trans (sat _)
    · exact (putSt_only _ _ _).mono (by decide)
  split
  · exact (e _).trans ((presentRaw_only _ _ _).mono (by decide))
  · exact e _

theorem defined_port {p : Nat} (h : p < 80) : sysDefined p = true ∧ sysDefined (0x80 + p) = true ∧ sysDefined (0x100 + p) = true ∧ sysDefined (0x180 + p) = true ∧ sysDefined (0x200 + p) = true := by
  unfold sysDefined
  have : 0x80 + p < 0x80 + 80 := by omega
  simp
  omega

theorem raises_port {p : Nat} (h : p < 80) : raisesOnEach p = true ∧ raisesOnEach (0x180 + p) = true ∧ raisesOnEach (0x200 + p) = false := by
  unfold raisesOnEach
  simp
  omega

theorem pageReg_serves {p : Path} {page : BitVec 10} {data : W32} {n : Tenant} {x : Slot} {s : State}
    (hcap : s.captures none = false) (hps : s.pageSlot p page = some (n, x)) (hr : s.resetting n = false)
    (reg : Nat) (h1 : reg < 0x400) (h2 : reg % 4 = 0) (h3 : isCompletion reg = false)
    (hs : s.Serves (wordWrite p (pageOffset page reg) data)) :
    write4 s p (pageOffset page reg) data = writeTargetPage s x reg data := by
  have hpl := page.isLt
  have hlt : pageOffset page reg < 0x400000 := by unfold pageOffset; omega
  have hge : 0x100000 ≤ pageOffset page reg ∧ pageOffset page reg < 0x200000 := by unfold pageOffset; omega
  rw [write4_serves hs hlt (by unfold pageOffset; omega)]
  have ho : (wordWrite p (pageOffset page reg) data).offset.toNat = pageOffset page reg := by
    show (BitVec.ofNat 22 _).toNat = _
    rw [BitVec.toNat_ofNat]; exact Nat.mod_eq_of_lt hlt
  have hpi : pageIndex (pageOffset page reg) = page := by
    unfold pageIndex pageOffset
    have : (0x100000 + 0x400 * page.toNat + reg - 0x100000) / 0x400 = page.toNat := by omega
    rw [this]; simp
  have hrg : pageOffset page reg % 0x400 = reg := by unfold pageOffset; omega
  have hop : opAt (pageOffset page reg) = none := by
    unfold opAt
    split <;> first | omega | rfl
  unfold performWrite
  simp only [ho, hop]
  rw [if_pos hge]
  unfold writeTarget
  have hcp : s.capturedPage (wordWrite p (pageOffset page reg) data) = none := by
    unfold State.capturedPage
    rw [hcap]
    exact if_neg (by simp)
  rw [hcp]
  simp only [ho, hpi, hrg, h3, Bool.false_and]
  have hpr : s.pageResets p page = false := by unfold State.pageResets; rw [hps]; exact hr
  have e : (wordWrite p (pageOffset page reg) data).path = p := rfl
  simp only [e, hpr]
  have e2 : writePageReg s p page reg (field (wordWrite p (pageOffset page reg) data).data 0 32) = writeTargetPage s x reg data := by
    unfold writePageReg
    rw [hps, wordWrite_low]
  rw [e2]
  rfl

theorem issue_only (s : State) (n : Tenant) (x : Slot) (a : W64) (q c : BitVec 16) (g : BitVec 8) (src : Src) :
    OnlyChanges [.tgt, .ten, .loupe] s (issue s n x a q c g src) := by
  unfold issue
  exact ((setTgt_only _).mono (by decide)).trans (((modTenant_only _ _).mono (by decide)).trans ((count_only _ _).mono (by decide)))

theorem issue_ten (s : State) (n : Tenant) (x : Slot) (a : W64) (q c : BitVec 16) (g : BitVec 8) (src : Src) :
    (issue s n x a q c g src).ten = (s.modTenant n fun r => { r with deliveries := r.deliveries + 1 }).ten := rfl

theorem issue_tgt (s : State) (n : Tenant) (x : Slot) (a : W64) (q c : BitVec 16) (g : BitVec 8) (src : Src) :
    (issue s n x a q c g src).tgt = { s.tgt with fabOut := s.tgt.fabOut ++ [{
      addr := a, data := dataWord q c g src, dropTag := x ++ q, tenant := n, egress := (s.tenant n).port
      fourDw := decide (2 ^ 32 ≤ a.toNat), requester := Config.managementId (s.tenant n).port }] } := rfl

theorem recordWait_only (s : State) (n : Tenant) (x : Slot) (src : Src) : OnlyChanges [.loupe] s (recordWait s n x src) := by
  unfold recordWait
  split
  · split
    · exact setLoupe_only _
    · exact .refl _ _
  · exact .refl _ _

theorem startHoldoff_clean {s : State} (h : s.Clean) (src : Src) (c : W64) :
    startHoldoff s src c = match s.groupOf src c with
      | some g => s.setClasp g { s.clasp g with remaining := (s.clasp g).interval }
      | none => s := by
  unfold startHoldoff
  rw [readGroupWord_clean h]
  dsimp only
  cases s.groupOf src c with
  | none => rfl
  | some g => simp only [touchClasp_clean h]

theorem startHoldoff_only {s : State} (h : s.Clean) (src : Src) (c : W64) : OnlyChanges [.ten] s (startHoldoff s src c) := by
  rw [startHoldoff_clean h]
  split
  · exact setClasp_only _ _
  · exact .refl _ _

theorem groupOf_recs {s t : State} (h1 : ∀ v, t.rangeOwner v = s.rangeOwner v) (h2 : t.ten.clasp = s.ten.clasp) (x : Src) (c : W64) : t.groupOf x c = s.groupOf x c := by
  unfold State.groupOf
  have : ∀ g, t.clasp g = s.clasp g := fun g => by unfold State.clasp; rw [h2]
  simp only [this, h1]

theorem finishResync_no {s : State} {n : Tenant} {q : ResyncRun} (h : (s.tenant n).resync = some q) (hn : ¬ (q.todo = some [] ∧ q.emitted = [])) :
    finishResync s n = s := by
  unfold finishResync
  rw [h]
  simp only
  rw [if_neg hn]

theorem leaveMailbox_only (s : State) (m : BitVec 7) : OnlyChanges [.acu] s (leaveMailbox s m) := by
  unfold leaveMailbox
  split
  · unfold leaveAgent
    split
    · exact setAcu_only _
    · exact .refl _ _
  · exact .refl _ _

theorem replyNotice_only (s : State) (m : BitVec 7) : OnlyChanges [.tgt] s (replyNotice s m) := by
  unfold replyNotice
  split
  · exact notify_only _ _ _
  · exact .refl _ _

theorem loadAgentRegions_only (s : State) (n : Tenant) : OnlyChanges [.acu] s (loadAgentRegions s n) := by
  unfold loadAgentRegions
  dsimp only
  split
  · exact (show OnlyChanges [.acu] s (s.setMpu 0 _) from setAcu_only _).trans (setAcu_only _)
  · exact .refl _ _

theorem boxIs {s t u : State} {m : BitVec 7} {r : Mailbox} {i : Instr} {ps : List Part} (hc : CanonicalMbx s.mbx) (a : u.mbx = s.mbx)
    (b : t.mbx = (u.setBox m r).mbx) :
    t.box m = r ∧ (∀ k, k ≠ m → t.box k = s.box k) ∧ t.mbx.fw = s.mbx.fw := by
  refine ⟨?_, fun k hk => ?_, ?_⟩
  · rw [box_congr b]; exact State.setBox_box_self _ _ _ (by rw [a]; exact hc.boxes)
  · rw [box_congr b, State.setBox_box_ne _ _ _ _ hk, box_congr a]
  · rw [b]; show u.mbx.fw = _; rw [a]

theorem mbTenant_64 : mbTenant 64 = none := rfl

theorem readEntries {s : State} (hcl : s.Clean) : ∀ (l : List Src) (out : List Byte), (∀ x ∈ l, HasWords x) →
    l.foldl readEntry (s, out) = (s, out ++ l.flatMap fun x =>
        bytesLE 8 (s.cfgOf x).toNat ++ bytesLE 4 (if cFwd (s.cfgOf x) then 0 else s.stOf x).toNat) := by
  intro l
  induction l with
  | nil => intro out _; simp
  | cons x l ih =>
    intro out h
    rw [List.foldl_cons]
    have : readEntry (s, out) x = (s, out ++ bytesLE 8 (s.cfgOf x).toNat ++ bytesLE 4 (if cFwd (s.cfgOf x) then 0 else s.stOf x).toNat) := by
      unfold readEntry
      dsimp only
      cases stLineOf x <;> simp only [readCfg_clean hcl, readLine_clean hcl]
    rw [this, ih _ fun y hy => h y (List.mem_cons_of_mem _ hy), List.flatMap_cons]
    simp

theorem boxLoad {s u : State} (hc : CanonicalMbx s.mbx) (a : u.mbx = s.mbx) (m : BitVec 7) (f : Mailbox → Mailbox) :
    (u.modBox m f).box m = f (s.box m) ∧ (∀ k, k ≠ m → (u.modBox m f).box k = s.box k) := by
  refine ⟨?_, fun k hk => ?_⟩
  · rw [modBox_self (by rw [a]; exact hc), box_congr a]
  · rw [modBox_ne _ _ _ hk, box_congr a]

theorem lineWrite_one (s : State) (i : Option Tenant) (l : LoadRun) (k : Nat) (w : W64) : lineWrite s i l k [w] = false := by
  unfold lineWrite; simp

theorem checkL (s : State) (x : Access) (h : (checkAccess s 1 x).2.1 = true) : (checkAccess s 1 x).1 = s := by
  have op : ∀ a, (decideByte s 1 x a).opened = none := by
    intro a
    unfold decideByte
    dsimp only
    split
    · split
      · rfl
      · split
        · unfold regionRuling; rw [if_neg (by simp)]
        · unfold defaultMap refuseByte; dsimp only; split <;> split <;> rfl
    · split
      · rfl
      · split
        · unfold regionRuling; rw [if_neg (by simp)]
        · unfold defaultMap refuseByte; dsimp only; split <;> split <;> rfl
  unfold checkAccess at h ⊢
  dsimp only at h ⊢
  split
  · unfold chargeOpened
    dsimp only
    simp only [op]
    split <;> rfl
  · rename_i k; rw [if_neg k] at h; exact absurd h Bool.false_ne_true

theorem foldwake_only (c : WakeCause) (ds : List Nat) (s : State) : OnlyChanges [.pwr] s (ds.foldl (wake c) s) :=
  OnlyChanges.foldl _ (fun s d => wake_only c s d) _ _

/-- The record of a slot under a tenant reset: its reset values, with a refill requested where a system source names it. -/
def renewed (b : Bool) : TargetRec := { refilling := b, wantsSys := b }

theorem removeRaw_renewed {s : State} (w : Sparse.wf {} s.tgt.recs = true) (y : Slot) (src : Src) (x : Slot) {b : Bool}
    (h : s.target x = renewed b) : (removeRaw s y src).target x = renewed b := by
  by_cases e : x = y
  · subst e
    have e1 : requestRefill (s.setTarget x (renewed b)) x = s.setTarget x (renewed b) := by
      unfold requestRefill
      simp only [State.setTarget_target_self _ _ _ w]
      rfl
    unfold removeRaw
    simp only [h]
    show (requestRefill (s.setTarget x (renewed b)) x).target x = renewed b
    rw [e1, State.setTarget_target_self _ _ _ w]
  · rw [(removeRaw_effect w y src).2.1 x e, h]

theorem zeroVector_renewed {s : State} {x : Slot} {b : Bool} (v : Nat) (hcl : s.Clean) (w : Sparse.wf {} s.tgt.recs = true)
    (h1 : s.target x = renewed b) (h2 : s.busyBit x = false) :
    (zeroVector s v).target x = renewed b ∧ (zeroVector s v).busyBit x = false := by
  have ut : ((s.putCfg (msgSrc v) 0).putSt (msgSrc v) 0).tgt = s.tgt := ((putCfg_only s _ _).trans (putSt_only _ _ _)) .tgt (by decide)
  unfold zeroVector
  dsimp only
  rw [removeSrc_clean ((hcl.putCfg (msgSrc v) 0).putSt (msgSrc v) 0)]
  generalize (s.putCfg (msgSrc v) 0).putSt (msgSrc v) 0 = u at *
  generalize (sPending (s.stOf (msgSrc v)) && cEnable (s.cfgOf (msgSrc v)) && !cFwd (s.cfgOf (msgSrc v))) = p
  generalize cTarget (s.cfgOf (msgSrc v)) = y
  have h1' : u.target x = renewed b := by unfold State.target at h1 ⊢; rw [ut]; exact h1
  have h2' : u.busyBit x = false := by unfold State.busyBit at h2 ⊢; rw [ut]; exact h2
  have w' : Sparse.wf {} u.tgt.recs = true := by rw [ut]; exact w
  cases p
  · exact ⟨h1', h2'⟩
  · refine ⟨removeRaw_renewed w' y _ x h1', ?_⟩
    have := (removeRaw_effect w' y (msgSrc v)).2.2
    show Sparse.get false (removeRaw u y (msgSrc v)).tgt.busy x.toNat = false
    rw [this]; exact h2'

theorem zeroVectors_renewed {queue : List Instr} (x : Slot) {b : Bool} (vs : List Nat) : ∀ s : State, Kept queue s → s.Clean →
    s.target x = renewed b → s.busyBit x = false →
    (vs.foldl zeroVector s).target x = renewed b ∧ (vs.foldl zeroVector s).busyBit x = false := by
  induction vs with
  | nil => intro s _ _ h1 h2; exact ⟨h1, h2⟩
  | cons v vs ih =>
    intro s k hcl h1 h2
    rw [List.foldl_cons]
    refine ih _ (zeroVector_keeps _ _ k) (hcl.of_ras (zeroVector_only hcl v .ras (by decide))) ?_ ?_
    · exact (zeroVector_renewed v hcl k.tgtCanonical.recs h1 h2).1
    · exact (zeroVector_renewed v hcl k.tgtCanonical.recs h1 h2).2

theorem zeroVectors_only : ∀ (vs : List Nat) (s : State), s.Clean → OnlyChanges [.vec, .tgt, .pwr] s (vs.foldl zeroVector s) := by
  intro vs
  induction vs with
  | nil => intro s _; exact .refl _ _
  | cons v vs ih =>
    intro s h
    have o := zeroVector_only h v
    exact (o.mono (by decide)).trans (ih _ (h.of_ras (o .ras (by decide))))

/-- What a cleared range does to the targets is what the clears of its vectors do. -/
theorem zeroRange_tgt {s : State} (h : s.Clean) (r : Range) :
    (zeroRange s r).tgt = (((s.vec.cfg.map (·.1) ++ s.vec.st.map (·.1)).filter (rangeHas r)).foldl zeroVector s).tgt := by
  unfold zeroRange
  dsimp only
  generalize (s.vec.cfg.map (·.1) ++ s.vec.st.map (·.1)).filter (rangeHas r) = keys
  have ar : (keys.foldl zeroVector s).ras.arm = false := by rw [zeroVectors_only keys s h .ras (by decide)]; exact h.arm
  have w : ∀ u : State, u.ras.arm = false → zeroRange.writtenRange u r = u := fun u hu => by
    unfold zeroRange.writtenRange
    rw [hu]
    rfl
  rw [w _ (by exact ar)]
  rfl

theorem requestRefill_sys {s : State} (x : Slot) (h : s.tgt.sysRequest = true) : (requestRefill s x).tgt.sysRequest = true := by
  have a : ∀ (u : State) n, u.tgt.sysRequest = true → (requestMsg u n).tgt.sysRequest = true := by
    intro u n k
    unfold requestMsg
    split <;> exact k
  unfold requestRefill
  dsimp only
  split
  · split
    · rfl
    · split
      · split
        · exact a _ _ h
        · exact h
      · exact h
  · exact h

/-- A request for a system pass stays while vectors are cleared. -/
theorem zeroVectors_sys : ∀ (vs : List Nat) (s : State), s.Clean → s.tgt.sysRequest = true →
    (vs.foldl zeroVector s).tgt.sysRequest = true := by
  intro vs
  induction vs with
  | nil => intro s _ h; exact h
  | cons v vs ih =>
    intro s h k
    have ut : ((s.putCfg (msgSrc v) 0).putSt (msgSrc v) 0).tgt = s.tgt := ((putCfg_only s _ _).trans (putSt_only _ _ _)) .tgt (by decide)
    refine ih _ (h.of_ras (zeroVector_only h v .ras (by decide))) ?_
    unfold zeroVector
    dsimp only
    rw [removeSrc_clean ((h.putCfg (msgSrc v) 0).putSt (msgSrc v) 0)]
    generalize (s.putCfg (msgSrc v) 0).putSt (msgSrc v) 0 = u at *
    have k' : u.tgt.sysRequest = true := by rw [ut]; exact k
    show (if _ then _ else _ : State).tgt.sysRequest = true
    split
    · exact requestRefill_sys _ k'
    · exact k'

theorem wf_setTarget {s : State} (x : Slot) (r : TargetRec) (w : Sparse.wf {} s.tgt.recs = true) :
    Sparse.wf {} (s.setTarget x r).tgt.recs = true := by
  show Sparse.wf {} (Sparse.set {} s.tgt.recs x.toNat r) = true
  exact Sparse.wf_set _ _ _ _ w

/-- The reset of one slot of a tenant under reset. -/
theorem resetGranted_effect {s : State} (hcl : s.Clean) (w1 : Sparse.wf {} s.tgt.recs = true) (w2 : Sparse.wf false s.tgt.busy = true)
    (x : Slot) :
    (resetGranted s x).target x = renewed (s.systemNames x) ∧ (resetGranted s x).busyBit x = false ∧
    (∀ y, y ≠ x → (resetGranted s x).target y = s.target y ∧ (resetGranted s x).busyBit y = s.busyBit y) ∧
    (s.tgt.sysRequest = true ∨ s.systemNames x = true → (resetGranted s x).tgt.sysRequest = true) ∧
    Sparse.wf {} (resetGranted s x).tgt.recs = true ∧ Sparse.wf false (resetGranted s x).tgt.busy = true ∧
    OnlyChanges [.tgt] s (resetGranted s x) := by
  have e : resetGranted s x = (if s.systemNames x then
      requestRefill (((resetTarget s x).setBusy x false).modTarget x fun r => { r with sysOverflow := true }) x
      else (resetTarget s x).setBusy x false) := by
    unfold resetGranted
    rw [wroteTarget_clean (hcl.of_ras (resetTarget_only s x .ras (by decide)))]
    rfl
  obtain ⟨a1, a2, a3, a4⟩ := clearSlot_self x w1 w2
  have o := (resetTarget_only s x).trans (setBusy_only x false)
  have ne := fun y (hy : y ≠ x) => clearSlot_ne (s := s) hy
  have sr : ((resetTarget s x).setBusy x false).tgt.sysRequest = s.tgt.sysRequest := rfl
  generalize (resetTarget s x).setBusy x false = u at e a1 a2 a3 a4 o ne sr
  rw [e]
  obtain h | h : s.systemNames x = false ∨ s.systemNames x = true := by cases s.systemNames x <;> simp
  · rw [h]
    refine ⟨a1, a2, ne, ?_, a3, a4, o⟩
    rintro (k | k)
    · exact sr.trans k
    · cases k
  · rw [h, if_pos rfl]
    have e2 : u.modTarget x (fun r => { r with sysOverflow := true }) = u.setTarget x { sysOverflow := true } := by
      unfold State.modTarget; rw [a1]
    rw [e2]
    have t2 : (u.setTarget x { sysOverflow := true }).target x = { sysOverflow := true } := State.setTarget_target_self _ _ _ a3
    have e3 : requestRefill (u.setTarget x { sysOverflow := true }) x =
        requestSys ((u.setTarget x { sysOverflow := true }).setTarget x (renewed true)) := by
      unfold requestRefill
      simp only [t2]
      rfl
    rw [e3]
    have a5 : Sparse.wf {} (u.setTarget x { sysOverflow := true }).tgt.recs = true := wf_setTarget _ _ a3
    have a6 := wf_setTarget (s := u.setTarget x { sysOverflow := true }) x (renewed true) a5
    have t6 : ∀ y, (requestSys ((u.setTarget x { sysOverflow := true }).setTarget x (renewed true))).target y =
        ((u.setTarget x { sysOverflow := true }).setTarget x (renewed true)).target y := fun _ => rfl
    refine ⟨(t6 x).trans (State.setTarget_target_self _ _ _ a5), a2, fun y hy => ⟨?_, (ne y hy).2⟩, fun _ => rfl, a6, a4,
      o.trans ((setTarget_only _ _).trans ((setTarget_only _ _).trans (requestSys_only _)))⟩
    exact (t6 y).trans ((State.setTarget_target_ne _ _ _ _ hy).trans ((State.setTarget_target_ne _ _ _ _ hy).trans (ne y hy).1))

/-- The reset of every slot of a tenant under reset. -/
theorem resetGranted_foldl : ∀ (xs : List Slot) (s : State), s.Clean → Sparse.wf {} s.tgt.recs = true →
    Sparse.wf false s.tgt.busy = true →
    (∀ x, x ∈ xs ∨ (s.target x = renewed (s.systemNames x) ∧ s.busyBit x = false) →
      (xs.foldl resetGranted s).target x = renewed (s.systemNames x) ∧ (xs.foldl resetGranted s).busyBit x = false) ∧
    (∀ y, y ∉ xs → (xs.foldl resetGranted s).target y = s.target y ∧ (xs.foldl resetGranted s).busyBit y = s.busyBit y) ∧
    (s.tgt.sysRequest = true ∨ (∃ x ∈ xs, s.systemNames x = true) → (xs.foldl resetGranted s).tgt.sysRequest = true) ∧
    OnlyChanges [.tgt] s (xs.foldl resetGranted s) := by
  intro xs
  induction xs with
  | nil =>
    intro s _ _ _
    refine ⟨fun x h => ?_, fun y _ => ⟨rfl, rfl⟩, ?_, .refl _ _⟩
    · rcases h with h | h
      · exact absurd h (by simp)
      · exact h
    · rintro (k | ⟨x, hx, -⟩)
      · exact k
      · exact absurd hx (by simp)
  | cons x xs ih =>
    intro s hcl w1 w2
    obtain ⟨b1, b2, b3, b4, b5, b6, b7⟩ := resetGranted_effect hcl w1 w2 x
    have nm : ∀ y, (resetGranted s x).systemNames y = s.systemNames y := fun y => by
      unfold State.systemNames; rw [b7 .vec (by decide)]
    obtain ⟨c1, c2, c3, c4⟩ := ih _ (hcl.of_ras (b7 .ras (by decide))) b5 b6
    rw [List.foldl_cons]
    refine ⟨fun y h => ?_, fun y h => ?_, fun h => ?_, b7.trans c4⟩
    · rw [← nm]
      refine c1 y ?_
      by_cases hy : y = x
      · subst hy; right; rw [nm]; exact ⟨b1, b2⟩
      · rcases h with h | h
        · rcases List.mem_cons.1 h with h | h
          · exact absurd h hy
          · exact .inl h
        · right; rw [nm, (b3 y hy).1, (b3 y hy).2]; exact h
    · have hy : y ≠ x := fun e => h (by rw [e]; exact List.mem_cons_self ..)
      have hx : y ∉ xs := fun e => h (List.mem_cons_of_mem _ e)
      rw [(c2 y hx).1, (c2 y hx).2]; exact b3 y hy
    · refine c3 ?_
      rcases h with h | ⟨y, hy, hn⟩
      · exact .inl (b4 (.inl h))
      · rcases List.mem_cons.1 hy with e | e
        · subst e; exact .inl (b4 (.inr hn))
        · exact .inr ⟨y, e, by rw [nm]; exact hn⟩

theorem resetReply_only (n : Tenant) (q : ResetRun) (s : State) (m : BitVec 7) (h : m = 64 ∨ m = n.setWidth 7) : OnlyChanges [.mbx] s (resetReply n q s m) := by
  unfold resetReply
  dsimp only
  split
  · split
    · exact setBox_only _ _
    · exact .refl _ _
  · rename_i hn
    have e : m = 64 := h.resolve_right hn
    subst e
    unfold deposit
    rw [show leaveMailbox s 64 = s from rfl]
    dsimp only
    split
    · exact .refl _ _
    · split
      · exact setBox_only _ _
      · exact setBox_only _ _

theorem orderOn_ne {s : State} (d : Nat) (h : d ∉ required d) : (orderOn s d) = wakeOne .order ((required d).foldl (fun s n =>
    let t := wakeOne .order s n
    if (s.dom n).trans = (t.dom n).trans then t else t.setDom n { t.dom n with auto := true }) s) d ∧
    (((required d).foldl (fun s n =>
    let t := wakeOne .order s n
    if (s.dom n).trans = (t.dom n).trans then t else t.setDom n { t.dom n with auto := true }) s).dom d) = s.dom d := by
  refine ⟨rfl, ?_⟩
  have : ∀ (l : List Nat) (s : State), d ∉ l → ((l.foldl (fun s n =>
    let t := wakeOne .order s n
    if (s.dom n).trans = (t.dom n).trans then t else t.setDom n { t.dom n with auto := true }) s).dom d) = s.dom d := by
    intro l
    induction l with
    | nil => intro s _; rfl
    | cons a l ih =>
      intro s hd
      have : d ≠ a ∧ d ∉ l := by simpa using hd
      rw [List.foldl_cons, ih _ this.2]
      dsimp only
      split
      · exact wakeOne_ne _ _ _ this.1
      · rw [setDom_ne _ _ _ this.1]; exact wakeOne_ne _ _ _ this.1
  exact this _ _ h

theorem orderOn_only (s : State) (d : Nat) : OnlyChanges [.pwr] s (orderOn s d) := by
  refine OnlyChanges.trans (OnlyChanges.foldl _ (fun s n => ?_) _ _) (wakeOne_only _ _ _)
  dsimp only
  split
  · exact wakeOne_only _ _ _
  · exact (wakeOne_only _ _ _).trans (setDom_only _ _)

theorem replayCause_effect (v : State) (d : Nat) (c : WakeCause) :
    SameButWoken (v.setPwr { v.pwr with bounces := satInc v.pwr.bounces, bounce := true }) (replayCause v d c) ∧
    OnlyChanges [.pwr, .sys] v (replayCause v d c) := by
  have b3 := setPwr_only (s := v) { v.pwr with bounces := satInc v.pwr.bounces, bounce := true }
  have b1 := raiseSource_same (v.setPwr { v.pwr with bounces := satInc v.pwr.bounces, bounce := true }) 0x27D
  have b2 := raiseSource_only (v.setPwr { v.pwr with bounces := satInc v.pwr.bounces, bounce := true }) 0x27D
  have o : OnlyChanges [.pwr, .sys] v (raiseSource (v.setPwr { v.pwr with bounces := satInc v.pwr.bounces, bounce := true }) 0x27D) := (b3.mono (by decide)).trans (b2.mono (by decide))
  unfold replayCause
  dsimp only
  split
  · exact ⟨b1.trans (wakeAll_same _ _), o.trans ((wakeAll_only _ _).mono (by decide))⟩
  · exact ⟨b1.trans (wake_same _ _ _), o.trans ((wake_only _ _ _).mono (by decide))⟩

theorem raise_tblLost (s : State) (n : Nat) : (raiseSource s n).pwr.tblLost = s.pwr.tblLost ∧ (raiseSource s n).pwr.retLines = s.pwr.retLines ∧ (raiseSource s n).vec = s.vec := by
  have := raiseSource_same s n
  exact ⟨by rw [this], by rw [this], raiseSource_only _ _ .vec (by decide)⟩
def BankLost (s : State) (b : Nat) : Prop :=
  s.pwr.tblLost.getLsbD b = true ∧ s.vec.lostBanks.getLsbD b = true ∧
    ∀ v, (inCfgBank b v = true → Sparse.get 0 s.vec.cfg v = 0) ∧ (inStBank b v = true → Sparse.get 0 s.vec.st v = 0)

theorem loseTableBank_effect (s : State) (b : Nat) (hb : b < 32) :
    BankLost (loseTableBank s b) b ∧ (∀ k, BankLost s k → BankLost (loseTableBank s b) k) ∧
    (loseTableBank s b).pwr.retLines = s.pwr.retLines ∧ OnlyChanges [.pwr, .vec, .ras, .sys] s (loseTableBank s b) := by
  generalize hv : ({ s.vec with
    cfg := Sparse.dropKeys (inCfgBank b) s.vec.cfg, st := Sparse.dropKeys (inStBank b) s.vec.st
    lostBanks := s.vec.lostBanks ||| BitVec.twoPow 32 b, reloaded := Sparse.dropKeys (inBank b) s.vec.reloaded } : VecUnit) = v
  have e : ∃ p r, loseTableBank s b = raiseSource (((s.setVec v).setPwr p).setRas r) 0x27C ∧ p.tblLost = s.pwr.tblLost ||| BitVec.twoPow 32 b ∧ p.retLines = s.pwr.retLines := by
    rw [← hv]; exact ⟨_, _, rfl, rfl, rfl⟩
  obtain ⟨p, r, e, hp, hr⟩ := e
  obtain ⟨r1, r2, r3⟩ := raise_tblLost (((s.setVec v).setPwr p).setRas r) 0x27C
  have o := raiseSource_only (((s.setVec v).setPwr p).setRas r) 0x27C
  rw [← e] at r1 r2 r3 o
  have r1' : (loseTableBank s b).pwr.tblLost = s.pwr.tblLost ||| BitVec.twoPow 32 b := r1.trans hp
  have r3' : (loseTableBank s b).vec = v := r3
  generalize loseTableBank s b = u at *
  refine ⟨?_, fun k hk => ?_, r2.trans hr, ?_⟩
  · unfold BankLost
    rw [r1', r3', ← hv]
    refine ⟨by simp [hb], by simp [hb], fun v => ⟨fun h => ?_, fun h => ?_⟩⟩
    · show Sparse.get 0 (Sparse.dropKeys _ _) v = 0
      rw [Sparse.get_dropKeys, h]; rfl
    · show Sparse.get 0 (Sparse.dropKeys _ _) v = 0
      rw [Sparse.get_dropKeys, h]; rfl
  · unfold BankLost at hk ⊢
    rw [r1', r3', ← hv]
    refine ⟨by simp [hk.1], by simp [hk.2.1], fun v => ⟨fun h => ?_, fun h => ?_⟩⟩
    · show Sparse.get 0 (Sparse.dropKeys _ _) v = 0
      rw [Sparse.get_dropKeys, (hk.2.2 v).1 h]; exact ite_self _
    · show Sparse.get 0 (Sparse.dropKeys _ _) v = 0
      rw [Sparse.get_dropKeys, (hk.2.2 v).2 h]; exact ite_self _
  · exact ((setVec_only _).mono (by decide)).trans (((setPwr_only _).mono (by decide)).trans (((setRas_only _).mono (by decide)).trans (o.mono (by decide))))

theorem chargeFault_same (s : State) (n : Tenant) (c : Nat) (d : W32) : SameButWoken s (chargeFault s n c d) := by
  have key : ∀ u : State, u.pwr = s.pwr → SameButWoken s (setLevel u (0x400 + n.toNat) true) := by
    intro u h
    refine SameButWoken.trans (t := u) (by unfold SameButWoken; rw [h]) ?_
    unfold setLevel
    split
    · exact .refl
    · dsimp only
      split
      · exact SameButWoken.trans (t := u.setSys { u.sys with levels := Sparse.set false u.sys.levels (0x400 + n.toNat) true }) rfl (raiseSource_same _ _)
      · rfl
  unfold chargeFault
  refine key _ ?_
  dsimp only
  split
  · rw [notify_only _ _ _ .pwr (by decide)]; rfl
  · rfl

theorem keep_retLines {s : State} (h : s.pwr.retLines = []) : s.setPwr { s.pwr with retLines := [] } = s := by rw [← h]; rfl

theorem keep_lostActive {s : State} (h : s.pwr.lostActive = []) : s.setPwr { s.pwr with lostActive := [] } = s := by rw [← h]; rfl

theorem keep_waiting {s : State} (h : s.pwr.waiting = []) : s.setPwr { s.pwr with waiting := [] } = s := by rw [← h]; rfl

theorem drainLost_none {s : State} (h : s.pwr.lostActive = []) : drainLost s = s := by
  unfold drainLost
  split
  · rfl
  · rw [h]
    show (s.setPwr { s.pwr with lostActive := [] }) = s
    exact keep_lostActive h

theorem presentBanks_none {s : State} (h : s.pwr.lostBanks = 0) : presentBanks s = s := by
  unfold presentBanks
  dsimp only
  rw [if_pos (.inl h)]

theorem reportLines_none {s : State} (h : s.pwr.retLines = []) (d : Nat) : reportLines s d = s := by
  unfold reportLines
  dsimp only
  rw [h]
  show s.setPwr { s.pwr with retLines := [] } = s
  exact keep_retLines h

theorem reachOn_ret {s : State} {d : Nat} {p : Phase} {retry : Bool} {lkt : BitVec 48} (h : (s.dom d).trans = .exiting .ret p retry) :
    reachOn s d lkt = atOn (raiseSource (s.setDom d { s.dom d with state := .on, trans := .none, logicSeen := false }) 0x27A) d .ret lkt := by
  unfold reachOn
  dsimp only
  split
  · rename_i f _ _ hk
    rw [h] at hk
    cases hk
    rfl
  · rename_i hk; exact absurd h (hk _ _ _)

theorem setWired_effect {s : State} (c : CanonicalSys s.sys) (i : Nat) (b : Bool) : (setWired s i b).level (wiredSrc i) = b ∧
    (∀ k, (setWired s i b).latch k = s.latch k) ∧ OnlyChanges [.sys] s (setWired s i b) ∧ CanonicalSys (setWired s i b).sys :=
  ⟨(Sparse.get_set _ _ _ _ _ c.levels).trans (if_pos rfl), fun _ => rfl, setSys_only _, ⟨c.latch, Sparse.wf_set _ _ _ _ c.levels, c.held, c.linkFell⟩⟩

theorem setErr_new {s : State} (h : s.ras.errs = []) (l : LineId) (e : BitVec 280) (he : e ≠ 0) : (s.setErr l e).ras.errs = [(l, e)] := by
  unfold State.setErr
  rw [h]
  show (if e = 0 then _ else (l, e) :: []) = _
  rw [if_neg he]

theorem overtakeBox_only (s : State) (m : BitVec 7) : OnlyChanges [.mbx] s (overtakeBox s m) := by
  unfold overtakeBox endLoad
  have a := modBox_only (s := s) m (fun b => { b with restarting := true })
  generalize (s.modBox m fun b => { b with restarting := true }) = u at *
  dsimp only
  split
  · exact a.trans (setBox_only _ _)
  · split
    · exact a.trans (modBox_only _ _)
    · exact a
  · exact a
  · exact a

theorem overtakeBox_fw (s : State) (m : BitVec 7) : (overtakeBox s m).mbx.fw = s.mbx.fw := by
  unfold overtakeBox endLoad
  have a : (s.modBox m fun b => { b with restarting := true }).mbx.fw = s.mbx.fw := rfl
  generalize (s.modBox m fun b => { b with restarting := true }) = u at *
  dsimp only
  split
  · exact a
  · split
    · exact a
    · exact a
  · exact a
  · exact a

theorem restartFirmware_fw (s : State) : (restartFirmware s).mbx.fw = { s.mbx.fw with alive := false, restart := true, loads := false, previous := some s.mbx.fw.runSlot } ∧
    OnlyChanges [.mbx, .acu, .sys, .pwr] s (restartFirmware s) := by
  have f1 : ∀ (l : List (BitVec 7)) (s : State), (l.foldl overtakeBox s).mbx.fw = s.mbx.fw := by
    intro l; induction l with
    | nil => intro s; rfl
    | cons a l ih => intro s; rw [List.foldl_cons, ih, overtakeBox_fw]
  have f2 := OnlyChanges.foldl _ (fun s m => overtakeBox_only s m) ((List.range 65).map (BitVec.ofNat 7)) s
  have f1' := f1 ((List.range 65).map (BitVec.ofNat 7)) s
  unfold restartFirmware
  generalize ((List.range 65).map (BitVec.ofNat 7)).foldl overtakeBox s = u at *
  dsimp only
  have o := raiseSource_only ((u.setFw { u.mbx.fw with alive := false, restart := true, loads := false, previous := some u.mbx.fw.runSlot }).setAcu { (u.setFw { u.mbx.fw with alive := false, restart := true, loads := false, previous := some u.mbx.fw.runSlot }).acu with user := false, current := 0x40 }) 0x26A
  refine ⟨?_, (f2.mono (by decide)).trans (OnlyChanges.trans ((setMbx_only _).mono (by decide)) (OnlyChanges.trans ((setAcu_only _).mono (by decide)) (o.mono (by decide))))⟩
  rw [o .mbx (by decide)]
  show ({ u.mbx.fw with alive := false, restart := true, loads := false, previous := some u.mbx.fw.runSlot } : FwUnit) = _
  rw [f1']

theorem modBox_fw (s : State) (m : BitVec 7) (f : Mailbox → Mailbox) : (s.modBox m f).mbx.fw = s.mbx.fw := rfl

theorem overtakeBox_restarting {s : State} (c : CanonicalMbx s.mbx) (m : BitVec 7) :
    ((overtakeBox s m).box m).restarting = true ∧ (∀ k, k ≠ m → (overtakeBox s m).box k = s.box k) ∧ CanonicalMbx (overtakeBox s m).mbx ∧
    ((s.box m).load = none → (s.box m).work = .waiting → ((overtakeBox s m).box m).load = none ∧ ((overtakeBox s m).box m).work = .waiting) := by
  have cu : CanonicalMbx (s.modBox m fun b => { b with restarting := true }).mbx := ⟨Sparse.wf_set _ _ _ _ c.boxes⟩
  have us : (s.modBox m fun b => { b with restarting := true }).box m = { s.box m with restarting := true } := modBox_self c _ _
  have un : ∀ k, k ≠ m → (s.modBox m fun b => { b with restarting := true }).box k = s.box k := fun k hk => modBox_ne _ _ _ hk
  unfold overtakeBox
  generalize s.modBox m (fun b => { b with restarting := true }) = u at *
  dsimp only
  split
  · rename_i hw
    have : ∀ b, (u.setBox m b).box m = b := fun b => State.setBox_box_self _ _ _ cu.boxes
    refine ⟨?_, ?_, ⟨Sparse.wf_set _ _ _ _ cu.boxes⟩, ?_⟩
    · rw [this, us]
    · intro k hk
      exact (State.setBox_box_ne _ _ _ _ hk).trans (un k hk)
    · intro _ h; rw [us] at hw; rw [show (s.box m).work = Work.run from hw] at h; cases h
  · split
    · rename_i l hl
      unfold endLoad
      refine ⟨?_, ?_, ⟨Sparse.wf_set _ _ _ _ cu.boxes⟩, ?_⟩
      · rw [modBox_self cu, us]
      · intro k hk
        exact (modBox_ne _ _ _ hk).trans (un k hk)
      · intro h _; rw [us] at hl; rw [show (s.box m).load = some l from hl] at h; cases h
    · exact ⟨by rw [us], un, cu, fun h k => by rw [us]; exact ⟨h, k⟩⟩
  · exact ⟨by rw [us], un, cu, fun h k => by rw [us]; exact ⟨h, k⟩⟩
  · exact ⟨by rw [us], un, cu, fun h k => by rw [us]; exact ⟨h, k⟩⟩

theorem overtakeAll (l : List (BitVec 7)) : ∀ {s : State}, CanonicalMbx s.mbx →
    CanonicalMbx (l.foldl overtakeBox s).mbx ∧
    (∀ k, k ∈ l ∨ (s.box k).restarting = true → ((l.foldl overtakeBox s).box k).restarting = true) ∧
    (∀ k, (s.box k).load = none → (s.box k).work = .waiting → ((l.foldl overtakeBox s).box k).work = .waiting) := by
  induction l with
  | nil => intro s c; exact ⟨c, fun k h => h.resolve_left List.not_mem_nil, fun k _ h => h⟩
  | cons m l ih =>
    intro s c
    obtain ⟨a1, a2, a3, a4⟩ := overtakeBox_restarting c m
    obtain ⟨b1, b2, b3⟩ := ih a3
    rw [List.foldl_cons]
    refine ⟨b1, fun k h => ?_, fun k h1 h2 => ?_⟩
    · by_cases hk : k = m
      · exact b2 k (.inr (hk ▸ a1))
      · rcases h with h | h
        · rcases List.mem_cons.mp h with h | h
          · exact absurd h hk
          · exact b2 k (.inl h)
        · exact b2 k (.inr (by rw [a2 k hk]; exact h))
    · by_cases hk : k = m
      · subst hk
        obtain ⟨c1, c2⟩ := a4 h1 h2
        exact b3 k c1 c2
      · exact b3 k (by rw [a2 k hk]; exact h1) (by rw [a2 k hk]; exact h2)

theorem mem_boxes {k : BitVec 7} (h : k.toNat ≤ 64) : k ∈ (List.range 65).map (BitVec.ofNat 7) :=
  List.mem_map.mpr ⟨k.toNat, List.mem_range.mpr (by omega), by simp⟩

theorem restartFirmware_effect {s : State} (cm : CanonicalMbx s.mbx) (cs : CanonicalSys s.sys) :
    let t := restartFirmware s
    (∀ k : BitVec 7, k.toNat ≤ 64 → (t.box k).restarting = true) ∧ t.acu.user = false ∧ t.acu.current = 0x40 ∧
    (s.isOn dCORE = true → (t.latch 0x26A).arrival = true) ∧
    (∀ k, (s.box k).load = none → (s.box k).work = .waiting → (t.box k).work = .waiting) := by
  obtain ⟨-, a2, a3⟩ := overtakeAll ((List.range 65).map (BitVec.ofNat 7)) cm
  have o := OnlyChanges.foldl _ (fun s m => overtakeBox_only s m) ((List.range 65).map (BitVec.ofNat 7)) s
  unfold restartFirmware
  generalize ((List.range 65).map (BitVec.ofNat 7)).foldl overtakeBox s = u at *
  dsimp only
  generalize hv : (u.setFw { u.mbx.fw with alive := false, restart := true, loads := false, previous := some u.mbx.fw.runSlot }).setAcu { (u.setFw { u.mbx.fw with alive := false, restart := true, loads := false, previous := some u.mbx.fw.runSlot }).acu with user := false, current := 0x40 } = v
  have vo : OnlyChanges [.mbx, .acu] u v := by rw [← hv]; exact (OnlyChanges.mono (setMbx_only _) (by decide)).trans ((setAcu_only _).mono (by decide))
  have va : v.acu.user = false ∧ v.acu.current = 0x40 := by rw [← hv]; exact ⟨rfl, rfl⟩
  have vb : ∀ k, v.box k = u.box k := by rw [← hv]; exact fun _ => rfl
  have r := raiseSource_only v 0x26A
  have rb : ∀ k, (raiseSource v 0x26A).box k = u.box k := fun k => (box_congr (r .mbx (by decide)) k).trans (vb k)
  refine ⟨fun k hk => ?_, ?_, ?_, fun on => ?_, fun k h1 h2 => ?_⟩
  · rw [rb]; exact a2 k (.inl (mem_boxes hk))
  · rw [r .acu (by decide)]; exact va.1
  · rw [r .acu (by decide)]; exact va.2
  · have cv : CanonicalSys v.sys := by rw [vo .sys (by decide), o .sys (by decide)]; exact cs
    exact (raiseSource_effect cv (by decide) (by rw [isOn_congr (vo .pwr (by decide)), isOn_congr (o .pwr (by decide))]; exact on)).1
  · rw [rb]; exact a3 k h1 h2

theorem leaveAgent_only (s : State) (n : Tenant) : OnlyChanges [.acu] s (leaveAgent s n) := by
  unfold leaveAgent
  split
  · exact setAcu_only _
  · exact .refl _ _

theorem faulted_fields (r : TenantRec) (c : Nat) (d f : W32) : (faulted r c d f).faultCount = satInc r.faultCount ∧
    (faulted r c d f).faultSummary = r.faultSummary ||| BitVec.twoPow 8 (faultBit c) := by
  unfold faulted
  dsimp only
  split <;> exact ⟨rfl, rfl⟩

theorem checkC (s : State) (x : Access) (h : (checkAccess s 0 x).2.1 = true) : (checkAccess s 0 x).1 = s := by
  have op : ∀ a, (decideByte s 0 x a).opened = none := by
    intro a
    unfold decideByte
    dsimp only
    split
    · split
      · rfl
      · split
        · unfold regionRuling; rw [if_neg (by simp)]
        · unfold defaultMap refuseByte; dsimp only; split <;> split <;> rfl
    · split
      · rfl
      · split
        · unfold regionRuling; rw [if_neg (by simp)]
        · unfold defaultMap refuseByte; dsimp only; split <;> split <;> rfl
  unfold checkAccess at h ⊢
  dsimp only at h ⊢
  split
  · unfold chargeOpened
    dsimp only
    simp only [op]
    split <;> rfl
  · rename_i k; rw [if_neg k] at h; exact absurd h Bool.false_ne_true

theorem fmPage {s : State} {p : Path} {off base : Nat} {pg : Page} {data : W32} (f : pathFm p = true)
    (h : s.Serves (wordWrite p off data)) (l : 0x2024 ≤ off) (u : off < 0x100000) (k : off % 4 = 0)
    (n : off < 0x10000 ∨ 0x1002C ≤ off) (g : pageOf off = some (pg, base)) :
    fmWrite4 s p off data = writePage s pg (off - base) data := by
  have o : opAt off = none := by
    unfold opAt
    split <;> first | rfl | omega
  rw [fmWrite4_serves f h (by omega) k o (by omega), writeWord_page f l u (by omega), g]

theorem fold_overrun : ∀ (l : List (Byte × Nat)) (o : Nat) (b : Mailbox), b.ring = true → l ≠ [] →
    l.foldl (fun b e => writeCommandByte b (o + e.2) e.1) b = { b with overrun := true }
  | [], _, _, _, k => absurd rfl k
  | e :: l, o, b, h, _ => by
    have w : writeCommandByte b (o + e.2) e.1 = { b with overrun := true } := if_pos h
    rw [List.foldl_cons, w]
    cases l with
    | nil => rfl
    | cons e' l => exact fold_overrun (e' :: l) o { b with overrun := true } h (by simp)

theorem bytes4 (n : Nat) : (bytesLE 4 n).zipIdx ≠ [] := by
  intro h
  have := congrArg List.length h
  rw [List.length_zipIdx] at this
  simp [bytesLE] at this

theorem modBox_fix {s : State} (m : BitVec 7) (f : Mailbox → Mailbox) (r : Mailbox) (h : f (s.box m) = r) : s.modBox m f = s.setBox m r := by
  rw [← h]; rfl

theorem mailWord {s : State} {p : Path} {off : Nat} {data : W32} (l : 0x1000 ≤ off) (u : off < 0x1210) :
    writeWord s p off data = writeBoxWord s p (off - 0x1000) data := by
  unfold writeWord
  rw [if_neg (by omega), if_pos ⟨l, u⟩]
def BoxSet (m : BitVec 7) (r : Mailbox) (s t : State) : Prop :=
  t.box m = r ∧ (∀ k, k ≠ m → t.box k = s.box k) ∧ t.mbx.fw = s.mbx.fw ∧ OnlyChanges [.mbx] s t ∧ CanonicalMbx t.mbx

theorem boxSet_set {s : State} (hc : CanonicalMbx s.mbx) (m : BitVec 7) (r : Mailbox) : BoxSet m r s (s.setBox m r) :=
  ⟨State.setBox_box_self _ _ _ hc.boxes, fun _ hk => State.setBox_box_ne _ _ _ _ hk, rfl, setBox_only _ _, ⟨Sparse.wf_set _ _ _ _ hc.boxes⟩⟩

theorem boxSet_mod {s : State} (hc : CanonicalMbx s.mbx) (m : BitVec 7) (f : Mailbox → Mailbox) (r : Mailbox) (h : f (s.box m) = r) :
    BoxSet m r s (s.modBox m f) := by rw [modBox_fix m f r h]; exact boxSet_set hc m r

theorem BoxSet.trans {s t u : State} {m : BitVec 7} {r r' : Mailbox} (h : BoxSet m r s t) (k : BoxSet m r' t u) : BoxSet m r' s u :=
  ⟨k.1, fun j hj => (k.2.1 j hj).trans (h.2.1 j hj), k.2.2.1.trans h.2.2.1, h.2.2.2.1.trans k.2.2.2.1, k.2.2.2.2⟩

theorem BoxSet.refl {s : State} (hc : CanonicalMbx s.mbx) (m : BitVec 7) : BoxSet m (s.box m) s s :=
  ⟨rfl, fun _ _ => rfl, rfl, fun p _ => by cases p <;> rfl, hc⟩

theorem areaHeld {s : State} {p : Path} {off : Nat} {data : W32} (hc : CanonicalMbx s.mbx)
    (ha : (0x1000 ≤ off ∧ off < 0x1100) ∨ off = 0x1208) (hr : (s.box (pathMailbox p)).ring = true) :
    BoxSet (pathMailbox p) { s.box (pathMailbox p) with overrun := true } s (writeWord s p off data) := by
  rw [mailWord (by omega) (by omega)]
  unfold writeBoxWord
  dsimp only
  rcases ha with h | h
  · rw [if_pos (by omega)]
    exact boxSet_mod hc _ _ _ (fold_overrun _ _ _ hr (bytes4 _))
  · rw [h, if_neg (by decide)]
    exact boxSet_mod hc _ _ _ (if_pos hr)

theorem opNone {off : Nat} (h : off < 0x10000) : opAt off = none := by
  unfold opAt
  split <;> first | rfl | omega

theorem ofNat22 {off : Nat} (h : off < 0x400000) : (BitVec.ofNat 22 off).toNat = off := by
  rw [BitVec.toNat_ofNat]; exact Nat.mod_eq_of_lt h

theorem low32 (data : W64) : (field data 0 32 : W32).getLsbD 0 = data.getLsbD 0 ∧ (field data 0 32 : W32).getLsbD 1 = data.getLsbD 1 := by
  unfold field
  constructor <;> simp

theorem byteAt_bytes (data : W32) : bytesLE 4 data.toNat = [byteAt data 0, byteAt data 1, byteAt data 2, byteAt data 3] := by
  have k : ∀ i, byteAt data i = BitVec.ofNat 8 (data.toNat / 2 ^ (8 * i)) := by
    intro i
    unfold byteAt field
    apply BitVec.eq_of_toNat_eq
    rw [BitVec.toNat_setWidth, BitVec.toNat_ushiftRight, Nat.shiftRight_eq_div_pow, BitVec.toNat_ofNat]
  rw [k, k, k, k]
  simp [bytesLE, Nat.div_div_eq_div_mul]

theorem setHalf_none {s : State} {p : Path} (h : s.halfOf p = none) : setHalf s p none = s := by
  cases p with
  | tenant n => rfl
  | manager => show s.setBnd _ = s; rw [← show s.bnd.halfManager = none from h]; rfl
  | smbus => show s.setBnd _ = s; rw [← show s.bnd.halfSmbus = none from h]; rfl

theorem readOne {s : State} {p : Path} {off : Nat} (l : off < 0x400000) (h : s.halfOf p = none) (t : touchRead s p off = s)
    (e : s.entryAt p off = none) (k : ∀ u : State, OnlyChanges [.acu, .ten, .frame] s u → u.halfOf p = none)
    (c : OnlyChanges [.acu] s (clearRead s p off)) (ee : ∀ u : State, OnlyChanges [.acu, .ten, .frame] s u → u.entryAt p off = none) :
    performRead s (wordRead p off) =
      let u := clearRead s p off
      let u := if off = 0x10 ∨ (off = 0x2010 ∧ pathFm p) then latchFrame u p else u
      u.setBnd { u.bnd with lastRead := bytesLE 4 (s.regValue p off).toNat, lastStatus := .successful } := by
  have lo : OnlyChanges [.acu, .ten, .frame] s (if off = 0x10 ∨ (off = 0x2010 ∧ pathFm p) then latchFrame (clearRead s p off) p else clearRead s p off) := by
    split
    · refine (c.mono (by decide)).trans ?_
      cases p with
      | tenant n => exact (modTenant_only _ _).mono (by decide)
      | manager => exact (setFrame_only _).mono (by decide)
      | smbus => exact (setFrame_only _).mono (by decide)
    · exact c.mono (by decide)
  have w : readWord s p off = (if off = 0x10 ∨ (off = 0x2010 ∧ pathFm p) then latchFrame (clearRead s p off) p else clearRead s p off, s.regValue p off) := by
    unfold readWord
    simp only [h]
    rw [t]
    have q := ee _ lo
    have q2 := k _ lo
    generalize (if off = 0x10 ∨ (off = 0x2010 ∧ pathFm p) then latchFrame (clearRead s p off) p else clearRead s p off) = u at q q2
    simp only [q]
    rw [setHalf_none q2]
  have b4 : (wordRead p off).bytes / 4 = 1 := by show 4 / 4 = 1; decide
  unfold performRead readWords
  have o : (wordRead p off).offset.toNat = off := ofNat22 l
  simp only [o]
  simp only [b4, show (wordRead p off).path = p from rfl, List.range_one, List.foldl_cons, List.foldl_nil, Nat.mul_zero, Nat.add_zero, w, List.nil_append]
  rw [if_pos l]

theorem halfOf_congr {s u : State} {p : Path} (h : u.bnd = s.bnd) : u.halfOf p = s.halfOf p := by
  unfold State.halfOf; rw [h]

theorem clearMpu_only (s : State) (u off : Nat) : OnlyChanges [.acu] s (clearMpuWord s u off) := by
  unfold clearMpuWord
  split
  · unfold State.setMpu; split <;> exact setAcu_only _
  · exact fun p _ => by cases p <;> rfl

theorem readMpu {s : State} {p : Path} {u off : Nat} (hp : pathFm p = true) (hu : u < 3) (ho : off < 0x400) (hm : off % 4 = 0)
    (hh : s.halfOf p = none) (hs : s.Serves (wordRead p (0x20000 + 0x400 * u + off))) :
    access s (wordRead p (0x20000 + 0x400 * u + off)) =
      (clearMpuWord s u off).setBnd { (clearMpuWord s u off).bnd with lastRead := bytesLE 4 (s.mpuWord u off).toNat, lastStatus := .successful } := by
  generalize ha : 0x20000 + 0x400 * u + off = a at hs
  have pt := pathFm_none hp
  have en : ∀ v : State, v.entryAt p a = none := fun v => by
    unfold State.entryAt; rw [if_neg (by omega), if_neg (by omega)]
  have pg : pageOf a = some (.mpu u, 0x20000 + 0x400 * u) := by
    unfold pageOf
    iterate 11 rw [if_neg (by omega)]
    have : u = 0 ∨ u = 1 ∨ u = 2 := by omega
    rcases this with h | h | h <;> subst h
    · rw [if_pos (by omega)]
    · rw [if_neg (by omega), if_pos (by omega)]
    · rw [if_neg (by omega), if_neg (by omega), if_pos (by omega)]
  have cl : clearRead s p a = clearMpuWord s u off := by
    have : clearRead s p a = clearPageWord s (.mpu u) (a - (0x20000 + 0x400 * u)) := by
      cases p with
      | tenant n => cases pt
      | manager => unfold clearRead; simp only [pg]; rw [if_neg (by omega), if_neg (by omega), if_neg (by omega)]
      | smbus => unfold clearRead; simp only [pg]; rw [if_neg (by omega), if_neg (by omega), if_neg (by omega)]
    rw [this]
    show clearMpuWord s u (a - _) = _
    rw [show a - (0x20000 + 0x400 * u) = off by omega]
  have vl : s.regValue p a = s.mpuWord u off := by
    have : s.regValue p a = s.managerReg p a := by
      cases p with
      | tenant n => cases pt
      | manager => rfl
      | smbus => rfl
    rw [this]
    unfold State.managerReg
    rw [if_neg (by omega), if_neg (by omega), if_neg (by omega), if_neg (by omega), if_neg (by omega), if_neg (by omega), if_neg (by omega), en, pg]
    show s.mpuWord u (a - _) = _
    rw [show a - (0x20000 + 0x400 * u) = off by omega]
  have co := clearMpu_only s u off
  have r := readOne (by omega) hh (by unfold touchRead; rw [if_neg (by omega), if_neg (by omega), if_neg (by omega)]) (en s)
    (fun v o => (halfOf_congr (o .bnd (by decide))).trans hh) (by rw [cl]; exact co) (fun v _ => en v)
  rw [cl, vl] at r
  dsimp only at r
  rw [if_neg (by omega)] at r
  exact (access_serves hs (wordRead_admitted p a (by omega) (by omega))).trans ((if_neg (show ¬ false = true by decide)).trans r)

theorem runDebug_idle {s : State} (h : s.acu.tap.busy = false) : runDebug s = s := by
  unfold runDebug
  dsimp only
  rw [h]
  rfl

theorem setMpu_only (s : State) (u : Nat) (m : Mpu) : OnlyChanges [.acu] s (s.setMpu u m) := by
  unfold State.setMpu; split <;> exact setAcu_only _

theorem setMpu_mpu (s : State) (u : Nat) (m : Mpu) (h : u < 3) : (s.setMpu u m).mpu u = m := by
  have : u = 0 ∨ u = 1 ∨ u = 2 := by omega
  rcases this with h | h | h <;> subst h <;> rfl

theorem setMpu_ne (s : State) (u k : Nat) (m : Mpu) (h : u < 3) (l : k < 3) (n : k ≠ u) : (s.setMpu u m).mpu k = s.mpu k := by
  have : u = 0 ∨ u = 1 ∨ u = 2 := by omega
  have : k = 0 ∨ k = 1 ∨ k = 2 := by omega
  rcases ‹u = 0 ∨ _› with h | h | h <;> rcases this with h' | h' | h' <;> subst h <;> subst h' <;> first | rfl | exact absurd rfl n

theorem setMpu_tap (s : State) (u : Nat) (m : Mpu) : (s.setMpu u m).acu.tap = s.acu.tap := by
  unfold State.setMpu; split <;> rfl

theorem mpuWrite {s : State} {p : Path} {unit : BitVec 2} {reg : Nat} {data : W32} (f : pathFm p = true)
    (h : s.Serves (wordWrite p (unitOffset unit reg) data)) (l : reg < 0x400) (k : reg % 4 = 0) (u : unit.toNat < 3) :
    fmWrite4 s p (unitOffset unit reg) data = writeMpuPage s unit.toNat reg data := by
  have ho : unitOffset unit reg = 0x20000 + 0x400 * unit.toNat + reg := rfl
  refine (fmPage (base := 0x20000 + 0x400 * unit.toNat) (pg := .mpu unit.toNat) f h (by omega) (by omega) (by omega) (by omega) ?_).trans ?_
  · rw [ho]
    unfold pageOf
    iterate 11 rw [if_neg (by omega)]
    have : unit.toNat = 0 ∨ unit.toNat = 1 ∨ unit.toNat = 2 := by omega
    rcases this with h | h | h <;> rw [h]
    · rw [if_pos (by omega)]
    · rw [if_neg (by omega), if_pos (by omega)]
    · rw [if_neg (by omega), if_neg (by omega), if_pos (by omega)]
  · show writeMpuPage s _ (unitOffset unit reg - _) data = _
    rw [ho, show 0x20000 + 0x400 * unit.toNat + reg - (0x20000 + 0x400 * unit.toNat) = reg by omega]

theorem decide_congr {s t : State} (h : ∀ k, t.mpu k = s.mpu k) (c : ∀ n, t.consents n = s.consents n) (u : Nat) (x : Access) (hx : x.tenant = none) (a : Nat) :
    decideByte t u x a = decideByte s u x a := by
  have rr : ∀ n r, regionRuling t u n r x = regionRuling s u n r x := by
    intro n r
    unfold regionRuling
    simp only [c]
  unfold decideByte
  simp only [hx, h, rr]

theorem placeOf_ram (a : Nat) (h : 0x4000000 ≤ a) (k : a < 0x4080000) : placeOf a = .ram (a - 0x4000000) := by
  unfold placeOf
  iterate 9 rw [if_neg (by omega)]
  rw [if_pos ⟨h, k⟩]

theorem foldRam : ∀ (l : List (Nat × Byte)) (s : State), ∃ r, l.foldl (fun s e => writePlace s (.ram e.1) e.2) s = s.setAcu { s.acu with ram := r } ∧
    r = l.foldl (fun m e => Sparse.set none m e.1 (some e.2)) s.acu.ram
  | [], s => ⟨s.acu.ram, rfl, rfl⟩
  | e :: l, s => by
    obtain ⟨r, h, k⟩ := foldRam l (writePlace s (.ram e.1) e.2)
    exact ⟨r, h, k⟩

theorem zipRam (b : Nat) : ∀ (l : List Nat) (bs : List Byte) (s : State),
    ((l.map fun i => Place.ram (b + i)).zip bs).foldl (fun s e => writePlace s e.1 e.2) s =
      ((l.map fun i => b + i).zip bs).foldl (fun s e => writePlace s (.ram e.1) e.2) s
  | [], _, _ => rfl
  | _ :: _, [], _ => rfl
  | i :: l, c :: bs, s => zipRam b l bs (writePlace s (.ram (b + i)) c)

theorem storedRam (data : W32) (at_ size : Nat) (m : Sparse (Option Byte)) (hw : Sparse.wf none m = true) (sz : size = 1 ∨ size = 2 ∨ size = 4) :
    let r := (((List.range size).map fun i => at_ + i).zip [byteAt data 0, byteAt data 1, byteAt data 2, byteAt data 3]).foldl (fun m e => Sparse.set none m e.1 (some e.2)) m
    (∀ i, i < size → Sparse.get none r (at_ + i) = some (byteAt data i)) ∧
      ∀ a, a < at_ ∨ at_ + size ≤ a → Sparse.get none r a = Sparse.get none m a := by
  dsimp only
  have s1 : ∀ (m : Sparse (Option Byte)) (a : Nat) (b : Byte), Sparse.wf none m = true → Sparse.wf none (Sparse.set none m a (some b)) = true :=
    fun m a b h => Sparse.wf_set _ _ _ _ h
  rcases sz with k | k | k
  · subst k
    rw [show (List.range 1).map (fun i => at_ + i) = [at_ + 0] from rfl]
    simp only [List.zip_cons_cons, List.zip_nil_left, List.foldl_cons, List.foldl_nil]
    refine ⟨fun i hi => ?_, fun a ha => ?_⟩
    · have : i = 0 := by omega
      subst this
      exact (Sparse.get_set _ _ _ _ _ hw).trans (if_pos rfl)
    · exact Sparse.get_set_ne _ _ _ _ _ (by omega)
  · subst k
    rw [show (List.range 2).map (fun i => at_ + i) = [at_ + 0, at_ + 1] from rfl]
    simp only [List.zip_cons_cons, List.zip_nil_left, List.foldl_cons, List.foldl_nil]
    have w0 := s1 _ (at_ + 0) (byteAt data 0) hw
    have w1 := s1 _ (at_ + 1) (byteAt data 1) w0
    refine ⟨fun i hi => ?_, fun a ha => ?_⟩
    · rw [Sparse.get_set _ _ _ _ _ w0, Sparse.get_set _ _ _ _ _ hw]
      have : i = 0 ∨ i = 1 := by omega
      rcases this with h | h <;> subst h <;> simp
    · rw [Sparse.get_set_ne _ _ _ _ _ (by omega), Sparse.get_set_ne _ _ _ _ _ (by omega)]
  · subst k
    rw [show (List.range 4).map (fun i => at_ + i) = [at_ + 0, at_ + 1, at_ + 2, at_ + 3] from rfl]
    simp only [List.zip_cons_cons, List.zip_nil_left, List.foldl_cons, List.foldl_nil]
    have w0 := s1 _ (at_ + 0) (byteAt data 0) hw
    have w1 := s1 _ (at_ + 1) (byteAt data 1) w0
    have w2 := s1 _ (at_ + 2) (byteAt data 2) w1
    have w3 := s1 _ (at_ + 3) (byteAt data 3) w2
    refine ⟨fun i hi => ?_, fun a ha => ?_⟩
    · rw [Sparse.get_set _ _ _ _ _ w2, Sparse.get_set _ _ _ _ _ w1, Sparse.get_set _ _ _ _ _ w0, Sparse.get_set _ _ _ _ _ hw]
      have : i = 0 ∨ i = 1 ∨ i = 2 ∨ i = 3 := by omega
      rcases this with h | h | h | h <;> subst h <;> simp
    · rw [Sparse.get_set_ne _ _ _ _ _ (by omega), Sparse.get_set_ne _ _ _ _ _ (by omega), Sparse.get_set_ne _ _ _ _ _ (by omega), Sparse.get_set_ne _ _ _ _ _ (by omega)]

theorem byteOf : ∀ (l : List Byte) (i : Nat) (c : Byte), l[i]? = some c → ofBytesLE l / 2 ^ (8 * i) % 256 = c.toNat
  | [], _, _, h => by cases h
  | b :: l, 0, c, h => by
    have : b = c := by simpa using h
    subst this
    have := b.isLt
    show (b.toNat + 256 * ofBytesLE l) / 1 % 256 = _
    omega
  | b :: l, i + 1, c, h => by
    have ih := byteOf l i c (by simpa using h)
    have := b.isLt
    show (b.toNat + 256 * ofBytesLE l) / 2 ^ (8 * (i + 1)) % 256 = _
    rw [show 8 * (i + 1) = 8 + 8 * i by omega, Nat.pow_add, ← Nat.div_div_eq_div_mul, show (b.toNat + 256 * ofBytesLE l) / 2 ^ 8 = ofBytesLE l by omega]
    exact ih

end Sys2Proof.Machine
end

