-- ==== Sys2Proof/Laws/Work.lean ====
section
/-! SUPPORT. What the work of a frame and of Chain leaves alone: a property that the writes of the units they use keep is kept by each operation. -/
namespace Sys2Proof.Machine

/-- A property that writes of Chain, of the system lane and of the power domains keep, where the length of a sleep stands. -/
structure ChainClosed (P : State → Prop) : Prop where
  chain : ∀ {s : State} {u : ChainUnit}, P s → P (s.setChain u)
  sys   : ∀ {s : State} {u : SysUnit}, P s → P (s.setSys u)
  pwr   : ∀ {s : State} {u : PwrUnit}, P s → u.firstTick = s.pwr.firstTick → u.stopCal = s.pwr.stopCal →
    u.waiting = s.pwr.waiting → P (s.setPwr u)

/-- A property that writes of every unit keep but the frame counter's (save what is counted of a frame's use, and the time of its tick), the boot sequencer's and the boundary's. -/
structure WorkClosed (P : State → Prop) : Prop extends ChainClosed P where
  intake : ∀ {s : State} {u : IntakeUnit}, P s → P (s.setIntake u)
  vec    : ∀ {s : State} {u : VecUnit}, P s → P (s.setVec u)
  tgt    : ∀ {s : State} {u : TgtUnit}, P s → P (s.setTgt u)
  ten    : ∀ {s : State} {u : TenUnit}, P s → P (s.setTen u)
  mbx    : ∀ {s : State} {u : MbxUnit}, P s → P (s.setMbx u)
  acu    : ∀ {s : State} {u : AcuUnit}, P s → P (s.setAcu u)
  bead   : ∀ {s : State} {u : BeadUnit}, P s → P (s.setBead u)
  ras    : ∀ {s : State} {u : RasUnit}, P s → P (s.setRas u)
  loupe  : ∀ {s : State} {u : LoupeUnit}, P s → P (s.setLoupe u)
  use    : ∀ {s : State} {w : FrameUse}, P s → P (s.setUse w)
  time   : ∀ {s : State} {v : W32}, P s → P (s.setFrame { s.frame with tickTime := v })

theorem in_foldl {P : State → Prop} {α : Type} (l : List α) (g : State → α → State) (s : State) (hg : ∀ s a, P s → P (g s a))
    (h : P s) : P (l.foldl g s) := by
  induction l generalizing s with
  | nil => exact h
  | cons a l ih => exact ih _ (hg _ _ h)

theorem in_foldl_fst {P : State → Prop} {α β : Type} (l : List α) (g : State × β → α → State × β) (p : State × β)
    (hg : ∀ p a, P p.1 → P (g p a).1) (h : P p.1) : P (l.foldl g p).1 := by
  induction l generalizing p with
  | nil => exact h
  | cons a l ih => exact ih _ (hg _ _ h)

theorem in_ite {P : State → Prop} {c : Prop} [Decidable c] {a b : State} (ha : P a) (hb : P b) : P (if c then a else b) := by
  split
  · exact ha
  · exact hb

theorem in_setBox {P : State → Prop} (C : WorkClosed P) {s : State} {m : BitVec 7} {b : Mailbox} (h : P s) : P (s.setBox m b) := C.mbx h

theorem in_modBox {P : State → Prop} (C : WorkClosed P) {s : State} {m : BitVec 7} {f : Mailbox → Mailbox} (h : P s) :
    P (s.modBox m f) := C.mbx h

theorem in_setFw {P : State → Prop} (C : WorkClosed P) {s : State} {u : FwUnit} (h : P s) : P (s.setFw u) := C.mbx h

theorem State.setTenant_in {P : State → Prop} (C : WorkClosed P) (s : State) (t : Tenant) (r : TenantRec) (hs : P s) : P (State.setTenant s t r) := by
  exact C.ten hs

theorem State.modTenant_in {P : State → Prop} (C : WorkClosed P) (s : State) (t : Tenant) (f : TenantRec → TenantRec) (hs : P s) : P (State.modTenant s t f) := by
  unfold State.modTenant
  try dsimp only
  repeat' first
    | (intro _)
    | (with_reducible first
      | assumption | apply State.setTenant_in C
      | apply in_foldl | apply in_ite)
    | exact rfl
    | split

theorem State.setTarget_in {P : State → Prop} (C : WorkClosed P) (s : State) (x : Slot) (r : TargetRec) (hs : P s) : P (State.setTarget s x r) := by
  exact C.tgt hs

theorem State.modTarget_in {P : State → Prop} (C : WorkClosed P) (s : State) (x : Slot) (f : TargetRec → TargetRec) (hs : P s) : P (State.modTarget s x f) := by
  unfold State.modTarget
  try dsimp only
  repeat' first
    | (intro _)
    | (with_reducible first
      | assumption | apply State.setTarget_in C
      | apply in_foldl | apply in_ite)
    | exact rfl
    | split

theorem State.setDom_in {P : State → Prop} (C : ChainClosed P) (s : State) (d : Nat) (r : DomainRec) (hs : P s) : P (State.setDom s d r) := by
  exact C.pwr hs rfl rfl rfl

theorem State.setClasp_in {P : State → Prop} (C : WorkClosed P) (s : State) (g : BitVec 12) (w : ClaspWord) (hs : P s) : P (State.setClasp s g w) := by
  exact C.ten hs

theorem State.setBusy_in {P : State → Prop} (C : WorkClosed P) (s : State) (x : Slot) (b : Bool) (hs : P s) : P (State.setBusy s x b) := by
  exact C.tgt hs

theorem State.clearBusyNext_in {P : State → Prop} (C : WorkClosed P) (s : State) (x : Slot) (hs : P s) : P (State.clearBusyNext s x) := by
  exact C.tgt hs

theorem State.count_in {P : State → Prop} (C : WorkClosed P) (s : State) (w : Nat) (n : Nat) (hs : P s) : P (State.count s w n) := by
  unfold State.count
  try dsimp only
  repeat' first
    | (intro _)
    | (with_reducible first
      | assumption | apply C.loupe
      | apply in_foldl | apply in_ite)
    | exact rfl
    | split

theorem State.setUse_in {P : State → Prop} (C : WorkClosed P) (s : State) (u : FrameUse) (hs : P s) : P (State.setUse s u) := by
  exact C.use hs

theorem exceed_in {P : State → Prop} (C : WorkClosed P) (s : State) (hs : P s) : P (exceed s) := by
  unfold exceed
  try dsimp only
  repeat' first
    | (intro _)
    | (with_reducible first
      | assumption | apply State.setUse_in C
      | apply in_foldl | apply in_ite)
    | exact rfl
    | split

theorem wakeOne_in {P : State → Prop} (C : ChainClosed P) (cause : WakeCause) (s : State) (d : Nat) (hs : P s) : P (wakeOne cause s d) := by
  unfold wakeOne
  try dsimp only
  repeat' first
    | (intro _)
    | (with_reducible first
      | assumption | apply State.setDom_in C | apply C.pwr
      | apply in_foldl | apply in_ite)
    | exact rfl
    | split

theorem wake_in {P : State → Prop} (C : ChainClosed P) (cause : WakeCause) (s : State) (d : Nat) (hs : P s) : P (wake cause s d) := by
  unfold wake
  try dsimp only
  repeat' first
    | (intro _)
    | (with_reducible first
      | assumption | apply wakeOne_in C
      | apply in_foldl | apply in_ite)
    | exact rfl
    | split

theorem wakeAll_in {P : State → Prop} (C : ChainClosed P) (cause : WakeCause) (s : State) (hs : P s) : P (wakeAll cause s) := by
  unfold wakeAll
  try dsimp only
  repeat' first
    | (intro _)
    | (with_reducible first
      | assumption | apply wake_in C
      | apply in_foldl | apply in_ite)
    | exact rfl
    | split

theorem watchMatch_in {P : State → Prop} (C : ChainClosed P) (s : State) (x : Src) (hs : P s) : P (watchMatch s x) := by
  unfold watchMatch
  try dsimp only
  repeat' first
    | (intro _)
    | (with_reducible first
      | assumption | apply wakeAll_in C
      | apply in_foldl | apply in_ite)
    | exact rfl
    | split

theorem State.setLatch_in {P : State → Prop} (C : ChainClosed P) (s : State) (n : Nat) (l : SysLatch) (hs : P s) : P (State.setLatch s n l) := by
  unfold State.setLatch
  try dsimp only
  repeat' first
    | (intro _)
    | (with_reducible first
      | assumption | apply C.sys
      | apply in_foldl | apply in_ite)
    | exact rfl
    | split

theorem raiseSource_in {P : State → Prop} (C : ChainClosed P) (s : State) (n : Nat) (hs : P s) : P (raiseSource s n) := by
  unfold raiseSource
  try dsimp only
  repeat' first
    | (intro _)
    | (with_reducible first
      | assumption | apply State.setLatch_in C | apply watchMatch_in C | apply C.sys
      | apply in_foldl | apply in_ite)
    | exact rfl
    | split

theorem setLevel_in {P : State → Prop} (C : ChainClosed P) (s : State) (n : Nat) (b : Bool) (hs : P s) : P (setLevel s n b) := by
  unfold setLevel
  try dsimp only
  repeat' first
    | (intro _)
    | (with_reducible first
      | assumption | apply raiseSource_in C | apply C.sys
      | apply in_foldl | apply in_ite)
    | exact rfl
    | split

theorem setPriv_in {P : State → Prop} (C : WorkClosed P) (s : State) (x : Slot) (n : Nat) (hs : P s) : P (setPriv s x n) := by
  unfold setPriv
  try dsimp only
  repeat' first
    | (intro _)
    | (with_reducible first
      | assumption | apply State.modTarget_in C
      | apply in_foldl | apply in_ite)
    | exact rfl
    | split

theorem raiseNotice_in {P : State → Prop} (C : WorkClosed P) (s : State) (t : Tenant) (n : Nat) (hs : P s) : P (raiseNotice s t n) := by
  unfold raiseNotice
  try dsimp only
  repeat' first
    | (intro _)
    | (with_reducible first
      | assumption | apply setPriv_in C
      | apply in_foldl | apply in_ite)
    | exact rfl
    | split

theorem notify_in {P : State → Prop} (C : WorkClosed P) (s : State) (t : Tenant) (n : Nat) (hs : P s) : P (notify s t n) := by
  unfold notify
  try dsimp only
  repeat' first
    | (intro _)
    | (with_reducible first
      | assumption | apply raiseNotice_in C | apply C.tgt
      | apply in_foldl | apply in_ite)
    | exact rfl
    | split

theorem releaseHeldNotices_in {P : State → Prop} (C : WorkClosed P) (s : State) (hs : P s) : P (releaseHeldNotices s) := by
  unfold releaseHeldNotices
  try dsimp only
  repeat' first
    | (intro _)
    | (with_reducible first
      | assumption | apply raiseNotice_in C | apply C.tgt
      | apply in_foldl | apply in_ite)
    | exact rfl
    | split

theorem chargeFault_in {P : State → Prop} (C : WorkClosed P) (s : State) (t : Tenant) (code : Nat) (detail : W32) (hs : P s) : P (chargeFault s t code detail) := by
  unfold chargeFault
  try dsimp only
  repeat' first
    | (intro _)
    | (with_reducible first
      | assumption | apply State.setTenant_in C | apply notify_in C | apply setLevel_in C.toChainClosed
      | apply in_foldl | apply in_ite)
    | exact rfl
    | split

theorem discard_in {P : State → Prop} (C : WorkClosed P) (s : State) (reason : Nat) (v : BitVec 20) (owner : BitVec 7) (chain : Option Chip) (requester : BitVec 16) (t : Option Tenant) (hs : P s) : P (discard s reason v owner chain requester t) := by
  unfold discard
  try dsimp only
  repeat' first
    | (intro _)
    | (with_reducible first
      | assumption | apply State.count_in C | apply raiseSource_in C.toChainClosed | apply State.modTenant_in C | apply chargeFault_in C | apply C.intake
      | apply in_foldl | apply in_ite)
    | exact rfl
    | split

theorem requestMsg_in {P : State → Prop} (C : WorkClosed P) (s : State) (t : Tenant) (hs : P s) : P (requestMsg s t) := by
  unfold requestMsg
  try dsimp only
  repeat' first
    | (intro _)
    | (with_reducible first
      | assumption | apply C.tgt
      | apply in_foldl | apply in_ite)
    | exact rfl
    | split

theorem requestSys_in {P : State → Prop} (C : WorkClosed P) (s : State) (hs : P s) : P (requestSys s) := by
  unfold requestSys
  try dsimp only
  repeat' first
    | (intro _)
    | (with_reducible first
      | assumption | apply C.tgt
      | apply in_foldl | apply in_ite)
    | exact rfl
    | split

theorem requestRefill_in {P : State → Prop} (C : WorkClosed P) (s : State) (x : Slot) (hs : P s) : P (requestRefill s x) := by
  unfold requestRefill
  try dsimp only
  repeat' first
    | (intro _)
    | (with_reducible first
      | assumption | apply State.setTarget_in C | apply requestMsg_in C | apply requestSys_in C
      | apply in_foldl | apply in_ite)
    | exact rfl
    | split

theorem removeRaw_in {P : State → Prop} (C : WorkClosed P) (s : State) (x : Slot) (src : Src) (hs : P s) : P (removeRaw s x src) := by
  unfold removeRaw
  try dsimp only
  repeat' first
    | (intro _)
    | (with_reducible first
      | assumption | apply State.setTarget_in C | apply requestRefill_in C
      | apply in_foldl | apply in_ite)
    | exact rfl
    | split

theorem presentRaw_in {P : State → Prop} (C : WorkClosed P) (s : State) (src : Src) (x : Slot) (hs : P s) : P (presentRaw s src x) := by
  unfold presentRaw
  try dsimp only
  repeat' first
    | (intro _)
    | (with_reducible first
      | assumption | apply State.modTarget_in C
      | apply in_foldl | apply in_ite)
    | exact rfl
    | split

theorem State.putCfg_in {P : State → Prop} (C : WorkClosed P) (s : State) (src : Src) (c : W64) (hs : P s) : P (State.putCfg s src c) := by
  unfold State.putCfg
  try dsimp only
  repeat' first
    | (intro _)
    | (with_reducible first
      | assumption | apply C.vec
      | apply in_foldl | apply in_ite)
    | exact rfl
    | split

theorem State.putSt_in {P : State → Prop} (C : WorkClosed P) (s : State) (src : Src) (w : W32) (hs : P s) : P (State.putSt s src w) := by
  unfold State.putSt
  try dsimp only
  repeat' first
    | (intro _)
    | (with_reducible first
      | assumption | apply C.vec
      | apply in_foldl | apply in_ite)
    | exact rfl
    | split

theorem noteSaturated_in {P : State → Prop} (C : WorkClosed P) (s : State) (src : Src) (hs : P s) : P (noteSaturated s src) := by
  unfold noteSaturated
  try dsimp only
  repeat' first
    | (intro _)
    | (with_reducible first
      | assumption | apply State.modTenant_in C | apply C.vec
      | apply in_foldl | apply in_ite)
    | exact rfl
    | split

theorem resetTarget_in {P : State → Prop} (C : WorkClosed P) (s : State) (x : Slot) (hs : P s) : P (resetTarget s x) := by
  unfold resetTarget
  try dsimp only
  repeat' first
    | (intro _)
    | (with_reducible first
      | assumption | apply State.setTarget_in C | apply C.tgt
      | apply in_foldl | apply in_ite)
    | exact rfl
    | split

theorem presentAll_in {P : State → Prop} (C : WorkClosed P) (s : State) (x : Slot) (hs : P s) : P (presentAll s x) := by
  unfold presentAll
  try dsimp only
  repeat' first
    | (intro _)
    | (with_reducible first
      | assumption | apply presentRaw_in C
      | apply in_foldl | apply in_ite)
    | exact rfl
    | split

theorem completeState_in {P : State → Prop} (C : WorkClosed P) (s : State) (src : Src) (hs : P s) : P (completeState s src) := by
  unfold completeState
  try dsimp only
  repeat' first
    | (intro _)
    | (with_reducible first
      | assumption | apply State.putSt_in C | apply presentRaw_in C
      | apply in_foldl | apply in_ite)
    | exact rfl
    | split

theorem loseTarget_in {P : State → Prop} (C : WorkClosed P) (s : State) (xn : Nat) (hs : P s) : P (loseTarget s xn) := by
  unfold loseTarget
  try dsimp only
  repeat' first
    | (intro _)
    | (with_reducible first
      | assumption | apply State.clearBusyNext_in C | apply resetTarget_in C | apply completeState_in C | apply presentAll_in C | apply chargeFault_in C
      | apply in_foldl | apply in_ite)
    | exact rfl
    | split

theorem zeroCfg_in {P : State → Prop} (C : WorkClosed P) (s : State) (src : Src) (hs : P s) : P (zeroCfg s src) := by
  unfold zeroCfg
  try dsimp only
  repeat' first
    | (intro _)
    | (with_reducible first
      | assumption | apply State.putCfg_in C | apply removeRaw_in C | apply C.toChainClosed.pwr
      | apply in_foldl | apply in_ite)
    | exact rfl
    | split

theorem reload_in {P : State → Prop} (C : WorkClosed P) (s : State) (v : Nat) (hs : P s) : P (reload s v) := by
  unfold reload
  try dsimp only
  repeat' first
    | (intro _)
    | (with_reducible first
      | assumption | apply C.vec
      | apply in_foldl | apply in_ite)
    | exact rfl
    | split

theorem loseVector_in {P : State → Prop} (C : WorkClosed P) (s : State) (v : Nat) (hs : P s) : P (loseVector s v) := by
  unfold loseVector
  try dsimp only
  repeat' first
    | (intro _)
    | (with_reducible first
      | assumption | apply chargeFault_in C | apply C.vec
      | apply in_foldl | apply in_ite)
    | exact rfl
    | split

theorem rewriteLine_in {P : State → Prop} (C : WorkClosed P) (s : State) (l : LineId) (hs : P s) : P (rewriteLine s l) := by
  unfold rewriteLine
  try dsimp only
  repeat' first
    | (intro _)
    | (with_reducible first
      | assumption | apply loseVector_in C | apply zeroCfg_in C | apply State.putSt_in C | apply loseTarget_in C | apply State.setClasp_in C | apply C.vec
      | apply in_foldl | apply in_ite)
    | exact rfl
    | split

theorem noteUncorrectable_in {P : State → Prop} (C : WorkClosed P) (s : State) (foundBy : BitVec 3) (l : LineId) (hs : P s) : P (noteUncorrectable s foundBy l) := by
  unfold noteUncorrectable
  try dsimp only
  repeat' first
    | (intro _)
    | (with_reducible first
      | assumption | apply raiseSource_in C.toChainClosed | apply C.ras
      | apply in_foldl | apply in_ite)
    | exact rfl
    | split

theorem noteCorrected_in {P : State → Prop} (C : WorkClosed P) (s : State) (l : LineId) (hs : P s) : P (noteCorrected s l) := by
  unfold noteCorrected
  try dsimp only
  repeat' first
    | (intro _)
    | (with_reducible first
      | assumption | apply State.count_in C | apply C.ras
      | apply in_foldl | apply in_ite)
    | exact rfl
    | split

theorem State.setErr_in {P : State → Prop} (C : WorkClosed P) (s : State) (l : LineId) (e : BitVec 280) (hs : P s) : P (State.setErr s l e) := by
  unfold State.setErr
  try dsimp only
  repeat' first
    | (intro _)
    | (with_reducible first
      | assumption | apply C.ras
      | apply in_foldl | apply in_ite)
    | exact rfl
    | split

theorem upset_in {P : State → Prop} (C : WorkClosed P) (s : State) (u : Upset) (hs : P s) : P (upset s u) := by
  unfold upset
  try dsimp only
  repeat' first
    | (intro _)
    | (with_reducible first
      | assumption | apply State.setErr_in C
      | apply in_foldl | apply in_ite)
    | exact rfl
    | split

theorem State.dropLines_in {P : State → Prop} (C : WorkClosed P) (s : State) (gone : LineId → Bool) (hs : P s) : P (State.dropLines s gone) := by
  unfold State.dropLines
  try dsimp only
  repeat' first
    | (intro _)
    | (with_reducible first
      | assumption | apply C.ras
      | apply in_foldl | apply in_ite)
    | exact rfl
    | split

theorem freshLine_in {P : State → Prop} (C : WorkClosed P) (s : State) (l : LineId) (hs : P s) : P (freshLine s l) := by
  unfold freshLine
  try dsimp only
  repeat' first
    | (intro _)
    | (with_reducible first
      | assumption | apply State.setErr_in C | apply C.ras
      | apply in_foldl | apply in_ite)
    | exact rfl
    | split

theorem disturbLine_in {P : State → Prop} (C : WorkClosed P) (s : State) (l : LineId) (e : BitVec 256) (hs : P s) : P (disturbLine s l e) := by
  unfold disturbLine
  try dsimp only
  repeat' first
    | (intro _)
    | (with_reducible first
      | assumption | apply State.putCfg_in C | apply State.putSt_in C | apply State.modTarget_in C | apply State.setClasp_in C
      | apply in_foldl | apply in_ite)
    | exact rfl
    | split

theorem readLine_in {P : State → Prop} (C : WorkClosed P) (foundBy : BitVec 3) (rmw : Bool) (s : State) (l : LineId) (hs : P s) : P (readLine foundBy rmw s l) := by
  unfold readLine
  try dsimp only
  repeat' first
    | (intro _)
    | (with_reducible first
      | assumption | apply noteCorrected_in C | apply State.setErr_in C | apply rewriteLine_in C | apply noteUncorrectable_in C | apply freshLine_in C | apply disturbLine_in C | apply C.ras
      | apply in_foldl | apply in_ite)
    | exact rfl
    | split

theorem wroteLine_in {P : State → Prop} (C : WorkClosed P) (s : State) (l : LineId) (hs : P s) : P (wroteLine s l) := by
  unfold wroteLine
  try dsimp only
  repeat' first
    | (intro _)
    | (with_reducible first
      | assumption | apply freshLine_in C | apply State.setErr_in C | apply C.ras
      | apply in_foldl | apply in_ite)
    | exact rfl
    | split

theorem readCfg_in {P : State → Prop} (C : WorkClosed P) (s : State) (src : Src) (hs : P s) : P (readCfg s src) := by
  unfold readCfg
  try dsimp only
  repeat' first
    | (intro _)
    | (with_reducible first
      | assumption | apply readLine_in C
      | apply in_foldl | apply in_ite)
    | exact rfl
    | split

theorem readSt_in {P : State → Prop} (C : WorkClosed P) (s : State) (src : Src) (hs : P s) : P (readSt s src) := by
  unfold readSt
  try dsimp only
  repeat' first
    | (intro _)
    | (with_reducible first
      | assumption | apply readLine_in C
      | apply in_foldl | apply in_ite)
    | exact rfl
    | split

theorem writeCfg_in {P : State → Prop} (C : WorkClosed P) (s : State) (src : Src) (c : W64) (hs : P s) : P (writeCfg s src c) := by
  unfold writeCfg
  try dsimp only
  repeat' first
    | (intro _)
    | (with_reducible first
      | assumption | apply wroteLine_in C | apply State.putCfg_in C | apply readLine_in C
      | apply in_foldl | apply in_ite)
    | exact rfl
    | split

theorem writeSt_in {P : State → Prop} (C : WorkClosed P) (s : State) (src : Src) (w : W32) (hs : P s) : P (writeSt s src w) := by
  unfold writeSt
  try dsimp only
  repeat' first
    | (intro _)
    | (with_reducible first
      | assumption | apply wroteLine_in C | apply State.putSt_in C
      | apply in_foldl | apply in_ite)
    | exact rfl
    | split

theorem touchTarget_in {P : State → Prop} (C : WorkClosed P) (s : State) (x : Slot) (hs : P s) : P (touchTarget s x) := by
  unfold touchTarget
  try dsimp only
  repeat' first
    | (intro _)
    | (with_reducible first
      | assumption | apply readLine_in C | apply wroteLine_in C
      | apply in_foldl | apply in_ite)
    | exact rfl
    | split

theorem peekSt_in {P : State → Prop} (C : WorkClosed P) (s : State) (src : Src) (hs : P s) : P (peekSt s src) := by
  unfold peekSt
  try dsimp only
  repeat' first
    | (intro _)
    | (with_reducible first
      | assumption | apply readLine_in C
      | apply in_foldl | apply in_ite)
    | exact rfl
    | split

theorem wroteTarget_in {P : State → Prop} (C : WorkClosed P) (s : State) (x : Slot) (hs : P s) : P (wroteTarget s x) := by
  unfold wroteTarget
  try dsimp only
  repeat' first
    | (intro _)
    | (with_reducible first
      | assumption | apply wroteLine_in C
      | apply in_foldl | apply in_ite)
    | exact rfl
    | split

theorem present_in {P : State → Prop} (C : WorkClosed P) (s : State) (src : Src) (x : Slot) (hs : P s) : P (present s src x) := by
  unfold present
  try dsimp only
  repeat' first
    | (intro _)
    | (with_reducible first
      | assumption | apply presentRaw_in C | apply touchTarget_in C
      | apply in_foldl | apply in_ite)
    | exact rfl
    | split

theorem removeSrc_in {P : State → Prop} (C : WorkClosed P) (s : State) (x : Slot) (src : Src) (hs : P s) : P (removeSrc s x src) := by
  unfold removeSrc
  try dsimp only
  repeat' first
    | (intro _)
    | (with_reducible first
      | assumption | apply removeRaw_in C | apply touchTarget_in C
      | apply in_foldl | apply in_ite)
    | exact rfl
    | split

theorem readIndex_in {P : State → Prop} (C : WorkClosed P) (s : State) (lo : Nat) (hi : Nat) (hs : P s) : P (readIndex s lo hi) := by
  unfold readIndex
  try dsimp only
  repeat' first
    | (intro _)
    | (with_reducible first
      | assumption | apply readLine_in C
      | apply in_foldl | apply in_ite)
    | exact rfl
    | split

theorem readGroups_in {P : State → Prop} (C : WorkClosed P) (s : State) (lo : Nat) (hi : Nat) (hs : P s) : P (readGroups s lo hi) := by
  unfold readGroups
  try dsimp only
  repeat' first
    | (intro _)
    | (with_reducible first
      | assumption | apply peekSt_in C
      | apply in_foldl | apply in_ite)
    | exact rfl
    | split

theorem trueGroups_in {P : State → Prop} (C : WorkClosed P) (s : State) (lo : Nat) (hi : Nat) (hs : P s) : P (trueGroups s lo hi) := by
  unfold trueGroups
  try dsimp only
  repeat' first
    | (intro _)
    | (with_reducible first
      | assumption | apply C.vec
      | apply in_foldl | apply in_ite)
    | exact rfl
    | split

theorem State.setLinkPort_in {P : State → Prop} (C : ChainClosed P) (s : State) (p : PortId) (l : LinkPort) (hs : P s) : P (State.setLinkPort s p l) := by
  unfold State.setLinkPort
  try dsimp only
  repeat' first
    | (intro _)
    | (with_reducible first
      | assumption | apply C.chain
      | apply in_foldl | apply in_ite)
    | exact rfl
    | split

theorem State.setPhy_in {P : State → Prop} (C : ChainClosed P) (s : State) (p : PortId) (u : PhyPort) (hs : P s) : P (State.setPhy s p u) := by
  unfold State.setPhy
  try dsimp only
  repeat' first
    | (intro _)
    | (with_reducible first
      | assumption | apply C.chain
      | apply in_foldl | apply in_ite)
    | exact rfl
    | split

theorem State.setPortCfg_in {P : State → Prop} (C : ChainClosed P) (s : State) (p : PortId) (c : PortCfg) (hs : P s) : P (State.setPortCfg s p c) := by
  unfold State.setPortCfg
  try dsimp only
  repeat' first
    | (intro _)
    | (with_reducible first
      | assumption | apply C.chain
      | apply in_foldl | apply in_ite)
    | exact rfl
    | split

theorem State.setPair_in {P : State → Prop} (C : ChainClosed P) (s : State) (c : Chip) (p : Pair) (hs : P s) : P (State.setPair s c p) := by
  unfold State.setPair
  try dsimp only
  repeat' first
    | (intro _)
    | (with_reducible first
      | assumption | apply C.chain
      | apply in_foldl | apply in_ite)
    | exact rfl
    | split

theorem freeCredits_in {P : State → Prop} (C : ChainClosed P) (s : State) (p : PortId) (d : DataFlit) (hs : P s) : P (freeCredits s p d) := by
  unfold freeCredits
  try dsimp only
  repeat' first
    | (intro _)
    | (with_reducible first
      | assumption | apply State.setLinkPort_in C
      | apply in_foldl | apply in_ite)
    | exact rfl
    | split

theorem strand_in {P : State → Prop} (C : ChainClosed P) (s : State) (d : DataFlit) (hs : P s) : P (strand s d) := by
  unfold strand
  try dsimp only
  repeat' first
    | (intro _)
    | (with_reducible first
      | assumption | apply C.chain
      | apply in_foldl | apply in_ite)
    | exact rfl
    | split

theorem originate_in {P : State → Prop} (C : ChainClosed P) (s : State) (d : DataFlit) (hs : P s) : P (originate s d) := by
  unfold originate
  try dsimp only
  repeat' first
    | (intro _)
    | (with_reducible first
      | assumption | apply State.setLinkPort_in C
      | apply in_foldl | apply in_ite)
    | exact rfl
    | split

theorem originateCtrl_in {P : State → Prop} (C : ChainClosed P) (s : State) (c : Chip) (r : BitVec 44) (hs : P s) : P (originateCtrl s c r) := by
  unfold originateCtrl
  try dsimp only
  repeat' first
    | (intro _)
    | (with_reducible first
      | assumption | apply originate_in C
      | apply in_foldl | apply in_ite)
    | exact rfl
    | split

theorem startSession_in {P : State → Prop} (C : ChainClosed P) (s : State) (c : Chip) (hs : P s) : P (startSession s c) := by
  unfold startSession
  try dsimp only
  repeat' first
    | (intro _)
    | (with_reducible first
      | assumption | apply State.setPair_in C
      | apply in_foldl | apply in_ite)
    | exact rfl
    | split

theorem strandQueued_in {P : State → Prop} (C : ChainClosed P) (s : State) (p : PortId) (c : Chip) (hs : P s) : P (strandQueued s p c) := by
  unfold strandQueued
  try dsimp only
  repeat' first
    | (intro _)
    | (with_reducible first
      | assumption | apply State.setLinkPort_in C | apply freeCredits_in C | apply strand_in C
      | apply in_foldl | apply in_ite)
    | exact rfl
    | split

theorem endSession_in {P : State → Prop} (C : ChainClosed P) (s : State) (c : Chip) (hs : P s) : P (endSession s c) := by
  unfold endSession
  try dsimp only
  repeat' first
    | (intro _)
    | (with_reducible first
      | assumption | apply strandQueued_in C | apply State.setPair_in C
      | apply in_foldl | apply in_ite)
    | exact rfl
    | split

theorem sendAllow_in {P : State → Prop} (C : ChainClosed P) (s : State) (c : Chip) (t : Nat) (hs : P s) : P (sendAllow s c t) := by
  unfold sendAllow
  try dsimp only
  repeat' first
    | (intro _)
    | (with_reducible first
      | assumption | apply State.setPair_in C | apply originateCtrl_in C
      | apply in_foldl | apply in_ite)
    | exact rfl
    | split

theorem sendDueAllows_in {P : State → Prop} (C : ChainClosed P) (s : State) (c : Chip) (hs : P s) : P (sendDueAllows s c) := by
  unfold sendDueAllows
  try dsimp only
  repeat' first
    | (intro _)
    | (with_reducible first
      | assumption | apply sendAllow_in C
      | apply in_foldl | apply in_ite)
    | exact rfl
    | split

theorem updateMembers_in {P : State → Prop} (C : ChainClosed P) (s : State) (hs : P s) : P (updateMembers s) := by
  unfold updateMembers
  try dsimp only
  repeat' first
    | (intro _)
    | (with_reducible first
      | assumption | apply sendDueAllows_in C | apply startSession_in C | apply endSession_in C | apply C.chain
      | apply in_foldl | apply in_ite)
    | exact rfl
    | split

theorem setDist_in {P : State → Prop} (C : ChainClosed P) (s : State) (p : PortId) (table : BitVec 64) (hs : P s) : P (setDist s p table) := by
  unfold setDist
  try dsimp only
  repeat' first
    | (intro _)
    | (with_reducible first
      | assumption | apply updateMembers_in C | apply C.chain
      | apply in_foldl | apply in_ite)
    | exact rfl
    | split

theorem sendMap_in {P : State → Prop} (C : ChainClosed P) (s : State) (p : PortId) (hs : P s) : P (sendMap s p) := by
  unfold sendMap
  try dsimp only
  repeat' first
    | (intro _)
    | (with_reducible first
      | assumption | apply State.setLinkPort_in C
      | apply in_foldl | apply in_ite)
    | exact rfl
    | split

theorem applyEdge_in {P : State → Prop} (C : WorkClosed P) (s : State) (src : Src) (hs : P s) : P (applyEdge s src) := by
  unfold applyEdge
  try dsimp only
  repeat' first
    | (intro _)
    | (with_reducible first
      | assumption | apply readSt_in C | apply readCfg_in C | apply writeSt_in C | apply noteSaturated_in C | apply present_in C
      | apply in_foldl | apply in_ite)
    | exact rfl
    | split

theorem moveTarget_in {P : State → Prop} (C : WorkClosed P) (s : State) (src : Src) (old : W64) (new : W64) (hs : P s) : P (moveTarget s src old new) := by
  unfold moveTarget
  try dsimp only
  repeat' first
    | (intro _)
    | (with_reducible first
      | assumption | apply removeSrc_in C | apply present_in C
      | apply in_foldl | apply in_ite)
    | exact rfl
    | split

theorem zeroVector_in {P : State → Prop} (C : WorkClosed P) (s : State) (v : Nat) (hs : P s) : P (zeroVector s v) := by
  unfold zeroVector
  try dsimp only
  repeat' first
    | (intro _)
    | (with_reducible first
      | assumption | apply State.putSt_in C | apply State.putCfg_in C | apply removeSrc_in C | apply C.toChainClosed.pwr
      | apply in_foldl | apply in_ite)
    | exact rfl
    | split

theorem zeroRange.writtenRange_in {P : State → Prop} (C : WorkClosed P) (s : State) (r : Range) (hs : P s) : P (zeroRange.writtenRange s r) := by
  unfold zeroRange.writtenRange
  try dsimp only
  repeat' first
    | (intro _)
    | (with_reducible first
      | assumption | apply wroteLine_in C
      | apply in_foldl | apply in_ite)
    | exact rfl
    | split

theorem zeroRange_in {P : State → Prop} (C : WorkClosed P) (s : State) (r : Range) (hs : P s) : P (zeroRange s r) := by
  unfold zeroRange
  try dsimp only
  repeat' first
    | (intro _)
    | (with_reducible first
      | assumption | apply zeroRange.writtenRange_in C | apply State.dropLines_in C | apply zeroVector_in C
      | apply in_foldl | apply in_ite)
    | exact rfl
    | split

theorem wakeQuarter_in {P : State → Prop} (C : ChainClosed P) (s : State) (q : Option Nat) (hs : P s) : P (wakeQuarter s q) := by
  unfold wakeQuarter
  try dsimp only
  repeat' first
    | (intro _)
    | (with_reducible first
      | assumption | apply wake_in C
      | apply in_foldl | apply in_ite)
    | exact rfl
    | split

theorem park_in {P : State → Prop} (C : WorkClosed P) (s : State) (t : Tenant) (hs : P s) : P (park s t) := by
  unfold park
  try dsimp only
  repeat' first
    | (intro _)
    | (with_reducible first
      | assumption | apply State.modTarget_in C | apply State.modTenant_in C | apply C.tgt
      | apply in_foldl | apply in_ite)
    | exact rfl
    | split

theorem applyDrop_in {P : State → Prop} (C : WorkClosed P) (s : State) (slot : Slot) (seq : BitVec 16) (hs : P s) : P (applyDrop s slot seq) := by
  unfold applyDrop
  try dsimp only
  repeat' first
    | (intro _)
    | (with_reducible first
      | assumption | apply raiseSource_in C.toChainClosed | apply park_in C | apply C.tgt
      | apply in_foldl | apply in_ite)
    | exact rfl
    | split

theorem State.setMpu_in {P : State → Prop} (C : WorkClosed P) (s : State) (u : Nat) (m : Mpu) (hs : P s) : P (State.setMpu s u m) := by
  unfold State.setMpu
  try dsimp only
  repeat' first
    | (intro _)
    | (with_reducible first
      | assumption | apply C.acu
      | apply in_foldl | apply in_ite)
    | exact rfl
    | split

theorem noteViolation_in {P : State → Prop} (C : WorkClosed P) (s : State) (u : Nat) (x : Access) (straddle : Bool) (r : Ruling) (hs : P s) : P (noteViolation s u x straddle r) := by
  unfold noteViolation
  try dsimp only
  repeat' first
    | (intro _)
    | (with_reducible first
      | assumption | apply State.setMpu_in C | apply raiseSource_in C.toChainClosed
      | apply in_foldl | apply in_ite)
    | exact rfl
    | split

theorem chargeOpened_in {P : State → Prop} (C : WorkClosed P) (s : State) (a : Ruling) (b : Ruling) (hs : P s) : P (chargeOpened s a b) := by
  unfold chargeOpened
  try dsimp only
  repeat' first
    | (intro _)
    | (with_reducible first
      | assumption | apply chargeFault_in C
      | apply in_foldl | apply in_ite)
    | exact rfl
    | split

theorem checkAccess_in {P : State → Prop} (C : WorkClosed P) (s : State) (u : Nat) (x : Access) (hs : P s) : P (checkAccess s u x).1 := by
  unfold checkAccess
  try dsimp only
  repeat' first
    | (intro _)
    | (with_reducible first
      | assumption | apply chargeOpened_in C | apply noteViolation_in C
      | apply in_foldl | apply in_ite)
    | exact rfl
    | split

theorem leaveAgent_in {P : State → Prop} (C : WorkClosed P) (s : State) (t : Tenant) (hs : P s) : P (leaveAgent s t) := by
  unfold leaveAgent
  try dsimp only
  repeat' first
    | (intro _)
    | (with_reducible first
      | assumption | apply C.acu
      | apply in_foldl | apply in_ite)
    | exact rfl
    | split

theorem chargeMailbox_in {P : State → Prop} (C : WorkClosed P) (s : State) (m : BitVec 7) (c : Snap) (status : Byte) (hs : P s) : P (chargeMailbox s m c status) := by
  unfold chargeMailbox
  try dsimp only
  repeat' first
    | (intro _)
    | (with_reducible first
      | assumption | apply chargeFault_in C
      | apply in_foldl | apply in_ite)
    | exact rfl
    | split

theorem replyNotice_in {P : State → Prop} (C : WorkClosed P) (s : State) (m : BitVec 7) (hs : P s) : P (replyNotice s m) := by
  unfold replyNotice
  try dsimp only
  repeat' first
    | (intro _)
    | (with_reducible first
      | assumption | apply notify_in C
      | apply in_foldl | apply in_ite)
    | exact rfl
    | split

theorem leaveMailbox_in {P : State → Prop} (C : WorkClosed P) (s : State) (m : BitVec 7) (hs : P s) : P (leaveMailbox s m) := by
  unfold leaveMailbox
  try dsimp only
  repeat' first
    | (intro _)
    | (with_reducible first
      | assumption | apply leaveAgent_in C
      | apply in_foldl | apply in_ite)
    | exact rfl
    | split

theorem deposit_in {P : State → Prop} (C : WorkClosed P) (s : State) (m : BitVec 7) (r : Reply) (hs : P s) : P (deposit s m r) := by
  unfold deposit
  try dsimp only
  repeat' first
    | (intro _)
    | (with_reducible first
      | assumption | apply leaveMailbox_in C | apply replyNotice_in C | apply chargeMailbox_in C | apply in_setBox C | apply in_modBox C | apply in_setFw C | apply C.mbx
      | apply in_foldl | apply in_ite)
    | exact rfl
    | split

theorem finish_in {P : State → Prop} (C : WorkClosed P) (s : State) (m : BitVec 7) (r : Reply) (hs : P s) : P (finish s m r) := by
  unfold finish
  try dsimp only
  repeat' first
    | (intro _)
    | (with_reducible first
      | assumption | apply in_setBox C | apply in_modBox C | apply in_setFw C | apply C.mbx
      | apply in_foldl | apply in_ite)
    | exact rfl
    | split

theorem spareFault_in {P : State → Prop} (C : WorkClosed P) (s : State) (hs : P s) : P (spareFault s) := by
  unfold spareFault
  try dsimp only
  repeat' first
    | (intro _)
    | (with_reducible first
      | assumption | apply C.tgt
      | apply in_foldl | apply in_ite)
    | exact rfl
    | split

theorem finishResync_in {P : State → Prop} (C : WorkClosed P) (s : State) (t : Tenant) (hs : P s) : P (finishResync s t) := by
  unfold finishResync
  try dsimp only
  repeat' first
    | (intro _)
    | (with_reducible first
      | assumption | apply State.modTenant_in C | apply notify_in C | apply deposit_in C
      | apply in_foldl | apply in_ite)
    | exact rfl
    | split

theorem emitDecision_in {P : State → Prop} (C : WorkClosed P) (s : State) (p : PassRun) (t : Tenant) (x : Slot) (src : Src) (hs : P s) : P (emitDecision s p t x src).1 := by
  unfold emitDecision
  try dsimp only
  repeat' first
    | (intro _)
    | (with_reducible first
      | assumption | apply State.setBusy_in C | apply State.count_in C | apply State.modTenant_in C | apply C.tgt
      | apply in_foldl | apply in_ite)
    | exact rfl
    | split

theorem passLoop_in {P : State → Prop} (C : WorkClosed P) (limit : Nat) (x1 : Nat) (x2 : State) (x3 : PassRun) (hx2 : P x2) : P (passLoop limit x1 x2 x3).1 := by
  induction x1 generalizing x2 x3 with
  | zero => exact hx2
  | succ fuel ih =>
    unfold passLoop
    split
    · exact hx2
    dsimp only
    split
    · exact hx2
    · rename_i u _
      have h : P (if (x2.tenant x2.tgt.turn).passDeficit ≠ 0 ∧ (x3.ready.any fun q => q.1 == x2.tgt.turn)
          = true then x2 else (x2.modTenant u fun r => { r with passDeficit := r.weight.toNat }).setTgt
          { x2.tgt with turn := u }) :=
        in_ite hx2 (C.tgt (State.modTenant_in C _ _ _ hx2))
      split
      · exact h
      split
      · exact ih _ _ h
      · exact ih _ _ (emitDecision_in C _ _ _ _ _ h)

theorem takeResyncSets_in {P : State → Prop} (C : WorkClosed P) (s : State) (hs : P s) : P (takeResyncSets s) := by
  unfold takeResyncSets
  try dsimp only
  repeat' first
    | (intro _)
    | (with_reducible first
      | assumption | apply State.setTenant_in C
      | apply in_foldl | apply in_ite)
    | exact rfl
    | split

theorem emitReissues_in {P : State → Prop} (C : WorkClosed P) (s : State) (t : Tenant) (quota : Nat) (n : Nat) (hs : P s) : P (emitReissues s t quota n).1 := by
  unfold emitReissues
  try dsimp only
  repeat' first
    | (intro _)
    | (with_reducible first
      | assumption | apply State.setTenant_in C | apply C.tgt
      | apply in_foldl | apply in_ite)
    | exact rfl
    | split

theorem reissuePass_in {P : State → Prop} (C : WorkClosed P) (s : State) (hs : P s) : P (reissuePass s).1 := by
  unfold reissuePass
  split
  · exact hs
  · exact in_foldl_fst _ _ _ (fun p _ h => emitReissues_in C _ _ _ _ h) hs

theorem decisionPass_in {P : State → Prop} (C : WorkClosed P) (s : State) (hs : P s) : P (decisionPass s) := by
  unfold decisionPass
  try dsimp only
  repeat' first
    | (intro _)
    | (with_reducible first
      | assumption | apply State.modTarget_in C | apply reissuePass_in C | apply passLoop_in C | apply finishResync_in C | apply exceed_in C | apply C.tgt
      | apply in_foldl | apply in_ite)
    | exact rfl
    | split

theorem wakeShortlists_in {P : State → Prop} (C : ChainClosed P) (s : State) (hs : P s) : P (wakeShortlists s) := by
  unfold wakeShortlists
  try dsimp only
  repeat' first
    | (intro _)
    | (with_reducible first
      | assumption | apply wakeQuarter_in C
      | apply in_foldl | apply in_ite)
    | exact rfl
    | split

theorem endRefill_in {P : State → Prop} (C : WorkClosed P) (s : State) (x : Slot) (msg : Bool) (hs : P s) : P (endRefill s x msg) := by
  unfold endRefill
  try dsimp only
  repeat' first
    | (intro _)
    | (with_reducible first
      | assumption | apply State.modTarget_in C | apply State.setTarget_in C
      | apply in_foldl | apply in_ite)
    | exact rfl
    | split

theorem coverEnd_in {P : State → Prop} (C : WorkClosed P) (s : State) (hs : P s) : P (coverEnd s) := by
  unfold coverEnd
  try dsimp only
  repeat' first
    | (intro _)
    | (with_reducible first
      | assumption | apply C.tgt
      | apply in_foldl | apply in_ite)
    | exact rfl
    | split

theorem completeRefills_in {P : State → Prop} (C : WorkClosed P) (s : State) (hs : P s) : P (completeRefills s) := by
  unfold completeRefills
  try dsimp only
  repeat' first
    | (intro _)
    | (with_reducible first
      | assumption | apply endRefill_in C | apply C.tgt
      | apply in_foldl | apply in_ite)
    | exact rfl
    | split

theorem startMsg_in {P : State → Prop} (C : WorkClosed P) (asked : TgtUnit) (s : State) (hs : P s) : P (startMsg asked s) := by
  unfold startMsg
  try dsimp only
  repeat' first
    | (intro _)
    | (with_reducible first
      | assumption | apply wakeQuarter_in C.toChainClosed | apply C.tgt
      | apply in_foldl | apply in_ite)
    | exact rfl
    | split

theorem startSysPass_in {P : State → Prop} (C : WorkClosed P) (asked : TgtUnit) (s : State) (hs : P s) : P (startSysPass asked s) := by
  unfold startSysPass
  try dsimp only
  repeat' first
    | (intro _)
    | (with_reducible first
      | assumption | apply C.tgt
      | apply in_foldl | apply in_ite)
    | exact rfl
    | split

theorem takeServed_in {P : State → Prop} (C : WorkClosed P) (asked : TgtUnit) (s : State) (hs : P s) : P (takeServed asked s) := by
  unfold takeServed
  try dsimp only
  repeat' first
    | (intro _)
    | (with_reducible first
      | assumption | apply C.tgt
      | apply in_foldl | apply in_ite)
    | exact rfl
    | split

theorem tickRefills_in {P : State → Prop} (C : WorkClosed P) (asked : TgtUnit) (s : State) (hs : P s) : P (tickRefills asked s) := by
  unfold tickRefills
  try dsimp only
  repeat' first
    | (intro _)
    | (with_reducible first
      | assumption | apply coverEnd_in C | apply takeServed_in C | apply startSysPass_in C | apply startMsg_in C | apply completeRefills_in C | apply requestRefill_in C
      | apply in_foldl | apply in_ite)
    | exact rfl
    | split

theorem candidate_in {P : State → Prop} (C : WorkClosed P) (served : List Slot) (s : State) (src : Src) (hs : P s) : P (candidate served s src) := by
  unfold candidate
  try dsimp only
  repeat' first
    | (intro _)
    | (with_reducible first
      | assumption | apply present_in C
      | apply in_foldl | apply in_ite)
    | exact rfl
    | split

theorem scanMsg_in {P : State → Prop} (C : WorkClosed P) (s : State) (hs : P s) : P (scanMsg s) := by
  unfold scanMsg
  try dsimp only
  repeat' first
    | (intro _)
    | (with_reducible first
      | assumption | apply wakeQuarter_in C.toChainClosed | apply readGroups_in C | apply readIndex_in C | apply candidate_in C | apply readCfg_in C | apply State.count_in C | apply trueGroups_in C | apply C.tgt
      | apply in_foldl | apply in_ite)
    | exact rfl
    | split

theorem scanSys_in {P : State → Prop} (C : WorkClosed P) (s : State) (hs : P s) : P (scanSys s) := by
  unfold scanSys
  try dsimp only
  repeat' first
    | (intro _)
    | (with_reducible first
      | assumption | apply readGroups_in C | apply readIndex_in C | apply candidate_in C | apply readCfg_in C | apply trueGroups_in C | apply C.tgt
      | apply in_foldl | apply in_ite)
    | exact rfl
    | split

theorem abandonResync_in {P : State → Prop} (C : WorkClosed P) (s : State) (t : Tenant) (hs : P s) : P (abandonResync s t) := by
  unfold abandonResync
  try dsimp only
  repeat' first
    | (intro _)
    | (with_reducible first
      | assumption | apply State.setTenant_in C | apply finish_in C | apply C.tgt
      | apply in_foldl | apply in_ite)
    | exact rfl
    | split

theorem dropFmWaiting_in {P : State → Prop} (C : WorkClosed P) (s : State) (t : Tenant) (hs : P s) : P (dropFmWaiting s t) := by
  unfold dropFmWaiting
  try dsimp only
  repeat' first
    | (intro _)
    | (with_reducible first
      | assumption | apply State.modTenant_in C | apply discard_in C
      | apply in_foldl | apply in_ite)
    | exact rfl
    | split

theorem closeBox_in {P : State → Prop} (C : WorkClosed P) (s : State) (t : Tenant) (hs : P s) : P (closeBox s t) := by
  unfold closeBox
  try dsimp only
  repeat' first
    | (intro _)
    | (with_reducible first
      | assumption | apply leaveAgent_in C | apply in_setBox C | apply in_modBox C | apply in_setFw C | apply C.mbx
      | apply in_foldl | apply in_ite)
    | exact rfl
    | split

theorem closePaths_in {P : State → Prop} (C : WorkClosed P) (s : State) (t : Tenant) (hs : P s) : P (closePaths s t) := by
  unfold closePaths
  try dsimp only
  repeat' first
    | (intro _)
    | (with_reducible first
      | assumption | apply abandonResync_in C | apply coverEnd_in C | apply dropFmWaiting_in C | apply State.modTenant_in C | apply closeBox_in C | apply C.tgt
      | apply in_foldl | apply in_ite)
    | exact rfl
    | split

theorem resetGranted_in {P : State → Prop} (C : WorkClosed P) (s : State) (x : Slot) (hs : P s) : P (resetGranted s x) := by
  unfold resetGranted
  try dsimp only
  repeat' first
    | (intro _)
    | (with_reducible first
      | assumption | apply State.setBusy_in C | apply wroteTarget_in C | apply resetTarget_in C | apply requestRefill_in C | apply State.modTarget_in C
      | apply in_foldl | apply in_ite)
    | exact rfl
    | split

theorem resetClasp_in {P : State → Prop} (C : WorkClosed P) (s : State) (t : Tenant) (hs : P s) : P (resetClasp s t) := by
  unfold resetClasp
  try dsimp only
  repeat' first
    | (intro _)
    | (with_reducible first
      | assumption | apply C.ten
      | apply in_foldl | apply in_ite)
    | exact rfl
    | split

theorem startResetWork_in {P : State → Prop} (C : WorkClosed P) (s : State) (t : Tenant) (hs : P s) : P (startResetWork s t) := by
  unfold startResetWork
  try dsimp only
  repeat' first
    | (intro _)
    | (with_reducible first
      | assumption | apply resetGranted_in C | apply resetClasp_in C | apply zeroRange_in C | apply State.modTenant_in C
      | apply in_foldl | apply in_ite)
    | exact rfl
    | split

theorem clearBins_in {P : State → Prop} (C : WorkClosed P) (s : State) (t : Tenant) (hs : P s) : P (clearBins s t) := by
  unfold clearBins
  try dsimp only
  repeat' first
    | (intro _)
    | (with_reducible first
      | assumption | apply C.loupe
      | apply in_foldl | apply in_ite)
    | exact rfl
    | split

theorem resetMailbox_in {P : State → Prop} (C : WorkClosed P) (s : State) (t : Tenant) (hs : P s) : P (resetMailbox s t) := by
  unfold resetMailbox
  try dsimp only
  repeat' first
    | (intro _)
    | (with_reducible first
      | assumption | apply in_setBox C | apply in_modBox C | apply in_setFw C | apply C.mbx
      | apply in_foldl | apply in_ite)
    | exact rfl
    | split

theorem resetReply_in {P : State → Prop} (C : WorkClosed P) (t : Tenant) (q : ResetRun) (s : State) (m : BitVec 7) (hs : P s) : P (resetReply t q s m) := by
  unfold resetReply
  try dsimp only
  repeat' first
    | (intro _)
    | (with_reducible first
      | assumption | apply deposit_in C | apply in_setBox C | apply in_modBox C | apply in_setFw C | apply C.mbx
      | apply in_foldl | apply in_ite)
    | exact rfl
    | split

theorem clearReset_in {P : State → Prop} (C : WorkClosed P) (s : State) (t : Tenant) (hs : P s) : P (clearReset s t) := by
  unfold clearReset
  try dsimp only
  repeat' first
    | (intro _)
    | (with_reducible first
      | assumption | apply State.modTenant_in C | apply setLevel_in C.toChainClosed | apply resetMailbox_in C | apply clearBins_in C | apply resetReply_in C | apply in_setBox C | apply in_modBox C | apply in_setFw C | apply C.mbx
      | apply in_foldl | apply in_ite)
    | exact rfl
    | split

theorem boundAgain_in {P : State → Prop} (C : WorkClosed P) (s : State) (t : Tenant) (q : ResetRun) (hs : P s) : P (boundAgain s t q) := by
  unfold boundAgain
  try dsimp only
  repeat' first
    | (intro _)
    | (with_reducible first
      | assumption | apply State.modTenant_in C | apply raiseSource_in C.toChainClosed | apply notify_in C
      | apply in_foldl | apply in_ite)
    | exact rfl
    | split

theorem tickReset_in {P : State → Prop} (C : WorkClosed P) (s : State) (t : Tenant) (hs : P s) : P (tickReset s t) := by
  unfold tickReset
  try dsimp only
  repeat' first
    | (intro _)
    | (with_reducible first
      | assumption | apply clearReset_in C | apply boundAgain_in C | apply State.modTenant_in C | apply closePaths_in C | apply startResetWork_in C
      | apply in_foldl | apply in_ite)
    | exact rfl
    | split

theorem endSweep_in {P : State → Prop} (C : WorkClosed P) (s : State) (w : Sweep) (hs : P s) : P (endSweep s w) := by
  unfold endSweep
  try dsimp only
  repeat' first
    | (intro _)
    | (with_reducible first
      | assumption | apply zeroRange_in C | apply deposit_in C | apply C.ten
      | apply in_foldl | apply in_ite)
    | exact rfl
    | split

theorem tickSweeps_in {P : State → Prop} (C : WorkClosed P) (s : State) (hs : P s) : P (tickSweeps s) := by
  unfold tickSweeps
  try dsimp only
  repeat' first
    | (intro _)
    | (with_reducible first
      | assumption | apply endSweep_in C | apply C.ten
      | apply in_foldl | apply in_ite)
    | exact rfl
    | split

theorem lapseConsent_in {P : State → Prop} (C : WorkClosed P) (s : State) (t : Tenant) (hs : P s) : P (lapseConsent s t) := by
  unfold lapseConsent
  try dsimp only
  repeat' first
    | (intro _)
    | (with_reducible first
      | assumption | apply State.modTenant_in C
      | apply in_foldl | apply in_ite)
    | exact rfl
    | split

theorem tickTenants_in {P : State → Prop} (C : WorkClosed P) (s : State) (hs : P s) : P (tickTenants s) := by
  unfold tickTenants
  try dsimp only
  repeat' first
    | (intro _)
    | (with_reducible first
      | assumption | apply lapseConsent_in C | apply tickReset_in C | apply C.ten
      | apply in_foldl | apply in_ite)
    | exact rfl
    | split

theorem takeSlot_in {P : State → Prop} (C : WorkClosed P) (s : State) (n : Nat) (hs : P s) : P (takeSlot s n) := by
  unfold takeSlot
  try dsimp only
  repeat' first
    | (intro _)
    | (with_reducible first
      | assumption | apply State.setUse_in C
      | apply in_foldl | apply in_ite)
    | exact rfl
    | split

theorem applyConfig_in {P : State → Prop} (C : WorkClosed P) (s : State) (src : Src) (new : W64) (hs : P s) : P (applyConfig s src new) := by
  unfold applyConfig
  try dsimp only
  repeat' first
    | (intro _)
    | (with_reducible first
      | assumption | apply readSt_in C | apply readCfg_in C | apply writeCfg_in C | apply writeSt_in C | apply moveTarget_in C | apply reload_in C
      | apply in_foldl | apply in_ite)
    | exact rfl
    | split

theorem readWordsOf_in {P : State → Prop} (C : WorkClosed P) (s : State) (src : Src) (hs : P s) : P (readWordsOf s src) := by
  unfold readWordsOf
  try dsimp only
  repeat' first
    | (intro _)
    | (with_reducible first
      | assumption | apply peekSt_in C | apply readCfg_in C
      | apply in_foldl | apply in_ite)
    | exact rfl
    | split

theorem endLoad_in {P : State → Prop} (C : WorkClosed P) (s : State) (m : BitVec 7) (l : LoadRun) (stop : Nat) (hs : P s) : P (endLoad s m l stop) := by
  unfold endLoad
  try dsimp only
  repeat' first
    | (intro _)
    | (with_reducible first
      | assumption | apply in_setBox C | apply in_modBox C | apply in_setFw C | apply C.mbx
      | apply in_foldl | apply in_ite)
    | exact rfl
    | split

theorem loaderWrite_in {P : State → Prop} (C : WorkClosed P) (s : State) (issuer : Option Tenant) (l : LoadRun) (hs : P s) : P (loaderWrite s issuer l).1 := by
  unfold loaderWrite
  try dsimp only
  repeat' first
    | (intro _)
    | (with_reducible first
      | assumption | apply checkAccess_in C | apply applyConfig_in C | apply chargeFault_in C
      | apply in_foldl | apply in_ite)
    | exact rfl
    | split

theorem loadEntries_in {P : State → Prop} (C : WorkClosed P) (issuer : Option Tenant) (x1 : Nat) (x2 : Option Nat) (x3 : State) (x4 : LoadRun) (hx3 : P x3) : P (loadEntries issuer x1 x2 x3 x4).1 := by
  induction x1 generalizing x2 x3 x4 with
  | zero => exact hx3
  | succ fuel ih =>
    unfold loadEntries
    split
    · split
      · exact ih _ _ _ (loaderWrite_in C _ _ _ hx3)
      · exact hx3
    · exact hx3
    · dsimp only
      have h := readWordsOf_in C x3 (entrySrc x4 x4.next) hx3
      split
      · split
        · split
          · exact ih _ _ _ (takeSlot_in C _ _ h)
          · exact h
        · exact ih _ _ _ h
      · exact in_foldl _ _ _ (fun _ _ h => wake_in C.toChainClosed _ _ _ h) hx3

theorem failRead_in {P : State → Prop} (C : WorkClosed P) (s : State) (m : BitVec 7) (l : LoadRun) (hs : P s) : P (failRead s m l) := by
  unfold failRead
  try dsimp only
  repeat' first
    | (intro _)
    | (with_reducible first
      | assumption | apply chargeFault_in C | apply endLoad_in C
      | apply in_foldl | apply in_ite)
    | exact rfl
    | split

theorem runLoad_in {P : State → Prop} (C : WorkClosed P) (s : State) (m : BitVec 7) (l : LoadRun) (hs : P s) : P (runLoad s m l) := by
  unfold runLoad
  try dsimp only
  repeat' first
    | (intro _)
    | (with_reducible first
      | assumption | apply loadEntries_in C | apply endLoad_in C | apply failRead_in C | apply in_setBox C | apply in_modBox C | apply in_setFw C | apply C.mbx
      | apply in_foldl | apply in_ite)
    | exact rfl
    | split

theorem advanceLoad_in {P : State → Prop} (C : WorkClosed P) (s : State) (m : BitVec 7) (hs : P s) : P (advanceLoad s m) := by
  unfold advanceLoad
  try dsimp only
  repeat' first
    | (intro _)
    | (with_reducible first
      | assumption | apply runLoad_in C
      | apply in_foldl | apply in_ite)
    | exact rfl
    | split

theorem advanceLoads_in {P : State → Prop} (C : WorkClosed P) (s : State) (hs : P s) : P (advanceLoads s) := by
  unfold advanceLoads
  try dsimp only
  repeat' first
    | (intro _)
    | (with_reducible first
      | assumption | apply advanceLoad_in C
      | apply in_foldl | apply in_ite)
    | exact rfl
    | split

theorem setWired_in {P : State → Prop} (C : ChainClosed P) (s : State) (i : Nat) (b : Bool) (hs : P s) : P (setWired s i b) := by
  unfold setWired
  try dsimp only
  repeat' first
    | (intro _)
    | (with_reducible first
      | assumption | apply C.sys
      | apply in_foldl | apply in_ite)
    | exact rfl
    | split

theorem sampleInput_in {P : State → Prop} (C : WorkClosed P) (wired : BitVec 96) (s : State) (i : Nat) (hs : P s) : P (sampleInput wired s i) := by
  unfold sampleInput
  try dsimp only
  repeat' first
    | (intro _)
    | (with_reducible first
      | assumption | apply setWired_in C.toChainClosed | apply State.count_in C | apply applyEdge_in C | apply C.bead
      | apply in_foldl | apply in_ite)
    | exact rfl
    | split

theorem adoptConfig_in {P : State → Prop} (C : WorkClosed P) (s : State) (hs : P s) : P (adoptConfig s) := by
  unfold adoptConfig
  try dsimp only
  repeat' first
    | (intro _)
    | (with_reducible first
      | assumption | apply setWired_in C.toChainClosed | apply C.bead
      | apply in_foldl | apply in_ite)
    | exact rfl
    | split

theorem runRound_in {P : State → Prop} (C : WorkClosed P) (s : State) (wired : BitVec 96) (hs : P s) : P (runRound s wired) := by
  unfold runRound
  try dsimp only
  repeat' first
    | (intro _)
    | (with_reducible first
      | assumption | apply sampleInput_in C | apply C.bead
      | apply in_foldl | apply in_ite)
    | exact rfl
    | split

theorem beadRound_in {P : State → Prop} (C : WorkClosed P) (s : State) (wired : BitVec 96) (hs : P s) : P (beadRound s wired) := by
  unfold beadRound
  try dsimp only
  repeat' first
    | (intro _)
    | (with_reducible first
      | assumption | apply runRound_in C | apply adoptConfig_in C | apply C.bead
      | apply in_foldl | apply in_ite)
    | exact rfl
    | split

theorem dropControl_in {P : State → Prop} (C : ChainClosed P) (s : State) (p : PortId) (held : List TransitFlit) (hs : P s) : P (dropControl s p held) := by
  unfold dropControl
  try dsimp only
  repeat' first
    | (intro _)
    | (with_reducible first
      | assumption | apply freeCredits_in C
      | apply in_foldl | apply in_ite)
    | exact rfl
    | split

theorem rerouteOne_in {P : State → Prop} (C : ChainClosed P) (p : PortId) (acc : State × List TransitFlit) (t : TransitFlit) (hacc : P acc.1) : P (rerouteOne p acc t).1 := by
  unfold rerouteOne
  try dsimp only
  repeat' first
    | (intro _)
    | (with_reducible first
      | assumption | apply State.setLinkPort_in C | apply strand_in C | apply freeCredits_in C
      | apply in_foldl | apply in_ite)
    | exact rfl
    | split

theorem declareDown_in {P : State → Prop} (C : ChainClosed P) (s : State) (p : PortId) (hs : P s) : P (declareDown s p) := by
  unfold declareDown
  dsimp only
  refine setLevel_in C _ _ _ (C.chain (State.setLinkPort_in C _ _ _ (in_foldl_fst _ _ _ (fun p _ h =>
      rerouteOne_in C _ _ _ h) ?_)))
  exact dropControl_in C _ _ _ (setDist_in C _ _ _ (State.setLinkPort_in C _ _ _ (State.setLinkPort_in C _ _ _
      hs)))

theorem declareIfUp_in {P : State → Prop} (C : ChainClosed P) (s : State) (p : PortId) (hs : P s) : P (declareIfUp s p) := by
  unfold declareIfUp
  try dsimp only
  repeat' first
    | (intro _)
    | (with_reducible first
      | assumption | apply declareDown_in C
      | apply in_foldl | apply in_ite)
    | exact rfl
    | split

theorem refreshRetimer_in {P : State → Prop} (C : ChainClosed P) (s : State) (hs : P s) : P (refreshRetimer s) := by
  unfold refreshRetimer
  try dsimp only
  repeat' first
    | (intro _)
    | (with_reducible first
      | assumption | apply C.chain
      | apply in_foldl | apply in_ite)
    | exact rfl
    | split

theorem enterDetect_in {P : State → Prop} (C : ChainClosed P) (s : State) (p : PortId) (hs : P s) : P (enterDetect s p) := by
  unfold enterDetect
  try dsimp only
  repeat' first
    | (intro _)
    | (with_reducible first
      | assumption | apply declareIfUp_in C | apply refreshRetimer_in C | apply State.setPhy_in C
      | apply in_foldl | apply in_ite)
    | exact rfl
    | split

theorem enterDisabled_in {P : State → Prop} (C : ChainClosed P) (s : State) (p : PortId) (hs : P s) : P (enterDisabled s p) := by
  unfold enterDisabled
  try dsimp only
  repeat' first
    | (intro _)
    | (with_reducible first
      | assumption | apply declareIfUp_in C | apply refreshRetimer_in C | apply State.setPhy_in C
      | apply in_foldl | apply in_ite)
    | exact rfl
    | split

theorem trainFail_in {P : State → Prop} (C : ChainClosed P) (s : State) (p : PortId) (hs : P s) : P (trainFail s p) := by
  unfold trainFail
  try dsimp only
  repeat' first
    | (intro _)
    | (with_reducible first
      | assumption | apply enterDetect_in C | apply State.setPhy_in C
      | apply in_foldl | apply in_ite)
    | exact rfl
    | split

theorem enterLockLost_in {P : State → Prop} (C : ChainClosed P) (s : State) (p : PortId) (hs : P s) : P (enterLockLost s p) := by
  unfold enterLockLost
  try dsimp only
  repeat' first
    | (intro _)
    | (with_reducible first
      | assumption | apply State.setPhy_in C
      | apply in_foldl | apply in_ite)
    | exact rfl
    | split

theorem enterDown_in {P : State → Prop} (C : ChainClosed P) (s : State) (p : PortId) (hs : P s) : P (enterDown s p) := by
  unfold enterDown
  try dsimp only
  repeat' first
    | (intro _)
    | (with_reducible first
      | assumption | apply declareDown_in C | apply State.setPhy_in C
      | apply in_foldl | apply in_ite)
    | exact rfl
    | split

theorem enterUp_in {P : State → Prop} (C : ChainClosed P) (s : State) (p : PortId) (hs : P s) : P (enterUp s p) := by
  unfold enterUp
  try dsimp only
  repeat' first
    | (intro _)
    | (with_reducible first
      | assumption | apply setLevel_in C | apply State.setPhy_in C
      | apply in_foldl | apply in_ite)
    | exact rfl
    | split

theorem exchangeSets_in {P : State → Prop} (C : ChainClosed P) (s : State) (p : PortId) (b : BitVec 128) (ack : Bool) (hs : P s) : P (exchangeSets s p b ack) := by
  unfold exchangeSets
  try dsimp only
  repeat' first
    | (intro _)
    | (with_reducible first
      | assumption | apply State.setPhy_in C
      | apply in_foldl | apply in_ite)
    | exact rfl
    | split

theorem trainingSet_in {P : State → Prop} (C : ChainClosed P) (s : State) (p : PortId) (b : BitVec 128) (hs : P s) : P (trainingSet s p b) := by
  unfold trainingSet
  try dsimp only
  repeat' first
    | (intro _)
    | (with_reducible first
      | assumption | apply State.setPhy_in C | apply trainFail_in C | apply exchangeSets_in C
      | apply in_foldl | apply in_ite)
    | exact rfl
    | split

theorem loseLane_in {P : State → Prop} (C : ChainClosed P) (s : State) (p : PortId) (lane : Nat) (hs : P s) : P (loseLane s p lane) := by
  unfold loseLane
  try dsimp only
  repeat' first
    | (intro _)
    | (with_reducible first
      | assumption | apply State.setPhy_in C | apply enterLockLost_in C
      | apply in_foldl | apply in_ite)
    | exact rfl
    | split

theorem takeAck_in {P : State → Prop} (C : ChainClosed P) (s : State) (p : PortId) (k : Nat) (hs : P s) : P (takeAck s p k) := by
  unfold takeAck
  try dsimp only
  repeat' first
    | (intro _)
    | (with_reducible first
      | assumption | apply State.setPhy_in C | apply raiseSource_in C | apply enterUp_in C
      | apply in_foldl | apply in_ite)
    | exact rfl
    | split

theorem markerSpare_in {P : State → Prop} (C : ChainClosed P) (s : State) (p : PortId) (code : Nat) (hs : P s) : P (markerSpare s p code) := by
  unfold markerSpare
  try dsimp only
  repeat' first
    | (intro _)
    | (with_reducible first
      | assumption | apply State.setPhy_in C | apply takeAck_in C
      | apply in_foldl | apply in_ite)
    | exact rfl
    | split

theorem validMarker_in {P : State → Prop} (C : ChainClosed P) (s : State) (p : PortId) (lane : Nat) (b : BitVec 128) (hs : P s) : P (validMarker s p lane b) := by
  unfold validMarker
  try dsimp only
  repeat' first
    | (intro _)
    | (with_reducible first
      | assumption | apply State.setPhy_in C | apply State.setLinkPort_in C | apply enterUp_in C | apply markerSpare_in C
      | apply in_foldl | apply in_ite)
    | exact rfl
    | split

theorem missedMarker_in {P : State → Prop} (C : ChainClosed P) (s : State) (p : PortId) (lane : Nat) (hs : P s) : P (missedMarker s p lane) := by
  unfold missedMarker
  try dsimp only
  repeat' first
    | (intro _)
    | (with_reducible first
      | assumption | apply State.setPhy_in C | apply loseLane_in C
      | apply in_foldl | apply in_ite)
    | exact rfl
    | split

theorem tickLockLost_in {P : State → Prop} (C : ChainClosed P) (s : State) (p : PortId) (hs : P s) : P (tickLockLost s p) := by
  unfold tickLockLost
  try dsimp only
  repeat' first
    | (intro _)
    | (with_reducible first
      | assumption | apply State.setPortCfg_in C | apply State.setPhy_in C | apply enterDown_in C
      | apply in_foldl | apply in_ite)
    | exact rfl
    | split

theorem chainActions_in {P : State → Prop} (C : ChainClosed P) (s : State) (p : PortId) (c : Snap) (hs : P s) : P (chainActions s p c) := by
  unfold chainActions
  try dsimp only
  repeat' first
    | (intro _)
    | (with_reducible first
      | assumption | apply State.setPortCfg_in C | apply enterDisabled_in C | apply enterDetect_in C
      | apply in_foldl | apply in_ite)
    | exact rfl
    | split

theorem completeInit_in {P : State → Prop} (C : ChainClosed P) (s : State) (p : PortId) (hs : P s) : P (completeInit s p) := by
  unfold completeInit
  try dsimp only
  repeat' first
    | (intro _)
    | (with_reducible first
      | assumption | apply State.setLinkPort_in C | apply raiseSource_in C | apply enterUp_in C
      | apply in_foldl | apply in_ite)
    | exact rfl
    | split

theorem sendAck_in {P : State → Prop} (C : ChainClosed P) (s : State) (c : Chip) (hs : P s) : P (sendAck s c) := by
  unfold sendAck
  try dsimp only
  repeat' first
    | (intro _)
    | (with_reducible first
      | assumption | apply originateCtrl_in C | apply State.setPair_in C
      | apply in_foldl | apply in_ite)
    | exact rfl
    | split

theorem creditOverdue_in {P : State → Prop} (C : ChainClosed P) (s : State) (p : PortId) (k : BitVec 2) (n : Nat) (hs : P s) : P (creditOverdue s p k n) := by
  unfold creditOverdue
  try dsimp only
  repeat' first
    | (intro _)
    | (with_reducible first
      | assumption | apply raiseSource_in C | apply State.setLinkPort_in C
      | apply in_foldl | apply in_ite)
    | exact rfl
    | split

theorem allowOverdue_in {P : State → Prop} (C : ChainClosed P) (s : State) (c : Chip) (t : Tenant) (n : Nat) (hs : P s) : P (allowOverdue s c t n) := by
  unfold allowOverdue
  try dsimp only
  repeat' first
    | (intro _)
    | (with_reducible first
      | assumption | apply State.setPair_in C | apply raiseSource_in C | apply C.chain
      | apply in_foldl | apply in_ite)
    | exact rfl
    | split

theorem tickCredit_in {P : State → Prop} (C : ChainClosed P) (s : State) (p : PortId) (k : Nat) (hs : P s) : P (tickCredit s p k) := by
  unfold tickCredit
  try dsimp only
  repeat' first
    | (intro _)
    | (with_reducible first
      | assumption | apply State.setLinkPort_in C | apply creditOverdue_in C
      | apply in_foldl | apply in_ite)
    | exact rfl
    | split

theorem tickAllow_in {P : State → Prop} (C : ChainClosed P) (s : State) (c : Chip) (t : Nat) (hs : P s) : P (tickAllow s c t) := by
  unfold tickAllow
  try dsimp only
  repeat' first
    | (intro _)
    | (with_reducible first
      | assumption | apply State.setPair_in C | apply allowOverdue_in C
      | apply in_foldl | apply in_ite)
    | exact rfl
    | split

theorem tickWaits_in {P : State → Prop} (C : ChainClosed P) (s : State) (hs : P s) : P (tickWaits s) := by
  unfold tickWaits
  try dsimp only
  repeat' first
    | (intro _)
    | (with_reducible first
      | assumption | apply tickCredit_in C | apply tickAllow_in C
      | apply in_foldl | apply in_ite)
    | exact rfl
    | split

theorem tickPair_in {P : State → Prop} (C : ChainClosed P) (s : State) (c : Chip) (hs : P s) : P (tickPair s c) := by
  unfold tickPair
  try dsimp only
  repeat' first
    | (intro _)
    | (with_reducible first
      | assumption | apply sendAck_in C | apply sendAllow_in C | apply sendDueAllows_in C
      | apply in_foldl | apply in_ite)
    | exact rfl
    | split

theorem tickRing_in {P : State → Prop} (C : ChainClosed P) (s : State) (hs : P s) : P (tickRing s) := by
  unfold tickRing
  try dsimp only
  repeat' first
    | (intro _)
    | (with_reducible first
      | assumption | apply sendMap_in C | apply tickWaits_in C | apply tickPair_in C | apply C.chain
      | apply in_foldl | apply in_ite)
    | exact rfl
    | split

theorem alignLevel_in {P : State → Prop} (C : ChainClosed P) (s : State) (hs : P s) : P (alignLevel s) := by
  unfold alignLevel
  try dsimp only
  repeat' first
    | (intro _)
    | (with_reducible first
      | assumption | apply setLevel_in C
      | apply in_foldl | apply in_ite)
    | exact rfl
    | split

theorem sendTicks_in {P : State → Prop} (C : WorkClosed P) (s : State) (now : W32) (hs : P s) : P (sendTicks s now) := by
  unfold sendTicks
  try dsimp only
  repeat' first
    | (intro _)
    | (with_reducible first
      | assumption | apply State.setLinkPort_in C.toChainClosed | apply C.time
      | apply in_foldl | apply in_ite)
    | exact rfl
    | split

theorem refreshLife_in {P : State → Prop} (C : WorkClosed P) (s : State) (hs : P s) : P (refreshLife s) := by
  unfold refreshLife
  try dsimp only
  repeat' first
    | (intro _)
    | (with_reducible first
      | assumption | apply setLevel_in C.toChainClosed | apply C.ras
      | apply in_foldl | apply in_ite)
    | exact rfl
    | split

theorem retireRow_in {P : State → Prop} (C : WorkClosed P) (s : State) (bank : Nat) (row : BitVec 14) (hs : P s) : P (retireRow s bank row) := by
  unfold retireRow
  try dsimp only
  repeat' first
    | (intro _)
    | (with_reducible first
      | assumption | apply wroteLine_in C | apply readLine_in C | apply refreshLife_in C | apply raiseSource_in C.toChainClosed | apply C.ras
      | apply in_foldl | apply in_ite)
    | exact rfl
    | split

theorem polishLine_in {P : State → Prop} (C : WorkClosed P) (s : State) (l : LineId) (hs : P s) : P (polishLine s l) := by
  unfold polishLine
  try dsimp only
  repeat' first
    | (intro _)
    | (with_reducible first
      | assumption | apply readLine_in C | apply C.ras
      | apply in_foldl | apply in_ite)
    | exact rfl
    | split

theorem polishCycle_in {P : State → Prop} (C : WorkClosed P) (s : State) (key : Nat) (c : Nat) (hs : P s) : P (polishCycle s key c).1 := by
  unfold polishCycle
  try dsimp only
  repeat' first
    | (intro _)
    | (with_reducible first
      | assumption | apply polishLine_in C
      | apply in_foldl | apply in_ite)
    | exact rfl
    | split

theorem writeBackCycles_in {P : State → Prop} (C : WorkClosed P) (s : State) (key : Nat) (used : Nat) (hs : P s) : P (writeBackCycles s key used) := by
  have q : ∀ t, P t → P (writeBackCycles.queued key used t) := fun t h => in_foldl _ _ _ (fun
      u l h => freshLine_in C _ _ h) h
  unfold writeBackCycles
  split
  · exact in_ite (retireRow_in C _ _ _ hs) (q _ hs)
  · exact q _ hs

theorem polishArray_in {P : State → Prop} (C : WorkClosed P) (s : State) (key : Nat) (hs : P s) : P (polishArray s key) := by
  unfold polishArray
  try dsimp only
  repeat' first
    | (intro _)
    | (with_reducible first
      | assumption | apply polishCycle_in C | apply writeBackCycles_in C | apply C.ras
      | apply in_foldl | apply in_ite)
    | exact rfl
    | split

theorem tickPolish_in {P : State → Prop} (C : WorkClosed P) (s : State) (hs : P s) : P (tickPolish s) := by
  unfold tickPolish
  try dsimp only
  repeat' first
    | (intro _)
    | (with_reducible first
      | assumption | apply polishArray_in C
      | apply in_foldl | apply in_ite)
    | exact rfl
    | split

theorem repairRow_in {P : State → Prop} (C : WorkClosed P) (s : State) (e : Nat × BitVec 14) (hs : P s) : P (repairRow s e) := by
  unfold repairRow
  try dsimp only
  repeat' first
    | (intro _)
    | (with_reducible first
      | assumption | apply C.ras
      | apply in_foldl | apply in_ite)
    | exact rfl
    | split

theorem startKernel_in {P : State → Prop} (C : WorkClosed P) (s : State) (slot : Bool) (hs : P s) : P (startKernel s slot) := by
  unfold startKernel
  try dsimp only
  repeat' first
    | (intro _)
    | (with_reducible first
      | assumption | apply State.setMpu_in C | apply in_setBox C | apply in_modBox C | apply in_setFw C | apply C.mbx
      | apply in_foldl | apply in_ite)
    | exact rfl
    | split

theorem trainedPort_in {P : State → Prop} (C : ChainClosed P) (s : State) (p : PortId) (fate : PortFate) (half : Bool) (hs : P s) : P (trainedPort s p fate half) := by
  unfold trainedPort
  try dsimp only
  repeat' first
    | (intro _)
    | (with_reducible first
      | assumption | apply enterDetect_in C | apply State.setPhy_in C | apply completeInit_in C | apply State.setLinkPort_in C
      | apply in_foldl | apply in_ite)
    | exact rfl
    | split

theorem presentLevels_in {P : State → Prop} (C : ChainClosed P) (s : State) (hs : P s) : P (presentLevels s) := by
  unfold presentLevels
  try dsimp only
  repeat' first
    | (intro _)
    | (with_reducible first
      | assumption | apply setLevel_in C
      | apply in_foldl | apply in_ite)
    | exact rfl
    | split

theorem loupeShadow_in {P : State → Prop} (C : WorkClosed P) (s : State) (hs : P s) : P (loupeShadow s) := by
  unfold loupeShadow
  try dsimp only
  repeat' first
    | (intro _)
    | (with_reducible first
      | assumption | apply C.loupe
      | apply in_foldl | apply in_ite)
    | exact rfl
    | split

theorem loupeTick_in {P : State → Prop} (C : WorkClosed P) (s : State) (hs : P s) : P (loupeTick s) := by
  unfold loupeTick
  try dsimp only
  repeat' first
    | (intro _)
    | (with_reducible first
      | assumption | apply C.loupe
      | apply in_foldl | apply in_ite)
    | exact rfl
    | split

theorem clearBusy_in {P : State → Prop} (C : WorkClosed P) (s : State) (hs : P s) : P (clearBusy s) := by
  unfold clearBusy
  try dsimp only
  repeat' first
    | (intro _)
    | (with_reducible first
      | assumption | apply C.tgt
      | apply in_foldl | apply in_ite)
    | exact rfl
    | split

theorem tickClasp_in {P : State → Prop} (C : WorkClosed P) (s : State) (hs : P s) : P (tickClasp s) := by
  unfold tickClasp
  try dsimp only
  repeat' first
    | (intro _)
    | (with_reducible first
      | assumption | apply C.ten | apply C.tgt
      | apply in_foldl | apply in_ite)
    | exact rfl
    | split

theorem tickTimers_in {P : State → Prop} (C : WorkClosed P) (s : State) (hs : P s) : P (tickTimers s) := by
  unfold tickTimers
  try dsimp only
  repeat' first
    | (intro _)
    | (with_reducible first
      | assumption | apply C.tgt
      | apply in_foldl | apply in_ite)
    | exact rfl
    | split

theorem showEntries_in {P : State → Prop} (C : WorkClosed P) (s : State) (hs : P s) : P (showEntries s) := by
  unfold showEntries
  try dsimp only
  repeat' first
    | (intro _)
    | (with_reducible first
      | assumption | apply C.tgt
      | apply in_foldl | apply in_ite)
    | exact rfl
    | split

theorem coldLevels_in {P : State → Prop} (C : WorkClosed P) (s : State) (hs : P s) : P (coldLevels s) := by
  unfold coldLevels
  try dsimp only
  repeat' first
    | (intro _)
    | (with_reducible first
      | assumption | apply raiseSource_in C.toChainClosed | apply C.bead | apply C.toChainClosed.pwr
      | apply in_foldl | apply in_ite)
    | exact rfl
    | split

theorem wakeNotice_in {P : State → Prop} (C : WorkClosed P) (s : State) (hs : P s) : P (wakeNotice s) := by
  unfold wakeNotice
  try dsimp only
  repeat' first
    | (intro _)
    | (with_reducible first
      | assumption | apply State.modTenant_in C | apply notify_in C
      | apply in_foldl | apply in_ite)
    | exact rfl
    | split

theorem releaseNotices_in {P : State → Prop} (C : WorkClosed P) (s : State) (hs : P s) : P (releaseNotices s) := by
  unfold releaseNotices
  try dsimp only
  repeat' first
    | (intro _)
    | (with_reducible first
      | assumption | apply applyDrop_in C | apply park_in C | apply C.toChainClosed.sys | apply C.tgt
      | apply in_foldl | apply in_ite)
    | exact rfl
    | split

theorem memberLevels_in {P : State → Prop} (C : ChainClosed P) (s : State) (hs : P s) : P (memberLevels s) := by
  unfold memberLevels
  try dsimp only
  repeat' first
    | (intro _)
    | (with_reducible first
      | assumption | apply alignLevel_in C | apply setLevel_in C
      | apply in_foldl | apply in_ite)
    | exact rfl
    | split

theorem tickBack_in {P : State → Prop} (C : WorkClosed P) (asked : TgtUnit) (s : State) (inp : TickIn) (hs : P s) : P (tickBack asked s inp) := by
  unfold tickBack
  try dsimp only
  repeat' first
    | (intro _)
    | (with_reducible first
      | assumption | apply sendTicks_in C | apply tickRing_in C.toChainClosed | apply memberLevels_in C.toChainClosed | apply tickLockLost_in C.toChainClosed | apply tickPolish_in C | apply beadRound_in C | apply scanSys_in C | apply scanMsg_in C | apply wakeShortlists_in C.toChainClosed | apply decisionPass_in C | apply takeResyncSets_in C | apply tickRefills_in C | apply spareFault_in C | apply C.tgt
      | apply in_foldl | apply in_ite)
    | exact rfl
    | split

end Sys2Proof.Machine
end

