-- ==== Sys2Proof/Tests/Slice0.lean ====
section
/-! SUPPORT. Tests: ill-formed commands that WellFormed refuses, examples of the spec, and for each statement with hypotheses states and operands that meet them together. -/
namespace Sys2Proof.Tests
open Sys2Proof Sys2Proof.Machine

/-! ## WellFormed refuses an ill-formed command of each kind -/

theorem test_wf_port : (Instr.portContained 80).wf = false ∧ (Instr.portContained 79).wf = true := by decide
theorem test_wf_mailbox : (Instr.getInfo 65).wf = false ∧ (Instr.getInfo 64).wf = true := by decide
theorem test_wf_domain : (Instr.regRdy 0).wf = false ∧ (Instr.regRdy 12).wf = false ∧ (Instr.regRdy 11).wf = true := by decide
theorem test_wf_upset : (Instr.ctrlScrub [⟨⟨.ctrl, 0, 16384⟩, 1⟩]).wf = false ∧
    (Instr.ctrlScrub [⟨⟨.ctrl, 0, 16383⟩, 1⟩]).wf = true := by decide
theorem test_wf_frame_upset : (Instr.frameTick ⟨false, 0, false, 0, [⟨⟨.state, 32, 0⟩, 1⟩]⟩).wf = false := by decide
theorem test_wf_retention_line : (Instr.memRdy 2 ⟨[⟨⟨.config, 0, 8210⟩, 1⟩]⟩).wf = false ∧
    (Instr.memRdy 2 ⟨[⟨⟨.config, 0, 8209⟩, 1⟩]⟩).wf = true := by decide
theorem test_wf_bus_path : (Instr.internalBusParityError (.engine 5) true).wf = false ∧
    (Instr.internalBusParityError (.engine 4) true).wf = true := by decide
theorem test_wf_bus_bank : (Instr.internalBusParityError (.tableBank ⟨.target, 0, 0⟩) false).wf = false := by decide
theorem test_wf_unit : (Instr.mpuSync .manager 3).wf = false ∧ (Instr.mpuSync .manager 2).wf = true := by decide
theorem test_wf_lane : (Instr.laneLockLoss .east 3).wf = false ∧ (Instr.laneLockLoss .east 2).wf = true := by decide
theorem test_wf_checks : (Instr.pam4Check .east [[]]).wf = false ∧ (Instr.pam4Check .east [[], [], []]).wf = true := by decide
theorem test_wf_row : (Instr.rowRetire 48 0).wf = false ∧ (Instr.rowRetire 47 0).wf = true := by decide
theorem test_wf_access : (Instr.registerRead .manager 0 9 true).wf = false ∧
    (Instr.registerRead .manager 0 8 true).wf = true := by decide
theorem test_wf_block_write : (Instr.smbusBlockWrite 0 [0, 0, 0, 0, 0, 0, 0, 0] true).wf = false := by decide
theorem test_wf_core_access : (Instr.firmwareRestart (some ⟨0, 3, 0⟩)).wf = false ∧
    (Instr.firmwareRestart (some ⟨1, 32, 16⟩)).wf = false ∧ (Instr.agentRestart 5 (some ⟨2, 4, 2⟩)).wf = false ∧
    (Instr.agentRestart 5 (some ⟨0, 8, 5⟩)).wf = true := by decide

/-- What a plain start meets: no repair, no peer on the Chain. -/
def plainEnv : StartEnv where
  straps := [0, 0, 0, 0, 0]
  managerPort := 0
  upstream := 6
  linkUp := 7
  present := 7
  contained := 0
  fuseSpares := []
  calibration := 131072
  flashBadA := false
  flashBadB := false
  step2 := .pass
  bistRows := []
  bistCore := false
  bistCtrl := false
  step4 := .pass
  verifyTbl := 0
  verifyTgt := 0
  verifyCore := false
  east := .noPeer
  west := .noPeer
  step9 := .pass
  step10 := .pass
  tick := ⟨false, 0, false, 0, []⟩
  lktCount := 0
  durationUs := 0
  flashCopyOk := true

theorem test_wf_start : (Instr.resetRelease plainEnv).wf = true ∧
    (Instr.resetRelease { plainEnv with straps := [0] }).wf = false ∧
    (Instr.resetRelease { plainEnv with managerPort := 80 }).wf = false ∧
    (Instr.resetRelease { plainEnv with fuseSpares := [(48, 0, 0)] }).wf = false ∧
    (Instr.resetRelease { plainEnv with bistRows := [(48, 0)] }).wf = false := by decide

/-! ## Examples of the spec -/

/-- R251: the byte 0x4B from p = 1: g is 2, 3, 0, 1 and the values p are 1, 2, 2, 3, here from bit 0. -/
theorem test_precode : [3, 2, 0, 1].map pairValue = [2, 3, 0, 1] ∧ (precodeBlock 1 0x4B).1.setWidth 8 = (0xE9 : Byte) ∧
    (decodeBlock 1 0xE9).1.setWidth 8 = (0x4B : Byte) := by decide +kernel

/-! ## Conditions of the statements, as they can be decided -/

theorem coherent {s : State} (h : (Sparse.wf {} s.sys.latch && Sparse.wf false s.sys.levels && Sparse.wf false s.sys.held &&
    Sparse.wf false s.sys.linkFell && Sparse.wf 0 s.vec.cfg && Sparse.wf 0 s.vec.st && Sparse.wf 0 s.vec.sysCfg &&
    Sparse.wf 0 s.vec.sysSt && Sparse.wf false s.vec.lost && Sparse.wf false s.vec.reloaded && Sparse.wf {} s.tgt.recs &&
    Sparse.wf false s.tgt.busy && Sparse.wf false s.tgt.busyClear && Sparse.wf false s.tgt.heldOff && Sparse.wf {} s.ten.recs &&
    Sparse.wf none s.ten.blocks && Sparse.wf {} s.ten.clasp && Sparse.wf {} s.mbx.boxes && Sparse.wf none s.acu.ram &&
    Sparse.wf {} s.chain.pairs && Sparse.wf {} s.pwr.domains && Sparse.wf 0 s.ras.cursors && Sparse.wf [] s.ras.records &&
    Sparse.wf [] s.loupe.ring && Sparse.wf 0 s.loupe.sums && Sparse.wf 0 s.loupe.now && Sparse.wf 0 s.loupe.bins &&
    s.mbx.boxes.all (fun p => !p.2.taken || p.2.ring) && decide (s.pwr.capture.length ≤ 1024) &&
    decide (s.pwr.watch.length ≤ 256) && decide (s.loupe.divider.toNat ≤ 256) && decide (s.loupe.dividerNext.toNat ≤ 256) &&
    decide (s.hm.records.length ≤ 8)) = true) : Coherent s := by
  simp only [Bool.and_eq_true, decide_eq_true_eq, List.all_eq_true, Bool.or_eq_true, Bool.not_eq_true'] at h
  obtain ⟨⟨⟨⟨⟨⟨h, rung⟩, f⟩, w⟩, d⟩, dn⟩, r⟩ := h
  obtain ⟨⟨⟨⟨h, l1⟩, l2⟩, l3⟩, l4⟩ := h
  obtain ⟨⟨⟨⟨⟨⟨h, mb⟩, ac⟩, ch⟩, pw⟩, r1⟩, r2⟩ := h
  obtain ⟨⟨⟨h, n1⟩, n2⟩, n3⟩ := h
  obtain ⟨⟨⟨⟨h, t1⟩, t2⟩, t3⟩, t4⟩ := h
  obtain ⟨⟨⟨⟨⟨⟨h, v1⟩, v2⟩, v3⟩, v4⟩, v5⟩, v6⟩ := h
  obtain ⟨⟨⟨s1, s2⟩, s3⟩, s4⟩ := h
  exact ⟨⟨s1, s2, s3, s4⟩, ⟨v1, v2, v3, v4, v5, v6⟩, ⟨t1, t2, t3, t4⟩, ⟨n1, n2, n3⟩, ⟨mb⟩, ⟨ac⟩, ⟨ch⟩, ⟨pw⟩, ⟨r1, r2⟩,
    ⟨l1, l2, l3, l4⟩, fun p hp ht => (rung p hp).resolve_left (by rw [ht]; decide), f, w, d, dn, r⟩

theorem serves {s : State} {a : RegAccess} (h : s.presented a.path = true ∧ s.hm.inReset = none ∧ s.closedTo a = false ∧
    s.ready a = true) : s.Serves a := ⟨h.1, h.2.1, h.2.2.1, h.2.2.2⟩

theorem holds {s : State} {m : BitVec 7} {op : Byte} {c : Snap} (h : (s.box m).snap = some c ∧ (s.box m).work = .run ∧
    c.opcode = op ∧ s.engineReady = true) : s.Holds m op c := ⟨h.1, h.2.1, h.2.2.1, h.2.2.2⟩

theorem clean {s : State} (h : s.ras.errs = [] ∧ s.ras.uncounted = [] ∧ s.ras.arm = false) : s.Clean := ⟨h.1, h.2.1, h.2.2⟩

theorem runs {s : State} (h : s.hm.inReset = none ∧ s.hm.powerOff = false ∧ s.frame.running = true) : s.Runs := ⟨h.1, h.2.1, h.2.2⟩

theorem settled {s : State} (h : s.pwr.waiting = [] ∧ s.tgt.heldNotices = [] ∧ (∀ p ∈ s.mbx.boxes, p.2.load = none) ∧
    s.acu.tap.busy = false) : s.Settled := ⟨h.1, h.2.1, h.2.2.1, h.2.2.2⟩

theorem servesHead {s : State} {e : QEntry} {rest : List QEntry} (h : s.coreOn = true ∧ s.frame.running = true ∧
    s.laneOpen .intake = true ∧ s.banksOpen (msgSrc e.vector.toNat) 2 = true ∧ (∀ q, q < 4 → s.quarterAway q = false) ∧
    (s.tenant s.intake.turn).queue = e :: rest ∧ (s.tenant s.intake.turn).deficit ≠ 0 ∧ e.pool = .crossbar ∧
    s.pwr.waiting = []) : s.ServesHead e rest := ⟨h.1, h.2.1, h.2.2.1, h.2.2.2.1, h.2.2.2.2.1, h.2.2.2.2.2.1, h.2.2.2.2.2.2.1,
      h.2.2.2.2.2.2.2.1, h.2.2.2.2.2.2.2.2⟩

theorem servesCompletion {s : State} {e : CplEntry} {rest : List CplEntry} (h : s.coreOn = true ∧ s.laneOpen .completion = true ∧
    s.banksOpen e.src 1 = true ∧ s.pwr.waiting = [] ∧ s.tgt.cplQueue = e :: rest ∧ s.cplMoves e = false ∧
    s.resetting e.tenant = false ∧ (s.slotOwner e.slot).map (·.1) = some e.tenant) : s.ServesCompletion e rest :=
  ⟨h.1, h.2.1, h.2.2.1, h.2.2.2.1, h.2.2.2.2.1, h.2.2.2.2.2.1, h.2.2.2.2.2.2.1, h.2.2.2.2.2.2.2⟩

theorem drained {s : State} (h : s.pwr.capture = [] ∧ s.pwr.waiting = []) : s.Drained := ⟨h.1, h.2⟩

/-! ## A small state: the frames run, tenant 5 is bound at port 1 with vectors 0 to 15 and targets 192 to 255 -/

def t5 : TenantRec :=
  { bound := true, port := 1, windowUp := true, range := some ⟨0, 4⟩, rangeMap := some ⟨0, 4⟩, deficit := 1 }

def base : State where
  frame := { running := true }
  intake := { windowEn := true, openBase := some 0, turn := 5 }
  ten := { recs := [(5, t5)], blocks := [(3, some (5, 0))], upstream := 6 }
  mbx := { fw := { ran := true, alive := true } }
  hm := { ready := true, step := 0xF, inReset := none }

/-- `base` with tenant 5 as given. -/
def withT5 (r : TenantRec) : State := { base with ten := { base.ten with recs := [(5, r)] } }

/-! ## The message intake -/

def edge5 : IntakeReq := ⟨12, 0x0105, 5, 1, 0xF, 0, false, true, false⟩

theorem meets_StepRunsFrontCommand : ({ base with pending := [.intakeDrain] } : State).pending = .intakeDrain :: [] ∧
    base.pending = [] := by decide
theorem meets_ExecLeavesQueue : Coherent base ∧ ∃ t, exec .markerTimeout base = .next t := ⟨coherent (by decide), _, rfl⟩
theorem meets_StepKeepsCoherent : Coherent base ∧ ∃ t, step base = .next t := ⟨coherent (by decide), _, rfl⟩

theorem meets_IntakeWriteQueuesEdge : Coherent base ∧ (base.hm.inReset = none ∧ base.hm.powerOff = false ∧ base.hm.safeMin = false ∧
    edge5.posted = true ∧ edge5.lengthDw = 1 ∧ edge5.firstBe = 0xF ∧ edge5.lastBe = 0 ∧ edge5.poisoned = false ∧
    edge5.parityErr = false ∧ base.windowVector edge5.addr = some 3 ∧ base.mapOwner 3 = some 5 ∧ base.resetting 5 = false ∧
    base.captures (some (quarterOf 3)) = false ∧ edge5.owner = (5 : Tenant).setWidth 7 ∧ base.hasCredit 5 = true ∧
    (base.tenant 5).credits ≠ 1) := ⟨coherent (by decide), by decide⟩
theorem meets_IntakeWriteQueuesEdge_last : Coherent (withT5 { t5 with credits := 1 }) ∧
    (withT5 { t5 with credits := 1 }).windowVector 0x3C = some 15 ∧ (withT5 { t5 with credits := 1 }).mapOwner 15 = some 5 ∧
    (withT5 { t5 with credits := 1 }).hasCredit 5 = true := ⟨coherent (by decide), by decide⟩

def queued (k : QKind) : State := withT5 { t5 with queue := [⟨k, 3, 0x0105, .crossbar⟩], credits := 439 }

theorem meets_IntakeDrainAppliesEdge : Coherent (queued (.edge 5)) ∧ (queued (.edge 5)).Clean ∧
    (queued (.edge 5)).ServesHead ⟨.edge 5, 3, 0x0105, .crossbar⟩ [] ∧ (queued (.edge 5)).mapOwner 3 = some 5 ∧
    cFwd ((queued (.edge 5)).cfgOf (msgSrc 3)) = false ∧ cReqCheck ((queued (.edge 5)).cfgOf (msgSrc 3)) = false :=
  ⟨coherent (by decide), clean (by decide), servesHead (by decide), by decide⟩

/-- Vector 3 checks that its requester is 0x0205, and has target 192. -/
def checked : State := { queued (.edge 5) with vec := { cfg := [(3, 0x04000000020500C0)] } }

theorem meets_IntakeDrainOutcomes : Coherent checked ∧ checked.Clean ∧
    checked.ServesHead ⟨.edge 5, 3, 0x0105, .crossbar⟩ [] ∧ checked.mapOwner 3 = some 5 ∧
    cReqCheck (checked.cfgOf (msgSrc 3)) = true ∧ cReqId (checked.cfgOf (msgSrc 3)) ≠ 0x0105 ∧
    cFwd (checked.cfgOf (msgSrc 3)) = false := ⟨coherent (by decide), clean (by decide), servesHead (by decide), by decide⟩
theorem meets_IntakeDrainOutcomes_op : ∀ op : SrcOp,
    let s := { queued (.op op false) with vec := { cfg := [(3, 0x00000000000000C0)] } }
    Coherent s ∧ s.Clean ∧ s.ServesHead ⟨.op op false, 3, 0x0105, .crossbar⟩ [] ∧ s.rangeOwner 3 = some 5 ∧
    cFwd (s.cfgOf (msgSrc 3)) = false ∧ cLocked (s.cfgOf (msgSrc 3)) = false ∧
    (s.slotOwner (cTarget (s.cfgOf (msgSrc 3)))).map (·.1) = some 5 := by
  intro op
  cases op <;> exact ⟨coherent (by decide), clean (by decide), servesHead (by decide), by decide⟩

/-- Vector 16 has no tenant: a posted write, a non-posted one, and one of two DWs. -/
theorem meets_IntakeWriteDisposed : CanonicalSys base.sys ∧ base.hm.inReset = none ∧ base.hm.powerOff = false ∧
    edge5.parityErr = false ∧ base.windowVector 0x40 = some 16 ∧ base.mapOwner 16 = none ∧
    base.captures (some (quarterOf 16)) = false := ⟨(coherent (s := base) (by decide)).sysCanonical, by decide⟩
theorem meets_IntakeWriteDisposed_owner : Coherent base ∧ base.intake.ownerCheck = true ∧
    (6 : BitVec 7) ≠ (5 : Tenant).setWidth 7 ∧ (6 : BitVec 7) ≠ 64 ∧ base.windowVector edge5.addr = some 3 ∧
    base.mapOwner 3 = some 5 ∧ base.hasCredit 5 = true ∧ (base.tenant 5).credits.toNat ≤ 440 ∧ (base.tenant 5).faultValid = false :=
  ⟨coherent (by decide), by decide⟩

/-- Each operation on vector 3 by tenant 5, on system source 0x26D by the FM, and on a reserved and a private source. -/
theorem meets_SourceOperationsTaken : ∀ op : SrcOp,
    base.Serves (wordWrite (.tenant 5) (sourceOffset op) (msgSrc 3 |>.setWidth 32)) ∧
    base.Serves (wordWrite .manager (sourceOffset op) (sysSrc 0x26D |>.setWidth 32)) ∧
    base.Serves (wordWrite (.tenant 5) (sourceOffset op) 0x00FF0000) := by
  intro op
  cases op <;> exact ⟨serves (by decide), serves (by decide), serves (by decide)⟩
theorem meets_SourceOperationsTaken_class : srcClass (msgSrc 3) = .message 3 ∧ srcClass (sysSrc 0x26D) = .system 0x26D ∧
    srcClass 0x00FF0000 = .reserved ∧ base.captures (some (quarterOf 3)) = false ∧ base.captures none = false ∧
    base.hasCredit 5 = true ∧ (base.tenant 5).src.valid = false ∧
    ({ base with vec := { sysCfg := [(0x26D, 0xC0)] } } : State).slotOwner
      (cTarget (({ base with vec := { sysCfg := [(0x26D, 0xC0)] } } : State).cfgOf (sysSrc 0x26D))) ≠ none := by decide

/-- Each operation bit of the latch of system source 0x26D. -/
theorem meets_SystemLaneAppliesLatch : ∀ l ∈ [({ arrival := true } : SysLatch), { clrPend := true }, { setEn := true },
      { clrEn := true }, { clrSticky := true }],
    let s := { base with sys := { latch := [(0x26D, l)] } }
    Coherent s ∧ s.Clean ∧ s.coreOn = true ∧ s.frame.running = true ∧ s.laneOpen .system = true ∧ s.nextLatched = some 0x26D ∧
    sysDefined 0x26D = true := by
  intro l h
  simp only [List.mem_cons, List.not_mem_nil, or_false] at h
  rcases h with h | h | h | h | h <;> subst h <;> exact ⟨coherent (by decide), clean (by decide), by decide +kernel⟩

/-- The link of port 1, of tenant 5, falls with a delivery of target 192 outstanding. -/
def linkUp : State := { base with
  bnd := { linkUp := 2 }
  sys := { levels := [(1, true)] }
  tgt := { recs := [(192, { active := some (msgSrc 3) })], busy := [(192, true)] } }
theorem meets_PortEvents : Coherent linkUp ∧ linkUp.detecting = true ∧ linkUp.coreUp = true ∧ linkUp.isOn dCORE = true ∧
    linkUp.level 1 ≠ false ∧ linkUp.bnd.linkUp.getLsbD 1 = true ∧ linkUp.portTenant 1 = some 5 ∧ 192 ∈ linkUp.slotsOf 5 ∧
    (linkUp.target 192).active ≠ none ∧ linkUp.level 0x181 ≠ true ∧ linkUp.level 0x201 = false :=
  ⟨coherent (by decide), by decide +kernel⟩

/-- Chip 0 in a ring with chip 1 through East. -/
def ring : State := { base with
  bead := { strap := 0x10 }
  chain := { members := 3, eastDist := 0x10, eastPhy := { state := .up, peerChip := 1 }
             pairs := [(1, { live := true })] } }
theorem meets_ChainLines : CanonicalChain ring.chain ∧ ring.Serves (wordWrite .manager 0x3028 0x102) ∧
    (field (0x102 : W32) 8 4 : Chip) ≠ ring.chipId ∧ ring.isLive (field (0x102 : W32) 8 4) = true ∧ ring.chainMode ≠ 0 ∧
    ring.lineOut 1 2 = false ∧ ring.windowOpen 1 = true ∧ ring.route 1 = some .east :=
  ⟨(coherent (s := ring) (by decide)).chainCanonical, serves (by decide), by decide⟩
theorem meets_ChainLines_refused : ring.Serves (wordWrite .manager 0x3028 0x202) ∧ ring.isLive 2 = false ∧
    ring.chipId = field (0x002 : W32) 8 4 ∧ base.chainMode = 0 := ⟨serves (by decide), by decide⟩

/-- CORE in RET with its target domain. -/
def asleep : State := { base with pwr := { domains := [(dCORE, { state := .ret })], stopped := true } }
theorem meets_CaptureFifo : Coherent asleep ∧ asleep.hm.inReset = none ∧ asleep.hm.powerOff = false ∧ edge5.parityErr = false ∧
    asleep.windowVector edge5.addr = some 3 ∧ asleep.captures (some (quarterOf 3)) = true ∧
    asleep.pwr.capture.length < 1024 ∧ asleep.mapOwner 3 = some 5 ∧ asleep.hasCredit 5 = true := ⟨coherent (by decide), by decide⟩

def captured : State := { base with pwr := { capture := [⟨0, capWrite 5 0x0105 3 0⟩], captureAll := true, capturePos := 1 } }
theorem meets_CaptureFifo_drain : Coherent captured ∧ captured.Clean ∧ captured.Settled ∧ captured.coreUp = true ∧
    captured.frame.running = true ∧ captured.hm.safeMin = false ∧ (∀ q, q < 4 → captured.quarterAway q = false) ∧
    capKind (capWrite 5 0x0105 3 0) = 0 ∧ (field (capWrite 5 0x0105 3 0) 18 20 : BitVec 20) = 3 ∧
    (field (capWrite 5 0x0105 3 0) 14 4 : BitVec 4) = 0 ∧ captured.mapOwner 3 = some 5 ∧ captured.resetting 5 = false ∧
    (field (capWrite 5 0x0105 3 0) 54 7 : BitVec 7) = (5 : Tenant).setWidth 7 ∧ (captured.tenant 5).credits ≠ 0 ∧
    (captured.tenant 5).credits ≠ 1 := ⟨coherent (by decide), clean (by decide), settled (by decide), by decide +kernel⟩

/-! ## Completions, private sources, decisions -/

/-- Target 192 holds source 3, delivered with sequence 7. -/
def active3 : TargetRec := { daddr := 0x1000, seq := 7, active := some (msgSrc 3) }
def delivered (q : List CplEntry) : State := { base with
  vec := { cfg := [(3, 0x40000000000000C0)], st := [(3, 0x80000000)] }
  tgt := { recs := [(192, active3)], busy := [(192, true)], cplQueue := q } }
/-- The 4-byte form by each path, the sequenced form by the tenant, and a write without some byte enables. -/
theorem meets_CompletionQueued : ∀ p ∈ [(Path.tenant 5, (63 : BitVec 10)), (.manager, 255), (.smbus, 255)], base.captures none = false ∧
    base.pageSlot p.1 p.2 = some (5, 255) ∧ base.tgt.cplQueue.length < 2048 ∧
    base.Serves ⟨p.1, BitVec.ofNat 22 (pageOffset p.2 0), 4, true, true, 3, 0⟩ ∧
    base.Serves ⟨p.1, BitVec.ofNat 22 (pageOffset p.2 0x80), 4, true, true, 3, 0⟩ := by
  intro p h
  simp only [List.mem_cons, List.not_mem_nil, or_false] at h
  rcases h with h | h | h <;> subst h <;> exact ⟨by decide, by decide, by decide, serves (by decide), serves (by decide)⟩
theorem meets_CompletionQueued_forms : let a : RegAccess := ⟨.tenant 5, BitVec.ofNat 22 (pageOffset 63 0), 4, false, true, 3, 0⟩
    base.Serves ⟨.tenant 5, BitVec.ofNat 22 (pageOffset 63 0x80), 8, true, true, 3, 0⟩ ∧ base.Serves a ∧
    (recordAccess base a).Serves a := ⟨serves (by decide), serves (by decide), serves (by decide)⟩

theorem meets_CompletionFreesTarget : ∀ seq ∈ [none, some (7 : BitVec 16)],
    let e : CplEntry := ⟨5, 192, msgSrc 3, seq, false⟩
    Coherent (delivered [e]) ∧ (delivered [e]).Clean ∧ (delivered [e]).ServesCompletion e [] ∧
    ((delivered [e]).target 192).active = some e.src ∧ ∀ q, e.seq = some q → q = ((delivered [e]).target 192).seq := by
  intro seq h
  simp only [List.mem_cons, List.not_mem_nil, or_false] at h
  rcases h with h | h <;> subst h
  · exact ⟨coherent (by decide), clean (by decide), servesCompletion (by decide), by decide, fun _ k => by cases k⟩
  · exact ⟨coherent (by decide), clean (by decide), servesCompletion (by decide), by decide, fun _ k => by cases k; decide⟩
/-- A completion of another source, a stale one, and one of a bad form. -/
theorem meets_CompletionStrayOrStale : ∀ e ∈ [(⟨5, 192, msgSrc 4, none, false⟩ : CplEntry), ⟨5, 192, msgSrc 3, some 6, false⟩,
      ⟨5, 192, msgSrc 3, none, true⟩],
    Coherent (delivered [e]) ∧ (delivered [e]).Clean ∧ (delivered [e]).isOn dCORE = true ∧ (delivered [e]).ServesCompletion e [] ∧
    (e.badForm = false ∧ ((delivered [e]).target e.slot).active = some e.src →
      ∃ q, e.seq = some q ∧ q ≠ ((delivered [e]).target e.slot).seq) := by
  intro e h
  simp only [List.mem_cons, List.not_mem_nil, or_false] at h
  rcases h with h | h | h <;> subst h
  · exact ⟨coherent (by decide), clean (by decide), by decide, servesCompletion (by decide), fun k => absurd k (by decide)⟩
  · exact ⟨coherent (by decide), clean (by decide), by decide, servesCompletion (by decide), fun _ => ⟨6, by decide⟩⟩
  · exact ⟨coherent (by decide), clean (by decide), by decide, servesCompletion (by decide), fun k => absurd k (by decide)⟩

theorem meets_DropNoticeParks : Coherent (delivered []) ∧ (delivered []).coreUp = true ∧ (delivered []).hm.powerOff = false ∧
    ((delivered []).target 192).active ≠ none ∧ ((delivered []).target 192).seq = 7 ∧
    (delivered []).slotOwner 192 = some (5, 0) ∧ 192 ∈ (delivered []).slotsOf 5 ∧ (delivered []).tgt.dropValid = false ∧
    ((delivered []).target 193).active = none := ⟨coherent (by decide), by decide +kernel⟩

theorem meets_PrivateSources : base.captures none = false ∧ base.pageSlot (.tenant 5) 63 = some (5, 255) ∧
    base.resetting 5 = false ∧ base.tgt.privLane.length < 256 := by decide
theorem meets_PrivateSources_write : ∀ reg ∈ [0x008, 0x00C, 0x010],
    base.Serves (wordWrite (.tenant 5) (pageOffset 63 reg) 0x1FF) := by
  intro reg h
  simp only [List.mem_cons, List.not_mem_nil, or_false] at h
  rcases h with h | h | h <;> subst h <;> exact serves (by decide)
theorem meets_PrivateSources_lane : ∀ op : PrivOp,
    let s := { base with tgt := { privLane := [⟨op, 192, 0x1F⟩] } }
    CanonicalTgt s.tgt ∧ s.Clean ∧ s.coreOn = true ∧ s.laneOpen .priv = true ∧ s.pwr.waiting = [] :=
  fun op => by cases op <;> exact ⟨⟨rfl, rfl, rfl, rfl⟩, clean (by decide), by decide⟩

theorem meets_TargetTimersAndMask : CanonicalTgt base.tgt ∧ base.Clean ∧ base.pageSlot (.tenant 5) 63 = some (5, 255) ∧
    base.resetting 5 = false ∧ base.Serves (wordWrite (.tenant 5) (pageOffset 63 0x018) 1) ∧
      base.Serves (wordWrite (.tenant 5) (pageOffset 63 0x0A0) 0x1000005) :=
  ⟨⟨rfl, rfl, rfl, rfl⟩, clean (by decide), by decide, by decide, serves (by decide), serves (by decide)⟩
/-- A timer about to fire, with P:8 free, pending, and active. -/
theorem meets_TargetTimersAndMask_timer : ∀ r ∈ [({ timer := 1 } : TargetRec), { timer := 1, privPend := 0x100, periodic := true, reload := 5 },
      { timer := 1, active := some (privSrc 8) }],
    let s := { base with tgt := { recs := [(192, r)] } }
    CanonicalTgt s.tgt ∧ s.coreOn = true ∧ s.frame.running = true ∧ (s.target 192).timer = 1 ∧
    (s.target 192).timerDone = false := by
  intro r h
  simp only [List.mem_cons, List.not_mem_nil, or_false] at h
  rcases h with h | h | h <;> subst h <;> exact ⟨⟨by decide, rfl, rfl, rfl⟩, by decide⟩

/-- Engine 0 is to deliver `src` to target 192. -/
def emitting (src : Src) (r : TargetRec) (re : Option Tenant) : State := { base with
  vec := { cfg := [(3, 0x40000000000000C0)], st := [(3, 0x80000000)] }
  tgt := { recs := [(192, r)], busy := [(192, true)], emitted := [⟨0, 192, src, re⟩] }
  ten := { base.ten with recs := [(5, { t5 with
    resync := re.map fun _ => ⟨5, some [], [192, 193], 0, 0, 0⟩ })] } }
theorem meets_DecisionCommitDelivers : Coherent (emitting (msgSrc 3) { daddr := 0x1000 } none) ∧
    (emitting (msgSrc 3) { daddr := 0x1000 } none).Clean ∧ (emitting (msgSrc 3) { daddr := 0x1000 } none).coreOn = true ∧
    (emitting (msgSrc 3) { daddr := 0x1000 } none).engineHead 0 = some ⟨0, 192, msgSrc 3, none⟩ ∧
    (emitting (msgSrc 3) { daddr := 0x1000 } none).banksOpen (msgSrc 3) 1 = true ∧
    (emitting (msgSrc 3) { daddr := 0x1000 } none).slotOwner 192 = some (5, 0) ∧ srcClass (msgSrc 3) = .message 3 ∧
    sPending ((emitting (msgSrc 3) { daddr := 0x1000 } none).stOf (msgSrc 3)) = true ∧
    cEnable ((emitting (msgSrc 3) { daddr := 0x1000 } none).cfgOf (msgSrc 3)) = true ∧
    cFwd ((emitting (msgSrc 3) { daddr := 0x1000 } none).cfgOf (msgSrc 3)) = false ∧
    cTarget ((emitting (msgSrc 3) { daddr := 0x1000 } none).cfgOf (msgSrc 3)) = 192 :=
  ⟨coherent (by decide), clean (by decide), by decide⟩
theorem meets_DecisionCommitDelivers_priv : let r : TargetRec := { daddr := 0x1000, privPend := 1, privEn := 1 }
    Coherent (emitting (privSrc 0) r none) ∧ (emitting (privSrc 0) r none).Clean ∧
    (emitting (privSrc 0) r none).engineHead 0 = some ⟨0, 192, privSrc 0, none⟩ ∧ srcClass (privSrc 0) = .priv 0 ∧
    (emitting (privSrc 0) r none).banksOpen (privSrc 0) 1 = true := ⟨coherent (by decide), clean (by decide), by decide⟩
/-- Source 3 pending and enabled with target 192, which has no delivery address; and source 4, which is not pending. -/
theorem meets_DecisionsNotDelivered : ∀ x ∈ [msgSrc 3, msgSrc 4], Coherent (emitting x { mask := true } none) ∧ (emitting x { mask := true } none).Clean ∧
    (emitting x { mask := true } none).isOn dCORE = true ∧ (emitting x { mask := true } none).coreOn = true ∧
    (emitting x { mask := true } none).engineHead 0 = some ⟨0, 192, x, none⟩ ∧ (emitting x { mask := true } none).banksOpen x 1 = true ∧
    ((emitting x { mask := true } none).target 192).daddr = 0 := by
  intro x h
  simp only [List.mem_cons, List.not_mem_nil, or_false] at h
  rcases h with h | h <;> subst h <;> exact ⟨coherent (by decide), clean (by decide), by decide⟩
theorem meets_DecisionsNotDelivered_words : HasWords (msgSrc 3) ∧ HasWords (msgSrc 4) := ⟨.inl ⟨3, by decide⟩, .inl ⟨4, by decide⟩⟩
theorem meets_ReissueCommits : ∀ r ∈ [{ active3 with parked := true }, active3, ({ mask := true } : TargetRec)],
    Coherent (emitting (msgSrc 3) r (some 5)) ∧ (emitting (msgSrc 3) r (some 5)).Clean ∧
    (emitting (msgSrc 3) r (some 5)).coreOn = true ∧
    (emitting (msgSrc 3) r (some 5)).engineHead 0 = some ⟨0, 192, msgSrc 3, some 5⟩ ∧
    ((emitting (msgSrc 3) r (some 5)).tenant 5).resync = some ⟨5, some [], [192, 193], 0, 0, 0⟩ := by
  intro r h
  simp only [List.mem_cons, List.not_mem_nil, or_false] at h
  rcases h with h | h | h <;> subst h <;> exact ⟨coherent (by decide), clean (by decide), by decide⟩

/-! ## The period, hold-offs, refill passes -/

/-- Legal periods at both ends of the range, the one in force, and three that are not legal. -/
theorem meets_PeriodRequestAccepted : base.Serves (wordWrite .manager 0x2000 0x1900) ∧ base.alone = true ∧
    base.works dCORE = true ∧ base.frame.changePending = false ∧ (field (0x100 : W32) 0 13 : BitVec 13) ≠ base.frame.current ∧
    (field (0x320 : W32) 0 13 : BitVec 13) = base.frame.current ∧ 6400 % 32 = 0 ∧ ¬ 801 % 32 = 0 :=
  ⟨serves (by decide), by decide⟩
theorem meets_PeriodRequestAccepted_other : asleep.works dCORE = false ∧ asleep.Serves (wordWrite .manager 0x2000 0x100) ∧
    ({ ring with frame := { ring.frame with isMaster := false } } : State).alone = false ∧
    ({ base with frame := { base.frame with changePending := true } } : State).Serves (wordWrite .smbus 0x2000 0x1900) :=
  ⟨by decide, serves (by decide), by decide, serves (by decide)⟩
/-- A change due at the coming tick, a hold-off that has run out, mastership that times out or is handed over. -/
theorem meets_TickPartsDoneEarly : let s := { base with
      frame := { base.frame with changePending := true, ticksLeft := 1, request := 0x100 }, tgt := { heldOff := [(7, true)] } }
    CanonicalTgt s.tgt ∧ s.coreOn = true ∧ s.frame.running = true ∧ s.stopping = false ∧ s.pwr.firstTick = none ∧
    (s.clasp 7).remaining = 0 := ⟨⟨rfl, rfl, rfl, by decide⟩, by decide⟩
theorem meets_TickPartsDoneEarly_master : let s := { ring with frame := { ring.frame with
      isMaster := false, following := true, masterId := 1, tickLocked := true, lockedFrames := 256, masterGap := 64, markerGap := 64
      count := 255 } }
    CanonicalSys s.sys ∧ s.coreOn = true ∧ s.alone = false ∧ s.lowestMember = true ∧ s.chipId.toNat < s.frame.masterId.toNat ∧
    (s.frame.count.toNat + 1) % 256 = 0 := ⟨⟨rfl, rfl, rfl, rfl⟩, by decide⟩
theorem meets_TickPartsDoneEarly_passes : let s := { base with tgt := { msgQueue := [5], sysRequest := true } }
    let m := { base with tgt := { msgPass := some ⟨5, [], 16, false, true, false⟩ } }
    let y := { base with tgt := { sysPass := some ⟨[], 1024, false, true, false⟩ } }
    s.coreOn = true ∧ s.frame.running = true ∧ s.rangeOn 5 = true ∧ m.coreOn = true ∧ y.coreOn = true := by decide

/-! ## Mailboxes -/

def boxed (m : Nat) (b : Mailbox) : State := { base with mbx := { base.mbx with boxes := [(m, b)] } }
theorem meets_MailboxRingAndCancel : ∀ b ∈ [({ ring := true } : Mailbox), { ring := true, taken := true }],
    CanonicalMbx (boxed 5 b).mbx ∧ (boxed 5 b).isOn dCTRL = true ∧ (boxed 5 b).Serves (wordWrite (.tenant 5) 0x1200 1) ∧
    (boxed 5 b).Serves (wordWrite (.tenant 5) 0x1200 2) ∧ pathMailbox (.tenant 5) = 5 ∧ ((boxed 5 b).box 6).ring = false := by
  intro b h
  simp only [List.mem_cons, List.not_mem_nil, or_false] at h
  rcases h with h | h <;> subst h <;> exact ⟨⟨by decide⟩, by decide, serves (by decide), serves (by decide), by decide⟩
/-- A fresh ring with a good and a bad command, a repeated one, one during a restart, one in safe-minimum mode. -/
theorem meets_CommandTaken : ∀ b ∈ [({ ring := true, cmd := [(0, 1)] } : Mailbox), { ring := true, cmd := [(0, 0xFF)] },
      { ring := true, replyValid := true }, { ring := true, restarting := true }],
    CanonicalMbx (boxed 5 b).mbx ∧ (boxed 5 b).engineReady = true ∧ ((boxed 5 b).box 5).ring = true ∧
    ((boxed 5 b).box 5).taken = false ∧ ∀ n, mbTenant 5 = some n → (boxed 5 b).resetting n = false := by
  intro b h
  simp only [List.mem_cons, List.not_mem_nil, or_false] at h
  rcases h with h | h | h | h <;> subst h <;>
    exact ⟨⟨by decide⟩, by decide, by decide, by decide, fun n k => by rw [show n = 5 from (Option.some.inj k).symm]; decide⟩

/-- A mailbox whose command, of opcode `op` with the bytes `p`, is to run. -/
def cmd (op : Byte) (p : List (Nat × Byte)) : Snap := ⟨op, 24, p, 1⟩
def given (op : Byte) (p : List (Nat × Byte)) : Mailbox := { ring := true, taken := true, snap := some (cmd op p), work := .run }
def sent (m : Nat) (op : Byte) (p : List (Nat × Byte)) : State := boxed m (given op p)

theorem meets_ReplyDeposited : ∀ r ∈ [okReply [1, 2], refuse stNotOwner 8, refuse stDenied 8],
    let s := boxed 5 { given 1 [] with work := .done r }
    Coherent s ∧ (s.box 5).work = .done r ∧ (s.box 5).snap = some (cmd 1 []) ∧ (s.box 5).discard = false ∧
    (cmd 1 []).opcode ≠ 0x33 ∧ r.status ≠ stBusyRestart ∧ mbTenant 5 = some 5 := by
  intro r h
  simp only [List.mem_cons, List.not_mem_nil, or_false] at h
  rcases h with h | h | h <;> subst h <;> exact ⟨coherent (by decide), by decide⟩

/-! ## Commands that only read -/

theorem meets_ReadCommandsOnlyReply : CanonicalMbx (sent 5 1 []).mbx ∧ (sent 5 1 []).Holds 5 0x01 (cmd 1 []) ∧
    (sent 5 1 []).isOn dCORE = true ∧ (sent 5 0x30 [(8, 5)]).Holds 5 0x30 (cmd 0x30 [(8, 5)]) ∧
    (∃ n, checkTenant 5 (snapField (cmd 0x30 [(8, 5)]) 8 1) 8 = .ok n ∧ (sent 5 0x30 [(8, 5)]).resetting n = false) ∧
    (sent 5 0x32 [(8, 5)]).Holds 5 0x32 (cmd 0x32 [(8, 5)]) ∧ (sent 5 0x32 [(8, 5)]).coreUp = true ∧
    (sent 64 0x32 [(9, 1)]).Holds 64 0x32 (cmd 0x32 [(9, 1)]) ∧ snapField (cmd 0x32 [(9, 1)]) 9 1 = 1 :=
  ⟨⟨by decide⟩, holds (by decide), by decide, holds (by decide), ⟨5, by rfl, by decide⟩, holds (by decide), by decide,
    holds (by decide), by decide⟩
/-- TIME_READ, the last region of MPU-C, the repair status, and the oldest Hallmark record. -/
theorem meets_ReadCommandsOnlyReply_other : (sent 5 0x33 []).Holds 5 0x33 (cmd 0x33 []) ∧
    (sent 64 0x50 [(9, 15)]).Holds 64 0x50 (cmd 0x50 [(9, 15)]) ∧ snapField (cmd 0x50 [(9, 15)]) 9 1 < regionCount 0 ∧
    (sent 64 0x50 []).isOn (mpuDomain 0) = true ∧ (sent 64 0x60 []).Holds 64 0x60 (cmd 0x60 []) ∧
    (sent 64 0x60 []).isOn dCORE = true ∧ (sent 64 0x60 []).isOn dCHE = true ∧ (sent 64 0x60 []).isOn dCHW = true ∧
    (let s := { sent 64 0x61 [] with hm := { base.hm with records := [{}] } }
     s.Holds 64 0x61 (cmd 0x61 []) ∧ s.hm.records[snapField (cmd 0x61 []) 8 1]? = some {}) :=
  ⟨holds (by decide), holds (by decide), by decide, by decide, holds (by decide), by decide, by decide, by decide,
    holds (by decide), by decide⟩
/-- Vectors 14 and 15 of tenant 5. -/
theorem meets_VectorReadReplies : let c := cmd 0x15 [(8, 14), (10, 0x80), (12, 2)]
    let s := sent 5 0x15 c.payload
    CanonicalMbx s.mbx ∧ s.Clean ∧ s.Holds 5 0x15 c ∧ s.coreUp = true ∧ snapField c 0x0C 4 = 2 ∧
    s.allOn (runDomains (snapSrc c 8) 2) = true ∧
    ∀ x ∈ runSources (snapSrc c 8) 2, HasWords x ∧ isSystem x = isSystem (snapSrc c 8) ∧ s.holder x = some 5 ∧
      s.holderResets x = false ∧ lostSource s x = false := by
  refine ⟨⟨by decide⟩, clean (by decide), holds (by decide), by decide, by decide, by decide, ?_⟩
  rw [show runSources (snapSrc (cmd 0x15 [(8, 14), (10, 0x80), (12, 2)]) 8) 2 = [msgSrc 14, msgSrc 15] from by decide]
  intro x h
  simp only [List.mem_cons, List.not_mem_nil, or_false] at h
  rcases h with h | h <;> subst h
  · exact ⟨.inl ⟨14, by decide⟩, by decide⟩
  · exact ⟨.inl ⟨15, by decide⟩, by decide⟩

/-! ## Grants, configuration words, loads -/

/-- Global block 4 in the first free local block, and block 3 withdrawn without FORCE and with it. -/
theorem meets_TargetBlockGranted : let c := cmd 0x10 [(9, 5), (10, 4), (12, 0xFF)]
    let s := sent 64 0x10 c.payload
    Coherent s ∧ s.Clean ∧ s.Holds 64 0x10 c ∧ s.coreUp = true ∧ checkTenant 64 (snapField c 9 1) 9 = .ok 5 ∧
    s.slotFree (blockSlot 4) = true ∧ (s.tenant 5).bound = true ∧ s.resetting 5 = false ∧
    Sparse.get none s.ten.blocks 4 = none ∧ s.blockOut 4 = false ∧ s.freeLocal 5 0xFF = some 1 :=
  ⟨coherent (by decide), clean (by decide), holds (by decide), by decide, by rfl, by decide⟩
theorem meets_TargetBlockWithdrawn : ∀ force ∈ [(0 : Byte), 1], let c := cmd 0x10 [(8, 1), (9, 5), (10, 3), (13, force)]
    let s := sent 64 0x10 c.payload
    Coherent s ∧ s.Clean ∧ s.Holds 64 0x10 c ∧ s.coreUp = true ∧ checkTenant 64 (snapField c 9 1) 9 = .ok 5 ∧
    s.slotFree (blockSlot 3) = true ∧ Sparse.get none s.ten.blocks 3 = some (5, 0) ∧
    s.allOn (s.activeQuarters (blockSlots 3)) = true ∧ ∀ x ∈ blockSlots 3, s.busyBit x = false ∧ (s.target x).parked = false := by
  intro force h
  simp only [List.mem_cons, List.not_mem_nil, or_false] at h
  rcases h with h | h <;> subst h <;>
    exact ⟨coherent (by decide), clean (by decide), holds (by decide), by decide, by rfl, by decide, by decide, by decide,
      fun x _ => ⟨rfl, rfl⟩⟩
/-- DADDR alone, the notice target alone, and both, of the last granted target. -/
theorem meets_TargetFieldsSet : ∀ flags ∈ [(1 : Byte), 2, 3], let c := cmd 0x11 [(8, 5), (9, flags), (10, 63), (16, 8)]
    let s := sent 5 0x11 c.payload
    Coherent s ∧ s.Clean ∧ s.Holds 5 0x11 c ∧ s.coreUp = true ∧ checkTenant 5 (snapField c 8 1) 8 = .ok 5 ∧
    snapField c 10 2 = 63 ∧ s.slotOf 5 63 = some 255 ∧ s.resetting 5 = false ∧
    (field (BitVec.ofNat 64 (snapField c 16 8) : W64) 0 3 : BitVec 3) = 0 := by
  intro flags h
  simp only [List.mem_cons, List.not_mem_nil, or_false] at h
  rcases h with h | h | h <;> subst h <;>
    exact ⟨coherent (by decide), clean (by decide), holds (by decide), by decide, by rfl, by decide⟩
/-- The smallest range, beside tenant 5's, to tenant 6; and tenant 5's own range withdrawn. -/
theorem meets_VectorRangeGranted : let c := cmd 0x12 [(9, 6), (10, 6), (12, 64)]
    let s := { sent 64 0x12 c.payload with ten := { base.ten with recs := [(5, t5), (6, { bound := true })] } }
    Coherent s ∧ s.Holds 64 0x12 c ∧ s.coreUp = true ∧ checkTenant 64 (snapField c 9 1) 9 = .ok 6 ∧
    rangeGrantCheck s 6 6 64 = none ∧ s.slotFree (quarterOf 64) = true ∧ s.isOn (dTBL (quarterOf 64)) = true :=
  ⟨coherent (by decide), holds (by decide), by decide, by rfl, by decide⟩
theorem meets_VectorRangeWithdrawn : let c := cmd 0x12 [(8, 1), (9, 5), (10, 4)]
    let s := sent 64 0x12 c.payload
    Coherent s ∧ s.Clean ∧ s.Holds 64 0x12 c ∧ s.coreUp = true ∧ checkTenant 64 (snapField c 9 1) 9 = .ok 5 ∧
    (s.tenant 5).range = some ⟨0, 4⟩ ∧ snapField c 10 1 = (⟨0, 4⟩ : Range).log2.toNat ∧ s.slotFree 0 = true ∧
    s.activeIn ⟨0, 4⟩ = [] :=
  ⟨coherent (by decide), clean (by decide), holds (by decide), by decide, by rfl, by decide⟩
theorem meets_ClearSweepAnswers : let s := { boxed 64 { given 0x12 [] with work := .waiting } with
      ten := { base.ten with sweeps := [⟨⟨64, 6⟩, 0, 1, some (64, 2)⟩] } }
    Coherent s ∧ s.Clean ∧ mbTenant 64 = none ∧ s.ten.sweeps.find? (fun u => u.range.base == 64) = some ⟨⟨64, 6⟩, 0, 1, some (64, 2)⟩ ∧
    (s.box 64).snap = some (cmd 0x12 []) ∧ (s.box 64).discard = false :=
  ⟨coherent (by decide), clean (by decide), by decide⟩
/-- Vector 3 enabled with target 192 in counted mode, and system source 0x10 in edge mode. -/
theorem meets_VectorConfigured : ∀ p ∈ [[(8, (3 : Byte)), (10, 0x80), (16, 0xC0), (23, 0x60)], [(8, 0x10), (10, 0x40), (16, 0xC0), (23, 0x40)]],
    let c := cmd 0x13 p
    let s := sent 64 0x13 p
    Coherent s ∧ s.Clean ∧ s.Holds 64 0x13 c ∧ s.coreUp = true ∧ HasWords (snapSrc c 8) ∧
    ownCheck s none (snapSrc c 8) = none ∧ s.allOn (wordDomains (snapSrc c 8)) = true ∧
    cfgCheck s none (snapSrc c 8) (BitVec.ofNat 64 (snapField c 16 8)) = none ∧ s.slotFree (srcSlot (snapSrc c 8)) = true := by
  intro p h
  simp only [List.mem_cons, List.not_mem_nil, or_false] at h
  rcases h with h | h <;> subst h
  · exact ⟨coherent (by decide), clean (by decide), holds (by decide), by decide, .inl ⟨3, by decide⟩, by decide⟩
  · exact ⟨coherent (by decide), clean (by decide), holds (by decide), by decide, .inr ⟨0x10, by decide⟩, by decide⟩
theorem meets_VectorForwarded : let c := cmd 0x16 [(8, 3), (10, 0x80), (12, 7), (14, 0x10)]
    let s := { sent 64 0x16 c.payload with bead := ring.bead }
    Coherent s ∧ s.Clean ∧ s.Holds 64 0x16 c ∧ s.coreUp = true ∧ s.slotFree (srcSlot (snapSrc c 8)) = true ∧
    s.holder (snapSrc c 8) = some 5 ∧ s.resetting 5 = false ∧ s.allOn (wordDomains (snapSrc c 8)) = true ∧
    s.pwr.watch.contains (snapSrc c 8) = false ∧ lostSource s (snapSrc c 8) = false ∧ sPending (s.stOf (snapSrc c 8)) = false ∧
    sActive (s.stOf (snapSrc c 8)) = false ∧ s.chainMode ≠ 0 ∧ cDestChip (forwardWord (BitVec.ofNat 32 (snapField c 12 4))) ≠ s.chipId :=
  ⟨coherent (by decide), clean (by decide), holds (by decide), by decide⟩
/-- Group 7 by the FM, with the assignee changed and not, and by the tenant whose group it is. -/
theorem meets_ClaspGroupSet : ∀ p ∈ [((64 : BitVec 7), (3 : Byte)), (64, 2), (64, 1), (5, 1)],
    let c := cmd 0x17 [(8, 7), (10, p.2), (11, 5), (12, 9)]
    let s := { boxed p.1.toNat (given 0x17 c.payload) with ten := { base.ten with clasp := [(7, ⟨5, 20, 12⟩)] } }
    Coherent s ∧ s.Clean ∧ s.Holds p.1 0x17 c ∧ s.coreUp = true ∧ snapField c 8 2 < 4096 ∧
    (p.2.getLsbD 1 = true → mbTenant p.1 = none) ∧ (s.clasp 7).assign = 5 ∧ tagTenant 5 = some 5 ∧
    (s.tenant 5).bound = true ∧ s.resetting 5 = false := by
  intro p h
  simp only [List.mem_cons, List.not_mem_nil, or_false] at h
  rcases h with h | h | h | h <;> subst h <;>
    exact ⟨coherent (by decide), clean (by decide), holds (by decide), by decide⟩
/-- A source that is listed, and one that is not. -/
theorem meets_WatchListChanged : ∀ p ∈ [((0 : Byte), [msgSrc 3]), (0, []), (1, [msgSrc 3]), (1, [])],
    let c := cmd 0x18 [(8, 3), (10, 0x80), (12, p.1)]
    let s := { sent 5 0x18 c.payload with pwr := { watch := p.2 } }
    Coherent s ∧ s.Clean ∧ s.Holds 5 0x18 c ∧ s.coreUp = true ∧ snapSrc c 8 = msgSrc 3 ∧ s.holder (msgSrc 3) ≠ none ∧
    s.holderResets (msgSrc 3) = false ∧ s.allOn (wordDomains (msgSrc 3)) = true ∧ cFwd (s.cfgOf (msgSrc 3)) = false ∧
    lostSource s (msgSrc 3) = false := by
  intro p h
  simp only [List.mem_cons, List.not_mem_nil, or_false] at h
  rcases h with h | h | h | h <;> subst h <;>
    exact ⟨coherent (by decide), clean (by decide), holds (by decide), by decide⟩

/-- The longest load of message sources, and one system source, the last. -/
theorem meets_VectorLoadBegins : ∀ p ∈ [[(10, (0x80 : Byte)), (14, 4), (17, 0x10)], [(8, 0x3F), (9, 4), (10, 0x40), (12, 1)]],
    let c := cmd 0x14 p
    let s := sent 64 0x14 p
    CanonicalMbx s.mbx ∧ s.Holds 64 0x14 c ∧ s.coreUp = true ∧ 1 ≤ snapField c 12 4 ∧ snapField c 12 4 ≤ 262144 ∧
    (field (BitVec.ofNat 64 (snapField c 16 8) : W64) 0 3 : BitVec 3) = 0 ∧ HasWords (snapSrc c 8) ∧
    (snapSrc c 8).toNat + snapField c 12 4 - 1 ≤ (if isSystem (snapSrc c 8) then 0x400FFF else 0x8FFFFF) := by
  intro p h
  simp only [List.mem_cons, List.not_mem_nil, or_false] at h
  rcases h with h | h <;> subst h
  · exact ⟨⟨by decide⟩, holds (by decide), by decide, by decide, by decide, by decide, .inl ⟨0, by decide⟩, by decide⟩
  · exact ⟨⟨by decide⟩, holds (by decide), by decide, by decide, by decide, by decide, .inr ⟨0x43F, by decide⟩, by decide⟩
/-- A load of vectors 3 and 4 with its first read outstanding. -/
def loading : LoadRun := ⟨msgSrc 3, 2, 0x1000, 0, 0, 0, none, 1, [⟨0x1000, 1, 0, 0⟩], [], [], false⟩
def loads (m : Nat) : State := { boxed m { given 0x14 [] with work := .waiting, load := some loading } with
  acu := { mpuL := { enable := true } } }
theorem meets_LoaderEntryTaken : Coherent (loads 64) ∧ (loads 64).Clean ∧ (loads 64).hm.inReset = none ∧
    ((loads 64).box 64).load = some loading ∧ loading.next + 1 < loading.count ∧ (loads 64).acu.mpuL.enable = true ∧
    (loads 64).allOn (wordDomains (entrySrc loading 0)) = true ∧ isWordSource (entrySrc loading 0) = true ∧
    (loads 64).slotFree (srcSlot (entrySrc loading 0)) = true ∧
    entryCheck (loads 64) none (entrySrc loading 0) 0x40000000000000C0 = none ∧
    entryCheck (loads 64) none (entrySrc loading 0) 0x8000000000000000 = some stBadField :=
  ⟨coherent (by decide), clean (by decide), by decide⟩
/-- MPU-L allows the write of the entry: its region of the configuration words. -/
theorem meets_LoaderEntryTaken_allowed : (checkAccess (loads 64) 1
    ⟨1, 8, cfgAddress (entrySrc loading 0), true, none⟩).2.1 = true := by decide
theorem meets_LoaderReadFails : ∀ m ∈ [5, 64], Coherent (loads m) ∧ (loads m).hm.inReset = none ∧
    ((loads m).box (BitVec.ofNat 7 m)).load = some loading ∧ loading.next < loading.count := by
  intro m h
  simp only [List.mem_cons, List.not_mem_nil, or_false] at h
  rcases h with h | h <;> subst h <;> exact ⟨coherent (by decide), by decide⟩

/-! ## Tenant reset, RESYNC, faults, consent -/

def resets (op : Byte) (r : Option ResetRun) : State := { sent 64 op [(8, 5)] with
  ten := { base.ten with recs := [(5, { t5 with reset := r })], clasp := [(7, ⟨5, 20, 12⟩)] }
  tgt := { recs := [(192, active3)], busy := [(192, true)] } }
/-- No reset, one whose registers stand, and one whose registers are cleared. -/
theorem meets_TenantResetAccepted : ∀ r ∈ [none, some (⟨[64], true, true, 1, false, 1, 3⟩ : ResetRun), some ⟨[64], true, true, 0, true, 1, 3⟩],
    let s := resets 0x20 r
    Coherent s ∧ s.Holds 64 0x20 (cmd 0x20 [(8, 5)]) ∧ checkTenant 64 (snapField (cmd 0x20 [(8, 5)]) 8 1) 8 = .ok 5 ∧
    (s.tenant 5).bound = true ∧ (s.tenant 5).reset = r ∧ (s.box 5).ring = false := by
  intro r h
  simp only [List.mem_cons, List.not_mem_nil, or_false] at h
  rcases h with h | h | h <;> subst h <;> exact ⟨coherent (by decide), holds (by decide), by rfl, by decide⟩
theorem meets_TenantResetWorks : let s := resets 0x20 (some ⟨[64], true, false, 0, false, 1, 1⟩)
    Coherent s ∧ s.Clean ∧ s.resetDomainsOn 5 = true ∧ (s.tenant 5).range = some ⟨0, 4⟩ ∧ 192 ∈ s.slotsOf 5 ∧ (s.clasp 7).assign = 5 :=
  ⟨coherent (by decide), clean (by decide), by decide +kernel⟩
/-- No reply waits, and the tenant's own does. -/
theorem meets_TenantResetEnds : ∀ w ∈ [([] : List (BitVec 7)), [5]], let s := { boxed 5 { given 0x20 [] with work := .waiting } with
      ten := { base.ten with recs := [(5, { t5 with reset := some ⟨w, true, true, 0, false, 1, 3⟩ })] } }
    Coherent s ∧ (∀ m ∈ w, m = 64 ∨ m = 5) ∧ (s.box 5).snap = some (cmd 0x20 []) := by
  intro w h
  simp only [List.mem_cons, List.not_mem_nil, or_false] at h
  rcases h with h | h <;> subst h <;> exact ⟨coherent (by decide), by decide⟩
theorem meets_ResyncBegins : let s := { resets 0x21 none with bnd := { linkUp := 2 } }
    Coherent s ∧ s.Holds 64 0x21 (cmd 0x21 [(8, 5)]) ∧ s.coreUp = true ∧
    checkTenant 64 (snapField (cmd 0x21 [(8, 5)]) 8 1) 8 = .ok 5 ∧ (s.tenant 5).bound = true ∧ s.resetting 5 = false ∧
    s.bnd.linkUp.getLsbD (s.tenant 5).port.toNat = true ∧ (s.tenant 5).resync = none :=
  ⟨coherent (by decide), holds (by decide), by decide, by rfl, by decide⟩
theorem meets_FaultsCleared : Coherent (sent 64 0x31 [(8, 5)]) ∧ (sent 64 0x31 [(8, 5)]).Holds 64 0x31 (cmd 0x31 [(8, 5)]) ∧
    (sent 64 0x31 [(8, 5)]).coreUp = true ∧ checkTenant 64 (snapField (cmd 0x31 [(8, 5)]) 8 1) 8 = .ok 5 ∧
    (sent 64 0x31 [(8, 5)]).resetting 5 = false := ⟨coherent (by decide), holds (by decide), by decide, by rfl, by decide⟩
/-- Consent given for 3 frames, given without end, and withdrawn. -/
theorem meets_ConsentChanges : ∀ p ∈ [[(8, (1 : Byte)), (12, 3)], [(8, 1)], []], Coherent (sent 5 0x72 p) ∧
    (sent 5 0x72 p).Holds 5 0x72 (cmd 0x72 p) ∧ (sent 5 0x72 p).coreUp = true ∧ mbTenant 5 = some 5 ∧
    (snapByte (cmd 0x72 p) 8 = 1 ∨ snapByte (cmd 0x72 p) 8 = 0) := by
  intro p h
  simp only [List.mem_cons, List.not_mem_nil, or_false] at h
  rcases h with h | h | h <;> subst h <;> exact ⟨coherent (by decide), holds (by decide), by decide⟩
theorem meets_ConsentLapses : let s := withT5 { t5 with consentNext := true, consentLeft := some 1 }
    Coherent s ∧ (s.tenant 5).consentLeft = some 1 ∧ (s.tenant 5).consentTaking = false := ⟨coherent (by decide), by decide⟩

/-! ## Power domains -/

/-- LOUPE: kept ON, sent to RET, and brought to ON from RET; and CTRL sent to RET. -/
theorem meets_DomainOrdered : ∀ p ∈ [((11 : Byte), (2 : Byte), PState.on), (11, 1, .on), (11, 2, .ret), (10, 1, .on)],
    let c := cmd 0x40 [(8, p.1), (9, p.2.1)]
    let s := { sent 64 0x40 c.payload with pwr := { domains := if p.2.2 = .ret then [(11, { state := .ret })] else [] } }
    Coherent s ∧ s.Holds 64 0x40 c ∧ mbTenant 64 = none ∧ snapField c 8 1 ≤ 11 ∧ (s.dom (snapField c 8 1)).state = p.2.2 ∧
    (s.dom (snapField c 8 1)).trans = .none ∧ powerHeld s 64 (snapField c 8 1) (pstate (snapField c 9 1)) = false ∧
    orderBroken s (snapField c 8 1) (pstate (snapField c 9 1)) = false ∧ s.keptOff (snapField c 8 1) = false ∧
    (s.box 64).discard = false := by
  intro p h
  simp only [List.mem_cons, List.not_mem_nil, or_false] at h
  rcases h with h | h | h | h <;> subst h <;> exact ⟨coherent (by decide), holds (by decide), by decide⟩
theorem meets_QuarterToRetention : Coherent base ∧ base.engineReady = true ∧ base.mbx.fw.alive = true ∧
    base.isOn (dTBL (1 : BitVec 2).toNat) = true ∧ base.quarterGranted (1 : BitVec 2).toNat = false :=
  ⟨coherent (by decide), by decide⟩
/-- LOUPE entering RET, with no cause latched and with one. -/
theorem meets_EntryEnds : ∀ l ∈ [none, some (WakeCause.access)], let s : State := { base with pwr := { domains := [(11, { trans := .entering .ret, latched := l })] } }
    Coherent s ∧ (s.dom 11).trans = .entering .ret ∧ s.quiesced 11 = true ∧ (s.dom 11).latched = l ∧ sysSrc 0x27A ∉ s.pwr.watch := by
  intro l h
  simp only [List.mem_cons, List.not_mem_nil, or_false] at h
  rcases h with h | h <;> subst h <;> exact ⟨coherent (by decide), by decide⟩
/-- An exit of quarter 1 in each phase, first tried and tried again. -/
def exiting (p : Phase) (retry : Bool) (frm : PState) (d : Nat) : State := { base with
  pwr := { domains := [(d, { state := .ret, trans := .exiting frm p retry })] } }
theorem meets_ExitAdvances : ∀ retry : Bool, ∀ p ∈ [Phase.regulator, .clock, .memory, .logic], Coherent (exiting p retry .ret (dTBL 1)) ∧
    (exiting p retry .ret (dTBL 1)).isOn dCORE = true ∧ ((exiting p retry .ret (dTBL 1)).dom (dTBL 1)).trans = .exiting .ret p retry := by
  intro retry p h
  simp only [List.mem_cons, List.not_mem_nil, or_false] at h
  cases retry <;> rcases h with h | h | h | h <;> subst h <;> exact ⟨coherent (by decide), by decide⟩
theorem meets_MemoryReady : ∀ frm ∈ [PState.off, .ret], let s := { exiting .memory false frm (dTBL 1) with ras := { canary := 0xFF00 } }
    Coherent s ∧ (s.dom (dTBL 1)).trans = .exiting frm .memory false ∧ s.ras.errs = [] ∧ s.pwr.retLines = [] ∧
    ∀ b ∈ domainBanks (dTBL 1), s.canaryBroken b = false := by
  intro frm h
  simp only [List.mem_cons, List.not_mem_nil, or_false] at h
  rcases h with h | h <;> subst h <;> exact ⟨coherent (by decide), by decide⟩
/-- A broken canary row in bank 9. -/
theorem meets_MemoryReady_lost : let s := { exiting .memory false .ret (dTBL 1) with ras := { canary := 0xFF00, errs := [(⟨.config, 9, 8208⟩, 1)] } }
    Coherent s ∧ s.canaryBroken (8 * 1 + 1) = true := ⟨coherent (by decide), by decide +kernel⟩
theorem meets_DomainReachesOn : ∀ d ∈ [dCTRL, dLOUPE], let s := exiting .logic false .ret d
    Coherent s ∧ s.Settled ∧ s.pwr.retLines = [] ∧ s.pwr.lostActive = [] ∧ s.pwr.lostBanks = 0 ∧ s.isOn dCORE = true ∧
    (s.dom d).trans = .exiting .ret .logic false := by
  intro d h
  simp only [List.mem_cons, List.not_mem_nil, or_false] at h
  rcases h with h | h <;> subst h <;> exact ⟨coherent (by decide), settled (by decide), by decide⟩
theorem meets_SupplyAndClock : Coherent base ∧ base.isOn dCORE = true ∧ (base.dom 11).state = .on ∧ (base.dom 11).trans = .none ∧
    base.hm.inReset = none ∧ base.hm.powerOff = false := ⟨coherent (by decide), by decide⟩

/-! ## Beads, wear, fatal errors -/

theorem meets_BeadCommands : Coherent (sent 64 0x41 [(8, 3)]) ∧ (sent 64 0x41 [(8, 3)]).Holds 64 0x41 (cmd 0x41 [(8, 3)]) ∧
    (sent 64 0x41 [(8, 3)]).isOn dBEAD = true ∧ (sent 64 0x52 [(8, 3), (9, 6)]).Holds 64 0x52 (cmd 0x52 [(8, 3), (9, 6)]) ∧
    snapField (cmd 0x52 [(8, 3), (9, 6)]) 9 1 = 6 := ⟨coherent (by decide), holds (by decide), by decide, holds (by decide), by decide⟩
theorem meets_WakeInputs : ∀ n ∈ [(0 : BitVec 3), 1], let s : State := { base with
      bead := { inputSlots := n }, pwr := { domains := [(dBEAD, { state := .ret })] } }
    Coherent s ∧ s.wakeInputs = true ∧ s.isOn dCORE = true := by
  intro n h
  simp only [List.mem_cons, List.not_mem_nil, or_false] at h
  rcases h with h | h <;> subst h <;> exact ⟨coherent (by decide), by decide⟩
theorem meets_WearCounted : base.hm.powerOff = false ∧ base.engineReady = true ∧ base.mbx.fw.alive = true := by decide
/-- Row 4 of bank 9 is due; and with both spares of the bank used. -/
theorem meets_RowRetired : let s : State := { base with ras := { dueRetire := [(9, 4)] } }
    Coherent s ∧ s.Clean ∧ s.isOn dCORE = true ∧ ((9 : BitVec 6).toNat, (4 : BitVec 14)) ∈ s.ras.dueRetire ∧
    s.arrayStands (9 : BitVec 6).toNat = true ∧ (s.freeSpare 9).isSome = true := ⟨coherent (by decide), clean (by decide), by decide +kernel⟩
theorem meets_RowRetired_none : let s : State := { base with ras := { dueRetire := [(9, 4)], fieldStore := (List.range 16).map fun k => (9, 100, k) } }
    Coherent s ∧ s.Clean ∧ s.arrayStands (9 : BitVec 6).toNat = true ∧ s.freeSpare 9 = none :=
  ⟨coherent (by decide), clean (by decide), by decide +kernel⟩
theorem meets_BusParityErrors : Coherent base ∧ base.isOn dCORE = true ∧ base.hm.inReset = none ∧ base.servedBy 2 = some 2 ∧
    base.spareFree = true := ⟨coherent (by decide), by decide⟩
/-- Two bits of different symbols are an uncorrectable line. -/
theorem meets_ControlRamScrubbed : Coherent base ∧ base.Clean ∧ base.kernelRuns = true ∧
    decodeLine base.ras.freeReads 0x101 = .uncorrectable := ⟨coherent (by decide), clean (by decide), by decide +kernel⟩

/-! ## Firmware -/

/-- The slot that does not run, and the slots both while no firmware runs. -/
theorem meets_FirmwareStaged : let c := cmd 0x70 [(17, 0x10), (20, 1)]
    let s := sent 64 0x70 c.payload
    Coherent s ∧ s.Holds 64 0x70 c ∧ snapField c 8 8 % 4096 = 0 ∧ snapField c 16 4 = 4096 ∧ snapField c 20 1 ≤ 1 ∧
    decide (snapField c 20 1 = 1) ≠ s.mbx.fw.runSlot := ⟨coherent (by decide), holds (by decide), by decide⟩
/-- With NEXT_START_ONLY and without, and in safe-minimum mode. -/
theorem meets_FirmwareActivated : ∀ p ∈ [((1 : Byte), false), (0, false), (0, true)], let c := cmd 0x71 [(9, p.1)]
    let s := { sent 64 0x71 c.payload with hm := { base.hm with safeMin := p.2 } }
    Coherent s ∧ s.Holds 64 0x71 c ∧ snapField c 8 1 ≤ 1 ∧ (s.mbx.fw.image (decide (snapField c 8 1 = 1))).isSome = true ∧
    (snapByte c 9).getLsbD 0 = decide (p.1 = 1) ∧ (s.box 64).load = none := by
  intro p h
  simp only [List.mem_cons, List.not_mem_nil, or_false] at h
  rcases h with h | h | h <;> subst h <;> exact ⟨coherent (by decide), holds (by decide), by decide⟩
def restarts (act : Bool) : State := { base with mbx := { base.mbx with
  fw := { base.mbx.fw with alive := false, restart := true, loads := true, activate := act } } }
theorem meets_FirmwareFallsBack : Coherent (restarts true) ∧ (restarts true).engineReady = true ∧
    (restarts true).mbx.fw.fellBack = false := ⟨coherent (by decide), by decide⟩
theorem meets_FirmwareRestarts : let s := sent 5 1 []
    Coherent s ∧ s.kernelRuns = true ∧ (s.box 5).restarting = false ∧ (s.box 5).snap ≠ none ∧ (s.box 5).work = .run ∧
    coreAccessOk ⟨0, 3, 0⟩ = false := ⟨coherent (by decide), by decide⟩
theorem meets_RestartCompletes : Coherent (restarts false) ∧ (restarts false).engineReady = true ∧
    (let s := boxed 5 { restarting := true }
     Coherent s ∧ s.engineReady = true ∧ s.mbx.fw.restart = false ∧ (s.box 5).restarting = true) :=
  ⟨coherent (by decide), by decide, coherent (by decide), by decide⟩

/-! ## Reset and start-up -/

/-- The cause of a fatal condition, and the end of a cold reset. -/
theorem meets_BlockResetKeepsLocket : let s := { base with ras := { fatal := true, fatalReq := true } }
    Coherent s ∧ (∀ c, s.hm.inReset ≠ some (c, true)) ∧ Coherent State.reset ∧ State.reset.hm.inReset = some (0, true) :=
  ⟨coherent (by decide), fun c => by simp [base], coherent (by decide), by decide⟩
/-- Once the start has ended, in safe-minimum mode, and while it runs. -/
theorem meets_FmRestartResets : ∀ p ∈ [(true, false), (false, true), (false, false)],
    let s := { base with hm := { base.hm with ready := p.1, safeMin := p.2 } }
    pathFm .manager = true ∧ s.Serves (wordWrite .manager 0x25004 1) := by
  intro p h
  simp only [List.mem_cons, List.not_mem_nil, or_false] at h
  rcases h with h | h | h <;> subst h <;> exact ⟨by decide, serves (by decide)⟩
/-- A start that succeeds; with two records of failures at step 2 and without. -/
theorem meets_StartRuns : ∀ rs ∈ [([] : List HmRecord), [{ cause := 2, steps := [0x10, 0x20] }, { cause := 2, steps := [0x10, 0x20] }]],
    let s := { base with
      hm := { base.hm with inReset := some (1, false), records := rs }
      mbx := { fw := { slot1 := some 1 } } }
    s.hm.inReset = some (1, false) ∧ s.hm.safeMin = false ∧ s.bead.strap.getLsbD 7 = false ∧
    plainEnv.step2 = .pass ∧ plainEnv.bistRows = [] ∧ plainEnv.step9 = .pass ∧ s.mbx.fw.slot0.isSome = true ∧
    s.mbx.fw.slot1.isSome = true ∧ failures 2 s.hm.records = rs.length ∧ ({ plainEnv with step2 := .fail 1 } : StartEnv).step2 = .fail 1 := by
  intro rs h
  simp only [List.mem_cons, List.not_mem_nil, or_false] at h
  rcases h with h | h <;> subst h <;> decide

/-! ## Registers -/

theorem meets_IntakeBaseWritten : ∀ p ∈ [Path.manager, .smbus], ∀ w : Bool, let s := { base with intake := { windowEn := w } }
    pathFm p = true ∧ s.Serves (wordWrite p 0x300C 1) ∧ s.Serves (wordWrite p 0x3008 1) ∧ ∀ c, s.hm.inReset ≠ some (c, true) := by
  intro p h w
  simp only [List.mem_cons, List.not_mem_nil, or_false] at h
  cases w <;> rcases h with h | h <;> subst h <;>
    exact ⟨by decide, serves (by decide), serves (by decide), fun c => by simp [base]⟩
theorem meets_WeightWritten : CanonicalTen base.ten ∧ base.Serves (wordWrite .manager 0x31FC 0xFF) ∧
    base.Serves (wordWrite .smbus 0x3100 0x100) := ⟨⟨by decide, by decide, by decide⟩, serves (by decide), serves (by decide)⟩
/-- Tenant 6 unbound takes a port; tenant 5 keeps its binding, loses it, and one wants the port of the other. -/
theorem meets_TenantBound : CanonicalTen base.ten ∧ base.Serves (wordWrite .manager 0x7060 0x80000002) ∧
    base.Serves (wordWrite .manager 0x7050 0x80000001) ∧ base.ten.upstream.getLsbD 2 = true ∧ base.ten.managerPort = 0 ∧
    base.portTenant 2 = none ∧ base.localBlocks 6 = 0 ∧ (base.tenant 6).range = none ∧ base.resetting 6 = false ∧
    base.localBlocks 5 ≠ 0 ∧ base.portTenant 1 = some 5 :=
  ⟨⟨by decide, by decide, by decide⟩, serves (by decide), serves (by decide), by decide +kernel⟩
theorem meets_ViewSelected : base.Serves (wordWrite .manager 0x20 0x80000005) ∧ base.Serves (wordWrite .smbus 0x20 5) :=
  ⟨serves (by decide), serves (by decide)⟩
/-- The highest bank, one too high, and SYMBOLS 0. -/
theorem meets_InjectionArmed : ∀ d ∈ [(0x8000012F : W32), 0x80000130, 0x80000000], base.Serves (wordWrite .manager 0x24020 d) ∧
    pathFm .manager = true := by
  intro d h
  simp only [List.mem_cons, List.not_mem_nil, or_false] at h
  rcases h with h | h | h <;> subst h <;> exact ⟨serves (by decide), by decide⟩
theorem meets_HistogramCleared : ∀ d ∈ [(0x7F : W32), 63, 64], base.Serves (wordWrite .manager 0x28008 d) := by
  intro d h
  simp only [List.mem_cons, List.not_mem_nil, or_false] at h
  rcases h with h | h | h <;> subst h <;> exact serves (by decide)
/-- The ends of the command area, SEQ and RING, of 4 bytes and of 8. -/
theorem meets_RingHoldsMailbox : ∀ p ∈ [((0x1000 : Nat), (4 : Nat)), (0x10FC, 4), (0x10F8, 8), (0x1208, 4), (0x1208, 8), (0x1200, 4)],
    let s := boxed 5 { ring := true }
    CanonicalMbx s.mbx ∧ p.1 % p.2 = 0 ∧ s.Serves ⟨.tenant 5, BitVec.ofNat 22 p.1, p.2, true, true, 3, 0⟩ ∧ (s.box 5).ring = true := by
  intro p h
  simp only [List.mem_cons, List.not_mem_nil, or_false] at h
  rcases h with h | h | h | h | h | h <;> subst h <;> exact ⟨⟨by decide⟩, by decide, serves (by decide), by decide⟩
theorem meets_CommandAreaWritten : CanonicalMbx base.mbx ∧ (base.box 5).ring = false ∧ base.Serves (wordWrite (.tenant 5) 0x10FC 7) ∧
    base.Serves (wordWrite (.tenant 5) 0x1208 7) ∧ Sparse.wf 0 (base.box 5).cmd = true :=
  ⟨⟨by decide⟩, by decide, serves (by decide), serves (by decide), by decide⟩
/-- A read of 8 bytes at a word offset, and a write without some byte enables. -/
theorem meets_AccessRefused : CanonicalTen base.ten ∧ base.presented .manager = true ∧ base.hm.inReset = none ∧
    admitted ⟨.manager, 0x3004, 8, true, false, 0, 0⟩ = false ∧ admitted ⟨.manager, 0x3004, 4, false, true, 1, 0⟩ = false :=
  ⟨⟨by decide, by decide, by decide⟩, by decide⟩
theorem meets_MpuRegisterRead : base.Serves (wordRead .manager 0x20014) ∧ base.Serves (wordRead .smbus 0x20414) ∧
    base.Serves (wordRead .manager 0x20BFC) ∧ base.halfOf .manager = none ∧ base.halfOf .smbus = none :=
  ⟨serves (by decide), serves (by decide), serves (by decide), by decide⟩
theorem meets_FrameCountLatched : ∀ p ∈ [Path.manager, .smbus, .tenant 5], CanonicalTen base.ten ∧ base.halfOf p = none ∧ base.Serves (wordRead p 0x10) := by
  intro p h
  simp only [List.mem_cons, List.not_mem_nil, or_false] at h
  rcases h with h | h | h <;> subst h <;> exact ⟨⟨by decide, by decide, by decide⟩, by decide, serves (by decide)⟩
theorem meets_SidebandTransactions : base.hm.powerOff = false ∧ base.Serves (wordWrite .smbus 0x20 5) ∧ base.bnd.halfSmbus = none ∧
    base.Serves (wordRead .smbus 0x20) := ⟨by decide, serves (by decide), by decide, serves (by decide)⟩

/-! ## Access control units -/

/-- MPU-L with a plain region 3 and one locked for tenant 5, whose consent is absent. -/
def guarded : State := { base with acu := { mpuL := { enable := true, regions :=
  [(3, { base := 0x1000, size := 12, tag := 0x40, r := true }), (4, { base := 0x2000, size := 12, tag := 5, lock := true })] } } }
theorem meets_MpuEnableWritten : guarded.acu.tap.busy = false ∧ (∀ b ∈ guarded.mbx.boxes, b.2.load = none) ∧
    ∀ u ∈ [(0 : BitVec 2), 1, 2], guarded.Serves (wordWrite .manager (unitOffset u 0) 1) := by
  refine ⟨by decide, by decide, fun u h => ?_⟩
  simp only [List.mem_cons, List.not_mem_nil, or_false] at h
  rcases h with h | h | h <;> subst h <;> exact serves (by decide)
theorem meets_MpuRegionWritten : ∀ p ∈ [((3 : BitVec 4), (0 : BitVec 2)), (3, 1), (3, 2), (4, 0)],
    guarded.Serves (wordWrite .manager (unitOffset 1 (0x100 + 16 * p.1.toNat + 4 * p.2.toNat)) 0x40000) ∧ p.1.toNat < regionCount 1 ∧
    Sparse.wf {} (guarded.mpu 1).regions = true ∧
    guarded.protectedRegion ((guarded.mpu 1).region p.1.toNat) = decide (p.1 = 4) := by
  intro p h
  simp only [List.mem_cons, List.not_mem_nil, or_false] at h
  rcases h with h | h | h | h <;> subst h <;> exact ⟨serves (by decide), by decide⟩
theorem meets_MpuSyncAnswers : base.halfOf .manager = none ∧ base.Serves (wordWrite .manager (unitOffset 1 4) 0x80000000) ∧
    base.Serves (wordRead .manager (unitOffset 1 4)) := ⟨by decide, serves (by decide), serves (by decide)⟩
/-- A region of MPU-L that is free, one that is protected, and a region of MPU-C. -/
theorem meets_MpuConfigured : ∀ p ∈ [((1 : Byte), (3 : Byte)), (1, 4), (0, 15)], let c := cmd 0x50 [(8, p.1), (9, p.2), (10, 1), (11, 12), (13, 0x40), (17, 0x10)]
    let s := { guarded with mbx := { base.mbx with boxes := [(64, given 0x50 c.payload)] } }
    CanonicalMbx s.mbx ∧ s.acu.tap.busy = false ∧ (∀ b ∈ s.mbx.boxes, b.2.load = none) ∧ s.Holds 64 0x50 c ∧
    snapField c 10 1 = 1 ∧ snapField c 16 8 % 2 ^ snapField c 11 1 = 0 ∧ s.isOn dCORE = true ∧
    s.protectedRegion ((s.mpu 1).region (snapField c 9 1)) = decide (p.2 = 4) := by
  intro p h
  simp only [List.mem_cons, List.not_mem_nil, or_false] at h
  rcases h with h | h | h <;> subst h <;> exact ⟨⟨by decide⟩, by decide, by decide, holds (by decide), by decide⟩
/-- MPU-D with a region over agent RAM that admits every requester, for reads and writes of its first and last bytes. -/
def probed : State := { base with acu := { mpuD := { enable := true, regions :=
  [(0, { base := 0x4000000, size := 18, tag := 0x40, priv := false, r := true, w := true })] } } }
theorem meets_DebugAccessMade : ∀ w : Bool, ∀ a ∈ [(0x4000000 : BitVec 40), 0x403FFFC, 0x4040000], let x : Access := ⟨if w then 1 else 0, 4, a.toNat, false, none⟩
    probed.hm.inReset = none ∧ probed.acu.tap.busy = false ∧ probed.acu.mpuD.enable = true ∧ probed.isOn dCORE = true ∧
    probed.isOn dCTRL = true ∧ Sparse.wf none probed.acu.ram = true ∧
    (decideByte probed 2 x a.toNat).allowed = decide (a ≠ 0x4040000) ∧ (decideByte probed 2 x a.toNat).opened = none ∧
    (decideByte probed 2 x (a.toNat + 3)).allowed = decide (a ≠ 0x4040000) ∧ (decideByte probed 2 x (a.toNat + 3)).opened = none := by
  intro w a h
  simp only [List.mem_cons, List.not_mem_nil, or_false] at h
  cases w <;> rcases h with h | h | h <;> subst h <;> decide +kernel

/-! ## The tick -/

/-- No change pending, one that counts down, one at its tick; a first tick after a sleep; CORE stopping, and asleep. -/
theorem meets_FrameTicked : ∀ f ∈ [(false, 0), (true, 2), (true, 1)], let s := { base with frame := { base.frame with changePending := f.1, ticksLeft := f.2, request := 640 } }
    s.hm.inReset = none ∧ s.hm.powerOff = false ∧ s.stopping = false ∧ s.coreOn = true ∧ s.pwr.firstTick = none ∧ s.pwr.waiting = [] := by
  decide
theorem meets_FirstTickCounts : let s : State := { base with pwr := { firstTick := some 100 } }
    s.hm.inReset = none ∧ s.frame.running = true ∧ s.stopping = false ∧ s.coreOn = true ∧ s.pwr.firstTick = some 100 := by decide
theorem meets_FramesStop : let s : State := { base with pwr := { domains := [(dCORE, { trans := .entering .ret })] } }
    s.hm.inReset = none ∧ s.frame.running = true ∧ s.stopping = true ∧ asleep.stopping = false ∧ asleep.coreOn = false ∧
    asleep.frame.running = true := by decide

/-! ## The Chain -/

/-- Port EAST of a chip in full rate, in a state of training. -/
def trains (u : PhyPort) : State := { base with bead := { strap := 0x10 }, chain := { eastPhy := u } }
theorem meets_TrainingBegins : ∀ st ∈ [PhyState.detect, .cdrLock, .pam4Check], let s := trains { state := st, signal := 7, locked := 7 }
    s.isOn (portDomain .east) = true ∧ (s.phy .east).state = st ∧ 2 ≤ countLanes 3 ∧ countLanes 4 < 2 ∧
    (s.phy .east).signal &&& ~~~ (7 : BitVec 3) = 0 := by
  intro st h
  simp only [List.mem_cons, List.not_mem_nil, or_false] at h
  rcases h with h | h | h <;> subst h <;> decide
/-- A set of chip 1's WEST port, one of its EAST port, one with this chip's ID, one with a single good lane. -/
def setOf (chip : Chip) (west : Bool) (good : BitVec 3) : BitVec 128 := packSet chip west (trains {}).chainMode good 3 true true
def mapping : State := trains { state := .laneMap, good := 7, signal := 7, locked := 7 }
theorem meets_TrainingEnds : mapping.isOn (portDomain .east) = true ∧ mapping.chipId = 0 ∧ 2 ≤ countLanes (mapping.phy .east).good ∧
    chooseLanes mapping.chainMode 7 = some 3 ∧ chooseLanes mapping.chainMode 1 = none := by decide +kernel
theorem meets_TrainingEnds_sets : ∀ p ∈ [((1 : Chip), true, (7 : BitVec 3)), (1, false, 7), (0, true, 7), (1, true, 1)],
    trainingSetOk (setOf p.1 p.2.1 p.2.2) = true ∧ (field (setOf p.1 p.2.1 p.2.2) 64 4 : Chip) = p.1 ∧
    (setOf p.1 p.2.1 p.2.2).getLsbD 68 = p.2.1 ∧ field (setOf p.1 p.2.1 p.2.2) 72 3 = p.2.2 := by decide +kernel
theorem meets_TrainingEnds_bad : trainingSetOk 0 = false := by decide +kernel
theorem meets_TrainingEnds_timeouts : ∀ st ∈ [PhyState.deskew, .linkInit, .down], ((trains { state := st }).phy .east).state = st := by decide
/-- A marker of lane `l` with MCOUNT `m`. -/
def markerOf (l m : Nat) : BitVec 128 :=
  let mid : W32 := place 32 (BitVec.ofNat 8 l) 0 ||| place 32 (BitVec.ofNat 16 m) 16
  (~~~ mid) ++ mid ++ (0xA5C30F965A3CF069 : W64)
/-- Lane 0 lost with the standing spare locked and with it gone; sparing; the marker that aligns both lanes; the last tick. -/
theorem meets_LockAndDown : ∀ good ∈ [(7 : BitVec 3), 3], let s := trains { state := .up, rxLanes := 3, txLanes := 3, locked := 7, good := good }
    CanonicalSys s.sys ∧ s.isOn (portDomain .east) = true ∧ (s.phy .east).locked.getLsbD 0 = true ∧
    (s.phy .east).rxLanes.getLsbD 0 = true ∧ laneRole s.chainMode 0 = some 0 ∧ standingSpare s.chainMode (s.phy .east) = decide (good = 7) := by
  intro good h
  simp only [List.mem_cons, List.not_mem_nil, or_false] at h
  rcases h with h | h <;> subst h <;> exact ⟨⟨by decide, by decide, by decide, by decide⟩, by decide⟩
theorem meets_LockAndDown_markers : ∀ st ∈ [PhyState.deskew, .lockLost, .sparing], let s := trains { state := st, rxLanes := 3, markers := [(0, 2), (1, 1)], mcounts := [(0, 8), (1, 7)] }
    markerOk 1 (markerOf 1 8) = true ∧ (s.phy .east).state = st ∧ (s.phy .east).downTicks + 1 < (s.portCfg .east).ldtNext.toNat ∧
    aligned (noteMarker (takeBlock (s.phy .east) 1 (markerOf 1 8)) 1 (field (markerOf 1 8) 80 16 : BitVec 16).toNat)
      (field (markerOf 1 8) 80 16 : BitVec 16).toNat = true := by
  intro st h
  simp only [List.mem_cons, List.not_mem_nil, or_false] at h
  rcases h with h | h | h <;> subst h <;> decide +kernel
/-- Each action by itself, SET_LDT with a value the check refuses, on a port that is up or DISABLED. -/
theorem meets_ChainConfigured : ∀ p ∈ [((1 : Byte), (32 : Byte), PhyState.up), (2, 0, .up), (4, 0, .up), (8, 0, .up), (16, 0, .disabled), (1, 0, .up)],
    let c := cmd 0x51 [(9, p.1), (10, p.2.1), (12, 5), (13, 5), (14, 5)]
    let s := { trains { state := p.2.2 } with mbx := { base.mbx with boxes := [(64, given 0x51 c.payload)] } }
    CanonicalMbx s.mbx ∧ CanonicalSys s.sys ∧ s.Holds 64 0x51 c ∧ snapByte c 9 = p.1 ∧ (s.phy .east).state = p.2.2 ∧
    s.allOn [dTGT, dCORE, portDomain .east] = true ∧ (chainCheck s c = none ↔ p ≠ (1, 0, .up)) := by
  intro p h
  simp only [List.mem_cons, List.not_mem_nil, or_false] at h
  rcases h with h | h | h | h | h | h <;> subst h <;> exact ⟨⟨by decide⟩, ⟨by decide, by decide, by decide, by decide⟩, holds (by decide), by decide⟩
/-- An INIT of the peer with legal credits, an echo, IDLE with the own part done, and a flit of a bad CRC. -/
theorem meets_LinkInitialises : let s := { trains { state := .linkInit, peerChip := 1 } with chain := { (trains { state := .linkInit, peerChip := 1 }).chain with
      east := { initSeen := true, echoes := 4 } } }
    Coherent s ∧ s.isOn (portDomain .east) = true ∧ (s.phy .east).state = .linkInit ∧ ownPart (s.linkPort .east) = true ∧
    ownPart ({} : LinkPort) = false ∧ flitGood (packInit 1 true 5) = true ∧ flitType (packInit 1 true 5) = 4 ∧
    creditsLegal (unpackCredits (field (packInit 1 true 5) 176 72)) = true ∧ flitGood (packEcho 1 5 6) = true ∧
    flitType (packEcho 1 5 6) = 5 ∧ flitGood idleFlit = true ∧ flitType idleFlit = 0 ∧ flitGood 1 = false :=
  ⟨coherent (by decide), by decide +kernel⟩
/-- An own LINE record that may go. -/
def line1 (src dst : Chip) (q : BitVec 16) : DataFlit := ⟨0, src, dst, q, false, [0x34]⟩
def up (l : LinkPort) : State := { ring with chain := { ring.chain with eastPhy := { state := .up, peerChip := 1, rxLanes := 3, txLanes := 3 }, east := l } }
def open1 : LinkPort := { advertised := ⟨9, 9, 9, 9, 9, 9⟩ }
theorem meets_FlitsSent : (up {}).isOn (portDomain .east) = true ∧ (up {}).linkUp .east = true ∧
    linkFlitDue { linkDue := true } = true ∧ linkFlitDue { sinceLink := 1 } = false ∧ (ring.phy .west).state ≠ .up := by decide +kernel
theorem meets_FlitsSent_data : firstReady (mayGo { open1 with own := [line1 0 1 0] } true) id [] [line1 0 1 0] = some (line1 0 1 0, []) ∧
    firstReady (mayGo open1 false) TransitFlit.flit [] [⟨none, line1 2 1 0⟩] = some (⟨none, line1 2 1 0⟩, []) ∧
    ([(0, line1 0 1 0)] : List (BitVec 12 × DataFlit))[1 - 1]? = some (0, line1 0 1 0) := by decide +kernel
/-- The next LINK record of chip 1 for this chip, a copy of one, one for another chip, an ill-formed one, and one with a gap. -/
theorem meets_DataFlitsReceived : Coherent (up {}) ∧ (up {}).isOn (portDomain .east) = true ∧ (up {}).linkUp .east = true ∧
    (up {}).chipId = 0 ∧ ((up {}).pair 1).live = true ∧ (up {}).isOn dCORE = true ∧
    ∀ p ∈ [((0 : BitVec 12), line1 1 0 1), (0, line1 1 0 0), (2, line1 1 0 1)],
      flitGood (packData p.1 p.2) = true ∧ flitType (packData p.1 p.2) = 1 ∧ recordsOk (packData p.1 p.2) p.2 = true ∧
      unpackData (packData p.1 p.2) = p := ⟨coherent (by decide), by decide +kernel⟩
/-- Three acknowledgements: of the flit held, of none, and with NAK. -/
def unacked : State := up { replayBuf := [(0, line1 0 1 0)], nextSeq := 1 }
theorem meets_FlitsAcknowledged : CanonicalSys unacked.sys ∧ unacked.isOn (portDomain .east) = true ∧ unacked.linkUp .east = true ∧
    (unacked.linkPort .east).lastAcked = 0xFFF ∧ unacked.chain.replayRaised = false :=
  ⟨⟨by decide, by decide, by decide, by decide⟩, by decide⟩
theorem meets_FlitsAcknowledged_flits : ∀ p ∈ [(false, (0 : BitVec 12)), (false, 5), (true, 0xFFF)],
    flitGood (packLink p.1 p.2 {}) = true ∧ flitType (packLink p.1 p.2 {}) = 2 ∧
    (field (packLink p.1 p.2 {}) 240 12 : BitVec 12) = p.2 ∧ (packLink p.1 p.2 {}).getLsbD 252 = p.1 := by
  intro p h
  simp only [List.mem_cons, List.not_mem_nil, or_false] at h
  rcases h with h | h | h <;> subst h <;> decide +kernel
theorem meets_OverdueRounds : let s := { up { own := [line1 0 1 0], creditFrames := [(0, 63)] } with
      chain := { (up { own := [line1 0 1 0], creditFrames := [(0, 63)] }).chain with
        pairs := [(1, { live := true, store := [(1, 0x34)], sent := [(5, 4)], allowFrames := [(5, 63)] })] } }
    CanonicalSys s.sys ∧ CanonicalChain s.chain ∧ s.coreOn = true ∧ (s.pair 1).store ≠ [] ∧ (s.pair 1).live = true ∧
    s.route 1 = some .east ∧ s.frame.running = true ∧ creditWait (s.linkPort .east) (classCode .edge) = true ∧
    s.allowance 1 5 = 0 ∧ creditWait {} 0 = false ∧ (1 : Chip) ≠ s.chipId ∧ s.isLive 1 = true :=
  ⟨⟨by decide, by decide, by decide, by decide⟩, ⟨by decide⟩, by decide +kernel⟩
/-- A marker of chip 1 followed, the chip's own, and one no better than one used. -/
def follows : State := { up {} with frame := { ring.frame with isMaster := false, following := true, masterId := 1 } }
theorem meets_MarkersUsed : CanonicalSys follows.sys ∧ follows.isOn (portDomain .east) = true ∧ follows.linkUp .east = true ∧
    follows.alone = false ∧ follows.frame.bestHops = none ∧ follows.frame.markerBase = none ∧ follows.chipId = 0 ∧
    betterMarker (some (1, true)) 1 true = false ∧
    ∀ m ∈ [(0 : Chip), 1], flitGood (packTick m 1 7 800 640 39 100) = true ∧ flitType (packTick m 1 7 800 640 39 100) = 3 ∧
      (field (packTick m 1 7 800 640 39 100) 249 4 : Chip) = m ∧ (field (packTick m 1 7 800 640 39 100) 245 4 : BitVec 4) = 1 :=
  ⟨⟨by decide, by decide, by decide, by decide⟩, by decide +kernel⟩

end Sys2Proof.Tests
end

section
/-! Reset and start: what a cold and a block reset leave, the FM's restart, and the start with its attempts (R11, R12,
R353 to R365). -/
namespace Sys2Proof.Machine
open Sys2Proof

/-! ## Resets -/

theorem resetValues : Claims.ResetValues := by
  refine ⟨rfl, rfl, rfl, rfl, fun t => ⟨rfl, rfl, rfl⟩, by decide, by decide, by decide, by decide, by decide, ?_, by decide,
    fun v => rfl⟩
  intro p
  cases p <;> decide

/-- A cold reset changes every part of the state but the queue of commands. -/
theorem coldResetClears : Claims.ColdResetClears := by
  intro s cleared
  have wiped : ∀ off : Bool, cleared ((coldState s).setHm { (coldState s).hm with inReset := some (0, true), powerOff := off }) :=
    fun _ => ⟨rfl, rfl, rfl, rfl, rfl, rfl, rfl, rfl, rfl, rfl, rfl, rfl, rfl, rfl, rfl, rfl, rfl, rfl, rfl, rfl, rfl⟩
  refine ⟨⟨_, rfl, wiped false, rfl, ?_⟩, _, rfl, wiped true, rfl⟩
  intro p listed
  cases p with
  | pending => rfl
  | _ => exact absurd (by decide) listed

/-- A block reset takes each domain out of its transition and keeps its state and its last order (R11, log entry 48). -/
theorem assertBlock_dom (s : State) (cause : Byte) (hs : CanonicalPwr s.pwr) (d : Nat) :
    (assertBlock s cause).dom d = { s.dom d with
      trans := .none, stuck := false, latched := none, lateSeen := false, logicSeen := false } :=
  Sparse.get_mapVals _ _ _ rfl _ none hs.domains

/-- A block reset that no cold reset governs is asserted with its cause (R12, R354). -/
theorem execBlockReset_asserts (s : State) (h : ∀ c, s.hm.inReset ≠ some (c, true)) :
    execBlockReset s = .next (assertBlock s (if s.ras.fatalReq then 3 else 1)) := by
  unfold execBlockReset
  split
  next c e => exact absurd e (h c)
  next => rfl

theorem execBlockReset_governed (s : State) {c : Byte} (h : s.hm.inReset = some (c, true)) : execBlockReset s = .next s := by
  unfold execBlockReset
  rw [h]

theorem blockResetKeepsLocket : Claims.BlockResetKeepsLocket := by
  intro s hs
  refine ⟨fun h => ⟨_, execBlockReset_asserts s h, rfl, rfl, rfl, rfl, rfl, rfl, rfl, rfl, rfl, rfl, rfl, rfl, rfl, rfl, rfl,
    rfl, rfl, ?_, rfl, rfl, rfl, rfl, rfl, rfl, rfl, rfl, rfl, rfl, rfl, rfl⟩, fun c h => execBlockReset_governed s h⟩
  intro d
  rw [assertBlock_dom s _ hs.pwrCanonical]
  exact ⟨rfl, rfl, rfl⟩

/-- A served write of HM_CTRL by the FM (R365, R368). -/
theorem exec_fmRestart {p : Path} {data : W32} {s : State} (f : pathFm p = true)
    (h : s.Serves (wordWrite p 0x25004 data)) : exec (.fmRestart p data) s = .next (writeHmCtrl s data) :=
  congrArg Host.Outcome.next (fmPage (pg := .hallmark) (base := 0x25000) f h (by decide) (by decide) (by decide) (by decide) rfl)

theorem fmRestartResets : Claims.FmRestartResets := by
  intro p data s f h start
  rw [exec_fmRestart f h]
  unfold writeHmCtrl
  rw [if_pos start]
  refine ⟨fun ended => ⟨assertBlock s 4, ?_, rfl, rfl, rfl, rfl⟩, fun safe ready => ?_⟩
  · rw [if_pos (by simpa using ended)]
  · rw [if_neg (by simp [safe, ready])]
end Sys2Proof.Machine
end

section
/-! The start: the marks that its steps keep, what its last steps add, and how it ends (R353, R356, R358, R360). -/
namespace Sys2Proof.Machine
open Sys2Proof

/-! ## The marks of a start

No step changes these once step 2 has ended, unless a mandatory step fails outside safe-minimum mode. -/

/-- How a start goes on (in safe-minimum mode, or to restart itself), what its attempts count over, its operands, and
what its record and the Hallmark page say of it. -/
structure StartMark where
  safe     : Bool
  restart  : Bool
  earlier  : List HmRecord
  env      : StartEnv
  recordNo : W32
  cause    : Byte
  inReset  : Option (Byte × Bool)
  safeMin  : Bool
  safeStep : BitVec 4
  startNo  : W32

def Start.mark (b : Start) : StartMark where
  safe := b.safe
  restart := b.restart
  earlier := b.earlier
  env := b.env
  recordNo := b.record.startNo
  cause := b.record.cause
  inReset := b.st.hm.inReset
  safeMin := b.st.hm.safeMin
  safeStep := b.st.hm.safeStep
  startNo := b.st.hm.startNo

variable {b : Start}

theorem Start.restart_of_mark {m : StartMark} (h : b.mark = m) : b.restart = m.restart := congrArg StartMark.restart h
theorem Start.safe_of_mark {m : StartMark} (h : b.mark = m) : b.safe = m.safe := congrArg StartMark.safe h
theorem Start.env_of_mark {m : StartMark} (h : b.mark = m) : b.env = m.env := congrArg StartMark.env h

/-- Work on the state that leaves the Hallmark unit alone leaves the marks alone. -/
theorem Start.mark_withSt (b : Start) {t : State} (h : t.hm = b.st.hm) : ({ b with st := t } : Start).mark = b.mark := by
  simp only [Start.mark, h]

theorem Start.note_mark (b : Start) (n : Nat) (o : Byte) : (b.note n o).mark = b.mark := rfl

/-- A copy to flash changes the two copies and what is known of them (R360). -/
theorem Start.copyOut_changes (b : Start) : ∃ x y n f, b.copyOut = { b with
    st := b.st.setHm { b.st.hm with flashA := x, flashB := y, newestB := n, flashCopyFail := f } } := by
  unfold Start.copyOut
  dsimp only
  split <;> split <;> exact ⟨_, _, _, _, rfl⟩

theorem Start.copyOut_mark (b : Start) : b.copyOut.mark = b.mark := by
  obtain ⟨x, y, n, f, e⟩ := b.copyOut_changes
  rw [e]
  rfl

theorem Start.copyOut_mbx (b : Start) : b.copyOut.st.mbx = b.st.mbx := by
  obtain ⟨x, y, n, f, e⟩ := b.copyOut_changes
  rw [e]
  rfl

theorem Start.enterSafe_mark (b : Start) (n : Nat) :
    (b.enterSafe n false).mark = { b.mark with safe := true, safeMin := true, safeStep := BitVec.ofNat 4 n } := by
  unfold Start.enterSafe
  rw [Start.copyOut_mark]
  rfl

/-! ## Mandatory steps -/

theorem Start.fails_of_safe (n : Nat) (h : b.safe = true) : b.fails n = b := if_pos h

/-- Outside safe-minimum mode, a failure after two failing records enters it. -/
theorem Start.fails_enters {n : Nat} (h : b.safe = false) (a : 2 ≤ b.attempt n) : b.fails n = b.enterSafe n false := by
  unfold Start.fails
  rw [if_neg (by simp [h]), if_pos a]

/-- Outside safe-minimum mode, an earlier failure restarts the block. -/
theorem Start.fails_restarts {n : Nat} (h : b.safe = false) (a : b.attempt n < 2) :
    b.fails n = { b with restart := true } := by
  unfold Start.fails
  rw [if_neg (by simp [h]), if_neg (by omega)]

theorem Start.mandatory_pass {n : Nat} {work : Start → Start} (h : b.restart = false) :
    ∃ o, b.mandatory n .pass work = work (b.note n o) := by
  unfold Start.mandatory
  rw [if_neg (by simp [h])]
  exact ⟨_, rfl⟩

theorem Start.mandatory_fail {n : Nat} {d : BitVec 4} {work : Start → Start} (h : b.restart = false) :
    ∃ o, b.mandatory n (.fail d) work = (b.note n o).fails n := by
  unfold Start.mandatory
  rw [if_neg (by simp [h])]
  exact ⟨_, rfl⟩

theorem Start.mandatory_mark {n : Nat} {fate : StepFate} {work : Start → Start} (hw : ∀ y, (work y).mark = y.mark)
    (h : b.restart = true ∨ b.safe = true ∨ fate = .pass) : (b.mandatory n fate work).mark = b.mark := by
  unfold Start.mandatory
  split
  · rfl
  next going =>
    cases fate with
    | pass => exact hw _
    | degraded d => exact hw _
    | fail d =>
      have safe : b.safe = true := (h.resolve_left going).resolve_right (by simp)
      dsimp only
      rw [Start.fails_of_safe n (by exact safe), Start.note_mark]

theorem Start.ended_mark {n : Nat} {fails degraded : Bool} {detail : BitVec 4} (h : b.safe = true ∨ fails = false) :
    (b.ended n fails degraded detail).mark = b.mark := by
  unfold Start.ended
  dsimp only
  split
  next failing =>
    have safe : b.safe = true := h.resolve_right (by simp [failing])
    rw [Start.fails_of_safe n (by exact safe), Start.note_mark]
  next => rw [Start.note_mark]

/-! ## What the work of the steps leaves alone -/

/-- The Hallmark unit is `h`, and the frames run if `r`. -/
def State.Starts (h : HmUnit) (r : Bool) (s : State) : Prop := s.hm = h ∧ s.frame.running = r

theorem State.starts (s : State) : State.Starts s.hm s.frame.running s := ⟨rfl, rfl⟩

/-- The work of a step, and that of a frame, leaves the Hallmark unit alone, and the frames as they run. -/
theorem workClosed_starts (h : HmUnit) (r : Bool) : WorkClosed (State.Starts h r) where
  chain k := k
  sys k := k
  pwr k _ _ _ := k
  intake k := k
  vec k := k
  tgt k := k
  ten k := k
  mbx k := k
  acu k := k
  bead k := k
  ras k := k
  loupe k := k
  use k := k
  time k := k

theorem repairRow_only (s : State) (e : Nat × BitVec 14) : OnlyChanges [.ras] s (repairRow s e) := by
  unfold repairRow
  split
  · exact setRas_only _
  · exact .refl _ _

theorem leaveOut_only (s : State) (tbl : BitVec 4) (tgt : BitVec 16) : OnlyChanges [.pwr] s (leaveOut s tbl tgt) :=
  setPwr_only _

theorem State.Starts.setFrame {h : HmUnit} {r : Bool} {s : State} {u : FrameUnit} (hs : s.Starts h r)
    (k : u.running = s.frame.running) : (s.setFrame u).Starts h r := ⟨hs.1, k.trans hs.2⟩

theorem aloneMaster_starts {h : HmUnit} {r : Bool} {s : State} (hs : s.Starts h r) : (aloneMaster s).Starts h r := hs

theorem addResetTime_starts {h : HmUnit} {r : Bool} {s : State} (l : BitVec 48) (hs : s.Starts h r) :
    (addResetTime s l).Starts h r := hs

/-- The work of frame 0 leaves the Hallmark unit alone, and the frames as they run. -/
theorem firstTick_starts {h : HmUnit} {r : Bool} {s : State} (inp : TickIn) (hs : s.Starts h r) :
    (firstTick s inp).Starts h r := by
  have C := workClosed_starts h r
  unfold firstTick
  exact in_ite (tickBack_in C _ _ _ (loupeTick_in C _ (in_foldl _ _ _ (fun t u => upset_in C t u) hs))) hs

/-! ## Steps 1 to 10 -/

/-- What a start meets when every mandatory step from step 3 on passes. -/
structure StepsPass (env : StartEnv) : Prop where
  rows   : env.bistRows = []
  core   : env.bistCore = false
  ctrl   : env.bistCtrl = false
  step4  : env.step4 = .pass
  tbl    : env.verifyTbl = 0
  tgt    : env.verifyTgt = 0
  arrays : env.verifyCore = false
  step9  : env.step9 = .pass
  step10 : env.step10 = .pass

/-- Both image slots hold a valid image. -/
def State.Staged (s : State) : Prop := s.mbx.fw.slot0.isSome = true ∧ s.mbx.fw.slot1.isSome = true

/-- No step from step 3 on changes how the start goes on: it restarts itself already, or is in safe-minimum mode, or
every mandatory step passes. -/
def StartMark.Proceeds (m : StartMark) : Prop := m.restart = true ∨ m.safe = true ∨ StepsPass m.env

/-- Where every mandatory step is to pass, step 4 finds an image. -/
def Start.Proceeds (b : Start) : Prop := b.restart = true ∨ b.safe = true ∨ (StepsPass b.env ∧ b.st.Staged)

theorem Start.Proceeds.marked (h : b.Proceeds) : b.mark.Proceeds := h.imp_right (Or.imp_right And.left)

/-- Step 1 takes the records that the attempts count over from flash, and the straps by majority (R296, R360). -/
theorem Start.locketUp_mark (b : Start) : b.locketUp.mark = { b.mark with
    earlier := ((readCopies b.st.hm b.env.flashBadA b.env.flashBadB).1.map FlashCopy.records).getD [] } := by
  unfold Start.locketUp
  dsimp only
  split <;> rfl

theorem Start.locketUp_strap (b : Start) : b.locketUp.st.bead.strap = (majority b.env.straps).1 := by
  unfold Start.locketUp
  dsimp only
  split <;> rfl

theorem Start.locketUp_mbx (b : Start) : b.locketUp.st.mbx = b.st.mbx := by
  unfold Start.locketUp
  dsimp only
  split <;> rfl

/-- Step 3 ends after repairs and banks left out, which touch neither the mailboxes nor the Hallmark unit; without a
faulty row or array it does not fail. -/
theorem Start.bist_ended (h : b.restart = false) : ∃ t fails degraded detail,
    b.bist = ({ b with st := t } : Start).ended 3 fails degraded detail ∧ t.hm = b.st.hm ∧ t.mbx = b.st.mbx ∧
    (StepsPass b.env → fails = false) := by
  unfold Start.bist
  rw [if_neg (by simp [h])]
  extract_lets rows short repaired tbl tgt bad out s b'
  have hs : OnlyChanges [.ras] b.st s := OnlyChanges.foldl _ repairRow_only _ _
  have ht : OnlyChanges [.ras, .pwr] b.st (if out then leaveOut s tbl tgt else s) :=
    (hs.mono (by decide)).trans (.ite ((leaveOut_only _ _ _).mono (by decide)) (.refl _ _))
  refine ⟨if out then leaveOut s tbl tgt else s, _, _, _, rfl, ht .hm (by decide), ht .mbx (by decide), fun pass => ?_⟩
  have rows_nil : rows = [] := by simp only [rows, pass.rows, List.filter_nil]
  have spared : ∀ k, short k = false := by simp [short, rows_nil]
  have tbl_none : tbl = 0 := by simp only [tbl, spared]; decide
  have tgt_none : tgt = 0 := by simp only [tgt, spared]; decide
  have sound : bad = false := by simp [bad, tbl_none, tgt_none]
  rw [pass.core, pass.ctrl, sound]
  rfl

theorem Start.bist_mark (h : b.mark.Proceeds) : b.bist.mark = b.mark := by
  cases going : b.restart with
  | true => rw [show b.bist = b from if_pos going]
  | false =>
    obtain ⟨t, fails, degraded, detail, e, hm, -, pass⟩ := Start.bist_ended going
    have safe_or : b.safe = true ∨ fails = false := (h.resolve_left (by simp [Start.mark, going])).imp_right pass
    rw [e]
    refine (Start.ended_mark ?_).trans (Start.mark_withSt b ?_)
    · exact safe_or
    · exact hm

theorem Start.bist_mbx (pass : StepsPass b.env) : b.bist.st.mbx = b.st.mbx := by
  cases going : b.restart with
  | true => rw [show b.bist = b from if_pos going]
  | false =>
    obtain ⟨t, fails, degraded, detail, e, -, mbx, sound⟩ := Start.bist_ended going
    rw [e, sound pass]
    exact mbx

theorem Start.bist_proceeds (h : b.Proceeds) : b.bist.Proceeds := by
  have mark := Start.bist_mark h.marked
  rcases h with restart | safe | ⟨pass, staged⟩
  · exact .inl ((Start.restart_of_mark mark).trans restart)
  · exact .inr (.inl ((Start.safe_of_mark mark).trans safe))
  · refine .inr (.inr ⟨by rwa [show b.bist.env = b.env from Start.env_of_mark mark], ?_⟩)
    unfold State.Staged
    rw [Start.bist_mbx pass]
    exact staged

/-- The normal slot is found when both slots hold an image (R357). -/
theorem State.normalSlot_isSome {s : State} (h : s.Staged) : s.normalSlot.isSome = true := by
  have image : ∀ k, (s.mbx.fw.image k).isSome = true := fun k => by cases k <;> simp [FwUnit.image, h.1, h.2]
  unfold State.normalSlot
  simp [image]

theorem Start.slot_isSome (h : b.st.Staged) : b.slot.isSome = true := by
  have image : ∀ k, (b.st.mbx.fw.image k).isSome = true := fun k => by cases k <;> simp [FwUnit.image, h.1, h.2]
  unfold Start.slot
  split
  · split
    · exact State.normalSlot_isSome h
    · rw [if_pos (image _)]
      rfl
  · exact State.normalSlot_isSome h

theorem Start.firmware_mark (h : b.Proceeds) : b.firmware.mark = b.mark := by
  unfold Start.firmware
  split
  · rfl
  next going =>
    have kernel : ∀ (y : Start) (k : Bool), ({ y with st := startKernel y.st k } : Start).mark = y.mark := fun y k =>
      y.mark_withSt (startKernel_in (workClosed_starts _ _) _ _ y.st.starts).1
    have loaded : ∀ (next : Bool) (u : FwUnit), (if next then b.st.setFw u else b.st).hm = b.st.hm := by
      intro next u
      split <;> rfl
    cases slot : b.slot with
    | none =>
      have safe : b.safe = true := (h.resolve_left going).resolve_right fun ⟨_, staged⟩ => by
        simpa [slot] using Start.slot_isSome staged
      dsimp only
      refine (Start.mandatory_mark (fun y => kernel y _) ?_).trans rfl
      exact .inr (.inl safe)
    | some k =>
      dsimp only
      refine (Start.mandatory_mark (fun y => kernel y _) ?_).trans ?_
      · exact h.marked.imp_right (Or.imp_right StepsPass.step4)
      simp only [Start.mark, loaded]

theorem Start.initTables_mark (h : b.mark.Proceeds) : b.initTables.mark = b.mark := by
  unfold Start.initTables
  split
  · rfl
  next going =>
    extract_lets tbl tgt bad out b'
    have sound : StepsPass b.env → (b'.env.verifyCore || (bad && !out)) = false := by
      intro pass
      have tbl_none : tbl = 0 := by simp only [tbl, pass.tbl]; exact BitVec.zero_and
      have tgt_none : tgt = 0 := by simp only [tgt, pass.tgt]; exact BitVec.zero_and
      simp [b', pass.arrays, bad, tbl_none, tgt_none]
    have only : OnlyChanges [.pwr] b.st b'.st := .ite (leaveOut_only _ _ _) (.refl _ _)
    refine (Start.ended_mark ?_).trans (Start.mark_withSt b ?_)
    · exact (h.resolve_left going).imp_right sound
    · exact only .hm (by decide)

theorem Start.domains_mark (b : Start) : b.domains.mark = b.mark :=
  b.mark_withSt (in_foldl _ _ _ (fun t _ => State.setDom_in (workClosed_starts _ _).toChainClosed t _ _) b.st.starts).1

theorem Start.release_mark (b : Start) : b.release.mark = b.mark := by
  unfold Start.release
  split <;> rfl

theorem Start.train_mark (b : Start) (n : Nat) (p : PortId) (fate : PortFate) : (b.train n p fate).mark = b.mark := by
  have trained : ∀ half, (trainedPort b.st p fate half).hm = b.st.hm := fun half =>
    (trainedPort_in (workClosed_starts _ _).toChainClosed b.st p fate half b.st.starts).1
  unfold Start.train
  split
  · rfl
  · dsimp only
    split
    · rfl
    · rw [Start.note_mark]
      simp only [Start.mark, trained]

theorem Start.beads_mark (b : Start) : b.beads.mark = b.mark := by
  unfold Start.beads
  split <;> rfl

/-- Step 9 begins the frames, and its other work leaves the marks alone. -/
theorem Start.fastPath_work (b : Start) (cold : Bool) : ∃ work, b.fastPath cold = b.mandatory 9 b.env.step9 work ∧
    ∀ y, (work y).mark = y.mark ∧ (work y).st.frame.running = true := by
  refine ⟨_, rfl, fun y => ?_⟩
  have C := workClosed_starts y.st.hm true
  extract_lets s0 u1 s1 u2 s2 u3 s3 s4 s5 s6 u6
  have h1 : s1.Starts y.st.hm true := ⟨rfl, rfl⟩
  have h2 : s2.Starts y.st.hm true := in_ite (aloneMaster_starts h1) (h1.setFrame rfl)
  have h3 : s3.Starts y.st.hm true := h2.setFrame rfl
  have h4 : s4.Starts y.st.hm true := in_ite h3 (addResetTime_starts _ h3)
  have h5 : s5.Starts y.st.hm true := presentLevels_in C.toChainClosed _ (refreshLife_in C _ h4)
  have h6 : s6.Starts y.st.hm true := in_ite h5 (raiseSource_in C.toChainClosed _ _ h5)
  clear_value s6
  refine ⟨?_, h6.2⟩
  simp only [Start.mark, State.setHm_hm, u6, h6.1]

theorem Start.fastPath_mark (h : b.mark.Proceeds) (cold : Bool) : (b.fastPath cold).mark = b.mark := by
  obtain ⟨work, e, kept⟩ := b.fastPath_work cold
  rw [e]
  exact Start.mandatory_mark (fun y => (kept y).1) (h.imp_right (Or.imp_right StepsPass.step9))

/-- The frames run once step 9 has passed (R353). -/
theorem Start.fastPath_running (h : b.restart = false) (pass : b.env.step9 = .pass) (cold : Bool) :
    (b.fastPath cold).st.frame.running = true := by
  obtain ⟨work, e, kept⟩ := b.fastPath_work cold
  obtain ⟨o, noted⟩ := Start.mandatory_pass (n := 9) (work := work) h
  rw [e, pass, noted]
  exact (kept _).2

theorem Start.windows_mark (h : b.mark.Proceeds) : b.windows.mark = b.mark :=
  Start.mandatory_mark (fun _ => rfl) (h.imp_right (Or.imp_right StepsPass.step10))

/-- The block is READY once step 10 has passed, and its frames run on (R353). -/
theorem Start.windows_ready (h : b.restart = false) (pass : b.env.step10 = .pass) :
    b.windows.st.hm.ready = true ∧ b.windows.st.frame = b.st.frame := by
  unfold Start.windows
  obtain ⟨o, noted⟩ := Start.mandatory_pass (n := 10) (work := fun b => { b with st := b.st.setHm { b.st.hm with ready := true } }) h
  rw [pass, noted]
  exact ⟨rfl, rfl⟩

/-! ## The end of a start -/

/-- The record of a start stands first once it has ended, with its number and its cause (R358, R361); what steps 9 and
10 have begun goes on. -/
theorem Start.finish_ends (b : Start) : b.finish.mark = b.mark ∧ b.finish.st.frame = b.st.frame ∧
    b.finish.st.hm.ready = b.st.hm.ready ∧ b.finish.st.hm.step = 0xF ∧
    (b.finish.st.hm.records.head?).map (fun r => (r.startNo, r.cause)) = some (b.record.startNo, b.record.cause) := by
  unfold Start.finish
  dsimp only
  split
  · exact ⟨rfl, rfl, rfl, rfl, rfl⟩
  · generalize e : ({ b with record := _ } : Start) = b'
    obtain ⟨x, y, n, f, copied⟩ := b'.copyOut_changes
    rw [copied, ← e]
    exact ⟨rfl, rfl, rfl, rfl, rfl⟩

/-- Steps 3 to 10. -/
def Start.steps (b : Start) (env : StartEnv) (cold : Bool) : Start :=
  (((b.bist.firmware.initTables.domains.release.train 6 .east env.east).train 7 .west env.west).beads.fastPath cold).windows

theorem Start.toFastPath_mark (env : StartEnv) (h : b.Proceeds) :
    ((b.bist.firmware.initTables.domains.release.train 6 .east env.east).train 7 .west env.west).beads.mark = b.mark := by
  have m3 : b.bist.mark = b.mark := Start.bist_mark h.marked
  have m4 : b.bist.firmware.mark = b.mark := (Start.firmware_mark (Start.bist_proceeds h)).trans m3
  have m5 : b.bist.firmware.initTables.mark = b.mark := (Start.initTables_mark (m4 ▸ h.marked)).trans m4
  rw [Start.beads_mark, Start.train_mark, Start.train_mark, Start.release_mark, Start.domains_mark, m5]

/-- Steps 3 to 10 keep the marks of a start that proceeds. -/
theorem Start.steps_mark (env : StartEnv) (cold : Bool) (h : b.Proceeds) : (b.steps env cold).mark = b.mark := by
  have m8 := Start.toFastPath_mark env h
  have m9 := (Start.fastPath_mark (m8 ▸ h.marked) cold).trans m8
  exact (Start.windows_mark (m9 ▸ h.marked)).trans m9

/-- When every step passes, the frames run and the block is READY. -/
theorem Start.steps_ready (env : StartEnv) (cold : Bool) (h : b.restart = false) (pass : StepsPass b.env)
    (staged : b.st.Staged) : (b.steps env cold).st.frame.running = true ∧ (b.steps env cold).st.hm.ready = true := by
  have proceeds : b.Proceeds := .inr (.inr ⟨pass, staged⟩)
  have m8 := Start.toFastPath_mark env proceeds
  have m9 := (Start.fastPath_mark (m8 ▸ proceeds.marked) cold).trans m8
  have running := Start.fastPath_running ((Start.restart_of_mark m8).trans h)
    ((congrArg StartEnv.step9 (Start.env_of_mark m8)).trans pass.step9) cold
  obtain ⟨ready, frame⟩ := Start.windows_ready ((Start.restart_of_mark m9).trans h)
    ((congrArg StartEnv.step10 (Start.env_of_mark m9)).trans pass.step10)
  exact ⟨(congrArg FrameUnit.running frame).trans running, ready⟩

/-- What a start leaves: a block reset of its own when a step has failed (R354). -/
def Start.left (b : Start) : State := if b.restart then assertBlock b.st 2 else b.st

theorem Start.left_of_restart (h : b.restart = true) : b.left = assertBlock b.st 2 := if_pos h

theorem Start.left_of_going (h : b.restart = false) : b.left = b.st := if_neg (by simp [h])

/-- The straps of a start: sampled by a cold start, held by Locket otherwise (R296). -/
def startStraps (s : State) (env : StartEnv) (cold : Bool) : BitVec 16 :=
  if cold then (majority env.straps).1 else s.bead.strap

/-- The records that the attempts of a start count over: a cold start reads them from flash (R356, R360). -/
def startEarlier (s : State) (env : StartEnv) (cold : Bool) : List HmRecord :=
  if cold then ((readCopies s.hm env.flashBadA env.flashBadB).1.map FlashCopy.records).getD [] else s.hm.records

/-- The marks with which a start comes to step 2. -/
def openMark (s : State) (env : StartEnv) (cause : Byte) (cold : Bool) : StartMark where
  safe := false
  restart := false
  earlier := startEarlier s env cold
  env := env
  recordNo := s.hm.startNo + 1
  cause := cause
  inReset := none
  safeMin := s.hm.safeMin
  safeStep := s.hm.safeStep
  startNo := s.hm.startNo + 1

/-- A start that no strap forces into safe-minimum mode runs step 2 and the steps after it from its opening marks. -/
theorem runStart_opens (s : State) (env : StartEnv) (cause : Byte) (cold : Bool)
    (h : (startStraps s env cold).getLsbD 7 = false) :
    ∃ b : Start, b.mark = openMark s env cause cold ∧ b.st.mbx = s.mbx ∧
      runStart s env cause cold = ((b.mandatory 2 env.step2 Start.repair).steps env cold).finish.left := by
  unfold runStart
  extract_lets u1 s1 u2 s2 u3 s3 b0 b1 r b2 b3 b4 b5 b6 b7 b8 b9
  have strap : b1.st.bead.strap = startStraps s env cold := by
    cases cold
    · rfl
    · exact Start.locketUp_strap b0
  have mark : b1.mark = openMark s env cause cold := by
    cases cold
    · rfl
    · exact Start.locketUp_mark b0
  have mbx : b1.st.mbx = s.mbx := by
    cases cold
    · rfl
    · exact Start.locketUp_mbx b0
  have unforced : b3 = b2 := if_neg (by rw [show b2.st.bead.strap = _ from strap, h]; exact Bool.false_ne_true)
  refine ⟨b2.copyOut, b2.copyOut_mark.trans mark, b2.copyOut_mbx.trans mbx, ?_⟩
  rw [← unforced]
  rfl

/-- Steps 3 to 10 and the end of a start keep the marks of one that proceeds. -/
theorem Start.finished_mark (env : StartEnv) (cold : Bool) (h : b.Proceeds) : (b.steps env cold).finish.mark = b.mark :=
  (b.steps env cold).finish_ends.1.trans (Start.steps_mark env cold h)

/-- Step 2 when it passes. -/
theorem Start.step2_passes (h : b.restart = false) :
    (b.mandatory 2 .pass Start.repair).mark = b.mark ∧ (b.mandatory 2 .pass Start.repair).st.mbx = b.st.mbx := by
  obtain ⟨o, noted⟩ := Start.mandatory_pass (n := 2) (work := Start.repair) h
  rw [noted]
  exact ⟨rfl, rfl⟩

/-- Step 2 when it fails and its failure does not lead to safe-minimum mode (R356). -/
theorem Start.step2_restarts {d : BitVec 4} (h : b.restart = false) (safe : b.safe = false) (a : b.attempt 2 < 2) :
    (b.mandatory 2 (.fail d) Start.repair).restart = true := by
  obtain ⟨o, noted⟩ := Start.mandatory_fail (n := 2) (d := d) (work := Start.repair) h
  rw [noted, Start.fails_restarts]
  · exact safe
  · exact a

/-- Step 2 when it fails after two starts in which it failed (R356). -/
theorem Start.step2_enters {d : BitVec 4} (h : b.restart = false) (safe : b.safe = false) (a : 2 ≤ b.attempt 2) :
    (b.mandatory 2 (.fail d) Start.repair).mark = { b.mark with safe := true, safeMin := true, safeStep := 2 } := by
  obtain ⟨o, noted⟩ := Start.mandatory_fail (n := 2) (d := d) (work := Start.repair) h
  rw [noted, Start.fails_enters, Start.enterSafe_mark]
  · rfl
  · exact safe
  · exact a

theorem exec_resetRelease {env : StartEnv} {cause : Byte} {cold : Bool} {s : State} (h : s.hm.inReset = some (cause, cold)) :
    exec (.resetRelease env) s = .next (firstTick (runStart s env cause cold) env.tick) := by
  show execResetRelease env s = _
  unfold execResetRelease
  rw [h]

/-- The attempts of step 2 count over the records with which the start opens, and an FM restart counts none (R356, R365). -/
theorem attempt_of_opened {s : State} {env : StartEnv} {cause : Byte} {cold : Bool} (h : b.mark = openMark s env cause cold)
    (n : Nat) : b.attempt n = if cause = 4 then 0 else failures n (startEarlier s env cold) := by
  show (if b.mark.cause = 4 then 0 else failures n b.mark.earlier) = _
  rw [h]
  rfl

section
variable {s : State} {env : StartEnv} {cause : Byte} {cold : Bool} (reset : s.hm.inReset = some (cause, cold))
  (unforced : (startStraps s env cold).getLsbD 7 = false)
include reset unforced

/-- The start that the release of a reset runs: its marks before step 2, and what it leaves. -/
theorem exec_resetRelease_opens : ∃ (b : Start) (t : State), exec (.resetRelease env) s = .next t ∧
    b.mark = openMark s env cause cold ∧ b.st.mbx = s.mbx ∧
    t.Starts ((b.mandatory 2 env.step2 Start.repair).steps env cold).finish.left.hm
      ((b.mandatory 2 env.step2 Start.repair).steps env cold).finish.left.frame.running := by
  obtain ⟨b, opened, mbx, run⟩ := runStart_opens s env cause cold unforced
  exact ⟨b, _, exec_resetRelease reset, opened, mbx, run ▸ firstTick_starts env.tick (State.starts (runStart s env cause cold))⟩

theorem release_ready (outside : s.hm.safeMin = false) (step2 : env.step2 = .pass) (pass : StepsPass env) (staged : s.Staged) :
    ∃ t, exec (.resetRelease env) s = .next t ∧ t.hm.inReset = none ∧ t.hm.ready = true ∧ t.hm.safeMin = false ∧
      t.hm.step = 0xF ∧ t.frame.running = true ∧ t.hm.startNo = s.hm.startNo + 1 ∧
      (t.hm.records.head?).map (fun r => (r.startNo, r.cause)) = some (s.hm.startNo + 1, cause) := by
  obtain ⟨b0, t, released, opened, mbx0, hm, runs⟩ := exec_resetRelease_opens reset unforced
  obtain ⟨mark, mbx⟩ := Start.step2_passes (Start.restart_of_mark opened)
  rw [step2] at hm runs
  generalize b0.mandatory 2 .pass Start.repair = b at mark mbx hm runs
  have marked : b.mark = openMark s env cause cold := mark.trans opened
  have pass' : StepsPass b.env := by rwa [show b.env = env from Start.env_of_mark marked]
  have staged' : b.st.Staged := by
    unfold State.Staged
    rw [mbx, mbx0]
    exact staged
  obtain ⟨running, ready⟩ := Start.steps_ready env cold (Start.restart_of_mark marked) pass' staged'
  have stepped := (Start.steps_mark env cold (.inr (.inr ⟨pass', staged'⟩))).trans marked
  obtain ⟨kept, frame, ready', step, record⟩ := (b.steps env cold).finish_ends
  have ended := kept.trans stepped
  rw [Start.left_of_going (Start.restart_of_mark ended)] at hm runs
  refine ⟨t, released, ?_⟩
  rw [hm, runs, step, record, frame, ready']
  exact ⟨congrArg StartMark.inReset ended, ready, (congrArg StartMark.safeMin ended).trans outside, rfl, running,
    congrArg StartMark.startNo ended,
    congrArg some (Prod.ext (congrArg StartMark.recordNo stepped) (congrArg StartMark.cause stepped))⟩

theorem release_restarts {d : BitVec 4} (step2 : env.step2 = .fail d)
    (few : cause = 4 ∨ failures 2 (startEarlier s env cold) < 2) :
    ∃ t, exec (.resetRelease env) s = .next t ∧ t.hm.inReset = some (2, false) ∧ t.hm.ready = false ∧
      t.frame.running = false := by
  obtain ⟨b0, t, released, opened, -, hm, runs⟩ := exec_resetRelease_opens reset unforced
  have attempts : b0.attempt 2 < 2 := by
    rw [attempt_of_opened opened]
    split
    · decide
    next other => exact few.resolve_left other
  have restart := Start.step2_restarts (d := d) (Start.restart_of_mark opened) (Start.safe_of_mark opened) attempts
  rw [step2] at hm runs
  have ended := Start.finished_mark env cold (.inl restart)
  rw [Start.left_of_restart ((Start.restart_of_mark ended).trans restart)] at hm runs
  refine ⟨t, released, ?_⟩
  rw [hm, runs]
  exact ⟨rfl, rfl, rfl⟩

theorem release_safeMin {d : BitVec 4} (step2 : env.step2 = .fail d) (other : cause ≠ 4)
    (many : 2 ≤ failures 2 (startEarlier s env cold)) :
    ∃ t, exec (.resetRelease env) s = .next t ∧ t.hm.safeMin = true ∧ t.hm.safeStep = 2 := by
  obtain ⟨b0, t, released, opened, -, hm, -⟩ := exec_resetRelease_opens reset unforced
  have attempts : 2 ≤ b0.attempt 2 := by
    rw [attempt_of_opened opened, if_neg other]
    exact many
  have mark := Start.step2_enters (d := d) (Start.restart_of_mark opened) (Start.safe_of_mark opened) attempts
  rw [step2] at hm
  have ended := (Start.finished_mark env cold (.inr (.inl (Start.safe_of_mark mark)))).trans mark
  rw [Start.left_of_going ((Start.restart_of_mark ended).trans (Start.restart_of_mark opened))] at hm
  refine ⟨t, released, ?_⟩
  rw [hm]
  exact ⟨congrArg StartMark.safeMin ended, congrArg StartMark.safeStep ended⟩

end

theorem startRuns : Claims.StartRuns := by
  intro env cause cold s reset outside strap copies earlier unforced
  refine ⟨fun step2 rows core ctrl step4 tbl tgt arrays step9 step10 staged => ?_, fun d step2 few => ?_,
    fun d step2 other many => ?_⟩
  · exact release_ready reset unforced outside step2 ⟨rows, core, ctrl, step4, tbl, tgt, arrays, step9, step10⟩ staged
  · exact release_restarts reset unforced step2 few
  · exact release_safeMin reset unforced step2 other many

/-- Settles O58: what resets clear and keep, by the state that each writes; the start, by the marks that its steps keep
unless a mandatory step fails outside safe-minimum mode. -/
theorem resetAndStart : Obligations.ResetAndStart :=
  ⟨resetValues, coldResetClears, blockResetKeepsLocket, fmRestartResets, startRuns⟩

end Sys2Proof.Machine
end

section
/-! The period request of the FM (R29 to R31, R323). -/
namespace Sys2Proof.Machine
open Sys2Proof

/-- A register write of the FM on the page of the frame. -/
theorem writeWord_framePage {s : State} {p : Path} {off : Nat} {data : W32} (f : pathFm p = true) (l : 0x2000 ≤ off)
    (u : off < 0x2024) : writeWord s p off data = writeFramePage s (off - 0x2000) data := by
  unfold writeWord
  rw [if_neg (by omega), if_neg (by omega), if_neg (by omega), pathFm_none f]
  dsimp only
  rw [if_neg (by omega), if_neg (by omega), if_pos ⟨l, u⟩]

/-- A served write of MW_FRAME_PERIOD by the FM (R30). -/
theorem exec_periodRequest {p : Path} {data : W32} {s : State} (f : pathFm p = true)
    (h : s.Serves (wordWrite p 0x2000 data)) : exec (.periodRequest p data) s = .next (writePeriod s data) :=
  congrArg Host.Outcome.next ((fmWrite4_serves f h (by decide) (by decide) rfl (by decide)).trans
    (writeWord_framePage f (by decide) (by decide)))

/-- The period that a write of MW_FRAME_PERIOD requests. -/
def requestedPeriod (data : W32) : BitVec 13 := field data 0 13

/-- The periods of R29. -/
def LegalPeriod (f : BitVec 13) : Prop := 256 ≤ f.toNat ∧ f.toNat ≤ 6400 ∧ f.toNat % 32 = 0

/-- The chip sets its own period: it is alone, or tick master of its ring (R30). -/
def State.LeadsPeriod (s : State) : Prop := s.alone = true ∨ s.frame.isMaster = true

section
variable {s : State} {data : W32}

theorem writePeriod_illegal (h : ¬ LegalPeriod (requestedPeriod data)) :
    writePeriod s data = s.setFrame { s.frame with periodRefused := true, refuseReason := 1 } := by
  unfold LegalPeriod requestedPeriod at h
  unfold writePeriod
  exact if_pos (by omega)

/-- A chip that follows another refuses a legal period (R30). -/
theorem writePeriod_following (legal : LegalPeriod (requestedPeriod data)) (alone : s.alone = false)
    (master : s.frame.isMaster = false) :
    writePeriod s data = s.setFrame { s.frame with periodRefused := true, refuseReason := 2 } := by
  unfold LegalPeriod requestedPeriod at legal
  unfold writePeriod
  dsimp only
  rw [if_neg (by omega), if_pos (by simp [alone, master])]

section
variable (legal : LegalPeriod (requestedPeriod data)) (leads : s.LeadsPeriod)
include legal leads

/-- What a leading chip does with a legal period turns on the pending change and on the period in force. -/
theorem writePeriod_leading : writePeriod s data =
    if s.frame.changePending then s.setFrame { s.frame with periodRefused := true, refuseReason := 3 }
    else if requestedPeriod data = s.frame.current then s.setFrame { s.frame with request := requestedPeriod data }
    else if s.works dCORE then s.setFrame { s.frame with
      request := requestedPeriod data, changePending := true, ticksLeft := 32, applyFrame := s.frameLo + 32 }
    else s.setFrame { s.frame with
      request := requestedPeriod data, changePending := true, ticksLeft := 33, applyFrame := 0, acceptedAsleep := true } := by
  unfold LegalPeriod requestedPeriod at legal
  have leads' : ¬ (!s.alone && !s.frame.isMaster) = true := by
    rcases leads with h | h <;> simp [h]
  unfold writePeriod
  dsimp only
  rw [if_neg (by omega), if_neg leads']
  rfl

theorem writePeriod_pending (pending : s.frame.changePending = true) :
    writePeriod s data = s.setFrame { s.frame with periodRefused := true, refuseReason := 3 } := by
  rw [writePeriod_leading legal leads, if_pos pending]

variable (free : s.frame.changePending = false)
include free

theorem writePeriod_inForce (same : requestedPeriod data = s.frame.current) :
    writePeriod s data = s.setFrame { s.frame with request := requestedPeriod data } := by
  rw [writePeriod_leading legal leads, if_neg (by simp [free]), if_pos same]

variable (new : requestedPeriod data ≠ s.frame.current)
include new

/-- A new period waits for the 32nd tick (R31). -/
theorem writePeriod_awake (works : s.works dCORE = true) : writePeriod s data = s.setFrame { s.frame with
    request := requestedPeriod data, changePending := true, ticksLeft := 32, applyFrame := s.frameLo + 32 } := by
  rw [writePeriod_leading legal leads, if_neg (by simp [free]), if_neg new, if_pos works]

/-- While CORE makes no frames the first tick after is counted as well (R323). -/
theorem writePeriod_asleep (works : s.works dCORE = false) : writePeriod s data = s.setFrame { s.frame with
    request := requestedPeriod data, changePending := true, ticksLeft := 33, applyFrame := 0, acceptedAsleep := true } := by
  rw [writePeriod_leading legal leads, if_neg (by simp [free]), if_neg new, if_neg (by simp [works])]

end
end

/-- Settles O24: the write reaches the period register, and each case of R30 and R31 is one equation of that register's
write. -/
theorem periodRequestAccepted : Obligations.PeriodRequestAccepted := by
  intro p data s f h
  have run := exec_periodRequest f h
  refine ⟨fun legal leads free new => ?_, fun legal leads free same => ?_, fun illegal => ?_,
    fun legal alone master => ?_, fun legal leads pending => ?_⟩
  · cases works : s.works dCORE with
    | true =>
      obtain ⟨t, next, frame, only⟩ := next_frame (run.trans (congrArg _ (writePeriod_awake legal leads free new works)))
      exact ⟨t, next, fun _ => frame, fun asleep => absurd asleep (by simp), only⟩
    | false =>
      obtain ⟨t, next, frame, only⟩ := next_frame (run.trans (congrArg _ (writePeriod_asleep legal leads free new works)))
      exact ⟨t, next, fun awake => absurd awake (by simp), fun _ => frame, only⟩
  · exact next_frame (run.trans (congrArg _ (writePeriod_inForce legal leads free same)))
  · exact next_frame (run.trans (congrArg _ (writePeriod_illegal illegal)))
  · exact next_frame (run.trans (congrArg _ (writePeriod_following legal alone master)))
  · exact next_frame (run.trans (congrArg _ (writePeriod_pending legal leads pending)))

end Sys2Proof.Machine
end

section
/-! The clock of the frames: what the work of a frame leaves alone of it, what a tick and the stop instant make of it
(R26 to R32, R314, R322). -/
namespace Sys2Proof.Machine
open Sys2Proof

/-! ## The clock -/

/-- What a tick counts. -/
structure FrameTime where
  count       : W64
  localTicks  : Nat
  timeCycles  : W64
  sleepErrNs  : W64
  sleeps      : W32
  running     : Bool

def FrameUnit.time (u : FrameUnit) : FrameTime where
  count := u.count
  localTicks := u.localTicks
  timeCycles := u.timeCycles
  sleepErrNs := u.sleepErrNs
  sleeps := u.sleeps
  running := u.running

/-- What is counted, and the periods and the slew by which it is counted. -/
structure FrameClock where
  time          : FrameTime
  current       : BitVec 13
  request       : BitVec 13
  changePending : Bool
  ticksLeft     : Nat
  oldPeriod     : Option (BitVec 13)
  adjust        : Int
  stopPeriod    : BitVec 13

def FrameUnit.clock (u : FrameUnit) : FrameClock where
  time := u.time
  current := u.current
  request := u.request
  changePending := u.changePending
  ticksLeft := u.ticksLeft
  oldPeriod := u.oldPeriod
  adjust := u.adjust
  stopPeriod := u.stopPeriod

/-- From `s` to `t` the clock of the frames stands, no period of a marker has come, and the record of a sleep, the waiting
accesses, the Hallmark unit, the boundary and the queue of commands are the same. -/
structure SameClock (s t : State) : Prop where
  clock     : t.frame.clock = s.frame.clock
  unmarked  : s.frame.followPeriod = none → t.frame.followPeriod = none
  firstTick : t.pwr.firstTick = s.pwr.firstTick
  stopCal   : t.pwr.stopCal = s.pwr.stopCal
  waiting   : t.pwr.waiting = s.pwr.waiting
  hm        : t.hm = s.hm
  bnd       : t.bnd = s.bnd
  pending   : t.pending = s.pending

section
variable {s t u : State}

theorem SameClock.refl (s : State) : SameClock s s := ⟨rfl, id, rfl, rfl, rfl, rfl, rfl, rfl⟩

theorem SameClock.trans (h : SameClock s t) (k : SameClock t u) : SameClock s u where
  clock := k.clock.trans h.clock
  unmarked := k.unmarked ∘ h.unmarked
  firstTick := k.firstTick.trans h.firstTick
  stopCal := k.stopCal.trans h.stopCal
  waiting := k.waiting.trans h.waiting
  hm := k.hm.trans h.hm
  bnd := k.bnd.trans h.bnd
  pending := k.pending.trans h.pending

theorem SameClock.setFrame {v : FrameUnit} (h : SameClock s t) (clock : v.clock = t.frame.clock)
    (unmarked : t.frame.followPeriod = none → v.followPeriod = none) : SameClock s (t.setFrame v) :=
  { h with clock := clock.trans h.clock, unmarked := unmarked ∘ h.unmarked }

theorem SameClock.time (h : SameClock s t) : t.frame.time = s.frame.time := congrArg FrameClock.time h.clock
theorem SameClock.count (h : SameClock s t) : t.frame.count = s.frame.count := congrArg FrameTime.count h.time
theorem SameClock.current (h : SameClock s t) : t.frame.current = s.frame.current := congrArg FrameClock.current h.clock
theorem SameClock.request (h : SameClock s t) : t.frame.request = s.frame.request := congrArg FrameClock.request h.clock
theorem SameClock.changePending (h : SameClock s t) : t.frame.changePending = s.frame.changePending :=
  congrArg FrameClock.changePending h.clock
theorem SameClock.ticksLeft (h : SameClock s t) : t.frame.ticksLeft = s.frame.ticksLeft :=
  congrArg FrameClock.ticksLeft h.clock
theorem SameClock.stopPeriod (h : SameClock s t) : t.frame.stopPeriod = s.frame.stopPeriod :=
  congrArg FrameClock.stopPeriod h.clock

theorem SameClock.frameLength (h : SameClock s t) : Claims.frameLength t.frame = Claims.frameLength s.frame := by
  have old : t.frame.oldPeriod = s.frame.oldPeriod := congrArg FrameClock.oldPeriod h.clock
  have slew : t.frame.adjust = s.frame.adjust := congrArg FrameClock.adjust h.clock
  unfold Claims.frameLength
  rw [old, slew, h.current]

end

/-- The work of a frame leaves the clock alone. -/
theorem workClosed_sameClock (s : State) : WorkClosed (SameClock s) where
  chain h := { h with }
  sys h := { h with }
  pwr h firstTick stopCal waiting := { h with
    firstTick := firstTick.trans h.firstTick, stopCal := stopCal.trans h.stopCal, waiting := waiting.trans h.waiting }
  intake h := { h with }
  vec h := { h with }
  tgt h := { h with }
  ten h := { h with }
  mbx h := { h with }
  acu h := { h with }
  bead h := { h with }
  ras h := { h with }
  loupe h := { h with }
  use h := h.setFrame rfl id
  time h := h.setFrame rfl id

/-! ## Before FRAME_COUNT increments -/

section
variable {s t : State}

theorem becomeMaster_sameClock (h : SameClock s t) : SameClock s (becomeMaster t) := h.setFrame rfl fun _ => rfl

theorem markerTimeout_sameClock (h : SameClock s t) : SameClock s (markerTimeout t) := by
  have cleared : SameClock s (t.setFrame { t.frame with tickLocked := false, lockRun := 0, lockedFrames := 0 }) :=
    h.setFrame rfl id
  exact in_ite (in_ite (becomeMaster_sameClock cleared) cleared) h

theorem handover_sameClock (h : SameClock s t) : SameClock s (handover t) := in_ite (becomeMaster_sameClock h) h

/-- The alignment of a tick changes neither the count nor a period (R49). -/
theorem tickAlign_sameClock (h : SameClock s t) : SameClock s (tickAlign t) := by
  unfold tickAlign
  refine in_ite ((becomeMaster_sameClock h).setFrame rfl id) (SameClock.setFrame (in_ite ?_ ?_) rfl id)
  · exact h.setFrame rfl id
  · exact handover_sameClock (markerTimeout_sameClock h)

theorem withdraw_sameClock (e : Emitted) (h : SameClock s t) : SameClock s (withdraw t e) := by
  have C := workClosed_sameClock s
  have counted := State.count_in C _ 9 1 (raiseSource_in C.toChainClosed _ 0x279
    (h.setFrame (v := { t.frame with withdrawn := true, withdrawnCount := satInc t.frame.withdrawnCount }) rfl id))
  unfold withdraw
  cases e.reissue with
  | none => exact State.clearBusyNext_in C _ _ counted
  | some n => exact State.modTenant_in C _ _ _ counted

/-- The issue deadline changes neither the count nor a period (R34). -/
theorem deadline_sameClock (h : SameClock s t) : SameClock s (deadline t) := by
  have C := workClosed_sameClock s
  have asked : SameClock s (if t.tgt.emitted.isEmpty then t else exceed t) := in_ite h (exceed_in C t h)
  exact C.tgt (in_foldl _ withdraw _ (fun _ e k => withdraw_sameClock e k) asked)

theorem countFrame_sameClock (late : Bool) (h : SameClock s t) : SameClock s (countFrame t late) := by
  have C := workClosed_sameClock s
  unfold countFrame
  extract_lets u r excess r'
  have waited : SameClock s r := in_ite h (C.tgt h)
  have begun : SameClock s r' := C.use waited
  exact in_ite (raiseSource_in C.toChainClosed _ 0x278 (begun.setFrame rfl id)) begun

/-- A tick up to the increment of FRAME_COUNT. -/
def beforeTick (s : State) (inp : TickIn) : State :=
  countFrame (loupeShadow (advanceLoads (deadline (tickAlign (inp.upsets.foldl upset s))))) inp.budgetOver

theorem beforeTick_sameClock (s : State) (inp : TickIn) : SameClock s (beforeTick s inp) := by
  have C := workClosed_sameClock s
  have hit : SameClock s (inp.upsets.foldl upset s) := in_foldl _ _ _ (fun t u => upset_in C t u) (.refl s)
  exact countFrame_sameClock _ (loupeShadow_in C _ (advanceLoads_in C _ (deadline_sameClock (tickAlign_sameClock hit))))

/-! ## The increment, and the work after it -/

/-- A frame ends and the next begins (R26). -/
def nextFrame (s : State) : State := (endFrame s).setFrame { (endFrame s).frame with count := s.frame.count + 1 }

/-- A local tick is counted (R28), and the intake window follows its registers. -/
def countTick (s : State) : State := openWindow (s.setFrame { s.frame with localTicks := s.frame.localTicks + 1 })

/-- The work of a tick between its period and its pass. -/
def tickWork (s : State) : State :=
  loupeTick (showEntries (tickSweeps (tickTenants (tickTimers (tickClasp (clearBusy (coldLevels s)))))))

theorem tickFront_awake (inp : TickIn) (h : s.pwr.firstTick = none) :
    tickFront s inp = tickWork (tickPeriod (countTick (nextFrame (beforeTick s inp)))) := by
  have awake : (beforeTick s inp).pwr.firstTick = none := (beforeTick_sameClock s inp).firstTick.trans h
  unfold beforeTick at awake ⊢
  unfold tickFront
  dsimp only
  rw [awake]
  rfl

theorem tickFront_woken (inp : TickIn) {l : BitVec 48} (h : s.pwr.firstTick = some l) :
    tickFront s inp = tickWork (tickPeriod (countTick (wakeTick (beforeTick s inp) l))) := by
  have woken : (beforeTick s inp).pwr.firstTick = some l := (beforeTick_sameClock s inp).firstTick.trans h
  unfold beforeTick at woken ⊢
  unfold tickFront
  dsimp only
  rw [woken]
  rfl

theorem tickWork_sameClock (s : State) : SameClock s (tickWork s) := by
  have C := workClosed_sameClock s
  exact loupeTick_in C _ <| showEntries_in C _ <| tickSweeps_in C _ <| tickTenants_in C _ <| tickTimers_in C _ <|
    tickClasp_in C _ <| clearBusy_in C _ <| coldLevels_in C _ (.refl s)

/-- The pass and what follows it leave the clock as the first steps of the tick set it. -/
theorem tick_sameClock (s : State) (inp : TickIn) : SameClock (tickFront s inp) (tick s inp) := by
  have C := workClosed_sameClock (tickFront s inp)
  have released := releaseNotices_in C _ (.refl (tickFront s inp))
  have passed := tickBack_in C s.tgt _ inp
    (in_ite (c := s.pwr.firstTick.isSome = true) released (.refl (tickFront s inp)))
  exact in_ite (wakeNotice_in C _ passed) passed

theorem tick_awake (inp : TickIn) (h : s.pwr.firstTick = none) :
    SameClock (tickPeriod (countTick (nextFrame (beforeTick s inp)))) (tick s inp) :=
  (tickWork_sameClock _).trans (tickFront_awake inp h ▸ tick_sameClock s inp)

theorem tick_woken (inp : TickIn) {l : BitVec 48} (h : s.pwr.firstTick = some l) :
    SameClock (tickPeriod (countTick (wakeTick (beforeTick s inp) l))) (tick s inp) :=
  (tickWork_sameClock _).trans (tickFront_woken inp h ▸ tick_sameClock s inp)

/-! ## The period at a tick (R29, R31) -/

theorem tickPeriod_due (pending : s.frame.changePending = true) (due : s.frame.ticksLeft ≤ 1) :
    tickPeriod s = s.setFrame (applyPeriod s.frame) := by
  unfold tickPeriod
  rw [if_pos pending, if_pos due]

theorem tickPeriod_counts (pending : s.frame.changePending = true) (early : 1 < s.frame.ticksLeft) :
    tickPeriod s = s.setFrame { s.frame with
      ticksLeft := s.frame.ticksLeft - 1, current := s.frame.followPeriod.getD s.frame.current, followPeriod := none } := by
  unfold tickPeriod
  rw [if_pos pending, if_neg (by omega)]

theorem tickPeriod_stands (free : s.frame.changePending = false) (unmarked : s.frame.followPeriod = none) :
    tickPeriod s = s := by
  unfold tickPeriod
  rw [if_neg (by simp [free]), unmarked]

/-- The period of a tick changes only the frame's registers, and nothing that is counted. -/
theorem tickPeriod_time (s : State) : (tickPeriod s).frame.time = s.frame.time ∧ OnlyChanges [.frame] s (tickPeriod s) := by
  unfold tickPeriod
  dsimp only
  split
  · split <;> exact ⟨rfl, setFrame_only _⟩
  · split
    · exact ⟨rfl, setFrame_only _⟩
    · exact ⟨rfl, .refl _ _⟩

/-- What stands beside the clock from before a tick to its end. -/
theorem tick_beside {a b : State} (begun : SameClock s a) (ended : SameClock (tickPeriod b) t) (hm : b.hm = a.hm)
    (bnd : b.bnd = a.bnd) (queue : b.pending = a.pending) (waiting : b.pwr.waiting = a.pwr.waiting) :
    t.hm = s.hm ∧ t.bnd = s.bnd ∧ t.pending = s.pending ∧ t.pwr.waiting = s.pwr.waiting := by
  have only := (tickPeriod_time b).2
  have power : (tickPeriod b).pwr = b.pwr := only .pwr (by decide)
  refine ⟨?_, ?_, ?_, ?_⟩
  · rw [ended.hm, show (tickPeriod b).hm = b.hm from only .hm (by decide), hm, begun.hm]
  · rw [ended.bnd, show (tickPeriod b).bnd = b.bnd from only .bnd (by decide), bnd, begun.bnd]
  · rw [ended.pending, show (tickPeriod b).pending = b.pending from only .pending (by decide), queue, begun.pending]
  · rw [ended.waiting, power, waiting, begun.waiting]

end

/-! ## The tick -/

section
variable {inp : TickIn} {s : State} (reset : s.hm.inReset = none) (powered : s.hm.powerOff = false)
  (running : s.frame.running = true)
include reset powered running

/-- The frame period of a running chip expires. -/
theorem exec_frameTick : exec (.frameTick inp) s =
    .next (if s.stopping then stopInstant s else if s.coreOn then resume (tick s inp) else s) := by
  show execFrameTick inp s = _
  unfold execFrameTick
  rw [if_neg (by simp [reset, powered, running])]

theorem exec_frameTick_stopping (stopping : s.stopping = true) : exec (.frameTick inp) s = .next (stopInstant s) := by
  rw [exec_frameTick reset powered running, if_pos stopping]

variable (going : s.stopping = false)
include going

theorem exec_frameTick_asleep (off : s.coreOn = false) : exec (.frameTick inp) s = .next s := by
  rw [exec_frameTick reset powered running, if_neg (by simp [going]), if_neg (by simp [off])]

theorem exec_frameTick_on (on : s.coreOn = true) (settled : (tick s inp).pwr.waiting = []) :
    exec (.frameTick inp) s = .next (tick s inp) := by
  rw [exec_frameTick reset powered running, if_neg (by simp [going]), if_pos on, resume_none settled]

end

theorem frameTicked : Claims.FrameTicked := by
  intro inp s reset powered running going on awake waiting
  have begun := beforeTick_sameClock s inp
  have ended := tick_awake inp awake
  generalize beforeTick s inp = b at begun ended
  obtain ⟨hm, bnd, queue, still⟩ := tick_beside begun ended rfl rfl rfl rfl
  have time : (tick s inp).frame.time = (countTick (nextFrame b)).frame.time := ended.time.trans (tickPeriod_time _).1
  refine ⟨tick s inp, exec_frameTick_on reset powered running going on (still.trans waiting), ?_, ?_, ?_,
    fun pending due => ?_, fun pending early => ?_, fun free unmarked => ?_, ?_, hm, bnd, queue⟩
  · exact (congrArg FrameTime.count time).trans (congrArg (· + 1) begun.count)
  · exact (congrArg FrameTime.localTicks time).trans (congrArg (·.localTicks + 1) begun.time)
  · refine (congrArg FrameTime.timeCycles time).trans ?_
    show b.frame.timeCycles + Claims.frameLength b.frame = _
    rw [begun.frameLength, show b.frame.timeCycles = s.frame.timeCycles from congrArg FrameTime.timeCycles begun.time]
  · rw [tickPeriod_due (s := countTick (nextFrame b)) (begun.changePending.trans pending)
      (begun.ticksLeft ▸ due)] at ended
    exact ⟨ended.current.trans begun.request, ended.changePending⟩
  · rw [tickPeriod_counts (s := countTick (nextFrame b)) (begun.changePending.trans pending)
      (begun.ticksLeft ▸ early)] at ended
    refine ⟨ended.changePending.trans (begun.changePending.trans pending),
      ended.ticksLeft.trans (congrArg (· - 1) begun.ticksLeft), fun unmarked => ended.current.trans ?_⟩
    show b.frame.followPeriod.getD b.frame.current = _
    rw [begun.unmarked unmarked]
    exact begun.current
  · rw [tickPeriod_stands (s := countTick (nextFrame b)) (begun.changePending.trans free)
      (begun.unmarked unmarked)] at ended
    exact ended.current.trans begun.current
  · exact (congrArg FrameTime.running time).trans ((congrArg FrameTime.running begun.time).trans running)

/-! ## The first tick after a sleep (R322, R323) -/

theorem firstTickCounts : Claims.FirstTickCounts := by
  intro inp l s reset powered running going on woken waiting g
  have begun := beforeTick_sameClock s inp
  have ended := tick_woken inp woken
  generalize beforeTick s inp = b at begun ended
  obtain ⟨hm, bnd, queue, still⟩ := tick_beside begun ended rfl rfl rfl rfl
  have time : (tick s inp).frame.time = (countTick (wakeTick b l)).frame.time := ended.time.trans (tickPeriod_time _).1
  have slept : sleepCycles l.toNat b.pwr.stopCal.toNat = g := by rw [begun.stopCal]
  refine ⟨tick s inp, exec_frameTick_on reset powered running going on (still.trans waiting), ?_, ?_, ?_, ?_,
    hm, bnd, queue⟩
  · refine (congrArg FrameTime.count time).trans ?_
    show b.frame.count + 1 + BitVec.ofNat 64 (sleepCycles l.toNat b.pwr.stopCal.toNat / b.frame.stopPeriod.toNat) = _
    rw [slept, begun.count, begun.stopPeriod]
  · refine (congrArg FrameTime.timeCycles time).trans ?_
    show b.frame.time.timeCycles + BitVec.ofNat 64 (sleepCycles l.toNat b.pwr.stopCal.toNat) = _
    rw [slept, begun.time]
    rfl
  · refine (congrArg FrameTime.sleepErrNs time).trans ?_
    show b.frame.time.sleepErrNs + BitVec.ofNat 64 (sleepBound (sleepCycles l.toNat b.pwr.stopCal.toNat)) = _
    rw [slept, begun.time]
    rfl
  · exact (congrArg FrameTime.sleeps time).trans (congrArg (·.sleeps + 1) begun.time)

/-! ## The stop instant (R314) -/

section
variable (s : State)

theorem withdraw_only (e : Emitted) : OnlyChanges [.frame, .sys, .pwr, .loupe, .tgt, .ten] s (withdraw s e) := by
  unfold withdraw
  extract_lets u r r'
  have raised : OnlyChanges [.frame, .sys, .pwr, .loupe] s r' :=
    ((setFrame_only _).mono (by decide)).trans <| ((raiseSource_only r 0x279).mono (by decide)).trans <|
      (count_only _ _).mono (by decide)
  cases e.reissue with
  | none => exact (raised.mono (by decide)).trans ((clearBusyNext_only _).mono (by decide))
  | some n => exact (raised.mono (by decide)).trans ((modTenant_only _ _).mono (by decide))

theorem deadline_only : OnlyChanges [.frame, .sys, .pwr, .loupe, .tgt, .ten] s (deadline s) := by
  have asked : OnlyChanges [.frame] s (if s.tgt.emitted.isEmpty then s else exceed s) := .ite (.refl _ _) (setUse_only _)
  exact (asked.mono (by decide)).trans <| (OnlyChanges.foldl withdraw withdraw_only _ _).trans <|
    (setTgt_only _).mono (by decide)

/-- The count of a frame's end leaves the decisions alone. -/
theorem countFrame_effect (late : Bool) : (countFrame s late).tgt.emitted = s.tgt.emitted ∧
    OnlyChanges [.tgt, .frame, .sys, .pwr] s (countFrame s late) := by
  unfold countFrame
  extract_lets u r excess r'
  have waited : r.tgt.emitted = s.tgt.emitted ∧ OnlyChanges [.tgt] s r := by
    unfold r
    split
    · exact ⟨rfl, .refl _ _⟩
    · exact ⟨rfl, setTgt_only _⟩
  have begun : OnlyChanges [.tgt, .frame, .sys, .pwr] s r' :=
    (waited.2.mono (by decide)).trans ((setUse_only _).mono (by decide))
  split
  · have raised := raiseSource_only
      (r'.setFrame { r'.frame with budgetOver := true, overCount := satInc r'.frame.overCount }) 0x278
    exact ⟨(congrArg TgtUnit.emitted (raised .tgt (by decide))).trans waited.1,
      begun.trans (((setFrame_only _).mono (by decide)).trans (raised.mono (by decide)))⟩
  · exact ⟨waited.1, begun⟩

/-- The work of the frame that the stop instant ends. -/
def stopWork : State := countFrame (deadline s) false

theorem stopWork_sameClock : SameClock s (stopWork s) := countFrame_sameClock false (deadline_sameClock (.refl s))

/-- No decision is left. -/
theorem stopWork_emitted : (stopWork s).tgt.emitted = [] := (countFrame_effect (deadline s) false).1

theorem stopInstant_only : OnlyChanges [.frame, .tgt, .ten, .sys, .pwr, .loupe] s (stopInstant s) := by
  have worked : OnlyChanges [.frame, .tgt, .ten, .sys, .pwr, .loupe] s (stopWork s) :=
    ((deadline_only s).mono (by decide)).trans ((countFrame_effect (deadline s) false).2.mono (by decide))
  have ended : OnlyChanges [.frame, .tgt, .ten, .sys, .pwr, .loupe] (stopWork s) (endFrame (stopWork s)) :=
    (setFrame_only _).mono (by decide)
  exact worked.trans <| ended.trans <| ((setFrame_only _).mono (by decide)).trans ((setPwr_only _).mono (by decide))

end

theorem framesStop : Claims.FramesStop := by
  intro inp s reset powered running
  refine ⟨fun stopping => ?_, exec_frameTick_asleep reset powered running⟩
  have worked := stopWork_sameClock s
  refine ⟨stopInstant s, exec_frameTick_stopping reset powered running stopping, rfl, rfl, stopWork_emitted s, worked.count,
    worked.current, ?_, stopInstant_only s⟩
  show (stopWork s).frame.time.timeCycles + Claims.frameLength (stopWork s).frame = _
  rw [worked.frameLength, worked.time]
  rfl

/-- Settles O57: the work of a frame leaves its clock alone, so a tick changes the clock only where it ends the frame,
counts and takes the period, and the stop instant only where it ends the frame. -/
theorem frameTicks : Obligations.FrameTicks := ⟨frameTicked, firstTickCounts, framesStop⟩

end Sys2Proof.Machine
end

section
/-! Registers of the manager window: INTAKE_BASE, the tenants' weights, the view selectors, the injection of errors and the
histograms (R55, R62, R347, R350, R379). -/
namespace Sys2Proof.Machine
open Sys2Proof

/-! ## INTAKE_BASE (R55) -/

/-- A served write of a half of INTAKE_BASE by the FM. -/
theorem exec_intakeBaseWrite {p : Path} {high : Bool} {data : W32} {s : State} (f : pathFm p = true)
    (h : s.Serves (wordWrite p (if high then 0x300C else 0x3008) data)) :
    exec (.intakeBaseWrite p high data) s = .next (writeIntakeBase s high data) := by
  refine congrArg Host.Outcome.next ?_
  cases high with
  | true => exact fmPage (pg := .intake) (base := 0x3000) f h (by decide) (by decide) (by decide) (by decide) rfl
  | false => exact fmPage (pg := .intake) (base := 0x3000) f h (by decide) (by decide) (by decide) (by decide) rfl

theorem writeIntakeBase_closed {s : State} (closed : s.intake.windowEn = false) (high : Bool) (data : W32) :
    writeIntakeBase s high data = s.setIntake { s.intake with base :=
      if high then data ++ (field s.intake.base 0 32 : W32)
      else (field s.intake.base 32 32 : W32) ++ (data &&& 0xFFC00000) } :=
  if_neg (by simp [closed])

theorem writeIntakeBase_open {s : State} (opened : s.intake.windowEn = true) (high : Bool) (data : W32) :
    writeIntakeBase s high data = s.setIntake { s.intake with baseRefused := true } :=
  if_pos opened

/-- Settles O47: a write reaches the half of the register, which the open window alone refuses; both resets leave the
intake as it is after reset. -/
theorem intakeBaseWritten : Obligations.IntakeBaseWritten := by
  refine ⟨fun p high data s f h => ⟨fun closed => ?_, fun opened => ?_⟩, fun s => ⟨⟨_, rfl, rfl, rfl⟩, fun free => ?_⟩⟩
  · exact next_intake ((exec_intakeBaseWrite f h).trans (congrArg _ (writeIntakeBase_closed closed high data)))
  · exact next_intake ((exec_intakeBaseWrite f h).trans (congrArg _ (writeIntakeBase_open opened high data)))
  · exact ⟨_, execBlockReset_asserts s free, rfl, rfl⟩

/-! ## Weights (R62) -/

/-- The weight registers follow one another, four bytes each. -/
theorem writeIntakePage_weight (s : State) (n : Tenant) (data : W32) :
    writeIntakePage s (0x100 + 4 * n.toNat) data = writeWeight s n data := by
  have small := n.isLt
  have tenant : BitVec.ofNat 6 ((0x100 + 4 * n.toNat - 0x100) / 4) = n := by
    rw [show (0x100 + 4 * n.toNat - 0x100) / 4 = n.toNat by omega]
    exact BitVec.ofNat_toNat 6 n |>.trans n.setWidth_eq
  unfold writeIntakePage
  split
  case h_7 => rw [if_pos (by omega), tenant]
  all_goals omega

/-- A served write of a tenant's weight by the FM. -/
theorem exec_weightWrite {p : Path} {n : Tenant} {data : W32} {s : State} (f : pathFm p = true)
    (h : s.Serves (wordWrite p (0x3100 + 4 * n.toNat) data)) :
    exec (.weightWrite p n data) s = .next (writeWeight s n data) := by
  have small := n.isLt
  have page : pageOf (0x3100 + 4 * n.toNat) = some (.intake, 0x3000) := by
    unfold pageOf
    rw [if_neg (by omega), if_pos (by omega)]
  have written := fmPage (pg := .intake) f h (by omega) (by omega) (by omega) (by omega) page
  rw [show 0x3100 + 4 * n.toNat - 0x3000 = 0x100 + 4 * n.toNat by omega] at written
  exact congrArg Host.Outcome.next (written.trans (writeIntakePage_weight s n data))

theorem weightWritten : Claims.WeightWritten := by
  intro p n data s canonical f h
  rw [exec_weightWrite f h]
  unfold writeWeight
  refine ⟨fun positive => ?_, fun zero => ?_⟩
  · rw [if_neg positive]
    exact ⟨_, rfl, modTenant_self canonical.recs n _, fun k other => modTenant_ne n k _ other, modTenant_only _ _⟩
  · rw [if_pos zero]
    exact ⟨_, rfl, rfl, setIntake_only _⟩

/-! ## View selectors (R379) -/

/-- A served write of the view selector by the FM. -/
theorem exec_viewSelect {p : Path} {data : W32} {s : State} (f : pathFm p = true) (h : s.Serves (wordWrite p 0x20 data)) :
    exec (.viewSelect p data) s = .next (writeView s p data) := by
  refine congrArg Host.Outcome.next ((fmWrite4_serves f h (by decide) (by decide) rfl (by decide)).trans ?_)
  unfold writeWord
  rw [pathFm_none f]
  rfl

theorem viewSelected : Claims.ViewSelected := by
  intro p data s f h
  rw [exec_viewSelect f h]
  cases p <;> exact ⟨_, rfl, rfl, rfl, setTen_only _⟩

/-! ## Injection (R347) -/

/-- A served write of MW_RAS_INJECT by the FM. -/
theorem exec_rasInject {p : Path} {data : W32} {s : State} (f : pathFm p = true)
    (h : s.Serves (wordWrite p 0x24020 data)) : exec (.rasInject p data) s = .next (writeInject s data) :=
  congrArg Host.Outcome.next (fmPage (pg := .ras) (base := 0x24000) f h (by decide) (by decide) (by decide) (by decide) rfl)

theorem injectionArmed : Claims.InjectionArmed := by
  intro p data s f h
  rw [exec_rasInject f h]
  unfold writeInject
  refine ⟨fun legal inside => ?_, fun illegal => ?_⟩
  · have accepted : ¬ ((field data 8 2 : BitVec 2) = 0 ∨ (field data 8 2 : BitVec 2) = 3 ∨
        47 < (field data 0 6 : BitVec 6).toNat) := by
      rintro (zero | three | outside)
      · rw [zero] at legal
        exact absurd legal (by decide)
      · rw [three] at legal
        exact absurd legal (by decide)
      · omega
    dsimp only
    rw [if_neg accepted]
    exact ⟨_, rfl, rfl, setRas_only _⟩
  · dsimp only
    rw [if_pos illegal]
    exact ⟨_, rfl, rfl, setRas_only _⟩

/-! ## Histograms (R350, R352) -/

/-- A served write of LP_HIST_CLEAR by the FM. -/
theorem exec_histClear {p : Path} {data : W32} {s : State} (f : pathFm p = true)
    (h : s.Serves (wordWrite p 0x28008 data)) : exec (.histClear p data) s = .next (writeHistClear s data) :=
  congrArg Host.Outcome.next (fmPage (pg := .loupe) (base := 0x28000) f h (by decide) (by decide) (by decide) (by decide) rfl)

/-- A tenant has 16 bins. -/
theorem clearBins_bin (s : State) (n : Tenant) (k : Nat) : Sparse.get 0 (clearBins s n).loupe.bins k =
    if k / 16 == n.toNat then 0 else Sparse.get 0 s.loupe.bins k :=
  Sparse.get_dropKeys 0 _ s.loupe.bins k

theorem histogramCleared : Claims.HistogramCleared := by
  intro p data s f h
  rw [exec_histClear f h]
  unfold writeHistClear
  dsimp only
  refine ⟨fun every => ?_, fun one => ?_, fun reserved other => ?_⟩
  · rw [if_pos every]
    exact ⟨_, rfl, fun _ _ => rfl, fun _ kept => absurd kept (by decide), setLoupe_only _⟩
  · have tenant : ((field data 0 7 : BitVec 7).setWidth 6).toNat = (field data 0 7 : BitVec 7).toNat := by
      rw [BitVec.toNat_setWidth, Nat.mod_eq_of_lt one]
    have named : (field data 0 7 : BitVec 7) ≠ 0x7F := fun every => absurd (every ▸ one) (by decide)
    rw [if_neg named, if_pos one, ← tenant]
    exact ⟨_, rfl, fun k gone => (clearBins_bin s _ k).trans (if_pos gone),
      fun k kept => (clearBins_bin s _ k).trans (if_neg (Bool.eq_false_iff.mp kept)), setLoupe_only _⟩
  · rw [if_neg other, if_neg (by omega)]

/-- Settles O48: each write reaches its register, which changes one unit of the state. -/
theorem fmRegisters : Obligations.FmRegisters := ⟨weightWritten, viewSelected, injectionArmed, histogramCleared⟩

end Sys2Proof.Machine
end

section
/-! An intake write at the front end: what it does with a write that passes, and what it discards (R52, R56 to R59,
R61, R64). -/
namespace Sys2Proof.Machine
open Sys2Proof

/-! ## The request -/

/-- The form of R52 of a memory write: one doubleword with every byte enabled, not poisoned. -/
abbrev FormedWrite (w : IntakeReq) : Prop := w.lengthDw = 1 ∧ w.firstBe = 0xF ∧ w.lastBe = 0 ∧ w.poisoned = false

theorem intakeForm_formed {w : IntakeReq} (posted : w.posted = true) (formed : FormedWrite w) : intakeForm w = 0 := by
  unfold intakeForm
  rw [if_neg (by simp [posted]), if_pos formed]

theorem intakeForm_malformed {w : IntakeReq} (posted : w.posted = true) (malformed : ¬ FormedWrite w) :
    intakeForm w = 1 := by
  unfold intakeForm
  rw [if_neg (by simp [posted]), if_neg malformed]

theorem intakeForm_nonPosted {w : IntakeReq} (nonPosted : w.posted = false) : intakeForm w = 2 := by
  unfold intakeForm
  rw [if_pos (by simp [nonPosted])]

/-- A request without a parity error reaches vector `v` of the open window, out of reset, while nothing of the vector is
captured (R54, R317, R337). -/
structure State.Arrives (s : State) (w : IntakeReq) (v : BitVec 20) : Prop where
  outOfReset : s.hm.inReset = none
  powered    : s.hm.powerOff = false
  sound      : w.parityErr = false
  inWindow   : s.windowVector w.addr = some v
  here       : s.captures (some (quarterOf v.toNat)) = false

section
variable {s : State} {w : IntakeReq} {v : BitVec 20} (arrives : s.Arrives w v)
include arrives

/-- Nothing holds back a request whose pool, if it is charged to one, has a credit (R61). -/
theorem exec_intakeWrite (credited : ∀ n, s.mapOwner v.toNat = some n → s.hasCredit n = true) :
    exec (.intakeWrite w) s = .next (windowRequest s w v (s.mapOwner v.toNat)) := by
  obtain ⟨outOfReset, powered, sound, inWindow, -⟩ := arrives
  have free : (s.mapOwner v.toNat).any (fun n => !s.hasCredit n) = false := by
    cases owner : s.mapOwner v.toNat with
    | none => rfl
    | some n => simp [credited n owner]
  show execIntakeWrite w s = _
  unfold execIntakeWrite
  simp only [outOfReset, powered, sound, inWindow, Option.bind_some, free, Option.isSome_none, Bool.or_self, Bool.and_false,
    Bool.false_eq_true, if_false]

/-- A well-formed write takes its credit and goes through steps 2 to 6 of R56. -/
theorem windowRequest_formed (posted : w.posted = true) (formed : FormedWrite w) (o : Option Tenant) :
    windowRequest s w v o = frontEnd (chargePool s o) v w.requester w.owner := by
  unfold windowRequest
  simp only [arrives.here, intakeForm_formed posted formed, posted, Bool.false_and, Bool.false_eq_true, if_false, if_true]

/-- With no tenant to charge, a write of another form is discarded as it is. -/
theorem windowRequest_malformed (posted : w.posted = true) (malformed : ¬ FormedWrite w) :
    windowRequest s w v none = discardForm s 1 v w.requester w.owner := by
  have bad : ¬ (1 : Nat) = 0 := by decide
  unfold windowRequest
  simp only [arrives.here, intakeForm_malformed posted malformed, posted, Bool.false_and, Bool.false_eq_true, if_false, if_true,
    if_neg bad, chargePool, refundPool]

/-- A non-posted request is answered, and discarded (R52). -/
theorem windowRequest_nonPosted (nonPosted : w.posted = false) (o : Option Tenant) :
    windowRequest s w v o = discardForm (answer s .unsupported) 2 v w.requester w.owner := by
  have bad : ¬ (2 : Nat) = 0 := by decide
  unfold windowRequest
  simp only [arrives.here, intakeForm_nonPosted nonPosted, nonPosted, Bool.false_and, Bool.false_eq_true, if_false, if_neg bad]

theorem State.Arrives.core : s.isOn dCORE = true := coreUp_core (captures_coreUp arrives.here)

end

/-! ## The front end on a write of a granted range -/

section
variable {s : State} {v : BitVec 20} {n : Tenant} {requester : BitVec 16} {owner : BitVec 7}
  (mode : s.hm.safeMin = false) (granted : s.mapOwner v.toNat = some n) (running : s.resetting n = false)
include mode granted running

theorem frontEnd_queues (own : s.intake.ownerCheck = true → owner = n.setWidth 7 ∨ owner = 64) :
    frontEnd s v requester owner = enqueue s n ⟨.edge owner, v, requester, .crossbar⟩ := by
  have checked : (s.intake.ownerCheck &&
      (decide (64 < owner.toNat) || (decide (owner.toNat < 64) && owner != n.setWidth 7))) = false := by
    cases check : s.intake.ownerCheck with
    | false => rfl
    | true =>
      have small : (n.setWidth 7).toNat < 64 := by
        rw [BitVec.toNat_setWidth]
        omega
      rcases own check with mine | fm
      · subst mine
        simp only [bne_self_eq_false, Bool.and_false, Bool.or_false, Bool.true_and, decide_eq_false_iff_not]
        omega
      · subst fm
        rfl
  unfold frontEnd
  simp only [mode, granted, running, checked, Bool.false_eq_true, if_false]

/-- A function of another tenant, or an unassigned one, is discarded as OWNER (R57). -/
theorem frontEnd_refusesOwner (check : s.intake.ownerCheck = true) (other : owner ≠ n.setWidth 7) (notFm : owner ≠ 64) :
    frontEnd s v requester owner = returnCredit (discard s 6 v owner none requester (some n)) n := by
  have refused : (decide (64 < owner.toNat) || (decide (owner.toNat < 64) && owner != n.setWidth 7)) = true := by
    have apart : owner.toNat ≠ 64 := fun e => notFm (BitVec.eq_of_toNat_eq e)
    rcases Nat.lt_or_gt_of_ne apart with below | above
    · simp [below, other]
    · simp [above]
  unfold frontEnd
  simp only [mode, granted, running, check, refused, Bool.and_self, Bool.false_eq_true, if_false, if_true]

end

/-! ## The charge of a write -/

section
variable {s : State} (n : Tenant)

/-- A credit taken changes the count of credits and what records their end. -/
theorem takeCredit_record (h : Sparse.wf {} s.ten.recs = true) : ∃ zero frames status,
    (takeCredit s n).tenant n = { s.tenant n with
      credits := (s.tenant n).credits - 1, zeroSeen := zero, satFrames := frames, intakeStatus := status } := by
  rw [takeCredit_tenant h]
  split
  next last => exact ⟨_, _, _, by rw [last]⟩
  next => exact ⟨_, _, _, rfl⟩

/-- The front end checks the write after its charge as it would have before. -/
theorem takeCredit_checks (h : Sparse.wf {} s.ten.recs = true) :
    (takeCredit s n).hm = s.hm ∧ (takeCredit s n).intake = s.intake ∧ (takeCredit s n).frame = s.frame ∧
      (takeCredit s n).vec = s.vec ∧ (∀ v, (takeCredit s n).mapOwner v = s.mapOwner v) ∧
      ∀ m, (takeCredit s n).resetting m = s.resetting m :=
  have only := takeCredit_only s n
  ⟨only .hm (by decide), only .intake (by decide), only .frame (by decide), only .vec (by decide),
    takeCredit_mapOwner h n, takeCredit_resetting h n⟩

end

/-- The entry of a write that passes stands last in its queue, and the credit taken for it is the rest of what its record loses. -/
theorem enqueue_takeCredit {s : State} (h : Sparse.wf {} s.ten.recs = true) (n : Tenant) (e : QEntry) :
    (enqueue (takeCredit s n) n e).tenant n =
      { (takeCredit s n).tenant n with queue := ((takeCredit s n).tenant n).queue ++ [e] } :=
  modTenant_self (takeCredit_wf h n) n _

/-- Settles O6: the write passes the front end with its credit taken, so that its entry joins the queue; whether the
credit was the last decides what else is recorded. -/
theorem intakeWriteQueuesEdge : Obligations.IntakeWriteQueuesEdge := by
  intro w v n s coherent reset powered mode posted length first last poisoned sound window granted running here own credit
  have wf := coherent.tenCanonical.recs
  have arrives : s.Arrives w v := ⟨reset, powered, sound, window, here⟩
  obtain ⟨hm, intake, -, -, map, resetting⟩ := takeCredit_checks n wf
  have run : exec (.intakeWrite w) s = .next (enqueue (takeCredit s n) n ⟨.edge w.owner, v, w.requester, .crossbar⟩) := by
    rw [exec_intakeWrite arrives fun m charged => Option.some.inj (granted.symm.trans charged) ▸ credit, granted,
      windowRequest_formed arrives posted ⟨length, first, last, poisoned⟩]
    exact congrArg _ (frontEnd_queues ((congrArg HmUnit.safeMin hm).trans mode) ((map _).trans granted) ((resetting _).trans running)
      (fun check => own (intake ▸ check)))
  obtain ⟨zero, frames, status, charged⟩ := takeCredit_record n wf
  have queued := enqueue_takeCredit wf n ⟨.edge w.owner, v, w.requester, .crossbar⟩
  rw [charged] at queued
  refine ⟨_, run, by rw [queued], by rw [queued], fun m other => ?_, fun more => ?_, fun one => ?_⟩
  · exact (modTenant_ne n m _ other).trans (takeCredit_tenant_ne n m other)
  · have left : (s.tenant n).credits - 1 ≠ 0 := fun zero => more (by bv_omega)
    rw [takeCredit_more n left]
    exact ⟨(modTenant_self (setTenant_wf _ _ wf) n _).trans (by rw [State.setTenant_tenant_self _ _ _ wf]),
      (setTenant_only _ _).trans (enqueue_only _ _ _)⟩
  · have left : (s.tenant n).credits - 1 = 0 := by rw [one]; rfl
    have last := enqueue_takeCredit wf n ⟨.edge w.owner, v, w.requester, .crossbar⟩
    rw [takeCredit_tenant wf n, if_pos left] at last
    rw [last]
    exact ⟨rfl, rfl, takeCredit_level coherent.sysCanonical n left⟩

/-! ## Requests that no granted range holds -/

/-- A discard that no tenant is charged with is recorded, counted, and raised (R59). -/
theorem discard_uncharged {s : State} (h : CanonicalSys s.sys) (on : s.isOn dCORE = true) {reason : Nat}
    (v : BitVec 20) (owner : BitVec 7) (requester : BitVec 16) :
    let t := discard s reason v owner none requester none
    t.intake = discarded s reason v owner none requester ∧ (t.latch (discardSource reason)).arrival = true ∧
      (∀ k, k ≠ discardSource reason → t.latch k = s.latch k) ∧ OnlyChanges [.intake, .loupe, .sys] s t := by
  have defined : sysDefined (discardSource reason) = true := by
    unfold discardSource
    repeat' split
    all_goals decide
  generalize recorded : (s.setIntake (discarded s reason v owner none requester)).count 2 1 = u
  have only : OnlyChanges [.intake, .loupe] s u := by
    subst recorded
    exact ((setIntake_only _).mono (by decide)).trans ((count_only _ _).mono (by decide))
  have raised : discard s reason v owner none requester none = raiseSource u (discardSource reason) := by
    rw [discard_eq, recorded]
  have sys : u.sys = s.sys := only .sys (by decide)
  obtain ⟨arrival, others, rest⟩ := raiseSource_effect (s := u) (sys ▸ h) defined
    ((isOn_congr (only .pwr (by decide)) dCORE).trans on)
  dsimp only
  refine ⟨discard_intake _ _ _ _ _ _ _, raised ▸ arrival, fun k other => ?_, ?_⟩
  · rw [raised, others k other]
    unfold State.latch
    rw [sys]
  · rw [raised]
    exact (only.mono (by decide)).trans (rest.mono (by decide))

/-- The reason of a request that no granted range holds, in the order of R56. -/
def ungrantedReason (s : State) (w : IntakeReq) : Nat :=
  if w.posted = false then 2 else if ¬ FormedWrite w then 1 else if s.hm.safeMin then 3 else 4

theorem windowRequest_ungranted {s : State} {w : IntakeReq} {v : BitVec 20} (arrives : s.Arrives w v)
    (ungranted : s.mapOwner v.toNat = none) : windowRequest s w v none =
      discard (if w.posted then s else answer s .unsupported) (ungrantedReason s w) v w.owner none w.requester none := by
  cases posted : w.posted with
  | false =>
    have answered : (answer s .unsupported).mapOwner v.toNat = none := ungranted
    rw [windowRequest_nonPosted arrives posted]
    unfold discardForm ungrantedReason
    rw [answered, if_pos posted, if_neg (by decide)]
  | true =>
    have notNon : ¬ w.posted = false := by simp [posted]
    by_cases formed : FormedWrite w
    · rw [windowRequest_formed arrives posted formed]
      unfold ungrantedReason
      rw [if_neg notNon, if_neg (not_not_intro formed)]
      unfold frontEnd
      simp only [chargePool, ungranted]
      split <;> rfl
    · rw [windowRequest_malformed arrives posted formed]
      unfold discardForm ungrantedReason
      rw [ungranted, if_neg notNon, if_pos formed, if_pos rfl]

theorem ungrantedReason_code (s : State) (w : IntakeReq) : BitVec.ofNat 4 (ungrantedReason s w) =
    if w.posted = false then 2 else if ¬ FormedWrite w then 1 else if s.hm.safeMin then 3 else 4 := by
  simp only [ungrantedReason, apply_ite (BitVec.ofNat 4)]
  rfl

/-- The form of a request and the lack of a grant are reported by a source each (R69). -/
theorem ungrantedReason_source (s : State) (w : IntakeReq) : discardSource (ungrantedReason s w) =
    if w.posted = false ∨ ¬ FormedWrite w then 0x265 else 0x266 := by
  unfold ungrantedReason
  by_cases nonPosted : w.posted = false
  · rw [if_pos nonPosted, if_pos (.inl nonPosted)]
    rfl
  · by_cases formed : FormedWrite w
    · have granted : ¬ (w.posted = false ∨ ¬ FormedWrite w) := fun h => h.elim nonPosted (· formed)
      rw [if_neg nonPosted, if_neg (not_not_intro formed), if_neg granted]
      split <;> rfl
    · rw [if_neg nonPosted, if_pos formed, if_pos (.inr formed)]
      rfl

theorem intakeWriteDiscards : Claims.IntakeWriteDiscards := by
  intro w v s canonical reset powered sound window ungranted here formed reason source
  have arrives : s.Arrives w v := ⟨reset, powered, sound, window, here⟩
  have run := exec_intakeWrite arrives fun n granted => absurd (ungranted.symm.trans granted) (by simp)
  rw [ungranted, windowRequest_ungranted arrives ungranted] at run
  have answered : OnlyChanges [.bnd] s (if w.posted then s else answer s .unsupported) := .ite (.refl _ _) (setBnd_only _)
  have bnd : (if w.posted then s else answer s .unsupported).bnd =
      if w.posted then s.bnd else { s.bnd with lastStatus := .unsupported } := apply_ite State.bnd _ _ _
  generalize (if w.posted then s else answer s .unsupported) = u at run answered bnd
  have sys : u.sys = s.sys := answered .sys (by decide)
  have on : u.isOn dCORE = true := (isOn_congr (answered .pwr (by decide)) dCORE).trans arrives.core
  obtain ⟨intake, arrival, others, only⟩ := discard_uncharged (sys ▸ canonical) on (reason := ungrantedReason s w) v
    w.owner w.requester
  rw [show discardSource (ungrantedReason s w) = source from ungrantedReason_source s w] at arrival others
  refine ⟨_, run, ?_, arrival, fun k other => ?_, ?_, ?_⟩
  · rw [intake]
    unfold discarded State.frameLo
    rw [ungrantedReason_code, answered .intake (by decide), answered .frame (by decide)]
    rfl
  · rw [others k other]
    unfold State.latch
    rw [sys]
  · rw [only .bnd (by decide), bnd]
  · exact (answered.mono (by decide)).trans (only.mono (by decide))

/-! ## Writes by the function of another tenant -/

/-- A fault is counted and summed up, and recorded when it is the first. -/
theorem faulted_record (r : TenantRec) (code : Nat) (detail frame : W32) : ∃ c d f,
    faulted r code detail frame = { r with
      faultCount := satInc r.faultCount, faultSummary := r.faultSummary ||| BitVec.twoPow 8 (faultBit code)
      faultValid := true, faultCode := c, faultDetail := d, faultFrame := f } ∧
    (r.faultValid = false → c = BitVec.ofNat 8 code ∧ d = detail ∧ f = frame) := by
  unfold faulted
  dsimp only
  cases valid : r.faultValid with
  | true => exact ⟨r.faultCode, r.faultDetail, r.faultFrame, rfl, fun free => absurd free (by decide)⟩
  | false => exact ⟨_, _, _, rfl, fun _ => ⟨rfl, rfl, rfl⟩⟩

theorem State.hasCredit_nonzero {s : State} {n : Tenant} (h : s.hasCredit n = true) : (s.tenant n).credits ≠ 0 := by
  unfold State.hasCredit at h
  simp_all

theorem intakeWriteOwnerMismatch : Claims.IntakeWriteOwnerMismatch := by
  intro w v n s coherent reset powered mode posted length first last poisoned sound window granted running here check other
    notFm credit full
  have wf := coherent.tenCanonical.recs
  have arrives : s.Arrives w v := ⟨reset, powered, sound, window, here⟩
  obtain ⟨hm, intake, frame, vec, map, resetting⟩ := takeCredit_checks n wf
  obtain ⟨zero, frames, status, charged⟩ := takeCredit_record n wf
  have kept : Kept s.pending (takeCredit s n) := takeCredit_keeps s n ⟨coherent, rfl⟩
  have run := exec_intakeWrite arrives fun m owner => Option.some.inj (granted.symm.trans owner) ▸ credit
  rw [granted, windowRequest_formed arrives posted ⟨length, first, last, poisoned⟩] at run
  dsimp only [chargePool] at run
  have frameLo : (takeCredit s n).frameLo = s.frameLo := by
    unfold State.frameLo
    rw [frame]
  generalize takeCredit s n = u at run hm intake vec map resetting charged kept frameLo
  rw [frontEnd_refusesOwner ((congrArg HmUnit.safeMin hm).trans mode) ((map _).trans granted) ((resetting _).trans running)
    ((congrArg IntakeUnit.ownerCheck intake).trans check) other notFm] at run
  have kept' := discard_keeps u 6 v w.owner none w.requester (some n) kept
  have only := discard_only u 6 v w.owner none w.requester (some n)
  have recorded := discard_tenant kept.tenCanonical.recs (reason := 6) rfl rfl v w.owner none w.requester n
  obtain ⟨c, d, f, fault, first⟩ := faulted_record { u.tenant n with
    discards := satInc (u.tenant n).discards
    intakeStatus := (u.tenant n).intakeStatus ||| BitVec.twoPow 5 1 } 1 (v.setWidth 32) u.frameLo
  have returned := returnCredit_tenant kept'.tenCanonical.recs n
  rw [recorded, fault, charged] at returned
  rw [charged, frameLo] at first
  have credits : (if ((s.tenant n).credits - 1).toNat < 440 then (s.tenant n).credits - 1 + 1
      else (s.tenant n).credits - 1) = (s.tenant n).credits := by
    have nonzero := State.hasCredit_nonzero credit
    rw [if_pos (by bv_omega)]
    bv_omega
  refine ⟨_, run, by rw [returned], by rw [returned]; exact credits, by rw [returned], ?_, by rw [returned],
    by rw [returned]; rfl, fun free => ?_, ?_⟩
  · rw [returned]
    simp
  · obtain ⟨code, detail, taken⟩ := first free
    rw [returned]
    exact ⟨code, detail, taken⟩
  · exact (returnCredit_only _ n .vec (by decide)).trans ((only .vec (by decide)).trans vec)

/-- Settles O7: with no tenant to charge the discard changes the intake's record alone; a write of another owner is
charged to the vector's tenant, between the credit that it takes and the credit that returns. -/
theorem intakeWriteDisposed : Obligations.IntakeWriteDisposed := ⟨intakeWriteDiscards, intakeWriteOwnerMismatch⟩

end Sys2Proof.Machine
end

section
/-! A drained edge: its vector, its target and its tenant (R62, R86, R87, R118). -/
namespace Sys2Proof.Machine
open Sys2Proof

section
variable {s : State} {n : Tenant} {e : QEntry} {owner : BitVec 7} {origin : Option Chip}
  (granted : s.mapOwner e.vector.toNat = some n) (clean : s.Clean) (unforwarded : cFwd (s.cfgOf (msgSrc e.vector.toNat)) = false)
include granted clean unforwarded

/-- An edge on a vector that is not forwarded, past the requester check, is applied to its vector (R56 steps 7 to 9). -/
theorem drainEdge_applies
    (requester : cReqCheck (s.cfgOf (msgSrc e.vector.toNat)) = true → cReqId (s.cfgOf (msgSrc e.vector.toNat)) = e.requester) :
    drainEdge s n e owner origin = tenantEdge s n (msgSrc e.vector.toNat) := by
  have checked : (cReqCheck (s.cfgOf (msgSrc e.vector.toNat)) &&
      cReqId (s.cfgOf (msgSrc e.vector.toNat)) != e.requester) = false := by
    cases check : cReqCheck (s.cfgOf (msgSrc e.vector.toNat)) with
    | false => rfl
    | true => simp [requester check]
  unfold drainEdge
  rw [if_neg (not_not_intro granted)]
  simp only [readCfg_clean clean, unforwarded, checked, Bool.false_eq_true, if_false]

end

theorem tenantEdge_only {s : State} (clean : s.Clean) (n : Tenant) (x : Src) :
    OnlyChanges [.vec, .ten, .tgt] s (tenantEdge s n x) :=
  (applyEdge_only clean x).trans ((modTenant_only _ _).mono (by decide))

section
variable {s : State} (coherent : Coherent s) (clean : s.Clean) (n : Tenant) (x : Src)
include coherent clean

/-- The edge is counted to the tenant, whose record otherwise takes what saturation notes of its sources. -/
theorem tenantEdge_tenant : ∃ regs, (tenantEdge s n x).tenant n =
    { s.tenant n with src := regs, edges := (s.tenant n).edges + 1 } := by
  have kept : Kept s.pending (applyEdge s x) := applyEdge_keeps s x ⟨coherent, rfl⟩
  obtain ⟨regs, applied⟩ := (applyEdge_tenant clean coherent.tenCanonical.recs x n).1
  refine ⟨regs, (modTenant_self kept.tenCanonical.recs n _).trans ?_⟩
  rw [applied]

theorem tenantEdge_tenant_ne {v : Nat} {m : Tenant} (message : srcClass x = .message v) (other : m ≠ n)
    (notOwner : s.rangeOwner v ≠ some m) : (tenantEdge s n x).tenant m = s.tenant m :=
  (modTenant_ne n m _ other).trans ((applyEdge_tenant clean coherent.tenCanonical.recs x m).2 v message notOwner)

end

/-- Which targets a source may have is a matter of who owns the slots and the ranges (R167). -/
theorem qualifies_of_owners {s t : State} (slots : ∀ y, t.slotOwner y = s.slotOwner y)
    (ranges : ∀ v, t.rangeOwner v = s.rangeOwner v) (x : Src) (y : Slot) : t.qualifies x y = s.qualifies x y := by
  unfold State.qualifies
  simp only [slots, ranges]

/-- Settles O8: the entry leaves its queue and gives back its credit before its edge is applied; the edge then changes
the words of its vector, the target that it names and the registers of its tenant. -/
theorem intakeDrainAppliesEdge : Obligations.IntakeDrainAppliesEdge := by
  intro s e rest owner coherent clean serves n x c w kind granted unforwarded requester
  have message : srcClass x = .message e.vector.toNat := srcClass_msgSrc e.vector.isLt
  obtain ⟨u, stepped, kept, only, use, own, others, range, map, slots⟩ :=
    intakeStep_entry coherent serves (headWaits_edge serves.awake e serves.banks unforwarded)
  have vec : u.vec = s.vec := only .vec (by decide)
  have tgt : u.tgt = s.tgt := only .tgt (by decide)
  have cleanU : u.Clean := clean.of_ras (only .ras (by decide))
  have cfg : u.cfgOf x = c := cfgOf_congr vec x
  have st : u.stOf x = s.stOf x := stOf_congr vec x
  have applied : intakeStep s = tenantEdge u n x := by
    rw [stepped, kind]
    refine drainEdge_applies ((map _).trans granted) cleanU ?_ ?_
    · exact (congrArg cFwd cfg).trans unforwarded
    · exact fun check => (congrArg cReqId cfg).trans (requester ((congrArg cReqCheck cfg).symm.trans check))
  obtain ⟨regs, edged⟩ := tenantEdge_tenant kept.toCoherent cleanU n x
  have edgeOnly := tenantEdge_only cleanU n x
  rw [own] at edged
  have fifo : SameFifo s (tenantEdge u n x) := .of_pwr ((edgeOnly .pwr (by decide)).trans (only .pwr (by decide)))
  refine ⟨_, exec_drain serves applied fifo, by rw [edged], by rw [edged], by rw [edged], fun below => ?_, ?_,
    fun y other => ?_, fun y => ?_, fun m other notOwner => ?_, fun fresh enabled qualifies => ?_, fun quiet => ?_, ?_, ?_⟩
  · rw [edged]
    exact if_pos below
  · exact (applyEdge_stOf cleanU kept.vecCanonical (.inl ⟨_, message⟩)).trans (by rw [cfg, st])
  · exact (applyEdge_stOf_ne cleanU other).trans (stOf_congr vec y)
  · exact (applyEdge_cfgOf cleanU x y).trans (cfgOf_congr vec y)
  · rw [tenantEdge_tenant_ne kept.toCoherent cleanU n x message other (by rw [range]; exact notOwner), others m other]
  · have presented := applyEdge_target cleanU kept.toCoherent (x := x) (by rw [cfg, st]; exact fresh)
      (by rw [cfg]; exact enabled) (by rw [cfg]; exact unforwarded)
      ((qualifies_of_owners slots range x _).trans (by rw [cfg]; exact qualifies))
    rw [cfg, show u.frame.count = s.frame.count from congrArg (·.count) use] at presented
    refine presented.trans ?_
    unfold State.target
    rw [tgt]
  · exact (applyEdge_tgt cleanU (by rw [cfg, st]; exact quiet)).trans tgt
  · unfold SameButUse at use ⊢
    rw [edgeOnly .frame (by decide)]
    exact use
  · exact (only.mono (by decide)).trans (edgeOnly.mono (by decide))

end Sys2Proof.Machine
end

section
/-! The system-source lane: the latched operations of one source, one after the other (R67, R97). -/
namespace Sys2Proof.Machine
open Sys2Proof

/-- The work of the lane on source `x` has led from `s` to `t`: the source has state word `w` and ENABLE `b`, its MODE and
every other source are as they were, and nothing else of the state but its target changes. -/
structure LaneWork (x : Src) (s t : State) (w : W32) (b : Bool) : Prop where
  kept   : Kept s.pending t
  clean  : t.Clean
  word   : t.stOf x = w
  enable : cEnable (t.cfgOf x) = b
  mode   : cMode (t.cfgOf x) = cMode (s.cfgOf x)
  others : ∀ y, y ≠ x → t.stOf y = s.stOf y ∧ t.cfgOf y = s.cfgOf y
  only   : OnlyChanges [.vec, .tgt, .loupe] s t

theorem LaneWork.refl {x : Src} {s : State} (coherent : Coherent s) (clean : s.Clean) :
    LaneWork x s s (s.stOf x) (cEnable (s.cfgOf x)) :=
  ⟨⟨coherent, rfl⟩, clean, rfl, rfl, rfl, fun _ _ => ⟨rfl, rfl⟩, .refl _ _⟩

section
variable {x : Src} {s t : State} {w : W32} {b : Bool} (work : LaneWork x s t w b)
include work

theorem LaneWork.clear (hx : HasWords x) : LaneWork x s (applyClear t x) (clearWord w) b where
  kept := applyClear_keeps t x work.kept
  clean := work.clean.of_ras (applyClear_only work.clean x .ras (by decide))
  word := (applyClear_stOf work.clean work.kept.vecCanonical hx).trans (congrArg clearWord work.word)
  enable := (congrArg cEnable (applyClear_cfgOf work.clean x x)).trans work.enable
  mode := (congrArg cMode (applyClear_cfgOf work.clean x x)).trans work.mode
  others y other := ⟨(applyClear_stOf_ne work.clean other).trans (work.others y other).1,
    (applyClear_cfgOf work.clean x y).trans (work.others y other).2⟩
  only := work.only.trans ((applyClear_only work.clean x).mono (by decide))

/-- An edge of the lane is counted in the frame's telemetry. -/
theorem LaneWork.edge {n : Nat} (system : srcClass x = .system n) :
    LaneWork x s ((applyEdge t x).count 3 1) (edgeWord (cMode (s.cfgOf x)) w).1 b where
  kept := State.count_keeps _ 3 1 (applyEdge_keeps t x work.kept)
  clean := work.clean.of_ras (edge_only_sys work.clean system .ras (by decide))
  word := (applyEdge_stOf work.clean work.kept.vecCanonical (.inr ⟨n, system⟩)).trans (by rw [work.mode, work.word])
  enable := (congrArg cEnable (applyEdge_cfgOf work.clean x x)).trans work.enable
  mode := (congrArg cMode (applyEdge_cfgOf work.clean x x)).trans work.mode
  others y other := ⟨(applyEdge_stOf_ne work.clean other).trans (work.others y other).1,
    (applyEdge_cfgOf work.clean x y).trans (work.others y other).2⟩
  only := work.only.trans (((edge_only_sys work.clean system).mono (by decide)).trans ((count_only 3 1).mono (by decide)))

theorem LaneWork.setEnable (hx : HasWords x) (b' : Bool) : LaneWork x s (applyEnable t x b') w b' where
  kept := applyEnable_keeps t x b' work.kept
  clean := work.clean.of_ras (applyEnable_only work.clean x b' .ras (by decide))
  word := (applyEnable_stOf work.clean x x b').trans work.word
  enable := applyEnable_enable work.clean work.kept.vecCanonical hx b'
  mode := by
    rw [applyEnable_cfgOf work.clean work.kept.vecCanonical hx b', apply_ite cMode, putBit_mode, ite_self]
    exact work.mode
  others y other := ⟨(applyEnable_stOf work.clean x y b').trans (work.others y other).1,
    (applyEnable_cfgOf_ne work.clean other b').trans (work.others y other).2⟩
  only := work.only.trans ((applyEnable_only work.clean x b').mono (by decide))

theorem LaneWork.clearSticky (hx : HasWords x) : LaneWork x s (applyClrSticky t x) (clearStickyWord w) b := by
  have put := applyClrSticky_clean work.clean x
  have only : OnlyChanges [.vec] t (applyClrSticky t x) := put ▸ putSt_only t x _
  exact {
    kept := applyClrSticky_keeps t x work.kept
    clean := work.clean.of_ras (only .ras (by decide))
    word := by rw [put, putSt_stOf_self work.kept.vecCanonical hx, work.word]
    enable := by rw [put, putSt_cfgOf, work.enable]
    mode := by rw [put, putSt_cfgOf, work.mode]
    others := fun y other => by rw [put, putSt_stOf_ne other, putSt_cfgOf]; exact work.others y other
    only := work.only.trans (only.mono (by decide)) }

/-- An operation is done when its latch bit asks for it. -/
theorem LaneWork.ite {u : State} {w' : W32} {b' : Bool} (l : Bool) (next : LaneWork x s u w' b') :
    LaneWork x s (if l then u else t) (if l then w' else w) (if l then b' else b) := by
  cases l
  · exact work
  · exact next

end

/-- The lane empties the latch of the source and moves its cursor there, in a slot counted in the frame's use. -/
def laneTurn (s : State) (n : Nat) : State :=
  let s := (takeLane s .system).setLatch n {}
  s.setSys { s.sys with cursor := BitVec.ofNat 12 n }

theorem laneTurn_coherent {s : State} (coherent : Coherent s) (n : Nat) : Coherent (laneTurn s n) := by
  have taken := State.setLatch_keeps _ n {} (takeLane_keeps (queue := s.pending) s .system ⟨coherent, rfl⟩)
  obtain ⟨latch, levels, held, fell⟩ := taken.sysCanonical
  exact (kept_setSys (u := (laneTurn s n).sys) taken latch levels held fell).toCoherent

/-- The operations of a source's latch in the order of R97. -/
theorem takeSource_work {s : State} (coherent : Coherent s) (clean : s.Clean) {n : Nat}
    (system : srcClass (sysSrc n) = .system n) :
    let x := sysSrc n
    let l := s.latch n
    let w := if l.clrPend then clearWord (s.stOf x) else s.stOf x
    let w := if l.arrival then (edgeWord (cMode (s.cfgOf x)) w).1 else w
    let w := if l.clrSticky then clearStickyWord w else w
    LaneWork x (laneTurn s n) (takeSource (takeLane s .system) n) w
      (if l.clrEn then false else if l.setEn then true else cEnable (s.cfgOf x)) := by
  have words : HasWords (sysSrc n) := .inr ⟨n, system⟩
  have turn := LaneWork.refl (x := sysSrc n) (laneTurn_coherent coherent n) (clean.of_ras rfl)
  have cleared := turn.ite (s.latch n).clrPend (turn.clear words)
  have edged := cleared.ite (s.latch n).arrival (cleared.edge system)
  have enabled := edged.ite (s.latch n).setEn (edged.setEnable words true)
  have disabled := enabled.ite (s.latch n).clrEn (enabled.setEnable words false)
  have done := disabled.ite (s.latch n).clrSticky (disabled.clearSticky words)
  simp only [ite_self] at done
  exact done

/-- Settles O11: the lane's turn empties the latch, and the operations that it held follow one another on the source. -/
theorem systemLaneAppliesLatch : Obligations.SystemLaneAppliesLatch := by
  intro n s coherent clean on framed lane latched defined small
  have work := takeSource_work coherent clean (srcClass_sysSrc small defined)
  have run : exec .systemLaneTake s = .next (takeSource (takeLane s .system) n) := by
    show execSystemLaneTake s = _
    unfold execSystemLaneTake
    simp only [on, framed, lane, latched, Bool.and_self, if_true]
  have sys := work.only .sys (by decide)
  have latch : ∀ k, (takeSource (takeLane s .system) n).latch k = (laneTurn s n).latch k := fun k => by
    unfold State.latch
    rw [sys]
  refine ⟨_, run, work.word, work.enable, work.others, ?_, fun k other => ?_, ?_, ?_, ?_⟩
  · exact (latch n).trans (setLatch_latch_self coherent.sysCanonical n {})
  · exact (latch k).trans (setLatch_latch_ne n k {} other)
  · rw [sys]
    rfl
  · unfold SameButUse
    rw [work.only .frame (by decide)]
    rfl
  · have turn : OnlyChanges [.frame, .sys] s (laneTurn s n) :=
      ((setUse_only _).mono (by decide)).trans (((setLatch_only n {}).trans (setSys_only _)).mono (by decide))
    exact (turn.mono (by decide)).trans (work.only.mono (by decide))

end Sys2Proof.Machine
end

section
/-! The events of the switch ports: link, presence, containment and error pulses (R68, R70, R143, R385). -/
namespace Sys2Proof.Machine
open Sys2Proof

theorem latch_congr {s t : State} (h : t.sys = s.sys) (n : Nat) : t.latch n = s.latch n := by unfold State.latch; rw [h]

theorem level_congr {s t : State} (h : t.sys = s.sys) (n : Nat) : t.level n = s.level n := by unfold State.level; rw [h]

/-! ## Levels of a port -/

section
variable {s : State} (canonical : CanonicalSys s.sys) {n : Nat} (defined : sysDefined n = true)
  (on : s.isOn dCORE = true) (u : BoundaryUnit)
include canonical defined on

/-- A level of the switch is noted at the boundary and followed by its condition source (R70). -/
theorem boundaryLevel_effect (b : Bool) :
    let t := setLevel (s.setBnd u) n b
    t.bnd = u ∧ t.level n = b ∧ (s.level n ≠ b → b = true ∨ raisesOnEach n = true → (t.latch n).arrival = true) ∧
      (∀ k, k ≠ n → t.latch k = s.latch k) ∧ OnlyChanges [.bnd, .sys] s t := by
  obtain ⟨level, arrival, others, -, only⟩ := setLevel_effect (s := s.setBnd u) canonical defined on b
  exact ⟨only .bnd (by decide), level, arrival, others, ((setBnd_only u).mono (by decide)).trans (only.mono (by decide))⟩

/-- A fall that raises no edge leaves every latch alone. -/
theorem boundaryFall_latch (single : raisesOnEach n = false) (k : Nat) :
    (setLevel (s.setBnd u) n false).latch k = s.latch k := by
  obtain ⟨-, -, -, fall, -⟩ := setLevel_effect (s := s.setBnd u) canonical defined on false
  exact fall rfl single k

end

/-! ## Links -/

/-- The deliveries of the tenant bound at a port are parked (R143). -/
def parkPort (s : State) (port : Nat) : State :=
  match s.portTenant port with
  | some n => park s n
  | none => s

theorem parkPort_only (s : State) (port : Nat) : OnlyChanges [.tgt, .ten] s (parkPort s port) := by
  unfold parkPort
  split
  · exact park_only _ _
  · exact .refl _ _

theorem parkPort_parked {s : State} (canonical : Sparse.wf {} s.tgt.recs = true) {port : Nat} {n : Tenant} {x : Slot}
    (bound : s.portTenant port = some n) (held : x ∈ s.slotsOf n) (active : (s.target x).active ≠ none) :
    ((parkPort s port).target x).parked = true := by
  unfold parkPort
  rw [bound]
  exact park_parked canonical n x held active

/-- The boundary with the data-link level of a port. -/
def linkBoundary (s : State) (port : Nat) (level : Bool) : BoundaryUnit :=
  { s.bnd with linkUp := putBit s.bnd.linkUp port level }

theorem exec_portLinkChange {s : State} {port : BitVec 7} (level : Bool) (small : port.toNat < 80)
    (detecting : s.detecting = true) (up : s.coreUp = true) (on : s.isOn dCORE = true) (canonical : CanonicalSys s.sys) :
    let v := setLevel (s.setBnd (linkBoundary s port.toNat level)) port.toNat level
    exec (.portLinkChange port level) s =
      .next (if s.bnd.linkUp.getLsbD port.toNat && !level then parkPort v port.toNat else v) := by
  intro v
  have only : OnlyChanges [.bnd, .sys] s v :=
    (boundaryLevel_effect canonical (defined_port small).1 on _ level).2.2.2.2
  have upV : v.coreUp = true := by
    unfold State.coreUp at up ⊢
    rw [isOn_congr (only .pwr (by decide)), isOn_congr (only .pwr (by decide))]
    exact up
  have watched : (s.setBnd (linkBoundary s port.toNat level)).detecting = true := detecting
  show Host.Outcome.next _ = _
  refine congrArg Host.Outcome.next ?_
  rw [if_neg (by omega)]
  show (if !(s.setBnd (linkBoundary s port.toNat level)).detecting then _ else
    if s.bnd.linkUp.getLsbD port.toNat && !level then if v.coreUp then parkPort v port.toNat else _ else v) = _
  rw [watched, upV]
  rfl

theorem portLinkLevel : Claims.PortLinkLevel := by
  intro port level s coherent small detecting up
  have on := coreUp_core up
  have canonical := coherent.sysCanonical
  have run := exec_portLinkChange level small detecting up on canonical
  obtain ⟨bnd, lev, arrival, others, only⟩ := boundaryLevel_effect canonical (defined_port small).1 on
    (linkBoundary s port.toNat level) level
  dsimp only at run
  generalize setLevel (s.setBnd (linkBoundary s port.toNat level)) port.toNat level = v at run bnd lev arrival others only
  have parked : OnlyChanges [.tgt, .ten] v
      (if s.bnd.linkUp.getLsbD port.toNat && !level then parkPort v port.toNat else v) := .ite (parkPort_only _ _) (.refl _ _)
  have sys := parked .sys (by decide)
  refine ⟨_, run, ?_, (level_congr sys _).trans lev, fun change => ?_, fun k other => (latch_congr sys k).trans (others k other),
    fun n was fell bound x held active => ?_, fun rose => ?_, ?_⟩
  · rw [parked .bnd (by decide), bnd]
    exact putBit_self _ _ _ small
  · rw [latch_congr sys]
    exact arrival change (.inr (raises_port small).1)
  · have ten : v.ten = s.ten := only .ten (by decide)
    have tgt : v.tgt = s.tgt := only .tgt (by decide)
    rw [was, fell]
    refine parkPort_parked (n := n) (tgt ▸ coherent.tgtCanonical.recs) ?_ ?_ ?_
    · unfold State.portTenant
      rw [ten]
      exact bound
    · unfold State.slotsOf
      rw [ten]
      exact held
    · unfold State.target
      rw [tgt]
      exact active
  · rw [rose, Bool.not_true, Bool.and_false]
    exact only
  · exact (only.mono (by decide)).trans (parked.mono (by decide))

/-! ## Presence, containment and error pulses -/

theorem portEventSources : Claims.PortEventSources := by
  intro port s canonical small detecting on p
  have inside : ¬ 80 ≤ port.toNat := by omega
  obtain ⟨-, correctable, uncorrectable, presence, containment⟩ := defined_port small
  obtain ⟨-, eachPresence, onceContained⟩ := raises_port small
  have pulse : ∀ n, (if port.toNat < 80 ∧ s.detecting = true then raiseSource s n else s) = raiseSource s n :=
    fun n => if_pos ⟨small, detecting⟩
  have level : ∀ (u : BoundaryUnit) (n : Nat) (b : Bool),
    (if 80 ≤ port.toNat then s else if (s.setBnd u).detecting then setLevel (s.setBnd u) n b else s.setBnd u) =
      setLevel (s.setBnd u) n b := fun u n b => (if_neg inside).trans (if_pos detecting)
  refine ⟨fun b => ?_, ?_, ?_, ?_, ?_⟩
  · obtain ⟨bnd, lev, arrival, -, only⟩ := boundaryLevel_effect canonical presence on
      { s.bnd with present := putBit s.bnd.present port.toNat b } b
    exact ⟨_, congrArg Host.Outcome.next (level _ _ b), by rw [bnd]; exact putBit_self _ _ _ small, lev,
      fun change => arrival change (.inr eachPresence), only⟩
  · obtain ⟨bnd, lev, arrival, -, only⟩ := boundaryLevel_effect canonical containment on
      { s.bnd with contained := putBit s.bnd.contained port.toNat true } true
    exact ⟨_, congrArg Host.Outcome.next (level _ _ true), by rw [bnd]; exact putBit_self _ _ _ small, lev,
      fun low => arrival (fun high => absurd (low.symm.trans high) (by decide)) (.inl rfl), only⟩
  · obtain ⟨bnd, lev, -, -, only⟩ := boundaryLevel_effect canonical containment on
      { s.bnd with contained := putBit s.bnd.contained port.toNat false } false
    exact ⟨_, congrArg Host.Outcome.next (level _ _ false), by rw [bnd]; exact putBit_self _ _ _ small, lev,
      boundaryFall_latch canonical containment on _ onceContained, only⟩
  · obtain ⟨arrival, -, only⟩ := raiseSource_effect canonical correctable on
    exact ⟨_, congrArg Host.Outcome.next (pulse _), arrival, only⟩
  · obtain ⟨arrival, -, only⟩ := raiseSource_effect canonical uncorrectable on
    exact ⟨_, congrArg Host.Outcome.next (pulse _), arrival, only⟩

/-- Settles O12: a port's level is followed by its source; a link that falls also parks, and a pulse only raises. -/
theorem portEvents : Obligations.PortEvents := ⟨portLinkLevel, portEventSources⟩

end Sys2Proof.Machine
end

section
/-! Lines raised at another chip: one record of class EDGE, in the store of its pair and the queue of its route (R75,
R76, R279, R283). -/
namespace Sys2Proof.Machine
open Sys2Proof

/-! ## Pairs and ports after a write -/

theorem pair_congr {s t : State} (h : t.chain.pairs = s.chain.pairs) (c : Chip) : t.pair c = s.pair c := by
  unfold State.pair
  rw [h]

theorem linkPort_congr {s t : State} (h : t.chain = s.chain) (q : PortId) : t.linkPort q = s.linkPort q := by
  cases q
  · exact congrArg ChainUnit.east h
  · exact congrArg ChainUnit.west h

section
variable {s : State}

theorem setPair_pair_self (h : CanonicalChain s.chain) (c : Chip) (p : Pair) : (s.setPair c p).pair c = p :=
  (Sparse.get_set _ _ _ _ _ h.pairs).trans (if_pos rfl)

theorem setPair_pair_ne (c k : Chip) (p : Pair) (other : k ≠ c) : (s.setPair c p).pair k = s.pair k :=
  Sparse.get_set_ne _ _ _ _ _ fun e => other (BitVec.eq_of_toNat_eq e)

theorem setPair_only (c : Chip) (p : Pair) : OnlyChanges [.chain] s (s.setPair c p) := setChain_only _

@[simp] theorem setPair_linkPort (c : Chip) (p : Pair) (q : PortId) : (s.setPair c p).linkPort q = s.linkPort q := by
  cases q <;> rfl

theorem setLinkPort_self (q : PortId) (l : LinkPort) : (s.setLinkPort q l).linkPort q = l := by cases q <;> rfl

theorem setLinkPort_opposite (q : PortId) (l : LinkPort) :
    (s.setLinkPort q l).linkPort (opposite q) = s.linkPort (opposite q) := by cases q <;> rfl

theorem setLinkPort_pairs (q : PortId) (l : LinkPort) : (s.setLinkPort q l).chain.pairs = s.chain.pairs := by
  cases q <;> rfl

theorem setLinkPort_only (q : PortId) (l : LinkPort) : OnlyChanges [.chain] s (s.setLinkPort q l) := by
  cases q <;> exact setChain_only _

/-! ## Originating a record -/

/-- A flit toward a reachable chip joins the own flits of the port on its route (R276). -/
theorem originate_routed {d : DataFlit} {q : PortId} (route : s.route d.dst = some q) :
    originate s d = s.setLinkPort q { s.linkPort q with own := (s.linkPort q).own ++ [d] } := by
  unfold originate
  rw [route]

/-- The pair with a record in its store, at its next sequence (R283). -/
def storedPair (p : Pair) (r : BitVec 44) : Pair := { p with next := p.next + 1, store := p.store ++ [(p.next, r)] }

/-- The flit of class EDGE that carries a record toward a chip. -/
def edgeFlit (s : State) (c : Chip) (r : BitVec 44) : DataFlit := ⟨0, s.chipId, c, (s.pair c).next, false, [r]⟩

theorem originateEdge_routed {c : Chip} {q : PortId} (route : s.route c = some q) (r : BitVec 44) :
    originateEdge s c r = ((s.setPair c (storedPair (s.pair c) r)).setLinkPort q
      { s.linkPort q with own := (s.linkPort q).own ++ [edgeFlit s c r] }).count 12 1 := by
  have sent := originate_routed (s := s.setPair c (storedPair (s.pair c) r)) (d := edgeFlit s c r) route
  rw [setPair_linkPort] at sent
  exact congrArg (·.count 12 1) sent

/-- A record toward a reachable chip waits in the store of its pair and in the queue of the port on its route. -/
theorem originateEdge_effect (h : CanonicalChain s.chain) {c : Chip} {q : PortId} (route : s.route c = some q)
    (r : BitVec 44) :
    let t := originateEdge s c r
    t.pair c = storedPair (s.pair c) r ∧ (∀ k, k ≠ c → t.pair k = s.pair k) ∧
      t.linkPort q = { s.linkPort q with own := (s.linkPort q).own ++ [edgeFlit s c r] } ∧
      t.linkPort (opposite q) = s.linkPort (opposite q) ∧ OnlyChanges [.chain, .loupe] s t := by
  rw [originateEdge_routed route r]
  generalize stored : s.setPair c (storedPair (s.pair c) r) = u
  generalize ({ s.linkPort q with own := (s.linkPort q).own ++ [edgeFlit s c r] } : LinkPort) = l
  have chain : ((u.setLinkPort q l).count 12 1).chain = (u.setLinkPort q l).chain := count_only 12 1 .chain (by decide)
  have pair : ∀ k, ((u.setLinkPort q l).count 12 1).pair k = u.pair k :=
    pair_congr ((congrArg ChainUnit.pairs chain).trans (setLinkPort_pairs q l))
  have port := linkPort_congr chain
  subst stored
  refine ⟨(pair c).trans (setPair_pair_self h c _), fun k other => (pair k).trans (setPair_pair_ne c k _ other),
    (port q).trans (setLinkPort_self q l), ?_, ?_⟩
  · exact (port _).trans ((setLinkPort_opposite q l).trans (setPair_linkPort c _ _))
  · exact (((setPair_only c _).trans (setLinkPort_only q l)).mono (by decide)).trans ((count_only 12 1).mono (by decide))

end

/-! ## MW_CHAIN_EVENT -/

/-- A served write of MW_CHAIN_EVENT by the FM. -/
theorem exec_chainEvent {p : Path} {data : W32} {s : State} (f : pathFm p = true)
    (h : s.Serves (wordWrite p 0x3028 data)) : exec (.chainEvent p data) s = .next (writeChainEvent s data) :=
  congrArg Host.Outcome.next (fmPage (pg := .intake) (base := 0x3000) f h (by decide) (by decide) (by decide) (by decide) rfl)

theorem chainEventSendsLine : Claims.ChainEventSendsLine := by
  intro p data q s canonical f h d l other live on free room route
  have toward : ¬ (d = s.chipId ∨ ¬ s.isLive d = true ∨ s.chainMode = 0) := by
    rintro (self | dead | off)
    · exact other self
    · exact dead live
    · exact on off
  have ready : ¬ (s.lineOut d l || !s.windowOpen d) = true := by
    rw [free, room]
    decide
  have sent : writeChainEvent s data = originateEdge s d (lineRecord l) := (if_neg toward).trans (if_neg ready)
  exact ⟨_, (exec_chainEvent f h).trans (congrArg _ sent), originateEdge_effect canonical route _⟩

theorem chainEventRefused : Claims.ChainEventRefused := by
  intro p data s f h refused
  rw [exec_chainEvent f h]
  unfold writeChainEvent
  exact congrArg _ (if_pos (by simpa using refused))

/-- Settles O13: a free line toward a live chip originates one record, and a write toward any other chip reaches no
pair. -/
theorem chainLines : Obligations.ChainLines := ⟨chainEventSendsLine, chainEventRefused⟩

end Sys2Proof.Machine
end

section
/-! Source operations at the window that wrote them: queued for a message source, latched for a system source, refused
for a source of any other class (R61, R95 to R99). -/
namespace Sys2Proof.Machine
open Sys2Proof

/-! ## What a write of an operation address does -/

section
variable {s : State} {op : SrcOp} {data : W32} {req : BitVec 16}

/-- The write of a tenant on a message source is charged to its pool and waits in its queue (R61, R96). -/
theorem sourceOpWrite_message {n : Tenant} {v : Nat} (message : srcClass (data.setWidth 24) = .message v)
    (here : s.captures (some (quarterOf v)) = false) (credit : s.hasCredit n = true) :
    sourceOpWrite s (.tenant n) op data req =
      enqueue (takeCredit s n) n ⟨.op op false, BitVec.ofNat 20 v, req, .crossbar⟩ := by
  unfold sourceOpWrite
  simp only [State.opRoom, pathTenant, credit, srcQuarter, isMessage, sourceOp, message, here, Bool.not_true,
    Bool.false_eq_true, if_false, if_true]

/-- The write on a source of another class gives its charge back at once (R61). -/
theorem sourceOpWrite_other {p : Path} (other : ∀ v, srcClass (data.setWidth 24) ≠ .message v)
    (here : s.captures none = false) (credit : ∀ n, pathTenant p = some n → s.hasCredit n = true) :
    sourceOpWrite s p op data req = refundPool (sourceOp (chargePool s (pathTenant p)) (pathTenant p) op
      (data.setWidth 24) req) (pathTenant p) := by
  have quarter : srcQuarter (data.setWidth 24) = none := by
    unfold srcQuarter
    split
    next v message => exact absurd message (other v)
    next => rfl
  have notMessage : isMessage (data.setWidth 24) = false := by
    unfold isMessage
    split
    next v message => exact absurd message (other v)
    next => rfl
  have room : s.opRoom p (data.setWidth 24) = true := by
    unfold State.opRoom
    split
    next n path => exact credit n path
    next => rw [quarter, here]; rfl
  unfold sourceOpWrite
  simp only [room, quarter, here, notMessage, Bool.not_true, Bool.false_eq_true, if_false]

end

/-! ## Message sources -/

theorem sourceOperationQueued : Claims.SourceOperationQueued := by
  intro op n data req v s coherent h message here credit
  have wf := coherent.tenCanonical.recs
  have run := exec_sourceCommand op (.tenant n) data req s h
  rw [sourceOpWrite_message message here credit] at run
  obtain ⟨zero, frames, status, charged⟩ := takeCredit_record n wf
  have queued := enqueue_takeCredit wf n
    ⟨.op op false, BitVec.ofNat 20 v, if op = .setPending then req else 0, .crossbar⟩
  rw [charged] at queued
  refine ⟨_, run, by rw [queued], by rw [queued], fun m other => ?_, ?_⟩
  · exact (modTenant_ne n m _ other).trans (takeCredit_tenant_ne n m other)
  · exact (takeCredit_only s n).trans ((enqueue_only _ _ _).mono (by decide))

/-! ## System sources -/

/-- A latch with the bits that R97 gives an operation. -/
def latchedOp (op : SrcOp) (l : SysLatch) : SysLatch :=
  match op with
  | .setPending => { l with arrival := true }
  | .clrPending => { l with arrival := false, clrPend := true }
  | .setEnable => { l with setEn := true, clrEn := false }
  | .clrEnable => { l with clrEn := true, setEn := false }
  | .clrSticky => { l with clrSticky := true }

/-- With CORE ON a set pending reaches its latch as an arrival does; the other operations set their bits themselves. -/
theorem latchOp_on {s : State} {n : Nat} (defined : sysDefined n = true) (on : s.isOn dCORE = true) (op : SrcOp) :
    latchOp s n op = s.setLatch n (latchedOp op (s.latch n)) := by
  cases op with
  | setPending => exact raiseSource_on defined on
  | clrPending | setEnable | clrEnable | clrSticky => rfl

/-- The FM is refused on a system source only the enabling of one whose target is granted to nobody (R98). -/
theorem sourceOp_system {s : State} {op : SrcOp} {x : Src} {n : Nat} (req : BitVec 16) (system : srcClass x = .system n)
    (granted : op = .setEnable → s.slotOwner (cTarget (s.cfgOf x)) ≠ none) :
    sourceOp s none op x req = latchOp s n op := by
  have allowed : sysOpReason s none op x = 0 := by
    refine if_neg fun refused => ?_
    obtain ⟨enable, nobody⟩ := refused
    exact granted enable (by simpa using nobody)
  unfold sourceOp
  simp only [system, allowed, if_true]

theorem sourceOperationLatched : Claims.SourceOperationLatched := by
  intro op p data req n s canonical fm h system here granted
  have on : s.isOn dCORE = true := coreUp_core (captures_coreUp here)
  have path := pathFm_none fm
  have run := exec_sourceCommand op p data req s h
  rw [sourceOpWrite_other (by simp [system]) here (by simp [path]), path] at run
  change _ = Host.Outcome.next (sourceOp s none op (data.setWidth 24) _) at run
  rw [sourceOp_system _ system granted, latchOp_on (srcClass_defined system) on] at run
  refine ⟨_, run, (setLatch_latch_self canonical n _).trans ?_, fun k other => setLatch_latch_ne n k _ other,
    setLatch_only _ _⟩
  cases op <;> rfl

/-! ## Private and reserved sources -/

/-- A refusal is counted and leaves its sticky bit; it is recorded when it is the first (R99). -/
theorem refuseOp_record (regs : SrcRegs) (op : SrcOp) (reason : Nat) (x : Src) :
    (refuseOp regs op reason x).refused = satInc regs.refused ∧
    (refuseOp regs op reason x).status = regs.status ||| BitVec.twoPow 6 (reason - 1) ∧
    (regs.valid = false → (refuseOp regs op reason x).valid = true ∧
      (refuseOp regs op reason x).reason = BitVec.ofNat 3 reason ∧ (refuseOp regs op reason x).src = x ∧
      (refuseOp regs op reason x).op = opCode op) := by
  unfold refuseOp
  cases valid : regs.valid with
  | true => exact ⟨rfl, rfl, fun free => absurd free (by decide)⟩
  | false => exact ⟨rfl, rfl, fun _ => ⟨rfl, rfl, rfl, by cases op <;> rfl⟩⟩

theorem sourceOp_class {s : State} {w : Option Tenant} {op : SrcOp} {x : Src} (req : BitVec 16)
    (refused : srcClass x = .reserved ∨ ∃ k, srcClass x = .priv k) : sourceOp s w op x req = recordRefusal s w op 1 x := by
  unfold sourceOp
  obtain reserved | ⟨k, priv⟩ := refused
  · simp only [reserved]
  · simp only [priv]

theorem sourceOperationRefused : Claims.SourceOperationRefused := by
  intro op n data req s coherent h here credit refused
  have wf := coherent.tenCanonical.recs
  have other : ∀ v, srcClass (data.setWidth 24) ≠ .message v := fun v message => by
    obtain reserved | ⟨k, priv⟩ := refused
    · exact absurd (reserved.symm.trans message) (by simp)
    · exact absurd (priv.symm.trans message) (by simp)
  have run := exec_sourceCommand op (.tenant n) data req s h
  rw [sourceOpWrite_other (p := .tenant n) other here fun m path => Option.some.inj path ▸ credit] at run
  change _ = Host.Outcome.next (returnCredit (sourceOp (takeCredit s n) (some n) op (data.setWidth 24) _) n) at run
  rw [sourceOp_class _ refused] at run
  obtain ⟨zero, frames, status, charged⟩ := takeCredit_record n wf
  have recorded : (recordRefusal (takeCredit s n) (some n) op 1 (data.setWidth 24)).tenant n =
      { (takeCredit s n).tenant n with src := refuseOp ((takeCredit s n).tenant n).src op 1 (data.setWidth 24) } :=
    modTenant_self (takeCredit_wf wf n) n _
  have returned := returnCredit_tenant (s := recordRefusal (takeCredit s n) (some n) op 1 (data.setWidth 24))
    (setTenant_wf _ _ (takeCredit_wf wf n)) n
  rw [recorded, charged] at returned
  obtain ⟨counted, sticky, first⟩ := refuseOp_record (s.tenant n).src op 1 (data.setWidth 24)
  refine ⟨_, run, by rw [returned]; exact counted, by rw [returned]; exact sticky, fun free => ?_, fun full => ?_,
    by rw [returned], fun m apart => ?_, ?_⟩
  · rw [returned]
    exact first free
  · have nonzero := State.hasCredit_nonzero credit
    rw [returned]
    show (if ((s.tenant n).credits - 1).toNat < 440 then (s.tenant n).credits - 1 + 1 else (s.tenant n).credits - 1) = _
    rw [if_pos (by bv_omega)]
    bv_omega
  · exact (returnCredit_tenant_ne n m apart).trans ((modTenant_ne n m _ apart).trans (takeCredit_tenant_ne n m apart))
  · exact (takeCredit_only s n).trans
      (((recordRefusal_only _ _ _ _ _).trans (returnCredit_only _ _)).mono (by decide))

/-- Settles O10: the class of the source decides whether the write enters its tenant's queue, sets its latch or is
refused; the two that enter no queue give back the credit that every write of a tenant takes. -/
theorem sourceOperationsTaken : Obligations.SourceOperationsTaken :=
  ⟨sourceOperationQueued, sourceOperationLatched, sourceOperationRefused⟩

end Sys2Proof.Machine
end

section
/-! The delivery engines: what a committed, a lapsed and a withdrawn decision leave (R34, R90, R91, R127 to R129, R151). -/
namespace Sys2Proof.Machine
open Sys2Proof

theorem target_congr {s t : State} (h : t.tgt.recs = s.tgt.recs) (x : Slot) : t.target x = s.target x := by
  unfold State.target; rw [h]

/-! ## The re-check of a decision -/

/-- The source of a decision is pending, enabled and directed at the target, which has an address (R91). -/
def Deliverable (s : State) (x : Slot) (src : Src) : Prop :=
  sPending (s.stOf src) = true ∧ cEnable (s.cfgOf src) = true ∧ cFwd (s.cfgOf src) = false ∧
    cTarget (s.cfgOf src) = x ∧ (s.target x).daddr ≠ 0

theorem deliverable_iff (s : State) (x : Slot) (src : Src) : (sPending (s.stOf src) && cEnable (s.cfgOf src) &&
    !cFwd (s.cfgOf src) && cTarget (s.cfgOf src) == x && (s.target x).daddr != 0) = true ↔ Deliverable s x src := by
  simp [Deliverable, and_assoc]

/-- The state with the words and the record of a committed source, before its delivery is issued (R86, R87, R129). -/
def committed (s : State) (n : Tenant) (x : Slot) (src : Src) (tag : BitVec 8) (count : BitVec 16) : State :=
  (applyCommit (recordWait s n x src) src x).modTarget x fun r => takeActive r src tag count

section
variable {s : State} (clean : s.Clean) (n : Tenant) {x : Slot} {src : Src}
include clean

theorem commitSource_delivers (live : Deliverable s x src) :
    let c := s.cfgOf src
    let count := if cMode c then sCount (s.stOf src) else 0
    commitSource s n x src = startHoldoff (issue (committed s n x src (cTag c) count) n x (s.target x).daddr
      ((s.target x).seq + 1) count (cTag c) src) src c := by
  unfold commitSource
  simp only [readCfg_clean clean, peekSt_clean clean, (deliverable_iff s x src).mpr live, if_true]
  rfl

theorem commitSource_lapses (stale : ¬ Deliverable s x src) : commitSource s n x src = lapse s x src := by
  unfold commitSource
  simp only [readCfg_clean clean, peekSt_clean clean]
  exact if_neg (mt (deliverable_iff s x src).mp stale)

end

/-- The head of an engine is committed, with an access of its source's bank counted in the frame (R23, R90). -/
theorem exec_decisionCommit {s : State} {engine : BitVec 2} {d : Emitted} (on : s.coreOn = true)
    (head : s.engineHead engine = some d) (first : d.reissue = none) (room : s.banksOpen d.src 1 = true) :
    ∃ w, exec (.decisionCommit engine false) s = .next (commitDecision (dropEmitted (s.setUse w) d) d) := by
  obtain ⟨w, taken⟩ := takeBanks_use s d.src 1
  refine ⟨w, ?_⟩
  show execDecisionCommit engine false s = _
  unfold execDecisionCommit
  simp only [on, head, first, room, taken, Option.isSome_none, Bool.not_true, Bool.false_eq_true, if_false, if_true]

section
variable {s : State} (clean : s.Clean) {d : Emitted}
include clean

theorem commitDecision_source {n : Tenant} {i : BitVec 10} (words : HasWords d.src)
    (owner : s.slotOwner d.slot = some (n, i)) (running : s.resetting n = false) :
    commitDecision s d = commitSource s n d.slot d.src := by
  unfold commitDecision
  obtain ⟨v, message⟩ | ⟨k, system⟩ := words
  · simp only [touchTarget_clean clean, owner, running, message, Bool.false_eq_true, if_false]
  · simp only [touchTarget_clean clean, owner, running, system, Bool.false_eq_true, if_false]

theorem commitDecision_private {n : Tenant} {i : BitVec 10} {k : Nat} (priv : srcClass d.src = .priv k)
    (owner : s.slotOwner d.slot = some (n, i)) (running : s.resetting n = false) :
    commitDecision s d = commitPrivate s n d.slot d.src k := by
  unfold commitDecision
  simp only [touchTarget_clean clean, owner, running, priv, Bool.false_eq_true, if_false]

/-- A decision whose re-check fails lapses, whoever holds its target (R91). -/
theorem commitDecision_lapses (words : HasWords d.src) (stale : ¬ Deliverable s d.slot d.src) :
    commitDecision s d = lapse s d.slot d.src := by
  cases owner : s.slotOwner d.slot with
  | none =>
    unfold commitDecision
    simp only [touchTarget_clean clean, owner]
  | some o =>
    obtain ⟨n, i⟩ := o
    cases running : s.resetting n with
    | true =>
      unfold commitDecision
      simp only [touchTarget_clean clean, owner, running, if_true]
    | false => rw [commitDecision_source clean words owner running, commitSource_lapses clean n stale]

end

/-! ## A delivery -/

/-- From `s` to `t` target `x` of tenant `n` has been delivered source `src` with a tag and a count: one write has left for
the fabric port, the record of the target has taken it, and the tenant counts it (R127 to R129). -/
structure Delivered (s t : State) (n : Tenant) (x : Slot) (src : Src) (tag : BitVec 8) (count : BitVec 16) : Prop where
  written    : t.tgt.fabOut = s.tgt.fabOut ++ [deliveryOf s n x (s.target x) count tag src]
  seq        : (t.target x).seq = (s.target x).seq + 1
  active     : (t.target x).active = some src
  tag        : (t.target x).tag = tag
  count      : (t.target x).count = count
  redeliver  : (t.target x).redeliver = false
  daddr      : (t.target x).daddr = (s.target x).daddr
  parked     : (t.target x).parked = (s.target x).parked
  others     : ∀ y, y ≠ x → t.target y = s.target y
  emitted    : t.tgt.emitted = s.tgt.emitted
  busy       : t.tgt.busy = s.tgt.busy
  deliveries : (t.tenant n).deliveries = (s.tenant n).deliveries + 1
  tenants    : ∀ m, m ≠ n → t.tenant m = s.tenant m

theorem issue_target (s : State) (n : Tenant) (x : Slot) (a : W64) (q c : BitVec 16) (g : BitVec 8) (src : Src) (y : Slot) :
    (issue s n x a q c g src).target y = s.target y := rfl

/-- The issue of a record that has taken its source delivers it. `q` is the record as it was, but for its shortlist and
the pending bits of P sources. -/
theorem issue_delivered {s v : State} (wf : Sparse.wf {} s.ten.recs = true) {n : Tenant} {x : Slot} {src : Src}
    {tag : BitVec 8} {count : BitVec 16} (ten : v.ten = s.ten) (requests : SameButRequests s.tgt v.tgt)
    (others : ∀ y, y ≠ x → v.target y = s.target y) {q : TargetRec} (record : v.target x = takeActive q src tag count)
    (seq : q.seq = (s.target x).seq) (daddr : q.daddr = (s.target x).daddr) (parked : q.parked = (s.target x).parked) :
    Delivered s (issue v n x (s.target x).daddr ((s.target x).seq + 1) count tag src) n x src tag count := by
  have tgt := issue_tgt v n x (s.target x).daddr ((s.target x).seq + 1) count tag src
  have target := issue_target v n x (s.target x).daddr ((s.target x).seq + 1) count tag src
  have tenant : ∀ m, v.tenant m = s.tenant m := tenant_congr ten
  have counted := tenant_congr (issue_ten v n x (s.target x).daddr ((s.target x).seq + 1) count tag src)
  rw [requests] at tgt
  exact {
    written := by rw [tgt, tenant]; rfl
    seq := by rw [target, record, ← seq]; rfl
    active := by rw [target, record]; rfl
    tag := by rw [target, record]; rfl
    count := by rw [target, record]; rfl
    redeliver := by rw [target, record]; rfl
    daddr := by rw [target, record]; exact daddr
    parked := by rw [target, record]; exact parked
    others := fun y other => (target y).trans (others y other)
    emitted := by rw [tgt]
    busy := by rw [tgt]
    deliveries := by rw [counted, modTenant_self (by rw [ten]; exact wf), tenant]
    tenants := fun m other => by rw [counted, modTenant_ne n m _ other, tenant] }

/-- What changes neither targets nor tenants' records leaves a delivery as it is. -/
theorem Delivered.of_same {s t u : State} {n : Tenant} {x : Slot} {src : Src} {tag : BitVec 8} {count : BitVec 16}
    (h : Delivered s t n x src tag count) (tgt : u.tgt = t.tgt) (recs : u.ten.recs = t.ten.recs) :
    Delivered s u n x src tag count := by
  have target : ∀ y, u.target y = t.target y := target_congr (congrArg TgtUnit.recs tgt)
  have tenant : ∀ m, u.tenant m = t.tenant m := fun m => by unfold State.tenant; rw [recs]
  exact {
    written := by rw [tgt, h.written]
    seq := by rw [target, h.seq]
    active := by rw [target, h.active]
    tag := by rw [target, h.tag]
    count := by rw [target, h.count]
    redeliver := by rw [target, h.redeliver]
    daddr := by rw [target, h.daddr]
    parked := by rw [target, h.parked]
    others := fun y other => (target y).trans (h.others y other)
    emitted := by rw [tgt, h.emitted]
    busy := by rw [tgt, h.busy]
    deliveries := by rw [tenant, h.deliveries]
    tenants := fun m other => (tenant m).trans (h.tenants m other) }

/-! ## Message and system sources -/

theorem modTarget_target_self {s : State} (wf : Sparse.wf {} s.tgt.recs = true) (x : Slot) (f : TargetRec → TargetRec) :
    (s.modTarget x f).target x = f (s.target x) := State.setTarget_target_self _ _ _ wf

theorem modTarget_target_ne {s : State} (x : Slot) (f : TargetRec → TargetRec) {y : Slot} (other : y ≠ x) :
    (s.modTarget x f).target y = s.target y := State.setTarget_target_ne _ _ _ _ other

/-- A write of a record requests no pass. -/
theorem modTarget_requests {u : TgtUnit} {s : State} (h : SameButRequests u s.tgt) (x : Slot) (f : TargetRec → TargetRec) :
    SameButRequests u (s.modTarget x f).tgt := by
  have recs : (s.modTarget x f).tgt = { s.tgt with recs := (s.modTarget x f).tgt.recs } := rfl
  unfold SameButRequests at h ⊢
  rw [recs, h]

/-- From `s` to `t` the state word of a source takes the commit row; no other word changes (R86, R87). -/
structure CommittedWords (s t : State) (src : Src) : Prop where
  state   : t.stOf src = commitWord (s.stOf src)
  states  : ∀ y, y ≠ src → t.stOf y = s.stOf y
  configs : ∀ y, t.cfgOf y = s.cfgOf y

theorem CommittedWords.of_vec {s t s' t' : State} {src : Src} (h : CommittedWords s t src) (before : s'.vec = s.vec)
    (after : t'.vec = t.vec) : CommittedWords s' t' src where
  state := by rw [stOf_congr after, stOf_congr before, h.state]
  states y other := by rw [stOf_congr after, stOf_congr before, h.states y other]
  configs y := by rw [cfgOf_congr after, cfgOf_congr before, h.configs y]

section
variable {s : State} (coherent : Coherent s) (clean : s.Clean) (src : Src) (x : Slot)
include clean

theorem applyCommit_clean : applyCommit s src x = removeRaw (s.putSt src (commitWord (s.stOf src))) x src := by
  unfold applyCommit
  rw [writeSt_clean clean, removeSrc_clean (clean.putSt _ _)]

theorem applyCommit_only : OnlyChanges [.vec, .tgt] s (applyCommit s src x) := by
  rw [applyCommit_clean clean]
  exact ((putSt_only _ _ _).mono (by decide)).trans ((removeRaw_only _ _ _).mono (by decide))

include coherent

theorem applyCommit_words (words : HasWords src) : CommittedWords s (applyCommit s src x) src := by
  rw [applyCommit_clean clean]
  exact {
    state := (removeRaw_stOf _ _ _).trans (putSt_stOf_self coherent.vecCanonical words _)
    states := fun y other => (removeRaw_stOf _ _ _).trans (putSt_stOf_ne other _)
    configs := fun y => (removeRaw_cfgOf _ _ _).trans (putSt_cfgOf _ _ _) }

/-- The source leaves the shortlist of its target, which may ask for a refill (R118). -/
theorem applyCommit_target : SameButRefill (s.target x) ((applyCommit s src x).target x) ∧
    (∀ y, y ≠ x → (applyCommit s src x).target y = s.target y) ∧ SameButRequests s.tgt (applyCommit s src x).tgt := by
  have tgt : (s.putSt src (commitWord (s.stOf src))).tgt = s.tgt := putSt_only _ _ _ .tgt (by decide)
  have effect := removeRaw_effect (s := s.putSt src (commitWord (s.stOf src)))
    (by rw [tgt]; exact coherent.tgtCanonical.recs) x src
  simp only [target_congr (congrArg TgtUnit.recs tgt), tgt] at effect
  rw [applyCommit_clean clean]
  exact effect

end

/-- A committed source has its words and its record written, and its wait recorded; nothing else changes. -/
theorem committed_effect {s : State} (coherent : Coherent s) (clean : s.Clean) (n : Tenant) (x : Slot) {src : Src}
    (words : HasWords src) (tag : BitVec 8) (count : BitVec 16) :
    let t := committed s n x src tag count
    (∃ q, SameButRefill (s.target x) q ∧ t.target x = takeActive q src tag count) ∧
    (∀ y, y ≠ x → t.target y = s.target y) ∧ SameButRequests s.tgt t.tgt ∧ CommittedWords s t src ∧
    OnlyChanges [.tgt, .vec, .loupe] s t := by
  have waited := recordWait_only s n x src
  have kept := recordWait_keeps (queue := s.pending) s n x src ⟨coherent, rfl⟩
  unfold committed
  generalize recordWait s n x src = v at waited kept
  have cleanV : v.Clean := clean.of_ras (waited .ras (by decide))
  have keptU := applyCommit_keeps v src x kept
  have row := applyCommit_words kept.toCoherent cleanV src x words
  obtain ⟨record, others, requests⟩ := applyCommit_target kept.toCoherent cleanV src x
  have only := applyCommit_only cleanV src x
  have tgt : v.tgt = s.tgt := waited .tgt (by decide)
  simp only [target_congr (congrArg TgtUnit.recs tgt), tgt] at record others requests
  generalize applyCommit v src x = u at *
  refine ⟨⟨_, record, modTarget_target_self keptU.tgtCanonical.recs x _⟩, fun y other => ?_,
    modTarget_requests requests x _, row.of_vec (waited .vec (by decide)).symm rfl, ?_⟩
  · exact (modTarget_target_ne x _ other).trans (others y other)
  · exact (waited.mono (by decide)).trans ((only.mono (by decide)).trans ((modTarget_only x _).mono (by decide)))

/-- The count of a delivery changes no one's ranges, so every source stands in its group as before. -/
theorem issue_groupOf {s : State} (wf : Sparse.wf {} s.ten.recs = true) (n : Tenant) (x : Slot) (a : W64)
    (q c : BitVec 16) (g : BitVec 8) (src y : Src) (w : W64) :
    (issue s n x a q c g src).groupOf y w = s.groupOf y w :=
  groupOf_recs (modTenant_rangeOwner wf n (fun r => { r with deliveries := r.deliveries + 1 }) rfl) rfl y w

theorem issue_clasp (s : State) (n : Tenant) (x : Slot) (a : W64) (q c : BitVec 16) (g : BitVec 8) (src : Src) :
    (issue s n x a q c g src).ten.clasp = s.ten.clasp := rfl

/-- The hold-off of a group starts with its interval; no other group changes, and no tenant's record (R151). -/
theorem startHoldoff_effect {s : State} (clean : s.Clean) (wf : Sparse.wf {} s.ten.clasp = true) (src : Src) (c : W64) :
    (∀ g, s.groupOf src c = some g → ((startHoldoff s src c).clasp g).remaining = (s.clasp g).interval) ∧
    (∀ g, s.groupOf src c ≠ some g → (startHoldoff s src c).clasp g = s.clasp g) ∧
    (startHoldoff s src c).ten.recs = s.ten.recs := by
  rw [startHoldoff_clean clean]
  cases group : s.groupOf src c with
  | none => exact ⟨fun g member => absurd member (by simp), fun _ _ => rfl, rfl⟩
  | some g =>
    refine ⟨fun k member => ?_, fun k other => ?_, rfl⟩
    · obtain rfl := Option.some.inj member
      exact congrArg ClaspWord.remaining (State.setClasp_clasp_self _ _ _ wf)
    · exact State.setClasp_clasp_ne _ _ _ _ fun same => other (congrArg some same.symm)

/-- A decision that passes its re-check delivers its source, whose state word takes the commit row, and starts the
hold-off of its group (R86, R87, R90, R151). -/
theorem commitSource_effect {s : State} (coherent : Coherent s) (clean : s.Clean) (n : Tenant) {x : Slot} {src : Src}
    (words : HasWords src) (live : Deliverable s x src) :
    let c := s.cfgOf src
    let t := commitSource s n x src
    Delivered s t n x src (cTag c) (if cMode c then sCount (s.stOf src) else 0) ∧ CommittedWords s t src ∧
    (t.target x).privPend = (s.target x).privPend ∧
    ((∀ g, s.groupOf src c = some g → (t.clasp g).remaining = (s.clasp g).interval) ∧
      ∀ g, s.groupOf src c ≠ some g → t.clasp g = s.clasp g) ∧
    OnlyChanges [.tgt, .vec, .ten, .loupe] s t := by
  intro c t
  have run : t = _ := commitSource_delivers clean n live
  clear_value t
  generalize (if cMode (s.cfgOf src) then sCount (s.stOf src) else 0) = count at run ⊢
  obtain ⟨⟨q, same, record⟩, others, requests, row, only⟩ := committed_effect coherent clean n x words (cTag c) count
  generalize committed s n x src (cTag (s.cfgOf src)) count = v at run record others requests row only
  have ten : v.ten = s.ten := only .ten (by decide)
  have wf : Sparse.wf {} v.ten.recs = true := ten ▸ coherent.tenCanonical.recs
  have delivered := issue_delivered (n := n) coherent.tenCanonical.recs ten requests others record (by rw [same])
    (by rw [same]) (by rw [same])
  have issued := issue_only v n x (s.target x).daddr ((s.target x).seq + 1) count (cTag c) src
  have target := issue_target v n x (s.target x).daddr ((s.target x).seq + 1) count (cTag c) src x
  have clasp := (issue_clasp v n x (s.target x).daddr ((s.target x).seq + 1) count (cTag c) src).trans
    (congrArg TenUnit.clasp ten)
  have group := (issue_groupOf wf n x (s.target x).daddr ((s.target x).seq + 1) count (cTag c) src src c).trans
    (groupOf_recs (rangeOwner_congr ten) (congrArg TenUnit.clasp ten) src c)
  generalize issue v n x (s.target x).daddr ((s.target x).seq + 1) count (cTag (s.cfgOf src)) src = u
    at run delivered issued target clasp group
  have onlyU : OnlyChanges [.tgt, .vec, .ten, .loupe] s u := (only.mono (by decide)).trans (issued.mono (by decide))
  have cleanU : u.Clean := clean.of_ras (onlyU .ras (by decide))
  have clasps : ∀ g, u.clasp g = s.clasp g := fun g => by unfold State.clasp; rw [clasp]
  obtain ⟨started, unstarted, recs⟩ := startHoldoff_effect cleanU (clasp ▸ coherent.tenCanonical.clasp) src c
  have held := startHoldoff_only cleanU src c
  rw [← run] at started unstarted recs held
  have tgt : t.tgt = u.tgt := held .tgt (by decide)
  refine ⟨delivered.of_same tgt recs, row.of_vec rfl ((held .vec (by decide)).trans (issued .vec (by decide))), ?_,
    ⟨fun g member => ?_, fun g other => ?_⟩, onlyU.trans (held.mono (by decide))⟩
  · rw [target_congr (congrArg TgtUnit.recs tgt), target, record, same]
    rfl
  · rw [started g (group.trans member), clasps]
  · rw [unstarted g (group ▸ other), clasps]

/-! ## Private sources -/

/-- A record without pending bit `k`. -/
def withoutPending (r : TargetRec) (k : Nat) : TargetRec := { r with privPend := r.privPend &&& ~~~ BitVec.twoPow 13 k }

/-- The commit of a pending, enabled P source takes its pending bit, and delivers it with tag and count 0 (R114). -/
theorem commitPrivate_effect {s : State} (coherent : Coherent s) (n : Tenant) {x : Slot} {src : Src} {k : Nat}
    (pending : (s.target x).privPend.getLsbD k = true) (enabled : (s.target x).privEn.getLsbD k = true)
    (addressed : (s.target x).daddr ≠ 0) :
    let t := commitPrivate s n x src k
    Delivered s t n x src 0 0 ∧ (t.target x).privPend = (s.target x).privPend &&& ~~~ BitVec.twoPow 13 k ∧
    (∀ g, t.clasp g = s.clasp g) ∧ OnlyChanges [.tgt, .ten, .loupe] s t := by
  have run : commitPrivate s n x src k = issue (s.setTarget x (takeActive (withoutPending (s.target x) k) src 0 0)) n x
      (s.target x).daddr ((s.target x).seq + 1) 0 0 src := by
    unfold commitPrivate
    exact if_pos (by simpa [pending, enabled] using addressed)
  have same : (withoutPending (s.target x) k).seq = (s.target x).seq ∧
      (withoutPending (s.target x) k).daddr = (s.target x).daddr ∧
      (withoutPending (s.target x) k).parked = (s.target x).parked ∧
      (withoutPending (s.target x) k).privPend = (s.target x).privPend &&& ~~~ BitVec.twoPow 13 k := ⟨rfl, rfl, rfl, rfl⟩
  generalize withoutPending (s.target x) k = q at run same
  obtain ⟨seq, daddr, parked, pend⟩ := same
  have record := State.setTarget_target_self (s := s) x (takeActive q src 0 0) coherent.tgtCanonical.recs
  rw [run]
  refine ⟨?_, ?_, fun g => ?_, ?_⟩
  · exact issue_delivered coherent.tenCanonical.recs rfl rfl
      (fun y other => State.setTarget_target_ne _ _ _ _ other) record seq daddr parked
  · rw [issue_target, record]
    exact pend
  · unfold State.clasp
    rw [issue_clasp, State.setTarget_ten]
  · exact ((setTarget_only _ _).mono (by decide)).trans ((issue_only _ _ _ _ _ _ _ _).mono (by decide))

/-- Settles O21: the decision leaves its engine with the access counted, and the state that is left commits it by the class
of its source. -/
theorem decisionCommitDelivers : Obligations.DecisionCommitDelivers := by
  intro engine d n i s coherent clean on head first room owner running addressed r delivers c w
  obtain ⟨use, run⟩ := exec_decisionCommit on head first room
  have kept : Coherent (dropEmitted (s.setUse use) d) :=
    (dropEmitted_keeps (queue := s.pending) _ d (State.setUse_keeps s use ⟨coherent, rfl⟩)).toCoherent
  have cleanU : (dropEmitted (s.setUse use) d).Clean := clean.of_ras rfl
  have only : OnlyChanges [.frame, .tgt] s (dropEmitted (s.setUse use) d) :=
    ((setUse_only use).mono (by decide)).trans ((setTgt_only _).mono (by decide))
  have asDelivered : ∀ {tag count t}, Delivered (dropEmitted (s.setUse use) d) t n d.slot d.src tag count →
      t.frame = (s.setUse use).frame → delivers tag count t := fun h frame =>
    ⟨h.written, by unfold SameButUse; rw [frame]; rfl, h.seq, h.active, h.tag, h.count, h.redeliver, h.daddr, h.parked,
      h.others, h.emitted, h.busy, h.deliveries, h.tenants⟩
  refine ⟨fun words pending enabled unforwarded directed => ?_, fun k priv pending enabled => ?_⟩
  · have live : Deliverable (dropEmitted (s.setUse use) d) d.slot d.src :=
      ⟨pending, enabled, unforwarded, directed, addressed⟩
    obtain ⟨delivered, row, pend, ⟨started, unstarted⟩, rest⟩ := commitSource_effect kept cleanU n words live
    rw [commitDecision_source cleanU words owner running] at run
    exact ⟨_, run, asDelivered delivered (rest .frame (by decide)), row.state, row.states, row.configs, pend,
      started, unstarted, (only.mono (by decide)).trans (rest.mono (by decide))⟩
  · obtain ⟨delivered, pend, clasps, rest⟩ := commitPrivate_effect (src := d.src) kept n pending enabled addressed
    rw [commitDecision_private cleanU priv owner running] at run
    exact ⟨_, run, asDelivered delivered (rest .frame (by decide)), pend, clasps,
      (only.mono (by decide)).trans (rest.mono (by decide))⟩

/-! ## Lapse and withdrawal -/

/-- A lapse before the shortlist is looked at: it is counted, and the target's busy bit is to be cleared (R91). -/
def lapseCounted (s : State) (x : Slot) : State :=
  ((s.setVec { s.vec with lapsed := true, lapsedCount := satInc s.vec.lapsedCount }).clearBusyNext x).count 9 1

/-- A lapse changes the target's shortlist by the removal of its source at most (R117). -/
theorem lapse_cases (s : State) (x : Slot) (src : Src) :
    lapse s x src = lapseCounted s x ∨ lapse s x src = removeSrc (lapseCounted s x) x src := by
  unfold lapse
  dsimp only
  split
  · exact .inl rfl
  · split
    · exact .inl rfl
    · exact .inr rfl

/-- The busy bit of a target that is to be cleared at the next tick is marked so (R32). -/
theorem clearBusyNext_marked {s : State} (wf : Sparse.wf false s.tgt.busyClear = true) (x : Slot) :
    Sparse.get false (s.clearBusyNext x).tgt.busyClear x.toNat = true :=
  (Sparse.get_set false s.tgt.busyClear x.toNat true x.toNat wf).trans (if_pos rfl)

theorem lapse_effect {s : State} (canonical : CanonicalTgt s.tgt) (clean : s.Clean) (x : Slot) (src : Src) :
    let t := lapse s x src
    t.vec = { s.vec with lapsed := true, lapsedCount := satInc s.vec.lapsedCount } ∧
    SameButRefill (s.target x) (t.target x) ∧ (∀ y, y ≠ x → t.target y = s.target y) ∧
    SameButRequests (s.clearBusyNext x).tgt t.tgt ∧ OnlyChanges [.vec, .tgt, .loupe] s t := by
  have counted : OnlyChanges [.vec, .tgt, .loupe] s (lapseCounted s x) :=
    ((setVec_only _).mono (by decide)).trans
      (((clearBusyNext_only x).mono (by decide)).trans ((count_only 9 1).mono (by decide)))
  obtain plain | removed := lapse_cases s x src
  · rw [plain]
    exact ⟨rfl, rfl, fun _ _ => rfl, rfl, counted⟩
  · rw [removed, removeSrc_clean (clean.of_ras (counted .ras (by decide)))]
    obtain ⟨record, others, requests⟩ := removeRaw_effect (s := lapseCounted s x) canonical.recs x src
    have only := removeRaw_only (lapseCounted s x) x src
    exact ⟨only .vec (by decide), record, others, requests, counted.trans (only.mono (by decide))⟩

theorem decisionCommitLapses : Claims.DecisionCommitLapses := by
  intro engine d s coherent clean on head first room words stale
  obtain ⟨use, run⟩ := exec_decisionCommit on head first room
  have cleanU : (dropEmitted (s.setUse use) d).Clean := clean.of_ras rfl
  have canonical : CanonicalTgt (dropEmitted (s.setUse use) d).tgt :=
    (dropEmitted_keeps (queue := s.pending) _ d (State.setUse_keeps s use ⟨coherent, rfl⟩)).tgtCanonical
  rw [commitDecision_lapses cleanU words stale] at run
  obtain ⟨vec, record, others, requests, only⟩ := lapse_effect canonical cleanU d.slot d.src
  have before : OnlyChanges [.frame, .tgt] s (dropEmitted (s.setUse use) d) :=
    ((setUse_only use).mono (by decide)).trans ((setTgt_only _).mono (by decide))
  refine ⟨_, run, by rw [requests]; rfl, vec, ?_, by rw [requests]; rfl, by rw [record]; rfl, by rw [record]; rfl, others,
    ?_, (before.mono (by decide)).trans (only.mono (by decide))⟩
  · rw [requests]
    exact clearBusyNext_marked canonical.busyClear d.slot
  · unfold SameButUse
    rw [only .frame (by decide)]
    rfl

/-- A decision withdrawn with CORE ON is counted, raises S:0x279 and marks its target's busy bit (R34). -/
theorem withdraw_effect {s : State} (canonical : CanonicalSys s.sys) (on : s.isOn dCORE = true) {d : Emitted}
    (first : d.reissue = none) :
    let t := withdraw s d
    t.frame = { s.frame with withdrawn := true, withdrawnCount := satInc s.frame.withdrawnCount } ∧
    (t.latch 0x279).arrival = true ∧ t.tgt = (s.clearBusyNext d.slot).tgt ∧
    OnlyChanges [.frame, .sys, .tgt, .loupe] s t := by
  have marked := setFrame_only (s := s) { s.frame with withdrawn := true, withdrawnCount := satInc s.frame.withdrawnCount }
  have steps : withdraw s d = ((raiseSource (s.setFrame { s.frame with
      withdrawn := true, withdrawnCount := satInc s.frame.withdrawnCount }) 0x279).count 9 1).clearBusyNext d.slot := by
    unfold withdraw
    simp only [first]
  obtain ⟨arrival, -, raised⟩ := raiseSource_effect (s := s.setFrame { s.frame with
    withdrawn := true, withdrawnCount := satInc s.frame.withdrawnCount }) (n := 0x279) canonical rfl on
  rw [steps]
  generalize raiseSource _ 0x279 = v at arrival raised
  have tgt : v.tgt = s.tgt := raised .tgt (by decide)
  have cleared : OnlyChanges [.loupe, .tgt] v ((v.count 9 1).clearBusyNext d.slot) :=
    ((count_only 9 1).mono (by decide)).trans ((clearBusyNext_only _).mono (by decide))
  refine ⟨raised .frame (by decide), arrival, ?_, ?_⟩
  · show ({ v.tgt with busyClear := Sparse.set false v.tgt.busyClear d.slot.toNat true } : TgtUnit) = _
    rw [tgt]
    rfl
  · exact (marked.mono (by decide)).trans ((raised.mono (by decide)).trans (cleared.mono (by decide)))

theorem decisionWithdrawn : Claims.DecisionWithdrawn := by
  intro engine d s coherent on head first
  have run : exec (.decisionWithdraw engine) s = .next (withdraw (dropEmitted (exceed s) d) d) := by
    show execDecisionWithdraw engine s = _
    unfold execDecisionWithdraw
    simp only [head]
  have before : OnlyChanges [.frame, .tgt] s (dropEmitted (exceed s) d) :=
    ((setUse_only _).mono (by decide)).trans ((setTgt_only _).mono (by decide))
  obtain ⟨frame, arrival, tgt, only⟩ := withdraw_effect (s := dropEmitted (exceed s) d) coherent.sysCanonical on first
  refine ⟨_, run, frame, arrival, ?_, by rw [tgt]; rfl, by rw [tgt]; rfl, fun y => target_congr (by rw [tgt]; rfl) y,
    (before.mono (by decide)).trans only⟩
  rw [tgt]
  exact clearBusyNext_marked (s := dropEmitted (exceed s) d) coherent.tgtCanonical.busyClear d.slot

/-- Settles O22: a decision that fails its re-check, and one that is withdrawn, mark the target's busy bit and issue
nothing; each is counted where it belongs. -/
theorem decisionsNotDelivered : Obligations.DecisionsNotDelivered := ⟨decisionCommitLapses, decisionWithdrawn⟩

end Sys2Proof.Machine
end

section
/-! The two commands that write one configuration word (R79, R100 to R102, R209, R214). -/
namespace Sys2Proof.Machine
open Sys2Proof

section
variable {s : State}

theorem withDomains_on {ds : List Nat} (on : s.allOn ds = true) (k : State) : withDomains s ds k = k := if_pos on

theorem inLastSlot_free {n : Nat} (free : s.slotFree n = true) (k : State → State) : inLastSlot s n k = k (takeSlot s n) :=
  if_pos free

theorem readWordsOf_clean (clean : s.Clean) (x : Src) : readWordsOf s x = s := by
  unfold readWordsOf
  rw [readCfg_clean clean, peekSt_clean clean]

theorem allOn_core (up : s.coreUp = true) : s.allOn [dCORE] = true := allOn_one (coreUp_core up)

end

/-! ## VECTOR_SET -/

/-- A configuration word that passes its checks is written, and answered with both words as they then stand (R209). -/
theorem setConfig_passed {s : State} (clean : s.Clean) {m : BitVec 7} {x : Src} {new : W64}
    (passed : cfgCheck s (mbTenant m) x new = none) :
    setConfig s m x new = finish (applyConfig s x new) m (okReply (bytesLE 8 ((applyConfig s x new).cfgOf x).toNat ++
      bytesLE 4 ((applyConfig s x new).stOf x).toNat ++ bytesLE 4 (applyConfig s x new).frameLo.toNat)) := by
  unfold setConfig
  rw [readGroupWord_clean clean]
  simp only [passed]

/-- The write is made in the last mailbox slot where the word moves its source, and at once otherwise: in either case in
a state that differs in the frame's use alone (R101). -/
theorem exec_vectorSet {s : State} (clean : s.Clean) {m : BitVec 7} {c : Snap} (holds : s.Holds m 0x13 c)
    (up : s.coreUp = true) :
    let x := snapSrc c 0x08
    let new : W64 := BitVec.ofNat 64 (snapField c 0x10 8)
    HasWords x → ownCheck s (mbTenant m) x = none → s.allOn (wordDomains x) = true →
    (cfgMoves (s.cfgOf x) new = true → s.slotFree (srcSlot x) = true) →
    ∃ w, exec (.vectorSet m) s = .next (setConfig (s.setUse w) m x new) := by
  intro x new words own on slot
  have run : exec (.vectorSet m) s = .next (vectorSet s m c) :=
    congrArg Host.Outcome.next (runTaken_holds holds rfl (allOn_core up))
  have steps : vectorSet s m c = if cfgMoves (s.cfgOf x) new then inLastSlot s (srcSlot x) fun s => setConfig s m x new
      else setConfig s m x new := by
    unfold vectorSet
    simp only [isWord_of words, own, withDomains_on on, readWordsOf_clean clean, x, new, Bool.not_true, Bool.false_eq_true,
      if_false]
  rw [run, steps]
  by_cases moves : cfgMoves (s.cfgOf x) new = true
  · rw [if_pos moves, inLastSlot_free (slot moves)]
    exact ⟨_, rfl⟩
  · rw [if_neg moves]
    exact ⟨s.frame.use, rfl⟩

theorem vectorConfigured : Claims.VectorConfigured := by
  intro m c s coherent clean holds up x new w words own on passed slot
  obtain ⟨use, run⟩ := exec_vectorSet clean holds up words own on slot
  have cleanU : (s.setUse use).Clean := clean.of_ras rfl
  rw [setConfig_passed cleanU (show cfgCheck (s.setUse use) (mbTenant m) x new = none from passed)] at run
  obtain ⟨word, state, others, only⟩ := applyConfig_effect cleanU coherent.vecCanonical words new
  generalize applyConfig (s.setUse use) (snapSrc c 0x08) (BitVec.ofNat 64 (snapField c 0x10 8)) = t
    at run word state others only
  have frame : t.frame = { s.frame with use := use } := only .frame (by decide)
  have frameLo : t.frameLo = s.frameLo := by
    unfold State.frameLo
    rw [frame]
  rw [word, frameLo] at run
  refine ⟨_, run, word, state, others, finish_answered coherent.mbxCanonical (only .mbx (by decide)) m _, ?_, ?_⟩
  · show t.frame = { s.frame with use := t.frame.use }
    rw [frame]
  · exact ((setUse_only use).mono (by decide)).trans ((only.mono (by decide)).trans ((finish_only _ _).mono (by decide)))

/-! ## FORWARD_SET -/

theorem holder_words {s : State} {x : Src} {n : Tenant} (held : s.holder x = some n) : HasWords x := by
  unfold State.holder at held
  split at held
  next v message => exact .inl ⟨v, message⟩
  next => cases held

/-- Both words of a source are written: they read back, and no other word changes. -/
theorem putWords_effect {s : State} (coherent : Coherent s) {x : Src} (words : HasWords x) (c : W64) (w : W32) :
    let t := (s.putCfg x c).putSt x w
    t.cfgOf x = c ∧ t.stOf x = w ∧ (∀ y, y ≠ x → t.cfgOf y = s.cfgOf y ∧ t.stOf y = s.stOf y) ∧ OnlyChanges [.vec] s t := by
  have canonical := (State.putCfg_keeps (queue := s.pending) s x c ⟨coherent, rfl⟩).vecCanonical
  refine ⟨?_, putSt_stOf_self canonical words w, fun y apart => ⟨?_, ?_⟩, (putCfg_only _ _ _).trans (putSt_only _ _ _)⟩
  · exact (putSt_cfgOf x x w).trans (putCfg_cfgOf_self coherent.vecCanonical words c)
  · exact (putSt_cfgOf x y w).trans (putCfg_cfgOf_ne apart c)
  · exact (putSt_stOf_ne apart w).trans (putCfg_stOf x y c)

/-- An idle vector of a tenant takes the forwarding form in the last mailbox slot, with a state word of 0 (R79, R214). -/
theorem exec_forwardSet {s : State} (clean : s.Clean) {m : BitVec 7} {c : Snap} {n : Tenant} (holds : s.Holds m 0x16 c)
    (up : s.coreUp = true) :
    let x := snapSrc c 0x08
    let fwd := forwardWord (BitVec.ofNat 32 (snapField c 0x0C 4))
    s.slotFree (srcSlot x) = true → s.holder x = some n → s.resetting n = false → s.allOn (wordDomains x) = true →
    s.pwr.watch.contains x = false → lostSource s x = false → sPending (s.stOf x) = false →
    sActive (s.stOf x) = false → s.chainMode ≠ 0 → cDestChip fwd ≠ s.chipId →
    let u := ((takeSlot s (srcSlot x)).putCfg x fwd).putSt x 0
    exec (.forwardSet m) s = .next (finish u m (okReply (bytesLE 8 (u.cfgOf x).toNat))) := by
  intro x fwd slot held running on unwatched kept idle inactive ring other
  have run : exec (.forwardSet m) s = .next (forwardSet s m c) :=
    congrArg Host.Outcome.next (runTaken_holds holds rfl (allOn_core up))
  have unreset : s.holderResets x = false := by
    unfold State.holderResets
    rw [held]
    exact running
  have same : ∀ k, (takeSlot s k).pwr = s.pwr ∧ lostSource (takeSlot s k) x = lostSource s x ∧
      (takeSlot s k).stOf x = s.stOf x ∧ (takeSlot s k).chainMode = s.chainMode ∧ (takeSlot s k).chipId = s.chipId ∧
      (takeSlot s k).Clean := fun k => ⟨rfl, rfl, rfl, rfl, rfl, clean.of_ras rfl⟩
  obtain ⟨pwr, lost, st, mode, chip, cleanU⟩ := same (srcSlot x)
  rw [run]
  unfold forwardSet
  simp only [x, fwd] at *
  rw [held, unreset, withDomains_on on, inLastSlot_free slot]
  generalize takeSlot s (srcSlot (snapSrc c 0x08)) = v at *
  simp only [readWordsOf_clean cleanU, pwr, lost, st, mode, chip, unwatched, kept, idle, inactive, if_neg ring,
    if_neg other, Option.isNone_some, Bool.or_self, Bool.false_eq_true, if_false, writeCfg_clean cleanU,
    writeSt_clean (cleanU.putCfg _ _)]

theorem vectorForwarded : Claims.VectorForwarded := by
  intro m c n s coherent clean holds up x fwd slot held running on unwatched kept idle inactive ring other
  have run := exec_forwardSet clean holds up slot held running on unwatched kept idle inactive ring other
  have taken := (takeSlot_keeps (queue := s.pending) s (srcSlot x) ⟨coherent, rfl⟩).toCoherent
  obtain ⟨word, state, others, only⟩ := putWords_effect taken (holder_words held) fwd 0
  dsimp only at run
  generalize ((takeSlot s (srcSlot x)).putCfg x fwd).putSt x 0 = u at run word state others only
  rw [word] at run
  refine ⟨_, run, word, state, others, finish_answered coherent.mbxCanonical (only .mbx (by decide)) m _, ?_, ?_⟩
  · show u.frame = { s.frame with use := u.frame.use }
    rw [only .frame (by decide)]
    rfl
  · exact ((setUse_only _).mono (by decide)).trans ((only.mono (by decide)).trans ((finish_only _ _).mono (by decide)))

/-- Settles O33: each command, past its checks, comes to the write of its words in a state that differs in the frame's
use alone. -/
theorem vectorWords : Obligations.VectorWords := ⟨vectorConfigured, vectorForwarded⟩

end Sys2Proof.Machine
end

section
/-! Drop notices: what CORE records of one, and the parking of a tenant's deliveries (R132, R143). -/
namespace Sys2Proof.Machine
open Sys2Proof

/-! ## Parking -/

/-- Two target units that differ in their records and in what a park action counts alone. -/
def SameButPark (u v : TgtUnit) : Prop :=
  v = { u with recs := v.recs, parkEvents := v.parkEvents, parkAny := v.parkAny }

theorem parkSlots_tgt (xs : List Slot) : ∀ s : State,
    SameButPark s.tgt (xs.foldl (fun s x => s.modTarget x fun r => { r with parked := true }) s).tgt := by
  induction xs with
  | nil => exact fun _ => rfl
  | cons x xs ih =>
    intro s
    have rest := ih (s.modTarget x fun r => { r with parked := true })
    unfold SameButPark at rest ⊢
    rw [List.foldl_cons, rest]
    rfl

theorem park_tgt (s : State) (n : Tenant) : SameButPark s.tgt (park s n).tgt := by
  unfold park
  split
  next => rfl
  next =>
    have slots := parkSlots_tgt (s.parkable n) s
    generalize (s.parkable n).foldl _ s = v at slots ⊢
    unfold SameButPark at slots ⊢
    show ({ v.tgt with parkEvents := satInc v.tgt.parkEvents, parkAny := true } : TgtUnit) = _
    rw [slots]
    rfl

/-! ## The notice -/

/-- A drop notice matches the outstanding delivery of its slot (R132). -/
def dropMatches (s : State) (slot : Slot) (seq : BitVec 16) : Bool :=
  (s.target slot).active.isSome && (s.target slot).seq == seq && (s.slotOwner slot).isSome

theorem dropMatches_iff (s : State) (slot : Slot) (seq : BitVec 16) : dropMatches s slot seq = true ↔
    (s.target slot).active ≠ none ∧ (s.target slot).seq = seq ∧ s.slotOwner slot ≠ none := by
  simp [dropMatches, Option.isSome_iff_ne_none, and_assoc]

/-- The target unit with a drop notice counted, and recorded when it is the first (R132). -/
def dropRecorded (u : TgtUnit) (slot : Slot) (seq : BitVec 16) (matching : Bool) : TgtUnit :=
  let u := { u with dropCount := satInc u.dropCount }
  let u := if matching then u else { u with dropStale := true }
  if u.dropValid then u else { u with
    dropValid := true, dropFirstSlot := slot, dropFirstStale := !matching, dropFirstSeq := seq }

/-- The state in which the tenant of a drop notice that matches is parked. -/
def dropNoted (s : State) (slot : Slot) (seq : BitVec 16) : State :=
  raiseSource (s.setTgt (dropRecorded s.tgt slot seq (dropMatches s slot seq))) 0x27F

theorem dropRecorded_effect (u : TgtUnit) (slot : Slot) (seq : BitVec 16) (matching : Bool) :
    let v := dropRecorded u slot seq matching
    v.recs = u.recs ∧ v.dropCount = satInc u.dropCount ∧ (matching = false → v.dropStale = true) ∧
      (u.dropValid = false → v.dropValid = true ∧ v.dropFirstSlot = slot ∧ v.dropFirstSeq = seq ∧
        v.dropFirstStale = !matching) := by
  unfold dropRecorded
  cases matching with
  | true => cases u.dropValid <;> simp
  | false => cases u.dropValid <;> simp

theorem dropNoted_effect {s : State} (canonical : CanonicalSys s.sys) (on : s.isOn dCORE = true) (slot : Slot)
    (seq : BitVec 16) :
    let v := dropNoted s slot seq
    (v.latch 0x27F).arrival = true ∧ v.tgt = dropRecorded s.tgt slot seq (dropMatches s slot seq) ∧ v.ten = s.ten ∧
      OnlyChanges [.tgt, .sys] s v := by
  obtain ⟨arrival, -, only⟩ := raiseSource_effect (n := 0x27F)
    (s := s.setTgt (dropRecorded s.tgt slot seq (dropMatches s slot seq))) canonical rfl on
  exact ⟨arrival, only .tgt (by decide), only .ten (by decide),
    ((setTgt_only _).mono (by decide)).trans (only.mono (by decide))⟩

theorem applyDrop_cases (s : State) (slot : Slot) (seq : BitVec 16) :
    applyDrop s slot seq = match dropMatches s slot seq, (dropNoted s slot seq).slotOwner slot with
      | true, some (n, _) => park (dropNoted s slot seq) n
      | _, _ => dropNoted s slot seq := rfl

theorem applyDrop_stale {s : State} {slot : Slot} {seq : BitVec 16} (stale : dropMatches s slot seq = false) :
    applyDrop s slot seq = dropNoted s slot seq := by
  rw [applyDrop_cases, stale]

theorem applyDrop_matching {s : State} {slot : Slot} {seq : BitVec 16} {n : Tenant} {i : BitVec 10}
    (matching : dropMatches s slot seq = true) (owner : (dropNoted s slot seq).slotOwner slot = some (n, i)) :
    applyDrop s slot seq = park (dropNoted s slot seq) n := by
  rw [applyDrop_cases, matching, owner]

/-- Whether it matches or not, a drop notice leaves in the target unit what it records of itself. -/
theorem applyDrop_tgt (s : State) (slot : Slot) (seq : BitVec 16) :
    OnlyChanges [.tgt, .ten] (dropNoted s slot seq) (applyDrop s slot seq) ∧
      SameButPark (dropNoted s slot seq).tgt (applyDrop s slot seq).tgt := by
  rw [applyDrop_cases]
  split
  next n _ _ _ => exact ⟨park_only _ n, park_tgt _ n⟩
  next => exact ⟨.refl _ _, rfl⟩

/-- A drop notice reaches CORE when the block runs and CORE and TGT are ON (R132). -/
theorem exec_dropNotice {s : State} (outOfReset : s.hm.inReset = none) (powered : s.hm.powerOff = false)
    (up : s.coreUp = true) (slot : Slot) (seq : BitVec 16) :
    exec (.dropNotice slot seq false) s = .next (applyDrop s slot seq) := by
  show execDropNotice slot seq false s = _
  unfold execDropNotice
  simp only [outOfReset, powered, up, Option.isSome_none, Bool.or_self, Bool.false_eq_true, if_false, if_true]

/-- Settles O18: a notice is recorded whether it matches or not, and one that matches goes on to a park action, which
leaves the record of it alone. -/
theorem dropNoticeParks : Obligations.DropNoticeParks := by
  intro slot seq s coherent outOfReset powered up matching
  obtain ⟨arrival, noted, ten, only⟩ := dropNoted_effect coherent.sysCanonical (coreUp_core up) slot seq
  obtain ⟨recs, count, staleSeen, first⟩ := dropRecorded_effect s.tgt slot seq (dropMatches s slot seq)
  rw [← noted] at recs count staleSeen first
  obtain ⟨parks, same⟩ := applyDrop_tgt s slot seq
  have agrees : dropMatches s slot seq = true ↔ matching := dropMatches_iff s slot seq
  refine ⟨_, exec_dropNotice outOfReset powered up slot seq, by rw [same]; exact count, ?_, fun free => ?_,
    fun stale => ?_, fun matched n i owner x held active => ?_, (only.mono (by decide)).trans (parks.mono (by decide))⟩
  · rw [latch_congr (parks .sys (by decide))]
    exact arrival
  · obtain ⟨valid, firstSlot, firstSeq, firstStale⟩ := first free
    rw [same]
    exact ⟨valid, firstSlot, firstSeq, by rw [← agrees, firstStale, Bool.not_eq_false']⟩
  · have unmatched : dropMatches s slot seq = false := Bool.eq_false_iff.mpr (mt agrees.mp stale)
    rw [applyDrop_stale unmatched]
    exact ⟨staleSeen unmatched, target_congr recs⟩
  · rw [applyDrop_matching (agrees.mpr matched) ((slotOwner_congr ten slot).trans owner)]
    refine park_parked (recs ▸ coherent.tgtCanonical.recs) n x ?_ ?_
    · unfold State.slotsOf
      rw [ten]
      exact held
    · rw [target_congr recs]
      exact active

end Sys2Proof.Machine
end

section
/-! The registers of a target page that are no completion registers: the lane of P sources, the mask and the timer (R113 to
R115, R131, R133, R155). -/
namespace Sys2Proof.Machine
open Sys2Proof

/-- The write of one target record: it reads back, and nothing else changes. -/
theorem modTarget_effect {s : State} (canonical : CanonicalTgt s.tgt) (x : Slot) (f : TargetRec → TargetRec) :
    let t := s.modTarget x f
    t.target x = f (s.target x) ∧ (∀ y, y ≠ x → t.target y = s.target y) ∧ t.tgt = { s.tgt with recs := t.tgt.recs } ∧
      OnlyChanges [.tgt] s t :=
  ⟨modTarget_target_self canonical.recs x f, fun _ other => modTarget_target_ne x f other, rfl, modTarget_only x f⟩

/-! ## The lane of P sources -/

theorem queuePrivate_room {s : State} (room : s.tgt.privLane.length < 256) (w : PrivWrite) :
    queuePrivate s w = s.setTgt { s.tgt with privLane := s.tgt.privLane ++ [w] } := if_neg (by omega)

theorem privateWriteQueued : Claims.PrivateWriteQueued := by
  intro p page data n x s here held running room queued
  have served : ∀ (c : Instr) (reg : Nat) (w : PrivWrite), reg < 0x400 → reg % 4 = 0 → isCompletion reg = false →
      exec c s = .next (write4 s p (pageOffset page reg) data) → writeTargetPage s x reg data = queuePrivate s w →
      s.Serves (wordWrite p (pageOffset page reg) data) → queued c w := fun c reg w small aligned plain run written h => by
    rw [pageReg_serves here held running reg small aligned plain h, written, queuePrivate_room room] at run
    exact ⟨_, run, rfl, setTgt_only _⟩
  exact ⟨served _ 0x008 _ (by decide) (by decide) rfl rfl rfl, served _ 0x00C _ (by decide) (by decide) rfl rfl rfl,
    served _ 0x010 _ (by decide) (by decide) rfl rfl rfl⟩

/-- What a write of the lane makes of its record (R113, R114). -/
def privWritten (w : PrivWrite) (r : TargetRec) : TargetRec :=
  match w.op with
  | .set => { r with privPend := r.privPend ||| w.bits }
  | .clr => { r with privPend := r.privPend &&& ~~~ w.bits }
  | .enable => { r with privEn := w.bits }

theorem applyPrivate_effect {s : State} (canonical : CanonicalTgt s.tgt) (clean : s.Clean) (w : PrivWrite) :
    let t := applyPrivate s w
    t.target w.slot = privWritten w (s.target w.slot) ∧ (∀ y, y ≠ w.slot → t.target y = s.target y) ∧
      t.tgt = { s.tgt with recs := t.tgt.recs } ∧ OnlyChanges [.tgt, .loupe] s t := by
  obtain ⟨record, others, rest, only⟩ := modTarget_effect canonical w.slot (privWritten w)
  have wide : OnlyChanges [.tgt, .loupe] s (s.modTarget w.slot (privWritten w)) := only.mono (by decide)
  have counted : ∀ u : State, u = s.modTarget w.slot (privWritten w) ∨ u = (s.modTarget w.slot (privWritten w)).count 4 1 →
      u.target w.slot = privWritten w (s.target w.slot) ∧ (∀ y, y ≠ w.slot → u.target y = s.target y) ∧
        u.tgt = { s.tgt with recs := u.tgt.recs } ∧ OnlyChanges [.tgt, .loupe] s u := by
    rintro u (rfl | rfl)
    · exact ⟨record, others, rest, wide⟩
    · exact ⟨record, others, rest, wide.trans ((count_only 4 1).mono (by decide))⟩
  refine counted _ ?_
  obtain ⟨op, x, bits⟩ := w
  unfold applyPrivate
  simp only [touchTarget_clean clean]
  cases op with
  | set => exact .inr rfl
  | clr | enable => exact .inl rfl

/-- The head of the lane leaves it for its record, with a slot of the lane counted in the frame (R36, R115). -/
theorem exec_privateLaneApply {s : State} {w : PrivWrite} {rest : List PrivWrite} (on : s.coreOn = true)
    (lane : s.laneOpen .priv = true) (head : s.tgt.privLane = w :: rest) :
    ∃ use, exec .privateLaneApply s =
      .next (resume (applyPrivate ((s.setTgt { s.tgt with privLane := rest }).setUse use) w)) := by
  obtain ⟨use, taken⟩ := takeLane_use (s.setTgt { s.tgt with privLane := rest }) .priv
  refine ⟨use, ?_⟩
  show execPrivateLaneApply s = _
  unfold execPrivateLaneApply privateStep
  simp only [on, head, lane, taken, if_true]

theorem privateLaneApplies : Claims.PrivateLaneApplies := by
  intro w rest s canonical clean on lane settled head
  obtain ⟨use, run⟩ := exec_privateLaneApply on lane head
  have before : OnlyChanges [.tgt, .loupe, .frame] s ((s.setTgt { s.tgt with privLane := rest }).setUse use) :=
    ((setTgt_only _).mono (by decide)).trans ((setUse_only use).mono (by decide))
  have canonicalU : CanonicalTgt ((s.setTgt { s.tgt with privLane := rest }).setUse use).tgt :=
    ⟨canonical.recs, canonical.busy, canonical.busyClear, canonical.heldOff⟩
  obtain ⟨record, others, tgt, only⟩ := applyPrivate_effect canonicalU (clean.of_ras rfl) w
  rw [resume_none ((congrArg PwrUnit.waiting (only .pwr (by decide))).trans settled)] at run
  refine ⟨_, run, record, others, by rw [tgt]; rfl, ?_, before.trans (only.mono (by decide))⟩
  unfold SameButUse
  rw [only .frame (by decide)]
  rfl

/-- Settles O19: the three registers differ in what they queue alone, and the three operations in what they make of one
record. -/
theorem privateSources : Obligations.PrivateSources := ⟨privateWriteQueued, privateLaneApplies⟩

/-! ## Mask and timer -/

theorem targetControlWritten : Claims.TargetControlWritten := by
  intro p page data n x s canonical clean here held running writes
  have served : ∀ (c : Instr) (reg : Nat) (f : TargetRec → TargetRec), reg < 0x400 → reg % 4 = 0 →
      isCompletion reg = false → exec c s = .next (write4 s p (pageOffset page reg) data) →
      writeTargetPage s x reg data = (touchTarget s x).modTarget x f →
      s.Serves (wordWrite p (pageOffset page reg) data) → writes c (f (s.target x)) :=
    fun c reg f small aligned plain run written h => by
      rw [pageReg_serves here held running reg small aligned plain h, written, touchTarget_clean clean] at run
      exact ⟨_, run, modTarget_effect canonical x f⟩
  exact ⟨served _ 0x018 (fun r => { r with mask := data.getLsbD 0 }) (by decide) (by decide) rfl rfl rfl,
    served _ 0x0A0 (fun r => { r with
      periodic := data.getLsbD 24, reload := field data 0 24, timer := field data 0 24, timerDone := false })
      (by decide) (by decide) rfl rfl rfl⟩

/-- P:8 is pending or active: a timer that runs out counts an overrun (R155). -/
def timerOverruns (r : TargetRec) : Bool := r.privPend.getLsbD 8 || r.active == some (privSrc 8)

theorem timerOverruns_iff (r : TargetRec) :
    timerOverruns r = true ↔ r.privPend.getLsbD 8 = true ∨ r.active = some (privSrc 8) := by
  rw [timerOverruns, Bool.or_eq_true, beq_iff_eq]

theorem tickTimer_last {r : TargetRec} (last : r.timer = 1) (due : r.timerDone = false) :
    tickTimer r = { r with
      timer := if r.periodic then r.reload else 0
      privPend := if timerOverruns r then r.privPend else r.privPend ||| 0x100
      overrun := if timerOverruns r then satInc r.overrun else r.overrun } := by
  unfold tickTimer
  rw [if_neg (by simp [due]), if_neg (by simp [last]), if_pos last]
  rfl

/-- The firing of a timer with one tick to go is the timer's count, marked as made. -/
theorem exec_timerFire {s : State} {x : Slot} (on : s.coreOn = true) (running : s.frame.running = true)
    (last : (s.target x).timer = 1) (due : (s.target x).timerDone = false) :
    exec (.timerFire x) s = .next (s.modTarget x fun r => { tickTimer r with timerDone := true }) := by
  show execTimerFire x s = _
  unfold execTimerFire
  exact congrArg Host.Outcome.next (if_pos (by simp [on, running, last, due]))

theorem timerFires : Claims.TimerFires := by
  intro x s canonical on running last due
  obtain ⟨record, others, rest, only⟩ := modTarget_effect canonical x fun r => { tickTimer r with timerDone := true }
  refine ⟨_, exec_timerFire on running last due, ?_⟩
  rw [record, tickTimer_last last due]
  refine ⟨fun ⟨idle, other⟩ => ?_, fun busy => ?_, rfl, rfl, rfl, others, rest, only⟩
  · have free : ¬ timerOverruns (s.target x) = true := fun overruns =>
      ((timerOverruns_iff _).mp overruns).elim (fun pending => absurd (idle.symm.trans pending) (by decide)) other
    exact ⟨if_neg free, if_neg free⟩
  · have overruns := (timerOverruns_iff _).mpr busy
    exact ⟨if_pos overruns, if_pos overruns⟩

/-- Settles O20: each register writes its fields of one record, and the firing is one count of the timer made ahead of
its tick. -/
theorem targetTimersAndMask : Obligations.TargetTimersAndMask := ⟨targetControlWritten, timerFires⟩

end Sys2Proof.Machine
end

section
/-! TARGET_SET: the delivery address of a target and the choice of the notice target (R130, R207). -/
namespace Sys2Proof.Machine
open Sys2Proof

section
variable {s : State}

/-- The delivery address of a target is written where SET_DADDR asks for it. -/
def putDaddr (s : State) (x : Slot) (addr : W64) (asked : Bool) : State :=
  if asked then s.modTarget x fun r => { r with daddr := addr } else s

/-- The notice target that takes effect next is chosen where SET_NOTICE asks for it. -/
def putNotice (s : State) (n : Tenant) (i : BitVec 10) (asked : Bool) : State :=
  if asked then s.modTenant n fun r => { r with noticeNext := some i } else s

theorem setTargetFields_clean (clean : s.Clean) (n : Tenant) (x : Slot) (i : BitVec 10) (addr : W64) (daddr notice : Bool) :
    setTargetFields s n x i (if daddr then some addr else none) notice = putNotice (putDaddr s x addr daddr) n i notice := by
  unfold setTargetFields
  rw [touchTarget_clean clean]
  cases daddr <;> rfl

theorem putDaddr_effect (canonical : CanonicalTgt s.tgt) (x : Slot) (addr : W64) (asked : Bool) :
    let t := putDaddr s x addr asked
    t.target x = (if asked then { s.target x with daddr := addr } else s.target x) ∧
      (∀ y, y ≠ x → t.target y = s.target y) ∧ OnlyChanges [.tgt] s t := by
  cases asked with
  | false => exact ⟨rfl, fun _ _ => rfl, .refl _ _⟩
  | true =>
    obtain ⟨record, others, -, only⟩ := modTarget_effect canonical x fun r => { r with daddr := addr }
    exact ⟨record, others, only⟩

theorem putNotice_effect (canonical : CanonicalTen s.ten) (n : Tenant) (i : BitVec 10) (asked : Bool) :
    let t := putNotice s n i asked
    (t.tenant n).noticeNext = (if asked then some i else (s.tenant n).noticeNext) ∧
      (t.tenant n).notice = (s.tenant n).notice ∧ (∀ k, k ≠ n → t.tenant k = s.tenant k) ∧ OnlyChanges [.ten] s t := by
  cases asked with
  | false => exact ⟨rfl, rfl, fun _ _ => rfl, .refl _ _⟩
  | true =>
    intro t
    rw [show t = s.modTenant n fun r => { r with noticeNext := some i } from rfl, modTenant_self canonical.recs]
    exact ⟨rfl, rfl, fun k other => modTenant_ne n k _ other, modTenant_only _ _⟩

/-- The reply of TARGET_SET: the slot, the notice target and the delivery address, as they stand (R207). -/
def targetSetReply (t : State) (n : Tenant) (x : Slot) : Reply :=
  okReply (bytesLE 2 x.toNat ++ bytesLE 2 (noticeCode (t.noticeLocal n (t.tenant n).noticeNext)) ++ [0, 0, 0, 0] ++
    bytesLE 8 (t.target x).daddr.toNat)

/-- The reply is made of the targets and the grants alone. -/
theorem targetSetReply_finish (m : BitVec 7) (r : Reply) (n : Tenant) (x : Slot) :
    targetSetReply (finish s m r) n x = targetSetReply s n x := rfl

/-- TARGET_SET past its checks writes both fields in one command, and answers with what then stands (R207). -/
theorem targetSet_passed (clean : s.Clean) {m : BitVec 7} {c : Snap} {n : Tenant} {x : Slot}
    (who : checkTenant m (snapField c 0x08 1) 0x08 = .ok n) (running : s.resetting n = false) :
    let l := snapField c 0x0A 2
    let addr : W64 := BitVec.ofNat 64 (snapField c 0x10 8)
    l < 1024 → s.slotOf n (BitVec.ofNat 10 l) = some x →
    ((snapByte c 0x09).getLsbD 0 = true → (field addr 0 3 : BitVec 3) = 0) →
    let u := putNotice (putDaddr s x addr ((snapByte c 0x09).getLsbD 0)) n (BitVec.ofNat 10 l) ((snapByte c 0x09).getLsbD 1)
    targetSet s m c = finish u m (targetSetReply u n x) := by
  intro l addr inRange slot aligned u
  have sound : ((snapByte c 0x09).getLsbD 0 && (field addr 0 3 : BitVec 3) != 0) = false := by
    cases asked : (snapByte c 0x09).getLsbD 0 with
    | false => rfl
    | true => simp [aligned asked]
  unfold targetSet
  rw [who]
  simp only
  rw [if_neg (by omega)]
  simp only [l, addr] at slot sound
  simp only [slot, running, sound, Bool.false_eq_true, if_false, setTargetFields_clean clean]
  rfl

end

/-- Settles O31: the two rows of TARGET_SET differ in the flags that select them alone; either writes both fields. -/
theorem targetFieldsSet : Obligations.TargetFieldsSet := by
  intro m c n x s coherent clean holds up who flags l addr inRange slot running aligned sets
  have passed := targetSet_passed clean who running inRange slot aligned
  have answers : ∀ i, exec i s = .next (targetSet s m c) → sets i := fun i run => by
    obtain ⟨record, others, onlyTgt⟩ := putDaddr_effect coherent.tgtCanonical x addr (flags.getLsbD 0)
    dsimp only at passed
    generalize putDaddr s x addr (flags.getLsbD 0) = v at passed record others onlyTgt
    have ten : v.ten = s.ten := onlyTgt .ten (by decide)
    obtain ⟨next, notice, tenants, onlyTen⟩ := putNotice_effect (s := v) (ten ▸ coherent.tenCanonical) n
      (BitVec.ofNat 10 l) (flags.getLsbD 1)
    generalize putNotice v n (BitVec.ofNat 10 l) (flags.getLsbD 1) = u at passed next notice tenants onlyTen
    have target := target_congr (congrArg TgtUnit.recs (onlyTen .tgt (by decide)))
    have only : OnlyChanges [.tgt, .ten] s u := (onlyTgt.mono (by decide)).trans (onlyTen.mono (by decide))
    rw [tenant_congr ten] at next notice
    rw [passed] at run
    exact ⟨_, run, (target x).trans record, next, notice, fun y other => (target y).trans (others y other),
      fun k other => (tenants k other).trans (tenant_congr ten k),
      finish_answered coherent.mbxCanonical (only .mbx (by decide)) m (targetSetReply u n x),
      (only.mono (by decide)).trans ((finish_only _ _).mono (by decide))⟩
  refine ⟨fun select => answers _ ?_, fun select => answers _ ?_⟩
  · exact congrArg Host.Outcome.next (runTaken_holds holds (by simpa using select) (allOn_coreTgt up))
  · exact congrArg Host.Outcome.next (runTaken_holds holds select (allOn_coreTgt up))

end Sys2Proof.Machine
end

section
/-! Completions: their writes and the completion queue (R136, R137, R139), the completion of a target (R138), and stray and
stale ones (R140, R141). -/
namespace Sys2Proof.Machine
open Sys2Proof

/-! ## Registers of a target page -/

section
variable (page : BitVec 10) {reg : Nat} (small : reg < 0x400)
include small

theorem pageOffset_range : 0x100000 ≤ pageOffset page reg ∧ pageOffset page reg < 0x200000 := by
  have := page.isLt
  unfold pageOffset
  omega

theorem pageOffset_toNat : (BitVec.ofNat 22 (pageOffset page reg)).toNat = pageOffset page reg := by
  obtain ⟨-, above⟩ := pageOffset_range page small
  rw [BitVec.toNat_ofNat]
  omega

theorem pageOffset_register : pageOffset page reg % 0x400 = reg := by
  unfold pageOffset
  omega

theorem pageIndex_pageOffset : pageIndex (pageOffset page reg) = page := by
  have index : (0x100000 + 0x400 * page.toNat + reg - 0x100000) / 0x400 = page.toNat := by omega
  unfold pageIndex pageOffset
  rw [index, BitVec.ofNat_toNat, BitVec.setWidth_eq]

/-- No operation address lies in a target page. -/
theorem opAt_pageOffset : opAt (pageOffset page reg) = none := by
  obtain ⟨below, -⟩ := pageOffset_range page small
  unfold opAt
  split
  · omega
  · omega
  · omega
  · omega
  · omega
  · rfl

end

/-! ## Writes of completions -/

/-- A write to a register of a target page. -/
def pageWrite (p : Path) (page : BitVec 10) (reg bytes : Nat) (full : Bool) (data : W64) : RegAccess :=
  ⟨p, BitVec.ofNat 22 (pageOffset page reg), bytes, full, true, data, 0⟩

section
variable {s : State} {p : Path} {page : BitVec 10} {reg bytes : Nat} {full : Bool} {data : W64} {n : Tenant} {x : Slot}

/-- A completion write that is not captured is one of the completion queue. -/
theorem performWrite_completion (small : reg < 0x400) (completes : isCompletion reg = true) (here : s.captures none = false) :
    performWrite s (pageWrite p page reg bytes full data) = writeCompletion s p page reg bytes full data := by
  have offset : (pageWrite p page reg bytes full data).offset.toNat = pageOffset page reg := pageOffset_toNat page small
  have uncaptured : s.capturedPage (pageWrite p page reg bytes full data) = none := by
    unfold State.capturedPage
    rw [here]
    rfl
  unfold performWrite
  simp only [offset, opAt_pageOffset page small]
  rw [if_pos (pageOffset_range page small)]
  unfold writeTarget
  rw [uncaptured]
  simp only [offset, pageOffset_register page small, pageIndex_pageOffset page small, completes, if_true]
  rfl

/-- The entry of a completion write at `TGT_COMPLETE` or `TGT_COMPLETE_SEQ` (R136, R139). -/
def completionEntry (n : Tenant) (x : Slot) (reg bytes : Nat) (full : Bool) (data : W64) : CplEntry :=
  ⟨n, x, field data 0 24, if reg = 0 then none else some (field data 48 16),
    !(full && ((reg == 0 && bytes == 4) || (reg == 0x80 && bytes == 8)))⟩

theorem queueCompletion_room {e : CplEntry} (own : (s.tgt.cplQueue.filter fun c => c.tenant == e.tenant).length < 32)
    (room : s.tgt.cplQueue.length < 2048) :
    queueCompletion s e = s.setTgt { s.tgt with cplQueue := s.tgt.cplQueue ++ [e] } := by
  unfold queueCompletion
  exact if_pos (by simp [State.cplRoom, own, room])

theorem writeCompletion_queues (whole : reg ≠ 0x084) (held : s.pageSlot p page = some (n, x))
    (own : (s.tgt.cplQueue.filter fun c => c.tenant == n).length < 32) (room : s.tgt.cplQueue.length < 2048) :
    writeCompletion s p page reg bytes full data =
      s.setTgt { s.tgt with cplQueue := s.tgt.cplQueue ++ [completionEntry n x reg bytes full data] } := by
  unfold writeCompletion
  simp only [held, if_neg whole]
  exact queueCompletion_room own room

/-- The record of a refused access changes neither who holds a page nor what is captured. -/
theorem recordAccess_keeps_page (s : State) (a : RegAccess) : (recordAccess s a).tgt = s.tgt ∧
    (∀ q, (recordAccess s a).captures q = s.captures q) ∧ (∀ p i, (recordAccess s a).pageSlot p i = s.pageSlot p i) := by
  unfold recordAccess modAccess
  cases pathTenant a.path with
  | some m => exact ⟨rfl, fun _ => rfl, fun q _ => by cases q <;> rfl⟩
  | none => exact ⟨rfl, fun _ => rfl, fun q _ => by cases q <;> rfl⟩

/-- A write to a completion address that R370 does not admit is recorded, and then made as one of no form (R136). -/
theorem access_refusedCompletion (small : reg < 0x400) (completes : isCompletion reg = true)
    (serves : s.Serves (pageWrite p page reg bytes false data))
    (recorded : (recordAccess s (pageWrite p page reg bytes false data)).Serves (pageWrite p page reg bytes false data)) :
    access s (pageWrite p page reg bytes false data) =
      performWrite (recordAccess s (pageWrite p page reg bytes false data)) (pageWrite p page reg bytes false data) := by
  have offset : (pageWrite p page reg bytes false data).offset.toNat = pageOffset page reg := pageOffset_toNat page small
  obtain ⟨below, above⟩ := pageOffset_range page small
  have refused : admitted (pageWrite p page reg bytes false data) = false := by
    unfold admitted
    rfl
  unfold access
  rw [serves.shown, serves.outOfReset, refused]
  unfold refuseAccess
  simp only [offset, pageOffset_register page small, completes, recorded.opened]
  unfold submit perform
  have same : ({ pageWrite p page reg bytes false data with fullBe := false } : RegAccess) =
    pageWrite p page reg bytes false data := rfl
  simp only [same, recorded.opened, recorded.ready]
  simp [below, above, pageWrite]

end

/-- Both completion registers take a whole write of 4 bytes, and `TGT_COMPLETE_SEQ` one of 8 through a window (R370). -/
theorem pageWrite_admitted {p : Path} {page : BitVec 10} {reg bytes : Nat} {data : W64} (register : reg = 0 ∨ reg = 0x80)
    (size : bytes = 4 ∨ bytes = 8 ∧ p ≠ .smbus) : admitted (pageWrite p page reg bytes true data) = true := by
  have offset : (pageWrite p page reg bytes true data).offset.toNat = pageOffset page reg :=
    pageOffset_toNat page (by omega)
  have aligned : pageOffset page reg % 8 = 0 := by
    unfold pageOffset
    omega
  have beyond : 0x10010 < pageOffset page reg := by
    unfold pageOffset
    omega
  have words : pageOffset page reg % 4 = 0 := by omega
  unfold admitted
  simp only [offset, aligned, words]
  rcases size with rfl | ⟨rfl, window⟩
  · simp [pageWrite]
  · simp [pageWrite, beyond, window]

/-- Settles O15: each form is admitted and made at once, or is recorded and then made as one of no form; in either case
the write joins the queue with the entry of its register. -/
theorem completionQueued : Obligations.CompletionQueued := by
  intro p page form data n x s here held own room
  have admits : ∀ (c : Instr) (reg bytes : Nat), reg = 0 ∨ reg = 0x80 → bytes = 4 ∨ bytes = 8 ∧ p ≠ .smbus →
      exec c s = .next (access s (pageWrite p page reg bytes true data)) → s.Serves (pageWrite p page reg bytes true data) →
      ∃ t, exec c s = .next t ∧
        t.tgt = { s.tgt with cplQueue := s.tgt.cplQueue ++ [completionEntry n x reg bytes true data] } ∧
        OnlyChanges [.tgt] s t := fun c reg bytes register size run serves => by
    have completes : isCompletion reg = true := by rcases register with rfl | rfl <;> rfl
    have made : access s (pageWrite p page reg bytes true data) = performWrite s (pageWrite p page reg bytes true data) :=
      access_serves serves (pageWrite_admitted register size)
    rw [made, performWrite_completion (by omega) completes here, writeCompletion_queues (by omega) held own room] at run
    exact ⟨_, run, rfl, setTgt_only _⟩
  refine ⟨fun serves isDw => ?_, fun serves isQw window => ?_, fun serves isDw => ?_, fun serves recorded isOther => ?_⟩
  · subst isDw
    exact admits _ 0 4 (.inl rfl) (.inl rfl) rfl serves
  · subst isQw
    exact admits _ 0x80 8 (.inr rfl) (.inr ⟨rfl, window⟩) rfl serves
  · subst isDw
    exact admits _ 0x80 4 (.inr rfl) (.inl rfl) rfl serves
  · subst isOther
    obtain ⟨tgt, captures, pages⟩ := recordAccess_keeps_page s (pageWrite p page 0 4 false data)
    have run : exec (.tgtComplete p page .other data) s = .next (access s (pageWrite p page 0 4 false data)) := rfl
    rw [access_refusedCompletion (by decide) rfl serves recorded, performWrite_completion (by decide) rfl
      ((captures _).trans here), writeCompletion_queues (by decide) ((pages _ _).trans held) (by rw [tgt]; exact own)
      (by rw [tgt]; exact room)] at run
    exact ⟨_, run, by rw [tgt]; rfl, setTgt_only _⟩

/-! ## A completion that frees its target (R138) -/

/-- From `s` to `t` the state word of a source takes the completion row; no other word changes (R86, R87). -/
structure CompletedWords (s t : State) (src : Src) : Prop where
  state   : HasWords src → t.stOf src = completeWord (cMode (s.cfgOf src)) (s.stOf src)
  states  : ∀ y, y ≠ src → t.stOf y = s.stOf y
  configs : ∀ y, t.cfgOf y = s.cfgOf y

theorem CompletedWords.of_vec {s t s' t' : State} {src : Src} (h : CompletedWords s t src) (before : s'.vec = s.vec)
    (after : t'.vec = t.vec) : CompletedWords s' t' src where
  state words := by rw [stOf_congr after, stOf_congr before, cfgOf_congr before, h.state words]
  states y other := by rw [stOf_congr after, stOf_congr before, h.states y other]
  configs y := by rw [cfgOf_congr after, cfgOf_congr before, h.configs y]

/-- A source completes by its state word and its presentation; a P source has no word, and nothing changes (R114). -/
theorem completeSource_effect {s : State} (coherent : Coherent s) (clean : s.Clean) (src : Src) :
    let t := completeSource s src
    CompletedWords s t src ∧ (∀ y, SameButList (s.target y) (t.target y)) ∧ t.tgt = { s.tgt with recs := t.tgt.recs } ∧
    OnlyChanges [.vec, .tgt] s t := by
  have completes : completeSource s src = s ∧ ¬ HasWords src ∨ completeSource s src = completeState s src := by
    unfold completeSource
    rw [applyCompletion_clean clean]
    cases kind : srcClass src with
    | priv k => exact .inl ⟨rfl, by simp [HasWords, kind]⟩
    | message v | system k | reserved => exact .inr rfl
  obtain ⟨same, wordless⟩ | run := completes
  · rw [same]
    exact ⟨⟨fun words => absurd words wordless, fun _ _ => rfl, fun _ => rfl⟩, fun _ => rfl, rfl, .refl _ _⟩
  · rw [run]
    exact ⟨⟨completeState_stOf coherent.vecCanonical, fun _ => completeState_stOf_ne, completeState_cfgOf src⟩,
      completeState_target coherent.tgtCanonical.recs src, completeState_tgt src, completeState_only src⟩

/-- A target that a completion has freed (R138). -/
def freed (r : TargetRec) (src : Src) (sequenced : Bool) : TargetRec :=
  { r with active := none, redeliver := false, parked := false, lastCpl := some (sequenced, src) }

/-- What follows the completion of the source: the busy bit is to clear, and the completion is counted. -/
def completionCounted (s : State) (n : Tenant) (x : Slot) : State :=
  ((s.clearBusyNext x).modTenant n fun r => { r with completions := r.completions + 1 }).count 7 1

theorem completionCounted_tenant {s : State} (wf : Sparse.wf {} s.ten.recs = true) (n : Tenant) (x : Slot) :
    (completionCounted s n x).tenant n = { s.tenant n with completions := (s.tenant n).completions + 1 } :=
  modTenant_self (s := s.clearBusyNext x) wf n fun r => { r with completions := r.completions + 1 }

theorem completeTarget_effect {s : State} (coherent : Coherent s) (clean : s.Clean) (n : Tenant) (x : Slot) (src : Src)
    (sequenced : Bool) :
    let t := completeTarget s n x src sequenced
    SameButList (freed (s.target x) src sequenced) (t.target x) ∧ Sparse.get false t.tgt.busyClear x.toNat = true ∧
    t.tgt.busy = s.tgt.busy ∧ t.tgt.cplQueue = s.tgt.cplQueue ∧ CompletedWords s t src ∧
    (t.tenant n).completions = (s.tenant n).completions + 1 ∧ OnlyChanges [.tgt, .vec, .ten, .loupe] s t := by
  have only := (completeTarget_only clean n x src sequenced).1
  have run : completeTarget s n x src sequenced =
      completionCounted (completeSource (s.modTarget x fun r => freed r src sequenced) src) n x := rfl
  rw [run] at only ⊢
  have keptV : Kept s.pending (s.modTarget x fun r => freed r src sequenced) := State.modTarget_keeps s x _ ⟨coherent, rfl⟩
  obtain ⟨record, -, rest, onlyV⟩ := modTarget_effect coherent.tgtCanonical x fun r => freed r src sequenced
  generalize s.modTarget x (fun r => freed r src sequenced) = v at only keptV record rest onlyV ⊢
  have keptU := completeSource_keeps v src keptV
  obtain ⟨words, records, tgt, onlyU⟩ := completeSource_effect keptV.toCoherent (clean.of_ras (onlyV .ras (by decide))) src
  generalize completeSource v src = u at only keptU words records tgt onlyU ⊢
  have ten : u.ten = s.ten := (onlyU .ten (by decide)).trans (onlyV .ten (by decide))
  have busy : u.tgt.busy = s.tgt.busy := by rw [tgt, rest]
  have queue : u.tgt.cplQueue = s.tgt.cplQueue := by rw [tgt, rest]
  refine ⟨record ▸ records x, clearBusyNext_marked keptU.tgtCanonical.busyClear x, busy, queue,
    words.of_vec (onlyV .vec (by decide)).symm rfl, ?_, only⟩
  rw [completionCounted_tenant keptU.tenCanonical.recs, tenant_congr ten]

/-! ## An entry of the queue -/

section
variable {s : State} {e : CplEntry} (clean : s.Clean) (running : s.resetting e.tenant = false)
  (held : (s.slotOwner e.slot).map (·.1) = some e.tenant)
include clean running held

/-- The form, the source and the sequence of a completion decide what it is (R138, R140, R141). -/
theorem applyCplEntry_cases : applyCplEntry s e =
    if e.badForm = true ∨ (s.target e.slot).active ≠ some e.src then strayCompletion s e.tenant e.slot e.src false
    else if e.seq.getD (s.target e.slot).seq = (s.target e.slot).seq then completeTarget s e.tenant e.slot e.src e.seq.isSome
    else strayCompletion s e.tenant e.slot e.src true := by
  unfold applyCplEntry
  simp only [running, held, touchTarget_clean clean, bne_self_eq_false, Bool.false_eq_true, if_false]
  by_cases form : e.badForm = true
  · rw [if_pos form, if_pos (.inl form)]
  · by_cases other : (s.target e.slot).active ≠ some e.src
    · rw [if_neg form, if_pos other, if_pos (.inr other)]
    · rw [if_neg form, if_neg other, if_neg fun h => h.elim form other]
      cases e.seq with
      | none => exact (if_pos rfl).symm
      | some q => rfl

theorem applyCplEntry_valid (form : e.badForm = false) (named : (s.target e.slot).active = some e.src)
    (agrees : ∀ q, e.seq = some q → q = (s.target e.slot).seq) :
    applyCplEntry s e = completeTarget s e.tenant e.slot e.src e.seq.isSome := by
  rw [applyCplEntry_cases clean running held, if_neg (by simp [form, named])]
  refine if_pos ?_
  cases seq : e.seq with
  | none => rfl
  | some q => exact agrees q seq

theorem applyCplEntry_stale {q : BitVec 16} (form : e.badForm = false) (named : (s.target e.slot).active = some e.src)
    (seq : e.seq = some q) (differs : q ≠ (s.target e.slot).seq) :
    applyCplEntry s e = strayCompletion s e.tenant e.slot e.src true := by
  rw [applyCplEntry_cases clean running held, if_neg (by simp [form, named]), seq]
  exact if_neg differs

theorem applyCplEntry_stray (unnamed : ¬ (e.badForm = false ∧ (s.target e.slot).active = some e.src)) :
    applyCplEntry s e = strayCompletion s e.tenant e.slot e.src false := by
  rw [applyCplEntry_cases clean running held]
  refine if_pos ?_
  cases form : e.badForm with
  | true => exact .inl rfl
  | false => exact .inr fun named => unnamed ⟨form, named⟩

end

/-- The state in which the entry at the head of the queue is applied: it has left the queue, and the slot is counted. -/
def withoutHead (s : State) (rest : List CplEntry) (use : FrameUse) : State :=
  (s.setUse use).setTgt { s.tgt with cplQueue := rest }

theorem withoutHead_only (s : State) (rest : List CplEntry) (use : FrameUse) :
    OnlyChanges [.tgt, .frame] s (withoutHead s rest use) :=
  ((setUse_only use).mono (by decide)).trans ((setTgt_only _).mono (by decide))

theorem withoutHead_coherent {s : State} (coherent : Coherent s) (rest : List CplEntry) (use : FrameUse) :
    Coherent (withoutHead s rest use) := by
  have canonical := coherent.tgtCanonical
  exact (kept_setTgt (u := (withoutHead s rest use).tgt) (State.setUse_keeps (queue := s.pending) s use ⟨coherent, rfl⟩)
    canonical.recs canonical.busy canonical.busyClear canonical.heldOff).toCoherent

/-- A slot of the completion queue applies its head; an application that leaves the power unit alone lets nothing go on. -/
theorem exec_completionDrain {s : State} {e : CplEntry} {rest : List CplEntry} (serves : s.ServesCompletion e rest) :
    ∃ use, ∀ t, applyCplEntry (withoutHead s rest use) e = t → t.pwr = s.pwr → exec .completionDrain s = .next t := by
  obtain ⟨use, run⟩ := exec_completion serves
  refine ⟨use, fun t applied pwr => ?_⟩
  have waiting : t.pwr.waiting = [] := (congrArg PwrUnit.waiting pwr).trans serves.waiting
  have resumed : exec .completionDrain s = .next (resume (applyCplEntry (withoutHead s rest use) e)) := run
  rw [resumed, applied, resume_none waiting]

/-- Settles O16: the entry names the delivery of its target, so the record is freed, and the source completes. -/
theorem completionFreesTarget : Obligations.CompletionFreesTarget := by
  intro e rest s coherent clean serves form named agrees
  obtain ⟨use, run⟩ := exec_completionDrain serves
  have before := withoutHead_only s rest use
  have cleanU : (withoutHead s rest use).Clean := clean.of_ras rfl
  obtain ⟨record, cleared, busy, queue, words, completions, only⟩ := completeTarget_effect
    (withoutHead_coherent coherent rest use) cleanU e.tenant e.slot e.src e.seq.isSome
  have applied := applyCplEntry_valid (s := withoutHead s rest use) cleanU serves.running serves.held form named agrees
  have words : CompletedWords s _ e.src := words.of_vec rfl rfl
  refine ⟨_, run _ applied (only .pwr (by decide)), by rw [record]; rfl, by rw [record]; rfl, by rw [record]; rfl,
    by rw [record]; rfl, by rw [record]; rfl, cleared, busy, words.state, words.states, words.configs,
    completions, queue, ?_, (before.mono (by decide)).trans (only.mono (by decide))⟩
  unfold SameButUse
  rw [only .frame (by decide)]
  rfl

/-! ## Stray and stale completions (R140, R141) -/

/-- A target's record of a stray or a stale completion. -/
def strayRecord (stale : Bool) (r : TargetRec) : TargetRec :=
  if stale then { r with stale := true, staleCount := satInc r.staleCount }
  else { r with stray := true, strayCount := satInc r.strayCount }

/-- A tenant's record of one: it is counted, and kept when it is the first. -/
def strayNoted (stale : Bool) (i : BitVec 10) (src : Src) (r : TenantRec) : TenantRec :=
  let r := { r with strayCount := satInc r.strayCount }
  let r := if stale then { r with staleSeen := true } else { r with straySeen := true }
  if r.strayFirstValid then r else { r with
    strayFirstValid := true, strayFirstStale := stale, strayFirstTarget := i, strayFirstSrc := src }

theorem strayRecord_active (stale : Bool) (r : TargetRec) : (strayRecord stale r).active = r.active := by
  cases stale with
  | true => rfl
  | false => rfl

theorem strayNoted_effect (stale : Bool) (i : BitVec 10) (src : Src) (r : TenantRec) :
    let q := strayNoted stale i src r
    q.strayCount = satInc r.strayCount ∧ (stale = true → q.staleSeen = true) ∧ (stale = false → q.straySeen = true) := by
  unfold strayNoted
  cases stale with
  | true => cases r.strayFirstValid <;> simp
  | false => cases r.strayFirstValid <;> simp

/-- The state with a completion of source `src` recorded, as stray or stale, of its target at local index `i` and of its
tenant; one that is stray then raises S:0x26F. -/
def strayCounted (s : State) (n : Tenant) (x : Slot) (i : BitVec 10) (src : Src) (stale : Bool) : State :=
  let s := (s.modTarget x (strayRecord stale)).modTenant n (strayNoted stale i src)
  (s.setTgt { s.tgt with strayTotal := satInc s.tgt.strayTotal, strayAny := true }).count 8 1

theorem strayCompletion_eq (s : State) (n : Tenant) (x : Slot) (src : Src) (stale : Bool) : ∃ i,
    strayCompletion s n x src stale =
      if stale then strayCounted s n x i src stale else raiseSource (strayCounted s n x i src stale) 0x26F := ⟨_, rfl⟩

section
variable {s : State} (coherent : Coherent s) (n : Tenant) (x : Slot) (src : Src) (stale : Bool)
include coherent

theorem strayCounted_effect (i : BitVec 10) :
    let t := strayCounted s n x i src stale
    t.target x = strayRecord stale (s.target x) ∧ t.tenant n = strayNoted stale i src (s.tenant n) ∧
    t.tgt.strayTotal = satInc s.tgt.strayTotal ∧ t.tgt.cplQueue = s.tgt.cplQueue ∧ OnlyChanges [.tgt, .ten, .loupe] s t := by
  refine ⟨modTarget_target_self coherent.tgtCanonical.recs x (strayRecord stale),
    modTenant_self (s := s.modTarget x (strayRecord stale)) coherent.tenCanonical.recs n (strayNoted stale i src), rfl, rfl,
    ?_⟩
  exact ((modTarget_only x _).mono (by decide)).trans <| ((modTenant_only n _).mono (by decide)).trans <|
    ((setTgt_only _).mono (by decide)).trans ((count_only 8 1).mono (by decide))

theorem strayCompletion_effect (on : s.isOn dCORE = true) :
    let t := strayCompletion s n x src stale
    t.target x = strayRecord stale (s.target x) ∧ (∃ i, t.tenant n = strayNoted stale i src (s.tenant n)) ∧
    t.tgt.strayTotal = satInc s.tgt.strayTotal ∧ t.tgt.cplQueue = s.tgt.cplQueue ∧
    (stale = false → (t.latch 0x26F).arrival = true) ∧ OnlyChanges [.tgt, .ten, .loupe, .sys] s t := by
  obtain ⟨i, run⟩ := strayCompletion_eq s n x src stale
  obtain ⟨record, noted, total, queue, only⟩ := strayCounted_effect coherent n x src stale i
  rw [run]
  generalize strayCounted s n x i src stale = u at record noted total queue only
  cases stale with
  | true => exact ⟨record, ⟨i, noted⟩, total, queue, fun stray => absurd stray (by decide), only.mono (by decide)⟩
  | false =>
    have sys : u.sys = s.sys := only .sys (by decide)
    obtain ⟨arrival, -, raised⟩ := raiseSource_effect (s := u) (n := 0x26F) (sys ▸ coherent.sysCanonical) rfl
      ((isOn_congr (only .pwr (by decide)) dCORE).trans on)
    have tgt : (raiseSource u 0x26F).tgt = u.tgt := raised .tgt (by decide)
    exact ⟨(target_congr (congrArg TgtUnit.recs tgt) x).trans record,
      ⟨i, (tenant_congr (raised .ten (by decide)) n).trans noted⟩, (congrArg TgtUnit.strayTotal tgt).trans total,
      (congrArg TgtUnit.cplQueue tgt).trans queue, fun _ => arrival, (only.mono (by decide)).trans (raised.mono (by decide))⟩

end

/-- Settles O17: an entry that does not complete its target is stray or stale by whether it names the active source, and
either is recorded in one way, but that a stray one raises S:0x26F. -/
theorem completionStrayOrStale : Obligations.CompletionStrayOrStale := by
  intro e rest s coherent clean on serves named differs
  obtain ⟨use, run⟩ := exec_completionDrain serves
  have before := withoutHead_only s rest use
  have cleanU : (withoutHead s rest use).Clean := clean.of_ras rfl
  obtain ⟨stale, applied, agrees⟩ : ∃ stale, applyCplEntry (withoutHead s rest use) e =
      strayCompletion (withoutHead s rest use) e.tenant e.slot e.src stale ∧ (stale = true ↔ named) := by
    by_cases names : named
    · obtain ⟨q, seq, other⟩ := differs names
      exact ⟨true, applyCplEntry_stale cleanU serves.running serves.held names.1 names.2 seq other, by simp [names]⟩
    · exact ⟨false, applyCplEntry_stray cleanU serves.running serves.held names, by simp [names]⟩
  obtain ⟨record, ⟨i, noted⟩, total, queue, arrival, only⟩ := strayCompletion_effect
    (withoutHead_coherent coherent rest use) e.tenant e.slot e.src stale on
  obtain ⟨count, staleSeen, straySeen⟩ := strayNoted_effect stale i e.src (s.tenant e.tenant)
  generalize strayCompletion (withoutHead s rest use) e.tenant e.slot e.src stale = t
    at applied record noted total queue arrival only
  have record : t.target e.slot = strayRecord stale (s.target e.slot) := record
  have noted : t.tenant e.tenant = strayNoted stale i e.src (s.tenant e.tenant) := noted
  refine ⟨t, run t applied (only .pwr (by decide)), only .vec (by decide), ?_, by rw [noted, count], fun names => ?_,
    fun unnamed => ?_, total, queue, ?_, (before.mono (by decide)).trans (only.mono (by decide))⟩
  · rw [record, strayRecord_active]
  · obtain rfl := agrees.mpr names
    exact ⟨by rw [record]; rfl, by rw [record]; rfl, by rw [noted, staleSeen rfl]⟩
  · obtain rfl : stale = false := Bool.eq_false_iff.mpr (mt agrees.mp unnamed)
    exact ⟨by rw [record]; rfl, by rw [record]; rfl, by rw [noted, straySeen rfl], arrival rfl⟩
  · unfold SameButUse
    rw [only .frame (by decide)]
    rfl

end Sys2Proof.Machine
end

section
/-! RESYNC: the re-issue of a parked target, which delivers or lapses, and the beginning of a run (R145 to R148). -/
namespace Sys2Proof.Machine
open Sys2Proof

/-! ## A re-issue -/

/-- A run of RESYNC whose re-issue of target `x` is settled. -/
def settled (x : Slot) (q : ResyncRun) : ResyncRun := { q with emitted := q.emitted.filter (· != x) }

/-- The state in which a re-issue of tenant `n` is counted as `f` counts it. -/
def tallied (s : State) (n : Tenant) (x : Slot) (f : ResyncRun → ResyncRun) : State :=
  s.modTenant n fun r => { r with resync := r.resync.map fun q => f (settled x q) }

section
variable {s : State} {n : Tenant} {x : Slot} {q : ResyncRun} {f : ResyncRun → ResyncRun}
  (wf : Sparse.wf {} s.ten.recs = true) (run : (s.tenant n).resync = some q)
include wf run

theorem tallied_resync : ((tallied s n x f).tenant n).resync = some (f (settled x q)) := by
  unfold tallied
  rw [modTenant_self wf, run]
  rfl

/-- A run that is left with a target goes on (R150). -/
theorem finishResync_tallied (more : ¬ ((f (settled x q)).todo = some [] ∧ (f (settled x q)).emitted = [])) :
    finishResync (tallied s n x f) n = tallied s n x f := finishResync_no (tallied_resync wf run) more

end

/-- A parked record that is delivered again (R147). -/
def reissuedRecord (r : TargetRec) : TargetRec :=
  { r with seq := r.seq + 1, redeliver := true, parked := false, reissued := true }

/-- The state with the record and the word of a target that is delivered again, counted. -/
def redelivered (s : State) (x : Slot) (src : Src) : State :=
  let s := markRedeliver (s.setTarget x (reissuedRecord (s.target x))) src
  s.setTgt { s.tgt with reissues := satInc s.tgt.reissues }

/-- The delivery of a record as a re-issue makes it, with its own tag and count at the next sequence (R147). -/
def reissue (s : State) (n : Tenant) (x : Slot) (r : TargetRec) (src : Src) : State :=
  issue s n x r.daddr (r.seq + 1) r.count r.tag src

section
variable {s : State} (clean : s.Clean) (d : Emitted) (n : Tenant)
include clean

theorem commitReissue_delivers (parked : (s.target d.slot).parked = true) (active : (s.target d.slot).active = some d.src)
    (addressed : (s.target d.slot).daddr ≠ 0) :
    commitReissue s d n = finishResync (tallied (reissue (redelivered s d.slot d.src) n d.slot (s.target d.slot) d.src) n
      d.slot fun u => { u with reissued := u.reissued + 1 }) n := by
  unfold commitReissue
  simp only [touchTarget_clean clean]
  rw [if_pos (by simp [parked, active]), if_neg addressed]
  rfl

theorem commitReissue_completed (done : (s.target d.slot).parked = false ∨ (s.target d.slot).active ≠ some d.src) :
    commitReissue s d n = finishResync (tallied s n d.slot fun u => { u with completed := u.completed + 1 }) n := by
  unfold commitReissue
  simp only [touchTarget_clean clean]
  refine if_neg ?_
  rw [Bool.and_eq_true, beq_iff_eq]
  rintro ⟨parked, active⟩
  exact done.elim (fun free => absurd (parked.symm.trans free) (by decide)) fun other => other active

theorem markRedeliver_effect (canonical : CanonicalVec s.vec) (src : Src) :
    let t := markRedeliver s src
    (HasWords src → t.stOf src = redeliverWord (s.stOf src)) ∧ (∀ y, y ≠ src → t.stOf y = s.stOf y) ∧
      OnlyChanges [.vec] s t := by
  have marks : markRedeliver s src = s ∧ ¬ HasWords src ∨ markRedeliver s src = s.putSt src (redeliverWord (s.stOf src)) := by
    unfold markRedeliver
    simp only [readSt_clean clean, writeSt_clean clean]
    cases kind : srcClass src with
    | priv k => exact .inl ⟨rfl, by simp [HasWords, kind]⟩
    | message v | system k | reserved => exact .inr rfl
  obtain ⟨same, wordless⟩ | run := marks
  · rw [same]
    exact ⟨fun words => absurd words wordless, fun _ _ => rfl, .refl _ _⟩
  · rw [run]
    exact ⟨fun words => putSt_stOf_self canonical words _, fun y other => putSt_stOf_ne other _, putSt_only _ _ _⟩

end

/-- The head of an engine, a re-issue, is committed. -/
theorem exec_reissueCommit {s : State} {engine : BitVec 2} {d : Emitted} {n : Tenant} (on : s.coreOn = true)
    (head : s.engineHead engine = some d) (again : d.reissue = some n) :
    exec (.reissueCommit engine false) s = .next (commitReissue (dropEmitted s d) d n) := by
  show execReissueCommit engine false s = _
  unfold execReissueCommit
  simp only [on, head, again, Bool.not_true, Bool.false_eq_true, if_false]

theorem redelivered_effect {s : State} (coherent : Coherent s) (clean : s.Clean) (x : Slot) (src : Src) :
    let t := redelivered s x src
    t.target x = reissuedRecord (s.target x) ∧ (∀ y, y ≠ x → t.target y = s.target y) ∧
      t.tgt.fabOut = s.tgt.fabOut ∧ t.tgt.reissues = satInc s.tgt.reissues ∧
      (HasWords src → t.stOf src = redeliverWord (s.stOf src)) ∧ (∀ y, y ≠ src → t.stOf y = s.stOf y) ∧
      OnlyChanges [.tgt, .vec] s t := by
  have record := State.setTarget_target_self (s := s) x (reissuedRecord (s.target x)) coherent.tgtCanonical.recs
  have others := fun y => State.setTarget_target_ne (s := s) x y (reissuedRecord (s.target x))
  have written := setTarget_only (s := s) x (reissuedRecord (s.target x))
  obtain ⟨word, words, only⟩ := markRedeliver_effect (s := s.setTarget x (reissuedRecord (s.target x)))
    (clean.of_ras rfl) coherent.vecCanonical src
  have tgt : (redelivered s x src).tgt =
      { (s.setTarget x (reissuedRecord (s.target x))).tgt with reissues := satInc s.tgt.reissues } :=
    congrArg (fun u : TgtUnit => { u with reissues := satInc u.reissues }) (only .tgt (by decide))
  have target : ∀ y, (redelivered s x src).target y = (s.setTarget x (reissuedRecord (s.target x))).target y :=
    target_congr (by rw [tgt])
  exact ⟨(target x).trans record, fun y other => (target y).trans (others y other), by rw [tgt]; rfl, by rw [tgt], word, words,
    (written.mono (by decide)).trans ((only.mono (by decide)).trans ((setTgt_only _).mono (by decide)))⟩

section
variable {s v : State} (ten : v.ten = s.ten) (n : Tenant) (x : Slot) (r : TargetRec) (src : Src)
include ten

theorem reissue_fabOut (fab : v.tgt.fabOut = s.tgt.fabOut) :
    (reissue v n x r src).tgt.fabOut = s.tgt.fabOut ++ [deliveryOf s n x r r.count r.tag src] := by
  unfold reissue
  rw [issue_tgt, tenant_congr ten, fab]
  rfl

/-- A delivery leaves the tenant's run of RESYNC alone. -/
theorem reissue_resync (wf : Sparse.wf {} s.ten.recs = true) :
    Sparse.wf {} (reissue v n x r src).ten.recs = true ∧ ((reissue v n x r src).tenant n).resync = (s.tenant n).resync := by
  have wfV : Sparse.wf {} v.ten.recs = true := by rw [ten]; exact wf
  have counted := tenant_congr (issue_ten v n x r.daddr (r.seq + 1) r.count r.tag src) n
  rw [modTenant_self wfV, tenant_congr ten] at counted
  refine ⟨setTenant_wf _ _ wfV, ?_⟩
  unfold reissue
  rw [counted]

end

theorem reissueCommitDelivers : Claims.ReissueCommitDelivers := by
  intro engine d n q s coherent clean on head again resync r left more
  have run := exec_reissueCommit on head again
  have dropped := setTgt_only (s := s) { s.tgt with emitted := s.tgt.emitted.erase d }
  have kept : Coherent (dropEmitted s d) := (dropEmitted_keeps (queue := s.pending) s d ⟨coherent, rfl⟩).toCoherent
  have cleanU : (dropEmitted s d).Clean := clean.of_ras rfl
  refine ⟨fun parked active addressed => ?_, fun done => ?_⟩
  · have delivers := commitReissue_delivers cleanU d n parked active addressed
    obtain ⟨record, others, fab, reissues, word, words, only⟩ := redelivered_effect kept cleanU d.slot d.src
    generalize redelivered (dropEmitted s d) d.slot d.src = v at delivers record others fab reissues word words only
    have ten : v.ten = s.ten := only .ten (by decide)
    obtain ⟨wf, going⟩ := reissue_resync ten n d.slot r d.src coherent.tenCanonical.recs
    have fabOut := reissue_fabOut ten n d.slot r d.src fab
    have issued : OnlyChanges [.tgt, .vec, .ten, .loupe] v (reissue v n d.slot r d.src) :=
      (issue_only v n d.slot _ _ _ _ _).mono (by decide)
    rw [delivers.trans (finishResync_tallied wf (going.trans resync) more)] at run
    exact ⟨_, run, fabOut, record, others, word, words, tallied_resync wf (going.trans resync), reissues,
      (dropped.mono (by decide)).trans <| (only.mono (by decide)).trans <|
        issued.trans ((modTenant_only n _).mono (by decide))⟩
  · have wf : Sparse.wf {} (dropEmitted s d).ten.recs = true := coherent.tenCanonical.recs
    rw [commitReissue_completed cleanU d n done, finishResync_tallied wf resync more] at run
    exact ⟨_, run, rfl, fun _ => rfl, tallied_resync wf resync,
      (dropped.mono (by decide)).trans ((modTenant_only n _).mono (by decide))⟩

/-- Settles O23: a re-issue that finds its target as it was parked delivers by the record alone, and one that does not is
only counted; in either case the run of RESYNC, which is left with a target, goes on. -/
theorem reissueCommits : Obligations.ReissueCommits := reissueCommitDelivers

/-! ## The beginning of a RESYNC -/

/-- A tenant's record with a RESYNC just begun, its set not taken yet (R145). -/
def resyncBegun (m : BitVec 7) (r : TenantRec) : TenantRec := { r with resync := some ⟨m, none, [], 0, 0, 0⟩ }

/-- A RESYNC that passes its checks begins, and its mailbox waits for the end. -/
theorem resyncStart_begins {s : State} {m : BitVec 7} {c : Snap} {n : Tenant}
    (who : checkTenant m (snapField c 0x08 1) 0x08 = .ok n) (bound : (s.tenant n).bound = true)
    (running : s.resetting n = false) (up : s.bnd.linkUp.getLsbD (s.tenant n).port.toNat = true)
    (idle : (s.tenant n).resync = none) :
    resyncStart s m c = (s.modTenant n (resyncBegun m)).modBox m fun b => { b with work := .waiting } := by
  unfold resyncStart
  simp only [who, bound, running, up, idle, Option.isSome_none, Bool.not_true, Bool.false_eq_true, if_false]
  rfl

/-- Settles O37: with its checks passed the command writes the tenant's run of RESYNC, and its mailbox waits. -/
theorem resyncBegins : Obligations.ResyncBegins := by
  intro m c n s coherent holds coreUp who bound running up idle
  have run : exec (.resync m) s = .next (resyncStart s m c) :=
    congrArg Host.Outcome.next (runTaken_holds holds rfl (allOn_coreTgt coreUp))
  rw [resyncStart_begins who bound running up idle] at run
  exact ⟨_, run, modTenant_self coherent.tenCanonical.recs n (resyncBegun m),
    fun k other => modTenant_ne n k (resyncBegun m) other, await_awaits coherent.mbxCanonical rfl m,
    ((modTenant_only n _).mono (by decide)).trans ((modBox_only m _).mono (by decide))⟩

end Sys2Proof.Machine
end

section
/-! Bindings of tenants to ports: the write that stands already, the refused one, and the one that takes effect (R164, R165). -/
namespace Sys2Proof.Machine
open Sys2Proof

/-! ## What a binding is refused for -/

/-- The tenant holds a target block or a vector range. Its Clasp groups do not count: the model's choice, log entry 43. -/
def HoldsGrant (s : State) (n : Tenant) : Prop := s.localBlocks n ≠ 0 ∨ (s.tenant n).range.isSome = true

/-- A port that the tenant may not be bound to: the manager's, no upstream port of the part, or another tenant's. -/
def PortBarred (s : State) (n : Tenant) (port : BitVec 7) : Prop :=
  port = s.ten.managerPort ∨ 80 ≤ port.toNat ∨ s.ten.upstream.getLsbD port.toNat = false ∨
    ∃ u, s.portTenant port.toNat = some u ∧ u ≠ n

/-- The test of R164 on a write that changes the binding of a tenant. -/
def bindBarred (s : State) (n : Tenant) (port : BitVec 7) : Bool :=
  (s.localBlocks n != 0 || (s.tenant n).range.isSome) || s.resetting n ||
    (port == s.ten.managerPort || decide (80 ≤ port.toNat) || !s.ten.upstream.getLsbD port.toNat ||
      (s.portTenant port.toNat).any (· != n))

theorem bindBarred_iff {s : State} {n : Tenant} {port : BitVec 7} :
    bindBarred s n port = true ↔ HoldsGrant s n ∨ s.resetting n = true ∨ PortBarred s n port := by
  simp only [bindBarred, HoldsGrant, PortBarred, Bool.or_eq_true, bne_iff_ne, beq_iff_eq, decide_eq_true_eq,
    Bool.not_eq_true', Option.any_eq_true, or_assoc]

/-! ## The write -/

section
variable {s : State} {n : Tenant} {data : W32}

/-- The write of a binding: no change, refused, or taken. -/
theorem writeBind_eq : writeBind s n data =
    if data.getLsbD 31 = (s.tenant n).bound ∧ field data 0 7 = (s.tenant n).port then s
    else if bindBarred s n (field data 0 7) then s.setTen { s.ten with bindRefused := true }
    else s.setTenant n { s.tenant n with bound := data.getLsbD 31, port := field data 0 7 } := by
  unfold writeBind bindBarred
  dsimp only
  cases s.portTenant (field data 0 7 : BitVec 7).toNat <;> rfl

/-- The binding registers follow one another, sixteen bytes each. -/
theorem writeTenantsPage_bind (s : State) (n : Tenant) (data : W32) :
    writeTenantsPage s (16 * n.toNat) data = writeBind s n data := by
  have small := n.isLt
  unfold writeTenantsPage
  rw [if_pos (by omega), if_pos (by omega), Nat.mul_div_cancel_left _ (by decide), BitVec.ofNat_toNat, BitVec.setWidth_eq]

/-- A served write of a tenant's binding by the FM. -/
theorem exec_tenantBind {p : Path} (f : pathFm p = true) (h : s.Serves (wordWrite p (0x7000 + 16 * n.toNat) data)) :
    exec (.tenantBind p n data) s = .next (writeBind s n data) := by
  have small := n.isLt
  have page : pageOf (0x7000 + 16 * n.toNat) = some (.tenants, 0x7000) := by
    unfold pageOf
    iterate 9 rw [if_neg (by omega)]
    rw [if_pos (by omega)]
  have written := fmPage (pg := .tenants) f h (by omega) (by omega) (by omega) (by omega) page
  rw [Nat.add_sub_cancel_left] at written
  exact congrArg Host.Outcome.next (written.trans (writeTenantsPage_bind s n data))

end

/-- Settles O49: the write reaches the tenant's binding, and a write that changes it is refused exactly when the test of
R164 bars it. That grants are target blocks and a range, and no Clasp groups, is log entry 43. -/
theorem tenantBound : Obligations.TenantBound := by
  intro p n data s canonical f h bound port same holds badPort
  rw [exec_tenantBind f h, writeBind_eq]
  refine ⟨fun unchanged => ?_, fun change barred => ?_, fun change grantless running allowed => ?_⟩
  · rw [if_pos unchanged]
  · rw [if_neg change, if_pos (bindBarred_iff.mpr barred)]
  · have free : ¬ bindBarred s n port = true := by
      rw [bindBarred_iff]
      rintro (held | resets | barred)
      · exact grantless held
      · exact absurd resets (Bool.eq_false_iff.mp running)
      · exact allowed barred
    rw [if_neg change, if_neg free]
    exact ⟨_, rfl, State.setTenant_tenant_self s n _ canonical.recs, fun k other => State.setTenant_tenant_ne s n k _ other,
      setTenant_only n _⟩

end Sys2Proof.Machine
end

section
/-! Faults cleared by command, and the consent of a tenant to debug accesses (R174, R219, R231, R242). -/
namespace Sys2Proof.Machine
open Sys2Proof

/-! ## A command that changes one tenant's record -/

theorem modTenant_answered {s : State} (coherent : Coherent s) {i : Instr} {m : BitVec 7} {r : Reply} {n : Tenant}
    {f : TenantRec → TenantRec} (run : exec i s = .next (finish (s.modTenant n f) m r)) :
    ∃ t, exec i s = .next t ∧ t.tenant n = f (s.tenant n) ∧ Answered m r s t ∧ (∀ k, k ≠ n → t.tenant k = s.tenant k) ∧
      OnlyChanges [.ten, .mbx] s t :=
  ⟨_, run, modTenant_self coherent.tenCanonical.recs n f, finish_answered coherent.mbxCanonical rfl m r,
    fun k other => modTenant_ne n k f other,
    ((modTenant_only n f).mono (by decide)).trans ((finish_only m r).mono (by decide))⟩

/-! ## FAULT_CLEAR -/

/-- A tenant's record with no bit of the summary set, and its first-fault record no more valid. -/
def faultless (r : TenantRec) : TenantRec := { r with faultSummary := 0, faultValid := false }

/-- With every bit cleared the level of the tenant's faults falls (R70, R174). -/
theorem clearFaults_all {s : State} (wf : Sparse.wf {} s.ten.recs = true) (n : Tenant) :
    clearFaults s n 0xFF true = setLevel (s.modTenant n faultless) (0x400 + n.toNat) false := by
  have record : s.modTenant n (fun r => { r with
      faultSummary := r.faultSummary &&& ~~~ (0xFF : BitVec 8), faultValid := r.faultValid && !true }) =
      s.modTenant n faultless := by
    simp [State.modTenant, faultless]
  unfold clearFaults
  simp only [record, modTenant_self wf]
  rfl

theorem clearFaults_all_effect {s : State} (coherent : Coherent s) (n : Tenant) :
    let t := clearFaults s n 0xFF true
    t.tenant n = faultless (s.tenant n) ∧ (∀ k, k ≠ n → t.tenant k = s.tenant k) ∧ t.level (0x400 + n.toNat) = false ∧
      t.mbx = s.mbx ∧ OnlyChanges [.ten, .sys, .pwr] s t := by
  intro t
  have cleared : t = setLevel (s.modTenant n faultless) (0x400 + n.toNat) false :=
    clearFaults_all coherent.tenCanonical.recs n
  have lowered := setLevel_only (s.modTenant n faultless) (0x400 + n.toNat) false
  have ten := lowered .ten (by decide)
  have only : OnlyChanges [.ten, .sys, .pwr] s (setLevel (s.modTenant n faultless) (0x400 + n.toNat) false) :=
    ((modTenant_only n faultless).mono (by decide)).trans (lowered.mono (by decide))
  rw [cleared]
  exact ⟨(tenant_congr ten n).trans (modTenant_self coherent.tenCanonical.recs n faultless),
    fun k other => (tenant_congr ten k).trans (modTenant_ne n k faultless other),
    setLevel_level (s := s.modTenant n faultless) coherent.sysCanonical _ _, only .mbx (by decide), only⟩

/-- FAULT_CLEAR past its checks clears, and answers with the registers as they stood (R219). -/
theorem exec_faultClear {s : State} {m : BitVec 7} {c : Snap} {n : Tenant} (holds : s.Holds m 0x31 c)
    (up : s.coreUp = true) (who : checkTenant m (snapField c 0x08 1) 0x08 = .ok n) (running : s.resetting n = false) :
    exec (.faultClear m) s = .next (finish (clearFaults s n 0xFF true) m (okReply (faultPayload (s.tenant n)))) := by
  have run : exec (.faultClear m) s = .next (faultCommand s m c true) :=
    congrArg Host.Outcome.next (runTaken_holds holds rfl (allOn_core up))
  rw [run]
  unfold faultCommand
  simp only [who, running, Bool.false_eq_true, if_false, if_true]

theorem faultsCleared : Claims.FaultsCleared := by
  intro m c n s coherent holds up who running
  obtain ⟨record, others, level, mbx, only⟩ := clearFaults_all_effect coherent n
  exact ⟨_, exec_faultClear holds up who running, record, others, level, finish_answered coherent.mbxCanonical mbx m _,
    (only.mono (by decide)).trans ((finish_only m _).mono (by decide))⟩

/-! ## Consent -/

/-- A tenant's record with a consent that takes effect at the next tick, for a number of frames, or until withdrawn with 0. -/
def consenting (frames : W32) (r : TenantRec) : TenantRec :=
  { r with consentNext := true, consentTaking := true, consentLeft := if frames = 0 then none else some frames }

/-- A tenant's record with its consent withdrawn from the next tick. -/
def unconsenting (r : TenantRec) : TenantRec := { r with consentNext := false, consentTaking := false, consentLeft := none }

theorem exec_debugConsent {s : State} {m : BitVec 7} {c : Snap} (holds : s.Holds m 0x72 c) (up : s.coreUp = true) :
    exec (.debugConsent m) s = .next (debugConsent s m c) :=
  congrArg Host.Outcome.next (runTaken_holds holds rfl (allOn_core up))

section
variable (s : State) {m : BitVec 7} {c : Snap} {n : Tenant} (who : mbTenant m = some n)
include who

theorem debugConsent_grants (grant : snapByte c 0x08 = 1) :
    debugConsent s m c = finish (s.modTenant n (consenting (BitVec.ofNat 32 (snapField c 0x0C 4)))) m
      (okReply ([1, 0, 0, 0] ++ bytesLE 4 (BitVec.ofNat 32 (snapField c 0x0C 4)).toNat)) := by
  have one : snapField c 0x08 1 = 1 := by rw [snap1, grant]; rfl
  unfold debugConsent
  simp only [who]
  rw [if_neg (by omega), if_pos one]
  rfl

theorem debugConsent_withdraws (grant : snapByte c 0x08 = 0) :
    debugConsent s m c = finish (s.modTenant n unconsenting) m (okReply [0, 0, 0, 0, 0, 0, 0, 0]) := by
  have zero : snapField c 0x08 1 = 0 := by rw [snap1, grant]; rfl
  unfold debugConsent
  simp only [who]
  rw [if_neg (by omega), if_neg (by omega)]
  rfl

end

theorem consentChanges : Claims.ConsentChanges := by
  intro m c n s coherent holds up who frames others
  have run := exec_debugConsent holds up
  refine ⟨fun grant => ?_, fun grant => ?_⟩
  · rw [debugConsent_grants s who grant] at run
    exact modTenant_answered coherent run
  · rw [debugConsent_withdraws s who grant] at run
    exact modTenant_answered coherent run

theorem consentLapses : Claims.ConsentLapses := by
  intro n s coherent last granted
  have run : exec (.consentLapse n) s = .next (s.modTenant n fun r => { r with consentNext := false, consentLeft := none }) :=
    congrArg Host.Outcome.next (if_pos ⟨last, granted⟩)
  exact ⟨_, run, modTenant_self coherent.tenCanonical.recs n _, fun k other => modTenant_ne n k _ other, modTenant_only n _⟩

/-- Settles O38: each command, past its checks, changes one tenant's record and answers; a consent in its last frame
is taken back from the next tick. -/
theorem faultsAndConsent : Obligations.FaultsAndConsent := ⟨faultsCleared, consentChanges, consentLapses⟩

end Sys2Proof.Machine
end

section
/-! The invariant of a run: every command keeps a coherent state coherent, and so does every step. -/
namespace Sys2Proof.Machine

variable {queue : List Instr}

/-- Every command keeps coherence, and the queue: for each row the lemma about its meaning. -/
theorem exec_keeps (c : Instr) (s : State) (h : Kept queue s) : OutKept queue (exec c s) := by
  cases c with
  | coldReset => exact execColdReset_keeps s h
  | blockReset => exact execBlockReset_keeps s h
  | frameTick inp => exact execFrameTick_keeps inp s h
  | timerFire x => exact execTimerFire_keeps x s h
  | claspHoldoffEnd g => exact execClaspHoldoffEnd_keeps g s h
  | periodChangeApply => exact execPeriodChangeApply_keeps s h
  | decisionCommit engine mismatch => exact execDecisionCommit_keeps engine mismatch s h
  | decisionWithdraw engine => exact execDecisionWithdraw_keeps engine s h
  | reissueCommit engine mismatch => exact execReissueCommit_keeps engine mismatch s h
  | intakeWrite w => exact execIntakeWrite_keeps w s h
  | intakeDrain => exact execIntakeDrain_keeps s h
  | captureDrain => exact execCaptureDrain_keeps s h
  | srcSetPending p data requester => exact execSrcSetPending_keeps p data requester s h
  | srcClrPending p data => exact execSrcClrPending_keeps p data s h
  | srcSetEnable p data => exact execSrcSetEnable_keeps p data s h
  | srcClrEnable p data => exact execSrcClrEnable_keeps p data s h
  | srcClrSticky p data => exact execSrcClrSticky_keeps p data s h
  | systemLaneTake => exact execSystemLaneTake_keeps s h
  | portLinkChange port level => exact execPortLinkChange_keeps port level s h
  | portPresenceChange port level => exact execPortPresenceChange_keeps port level s h
  | portContained port => exact execPortContained_keeps port s h
  | corValid port => exact execCorValid_keeps port s h
  | uncValid port => exact execUncValid_keeps port s h
  | chainEvent p data => exact execChainEvent_keeps p data s h
  | tgtComplete p page form data => exact execTgtComplete_keeps p page form data s h
  | tgtCompleteSeq p page form data => exact execTgtCompleteSeq_keeps p page form data s h
  | completionDrain => exact execCompletionDrain_keeps s h
  | dropNotice slot seq parityErr => exact execDropNotice_keeps slot seq parityErr s h
  | tgtPrivSet p page data => exact execTgtPrivSet_keeps p page data s h
  | tgtPrivClr p page data => exact execTgtPrivClr_keeps p page data s h
  | tgtPrivEnable p page data => exact execTgtPrivEnable_keeps p page data s h
  | privateLaneApply => exact execPrivateLaneApply_keeps s h
  | tgtCtrl p page data => exact execTgtCtrl_keeps p page data s h
  | tgtTimerCtrl p page data => exact execTgtTimerCtrl_keeps p page data s h
  | messagePassStart => exact execMessagePassStart_keeps s h
  | systemPassStart => exact execSystemPassStart_keeps s h
  | refillPassEnd => exact execRefillPassEnd_keeps s h
  | mailboxRing p => exact execMailboxRing_keeps p s h
  | mailboxCancel p => exact execMailboxCancel_keeps p s h
  | commandTake mb => exact execCommandTake_keeps mb s h
  | replyDeposit mb => exact execReplyDeposit_keeps mb s h
  | getInfo mb => exact execGetInfo_keeps mb s h
  | targetGrant mb => exact execTargetGrant_keeps mb s h
  | targetWithdraw mb => exact execTargetWithdraw_keeps mb s h
  | setDaddr mb => exact execSetDaddr_keeps mb s h
  | setNotice mb => exact execSetNotice_keeps mb s h
  | vectorRangeGrant mb => exact execVectorRangeGrant_keeps mb s h
  | vectorRangeWithdraw mb => exact execVectorRangeWithdraw_keeps mb s h
  | clearSweepEnd base => exact execClearSweepEnd_keeps base s h
  | vectorSet mb => exact execVectorSet_keeps mb s h
  | vectorLoad mb => exact execVectorLoad_keeps mb s h
  | loaderReadCompletion mb ok data => exact execLoaderReadCompletion_keeps mb ok data s h
  | loaderReadTimeout mb => exact execLoaderReadTimeout_keeps mb s h
  | vectorRead mb => exact execVectorRead_keeps mb s h
  | forwardSet mb => exact execForwardSet_keeps mb s h
  | setInterval mb => exact execSetInterval_keeps mb s h
  | setAssign mb => exact execSetAssign_keeps mb s h
  | watchAdd mb => exact execWatchAdd_keeps mb s h
  | watchRemove mb => exact execWatchRemove_keeps mb s h
  | tenantReset mb => exact execTenantReset_keeps mb s h
  | tenantResetWork t => exact execTenantResetWork_keeps t s h
  | tenantResetEnd t => exact execTenantResetEnd_keeps t s h
  | resync mb => exact execResync_keeps mb s h
  | faultRead mb => exact execFaultRead_keeps mb s h
  | faultClear mb => exact execFaultClear_keeps mb s h
  | statsRead mb => exact execStatsRead_keeps mb s h
  | timeRead mb => exact execTimeRead_keeps mb s h
  | domainPower mb => exact execDomainPower_keeps mb s h
  | padRelease mb => exact execPadRelease_keeps mb s h
  | mpuConfigRead mb => exact execMpuConfigRead_keeps mb s h
  | mpuConfigWrite mb => exact execMpuConfigWrite_keeps mb s h
  | setLdt mb => exact execSetLdt_keeps mb s h
  | setCtle mb => exact execSetCtle_keeps mb s h
  | chainRetrain mb => exact execChainRetrain_keeps mb s h
  | chainDisable mb => exact execChainDisable_keeps mb s h
  | chainEnable mb => exact execChainEnable_keeps mb s h
  | setInputs mb => exact execSetInputs_keeps mb s h
  | setOutputs mb => exact execSetOutputs_keeps mb s h
  | repairStatus mb => exact execRepairStatus_keeps mb s h
  | hallmarkRead mb => exact execHallmarkRead_keeps mb s h
  | fwStage mb fate => exact execFwStage_keeps mb fate s h
  | fwActivate mb => exact execFwActivate_keeps mb s h
  | nextStartOnly mb => exact execNextStartOnly_keeps mb s h
  | fwFallback => exact execFwFallback_keeps s h
  | debugConsent mb => exact execDebugConsent_keeps mb s h
  | consentLapse t => exact execConsentLapse_keeps t s h
  | agentRestart t access => exact execAgentRestart_keeps t access s h
  | firmwareRestart access => exact execFirmwareRestart_keeps access s h
  | restartComplete t => exact execRestartComplete_keeps t s h
  | smbusBlockWrite offset data pecOk => exact execSmbusBlockWrite_keeps offset data pecOk s h
  | smbusProcessCall offset count pecOk => exact execSmbusProcessCall_keeps offset count pecOk s h
  | periodRequest p data => exact execPeriodRequest_keeps p data s h
  | intakeBaseWrite p high data => exact execIntakeBaseWrite_keeps p high data s h
  | weightWrite p t data => exact execWeightWrite_keeps p t data s h
  | tenantBind p t data => exact execTenantBind_keeps p t data s h
  | viewSelect p data => exact execViewSelect_keeps p data s h
  | frameCountLoRead p => exact execFrameCountLoRead_keeps p s h
  | fmRestart p data => exact execFmRestart_keeps p data s h
  | rasInject p data => exact execRasInject_keeps p data s h
  | histClear p data => exact execHistClear_keeps p data s h
  | mpuEnableWrite p unit data => exact execMpuEnableWrite_keeps p unit data s h
  | mpuSync p unit => exact execMpuSync_keeps p unit s h
  | mpuRegionWrite p unit region reg data => exact execMpuRegionWrite_keeps p unit region reg data s h
  | registerWrite p offset bytes fullBe data => exact execRegisterWrite_keeps p offset bytes fullBe data s h
  | debugAccess req => exact execDebugAccess_keeps req s h
  | tickMarkerReceive port flit arrival latency => exact execTickMarkerReceive_keeps port flit arrival latency s h
  | markerTimeout => exact execMarkerTimeout_keeps s h
  | mastershipHandover => exact execMastershipHandover_keeps s h
  | signalDetect port lanes => exact execSignalDetect_keeps port lanes s h
  | detectTimeout port => exact execDetectTimeout_keeps port s h
  | cdrLock port lanes => exact execCdrLock_keeps port lanes s h
  | cdrLockTimeout port => exact execCdrLockTimeout_keeps port s h
  | pam4Check port errors => exact execPam4Check_keeps port errors s h
  | trainingSetReceive port set => exact execTrainingSetReceive_keeps port set s h
  | markerBlock port lane block => exact execMarkerBlock_keeps port lane block s h
  | deskewTimeout port => exact execDeskewTimeout_keeps port s h
  | init port flit turn => exact execInit_keeps port flit turn s h
  | initEcho port flit arrival => exact execInitEcho_keeps port flit arrival s h
  | initTimeout port => exact execInitTimeout_keeps port s h
  | laneLockLoss port lane => exact execLaneLockLoss_keeps port lane s h
  | sparingTimeout port => exact execSparingTimeout_keeps port s h
  | linkDown port => exact execLinkDown_keeps port s h
  | downRetry port => exact execDownRetry_keeps port s h
  | flitTransmit port now => exact execFlitTransmit_keeps port now s h
  | dataFlitReceive port flit => exact execDataFlitReceive_keeps port flit s h
  | linkFlitReceive port flit => exact execLinkFlitReceive_keeps port flit s h
  | replayTimeout port => exact execReplayTimeout_keeps port s h
  | e2eResend c => exact execE2eResend_keeps c s h
  | creditOverdue port cls => exact execCreditOverdue_keeps port cls s h
  | allowOverdue c t => exact execAllowOverdue_keeps c t s h
  | beadWakeEdge j => exact execBeadWakeEdge_keeps j s h
  | entryComplete d => exact execEntryComplete_keeps d s h
  | regRdy d => exact execRegRdy_keeps d s h
  | clkRdy d => exact execClkRdy_keeps d s h
  | memRdy d ret => exact execMemRdy_keeps d ret s h
  | logicRdy d exitUs lkt => exact execLogicRdy_keeps d exitUs lkt s h
  | phaseDeadline d => exact execPhaseDeadline_keeps d s h
  | exitTimeout d => exact execExitTimeout_keeps d s h
  | regRdyFall d => exact execRegRdyFall_keeps d s h
  | lktCalibration count => exact execLktCalibration_keeps count s h
  | tempSample temp valid => exact execTempSample_keeps temp valid s h
  | agedHour => exact execAgedHour_keeps s h
  | fieldRepairCopy => exact execFieldRepairCopy_keeps s h
  | ctrlScrub upsets => exact execCtrlScrub_keeps upsets s h
  | rowRetire bank row => exact execRowRetire_keeps bank row s h
  | internalBusParityError path repeatFails => exact execInternalBusParityError_keeps path repeatFails s h
  | registerRead p offset bytes fullBe => exact execRegisterRead_keeps p offset bytes fullBe s h
  | firmwareTblRet q => exact execFirmwareTblRet_keeps q s h
  | containedFall port => exact execContainedFall_keeps port s h
  | wakeInputFall j => exact execWakeInputFall_keeps j s h
  | idleFlitReceive port flit => exact execIdleFlitReceive_keeps port flit s h
  | powerLost => exact execPowerLost_keeps s h
  | resetRelease env => exact execResetRelease_keeps env s h

/-- What stands in the queue is no part of coherence. -/
theorem Coherent.kept_pending {s : State} (h : Coherent s) (rest : List Instr) : Kept rest { s with pending := rest } :=
  ⟨{ h with }, rfl⟩

/-- Settles O5: an idle step changes nothing, and the command that runs keeps coherence whatever its row. -/
theorem stepKeepsCoherent : Obligations.StepKeepsCoherent := by
  intro s t coherent stepped
  unfold step at stepped
  split at stepped
  next => exact Host.Outcome.next.inj stepped ▸ coherent
  next c rest _ =>
    have kept : OutKept rest (exec c { s with pending := rest }) := exec_keeps c _ (coherent.kept_pending rest)
    rw [stepped] at kept
    exact kept.toCoherent

end Sys2Proof.Machine
end

section
/-! MB_DOORBELL and the writes that a ringing mailbox holds off (R186, R190, R192). -/
namespace Sys2Proof.Machine

variable {s : State} {m : BitVec 7}

/-- What is said of a command whose whole effect is on one mailbox. -/
theorem BoxSet.answers {t : State} {i : Instr} {r : Mailbox} (set : BoxSet m r s t) (run : exec i s = .next t) :
    ∃ t, exec i s = .next t ∧ t.box m = r ∧ (∀ k, k ≠ m → t.box k = s.box k) ∧ t.mbx.fw = s.mbx.fw ∧
      OnlyChanges [.mbx] s t := by
  obtain ⟨box, others, fw, only, -⟩ := set
  exact ⟨t, run, box, others, fw, only⟩

/-! ## The doorbell -/

/-- What a write of MB_DOORBELL makes of a mailbox whose RING is 1: a ring sets OVERRUN, and CANCEL drops a ring that is
not yet taken. -/
def doorbellHeld (b : Mailbox) (data : W32) : Mailbox :=
  { b with overrun := b.overrun || data.getLsbD 0, ring := b.ring && !(data.getLsbD 1 && !b.taken) }

theorem doorbellHeld_ring (b : Mailbox) : doorbellHeld b 1 = { b with overrun := true } := by
  simp [doorbellHeld]

theorem doorbellHeld_cancel (b : Mailbox) : doorbellHeld b 2 = { b with ring := b.ring && b.taken } := by
  simp [doorbellHeld]

theorem writeDoorbell_held (ringing : (s.box m).ring = true) (smbus : Bool) (data : W32) :
    writeDoorbell s m smbus data = s.setBox m (doorbellHeld (s.box m) data) := by
  unfold writeDoorbell doorbellHeld
  rw [if_pos ringing]
  generalize s.box m = b
  obtain ⟨_, _, ring, taken⟩ := b
  cases data.getLsbD 0 <;> cases data.getLsbD 1 <;> cases taken <;> simp

theorem ringWake_on (on : s.isOn dCTRL = true) : ringWake s = s := if_pos (by rw [on]; rfl)

theorem writeDoorbell_free (idle : (s.box m).ring = false) (on : s.isOn dCTRL = true) (smbus : Bool) :
    writeDoorbell s m smbus 1 = s.setBox m { s.box m with ring := true, ringPath := smbus } :=
  (if_neg (by simp [idle])).trans (ringWake_on on)

theorem writeWord_doorbell {p : Path} {data : W32} :
    writeWord s p 0x1200 data = writeDoorbell s (pathMailbox p) (p == .smbus) data :=
  mailWord (by decide) (by decide)

theorem write4_doorbell {p : Path} {data : W32} (serves : s.Serves (wordWrite p 0x1200 data)) :
    write4 s p 0x1200 data = writeDoorbell s (pathMailbox p) (p == .smbus) data := by
  rw [write4_serves serves (by decide) rfl, performWrite_word (by decide) rfl (by decide), writeWord_doorbell]

/-- Settles O26: each write of the doorbell sets one mailbox, as RING and TAKEN stand. -/
theorem mailboxRingAndCancel : Obligations.MailboxRingAndCancel := by
  intro p s canonical _ on m b writes
  have sets {i : Instr} {data : W32} {r : Mailbox} (run : exec i s = .next (write4 s p 0x1200 data))
      (serves : s.Serves (wordWrite p 0x1200 data))
      (effect : writeDoorbell s m (p == .smbus) data = s.setBox m r) : writes i r := by
    rw [write4_doorbell serves, effect] at run
    exact (boxSet_set canonical m r).answers run
  refine ⟨fun serves => ⟨fun idle => ?_, fun ringing => ?_⟩, fun serves ringing => ?_⟩
  · exact sets rfl serves (writeDoorbell_free idle on _)
  · exact sets rfl serves (doorbellHeld_ring b ▸ writeDoorbell_held ringing _ _)
  · have effect : writeDoorbell s m (p == .smbus) 2 = s.setBox m { b with ring := b.ring && b.taken } :=
      doorbellHeld_cancel b ▸ writeDoorbell_held ringing _ _
    refine ⟨fun untaken => sets rfl serves ?_, fun taken => sets rfl serves ?_⟩
    · rw [effect, show (b.ring && b.taken) = false by simp [untaken]]
    · rw [effect, show (b.ring && b.taken) = b.ring by simp [taken]]

/-! ## Writes that RING holds off (R190) -/

theorem writeWord_beside {p : Path} {data : W32} : writeWord s p 0x120C data = s :=
  mailWord (by decide) (by decide)

/-- The one register write that 4 bytes make, or the two of 8 in the order of their offsets. -/
def wordWrites (s : State) (p : Path) (off bytes : Nat) (data : W64) : State :=
  if bytes = 8 then writeWord (writeWord s p off (field data 0 32)) p (off + 4) (field data 32 32)
  else writeWord s p off (field data 0 32)

theorem access_wordWrites {p : Path} {off bytes : Nat} {data : W64} (size : bytes = 4 ∨ (bytes = 8 ∧ p ≠ Path.smbus))
    (aligned : off % bytes = 0) (below : off < 0x1210)
    (serves : s.Serves ⟨p, BitVec.ofNat 22 off, bytes, true, true, data, 0⟩) :
    access s ⟨p, BitVec.ofNat 22 off, bytes, true, true, data, 0⟩ = wordWrites s p off bytes data := by
  have offset : (BitVec.ofNat 22 off).toNat = off := ofNat22 (by omega)
  have form : admitted ⟨p, BitVec.ofNat 22 off, bytes, true, true, data, 0⟩ = true := by
    unfold admitted
    simp only [offset]
    rcases size with rfl | ⟨rfl, window⟩
    · simp [aligned]
    · simp [aligned, window, show off % 4 = 0 by omega, show ¬ 0x10000 ≤ off by omega]
  rw [access_serves serves form, if_pos rfl]
  unfold performWrite
  simp only [offset, opNone (show off < 0x10000 by omega)]
  exact if_neg (by omega)

/-- Both register writes of a held write turn to the same OVERRUN. -/
theorem wordWrites_held {p : Path} {off bytes : Nat} {data : W64} (canonical : CanonicalMbx s.mbx)
    (size : bytes = 4 ∨ bytes = 8) (aligned : off % bytes = 0) (held : (0x1000 ≤ off ∧ off < 0x1100) ∨ off = 0x1208)
    (ringing : (s.box (pathMailbox p)).ring = true) :
    BoxSet (pathMailbox p) { s.box (pathMailbox p) with overrun := true } s (wordWrites s p off bytes data) := by
  have low := areaHeld (data := field data 0 32) canonical held ringing
  rcases size with rfl | rfl
  · exact low
  unfold wordWrites
  rw [if_pos rfl]
  have ⟨box, _, _, _, canonical'⟩ := low
  rcases held with area | rfl
  · have inside : 0x1000 ≤ off + 4 ∧ off + 4 < 0x1100 := by omega
    have high := areaHeld (p := p) (data := field data 32 32) canonical' (.inl inside) (by rw [box]; exact ringing)
    rw [box] at high
    exact low.trans high
  · rw [writeWord_beside]
    exact low

/-- Settles O50: the write leaves the mailbox with OVERRUN, and takes RING back only where it carries CANCEL. -/
theorem ringHoldsMailbox : Obligations.RingHoldsMailbox := by
  intro p off bytes data s canonical size aligned place serves ringing
  suffices effect : BoxSet (pathMailbox p) { s.box (pathMailbox p) with
      overrun := true, ring := !(decide (off = 0x1200) && data.getLsbD 1 && !(s.box (pathMailbox p)).taken) } s
      (access s ⟨p, BitVec.ofNat 22 off, bytes, true, true, data, 0⟩) from effect.answers rfl
  rw [access_wordWrites size aligned (by omega) serves]
  rw [← or_assoc] at place
  rcases place with held | ⟨rfl, rfl, bell⟩
  · have elsewhere : off ≠ 0x1200 := by omega
    have effect := wordWrites_held (data := data) canonical (size.imp_right And.left) aligned held ringing
    simpa [elsewhere, ← ringing] using effect
  · rw [show wordWrites s p 0x1200 4 data = _ from writeWord_doorbell, writeDoorbell_held ringing]
    have ⟨low0, low1⟩ := low32 data
    have same : doorbellHeld (s.box (pathMailbox p)) (field data 0 32) = { s.box (pathMailbox p) with
        overrun := true, ring := !(decide (0x1200 = 0x1200) && data.getLsbD 1 && !(s.box (pathMailbox p)).taken) } := by
      simp only [doorbellHeld, low0, low1, bell, ringing, Bool.or_true, decide_true, Bool.true_and]
    exact same ▸ boxSet_set canonical _ _

end Sys2Proof.Machine
end

section
/-! The take of a ring, and the deposit of a reply (R187 to R196). -/
namespace Sys2Proof.Machine

variable {s : State} {m : BitVec 7}

/-- What stands of the mailboxes once one of them has been set, and nothing since. -/
theorem box_of_setBox {u t : State} {r : Mailbox} (canonical : CanonicalMbx s.mbx) (before : u.mbx = s.mbx)
    (after : t.mbx = (u.setBox m r).mbx) :
    t.box m = r ∧ (∀ k, k ≠ m → t.box k = s.box k) ∧ t.mbx.fw = s.mbx.fw :=
  boxIs (i := .commandTake m) (ps := []) canonical before after

/-! ## Take -/

/-- A ring of a mailbox that is not closed is taken. -/
theorem exec_commandTake (mailbox : m.toNat ≤ 64) (engine : s.engineReady = true) (ringing : (s.box m).ring = true)
    (untaken : (s.box m).taken = false) (opened : ∀ n, mbTenant m = some n → s.resetting n = false) :
    exec (.commandTake m) s = .next (takeCommand s m) := by
  have closed : (match mbTenant m with
      | some t => s.resetting t
      | none => false) = false := by
    cases who : mbTenant m with
    | none => rfl
    | some n => exact opened n who
  refine congrArg Host.Outcome.next (if_pos ⟨mailbox, ringing, by simp [untaken], engine, ?_⟩)
  exact fun h => absurd (h.symm.trans closed) (by decide)

/-- The mailbox whose ring is taken, with the snapshot of its command area and what becomes of it. -/
def takenBox (b : Mailbox) (w : Work) : Mailbox :=
  { b with path := b.ringPath, taken := true, snap := some (takeSnap b), work := w }

section
variable (fresh : ¬ ((s.box m).replyValid = true ∧ (s.box m).seq = (s.box m).replySeq))
include fresh

theorem takeCommand_safeMinimum (safe : s.hm.safeMin = true) (tenant : (mbTenant m).isSome = true) :
    takeCommand s m = s.setBox m (takenBox (s.box m) (.done (refuse stSafeMinimum 0xFF))) := by
  unfold takeCommand
  dsimp only
  rw [if_neg fresh, if_pos (by rw [safe, tenant]; rfl)]
  rfl

theorem takeCommand_restarting (restarting : (s.box m).restarting = true)
    (served : (s.hm.safeMin && (mbTenant m).isSome) = false) :
    takeCommand s m = s.setBox m (takenBox (s.box m) (.done (refuse stBusyRestart 0xFF))) := by
  unfold takeCommand
  dsimp only
  rw [if_neg fresh, if_neg (by simp [served]), if_pos restarting]
  rfl

variable (normal : (s.box m).restarting = false) (full : s.hm.safeMin = false)
include normal full

theorem takeCommand_refused {r : Reply} (refused : commonChecks m (takeSnap (s.box m)) = some r) :
    takeCommand s m = s.setBox m (takenBox (s.box m) (.done r)) := by
  unfold takeCommand
  dsimp only
  rw [if_neg fresh, if_neg (by simp [full]), if_neg (by simp [normal]), if_neg (by simp [safeAnswer, full])]
  show (match commonChecks m (takeSnap (s.box m)) with
    | some r => _
    | none => _) = _
  rw [refused]
  rfl

theorem takeCommand_runs (passed : commonChecks m (takeSnap (s.box m)) = none) :
    (takeCommand s m).mbx = (s.setBox m { takenBox (s.box m) .run with checked := true }).mbx ∧
      OnlyChanges [.mbx, .acu] s (takeCommand s m) := by
  unfold takeCommand
  dsimp only
  rw [if_neg fresh, if_neg (by simp [full]), if_neg (by simp [normal]), if_neg (by simp [safeAnswer, full])]
  split
  next r refused => cases passed.symm.trans refused
  next =>
    have set : OnlyChanges [.mbx, .acu] s (s.setBox m { takenBox (s.box m) .run with checked := true }) :=
      (setBox_only _ _).mono (by decide)
    split
    · have loaded := loadAgentRegions_only (s.setBox m { takenBox (s.box m) .run with checked := true }) ‹Tenant›
      exact ⟨loaded .mbx (by decide), set.trans (loaded.mono (by decide))⟩
    · exact ⟨rfl, set⟩

end

/-- A ring that repeats the sequence number of a reply that stands is not taken (R189). -/
theorem takeCommand_replays (repeated : (s.box m).replyValid = true ∧ (s.box m).seq = (s.box m).replySeq) :
    takeCommand s m =
      replyNotice (s.setBox m { s.box m with path := (s.box m).ringPath, ring := false, replyReady := true }) m :=
  if_pos repeated

/-- Settles O27: a ring repeated re-signals, a ring refused is held with its reply, and any other runs. -/
theorem commandTaken : Obligations.CommandTaken := by
  intro m s canonical mailbox engine ringing untaken opened b others
  have run := exec_commandTake mailbox engine ringing untaken opened
  have turned {r : Reply} (effect : takeCommand s m = s.setBox m (takenBox b (.done r))) :
      ∃ t, exec (.commandTake m) s = .next t ∧ t.box m = takenBox b (.done r) ∧ others t ∧ OnlyChanges [.mbx] s t := by
    obtain ⟨t, run, box, beside, fw, only⟩ := (boxSet_set canonical m (takenBox b (.done r))).answers (effect ▸ run)
    exact ⟨t, run, box, ⟨beside, fw⟩, only⟩
  refine ⟨fun repeated => ?_, fun fresh normal full => ⟨fun passed => ?_, fun r refused => ?_⟩,
    fun fresh => ⟨fun safe tenant => ?_, fun restarting served => ?_⟩⟩
  · rw [takeCommand_replays repeated] at run
    have noticed := replyNotice_only (s.setBox m { b with path := b.ringPath, ring := false, replyReady := true }) m
    obtain ⟨box, beside, fw⟩ := box_of_setBox canonical rfl (noticed .mbx (by decide))
    exact ⟨_, run, box, ⟨beside, fw⟩, ((setBox_only _ _).mono (by decide)).trans (noticed.mono (by decide))⟩
  · obtain ⟨mbx, only⟩ := takeCommand_runs fresh normal full passed
    obtain ⟨box, beside, fw⟩ := box_of_setBox canonical rfl mbx
    exact ⟨_, run, box, ⟨beside, fw⟩, only⟩
  · exact turned (takeCommand_refused fresh normal full refused)
  · exact turned (takeCommand_safeMinimum fresh safe tenant)
  · exact turned (takeCommand_restarting fresh restarting served)

/-! ## Deposit -/

/-- The mailbox whose reply is deposited, where no restart has overtaken it. -/
def repliedBox (b : Mailbox) (c : Snap) (r : Reply) : Mailbox :=
  { b with
    reply := replyArea c r, replySeq := c.seq, lastStatus := r.status, replyValid := true, replyReady := true
    ring := false, taken := false, snap := none, work := .idle, load := none, checked := false
    executed := if b.checked then satInc b.executed else b.executed }

theorem deposit_replies {c : Snap} {r : Reply} (held : (s.box m).snap = some c) (kept : (s.box m).discard = false)
    (whole : r.status ≠ stBusyRestart) :
    deposit s m r = replyNotice (chargeMailbox ((leaveMailbox s m).setBox m (repliedBox (s.box m) c r)) m c r.status) m := by
  have box : (leaveMailbox s m).box m = s.box m := box_congr (leaveMailbox_only s m .mbx (by decide)) m
  unfold deposit
  dsimp only
  simp [box, held, kept, whole, repliedBox]

theorem chargeMailbox_none {c : Snap} {status : Byte} (mild : status ≠ stNotOwner ∧ status ≠ stDenied) :
    chargeMailbox s m c status = s := by
  unfold chargeMailbox
  split
  · exact if_neg (by simp [mild])
  · rfl

theorem chargeMailbox_tenant {c : Snap} {status : Byte} {n : Tenant} (who : mbTenant m = some n)
    (refused : status = stNotOwner ∨ status = stDenied) :
    chargeMailbox s m c status = chargeFault s n 0x09 (c.opcode.setWidth 32) := by
  unfold chargeMailbox
  simp only [who]
  exact if_pos refused

theorem exec_replyDeposit {c : Snap} {r : Reply} (ready : (s.box m).work = .done r) (held : (s.box m).snap = some c)
    (timeless : c.opcode ≠ 0x33) : exec (.replyDeposit m) s = .next (deposit s m r) := by
  have fresh : freshReply s m r = r := by
    unfold freshReply
    simp only [held]
    exact if_neg fun h => timeless h.1
  show Host.Outcome.next (depositDone s m) = _
  unfold depositDone
  simp only [ready]
  rw [fresh]

/-- Settles O28: the reply stands in its mailbox, and a refusal for want of ownership is charged to the tenant. -/
theorem replyDeposited : Obligations.ReplyDeposited := by
  intro m c r s coherent ready held kept timeless whole b replied
  have run := exec_replyDeposit ready held timeless
  rw [deposit_replies held kept whole] at run
  have left := leaveMailbox_only s m
  have set : OnlyChanges [.mbx, .acu, .tgt] s ((leaveMailbox s m).setBox m (repliedBox b c r)) :=
    (left.mono (by decide)).trans ((setBox_only _ _).mono (by decide))
  have deposited {t : State} (mbx : t.mbx = ((leaveMailbox s m).setBox m (repliedBox b c r)).mbx) : replied t :=
    box_of_setBox coherent.mbxCanonical (left .mbx (by decide)) mbx
  refine ⟨fun owned allowed => ?_, fun refused n who => ?_⟩
  · rw [chargeMailbox_none ⟨owned, allowed⟩] at run
    have noticed := replyNotice_only ((leaveMailbox s m).setBox m (repliedBox b c r)) m
    exact ⟨_, run, deposited (noticed .mbx (by decide)), set.trans (noticed.mono (by decide))⟩
  · rw [chargeMailbox_tenant who refused] at run
    generalize before : (leaveMailbox s m).setBox m (repliedBox b c r) = u at run set deposited
    have ten : u.ten = s.ten := set .ten (by decide)
    have canonical : Sparse.wf {} u.ten.recs = true := ten ▸ coherent.tenCanonical.recs
    have charged := chargeFault_only u n 0x09 (c.opcode.setWidth 32)
    have noticed := replyNotice_only (chargeFault u n 0x09 (c.opcode.setWidth 32)) m
    have record := chargeFault_tenant canonical n 0x09 (c.opcode.setWidth 32)
    obtain ⟨count, summary⟩ := faulted_fields (u.tenant n) 0x09 (c.opcode.setWidth 32) u.frameLo
    refine ⟨_, run, deposited ((noticed .mbx (by decide)).trans (charged .mbx (by decide))), ?_, ?_, fun k other => ?_,
      (set.mono (by decide)).trans ((charged.mono (by decide)).trans (noticed.mono (by decide)))⟩
    · rw [tenant_congr (noticed .ten (by decide)), record, count, tenant_congr ten]
    · rw [tenant_congr (noticed .ten (by decide)), record, summary, BitVec.getLsbD_or]
      simp [faultBit]
    · rw [tenant_congr (noticed .ten (by decide)), chargeFault_tenant_ne n k _ _ other, tenant_congr ten]

end Sys2Proof.Machine
end

section
/-! Register accesses: the command area and SEQ of a free mailbox, accesses of no admitted form, and the reads that clear
or latch (R50, R190, R240, R370). -/
namespace Sys2Proof.Machine

variable {s : State}

/-! ## The command area (R183, R190) -/

/-- A free mailbox takes the bytes of a write of its command area. -/
theorem fold_stores : ∀ (l : List (Byte × Nat)) (o : Nat) (b : Mailbox), b.ring = false →
    l.foldl (fun b e => writeCommandByte b (o + e.2) e.1) b =
      { b with cmd := l.foldl (fun c e => Sparse.set 0 c (o + e.2) e.1) b.cmd }
  | [], _, _, _ => rfl
  | e :: l, o, b, idle => by
    have stored : writeCommandByte b (o + e.2) e.1 = { b with cmd := Sparse.set 0 b.cmd (o + e.2) e.1 } :=
      if_neg (by simp [idle])
    rw [List.foldl_cons, List.foldl_cons, stored]
    exact fold_stores l o { b with cmd := Sparse.set 0 b.cmd (o + e.2) e.1 } idle

/-- The command area after a write of 4 bytes, least significant first. -/
def storedWord (cmd : Sparse Byte) (off : Nat) (data : W32) : Sparse Byte :=
  (bytesLE 4 data.toNat).zipIdx.foldl (fun c e => Sparse.set 0 c (off + e.2) e.1) cmd

theorem storedWord_eq (cmd : Sparse Byte) (off : Nat) (data : W32) : storedWord cmd off data =
    Sparse.set 0 (Sparse.set 0 (Sparse.set 0 (Sparse.set 0 cmd off (byteAt data 0)) (off + 1) (byteAt data 1))
      (off + 2) (byteAt data 2)) (off + 3) (byteAt data 3) := by
  unfold storedWord
  rw [byteAt_bytes]
  rfl

theorem storedWord_outside (cmd : Sparse Byte) (off : Nat) (data : W32) {k : Nat} (outside : k < off ∨ off + 4 ≤ k) :
    Sparse.get 0 (storedWord cmd off data) k = Sparse.get 0 cmd k := by
  rw [storedWord_eq, Sparse.get_set_ne _ _ _ _ _ (by omega), Sparse.get_set_ne _ _ _ _ _ (by omega),
    Sparse.get_set_ne _ _ _ _ _ (by omega), Sparse.get_set_ne _ _ _ _ _ (by omega)]

theorem storedWord_byte {cmd : Sparse Byte} (canonical : Sparse.wf 0 cmd = true) (off : Nat) (data : W32) {i : Nat}
    (inside : i < 4) : Sparse.get 0 (storedWord cmd off data) (off + i) = byteAt data i := by
  rw [storedWord_eq]
  have w0 := Sparse.wf_set 0 cmd off (byteAt data 0) canonical
  have w1 := Sparse.wf_set 0 _ (off + 1) (byteAt data 1) w0
  have w2 := Sparse.wf_set 0 _ (off + 2) (byteAt data 2) w1
  rw [Sparse.get_set _ _ _ _ _ w2, Sparse.get_set _ _ _ _ _ w1, Sparse.get_set _ _ _ _ _ w0, Sparse.get_set _ _ _ _ _ canonical]
  match i, inside with
  | 0, _ => simp
  | 1, _ => simp
  | 2, _ => simp
  | 3, _ => simp

theorem exec_wordWrite {p : Path} {off : Nat} {data : W32} (serves : s.Serves (wordWrite p off data)) (below : off < 0x10000)
    (aligned : off % 4 = 0) :
    exec (.registerWrite p (BitVec.ofNat 22 off) 4 true (data.setWidth 64)) s = .next (writeWord s p off data) := by
  refine congrArg Host.Outcome.next ((access_serves serves (wordWrite_admitted p off data (by omega) aligned)).trans ?_)
  exact (if_pos rfl).trans (performWrite_word (by omega) (opNone below) (by omega))

theorem commandAreaWritten : Claims.CommandAreaWritten := by
  intro p data s canonical idle b
  refine ⟨fun off aligned below serves => ?_, fun serves => ?_⟩
  · have run := exec_wordWrite serves (by omega) (by omega)
    have write : writeWord s p (0x1000 + off) data =
        s.setBox (pathMailbox p) { b with cmd := storedWord b.cmd off data } := by
      rw [mailWord (by omega) (by omega)]
      unfold writeBoxWord
      dsimp only
      rw [if_pos (by omega), show 0x1000 + off - 0x1000 = off by omega]
      exact modBox_fix _ _ _ (fold_stores _ _ _ idle)
    rw [write] at run
    obtain ⟨box, others, -, only, -⟩ := boxSet_set canonical (pathMailbox p) { b with cmd := storedWord b.cmd off data }
    refine ⟨_, run, fun area i inside => ?_, fun k outside => ?_, ?_, others, only⟩ <;> rw [box]
    · exact storedWord_byte area off data inside
    · exact storedWord_outside b.cmd off data outside
  · have run := exec_wordWrite serves (by decide) (by decide)
    have write : writeWord s p 0x1208 data = s.setBox (pathMailbox p) { b with seq := data.setWidth 16 } :=
      (mailWord (by decide) (by decide)).trans (modBox_fix _ (fun b => writeSeq b data) _ (if_neg (by simp [idle])))
    rw [write] at run
    obtain ⟨box, others, -, only, -⟩ := boxSet_set canonical (pathMailbox p) { b with seq := data.setWidth 16 }
    exact ⟨_, run, box, others, only⟩

/-! ## Accesses of no admitted form (R370) -/

/-- The access record of the FM's paths with an access of no admitted form (R375). -/
def refusedAccess (r : AccessRegs) (write : Bool) (offset : BitVec 22) : AccessRegs :=
  if r.valid then { r with size := true } else { r with size := true, valid := true, write := write, offset := offset }

theorem recordAccess_fm {a : RegAccess} (f : pathFm a.path = true) :
    recordAccess s a = s.setTen { s.ten with fmAccess := refusedAccess s.ten.fmAccess a.write a.offset } := by
  unfold recordAccess modAccess
  rw [pathFm_none f]
  rfl

/-- An access of no admitted form outside the completion addresses is recorded, and a read of it answers zeros. -/
theorem access_refused {a : RegAccess} (shown : s.presented a.path = true) (outOfReset : s.hm.inReset = none)
    (form : admitted a = false) (elsewhere : ¬ (0x100000 ≤ a.offset.toNat ∧ a.offset.toNat < 0x200000)) :
    access s a = if a.write then recordAccess s a else readZero (recordAccess s a) a := by
  unfold access refuseAccess
  rw [shown, outOfReset, form]
  cases write : a.write with
  | true =>
    simp only [Bool.not_true, Bool.false_eq_true, if_false, Option.isSome_none, if_true]
    exact if_neg fun h => elsewhere ⟨h.1, h.2.1⟩
  | false => simp

theorem accessRefused : Claims.AccessRefused := by
  intro p offset bytes full write data s canonical shown outOfReset f form elsewhere
  cases write with
  | true =>
    have refused := access_refused (a := ⟨p, offset, bytes, full, true, data, 0⟩) shown outOfReset form elsewhere
    rw [if_pos rfl, recordAccess_fm f] at refused
    exact ⟨_, congrArg Host.Outcome.next refused, rfl, (fun read => nomatch read), setTen_only _⟩
  | false =>
    have refused := access_refused (a := ⟨p, offset, bytes, full, false, 0, 0⟩) shown outOfReset form elsewhere
    rw [if_neg Bool.false_ne_true, recordAccess_fm f] at refused
    exact ⟨_, congrArg Host.Outcome.next refused, rfl, fun _ => rfl,
      ((setTen_only _).mono (by decide)).trans ((setBnd_only _).mono (by decide))⟩

/-! ## Reads that clear or latch -/

theorem mpuRegisterRead : Claims.MpuRegisterRead := by
  intro p u off s f unit below aligned half serves
  have run : exec (.registerRead p (BitVec.ofNat 22 (0x20000 + 0x400 * u + off)) 4 true) s = .next _ :=
    congrArg Host.Outcome.next (readMpu f unit below aligned half serves)
  refine ⟨_, run, rfl, rfl, fun other => ?_, fun count violated => ?_⟩
  · have stands : clearMpuWord s u off = s := if_neg (by omega)
    rw [stands]
    exact setBnd_only _
  · have clears : clearMpuWord s u off = s.setMpu u { s.mpu u with count := 0 } := if_pos ⟨count, violated⟩
    rw [clears]
    exact ⟨setMpu_mpu s u _ unit, ((setMpu_only s u _).mono (by decide)).trans ((setBnd_only _).mono (by decide))⟩

/-- The low word of the frame count, the same at every path, in whose read nothing clears. -/
theorem frameCountLo (s : State) (p : Path) : s.regValue p 0x10 = s.frameLo ∧ clearRead s p 0x10 = s := by
  cases p <;> exact ⟨rfl, rfl⟩

theorem read_frameCountLo {p : Path} (half : s.halfOf p = none) (serves : s.Serves (wordRead p 0x10)) :
    access s (wordRead p 0x10) = (latchFrame s p).setBnd { s.bnd with
      lastRead := bytesLE 4 s.frameLo.toNat, lastStatus := .successful } := by
  obtain ⟨value, clear⟩ := frameCountLo s p
  have read := readOne (p := p) (off := 0x10) (by decide) half rfl rfl
    (fun u only => (halfOf_congr (only .bnd (by decide))).trans half) (clear.symm ▸ .refl _ _) (fun _ _ => rfl)
  rw [clear, value] at read
  refine (access_serves serves (wordRead_admitted p 0x10 (by decide) (by decide))).trans
    ((if_neg Bool.false_ne_true).trans (read.trans ?_))
  dsimp only
  rw [if_pos (.inl rfl)]
  cases p <;> rfl

theorem frameCountLatched : Claims.FrameCountLatched := by
  intro p s canonical half serves hi
  have run : exec (.frameCountLoRead p) s = .next _ := congrArg Host.Outcome.next (read_frameCountLo half serves)
  refine ⟨_, run, rfl, ?_⟩
  cases p with
  | tenant n =>
    have record := modTenant_self canonical.recs n fun r => { r with frameLatch := hi }
    exact ⟨congrArg TenantRec.frameLatch record, record,
      fun k other => modTenant_ne n k (fun r => { r with frameLatch := hi }) other,
      ((modTenant_only _ _).mono (by decide)).trans ((setBnd_only _).mono (by decide))⟩
  | manager => exact ⟨rfl, rfl, ((setFrame_only _).mono (by decide)).trans ((setBnd_only _).mono (by decide))⟩
  | smbus => exact ⟨rfl, rfl, ((setFrame_only _).mono (by decide)).trans ((setBnd_only _).mono (by decide))⟩

/-- Settles O51: a write stores its bytes, a refused access leaves its record, and a read answers before it clears or
latches. -/
theorem registerAccesses : Obligations.RegisterAccesses :=
  ⟨commandAreaWritten, accessRefused, mpuRegisterRead, frameCountLatched⟩

end Sys2Proof.Machine
end

section
/-! Restarts of an agent and of the whole firmware, and their end (R194, R230, R239, R243). -/
namespace Sys2Proof.Machine

variable {s : State} {m : BitVec 7}

/-! ## Restarts -/

/-- A restart overtakes a command that is not applied with the answer BUSY_RESTART. -/
theorem overtakeBox_run (canonical : CanonicalMbx s.mbx) (running : (s.box m).work = .run) :
    (overtakeBox s m).box m = { s.box m with restarting := true, work := .done (refuse stBusyRestart 0xFF) } := by
  have marked := modBox_self canonical m fun b => { b with restarting := true }
  have canonical' : CanonicalMbx (s.modBox m fun b => { b with restarting := true }).mbx :=
    ⟨Sparse.wf_set _ _ _ _ canonical.boxes⟩
  unfold overtakeBox
  generalize (s.modBox m fun b => { b with restarting := true }) = u at marked canonical'
  simp only [marked, running]
  exact State.setBox_box_self _ _ _ canonical'.boxes

theorem exec_agentRestart {n : Tenant} (kernel : s.kernelRuns = true) (going : (s.box (n.setWidth 7)).restarting = false)
    (taken : (s.box (n.setWidth 7)).snap ≠ none) :
    exec (.agentRestart n none) s = .next (restartAgent (chargeFault s n 0x08 0) n) :=
  congrArg Host.Outcome.next (if_neg (by simp [kernel, going, taken]))

theorem exec_firmwareRestart (kernel : s.kernelRuns = true) :
    exec (.firmwareRestart none) s = .next (restartFirmware s) :=
  congrArg Host.Outcome.next (if_neg (by simp [kernel]))

/-- An access that the controller does not make, or that MPU-C allows, at most leaves user mode. -/
theorem exec_firmwareRestart_allowed (kernel : s.kernelRuns = true) {x : CoreAccess}
    (allowed : coreAccessOk x = false ∨ (checkController (enterKernel s) x).2.1 = true) :
    ∃ t, exec (.firmwareRestart (some x)) s = .next t ∧ (t = s ∨ t = enterKernel s) := by
  refine ⟨_, congrArg Host.Outcome.next (if_neg (by simp [kernel])), ?_⟩
  dsimp only
  split
  next made =>
    have passes : (checkController (enterKernel s) x).2.1 = true := allowed.resolve_left (by simp [made])
    rw [if_pos passes]
    exact .inr (checkC _ _ passes)
  next => exact .inl rfl

/-- The restart of one agent is that of its mailbox, with the agent gone and S:0x26A raised. -/
theorem restartAgent_effect (s : State) (n : Tenant) :
    (restartAgent s n).mbx = (overtakeBox s (n.setWidth 7)).mbx ∧
      OnlyChanges [.mbx, .acu, .sys, .pwr] s (restartAgent s n) := by
  have overtaken := overtakeBox_only s (n.setWidth 7)
  have left := leaveAgent_only (overtakeBox s (n.setWidth 7)) n
  have raised := raiseSource_only (leaveAgent (overtakeBox s (n.setWidth 7)) n) 0x26A
  exact ⟨(raised .mbx (by decide)).trans (left .mbx (by decide)),
    (overtaken.mono (by decide)).trans ((left.mono (by decide)).trans (raised.mono (by decide)))⟩

theorem firmwareRestarts : Claims.FirmwareRestarts := by
  intro s coherent kernel
  refine ⟨fun n going taken running => ?_, ?_, fun x allowed => ?_⟩
  · have run := exec_agentRestart kernel going taken
    have charged := chargeFault_only s n 0x08 0
    have record := chargeFault_tenant coherent.tenCanonical.recs n 0x08 0
    obtain ⟨count, summary⟩ := faulted_fields (s.tenant n) 0x08 0 s.frameLo
    have other (k : Tenant) (h : k ≠ n) := chargeFault_tenant_ne (s := s) n k 0x08 0 h
    generalize chargeFault s n 0x08 0 = u at run charged record other
    have mbx : u.mbx = s.mbx := charged .mbx (by decide)
    have canonical : CanonicalMbx u.mbx := mbx ▸ coherent.mbxCanonical
    obtain ⟨restarted, only⟩ := restartAgent_effect u n
    obtain ⟨-, boxes, -, -⟩ := overtakeBox_restarting canonical (n.setWidth 7)
    refine ⟨_, run, ?_, fun k h => ?_, ?_, ?_, fun k h => ?_, (charged.mono (by decide)).trans (only.mono (by decide))⟩
    · rw [box_congr restarted, overtakeBox_run canonical (box_congr mbx _ ▸ running), box_congr mbx]
    · rw [box_congr restarted, boxes k h, box_congr mbx]
    · rw [tenant_congr (only .ten (by decide)), record, count]
    · rw [tenant_congr (only .ten (by decide)), record, summary, BitVec.getLsbD_or]
      simp [faultBit]
    · rw [tenant_congr (only .ten (by decide)), other k h]
  · obtain ⟨fw, only⟩ := restartFirmware_fw s
    obtain ⟨boxes, user, current, arrival, -⟩ := restartFirmware_effect coherent.mbxCanonical coherent.sysCanonical
    exact ⟨_, exec_firmwareRestart kernel, fw, boxes, user, current, arrival, only⟩
  · obtain ⟨t, run, rfl | rfl⟩ := exec_firmwareRestart_allowed kernel allowed
    · exact ⟨_, run, rfl, .refl _ _⟩
    · exact ⟨_, run, rfl, setAcu_only _⟩

/-! ## The end of a restart -/

theorem chargeMailbox_only (s : State) (m : BitVec 7) (c : Snap) (status : Byte) :
    OnlyChanges [.ten, .tgt, .sys, .pwr] s (chargeMailbox s m c status) := by
  unfold chargeMailbox
  split
  · exact .ite (chargeFault_only _ _ _ _) (.refl _ _)
  · exact .refl _ _

/-- What follows a deposited reply, the charge and the notice, is outside the mailboxes. -/
theorem replyNoted_only (s : State) (m : BitVec 7) (c : Snap) (status : Byte) :
    OnlyChanges [.ten, .tgt, .sys, .pwr] s (replyNotice (chargeMailbox s m c status) m) :=
  (chargeMailbox_only s m c status).trans ((replyNotice_only _ m).mono (by decide))

/-- A deposit writes its mailbox, or nothing of any. -/
theorem deposit_effect (s : State) (m : BitVec 7) (r : Reply) :
    ((deposit s m r).mbx = s.mbx ∨ ∃ b, (deposit s m r).mbx = (s.setBox m b).mbx) ∧
      OnlyChanges [.mbx, .acu, .ten, .tgt, .sys, .pwr] s (deposit s m r) := by
  have left := leaveMailbox_only s m
  have mbx := left .mbx (by decide)
  have sets (b : Mailbox) : ((leaveMailbox s m).setBox m b).mbx = (s.setBox m b).mbx ∧
      OnlyChanges [.mbx, .acu, .ten, .tgt, .sys, .pwr] s ((leaveMailbox s m).setBox m b) :=
    ⟨by unfold State.setBox; rw [mbx], (left.mono (by decide)).trans ((setBox_only _ _).mono (by decide))⟩
  unfold deposit
  dsimp only
  split
  · exact ⟨.inl mbx, left.mono (by decide)⟩
  split
  · exact ⟨.inr ⟨_, (sets _).1⟩, (sets _).2⟩
  next c _ _ =>
    have told (b : Mailbox) := replyNoted_only ((leaveMailbox s m).setBox m b) m c r.status
    exact ⟨.inr ⟨_, (told _ .mbx (by decide)).trans (sets _).1⟩, (sets _).2.trans ((told _).mono (by decide))⟩

theorem depositDone_effect (s : State) (m : BitVec 7) :
    ((depositDone s m).mbx = s.mbx ∨ ∃ b, (depositDone s m).mbx = (s.setBox m b).mbx) ∧
      OnlyChanges [.mbx, .acu, .ten, .tgt, .sys, .pwr] s (depositDone s m) := by
  unfold depositDone
  split
  · exact deposit_effect s m _
  all_goals exact ⟨.inl rfl, .refl _ _⟩

theorem depositDone_fw (s : State) (m : BitVec 7) : (depositDone s m).mbx.fw = s.mbx.fw := by
  obtain ⟨same | ⟨b, set⟩, -⟩ := depositDone_effect s m
  · rw [same]
  · rw [set]; rfl

theorem depositDone_box_ne (s : State) {m k : BitVec 7} (other : k ≠ m) : (depositDone s m).box k = s.box k := by
  obtain ⟨same | ⟨b, set⟩, -⟩ := depositDone_effect s m
  · exact box_congr same k
  · rw [box_congr set, State.setBox_box_ne _ _ _ _ other]

theorem depositAll_fw (l : List (BitVec 7)) (s : State) : (l.foldl depositDone s).mbx.fw = s.mbx.fw := by
  induction l generalizing s with
  | nil => rfl
  | cons m l ih => rw [List.foldl_cons, ih, depositDone_fw]

/-- The firmware with which a restart ends, and the image that runs (R194, R230). -/
def runningFw (fw : FwUnit) : FwUnit :=
  { fw with
    restart := false, loads := false, alive := true, ran := true, hasRun := true, ifRev := 3, previous := none
    activate := false, fellBack := false, version := (fw.image fw.runSlot).getD fw.version }

/-- The state in which the firmware runs again: no mailbox restarts, and MPU-C has the kernel's regions. -/
def reopened (u : State) : State :=
  let v := (u.setMbx { u.mbx with boxes := Sparse.mapVals {} (fun _ b => { b with restarting := false }) u.mbx.boxes }).setFw
    (runningFw u.mbx.fw)
  v.setMpu 0 { loadKernelRegions (v.mpu 0) with enable := true }

theorem firmwareRuns_unasked {u : State} (deposited : allBoxes.foldl depositDone s = u) (unasked : u.mbx.fw.activate = false) :
    firmwareRuns s = raiseSource (reopened u) 0x26B := by
  unfold firmwareRuns
  dsimp only
  rw [deposited, if_neg (by simp [unasked])]
  rfl

theorem reopened_box {u : State} (canonical : CanonicalMbx u.mbx) (k : BitVec 7) :
    (reopened u).box k = { u.box k with restarting := false } :=
  Sparse.get_mapVals _ _ _ rfl _ none canonical.boxes

theorem reopened_only (u : State) : OnlyChanges [.mbx, .acu] u (reopened u) :=
  ((setMbx_only _).mono (by decide)).trans (((setMbx_only _).mono (by decide)).trans ((setAcu_only _).mono (by decide)))

theorem exec_restartComplete_all (engine : s.engineReady = true) (restart : s.mbx.fw.restart = true) :
    exec (.restartComplete none) s = .next (firmwareRuns s) :=
  congrArg Host.Outcome.next ((if_neg (by simp [engine])).trans (if_pos restart))

theorem exec_restartComplete_one {n : Tenant} (engine : s.engineReady = true) (whole : s.mbx.fw.restart = false)
    (restarting : (s.box (n.setWidth 7)).restarting = true) : exec (.restartComplete (some n)) s =
      .next (raiseSource ((depositDone s (n.setWidth 7)).modBox (n.setWidth 7) fun b => { b with restarting := false }) 0x26B) :=
  congrArg Host.Outcome.next ((if_neg (by simp [engine])).trans (if_neg (by simp [whole, restarting])))

/-- The restart of an agent ends for its mailbox alone, and raises S:0x26B. -/
theorem agentRuns_effect (canonical : CanonicalMbx s.mbx) (latches : CanonicalSys s.sys) (m : BitVec 7) :
    let t := raiseSource (s.modBox m fun b => { b with restarting := false }) 0x26B
    t.box m = { s.box m with restarting := false } ∧ (∀ k, k ≠ m → t.box k = s.box k) ∧ t.mbx.fw = s.mbx.fw ∧
      (s.isOn dCORE = true → (t.latch 0x26B).arrival = true) ∧ OnlyChanges [.mbx, .sys, .pwr] s t := by
  have raised := raiseSource_only (s.modBox m fun b => { b with restarting := false }) 0x26B
  have mbx := raised .mbx (by decide)
  refine ⟨(box_congr mbx m).trans (modBox_self canonical m _), fun k other => (box_congr mbx k).trans (modBox_ne m k _ other),
    by rw [mbx]; rfl, fun on => ?_, ((modBox_only m _).mono (by decide)).trans (raised.mono (by decide))⟩
  exact (raiseSource_effect (s := s.modBox m fun b => { b with restarting := false }) latches (by decide) on).1

theorem restartCompletes : Claims.RestartCompletes := by
  intro s coherent engine
  have kept : Kept s.pending s := ⟨coherent, rfl⟩
  refine ⟨fun restart unasked => ?_, fun n whole restarting => ?_⟩
  · have run := exec_restartComplete_all engine restart
    have fw : (allBoxes.foldl depositDone s).mbx.fw = s.mbx.fw := depositAll_fw allBoxes s
    have coherent' : Kept s.pending (allBoxes.foldl depositDone s) := kept_foldl _ _ _ (fun s m => depositDone_keeps s m) kept
    generalize deposited : allBoxes.foldl depositDone s = u at fw coherent'
    rw [firmwareRuns_unasked deposited (fw ▸ unasked)] at run
    have opened := reopened_only u
    have raised := raiseSource_only (reopened u) 0x26B
    have mbx : (raiseSource (reopened u) 0x26B).mbx = (reopened u).mbx := raised .mbx (by decide)
    have acu : (raiseSource (reopened u) 0x26B).acu = (reopened u).acu := raised .acu (by decide)
    refine ⟨_, run, by rw [mbx]; rfl, by rw [mbx]; rfl, ?_, fun k => ?_, by rw [acu]; rfl, fun on => ?_,
      (opened.mono (by decide)).trans (raised.mono (by decide))⟩
    · rw [mbx, ← fw]; rfl
    · rw [box_congr mbx, reopened_box coherent'.mbxCanonical]
    · exact (raiseSource_effect (s := reopened u) coherent'.sysCanonical (by decide) on).1
  · have run := exec_restartComplete_one engine whole restarting
    have fw := depositDone_fw s (n.setWidth 7)
    have beside (k : BitVec 7) (other : k ≠ n.setWidth 7) := depositDone_box_ne s other
    have only := (depositDone_effect s (n.setWidth 7)).2
    have kept' := depositDone_keeps s (n.setWidth 7) kept
    dsimp only
    generalize depositDone s (n.setWidth 7) = u at run fw beside only kept'
    obtain ⟨box, others, fw', arrival, ended⟩ := agentRuns_effect kept'.mbxCanonical kept'.sysCanonical (n.setWidth 7)
    exact ⟨_, run, box, fun k other => (others k other).trans (beside k other), fw'.trans fw, arrival, ended,
      (only.mono (by decide)).trans (ended.mono (by decide))⟩

/-- Settles O56: a restart overtakes the mailboxes it names, and its end opens them again. -/
theorem firmwareRestart : Obligations.FirmwareRestart := ⟨firmwareRestarts, restartCompletes⟩

end Sys2Proof.Machine
end

section
/-! The mailbox commands that only read: each answers with values that stand (R205, R213, R219 to R221, R224, R227, R228). -/
namespace Sys2Proof.Machine
open Sys2Proof

variable {s : State} {m : BitVec 7} {c : Snap} {n : Tenant}

/-! ## Registers, counters and records -/

theorem exec_getInfo (holds : s.Holds m 0x01 c) (on : s.isOn dCORE = true) :
    exec (.getInfo m) s = .next (finish s m (okReply (infoPayload s m))) :=
  congrArg Host.Outcome.next (runTaken_holds holds rfl (allOn_one on))

theorem exec_faultRead (holds : s.Holds m 0x30 c) (on : s.isOn dCORE = true)
    (who : checkTenant m (snapField c 0x08 1) 0x08 = .ok n) (running : s.resetting n = false) :
    exec (.faultRead m) s = .next (finish s m (okReply (faultPayload (s.tenant n)))) := by
  have run : exec (.faultRead m) s = .next (faultCommand s m c false) :=
    congrArg Host.Outcome.next (runTaken_holds holds rfl (allOn_one on))
  rw [run]
  unfold faultCommand
  simp only [who, running, Bool.false_eq_true, if_false]

theorem exec_statsRead (holds : s.Holds m 0x32 c) (up : s.coreUp = true) :
    exec (.statsRead m) s = .next (statsRead s m c) :=
  congrArg Host.Outcome.next (runTaken_holds holds rfl (allOn_coreTgt up))

theorem statsRead_tenant (set : snapField c 0x09 1 = 0) (who : checkTenant m (snapField c 0x08 1) 0x08 = .ok n)
    (running : s.resetting n = false) : statsRead s m c = finish s m (statsReply (tenantStats s n)) := by
  unfold statsRead
  simp only [set, who, running, Nat.not_lt_zero, Nat.zero_ne_one, Bool.false_eq_true, if_false]

theorem statsRead_chip (manager : mbTenant m = none) (set : snapField c 0x09 1 = 1) (whole : snapField c 0x08 1 = 0) :
    statsRead s m c = finish s m (statsReply (chipStats s)) := by
  unfold statsRead
  simp [set, whole, manager]

theorem exec_timeRead (holds : s.Holds m 0x33 c) (on : s.isOn dCORE = true) :
    exec (.timeRead m) s = .next (finish s m (okReply (timePayload s))) :=
  congrArg Host.Outcome.next (runTaken_holds holds rfl (allOn_one on))

/-- MPU_CONFIG with OP 0 answers with the region that it names (R224). -/
theorem exec_mpuConfigRead (holds : s.Holds m 0x50 c) (reads : snapByte c 0x0A = 0) (unit : snapField c 0x08 1 ≤ 2)
    (region : snapField c 0x09 1 < regionCount (snapField c 0x08 1))
    (on : s.isOn (mpuDomain (snapField c 0x08 1)) = true) :
    exec (.mpuConfigRead m) s = .next (finish s m (mpuReply (snapField c 0x08 1) (snapField c 0x09 1)
      ((s.mpu (snapField c 0x08 1)).region (snapField c 0x09 1)))) := by
  have op : snapField c 0x0A 1 = 0 := by rw [snap1, reads]; rfl
  have run : exec (.mpuConfigRead m) s = .next (mpuConfig s m c) :=
    congrArg Host.Outcome.next (runTaken_holds holds (by rw [reads]; rfl) allOn_nil)
  rw [run]
  unfold mpuConfig
  dsimp only
  rw [if_neg (by omega), if_neg (by omega), if_neg (by omega), if_neg (by omega), if_pos op, withDomains_on (allOn_one on)]

theorem exec_repairStatus (holds : s.Holds m 0x60 c) (core : s.isOn dCORE = true) (east : s.isOn dCHE = true)
    (west : s.isOn dCHW = true) : exec (.repairStatus m) s = .next (finish s m (okReply (repairPayload s))) := by
  refine congrArg Host.Outcome.next (runTaken_holds holds rfl ?_)
  split
  · exact allOn_one core
  · simp [State.allOn, core, east, west]

theorem exec_hallmarkRead {r : HmRecord} (holds : s.Holds m 0x61 c) (kept : snapField c 0x08 1 ≤ 7)
    (record : s.hm.records[snapField c 0x08 1]? = some r) : exec (.hallmarkRead m) s =
      .next (finish s m (okReply ([1, BitVec.ofNat 8 s.hm.records.length, 0, 0] ++ recordBytes r))) := by
  have run : exec (.hallmarkRead m) s = .next (hallmarkRead s m c) :=
    congrArg Host.Outcome.next (runTaken_holds holds rfl allOn_nil)
  rw [run]
  unfold hallmarkRead
  simp only [record]
  rw [if_neg (by omega)]

theorem readCommandsOnlyReply : Claims.ReadCommandsOnlyReply := by
  intro m c s canonical replies
  have answers {i : Instr} {r : Reply} (run : exec i s = .next (finish s m r)) : replies i r := reply_only canonical run
  refine ⟨fun holds on => answers (exec_getInfo holds on),
    fun n holds on who running => answers (exec_faultRead holds on who running), ?_, ?_,
    fun holds on => answers (exec_timeRead holds on),
    fun holds reads unit region on => answers (exec_mpuConfigRead holds reads unit region on),
    fun holds core east west => answers (exec_repairStatus holds core east west),
    fun r holds kept record => answers (exec_hallmarkRead holds kept record)⟩
  · intro n holds up set who running
    exact answers ((exec_statsRead holds up).trans (congrArg _ (statsRead_tenant set who running)))
  · rintro rfl holds up set whole
    exact answers ((exec_statsRead holds up).trans (congrArg _ (statsRead_chip mbTenant_64 set whole)))

/-! ## VECTOR_READ -/

theorem first_mem_runSources (first : Src) (count : Nat) : first ∈ runSources first count :=
  List.mem_map.mpr ⟨0, List.mem_range.mpr (by omega), by simp⟩

theorem last_mem_runSources (first : Src) (count : Nat) :
    (runSources first count).getLastD first ∈ runSources first count := by
  rcases List.mem_cons.mp (List.getLastD_mem_cons (l := runSources first count) (a := first)) with same | mem
  · rw [same]
    exact first_mem_runSources first count
  · exact mem

theorem runSources_take {first : Src} {count : Nat} (nonempty : 1 ≤ count) :
    (runSources first count).take count = runSources first count :=
  List.take_of_length_le (by simp [runSources, nonempty])

/-- VECTOR_READ past its checks reads every source of its run, and answers with what stands there (R213). -/
theorem vectorRead_passed (clean : s.Clean) :
    let first := snapSrc c 0x08
    let count := snapField c 0x0C 4
    let srcs := runSources first count
    1 ≤ count → count ≤ 20 → (∀ x ∈ srcs, HasWords x ∧ isSystem x = isSystem first) →
    (∀ n, mbTenant m = some n → ∀ x ∈ srcs, s.holder x = some n) →
    (∀ x ∈ srcs, s.holderResets x = false ∧ lostSource s x = false) → s.allOn (runDomains first count) = true →
    vectorRead s m c = finish s m (okReply (bytesLE 4 count ++ srcs.flatMap fun x =>
      bytesLE 8 (s.cfgOf x).toNat ++ bytesLE 4 (if cFwd (s.cfgOf x) then 0 else s.stOf x).toNat)) := by
  intro first count srcs nonempty few words held kept on
  obtain ⟨wordsFirst, -⟩ := words first (first_mem_runSources first count)
  obtain ⟨wordsLast, sameClass⟩ := words _ (last_mem_runSources first count)
  have named : ¬ (!isWordSource first || !isWordSource (srcs.getLastD first) ||
      isSystem first != isSystem (srcs.getLastD first)) = true := by
    rw [isWord_of wordsFirst, isWord_of wordsLast, sameClass, bne_self_eq_false]
    decide
  have owned : ¬ (match mbTenant m with
      | some t => srcs.any fun x => s.holder x != some t
      | none => false) = true := by
    cases who : mbTenant m with
    | none => simp
    | some n => simpa using held n who
  have running : ¬ srcs.any s.holderResets = true := by simpa using fun x h => (kept x h).1
  have stands : ¬ srcs.any (lostSource s) = true := by simpa using fun x h => (kept x h).2
  have steps : vectorRead s m c = finish ((srcs.take count).foldl readEntry (s, [])).1 m
      (okReply (bytesLE 4 count ++ ((srcs.take count).foldl readEntry (s, [])).2)) :=
    (if_neg (by omega)).trans ((if_neg named).trans ((if_neg owned).trans ((if_neg running).trans
      ((if_neg stands).trans (withDomains_on on _)))))
  rw [steps, runSources_take nonempty, readEntries clean _ _ fun x h => (words x h).1, List.nil_append]

theorem vectorReadReplies : Claims.VectorReadReplies := by
  intro m c s canonical clean holds up first count srcs nonempty few words held kept on
  have run : exec (.vectorRead m) s = .next (vectorRead s m c) :=
    congrArg Host.Outcome.next (runTaken_holds holds rfl (allOn_core up))
  exact reply_only canonical (run.trans (congrArg _ (vectorRead_passed clean nonempty few words held kept on)))

/-- Settles O29: each command, past its checks, only leaves its reply. -/
theorem readCommands : Obligations.ReadCommands := ⟨readCommandsOnlyReply, vectorReadReplies⟩

end Sys2Proof.Machine
end

section
/-! CLASP_SET and WATCH_SET: a Clasp word, the watch list and the WATCHED bit of a source (R94, R154, R172, R215, R216). -/
namespace Sys2Proof.Machine
open Sys2Proof

variable {s : State} {m : BitVec 7} {c : Snap}

/-! ## CLASP_SET -/

/-- A Clasp word after the changes asked for, the assignment before the INTERVAL (R154, R172). -/
theorem claspWord_asked (w : ClaspWord) (assign : BitVec 7) (interval : BitVec 16) (assigns sets : Bool) :
    claspWord w (if assigns then some assign else none) (if sets then some interval else none) =
      let w₁ : ClaspWord := if assigns = true ∧ assign ≠ w.assign then ⟨assign, 0, 0⟩ else w
      if sets then ⟨w₁.assign, interval, if w₁.remaining.toNat < interval.toNat then w₁.remaining else interval⟩
      else w₁ := by
  unfold claspWord
  cases assigns <;> cases sets <;> simp

/-- The reply of CLASP_SET: the word of the group as it then stands (R215). -/
def claspReply (w : ClaspWord) : Reply :=
  okReply (bytesLE 1 w.assign.toNat ++ [0] ++ bytesLE 2 w.interval.toNat ++ bytesLE 2 w.remaining.toNat ++ [0, 0])

/-- CLASP_SET past its checks writes the word of its group alone. -/
theorem claspSet_passed (clean : s.Clean) :
    let grp : BitVec 12 := BitVec.ofNat 12 (snapField c 0x08 2)
    let flags := snapByte c 0x0A
    let assign := snapByte c 0x0B
    let w := claspWord (s.clasp grp) (if flags.getLsbD 1 then some (assign.setWidth 7) else none)
      (if flags.getLsbD 0 then some (BitVec.ofNat 16 (snapField c 0x0C 2)) else none)
    snapField c 0x08 2 < 4096 →
    (flags.getLsbD 1 = true → mbTenant m = none ∧ assign.toNat ≤ 0x41 ∧
      (assign.toNat < 64 → (s.tenant (assign.setWidth 6)).bound = true ∧ s.resetting (assign.setWidth 6) = false)) →
    (∀ n, mbTenant m = some n → (s.clasp grp).assign = n.setWidth 7) →
    (∀ n, tagTenant (s.clasp grp).assign = some n → s.resetting n = false) →
    claspSet s m c = finish (s.setClasp grp w) m (claspReply w) := by
  intro grp flags assign w small assigns own running
  have reads : (if snapField c 0x08 2 < 4096 then readLine 0 false s (claspLine (snapField c 0x08 2)) else s) = s := by
    rw [readLine_clean clean, ite_self]
  have owned : ¬ (match mbTenant m with
      | some t => (s.clasp grp).assign != t.setWidth 7
      | none => false) = true := by
    cases who : mbTenant m with
    | none => simp
    | some n => simp [own n who]
  have serves : ¬ (match tagTenant (s.clasp grp).assign with
      | some t => s.resetting t
      | none => false) = true := by
    cases who : tagTenant (s.clasp grp).assign with
    | none => simp
    | some n => simp [running n who]
  have spared (p : Bool) (free : flags.getLsbD 1 = true → p = false) : ¬ (flags.getLsbD 1 && p) = true := fun both => by
    obtain ⟨set, refused⟩ := Bool.and_eq_true_iff.mp both
    exact absurd refused (ne_true_of_eq_false (free set))
  have sparedTenant (p : Bool) (free : flags.getLsbD 1 = true → assign.toNat < 64 → p = false) :
      ¬ (flags.getLsbD 1 && decide (assign.toNat < 64) && p) = true := fun all => by
    obtain ⟨named, refused⟩ := Bool.and_eq_true_iff.mp all
    obtain ⟨set, tenant⟩ := Bool.and_eq_true_iff.mp named
    exact absurd refused (ne_true_of_eq_false (free set (of_decide_eq_true tenant)))
  have manager : ¬ (flags.getLsbD 1 && (mbTenant m).isSome) = true := spared _ fun set => by
    rw [(assigns set).1]
    rfl
  have legal : ¬ (flags.getLsbD 1 && decide (0x41 < assign.toNat)) = true :=
    spared _ fun set => decide_eq_false (Nat.not_lt.mpr (assigns set).2.1)
  have bound : ¬ (flags.getLsbD 1 && decide (assign.toNat < 64) && !(s.tenant (assign.setWidth 6)).bound) = true :=
    sparedTenant _ fun set tenant => by rw [((assigns set).2.2 tenant).1, Bool.not_true]
  have named : ¬ (flags.getLsbD 1 && decide (assign.toNat < 64) && s.resetting (assign.setWidth 6)) = true :=
    sparedTenant _ fun set tenant => ((assigns set).2.2 tenant).2
  unfold claspSet
  dsimp only
  rw [reads, touchClasp_clean clean, if_neg (by omega)]
  exact (if_neg manager).trans ((if_neg legal).trans ((if_neg bound).trans ((if_neg named).trans
    ((if_neg owned).trans (if_neg serves)))))

theorem claspGroupSet : Claims.ClaspGroupSet := by
  intro m c s coherent clean holds up grp flags assign interval w w₁ w₂ small assigns own running sets
  have word : claspWord w (if flags.getLsbD 1 then some (assign.setWidth 7) else none)
      (if flags.getLsbD 0 then some interval else none) = w₂ := claspWord_asked _ _ _ _ _
  have passed : claspSet s m c = finish (s.setClasp grp w₂) m (claspReply w₂) :=
    word ▸ claspSet_passed clean small assigns own running
  have answers {i : Instr} (run : exec i s = .next (claspSet s m c)) : sets i :=
    ⟨_, run.trans (congrArg _ passed), State.setClasp_clasp_self _ _ _ coherent.tenCanonical.clasp,
      fun g other => State.setClasp_clasp_ne _ _ _ _ other, rfl, finish_answered coherent.mbxCanonical rfl m _,
      ((setClasp_only _ _).mono (by decide)).trans ((finish_only _ _).mono (by decide))⟩
  have on := allOn_coreTgt up
  exact ⟨fun mixed => answers (congrArg Host.Outcome.next (runTaken_holds holds (by simpa using mixed) on)),
    fun set => answers (congrArg Host.Outcome.next (runTaken_holds holds set on))⟩

/-! ## WATCH_SET -/

/-- The watch list after a source is put at its end, or taken out (R94). -/
def watchedAs (l : List Src) (x : Src) (on : Bool) : List Src := if on then l.filter (· != x) ++ [x] else l.filter (· != x)

theorem setWatched_clean (clean : s.Clean) (x : Src) (on : Bool) : setWatched s x on =
    (s.putCfg x (putBit (s.cfgOf x) 59 on)).setPwr { s.pwr with watch := watchedAs s.pwr.watch x on } := by
  unfold setWatched
  dsimp only
  rw [writeCfg_clean clean, putCfg_only s _ _ .pwr (by decide)]
  rfl

/-- A source's place on the watch list and its bit WATCHED are written together, and nothing else (R94). -/
theorem setWatched_effect (coherent : Coherent s) (clean : s.Clean) {x : Src} (words : HasWords x) (on : Bool) :
    let t := setWatched s x on
    t.pwr = { s.pwr with watch := watchedAs s.pwr.watch x on } ∧ t.cfgOf x = putBit (s.cfgOf x) 59 on ∧
      (∀ y, y ≠ x → t.cfgOf y = s.cfgOf y) ∧ (∀ y, t.stOf y = s.stOf y) ∧ OnlyChanges [.vec, .pwr] s t := by
  intro t
  have eq : t = _ := setWatched_clean clean x on
  rw [eq]
  exact ⟨rfl, putCfg_cfgOf_self coherent.vecCanonical words _, fun y other => putCfg_cfgOf_ne other _,
    fun y => putCfg_stOf x y _, ((putCfg_only _ _ _).mono (by decide)).trans ((setPwr_only _).mono (by decide))⟩

/-- The reply of WATCH_SET: the length of the list, and the source's WATCHED (R216). -/
def watchReply (t : State) (x : Src) : Reply :=
  okReply (bytesLE 2 t.pwr.watch.length ++ [bit 8 (cWatched (t.cfgOf x)), 0])

/-- WATCH_SET past its checks changes the list only where the source's place is not yet the one asked for. -/
theorem watchSet_passed (clean : s.Clean) (op : Bool) :
    let x := snapSrc c 0x08
    let listed := s.pwr.watch.contains x
    let t := if listed = op then s else setWatched s x op
    HasWords x → (∀ v, srcClass x = .message v → s.holder x ≠ none) → s.holderResets x = false →
    s.allOn (wordDomains x) = true → cFwd (s.cfgOf x) = false → lostSource s x = false →
    snapByte c 0x0C = (if op then 1 else 0) → (op = true → listed = false → s.pwr.watch.length < 256) →
    watchSet s m c = finish t m (watchReply t x) := by
  intro x listed t words held running on plain kept asked room
  have known : (match srcClass x with
      | .system _ => true
      | .message _ => (s.holder x).isSome
      | _ => false) = true := by
    rcases words with ⟨v, message⟩ | ⟨v, system⟩
    · simpa [message, Option.isSome_iff_ne_none] using held v message
    · rw [system]
  have code : snapField c 0x0C 1 = if op then 1 else 0 := by
    rw [snap1, asked]
    cases op <;> rfl
  have asks : (snapField c 0x0C 1 == 1) = op := by
    rw [code]
    cases op <;> rfl
  have sorted : ¬ (!(match srcClass x with
      | .system _ => true
      | .message _ => (s.holder x).isSome
      | _ => false)) = true := by simp [known]
  have fits : ¬ (snapField c 0x0C 1 = 1 ∧ ¬ listed = true ∧ 256 ≤ s.pwr.watch.length) := by
    rintro ⟨one, unlisted, full⟩
    have short := room (asks ▸ beq_iff_eq.mpr one) (by simpa using unlisted)
    omega
  have legal : ¬ 1 < snapField c 0x0C 1 := by
    rw [code]
    cases op <;> decide
  unfold watchSet
  dsimp only
  rw [readCfg_clean clean, asks]
  exact (if_neg sorted).trans ((if_neg (ne_true_of_eq_false running)).trans ((if_neg legal).trans ((withDomains_on on _).trans
    ((if_neg (ne_true_of_eq_false plain)).trans ((if_neg (ne_true_of_eq_false kept)).trans (if_neg fits))))))

theorem watchListChanged : Claims.WatchListChanged := by
  intro m c s coherent clean holds up x words held running on plain kept listed
  have canonical := coherent.mbxCanonical
  have passed (op : Bool) := watchSet_passed (m := m) clean op words held running on plain kept
  have adds (op : snapByte c 0x0C = 1) : exec (.watchAdd m) s = .next (watchSet s m c) :=
    congrArg Host.Outcome.next (runTaken_holds holds (by rw [op]; rfl) (allOn_core up))
  have removes (op : snapByte c 0x0C = 0) : exec (.watchRemove m) s = .next (watchSet s m c) :=
    congrArg Host.Outcome.next (runTaken_holds holds (by rw [op]; rfl) (allOn_core up))
  have stays {i : Instr} {op : Bool} (run : exec i s = .next (watchSet s m c))
      (asked : snapByte c 0x0C = if op then 1 else 0)
      (place : listed = op) : ∃ t, exec i s = .next t ∧ Answered m (watchReply s x) s t ∧ OnlyChanges [.mbx] s t := by
    have passed := passed op asked fun add unlisted => absurd (place.trans add) (ne_true_of_eq_false unlisted)
    rw [if_pos place] at passed
    exact reply_only canonical (run.trans (congrArg _ passed))
  have moves {i : Instr} {op : Bool} (run : exec i s = .next (watchSet s m c))
      (asked : snapByte c 0x0C = if op then 1 else 0)
      (place : listed ≠ op) (room : op = true → s.pwr.watch.length < 256) : ∃ t, exec i s = .next t ∧
        t.pwr = { s.pwr with watch := watchedAs s.pwr.watch x op } ∧ t.cfgOf x = putBit (s.cfgOf x) 59 op ∧
        (∀ y, y ≠ x → t.cfgOf y = s.cfgOf y) ∧ (∀ y, t.stOf y = s.stOf y) ∧ (t.box m).work ≠ .run ∧
        OnlyChanges [.vec, .pwr, .mbx] s t := by
    have passed := passed op asked fun add _ => room add
    rw [if_neg place] at passed
    obtain ⟨pwr, word, others, states, only⟩ := setWatched_effect coherent clean words op
    generalize setWatched s (snapSrc c 0x08) op = u at passed pwr word others states only
    obtain ⟨box, -⟩ := finish_answered canonical (only .mbx (by decide)) m (watchReply u x)
    refine ⟨_, run.trans (congrArg _ passed), pwr, word, others, states, ?_,
      (only.mono (by decide)).trans ((finish_only _ _).mono (by decide))⟩
    rw [box]
    exact Work.noConfusion
  exact ⟨fun op unlisted room => moves (op := true) (adds op) op (by simp [unlisted]) fun _ => room,
    fun op isListed => moves (op := false) (removes op) op (by simp [isListed]) (by simp),
    fun op isListed => stays (op := true) (adds op) op isListed,
    fun op unlisted => stays (op := false) (removes op) op unlisted⟩

/-- Settles O34: past their checks, CLASP_SET writes one Clasp word, and WATCH_SET moves its source on the watch list or
finds it where it is asked to be. -/
theorem claspAndWatch : Obligations.ClaspAndWatch := ⟨claspGroupSet, watchListChanged⟩

end Sys2Proof.Machine
end

section
/-! DOMAIN_POWER: the order recorded, and the transition that it begins (R222, R311, R313). -/
namespace Sys2Proof.Machine
open Sys2Proof

variable {s : State} {m : BitVec 7} {c : Snap} {d : Nat} {goal : PState}

/-! ## What an order begins -/

theorem not_mem_required (d : Nat) : d ∉ required d := by
  unfold required
  split
  next core => simp [core, dCORE, dTGT]
  split
  next => simp
  next core others =>
    obtain ⟨target, -⟩ := not_or.mp others
    simp [core, target]

/-- An order of ON begins the exit of a domain that is not ON and not kept OFF (R313). -/
theorem wakeOne_order_dom (canonical : CanonicalPwr s.pwr) (still : (s.dom d).trans = .none) (away : (s.dom d).state ≠ .on)
    (served : s.keptOff d = false) : (wakeOne .order s d).dom d = { s.dom d with
      trans := .exiting (s.dom d).state .regulator false, auto := false, lateSeen := false, logicSeen := false
      stuck := false } := by
  unfold wakeOne
  dsimp only
  rw [still]
  dsimp only
  rw [if_neg away, if_neg (by simp [served])]
  split <;> exact setDom_self canonical _ _

/-- The order of a domain that another one requires: the automatic wake of it, where it changes the domain (R312). -/
def orderOne (s : State) (n : Nat) : State :=
  let t := wakeOne .order s n
  if (s.dom n).trans = (t.dom n).trans then t else t.setDom n { t.dom n with auto := true }

theorem orderOn_eq (s : State) (d : Nat) : orderOn s d = wakeOne .order ((required d).foldl orderOne s) d := rfl

theorem orderOne_same (s : State) (n : Nat) : SameButWoken s (orderOne s n) := by
  unfold orderOne
  dsimp only
  split
  · exact wakeOne_same _ _ _
  · exact (wakeOne_same .order s n).trans rfl

theorem orderOne_keeps {queue : List Instr} (s : State) (n : Nat) (kept : Kept queue s) : Kept queue (orderOne s n) :=
  kept_ite (wakeOne_keeps _ _ _ kept) (State.setDom_keeps _ _ _ (wakeOne_keeps _ _ _ kept))

theorem orderOne_only (s : State) (n : Nat) : OnlyChanges [.pwr] s (orderOne s n) :=
  .ite (wakeOne_only _ _ _) ((wakeOne_only _ _ _).trans (setDom_only _ _))

/-- Whether a quarter is kept OFF does not change with a wake. -/
theorem keptOff_woken {t : State} (same : SameButWoken s t) (hm : t.hm = s.hm) (d : Nat) : t.keptOff d = s.keptOff d := by
  unfold State.keptOff
  rw [same, hm]

/-- The domains that R312 requires are ordered before the domain itself, whose record that leaves alone. -/
theorem orderOn_dom (coherent : Coherent s) (still : (s.dom d).trans = .none)
    (away : (s.dom d).state ≠ .on) (served : s.keptOff d = false) : (orderOn s d).dom d = { s.dom d with
      trans := .exiting (s.dom d).state .regulator false, auto := false, lateSeen := false, logicSeen := false
      stuck := false } := by
  have record : ((required d).foldl orderOne s).dom d = s.dom d := (orderOn_ne d (not_mem_required d)).2
  have same := SameButWoken.foldl _ orderOne_same (required d) s
  have only := OnlyChanges.foldl _ orderOne_only (required d) s
  have kept : Kept s.pending ((required d).foldl orderOne s) := kept_foldl _ _ _ orderOne_keeps ⟨coherent, rfl⟩
  rw [orderOn_eq]
  generalize (required d).foldl orderOne s = u at record same only kept
  rw [← record] at still away ⊢
  exact wakeOne_order_dom kept.pwrCanonical still away (keptOff_woken same (only .hm (by decide)) d ▸ served)

/-- The entry of CTRL takes nothing else out of service (R313). -/
theorem beginEntry_ctrl (s : State) (goal : PState) (auto : Bool) : beginEntry s dCTRL goal auto =
    s.setDom dCTRL { s.dom dCTRL with
      trans := .entering goal, ordered := goal, auto := auto, latched := none, lateSeen := false, logicSeen := false } := by
  have leaves : (if (s.dom dCTRL).state = .on then leaveOn s dCTRL else s) = s := ite_self s
  unfold beginEntry
  dsimp only
  rw [leaves]

/-- The FM's reply is deposited in its mailbox alone. -/
theorem deposit_manager {r : Reply} (manager : mbTenant m = none) (snap : (s.box m).snap = some c)
    (kept : (s.box m).discard = false) (whole : r.status ≠ stBusyRestart) :
    deposit s m r = s.setBox m (repliedBox (s.box m) c r) := by
  have box : leaveMailbox s m = s := by
    unfold leaveMailbox
    rw [manager]
  have charge (t : State) : chargeMailbox t m c r.status = t := by
    unfold chargeMailbox
    rw [manager]
  have notice (t : State) : replyNotice t m = t := by
    unfold replyNotice
    rw [manager]
  rw [deposit_replies snap kept whole, box, charge, notice]

/-! ## The command -/

/-- DOMAIN_POWER past its checks (R222). -/
theorem exec_domainPower (holds : s.Holds m 0x40 c) :
    let d := snapField c 0x08 1
    let goal := pstate (snapField c 0x09 1)
    let r := s.dom d
    let reply := okReply [pcode r.state, pcode goal, 0, 0]
    1 ≤ d → d ≤ 11 → snapField c 0x09 1 ≤ 2 → r.trans = .none → powerHeld s m d goal = false →
    orderBroken s d goal = false →
    exec (.domainPower m) s = .next (if goal = r.state ∨ s.keptOff d then finish s m reply
      else if goal = .on then finish (orderOn (s.setDom d { r with ordered := goal }) d) m reply
      else if d = dCTRL then beginEntry (deposit s m reply) d goal false
      else finish (beginEntry s d goal false) m reply) := by
  intro d goal r reply first last code still free lawful
  have run : exec (.domainPower m) s = .next (domainPower s m c) :=
    congrArg Host.Outcome.next (runTaken_holds holds rfl allOn_nil)
  exact run.trans (congrArg Host.Outcome.next ((if_neg (by omega)).trans ((if_neg (by omega)).trans
    ((if_neg fun moving => moving still).trans ((if_neg (ne_true_of_eq_false free)).trans (if_neg (ne_true_of_eq_false lawful)))))))

/-- An order of ON, recorded, begins the exit of its domain from the regulator phase. -/
theorem orderOn_answered (coherent : Coherent s) (m : BitVec 7) (r : Reply) (still : (s.dom d).trans = .none)
    (away : goal ≠ (s.dom d).state) (served : s.keptOff d = false) (on : goal = .on) :
    let t := finish (orderOn (s.setDom d { s.dom d with ordered := goal }) d) m r
    (t.dom d).state = (s.dom d).state ∧ (t.dom d).trans = .exiting (s.dom d).state .regulator false ∧
      (t.dom d).ordered = .on ∧ (t.dom d).auto = false ∧ (t.dom d).stuck = false ∧ Answered m r s t ∧
      OnlyChanges [.pwr, .mbx] s t := by
  subst on
  have ordered := setDom_self coherent.pwrCanonical d { s.dom d with ordered := .on }
  have coherent' := (State.setDom_keeps (queue := s.pending) s d { s.dom d with ordered := .on } ⟨coherent, rfl⟩).toCoherent
  have kept : (s.setDom d { s.dom d with ordered := .on }).keptOff d = false := served
  have only := setDom_only (s := s) d { s.dom d with ordered := .on }
  dsimp only
  generalize s.setDom d { s.dom d with ordered := .on } = u at ordered coherent' kept only
  have record := orderOn_dom coherent' (by rw [ordered]; exact still) (by rw [ordered]; exact away.symm) kept
  have begun : OnlyChanges [.pwr] s (orderOn u d) := only.trans (orderOn_only u d)
  rw [ordered] at record
  generalize orderOn u d = v at record begun
  have dom : (finish v m r).dom d = v.dom d := rfl
  rw [dom, record]
  exact ⟨rfl, rfl, rfl, rfl, rfl, finish_answered coherent.mbxCanonical (begun .mbx (by decide)) m r,
    (begun.mono (by decide)).trans ((finish_only m r).mono (by decide))⟩

/-- An order out of ON begins the entry of a domain other than CTRL, and the reply waits for its deposit. -/
theorem beginEntry_answered (coherent : Coherent s) (m : BitVec 7) (r : Reply) (d : Nat) (goal : PState) :
    let t := finish (beginEntry s d goal false) m r
    (t.dom d).trans = .entering goal ∧ (t.dom d).ordered = goal ∧ (t.dom d).auto = false ∧ (t.dom d).latched = none ∧
      (t.box m).work = .done r ∧
      (d ≠ dCHE → d ≠ dCHW → (t.dom d).state = (s.dom d).state ∧ (∀ k, k ≠ d → t.dom k = s.dom k) ∧ Answered m r s t ∧
        OnlyChanges [.pwr, .mbx, .bead] s t) := by
  have kept : Kept s.pending s := ⟨coherent, rfl⟩
  have kept' := beginEntry_keeps s d goal false kept
  obtain ⟨trans, ordered, auto, latched⟩ := beginEntry_dom kept d goal false
  have plain := beginEntry_plain coherent.pwrCanonical d goal false
  generalize beginEntry s d goal false = u at *
  refine ⟨trans, ordered, auto, latched, ?_, fun east west => ?_⟩
  · exact congrArg Mailbox.work (modBox_self kept'.mbxCanonical m fun b => { b with work := .done r })
  · obtain ⟨record, others, only⟩ := plain east west
    have state : (u.dom d).state = (s.dom d).state := by rw [record]
    exact ⟨state, others,
      finish_answered coherent.mbxCanonical (only .mbx (by decide)) m r,
      (only.mono (by decide)).trans ((finish_only m r).mono (by decide))⟩

/-- An order that sends CTRL to sleep is answered before the entry begins (R222). -/
theorem beginEntry_deposited (coherent : Coherent s) (manager : mbTenant m = none) (snap : (s.box m).snap = some c)
    (kept : (s.box m).discard = false) {r : Reply} (whole : r.status ≠ stBusyRestart) (ctrl : d = dCTRL) (goal : PState) :
    let t := beginEntry (deposit s m r) d goal false
    (t.dom d).state = (s.dom d).state ∧ (t.dom d).trans = .entering goal ∧ (∀ k, k ≠ d → t.dom k = s.dom k) ∧
      (t.box m).reply = replyArea c r ∧ (t.box m).ring = false ∧ OnlyChanges [.pwr, .mbx] s t := by
  intro t
  have box : (s.setBox m (repliedBox (s.box m) c r)).box m = repliedBox (s.box m) c r :=
    State.setBox_box_self _ _ _ coherent.mbxCanonical.boxes
  have only := setBox_only (s := s) m (repliedBox (s.box m) c r)
  have entered : t = _ := (congrArg (beginEntry · d goal false) (deposit_manager manager snap kept whole)).trans
    (ctrl ▸ beginEntry_ctrl _ _ _)
  rw [entered]
  generalize s.setBox m (repliedBox (s.box m) c r) = u at box only
  have pwr : u.pwr = s.pwr := only .pwr (by decide)
  have record := setDom_self (s := u) (pwr ▸ coherent.pwrCanonical) d { u.dom d with
    trans := .entering goal, ordered := goal, auto := false, latched := none, lateSeen := false, logicSeen := false }
  have held (v : DomainRec) : (u.setDom d v).box m = u.box m := rfl
  rw [record, held, box]
  have state : (u.dom d).state = (s.dom d).state := by rw [dom_congr pwr]
  refine ⟨state, rfl, fun k other => ?_, rfl, rfl,
    (only.mono (by decide)).trans ((setDom_only _ _).mono (by decide))⟩
  rw [setDom_ne _ _ _ other, dom_congr pwr]

/-- Settles O39: past its checks the command keeps still, begins an exit, begins an entry, or deposits its reply and begins
the entry of CTRL. -/
theorem domainOrdered : Obligations.DomainOrdered := by
  intro m c s coherent holds manager d goal r reply first last code still free lawful
  have run := exec_domainPower holds first last code still free lawful
  have moves (leaves : goal ≠ r.state) (served : s.keptOff d = false) : ¬ (goal = r.state ∨ s.keptOff d = true) :=
    not_or.mpr ⟨leaves, ne_true_of_eq_false served⟩
  refine ⟨fun stays => ?_, fun leaves served on => ?_, fun leaves served off other => ?_,
    fun leaves served off ctrl kept => ?_⟩
  · rw [if_pos stays] at run
    exact reply_only coherent.mbxCanonical run
  · rw [if_neg (moves leaves served), if_pos on] at run
    exact ⟨_, run, orderOn_answered coherent m reply still leaves served on⟩
  · rw [if_neg (moves leaves served), if_neg off, if_neg other] at run
    exact ⟨_, run, beginEntry_answered coherent m reply d goal⟩
  · rw [if_neg (moves leaves served), if_neg off, if_pos ctrl] at run
    exact ⟨_, run, beginEntry_deposited coherent manager holds.snap kept (show stOK ≠ stBusyRestart by decide) ctrl goal⟩

end Sys2Proof.Machine
end

section
/-! Firmware images: staged, activated, recorded for the next start, and abandoned (R229, R230, R365). -/
namespace Sys2Proof.Machine
open Sys2Proof

variable {s : State} {m : BitVec 7} {c : Snap}

theorem setFw_only (fw : FwUnit) : OnlyChanges [.mbx] s (s.setFw fw) := setMbx_only _

/-- A reply to a command whose effect on the mailboxes is on the firmware's record alone. -/
theorem finish_setFw (canonical : CanonicalMbx s.mbx) {t : State} {fw : FwUnit} (mbx : t.mbx = { s.mbx with fw := fw })
    (m : BitVec 7) (r : Reply) : (finish t m r).box m = { s.box m with work := .done r } ∧
      (∀ k, k ≠ m → (finish t m r).box k = s.box k) ∧ (finish t m r).mbx.fw = fw := by
  obtain ⟨box, others, same⟩ := finish_answered (s := s.setFw fw) (t := t) ⟨canonical.boxes⟩ mbx m r
  exact ⟨box, others, same⟩

/-! ## FW_STAGE -/

/-- The payload of FW_STAGE: the version found, and RESULT (R229). -/
def stagePayload (fate : ImageFate) : List Byte :=
  bytesLE 4 ((fateVersion fate).getD 0).toNat ++ [BitVec.ofNat 8 (fateCode fate), 0, 0, 0]

/-- The status of an FW_STAGE whose image fails a check (R229). -/
def stageStatus (s : State) (fate : ImageFate) : Byte :=
  if fateCode fate = 2 ∧ s.managerLink = false then stLinkDown else stBadField

/-- FW_STAGE once the slot is filled: S:0x26C for an image that fails a check, and the reply (R229). -/
def stageAnswered (s : State) (m : BitVec 7) (fate : ImageFate) : State :=
  match fate with
  | .staged _ => finish s m (okReply (stagePayload fate))
  | _ => finish (raiseSource s 0x26C) m ⟨stageStatus s fate, 0x08, stagePayload fate⟩

theorem stageAnswered_failed {fate : ImageFate} (failed : ∀ v, fate ≠ .staged v) : stageAnswered s m fate =
    finish (raiseSource s 0x26C) m ⟨stageStatus s fate, 0x08, stagePayload fate⟩ := by
  cases fate with
  | staged v => exact absurd rfl (failed v)
  | signatureBad | readFailed | formatBad => rfl

/-- FW_STAGE past its checks fills the slot that it names, with the image or with nothing. -/
theorem exec_fwStage (holds : s.Holds m 0x70 c) (fate : ImageFate) :
    let size := snapField c 0x10 4
    let slot := decide (snapField c 0x14 1 = 1)
    snapField c 0x08 8 % 4096 = 0 → size % 4096 = 0 → 4096 ≤ size → size ≤ 2097152 → snapField c 0x14 1 ≤ 1 →
    (s.mbx.fw.alive = true → slot ≠ s.mbx.fw.runSlot) →
    exec (.fwStage m fate) s = .next (stageAnswered (s.setFw (s.mbx.fw.setImage slot (fateVersion fate))) m fate) := by
  intro size slot aligned whole least most named idle
  have run : exec (.fwStage m fate) s = .next (fwStage s m c fate) :=
    congrArg Host.Outcome.next (runTaken_holds holds rfl allOn_nil)
  have free : ¬ (s.mbx.fw.alive = true ∧ slot = s.mbx.fw.runSlot) := fun busy => idle busy.1 busy.2
  have checked : fwStage s m c fate = stageAnswered (s.setFw (s.mbx.fw.setImage slot (fateVersion fate))) m fate := by
    unfold fwStage
    dsimp only
    rw [if_neg (by omega), if_neg (by omega), if_neg (by omega), if_neg free]
    cases fate with
    | staged v => rfl
    | signatureBad | formatBad => rfl
    | readFailed =>
      simp only [Bool.not_eq_true]
      rfl
  rw [run, checked]

theorem firmwareStaged : Claims.FirmwareStaged := by
  intro m c fate s coherent holds size slot aligned whole least most named idle payload replies
  have run := exec_fwStage holds fate aligned whole least most named idle
  have canonical := coherent.mbxCanonical
  generalize s.mbx.fw.setImage _ (fateVersion fate) = fw at run
  have filled := setFw_only (s := s) fw
  by_cases staged : ∃ v, fate = .staged v
  · obtain ⟨v, rfl⟩ := staged
    obtain ⟨box, others, same⟩ := finish_setFw canonical (t := s.setFw fw) rfl m (okReply (stagePayload (.staged v)))
    exact ⟨_, run, same, fun _ _ => ⟨⟨box, others⟩, filled.trans (finish_only _ _)⟩, fun none => absurd rfl (none v)⟩
  · have failed (v : W32) (kept : fate = .staged v) : False := staged ⟨v, kept⟩
    rw [stageAnswered_failed failed] at run
    have raised := raiseSource_only (s.setFw fw) 0x26C
    obtain ⟨box, others, same⟩ := finish_setFw canonical (raised .mbx (by decide)) m
      ⟨stageStatus s fate, 0x08, stagePayload fate⟩
    refine ⟨_, run, same, fun v kept => absurd kept (failed v), fun _ => ⟨⟨box, others⟩, fun on => ?_, ?_⟩⟩
    · exact (raiseSource_effect (s := s.setFw fw) coherent.sysCanonical (by decide) on).1
    · exact (filled.mono (by decide)).trans ((raised.mono (by decide)).trans ((finish_only _ _).mono (by decide)))

/-! ## FW_ACTIVATE -/

/-- FW_ACTIVATE of a valid image, either row of it. -/
theorem fwActivate_valid (named : snapField c 0x08 1 ≤ 1) :
    let slot := decide (snapField c 0x08 1 = 1)
    let only := (snapByte c 0x09).getLsbD 0
    let fw := s.mbx.fw
    (fw.image slot).isSome = true →
    (only = true → fwActivate s m c = finish (s.setFw { fw with nextSlot := some slot }) m (activateReply 2 fw)) ∧
    (only = false → s.hm.safeMin = true → fwActivate s m c = assertBlock (s.setFw { fw with nextSlot := some slot }) 4) ∧
    (only = false → s.hm.safeMin = false → fwActivate s m c =
      let t := restartFirmware (s.modBox m fun b => { b with work := .waiting })
      t.setFw { t.mbx.fw with activate := true, loads := true, fellBack := false, runSlot := slot }) := by
  intro slot only fw valid
  have held : ¬ (fw.image slot).isNone = true := by simpa using Option.isSome_iff_ne_none.mp valid
  have legal := Nat.not_lt.mpr named
  exact ⟨fun next => (if_neg legal).trans ((if_neg held).trans (if_pos next)),
    fun now safe => (if_neg legal).trans ((if_neg held).trans ((if_neg (ne_true_of_eq_false now)).trans (if_pos safe))),
    fun now normal => (if_neg legal).trans ((if_neg held).trans ((if_neg (ne_true_of_eq_false now)).trans
      (if_neg (ne_true_of_eq_false normal))))⟩

theorem exec_nextStartOnly (holds : s.Holds m 0x71 c) (next : (snapByte c 0x09).getLsbD 0 = true) :
    exec (.nextStartOnly m) s = .next (fwActivate s m c) :=
  congrArg Host.Outcome.next (runTaken_holds holds next allOn_nil)

theorem exec_fwActivate (holds : s.Holds m 0x71 c) (now : (snapByte c 0x09).getLsbD 0 = false) :
    exec (.fwActivate m) s = .next (fwActivate s m c) :=
  congrArg Host.Outcome.next (runTaken_holds holds (by rw [now]; rfl) allOn_nil)

/-- A restart for an image: every mailbox restarts, that of the FW_ACTIVATE waits for its end, and S:0x26A is raised
(R194, R230). -/
theorem activated_effect (coherent : Coherent s) (idle : (s.box m).load = none) (slot : Bool) :
    let u := restartFirmware (s.modBox m fun b => { b with work := .waiting })
    let t := u.setFw { u.mbx.fw with activate := true, loads := true, fellBack := false, runSlot := slot }
    t.mbx.fw = { s.mbx.fw with
      alive := false, restart := true, loads := true, activate := true, fellBack := false, runSlot := slot
      previous := some s.mbx.fw.runSlot } ∧
    (∀ k : BitVec 7, k.toNat ≤ 64 → (t.box k).restarting = true) ∧ (t.box m).work = .waiting ∧
    t.acu.user = false ∧ t.acu.current = 0x40 ∧ (s.isOn dCORE = true → (t.latch 0x26A).arrival = true) ∧
    OnlyChanges [.mbx, .acu, .sys, .pwr] s t := by
  have waits := modBox_only (s := s) m fun b => { b with work := .waiting }
  have box := modBox_self coherent.mbxCanonical m fun b => { b with work := .waiting }
  have canonical : CanonicalMbx (s.modBox m fun b => { b with work := .waiting }).mbx :=
    ⟨Sparse.wf_set _ _ _ _ coherent.mbxCanonical.boxes⟩
  have fw : (s.modBox m fun b => { b with work := .waiting }).mbx.fw = s.mbx.fw := rfl
  generalize (s.modBox m fun b => { b with work := .waiting }) = v at waits box canonical fw
  have latches : CanonicalSys v.sys := waits .sys (by decide) ▸ coherent.sysCanonical
  have core : v.isOn dCORE = s.isOn dCORE := isOn_congr (waits .pwr (by decide)) dCORE
  obtain ⟨restarted, only⟩ := restartFirmware_fw v
  obtain ⟨restarting, user, current, arrival, waiting⟩ := restartFirmware_effect canonical latches
  dsimp only
  generalize restartFirmware v = u at restarted only restarting user current arrival waiting
  rw [fw] at restarted
  refine ⟨?_, restarting, waiting m (by rw [box]; exact idle) (by rw [box]), user, current, core ▸ arrival,
    (waits.mono (by decide)).trans (only.trans ((setFw_only _).mono (by decide)))⟩
  rw [restarted]
  rfl

theorem firmwareActivated : Claims.FirmwareActivated := by
  intro c s coherent holds named slot only valid
  obtain ⟨records, resets, restarts⟩ := fwActivate_valid (m := 64) named valid
  refine ⟨fun next => ?_, fun now normal idle => ?_, fun now safe => ?_⟩
  · have run := exec_nextStartOnly holds next
    rw [records next] at run
    obtain ⟨box, others, fw⟩ := finish_setFw coherent.mbxCanonical
      (t := s.setFw { s.mbx.fw with nextSlot := some slot }) rfl 64 (activateReply 2 s.mbx.fw)
    exact ⟨_, run, fw, box, others, (setFw_only _).trans (finish_only _ _)⟩
  · have run := exec_fwActivate holds now
    rw [restarts now normal] at run
    exact ⟨_, run, activated_effect coherent idle slot⟩
  · have run := exec_fwActivate holds now
    rw [resets now safe] at run
    exact ⟨_, run, rfl, rfl⟩

/-! ## FW_FALLBACK -/

/-- The firmware's record once a new image is abandoned for the one before it (R230). -/
def fallenBack (fw : FwUnit) : FwUnit := { fw with fellBack := true, runSlot := fw.previous.getD fw.runSlot }

theorem firmwareFallsBack : Claims.FirmwareFallsBack := by
  intro s coherent engine restart loads first
  have run : exec .fwFallback s = .next (raiseSource (s.setFw (fallenBack s.mbx.fw)) 0x26C) :=
    congrArg Host.Outcome.next (if_pos (by simp [engine, restart, loads, first]))
  have abandoned := setFw_only (s := s) (fallenBack s.mbx.fw)
  have raised := raiseSource_only (s.setFw (fallenBack s.mbx.fw)) 0x26C
  refine ⟨_, run, raised .mbx (by decide), fun on => ?_, (abandoned.mono (by decide)).trans (raised.mono (by decide))⟩
  exact (raiseSource_effect (s := s.setFw (fallenBack s.mbx.fw)) coherent.sysCanonical (by decide) on).1

/-- Settles O55: FW_STAGE fills a slot, FW_ACTIVATE records it or restarts for it, and an image that does not run is
abandoned. -/
theorem firmwareImages : Obligations.FirmwareImages := ⟨firmwareStaged, firmwareActivated, firmwareFallsBack⟩

end Sys2Proof.Machine
end

section
/-! The MPU units: MPU_CTRL, the registers of the regions, the barrier of the compatible path, and MPU_CONFIG (R224, R234,
R241, R244, R245, R249). -/
namespace Sys2Proof.Machine

variable {s : State} {p : Path} {unit : BitVec 2} {data : W32}

/-! ## MPU_CTRL (R244, R249) -/

/-- With no access of the debug port and no VECTOR_LOAD held, an MPU unit written anew lets nothing go on. -/
theorem runDebug_advanceLoads_none {v : State} (idle : s.acu.tap.busy = false)
    (loads : ∀ b ∈ s.mbx.boxes, b.2.load = none) (tap : v.acu.tap = s.acu.tap) (mbx : v.mbx = s.mbx) : runDebug (advanceLoads v) = v := by
  rw [advanceLoads_none (mbx ▸ loads), runDebug_idle (tap ▸ idle)]

/-- What a write of MPU_CTRL leaves of MPU-L or MPU-D. -/
def ctrlWritten (u : Mpu) (data : W32) : Mpu :=
  { u with
    enable := data.getLsbD 0, badRegion := u.badRegion && !data.getLsbD 2
    writeRefused := u.writeRefused && !data.getLsbD 3 }

theorem writeMpuCtrl_open {u : Nat} (opened : u ≠ 0) (data : W32) :
    writeMpuCtrl s u data = s.setMpu u (ctrlWritten (s.mpu u) data) := if_neg opened

theorem exec_mpuEnableWrite (f : pathFm p = true) (serves : s.Serves (wordWrite p (unitOffset unit 0) data))
    (named : unit.toNat < 3) :
    exec (.mpuEnableWrite p unit data) s = .next (runDebug (advanceLoads (writeMpuCtrl s unit.toNat data))) :=
  congrArg Host.Outcome.next ((mpuWrite f serves (by decide) rfl named).trans (if_pos rfl))

theorem mpuEnableWritten : Claims.MpuEnableWritten := by
  intro p unit data s f serves idle loads u
  refine ⟨fun opened => ?_, fun closed => ?_⟩
  · have run := exec_mpuEnableWrite f serves (by omega)
    rw [writeMpuCtrl_open (by omega),
      runDebug_advanceLoads_none idle loads (setMpu_tap s _ _) (setMpu_only s _ _ .mbx (by decide))] at run
    exact ⟨_, run, setMpu_mpu s u _ (by omega), fun k below other => setMpu_ne s u k _ (by omega) below other,
      setMpu_tap s _ _, setMpu_only s _ _⟩
  · have run := exec_mpuEnableWrite f serves (show u < 3 by omega)
    have stands : writeMpuCtrl s unit.toNat data = s := if_pos closed
    rwa [stands, runDebug_advanceLoads_none idle loads rfl rfl] at run

/-! ## The registers of a region (R234, R241, R249) -/

/-- A region after a write of its register: 0 BASE_LO, 1 BASE_HI, 2 ATTR. -/
def regionWritten (r : Region) (reg : Nat) (data : W32) : Region :=
  match reg with
  | 0 => { r with base := (field r.base 32 8 : BitVec 8) ++ (data &&& 0xFFFFFFC0) }
  | 1 => { r with base := (data.setWidth 8 : BitVec 8) ++ (field r.base 0 32 : W32) }
  | _ => regionAttr r (field data 16 6) (field data 8 7) (field data 0 5)

/-- The fields of ATTR in place (R249). -/
theorem regionWritten_attr (r : Region) (data : W32) : regionWritten r 2 data = { r with
    size := field data 16 6, tag := field data 8 7, lock := data.getLsbD 4, priv := data.getLsbD 3
    x := data.getLsbD 2, w := data.getLsbD 1, r := data.getLsbD 0 } := by
  simp [regionWritten, regionAttr, field]

/-- A SIZE_LOG2 or TAG above its range (R234). -/
def overRange (r : Region) : Bool := decide (40 < r.size.toNat) || decide (0x40 < r.tag.toNat)

/-- A unit with one region written; `bad` sets BAD_REGION. -/
def withRegion (u : Mpu) (n : Nat) (r : Region) (bad : Bool) : Mpu :=
  { u.setRegion n r with badRegion := u.badRegion || bad }

theorem withRegion_same {u : Mpu} (canonical : Sparse.wf {} u.regions = true) (n : Nat) (r : Region) (bad : Bool) :
    (withRegion u n r bad).region n = r :=
  (Sparse.get_set ({} : Region) u.regions n r n canonical).trans (if_pos rfl)

theorem withRegion_other (u : Mpu) {n k : Nat} (other : k ≠ n) (r : Region) (bad : Bool) :
    (withRegion u n r bad).region k = u.region k :=
  Sparse.get_set_ne ({} : Region) u.regions n r k other

theorem writeRegion_free {u n reg : Nat} (opened : u ≠ 0) (named : n < regionCount u) (register : reg < 3)
    (free : s.protectedRegion ((s.mpu u).region n) = false) (data : W32) :
    writeRegion s u n reg data = s.setMpu u (withRegion (s.mpu u) n (regionWritten ((s.mpu u).region n) reg data)
      (reg == 2 && overRange (regionWritten ((s.mpu u).region n) reg data))) :=
  (if_neg (by omega)).trans (if_neg (Bool.eq_false_iff.mp free))

theorem writeRegion_protected {u n reg : Nat} (opened : u ≠ 0) (named : n < regionCount u) (register : reg < 3)
    (guarded : s.protectedRegion ((s.mpu u).region n) = true) (data : W32) :
    writeRegion s u n reg data = s.setMpu u { s.mpu u with writeRefused := true } :=
  (if_neg (by omega)).trans (if_pos guarded)

/-- The registers of the regions follow one another, 16 bytes to a region. -/
theorem writeMpuPage_region (s : State) (u : Nat) (n : BitVec 4) (reg : BitVec 2) (data : W32) :
    writeMpuPage s u (0x100 + 16 * n.toNat + 4 * reg.toNat) data = writeRegion s u n.toNat reg.toNat data := by
  unfold writeMpuPage
  rw [if_neg (by omega), if_neg (by omega), if_pos (by omega),
    show (0x100 + 16 * n.toNat + 4 * reg.toNat - 0x100) / 16 = n.toNat by omega,
    show (0x100 + 16 * n.toNat + 4 * reg.toNat) % 16 / 4 = reg.toNat by omega]

theorem exec_mpuRegionWrite {n : BitVec 4} {reg : BitVec 2} (f : pathFm p = true)
    (serves : s.Serves (wordWrite p (unitOffset unit (0x100 + 16 * n.toNat + 4 * reg.toNat)) data))
    (named : unit.toNat < 3) :
    exec (.mpuRegionWrite p unit n reg data) s = .next (writeRegion s unit.toNat n.toNat reg.toNat data) :=
  congrArg Host.Outcome.next ((mpuWrite f serves (by omega) (by omega) named).trans (writeMpuPage_region s _ n reg data))

theorem mpuRegionWritten : Claims.MpuRegionWritten := by
  intro p unit n reg data s f serves u old i writes
  refine ⟨fun closed => ?_, fun opened named canonical free => ?_, fun opened named register guarded => ?_⟩
  · exact (exec_mpuRegionWrite f serves (show u < 3 by omega)).trans (congrArg _ (if_pos (.inl closed)))
  · have written (register : reg.toNat < 3) : writes (regionWritten old reg.toNat data)
        (reg.toNat == 2 && overRange (regionWritten old reg.toNat data)) := by
      have run := exec_mpuRegionWrite f serves (show u < 3 by omega)
      rw [writeRegion_free (by omega) named register free] at run
      refine ⟨_, run, ?_, ?_, ?_, fun k other => ?_, fun k below other => setMpu_ne s u k _ (by omega) below other,
        setMpu_only s _ _⟩ <;> rw [setMpu_mpu s u _ (by omega)]
      · exact withRegion_same canonical _ _ _
      · rfl
      · rfl
      · exact withRegion_other _ other _ _
    refine ⟨?_, ?_, ?_⟩ <;> rintro rfl
    · exact written (by decide)
    · exact written (by decide)
    · exact regionWritten_attr old data ▸ written (by decide)
  · have run := exec_mpuRegionWrite f serves (show u < 3 by omega)
    have three : reg.toNat < 3 := by
      have : reg.toNat ≠ 3 := fun h => register (BitVec.eq_of_toNat_eq h)
      omega
    rw [writeRegion_protected (by omega) named three guarded] at run
    exact ⟨_, run, setMpu_mpu s u _ (by omega), fun k below other => setMpu_ne s u k _ (by omega) below other,
      setMpu_only s _ _⟩

/-! ## The barrier (R245) -/

/-- MPU_SYNC is no register that a write changes: what was written before it is in force (log entry 41). -/
theorem writeMpuPage_sync (s : State) (u : Nat) (data : W32) : writeMpuPage s u 0x04 data = s :=
  (if_neg (by decide)).trans ((if_neg (by decide)).trans (if_neg (by decide)))

/-- It reads DONE, and REQUEST as 0 (R249). -/
theorem mpuWord_sync (s : State) (u : Nat) : bytesLE 4 (s.mpuWord u 0x04).toNat = [1, 0, 0, 0] := by
  rw [show s.mpuWord u 0x04 = 1 from rfl]
  decide

theorem mpuSyncAnswers : Claims.MpuSyncAnswers := by
  intro p unit s f named half written read
  have stands : fmWrite4 s p (unitOffset unit 4) 0x80000000 = s :=
    (mpuWrite f written (by decide) rfl named).trans (writeMpuPage_sync s _ _)
  have answer := readMpu (off := 4) f named (by decide) rfl half read
  have keeps : clearMpuWord s unit.toNat 4 = s := if_neg (by omega)
  rw [keeps, mpuWord_sync] at answer
  have run : exec (.mpuSync p unit) s = .next (access (fmWrite4 s p (unitOffset unit 4) 0x80000000)
      (wordRead p (unitOffset unit 4))) := congrArg Host.Outcome.next (if_pos f)
  rw [stands] at run
  exact ⟨_, run.trans (congrArg _ answer), rfl, setBnd_only _⟩

/-! ## MPU_CONFIG (R224, R241, R244) -/

/-- The region that MPU_CONFIG writes, from its payload. -/
def configRegion (c : Snap) : Region :=
  regionAttr { base := BitVec.ofNat 40 (snapField c 0x10 8 / 64 * 64) } (BitVec.ofNat 6 (snapField c 0x0B 1))
    (BitVec.ofNat 7 (snapField c 0x0D 1)) ((snapByte c 0x0C).setWidth 5)

section
variable {m : BitVec 7} {c : Snap}

theorem runDebug_finish_idle (idle : s.acu.tap.busy = false) (r : Reply) : runDebug (finish s m r) = finish s m r :=
  runDebug_idle idle

theorem exec_mpuConfigWrite (holds : s.Holds m 0x50 c) (op : snapField c 0x0A 1 = 1) :
    exec (.mpuConfigWrite m) s = .next (runDebug (mpuConfig s m c)) := by
  have writes : (snapByte c 0x0A != 0) = true := by
    rw [bne_iff_ne]
    rintro zero
    rw [snap1, zero] at op
    exact absurd op (by decide)
  exact congrArg (fun v => Host.Outcome.next (runDebug v)) (runTaken_holds holds writes allOn_nil)

/-- A write of MPU_CONFIG to MPU-L or MPU-D past its checks (R224). -/
theorem mpuConfig_checked (op : snapField c 0x0A 1 = 1) (opened : snapField c 0x08 1 = 1 ∨ snapField c 0x08 1 = 2)
    (named : snapField c 0x09 1 < regionCount (snapField c 0x08 1)) (size : snapField c 0x0B 1 ≤ 40)
    (aligned : 6 ≤ snapField c 0x0B 1 → snapField c 0x10 8 % 2 ^ snapField c 0x0B 1 = 0)
    (tag : snapField c 0x0D 1 ≤ 0x40) (on : s.isOn dCORE = true) :
    let u := snapField c 0x08 1
    let n := snapField c 0x09 1
    mpuConfig s m c = if s.protectedRegion ((s.mpu u).region n) then finish s m (refuse stLocked 0x09)
      else finish (advanceLoads (s.setMpu u { (s.mpu u).setRegion n (configRegion c) with enable := true })) m
        (mpuReply u n (configRegion c)) := by
  have domain : mpuDomain (snapField c 0x08 1) = dCORE := if_neg (by omega)
  unfold mpuConfig
  dsimp only
  rw [if_neg (by omega), if_neg (by omega), if_neg (by omega), if_neg (by omega), if_neg (by omega), if_neg (by omega),
    if_neg (fun h => h.2 (aligned h.1)), if_neg (by omega), withDomains_on (allOn_one (domain ▸ on))]
  rfl

/-- MPU-C takes no write of the FM (R224). -/
theorem mpuConfig_kernel (op : snapField c 0x0A 1 = 1) (kernel : snapField c 0x08 1 = 0) (named : snapField c 0x09 1 < 16) :
    mpuConfig s m c = finish s m (refuse stDenied 0x08) := by
  have within : ¬ regionCount (snapField c 0x08 1) ≤ snapField c 0x09 1 := by
    rw [kernel]
    exact Nat.not_le.mpr named
  exact (if_neg (by omega)).trans ((if_neg (by omega)).trans ((if_neg within).trans (if_pos ⟨op, kernel⟩)))

end

theorem mpuConfigured : Claims.MpuConfigured := by
  intro m c s canonical idle loads holds op u n size tag base r
  have run := exec_mpuConfigWrite holds op
  refine ⟨fun opened named small aligned tagged on => ?_, fun kernel named => ?_⟩
  · rw [mpuConfig_checked op opened named small aligned tagged on] at run
    refine ⟨fun free => ?_, fun guarded => ?_⟩
    · have only := setMpu_only s u { (s.mpu u).setRegion n r with enable := true }
      have still : (s.setMpu u { (s.mpu u).setRegion n r with enable := true }).mbx = s.mbx := only .mbx (by decide)
      rw [if_neg (Bool.eq_false_iff.mp free), advanceLoads_none (still ▸ loads),
        runDebug_finish_idle ((congrArg Tap.busy (setMpu_tap s u _)).trans idle)] at run
      exact ⟨_, run, setMpu_mpu s u _ (by omega), fun k below other => setMpu_ne s u k _ (by omega) below other,
        finish_answered canonical still m _, (only.mono (by decide)).trans ((finish_only m _).mono (by decide))⟩
    · rw [if_pos guarded, runDebug_finish_idle idle] at run
      exact reply_only canonical run
  · rw [mpuConfig_kernel op kernel named, runDebug_finish_idle idle] at run
    exact reply_only canonical run

/-- Settles O53: a write reaches one register of one unit, of which MPU-C takes none; the barrier finds every write in
force, and MPU_CONFIG past its checks writes its region or refuses. -/
theorem mpuRules : Obligations.MpuRules := ⟨mpuEnableWritten, mpuRegionWritten, mpuSyncAnswers, mpuConfigured⟩

end Sys2Proof.Machine
end

section
/-! The access of the debug port: checked by MPU-D, made in CTRL RAM or refused (R233, R239, R240, R242, R388). -/
namespace Sys2Proof.Machine

variable {s : State} {req : DebugReq}

/-! ## A START (R388) -/

/-- The debug master holds the access of a START. -/
def started (s : State) (req : DebugReq) : State :=
  s.setAcu { s.acu with tap :=
    { busy := true, write := req.write, size := req.size, error := false, addr := req.addr, data := req.data } }

/-- The access as MPU-D sees it: unprivileged, of no tenant (R232). -/
def debugAccessOf (req : DebugReq) : Access :=
  ⟨if req.write then 1 else 0, 2 ^ req.size.toNat, req.addr.toNat, false, none⟩

theorem exec_debugAccess_busy (busy : s.acu.tap.busy = true) : exec (.debugAccess req) s = .next s :=
  congrArg Host.Outcome.next (if_pos (by simp [busy]))

theorem exec_debugAccess (outOfReset : s.hm.inReset = none) (powered : s.hm.powerOff = false)
    (idle : s.acu.tap.busy = false) : exec (.debugAccess req) s =
      .next (if req.size = 3 then refuseDebug (started s req) else runDebug (started s req)) :=
  congrArg Host.Outcome.next (if_neg (by simp [outOfReset, powered, idle]))

theorem started_mpu (s : State) (req : DebugReq) : ∀ k, (started s req).mpu k = s.mpu k
  | 0 | 1 | _ + 2 => rfl

theorem started_only (s : State) (req : DebugReq) : OnlyChanges [.acu] s (started s req) := setAcu_only _

/-- A START changes no rule, so it is ruled upon as the state that it meets has it. -/
theorem decideByte_started (a : Nat) :
    decideByte (started s req) 2 (debugAccessOf req) a = decideByte s 2 (debugAccessOf req) a :=
  decide_congr (started_mpu s req) (fun _ => rfl) 2 _ rfl a

/-! ## CTRL RAM (R233) -/

/-- A START of a legal SIZE whose bytes are in CTRL RAM is checked at once: the master is free, MPU-D is enabled, and CORE
and CTRL are ON (R16, R244, R388). -/
structure ReachesRam (s : State) (req : DebugReq) : Prop where
  outOfReset : s.hm.inReset = none
  powered    : s.hm.powerOff = false
  idle       : s.acu.tap.busy = false
  legal      : req.size ≠ 3
  enabled    : s.acu.mpuD.enable = true
  core       : s.isOn dCORE = true
  ctrl       : s.isOn dCTRL = true
  above      : 0x4000000 ≤ req.addr.toNat
  below      : req.addr.toNat + 2 ^ req.size.toNat ≤ 0x4080000

/-- The places of an access to CTRL RAM. -/
def ramPlaces (req : DebugReq) : List Place :=
  (List.range (2 ^ req.size.toNat)).map fun i => Place.ram (req.addr.toNat - 0x4000000 + i)

theorem debugPlaces_ram (reaches : ReachesRam s req) : (started s req).debugPlaces = ramPlaces req := by
  have above := reaches.above
  have below := reaches.below
  refine List.map_congr_left fun i inside => ?_
  have bound : i < 2 ^ req.size.toNat := List.mem_range.mp inside
  refine (placeOf_ram (req.addr.toNat + i) (by omega) (by omega)).trans (congrArg Place.ram ?_)
  omega

theorem debugWaits_ram (reaches : ReachesRam s req) : (started s req).debugWaits = false := by
  have unit : (started s req).acu.mpuD.enable = true := reaches.enabled
  have on : ∀ d, (started s req).isOn d = s.isOn d := isOn_congr rfl
  unfold State.debugWaits
  rw [debugPlaces_ram reaches, unit, on, reaches.core]
  simp [ramPlaces, State.placeDomain, on, reaches.ctrl]

/-! ## The check (R236, R240, R242) -/

/-- An access whose first and last byte are allowed, neither by the consent of a tenant, is performed with no record. -/
theorem checkAccess_allowed {u : Nat} {x : Access} (first : (decideByte s u x x.addr).allowed = true)
    (last : (decideByte s u x (x.addr + x.size - 1)).allowed = true) (firstOwn : (decideByte s u x x.addr).opened = none)
    (lastOwn : (decideByte s u x (x.addr + x.size - 1)).opened = none) : checkAccess s u x = (s, true, 0x1F) := by
  have uncharged : chargeOpened s (decideByte s u x x.addr) (decideByte s u x (x.addr + x.size - 1)) = s := by
    unfold chargeOpened
    simp only [firstOwn, lastOwn, ite_self]
  unfold checkAccess
  simp only [first, last, uncharged, Bool.and_self, if_true]

/-- An access of which a byte is refused is a violation. -/
theorem checkAccess_refused {u : Nat} {x : Access} (refused : ¬ ((decideByte s u x x.addr).allowed = true ∧
      (decideByte s u x (x.addr + x.size - 1)).allowed = true)) :
    ∃ straddle r, checkAccess s u x = (noteViolation s u x straddle r, false, r.region) :=
  ⟨_, _, if_neg fun h => refused (Bool.and_eq_true_iff.mp h)⟩

/-- A violation is counted, leaves a valid record, and changes nothing else of the units (R240). -/
theorem noteViolation_effect (s : State) (u : Nat) (x : Access) (straddle : Bool) (r : Ruling) :
    ∃ v : Violation, v.valid = true ∧ (noteViolation s u x straddle r).acu =
        (s.setMpu u { s.mpu u with count := satInc (s.mpu u).count, viol := v }).acu ∧
      OnlyChanges [.acu, .sys, .pwr] s (noteViolation s u x straddle r) := by
  unfold noteViolation
  dsimp only
  split
  case isTrue recorded => exact ⟨(s.mpu u).viol, recorded, rfl, (setMpu_only s u _).mono (by decide)⟩
  case isFalse =>
    exact ⟨_, rfl, raiseSource_only _ 0x269 .acu (by decide),
      ((setMpu_only s u _).mono (by decide)).trans ((raiseSource_only _ 0x269).mono (by decide))⟩

theorem exec_debugAccess_checked (reaches : ReachesRam s req) : exec (.debugAccess req) s =
    .next (if (checkAccess (started s req) 2 (debugAccessOf req)).2.1
      then performDebug (checkAccess (started s req) 2 (debugAccessOf req)).1
      else refuseDebug (checkAccess (started s req) 2 (debugAccessOf req)).1) := by
  have run : runDebug (started s req) = _ := if_neg (by rw [debugWaits_ram reaches]; exact Bool.false_ne_true)
  rw [exec_debugAccess reaches.outOfReset reaches.powered reaches.idle, if_neg reaches.legal, run]
  rfl

/-! ## The access -/

/-- The debug master once its access has ended. -/
def endedTap (req : DebugReq) (error : Bool) (data : W32) : Tap :=
  { busy := false, write := req.write, size := req.size, error := error, addr := req.addr, data := data }

/-- CTRL RAM after the bytes of a word are stored from `at_` on. -/
def ramStored (ram : Sparse (Option Byte)) (at_ size : Nat) (data : W32) : Sparse (Option Byte) :=
  (((List.range size).map fun i => at_ + i).zip (bytesLE 4 data.toNat)).foldl
    (fun m e => Sparse.set none m e.1 (some e.2)) ram

theorem performDebug_write (reaches : ReachesRam s req) (writes : req.write = true) :
    performDebug (started s req) = s.setAcu { s.acu with
      ram := ramStored s.acu.ram (req.addr.toNat - 0x4000000) (2 ^ req.size.toNat) req.data
      tap := endedTap req false req.data } := by
  have direction : (started s req).acu.tap.write = true := writes
  obtain ⟨ram, stores, same⟩ := foldRam (((List.range (2 ^ req.size.toNat)).map fun i =>
    req.addr.toNat - 0x4000000 + i).zip (bytesLE 4 req.data.toNat)) (started s req)
  unfold performDebug
  simp only [direction, if_true, debugPlaces_ram reaches]
  rw [ramPlaces, zipRam]
  refine (congrArg (fun v : State => v.setAcu { v.acu with tap := { v.acu.tap with busy := false } }) stores).trans ?_
  rw [same]
  rfl

/-- What a byte of CTRL RAM leaves alone, all of them leave alone. -/
theorem foldl_ram_stays {f : State → Place → State} (stays : ∀ a, f s (.ram a) = s) (at_ : Nat) :
    ∀ l : List Nat, (l.map fun i => Place.ram (at_ + i)).foldl f s = s
  | [] => rfl
  | i :: l => (congrArg (List.foldl f · _) (stays (at_ + i))).trans (foldl_ram_stays stays at_ l)

/-- The word that a debug read of CTRL RAM returns. -/
def ramRead (s : State) (at_ size : Nat) : W32 :=
  BitVec.ofNat 32 (ofBytesLE ((List.range size).map fun i => s.placeByte (.ram (at_ + i))))

theorem performDebug_read (reaches : ReachesRam s req) (reads : req.write = false) :
    performDebug (started s req) = (s.setRas { s.ras with freeReads := s.ras.freeReads + 1 }).setAcu { s.acu with
      tap := endedTap req false (ramRead s (req.addr.toNat - 0x4000000) (2 ^ req.size.toNat)) } := by
  have direction : (started s req).acu.tap.write = false := reads
  have touches : (ramPlaces req).foldl touchPlace (started s req) = started s req :=
    foldl_ram_stays (fun _ => rfl) _ _
  have clears : (ramPlaces req).foldl clearPlace (started s req) = started s req :=
    foldl_ram_stays (fun _ => rfl) _ _
  unfold performDebug
  simp only [direction, Bool.false_eq_true, if_false, debugPlaces_ram reaches, touches, clears]
  rw [ramPlaces, List.map_map]
  rfl

/-- The byte of a read word is the byte that stands, where one does. -/
theorem byteAt_ramRead {at_ size i : Nat} {b : Byte} (short : size ≤ 4) (inside : i < size)
    (stands : Sparse.get none s.acu.ram (at_ + i) = some b) : byteAt (ramRead s at_ size) i = b := by
  have byte : s.placeByte (.ram (at_ + i)) = b := by
    unfold State.placeByte
    simp only [stands]
  have spelt := byteOf ((List.range size).map fun i => s.placeByte (.ram (at_ + i))) i b (by simp [inside, byte])
  unfold ramRead
  generalize ofBytesLE _ = word at spelt ⊢
  refine BitVec.eq_of_toNat_eq (Eq.trans ?_ spelt)
  unfold byteAt field
  rw [BitVec.toNat_setWidth, BitVec.toNat_ushiftRight, BitVec.toNat_ofNat, Nat.shiftRight_eq_div_pow]
  have place : i = 0 ∨ i = 1 ∨ i = 2 ∨ i = 3 := by omega
  rcases place with rfl | rfl | rfl | rfl <;> omega

/-- SIZE is 1, 2 or 4 bytes, where it is legal. -/
theorem debugSize_legal {size : BitVec 2} (legal : size ≠ 3) :
    2 ^ size.toNat = 1 ∨ 2 ^ size.toNat = 2 ∨ 2 ^ size.toNat = 4 := by
  revert size
  decide

theorem ramStored_effect {ram : Sparse (Option Byte)} (canonical : Sparse.wf none ram = true) (at_ : Nat) (data : W32)
    {size : Nat} (legal : size = 1 ∨ size = 2 ∨ size = 4) :
    (∀ i, i < size → Sparse.get none (ramStored ram at_ size data) (at_ + i) = some (byteAt data i)) ∧
      ∀ a, a < at_ ∨ at_ + size ≤ a → Sparse.get none (ramStored ram at_ size data) a = Sparse.get none ram a := by
  unfold ramStored
  rw [byteAt_bytes]
  exact storedRam data at_ size ram canonical legal

/-- An access that MPU-D allows of itself is made. -/
theorem exec_debugAccess_allowed (reaches : ReachesRam s req)
    (first : (decideByte s 2 (debugAccessOf req) req.addr.toNat).allowed = true)
    (last : (decideByte s 2 (debugAccessOf req) (req.addr.toNat + 2 ^ req.size.toNat - 1)).allowed = true)
    (firstOwn : (decideByte s 2 (debugAccessOf req) req.addr.toNat).opened = none)
    (lastOwn : (decideByte s 2 (debugAccessOf req) (req.addr.toNat + 2 ^ req.size.toNat - 1)).opened = none) :
    exec (.debugAccess req) s = .next (performDebug (started s req)) := by
  rw [← decideByte_started] at first last firstOwn lastOwn
  rw [exec_debugAccess_checked reaches, checkAccess_allowed first last firstOwn lastOwn, if_pos rfl]

/-- An access that MPU-D refuses is counted and answered with the error response. -/
theorem exec_debugAccess_refused (reaches : ReachesRam s req)
    (refused : ¬ ((decideByte s 2 (debugAccessOf req) req.addr.toNat).allowed = true ∧
      (decideByte s 2 (debugAccessOf req) (req.addr.toNat + 2 ^ req.size.toNat - 1)).allowed = true)) :
    ∃ straddle r, exec (.debugAccess req) s =
      .next (refuseDebug (noteViolation (started s req) 2 (debugAccessOf req) straddle r)) := by
  rw [← decideByte_started (s := s), ← decideByte_started (s := s) (_ - 1)] at refused
  obtain ⟨straddle, r, check⟩ := checkAccess_refused refused
  refine ⟨straddle, r, ?_⟩
  rw [exec_debugAccess_checked reaches, check]
  exact congrArg Host.Outcome.next (if_neg Bool.false_ne_true)

/-- Settles O54: a START that reaches CTRL RAM is checked at once, and the rulings of MPU-D on its first and last byte make
it or end it as a violation. -/
theorem debugAccessMade : Obligations.DebugAccessMade := by
  intro req s outOfReset powered size x master
  have run := exec_debugAccess (req := req) outOfReset powered
  refine ⟨exec_debugAccess_busy, fun idle illegal => ?_, ?_, fun idle legal enabled core ctrl above below refused => ?_⟩
  · have ended := run idle
    rw [if_pos illegal] at ended
    exact next_acu ended
  · intro idle legal enabled core ctrl above below at_ ⟨first, last⟩ firstOwn lastOwn
    have reaches : ReachesRam s req := ⟨outOfReset, powered, idle, legal, enabled, core, ctrl, above, below⟩
    have made := exec_debugAccess_allowed reaches first last firstOwn lastOwn
    refine ⟨fun writes canonical => ?_, fun reads => ?_⟩
    · rw [performDebug_write reaches writes] at made
      obtain ⟨stored, others⟩ := ramStored_effect canonical at_ req.data (debugSize_legal legal)
      exact ⟨_, made, rfl, stored, others, fun | 0 | 1 | _ + 2 => rfl, setAcu_only _⟩
    · rw [performDebug_read reaches reads] at made
      have short : size ≤ 4 := by
        have := debugSize_legal legal
        omega
      exact ⟨_, _, made, rfl, fun i b inside stands => byteAt_ramRead short inside stands,
        ((setRas_only _).mono (by decide)).trans ((setAcu_only _).mono (by decide))⟩
  · have reaches : ReachesRam s req := ⟨outOfReset, powered, idle, legal, enabled, core, ctrl, above, below⟩
    obtain ⟨straddle, r, ended⟩ := exec_debugAccess_refused reaches refused
    obtain ⟨v, valid, acu, only⟩ := noteViolation_effect (started s req) 2 (debugAccessOf req) straddle r
    have whole : OnlyChanges [.acu, .sys, .pwr] s
        (refuseDebug (noteViolation (started s req) 2 (debugAccessOf req) straddle r)) := ((started_only s req).mono (by decide)).trans (only.trans ((setAcu_only _).mono (by decide)))
    refine ⟨_, ended, ?_, ?_, ?_, ?_, ?_, whole⟩ <;> unfold refuseDebug <;> rw [State.setAcu_acu, acu]
    · rfl
    · rfl
    · rfl
    · exact valid
    · rfl

end Sys2Proof.Machine
end

section
/-! The ports of a chip after a write of one of their records, and the events that move a port through its states (R225,
R253, R255, R257, R258, R271, R278). -/
namespace Sys2Proof.Machine
open Sys2Proof

/-! ## A port's records after a write -/

section
variable {s t : State}

theorem phy_congr (h : t.chain = s.chain) (q : PortId) : t.phy q = s.phy q := by
  cases q
  · exact congrArg ChainUnit.eastPhy h
  · exact congrArg ChainUnit.westPhy h

theorem portCfg_congr (h : t.chain = s.chain) (q : PortId) : t.portCfg q = s.portCfg q := by
  cases q
  · exact congrArg ChainUnit.eastCfg h
  · exact congrArg ChainUnit.westCfg h

theorem distTable_congr (h : t.chain = s.chain) (q : PortId) : t.distTable q = s.distTable q := by
  cases q
  · exact congrArg ChainUnit.eastDist h
  · exact congrArg ChainUnit.westDist h

theorem opposite_ne (p : PortId) : opposite p ≠ p := by cases p <;> decide
theorem eq_opposite_of_ne {p q : PortId} (other : q ≠ p) : p = opposite q := by
  cases p <;> cases q <;> simp_all [opposite]

variable (p q : PortId) (u v : PhyPort) (l : LinkPort) (c : PortCfg)

@[simp] theorem setPhy_self : (s.setPhy p u).phy p = u := by cases p <;> rfl
@[simp] theorem setPhy_opposite : (s.setPhy p u).phy (opposite p) = s.phy (opposite p) := by cases p <;> rfl
@[simp] theorem setPhy_linkPort : (s.setPhy p u).linkPort q = s.linkPort q := by cases p <;> cases q <;> rfl
@[simp] theorem setPhy_portCfg : (s.setPhy p u).portCfg q = s.portCfg q := by cases p <;> cases q <;> rfl
@[simp] theorem setPhy_distTable : (s.setPhy p u).distTable q = s.distTable q := by cases p <;> cases q <;> rfl
@[simp] theorem setPhy_setPhy : (s.setPhy p u).setPhy p v = s.setPhy p v := by cases p <;> rfl
@[simp] theorem setPhy_phy : s.setPhy p (s.phy p) = s := by cases p <;> rfl
@[simp] theorem setPhy_sys : (s.setPhy p u).sys = s.sys := by cases p <;> rfl
@[simp] theorem setPhy_pwr : (s.setPhy p u).pwr = s.pwr := by cases p <;> rfl
@[simp] theorem setPhy_chipId : (s.setPhy p u).chipId = s.chipId := by cases p <;> rfl
@[simp] theorem setPhy_chainMode : (s.setPhy p u).chainMode = s.chainMode := by cases p <;> rfl

theorem setPhy_only : OnlyChanges [.chain] s (s.setPhy p u) := by cases p <;> exact setChain_only _

@[simp] theorem setLinkPort_phy : (s.setLinkPort p l).phy q = s.phy q := by cases p <;> cases q <;> rfl
@[simp] theorem setLinkPort_portCfg : (s.setLinkPort p l).portCfg q = s.portCfg q := by cases p <;> cases q <;> rfl
@[simp] theorem setLinkPort_distTable : (s.setLinkPort p l).distTable q = s.distTable q := by cases p <;> cases q <;> rfl
@[simp] theorem setLinkPort_sys : (s.setLinkPort p l).sys = s.sys := by cases p <;> rfl
@[simp] theorem setLinkPort_pwr : (s.setLinkPort p l).pwr = s.pwr := by cases p <;> rfl

@[simp] theorem setPortCfg_self : (s.setPortCfg p c).portCfg p = c := by cases p <;> rfl
@[simp] theorem setPortCfg_opposite : (s.setPortCfg p c).portCfg (opposite p) = s.portCfg (opposite p) := by cases p <;> rfl
@[simp] theorem setPortCfg_phy : (s.setPortCfg p c).phy q = s.phy q := by cases p <;> cases q <;> rfl
@[simp] theorem setPortCfg_linkPort : (s.setPortCfg p c).linkPort q = s.linkPort q := by cases p <;> cases q <;> rfl

theorem setPortCfg_only : OnlyChanges [.chain] s (s.setPortCfg p c) := by cases p <;> exact setChain_only _

theorem setPhy_linkUp {p : PortId} {u : PhyPort} (state : u.state = (s.phy p).state) :
    (s.setPhy p u).linkUp p = s.linkUp p := by
  unfold State.linkUp
  rw [setPhy_self, state]

/-- A port's event acts in the state that it names, while the domain of the port is ON. -/
theorem atState_on {p : PortId} {st : PhyState} (on : s.isOn (portDomain p) = true) (here : (s.phy p).state = st)
    (k : State) : atState s p st k = k := by
  unfold atState
  rw [on, here, beq_self_eq_true]
  rfl

end

/-! ## Training anew -/

section
variable {s t : State} {p : PortId}

@[simp] theorem refreshRetimer_phy (q : PortId) : (refreshRetimer s).phy q = s.phy q := by cases q <;> rfl
@[simp] theorem refreshRetimer_linkPort (q : PortId) : (refreshRetimer s).linkPort q = s.linkPort q := by cases q <;> rfl
@[simp] theorem refreshRetimer_portCfg (q : PortId) : (refreshRetimer s).portCfg q = s.portCfg q := by cases q <;> rfl
@[simp] theorem refreshRetimer_distTable (q : PortId) : (refreshRetimer s).distTable q = s.distTable q := by cases q <;> rfl
@[simp] theorem refreshRetimer_sys : (refreshRetimer s).sys = s.sys := rfl

theorem refreshRetimer_only : OnlyChanges [.chain] s (refreshRetimer s) := setChain_only _

/-- A port that is not DISABLED keeps the bypass retimer off (R259). -/
theorem refreshRetimer_off (enabled : (s.phy p).state ≠ .disabled) : (refreshRetimer s).chain.retimerOn = false := by
  have off : ((s.phy p).state == .disabled) = false := beq_eq_false_iff_ne.mpr enabled
  show (s.chainMode != 0 && (s.phy .east).state == .disabled && (s.phy .west).state == .disabled) = false
  cases p <;> simp [off]

/-- The physical layer of a port that starts training anew. -/
def detecting (s : State) (p : PortId) : PhyPort :=
  { freshTraining (s.phy p) .detect with markedBad := 0, trainCtle := (s.portCfg p).ctle }

theorem declareIfUp_down (down : s.linkUp p = false) : declareIfUp s p = s := by
  unfold declareIfUp
  rw [down]
  rfl

theorem enterDetect_down (down : s.linkUp p = false) :
    enterDetect s p = refreshRetimer (s.setPhy p (detecting s p)) := by
  unfold enterDetect
  rw [declareIfUp_down down]
  rfl

/-- A port whose link is not up trains anew from a state that agrees with `s` in what training keeps. -/
theorem enterDetect_trainsAnew {failed : Bool} (down : t.linkUp p = false)
    (fail : (t.phy p).trainFail = ((s.phy p).trainFail || failed)) (attempts : (t.phy p).attempts = (s.phy p).attempts)
    (ups : (t.phy p).ups = (s.phy p).ups) (losses : (t.phy p).lockLosses = (s.phy p).lockLosses)
    (phy : t.phy (opposite p) = s.phy (opposite p)) (link : t.linkPort (opposite p) = s.linkPort (opposite p))
    (cfg : t.portCfg p = s.portCfg p) (only : OnlyChanges [.chain] s t) :
    Claims.trainsAnew p failed (t.linkPort p) s (enterDetect t p) := by
  rw [enterDetect_down down]
  have anew : (refreshRetimer (t.setPhy p (detecting t p))).phy p = detecting t p := by simp
  unfold Claims.trainsAnew
  rw [anew]
  exact ⟨rfl, rfl, rfl, rfl, rfl, rfl, rfl, fail, attempts, ups, losses, by simpa using phy, by simp,
    by simpa using link, rfl, congrArg PortCfg.ctle cfg,
    refreshRetimer_off (p := p) (by rw [setPhy_self]; exact PhyState.noConfusion),
    (only.trans (setPhy_only p _)).trans refreshRetimer_only⟩

/-- A port that is training trains anew from any of its training states. -/
theorem enterDetect_restarts (down : s.linkUp p = false) :
    Claims.trainsAnew p false (s.linkPort p) s (enterDetect s p) :=
  enterDetect_trainsAnew down (Bool.or_false _).symm rfl rfl rfl rfl rfl rfl (.refl _ _)

/-- A failure of LANE_MAP or DESKEW trains anew, whatever the port has noted of it. -/
theorem trainFail_restarts {u : PhyPort} (down : s.linkUp p = false) (state : u.state = (s.phy p).state)
    (attempts : u.attempts = (s.phy p).attempts)
    (ups : u.ups = (s.phy p).ups) (losses : u.lockLosses = (s.phy p).lockLosses) :
    Claims.trainsAnew p true (s.linkPort p) s (trainFail (s.setPhy p u) p) := by
  unfold trainFail
  rw [setPhy_setPhy, setPhy_self, ← setPhy_linkPort (s := s) p p { u with trainFail := true }]
  refine enterDetect_trainsAnew ?_ ?_ ?_ ?_ ?_ ?_ ?_ ?_ (setPhy_only p _)
  · exact (setPhy_linkUp (u := { u with trainFail := true }) state).trans down
  · simp
  · simpa using attempts
  · simpa using ups
  · simpa using losses
  · simp
  · simp
  · simp

/-- A failure of training keeps what the port has noted of its cause. -/
theorem trainFail_notes {u : PhyPort} (down : s.linkUp p = false) (state : u.state = (s.phy p).state) :
    ((trainFail (s.setPhy p u) p).phy p).wiring = u.wiring ∧ ((trainFail (s.setPhy p u) p).phy p).idClash = u.idClash := by
  unfold trainFail
  rw [setPhy_setPhy, setPhy_self, enterDetect_down ((setPhy_linkUp (u := { u with trainFail := true }) state).trans down),
    refreshRetimer_phy, setPhy_self]
  unfold detecting
  rw [setPhy_self]
  exact ⟨rfl, rfl⟩

end

/-! ## The check of the lanes (R253) -/

section
variable {s : State} {p : PortId}

/-- The code of a lane with signal that passes first, if one does. -/
def laneCheck (signal : BitVec 3) (cfg : BitVec 12) (errors : List (List Nat)) (l : Nat) : Option Nat :=
  if signal.getLsbD l then passingCode (field cfg (4 * l) 4 : BitVec 4).toNat (errors.getD l []) else none

/-- The lanes that have passed, and the codes in force, after one more lane. -/
def addLane (o : Nat → Option Nat) (acc : BitVec 3 × BitVec 12) (l : Nat) : BitVec 3 × BitVec 12 :=
  match o l with
  | some c => (acc.1 ||| BitVec.twoPow 3 l, acc.2 ||| place 12 (BitVec.ofNat 4 c) (4 * l))
  | none => acc

theorem checkLanes_eq (signal : BitVec 3) (cfg : BitVec 12) (errors : List (List Nat)) :
    checkLanes signal cfg errors = (List.range 3).foldl (addLane (laneCheck signal cfg errors)) (0, 0) := rfl

theorem field_or {w : Nat} (x y : BitVec w) (lo n : Nat) :
    (field (x ||| y) lo n : BitVec n) = field x lo n ||| field y lo n := by
  unfold field
  rw [BitVec.ushiftRight_or_distrib, BitVec.setWidth_or]

/-- A code placed in one lane's field stands there, and in the field of no other lane. -/
theorem field_place_lane (y : BitVec 4) {n : Nat} (small : n < 3) (l : Nat) :
    (field (place 12 y (4 * n)) (4 * l) 4 : BitVec 4) = if l = n then y else 0 := by
  refine BitVec.eq_of_getLsbD_eq fun i inside => ?_
  unfold field place
  rw [BitVec.getLsbD_setWidth, BitVec.getLsbD_ushiftRight, BitVec.getLsbD_shiftLeft, BitVec.getLsbD_setWidth]
  by_cases here : l = n
  · have first : 4 * l + i < 12 := by omega
    have offset : 4 * l + i - 4 * n = i := by omega
    have bit : i < 12 := by omega
    have reached : ¬ 4 * l + i < 4 * n := by omega
    simp [here ▸ first, here ▸ offset, here, inside, bit]
  · by_cases reached : 4 * l + i < 4 * n
    · simp [reached, here]
    · have beyond : y.getLsbD (4 * l + i - 4 * n) = false := BitVec.getLsbD_of_ge _ _ (by omega)
      simp [beyond, here]

/-- Lane by lane: a lane passes when one of its codes does, and that code stands in its field. -/
theorem addLanes_lane (o : Nat → Option Nat) (n : Nat) (small : n ≤ 3) (l : Nat) :
    let r := (List.range n).foldl (addLane o) (0, 0)
    r.1.getLsbD l = (decide (l < n) && (o l).isSome) ∧
      (field r.2 (4 * l) 4 : BitVec 4) = if l < n then BitVec.ofNat 4 ((o l).getD 0) else 0 := by
  induction n with
  | zero => exact ⟨by simp, by simp [field]⟩
  | succ n ih =>
    obtain ⟨pass, code⟩ := ih (by omega)
    rw [List.range_succ, List.foldl_append, List.foldl_cons, List.foldl_nil]
    generalize (List.range n).foldl (addLane o) (0, 0) = r at pass code
    have two : n < 3 := by omega
    unfold addLane
    by_cases last : l = n
    · subst last
      cases found : o l with
      | none => simp [pass, code, found]
      | some c => simp [field_or, field_place_lane _ two, code, two]
    · have before : l < n + 1 ↔ l < n := by omega
      cases found : o n with
      | none => simp [pass, code, before]
      | some c => simp [field_or, field_place_lane _ two, pass, code, before, last, Ne.symm last]

/-- What PAM4_CHECK finds of each lane. -/
theorem checkedPort_lane (u : PhyPort) (errors : List (List Nat)) {l : Nat} (lane : l < 3) :
    let code := laneCheck u.signal u.trainCtle errors l
    (checkedPort u errors).good.getLsbD l = (code.isSome && !u.markedBad.getLsbD l) ∧
    (checkedPort u errors).failed.getLsbD l = (u.signal.getLsbD l && code.isNone) ∧
    (field (checkedPort u errors).inForce (4 * l) 4 : BitVec 4) = BitVec.ofNat 4 (code.getD 0) := by
  obtain ⟨pass, code⟩ := addLanes_lane (laneCheck u.signal u.trainCtle errors) 3 le_rfl l
  unfold checkedPort
  rw [checkLanes_eq]
  generalize (List.range 3).foldl (addLane (laneCheck u.signal u.trainCtle errors)) (0, 0) = r at pass code
  refine ⟨?_, ?_, code.trans (if_pos lane)⟩
  · show (r.1 &&& ~~~u.markedBad).getLsbD l = _
    rw [BitVec.getLsbD_and, BitVec.getLsbD_not, pass]
    simp [lane]
  · show (u.signal &&& ~~~r.1).getLsbD l = _
    rw [BitVec.getLsbD_and, BitVec.getLsbD_not, pass]
    simp [lane]

theorem trainingBegins : Claims.TrainingBegins := by
  intro p s on
  refine ⟨fun detect => ⟨fun lanes two => ?_, fun lanes few => ?_, ?_⟩, fun cdr => ⟨fun lanes all => ?_, ?_⟩,
    fun check errors => ?_⟩
  · exact congrArg Host.Outcome.next ((atState_on on detect _).trans (if_pos two))
  · exact congrArg Host.Outcome.next ((atState_on on detect _).trans (if_neg (Nat.not_le.mpr few)))
  · exact congrArg Host.Outcome.next (atState_on on detect _)
  · exact congrArg Host.Outcome.next ((atState_on on cdr _).trans (if_pos all))
  · exact ⟨_, congrArg Host.Outcome.next (atState_on on cdr _), enterDetect_restarts (by simp [State.linkUp, cdr])⟩
  · refine ⟨_, congrArg Host.Outcome.next (atState_on on check _), ?_⟩
    have only : OnlyChanges [.chain, .ras] s (s.setRas { s.ras with freeReads := s.ras.freeReads + 1 }) :=
      (setRas_only _).mono (by decide)
    have phys := phy_congr (t := s.setRas { s.ras with freeReads := s.ras.freeReads + 1 }) (s := s) rfl
    have links := linkPort_congr (t := s.setRas { s.ras with freeReads := s.ras.freeReads + 1 }) (s := s) rfl
    generalize s.setRas { s.ras with freeReads := s.ras.freeReads + 1 } = v at only phys links
    rw [setPhy_self, phys p]
    exact ⟨rfl, rfl, rfl, fun l lane => checkedPort_lane (s.phy p) errors lane,
      (setPhy_opposite p _).trans (phys _), fun q => (setPhy_linkPort p q _).trans (links q),
      only.trans ((setPhy_only p _).mono (by decide))⟩

/-! ## LANE_MAP (R255, R256) -/

/-- Steps that move the decoders of a port's lanes move nothing else of the port (R251). -/
theorem foldl_rxCode {g : PhyPort → Nat → PhyPort} (step : ∀ u l, ∃ c, g u l = { u with rxCode := c })
    (lanes : List Nat) (u : PhyPort) : ∃ c, lanes.foldl g u = { u with rxCode := c } := by
  induction lanes generalizing u with
  | nil => exact ⟨u.rxCode, rfl⟩
  | cons l lanes ih =>
    obtain ⟨c, moved⟩ := step u l
    rw [List.foldl_cons, moved]
    exact ih _

/-- The symbols that leave on the three lanes when each sends the block `own`. -/
def sentSymbols (u : PhyPort) (own : BitVec 128) : List (BitVec 128) :=
  (List.range 3).map fun l => (precodeBlock (laneCode u.txCode l) own).1

/-- A set received is answered with this end's own set; what is counted of it is whether it acknowledges. -/
theorem exchangeSets_effect (b : BitVec 128) (ack : Bool) :
    ∃ rx tx, exchangeSets s p b ack = s.setPhy p { s.phy p with
      rxCode := rx, txCode := tx, sent := sentSymbols (s.phy p) (s.ownSet p ack)
      acksSent := if ack then (s.phy p).acksSent + 1 else 0 } := by
  obtain ⟨rx, heard⟩ := foldl_rxCode (g := fun u l => if u.signal.getLsbD l then takeBlock u l b else u)
    (fun u l => by
      split
      · exact ⟨_, rfl⟩
      · exact ⟨u.rxCode, rfl⟩) (List.range 3) (s.phy p)
  unfold exchangeSets
  dsimp only at heard ⊢
  rw [heard]
  exact ⟨rx, _, rfl⟩

/-- A port that knows the chip at the other end. -/
def metPeer (s : State) (p : PortId) (b : BitVec 128) : PhyPort := { s.phy p with peerChip := field b 64 4 }

/-- A port that has chosen the lanes on which it sends, and takes over those that the peer has chosen. -/
def choosesLanes (s : State) (p : PortId) (b : BitVec 128) (tx : BitVec 3) : PhyPort :=
  let agree := setAgrees s.chainMode (s.phy p) b
  { metPeer s p b with
    chosenValid := true, txLanes := tx, rxLanes := if agree then field b 75 3 else (s.phy p).rxLanes
    acks := if agree && b.getLsbD 79 then (s.phy p).acks + 1 else 0 }

/-- The exchange of sets ends LANE_MAP at the eighth acknowledgement received with the eighth sent. -/
def endExchange (t : State) (p : PortId) : State :=
  let u := t.phy p
  if 8 ≤ u.acks ∧ 8 ≤ u.acksSent then
    t.setPhy p { showSpare t.chainMode u with state := .deskew, markers := [], mcounts := [], cycle := 0 }
  else t

theorem trainingSet_miswired {b : BitVec 128} (same : b.getLsbD 68 = (p == .west)) :
    trainingSet s p b = trainFail (s.setPhy p { metPeer s p b with wiring := true }) p := by
  unfold trainingSet
  rw [if_pos (beq_iff_eq.mpr same), setPhy_setPhy, setPhy_self]
  rfl

theorem trainingSet_sameChip {b : BitVec 128} (other : b.getLsbD 68 ≠ (p == .west))
    (same : (field b 64 4 : Chip) = s.chipId) :
    trainingSet s p b = trainFail (s.setPhy p { metPeer s p b with idClash := true }) p := by
  unfold trainingSet
  rw [if_neg (beq_iff_eq.not.mpr other), setPhy_chipId, if_pos same, setPhy_setPhy, setPhy_self]
  rfl

theorem trainingSet_fewLanes {b : BitVec 128} (other : b.getLsbD 68 ≠ (p == .west))
    (distinct : (field b 64 4 : Chip) ≠ s.chipId)
    (few : chooseLanes s.chainMode (field b 72 3) = none ∨ countLanes (s.phy p).good < 2) :
    trainingSet s p b = trainFail (s.setPhy p (metPeer s p b)) p := by
  unfold trainingSet
  rw [if_neg (beq_iff_eq.not.mpr other), setPhy_chipId, if_neg distinct, setPhy_chainMode, setPhy_self]
  cases chosen : chooseLanes s.chainMode (field b 72 3) with
  | none => rfl
  | some tx => exact if_pos (few.resolve_left (by simp [chosen]))

theorem trainingSet_chosen {b : BitVec 128} {tx : BitVec 3} (other : b.getLsbD 68 ≠ (p == .west))
    (distinct : (field b 64 4 : Chip) ≠ s.chipId) (chosen : chooseLanes s.chainMode (field b 72 3) = some tx)
    (enough : 2 ≤ countLanes (s.phy p).good) :
    trainingSet s p b = endExchange (exchangeSets (s.setPhy p (choosesLanes s p b tx)) p b
      (setAgrees s.chainMode (s.phy p) b)) p := by
  unfold trainingSet
  rw [if_neg (beq_iff_eq.not.mpr other), setPhy_chipId, if_neg distinct, setPhy_chainMode, setPhy_self, chosen]
  dsimp only
  rw [if_neg (Nat.not_lt.mpr enough), setPhy_setPhy]
  rfl

/-- The end of the exchange moves the state of the port, and nothing of what it has exchanged. -/
theorem endExchange_effect :
    let u := s.phy p
    let v := (endExchange s p).phy p
    v.peerChip = u.peerChip ∧ v.chosenValid = u.chosenValid ∧ v.txLanes = u.txLanes ∧ v.rxLanes = u.rxLanes ∧
      v.acks = u.acks ∧ v.acksSent = u.acksSent ∧ v.sent = u.sent ∧
      v.state = (if 8 ≤ u.acks ∧ 8 ≤ u.acksSent then .deskew else u.state) ∧
      (endExchange s p).phy (opposite p) = s.phy (opposite p) ∧
      (∀ q, (endExchange s p).linkPort q = s.linkPort q) ∧ OnlyChanges [.chain] s (endExchange s p) := by
  unfold endExchange
  dsimp only
  split
  · rw [setPhy_self]
    exact ⟨rfl, rfl, rfl, rfl, rfl, rfl, rfl, rfl, setPhy_opposite p _, fun q => setPhy_linkPort p q _, setPhy_only p _⟩
  · exact ⟨rfl, rfl, rfl, rfl, rfl, rfl, rfl, rfl, rfl, fun _ => rfl, .refl _ _⟩

/-- A valid set in LANE_MAP. -/
theorem exec_trainingSet {b : BitVec 128} (on : s.isOn (portDomain p) = true) (map : (s.phy p).state = .laneMap)
    (valid : trainingSetOk b = true) : exec (.trainingSetReceive p b) s = .next (trainingSet s p b) :=
  congrArg Host.Outcome.next ((atState_on on map _).trans (if_pos valid))

/-- The own set of a port that has chosen its lanes. -/
theorem ownSet_choosesLanes (b : BitVec 128) (tx : BitVec 3) (ack : Bool) :
    (s.setPhy p (choosesLanes s p b tx)).ownSet p ack =
      packSet s.chipId (p == .west) s.chainMode (s.phy p).good tx true ack := by
  unfold State.ownSet
  rw [setPhy_self, setPhy_chipId, setPhy_chainMode]
  rfl

theorem trainingEnds : Claims.TrainingEnds := by
  intro p s on
  refine ⟨fun map b => ⟨fun invalid => ?_, fun valid => ⟨fun wrong => ?_, fun other distinct few => ?_,
    fun tx other distinct chosen enough => ?_⟩⟩, fun deskew => ?_, fun init => ?_, fun fallen => ?_⟩
  · exact congrArg Host.Outcome.next ((atState_on on map _).trans (if_neg (ne_true_of_eq_false invalid)))
  · have down : s.linkUp p = false := by simp [State.linkUp, map]
    by_cases same : b.getLsbD 68 = (p == .west)
    · exact ⟨_, (exec_trainingSet on map valid).trans (congrArg _ (trainingSet_miswired same)),
        trainFail_restarts down rfl rfl rfl rfl,
        fun _ => (trainFail_notes (u := { metPeer s p b with wiring := true }) down rfl).1, fun other => absurd same other⟩
    · exact ⟨_, (exec_trainingSet on map valid).trans (congrArg _ (trainingSet_sameChip same (wrong.resolve_left same))),
        trainFail_restarts down rfl rfl rfl rfl, fun miswired => absurd miswired same,
        fun _ => (trainFail_notes (u := { metPeer s p b with idClash := true }) down rfl).2⟩
  · exact ⟨_, (exec_trainingSet on map valid).trans (congrArg _ (trainingSet_fewLanes other distinct few)),
      trainFail_restarts (by simp [State.linkUp, map]) rfl rfl rfl rfl⟩
  · refine ⟨_, (exec_trainingSet on map valid).trans (congrArg _ (trainingSet_chosen other distinct chosen enough)), ?_⟩
    obtain ⟨rx, code, exchanged⟩ := exchangeSets_effect (s := s.setPhy p (choosesLanes s p b tx)) (p := p) b
      (setAgrees s.chainMode (s.phy p) b)
    rw [exchanged, setPhy_setPhy, setPhy_self, ownSet_choosesLanes]
    generalize heard : PhyPort.mk .. = u
    obtain ⟨chip, valid, txLanes, rxLanes, acks, acksSent, sent, state, opp, links, only⟩ :=
      endExchange_effect (s := s.setPhy p u) (p := p)
    rw [setPhy_self] at chip valid txLanes rxLanes acks acksSent sent state
    rw [chip, valid, txLanes, rxLanes, acks, acksSent, sent, state]
    subst heard
    exact ⟨rfl, rfl, rfl, rfl, rfl, rfl, by simp only [choosesLanes, metPeer, map], rfl, opp.trans (setPhy_opposite p _),
      fun q => (links q).trans (setPhy_linkPort p q _), (setPhy_only p _).trans only⟩
  · have fails := trainFail_restarts (s := s) (p := p) (u := s.phy p) (by simp [State.linkUp, deskew]) rfl rfl rfl rfl
    rw [setPhy_phy] at fails
    exact ⟨_, congrArg Host.Outcome.next (atState_on on deskew _), fails⟩
  · have anew := enterDetect_trainsAnew (s := s) (t := s.setLinkPort p { s.linkPort p with initFail := true }) (p := p)
      (failed := false) (by simp [State.linkUp, init]) (by simp) (by simp) (by simp) (by simp) (by simp)
      (setLinkPort_opposite p _) (by simp) (setLinkPort_only p _)
    rw [setLinkPort_self] at anew
    exact ⟨_, congrArg Host.Outcome.next (atState_on on init _), anew⟩
  · exact ⟨_, congrArg Host.Outcome.next (atState_on on fallen _),
      enterDetect_restarts (by simp [State.linkUp, fallen])⟩

end
end Sys2Proof.Machine
end

section
/-! Lock, sparing and the loss of a link (R255, R257, R258, R278). -/
namespace Sys2Proof.Machine
open Sys2Proof

/-! ## A link declared down (R278) -/

section
variable {s t u : State} {p : PortId}

/-- What a port holds of flits: those unacknowledged, in transit, and of this chip. -/
def flitsHeld (l : LinkPort) : List (BitVec 12 × DataFlit) × List TransitFlit × List DataFlit :=
  (l.replayBuf, l.transit, l.own)

/-- Port `p` is cut off: it reaches no chip and holds no flit, and only the link layer and the ring have changed. -/
structure CutOff (p : PortId) (s t : State) : Prop where
  phy   : ∀ q, t.phy q = s.phy q
  cfg   : ∀ q, t.portCfg q = s.portCfg q
  table : t.distTable p = 0
  held  : flitsHeld (t.linkPort p) = ([], [], [])
  only  : OnlyChanges [.chain] s t

/-- Writes of the ring that leave the records of both ports alone keep a port cut off. -/
theorem CutOff.setChain (h : CutOff p s t) {u : ChainUnit} (ports : ∀ q, (t.setChain u).phy q = t.phy q ∧
    (t.setChain u).portCfg q = t.portCfg q ∧ (t.setChain u).distTable q = t.distTable q ∧
    (t.setChain u).linkPort q = t.linkPort q) : CutOff p s (t.setChain u) := by
  obtain ⟨-, -, table, link⟩ := ports p
  refine ⟨fun q => ?_, fun q => ?_, table.trans h.table, by rw [link, h.held], h.only.trans (setChain_only u)⟩
  · obtain ⟨phy, -⟩ := ports q
    exact phy.trans (h.phy q)
  · obtain ⟨-, cfg, -⟩ := ports q
    exact cfg.trans (h.cfg q)

theorem CutOff.setLinkPort (h : CutOff p s t) (q : PortId) (l : LinkPort)
    (empty : q = p → flitsHeld l = ([], [], [])) : CutOff p s (t.setLinkPort q l) := by
  refine ⟨fun r => (setLinkPort_phy q r l).trans (h.phy r), fun r => (setLinkPort_portCfg q r l).trans (h.cfg r),
    (setLinkPort_distTable q p l).trans h.table, ?_, h.only.trans (setLinkPort_only q l)⟩
  by_cases same : q = p
  · subst same
    rw [setLinkPort_self]
    exact empty rfl
  · have other := eq_opposite_of_ne same
    rw [other, setLinkPort_opposite, ← other]
    exact h.held

theorem CutOff.setPair (h : CutOff p s t) (c : Chip) (r : Pair) : CutOff p s (t.setPair c r) :=
  h.setChain fun q => by cases q <;> exact ⟨rfl, rfl, rfl, rfl⟩

theorem CutOff.strand (h : CutOff p s t) (d : DataFlit) : CutOff p s (strand t d) :=
  h.setChain fun q => by cases q <;> exact ⟨rfl, rfl, rfl, rfl⟩

theorem CutOff.freeCredits (h : CutOff p s t) (q : PortId) (d : DataFlit) : CutOff p s (freeCredits t q d) :=
  h.setLinkPort q _ fun same => by subst same; exact h.held

/-- No route leads through a port that reaches no chip (R280). -/
theorem route_ne_of_empty (empty : s.distTable p = 0) (c : Chip) : s.route c ≠ some p := by
  have none : (s.dist p c).toNat = 0 := by simp [State.dist, field, empty]
  unfold State.route
  cases p with
  | east => simp [none]
  | west =>
    simp only [none]
    split
    · exact Option.some_ne_none _ |>.symm
    · simp

theorem CutOff.originate (h : CutOff p s t) (d : DataFlit) : CutOff p s (originate t d) := by
  unfold Machine.originate
  split
  · rename_i q route
    exact h.setLinkPort q _ fun same => absurd (same ▸ route) (route_ne_of_empty h.table d.dst)
  · exact h

theorem CutOff.startSession (h : CutOff p s t) (c : Chip) : CutOff p s (startSession t c) := by
  unfold Machine.startSession
  split
  · exact h
  · exact h.setPair c _

theorem CutOff.sendAllow (h : CutOff p s t) (c : Chip) (n : Nat) : CutOff p s (sendAllow t c n) := by
  unfold Machine.sendAllow
  dsimp only
  split
  · exact h.setPair c _
  · exact (h.setPair c _).originate _

theorem CutOff.strandQueued (h : CutOff p s t) (q : PortId) (c : Chip) : CutOff p s (strandQueued t q c) := by
  unfold Machine.strandQueued
  refine in_foldl _ _ _ (fun v d w => w.strand d) (in_foldl _ _ _ (fun v f w => ?_) (h.setLinkPort q _ fun same => ?_))
  · split
    · exact (w.strand _).freeCredits _ _
    · exact w.strand _
  · subst same
    obtain ⟨replay, transit, own⟩ : _ ∧ _ ∧ _ := by simpa [flitsHeld] using h.held
    simp [flitsHeld, replay, transit, own]

theorem CutOff.endSession (h : CutOff p s t) (c : Chip) : CutOff p s (endSession t c) :=
  ((h.setPair c {}).strandQueued .east c).strandQueued .west c

theorem CutOff.updateMembers (h : CutOff p s t) : CutOff p s (updateMembers t) := by
  unfold Machine.updateMembers
  dsimp only
  split
  · exact h
  · refine in_foldl _ _ _ (fun v c w => ?_) ?_
    · split
      · exact w
      · split
        · exact in_foldl _ _ _ (fun x n y => y.sendAllow _ n) (w.startSession _)
        · split
          · exact w.endSession _
          · exact w
    · exact h.setChain fun q => by cases q <;> exact ⟨rfl, rfl, rfl, rfl⟩

theorem CutOff.dropControl (h : CutOff p s t) (held : List TransitFlit) : CutOff p s (dropControl t p held) := by
  unfold Machine.dropControl
  refine in_foldl _ _ _ (fun v f w => ?_) h
  split
  · split
    · exact w.freeCredits _ _
    · exact w
  · exact w

theorem CutOff.rerouteOne {acc : State × List TransitFlit} (h : CutOff p s acc.1) (f : TransitFlit) :
    CutOff p s (rerouteOne p acc f).1 := by
  unfold Machine.rerouteOne
  dsimp only
  split
  · exact h.setLinkPort p _ fun _ => h.held
  · have stranded := (h.strand f.flit).setLinkPort p { (Machine.strand acc.1 f.flit).linkPort p with stranded := true }
      fun _ => (h.strand f.flit).held
    split
    · split
      · exact stranded
      · exact stranded.freeCredits _ _
    · exact stranded

/-- The distance table of a port alone is replaced. -/
def setTable (s : State) (p : PortId) (table : BitVec 64) : State :=
  match p with
  | .east => s.setChain { s.chain with eastDist := table }
  | .west => s.setChain { s.chain with westDist := table }

theorem setTable_only (p : PortId) (table : BitVec 64) : OnlyChanges [.chain] s (setTable s p table) := by
  cases p <;> exact setChain_only _

theorem setDist_eq (p : PortId) (table : BitVec 64) :
    setDist s p table = updateMembers (setTable s p (table &&& ~~~ place 64 (0xF : BitVec 4) (4 * s.chipId.toNat))) := by
  cases p <;> rfl

/-- A port whose table and queues are cleared is cut off, whatever becomes of the sessions that its table carried. -/
theorem CutOff.setDist (phy : ∀ q, t.phy q = s.phy q) (cfg : ∀ q, t.portCfg q = s.portCfg q)
    (held : flitsHeld (t.linkPort p) = ([], [], [])) (only : OnlyChanges [.chain] s t) : CutOff p s (setDist t p 0) := by
  rw [setDist_eq, show (0 : BitVec 64) &&& _ = 0 from BitVec.zero_and]
  refine CutOff.updateMembers ⟨fun q => ?_, fun q => ?_, ?_, ?_, only.trans (setTable_only p 0)⟩
  · rw [← phy q]
    cases p <;> cases q <;> rfl
  · rw [← cfg q]
    cases p <;> cases q <;> rfl
  · cases p <;> rfl
  · rw [← held]
    cases p <;> rfl

theorem CutOff.setResend (h : CutOff p s t) (b : Bool) : CutOff p s (t.setChain { t.chain with resendCtrl := b }) :=
  h.setChain fun q => by cases q <;> exact ⟨rfl, rfl, rfl, rfl⟩

/-- A declaration cuts the port off and raises its link-down level. -/
theorem declareDown_cutOff (s : State) (p : PortId) :
    ∃ t, CutOff p s t ∧ declareDown s p = setLevel t (downSource p) true := by
  have rerouted (l : List TransitFlit) {t : State} (h : CutOff p s t) : CutOff p s (l.foldl (rerouteOne p) (t, [])).1 :=
    in_foldl_fst _ _ _ (fun _ f w => w.rerouteOne f) h
  refine ⟨_, CutOff.setResend ((rerouted _ ((CutOff.setDist ?_ ?_ ?_ ?_).dropControl _)).setLinkPort (opposite p) _
    fun same => absurd same (opposite_ne p)) true, rfl⟩
  · simp
  · simp
  · cases p <;> rfl
  · exact (setLinkPort_only p _).trans (setLinkPort_only (opposite p) _)

/-- The link of a port is gone: it reaches no chip, its link-down level is 1, and none of its flits is left. -/
def LinkGone (p : PortId) (t : State) : Prop :=
  t.distTable p = 0 ∧ t.level (downSource p) = true ∧
    (t.linkPort p).replayBuf = [] ∧ (t.linkPort p).transit = [] ∧ (t.linkPort p).own = []

/-- What reads alike of a port reads its link as gone alike. -/
theorem LinkGone.congr (h : LinkGone p t) (table : u.distTable p = t.distTable p) (link : u.linkPort p = t.linkPort p)
    (sys : u.sys = t.sys) : LinkGone p u := by
  unfold LinkGone State.level
  rw [table, link, sys]
  exact h

theorem declareDown_effect (canonical : CanonicalSys s.sys) :
    let t := declareDown s p
    (∀ q, t.phy q = s.phy q) ∧ (∀ q, t.portCfg q = s.portCfg q) ∧ LinkGone p t ∧
      OnlyChanges [.chain, .sys, .pwr] s t := by
  obtain ⟨t, cut, declared⟩ := declareDown_cutOff s p
  have only := setLevel_only t (downSource p) true
  have chain : (setLevel t (downSource p) true).chain = t.chain := only .chain (by decide)
  have canonical' : CanonicalSys t.sys := by
    rw [show t.sys = s.sys from cut.only .sys (by decide)]
    exact canonical
  obtain ⟨replay, transit, own⟩ : _ ∧ _ ∧ _ := by simpa [flitsHeld] using cut.held
  rw [declared]
  refine ⟨fun q => (phy_congr chain q).trans (cut.phy q), fun q => (portCfg_congr chain q).trans (cut.cfg q), ?_,
    (cut.only.mono (by decide)).trans (only.mono (by decide))⟩
  unfold LinkGone
  rw [distTable_congr chain, linkPort_congr chain]
  exact ⟨cut.table, setLevel_level canonical' _ _, replay, transit, own⟩

end

/-! ## UP, LOCK_LOST and DOWN (R255, R257) -/

section
variable {s t : State} {p : PortId}

/-- What stands where the physical layer of one port alone is written. -/
theorem setPhy_frame (p : PortId) (u : PhyPort) : (s.setPhy p u).phy (opposite p) = s.phy (opposite p) ∧
    (∀ q, (s.setPhy p u).linkPort q = s.linkPort q) ∧ OnlyChanges [.chain] s (s.setPhy p u) :=
  ⟨setPhy_opposite p u, fun q => setPhy_linkPort p q u, setPhy_only p u⟩

/-- The physical layer of a port that arrives at UP. -/
def upPort (u : PhyPort) : PhyPort := { u with state := .up, ups := satInc u.ups, downTicks := 0 }

/-- The physical layer of a port that enters LOCK_LOST. -/
def lockLostPort (u : PhyPort) : PhyPort :=
  { u with
    state := .lockLost, lockLostEv := true, lockLosses := satInc u.lockLosses, downTicks := 0, spareReq := none
    markers := [], mcounts := [] }

theorem enterLockLost_eq : enterLockLost s p = s.setPhy p (lockLostPort (s.phy p)) := rfl

theorem enterUp_effect (canonical : CanonicalSys s.sys) :
    let t := enterUp s p
    t.phy p = upPort (s.phy p) ∧ t.phy (opposite p) = s.phy (opposite p) ∧ (∀ q, t.linkPort q = s.linkPort q) ∧
      t.level (downSource p) = false ∧ OnlyChanges [.chain, .sys, .pwr] s t := by
  have only := setLevel_only (s.setPhy p (upPort (s.phy p))) (downSource p) false
  have chain : (enterUp s p).chain = (s.setPhy p (upPort (s.phy p))).chain := only .chain (by decide)
  exact ⟨(phy_congr chain p).trans (setPhy_self p _), (phy_congr chain _).trans (setPhy_opposite p _),
    fun q => (linkPort_congr chain q).trans (setPhy_linkPort p q _),
    setLevel_level (by rw [setPhy_sys]; exact canonical) _ _,
    ((setPhy_only p _).mono (by decide)).trans (only.mono (by decide))⟩

theorem enterDown_effect (canonical : CanonicalSys s.sys) :
    let t := enterDown s p
    (t.phy p).state = .down ∧ t.phy (opposite p) = s.phy (opposite p) ∧ LinkGone p t ∧
      OnlyChanges [.chain, .sys, .pwr] s t := by
  obtain ⟨phy, -, gone, only⟩ := declareDown_effect (p := p) canonical
  unfold enterDown
  generalize declareDown s p = t at phy gone only
  refine ⟨by rw [setPhy_self], (setPhy_opposite p _).trans (phy _),
    gone.congr (setPhy_distTable p p _) (setPhy_linkPort p p _) (setPhy_sys p _),
    only.trans ((setPhy_only p _).mono (by decide))⟩

/-! ## The loss of a lane (R257, R258) -/

/-- The physical layer of a port of which a lane has lost its lock. -/
def laneGone (u : PhyPort) (lane : Nat) : PhyPort :=
  { u with
    locked := putBit u.locked lane false, laneLost := true
    markers := Sparse.set 0 u.markers lane 0, misses := Sparse.set 0 u.misses lane 0 }

/-- A data lane lost in UP is spared by the standing spare (R258). -/
theorem loseLane_spared {lane k : Nat} (up : (s.phy p).state = .up) (locked : (s.phy p).locked.getLsbD lane = true)
    (used : (s.phy p).rxLanes.getLsbD lane = true) (role : laneRole s.chainMode lane = some k)
    (spare : standingSpare s.chainMode (s.phy p) = true) : loseLane s p lane = s.setPhy p
      { laneGone (s.phy p) lane with state := .sparing, spareReq := some (BitVec.ofNat 2 k) } := by
  unfold loseLane
  simp only [locked, used, up, role, spare, Bool.not_true, Bool.false_eq_true, if_false, if_true]
  rw [setPhy_setPhy]
  rfl

/-- Any other lane in use lost in UP takes the port to LOCK_LOST (R257). -/
theorem loseLane_lost {lane : Nat} (up : (s.phy p).state = .up) (locked : (s.phy p).locked.getLsbD lane = true)
    (used : (s.phy p).rxLanes.getLsbD lane = true)
    (unspared : laneRole s.chainMode lane = none ∨ standingSpare s.chainMode (s.phy p) = false) :
    loseLane s p lane = s.setPhy p (lockLostPort (laneGone (s.phy p) lane)) := by
  unfold loseLane
  simp only [locked, used, up, Bool.not_true, Bool.false_eq_true, if_false, if_true]
  split
  · rename_i role spare
    rcases unspared with none | free
    · exact absurd (role.symm.trans none) (Option.some_ne_none _)
    · exact absurd spare (ne_true_of_eq_false free)
  · rw [enterLockLost_eq, setPhy_setPhy, setPhy_self]
    rfl

theorem exec_laneLockLoss {lane : BitVec 2} (on : s.isOn (portDomain p) = true) (small : lane.toNat < 3) :
    exec (.laneLockLoss p lane) s = .next (loseLane s p lane.toNat) :=
  congrArg Host.Outcome.next (if_pos (by rw [on, decide_eq_true small]; rfl))

/-! ## Markers (R254, R257) -/

/-- The physical layer of a port that has received a valid marker on a lane. -/
def marked (u : PhyPort) (lane : Nat) (b : BitVec 128) : PhyPort :=
  noteMarker (takeBlock u lane b) lane (field b 80 16 : BitVec 16).toNat

theorem exec_markerBlock {lane : BitVec 2} {b : BitVec 128} (takes : s.takesMarkers p = true) (small : lane.toNat < 3)
    (valid : markerOk lane.toNat b = true) : exec (.markerBlock p lane b) s =
      .next (validMarker (s.setPhy p (takeBlock (s.phy p) lane.toNat b)) p lane.toNat b) :=
  congrArg Host.Outcome.next ((if_pos (by rw [takes, decide_eq_true small]; rfl)).trans (if_pos valid))

/-- The link layer of a port that begins LINK_INIT. -/
def initBegun (l : LinkPort) : LinkPort :=
  { l with initSeen := false, echoes := 0, bestDelay := none, echoDue := [], initWait := 0 }

theorem validMarker_deskew {lane : Nat} {b : BitVec 128} (deskew : (s.phy p).state = .deskew)
    (all : aligned (marked (s.phy p) lane b) (field b 80 16 : BitVec 16).toNat = true) :
    validMarker (s.setPhy p (takeBlock (s.phy p) lane b)) p lane b =
      (s.setPhy p { marked (s.phy p) lane b with state := .linkInit }).setLinkPort p (initBegun (s.linkPort p)) := by
  unfold validMarker
  rw [setPhy_self]
  have state : (noteMarker (takeBlock (s.phy p) lane b) lane (field b 80 16 : BitVec 16).toNat).state = .deskew := deskew
  dsimp only
  rw [state]
  refine (if_pos all).trans ?_
  rw [setPhy_setPhy, setPhy_setPhy, setPhy_linkPort, setPhy_linkPort]
  rfl

theorem validMarker_lockLost {lane : Nat} {b : BitVec 128} (lost : (s.phy p).state = .lockLost)
    (all : aligned (marked (s.phy p) lane b) (field b 80 16 : BitVec 16).toNat = true) :
    validMarker (s.setPhy p (takeBlock (s.phy p) lane b)) p lane b =
      enterUp (s.setPhy p (marked (s.phy p) lane b)) p := by
  unfold validMarker
  rw [setPhy_self]
  have state : (noteMarker (takeBlock (s.phy p) lane b) lane (field b 80 16 : BitVec 16).toNat).state = .lockLost := lost
  dsimp only
  rw [state]
  refine (if_pos all).trans ?_
  rw [setPhy_setPhy]
  rfl

theorem lockAndDown : Claims.LockAndDown := by
  intro p s canonical on lost frame
  refine ⟨fun up lane small locked used => ?_, fun sparing => ?_, fun lane b small valid all => ⟨fun deskew => ?_,
    fun lockLost => ?_⟩, fun lockLost => ⟨fun early => ?_, fun due => ?_⟩⟩
  · by_cases unspared : laneRole s.chainMode lane.toNat = none ∨ standingSpare s.chainMode (s.phy p) = false
    · refine ⟨_, (exec_laneLockLoss on small).trans (congrArg _ (loseLane_lost up locked used unspared)), ?_, ?_,
        fun k role spare => ?_, fun _ => ?_, setPhy_frame p _⟩
      · rw [setPhy_self]; rfl
      · rw [setPhy_self]; rfl
      · rcases unspared with none | free
        · exact absurd (role.symm.trans none) (Option.some_ne_none _)
        · exact absurd spare (ne_true_of_eq_false free)
      · rw [setPhy_self]; exact ⟨rfl, rfl, rfl, rfl⟩
    · obtain ⟨role, spare⟩ := not_or.mp unspared
      obtain ⟨k, role⟩ := Option.ne_none_iff_exists'.mp role
      have spared := loseLane_spared up locked used role (by simpa using spare)
      refine ⟨_, (exec_laneLockLoss on small).trans (congrArg _ spared), ?_, ?_, fun j other _ => ?_,
        fun lost => absurd lost unspared, setPhy_frame p _⟩
      · rw [setPhy_self]; rfl
      · rw [setPhy_self]; rfl
      · obtain rfl : k = j := Option.some.inj (role.symm.trans other)
        rw [setPhy_self]
        exact ⟨rfl, rfl⟩
  · exact ⟨_, congrArg Host.Outcome.next (atState_on on sparing _), by
      rw [enterLockLost_eq, setPhy_self]; exact ⟨rfl, rfl, rfl, rfl⟩, setPhy_frame p _⟩
  · have takes : s.takesMarkers p = true := by unfold State.takesMarkers; rw [on, deskew]; rfl
    refine ⟨_, (exec_markerBlock takes small valid).trans (congrArg _ (validMarker_deskew deskew all)), ?_, ?_, ?_, ?_,
      (setPhy_only p _).trans (setLinkPort_only p _)⟩
    · rw [setLinkPort_phy, setPhy_self]
    · exact setLinkPort_self p _
    · exact (setLinkPort_opposite p _).trans (setPhy_linkPort p _ _)
    · exact (setLinkPort_phy p _ _).trans (setPhy_opposite p _)
  · have takes : s.takesMarkers p = true := by unfold State.takesMarkers; rw [on, lockLost]; rfl
    obtain ⟨phy, -, -, level, only⟩ := enterUp_effect (s := s.setPhy p (marked (s.phy p) lane.toNat b)) (p := p)
      (by rw [setPhy_sys]; exact canonical)
    refine ⟨_, (exec_markerBlock takes small valid).trans (congrArg _ (validMarker_lockLost lockLost all)), ?_, ?_, ?_,
      level, ((setPhy_only p _).mono (by decide)).trans only⟩ <;> rw [phy, setPhy_self] <;> rfl
  · exact congrArg Host.Outcome.next ((atState_on on lockLost _).trans (if_neg (Nat.not_le.mpr early)))
  · obtain ⟨state, other, ⟨table, level, replay, transit, own⟩, only⟩ := enterDown_effect (p := p) canonical
    exact ⟨_, congrArg Host.Outcome.next ((atState_on on lockLost _).trans (if_pos due)), state, other, table, replay,
      transit, own, level, only⟩

end
end Sys2Proof.Machine
end

section
/-! CHAIN_CONFIG (R225) and the initialisation of a link (R271). -/
namespace Sys2Proof.Machine
open Sys2Proof

/-! ## Entering DETECT and DISABLED (R255) -/

section
variable {s t : State} {p : PortId}

theorem declareIfUp_effect (canonical : CanonicalSys s.sys) :
    let t := declareIfUp s p
    (∀ q, t.phy q = s.phy q) ∧ (∀ q, t.portCfg q = s.portCfg q) ∧ (s.linkUp p = true → LinkGone p t) ∧
      OnlyChanges [.chain, .sys, .pwr] s t := by
  unfold declareIfUp
  split
  · obtain ⟨phy, cfg, gone, only⟩ := declareDown_effect (p := p) canonical
    exact ⟨phy, cfg, fun _ => gone, only⟩
  · exact ⟨fun _ => rfl, fun _ => rfl, fun up => absurd up ‹_›, .refl _ _⟩

/-- A port with no lane in use, locked, received well, or with signal. -/
def Bare (u : PhyPort) : Prop := u.rxLanes = 0 ∧ u.txLanes = 0 ∧ u.signal = 0 ∧ u.locked = 0 ∧ u.good = 0

/-- What CHAIN_CONFIG does to a port that it takes to state `st`: the port starts bare, its link is declared down when it
was up, and the configuration and the other port stand. -/
structure Restarted (p : PortId) (st : PhyState) (s t : State) : Prop where
  state    : (t.phy p).state = st
  bare     : Bare (t.phy p)
  cfg      : ∀ q, t.portCfg q = s.portCfg q
  other    : t.phy (opposite p) = s.phy (opposite p)
  declared : s.linkUp p = true → LinkGone p t
  only     : OnlyChanges [.chain, .sys, .pwr] s t

/-- A port left bare after the declaration of its link. -/
theorem restarted_of_bare {u : PhyPort} {st : PhyState} (canonical : CanonicalSys s.sys) (state : u.state = st)
    (bare : Bare u) : Restarted p st s (refreshRetimer ((declareIfUp s p).setPhy p u)) := by
  obtain ⟨phy, cfg, gone, only⟩ := declareIfUp_effect (p := p) canonical
  generalize declareIfUp s p = t at phy cfg gone only
  refine ⟨by simpa using state, by simpa using bare, fun q => by simpa using cfg q, by simpa using phy _, fun up => ?_,
    (only.trans ((setPhy_only p _).mono (by decide))).trans (refreshRetimer_only.mono (by decide))⟩
  exact (gone up).congr (by simp) (by simp) (by simp)

theorem enterDetect_effect (canonical : CanonicalSys s.sys) : Restarted p .detect s (enterDetect s p) := by
  unfold enterDetect
  exact restarted_of_bare canonical rfl ⟨rfl, rfl, rfl, rfl, rfl⟩

theorem enterDisabled_effect (canonical : CanonicalSys s.sys) : Restarted p .disabled s (enterDisabled s p) := by
  unfold enterDisabled
  exact restarted_of_bare canonical rfl ⟨rfl, rfl, rfl, rfl, rfl⟩

/-- A port in DETECT keeps the bypass retimer off (R259). -/
theorem enterDetect_retimer : (enterDetect s p).chain.retimerOn = false :=
  refreshRetimer_off (p := p) (by rw [setPhy_self]; exact PhyState.noConfusion)

/-! ## CHAIN_CONFIG (R225) -/

variable {m : BitVec 7} {c : Snap}

/-- A CHAIN_CONFIG that its mailbox holds is run by each row that its flags name. -/
theorem runChain_holds (holds : s.Holds m 0x51 c) {sel : Byte → Bool} (named : sel (snapByte c 9) = true) :
    runChain m sel s = chainConfig s m c := runTaken_holds holds named allOn_nil

theorem chainConfig_refused {st : Byte} {off : Nat} (fails : chainCheck s c = some (st, off)) :
    chainConfig s m c = finish s m (refuse st off) := by
  unfold chainConfig
  rw [fails]
  rfl

/-- The port that a CHAIN_CONFIG names. -/
def chainPort (c : Snap) : PortId := if snapField c 0x08 1 = 0 then .east else .west

theorem chainConfig_passed (passes : chainCheck s c = none)
    (on : s.allOn [dTGT, dCORE, portDomain (chainPort c)] = true) :
    let t := chainActions s (chainPort c) c
    chainConfig s m c = finish t m (chainReply t (chainPort c)) := by
  unfold chainConfig
  rw [passes]
  exact withDomains_on on _

/-- The codes of the lanes that a SET_CTLE gives. -/
def ctleCodes (c : Snap) : BitVec 12 :=
  (snapByte c 0x0E).setWidth 4 ++ (snapByte c 0x0D).setWidth 4 ++ (snapByte c 0x0C).setWidth 4

theorem chainActions_setLdt (flags : snapByte c 9 = 1) :
    chainActions s p c = s.setPortCfg p { s.portCfg p with ldtNext := snapByte c 0x0A } := by
  unfold chainActions
  rw [flags]
  rfl

theorem chainActions_setCtle (flags : snapByte c 9 = 2) :
    chainActions s p c = s.setPortCfg p { s.portCfg p with ctle := ctleCodes c } := by
  unfold chainActions
  rw [flags]
  rfl

theorem chainActions_disable (flags : snapByte c 9 = 8) : chainActions s p c = enterDisabled s p := by
  unfold chainActions
  rw [flags]
  rfl

theorem chainActions_retrain (flags : snapByte c 9 = 4) (enabled : (s.phy p).state ≠ .disabled) :
    chainActions s p c = enterDetect s p := by
  unfold chainActions
  rw [flags]
  exact if_pos (by simpa using enabled)

theorem chainActions_enable (flags : snapByte c 9 = 16) (disabled : (s.phy p).state = .disabled) :
    chainActions s p c = enterDetect s p := by
  unfold chainActions
  rw [flags]
  show (if (s.phy p).state == .disabled then enterDetect s p else s) = _
  rw [disabled]
  rfl

/-- Depositing a reply leaves what CHAIN_CONFIG tells of a port. -/
theorem chainReply_finish (r : Reply) : chainReply (finish s m r) p = chainReply s p := by
  cases p <;> rfl

/-- A CHAIN_CONFIG that passes its checks is answered with the port as its action leaves it. -/
theorem chainConfig_answered {u : State} (mbx : CanonicalMbx s.mbx) (passes : chainCheck s c = none)
    (on : s.allOn [dTGT, dCORE, portDomain (chainPort c)] = true) (acts : chainActions s (chainPort c) c = u)
    (only : OnlyChanges [.chain, .sys, .pwr] s u) :
    ∃ t, chainConfig s m c = t ∧ t.chain = u.chain ∧ t.sys = u.sys ∧ Answered m (chainReply t (chainPort c)) s t ∧
      OnlyChanges [.mbx] u t := by
  subst acts
  refine ⟨_, chainConfig_passed passes on, rfl, rfl, ?_, finish_only _ _⟩
  rw [chainReply_finish]
  exact finish_answered mbx (only .mbx (by decide)) m _

theorem Restarted.congr {st : PhyState} {u : State} (h : Restarted p st s u) (chain : t.chain = u.chain)
    (sys : t.sys = u.sys) : (t.phy p).state = st ∧ Bare (t.phy p) ∧ (∀ q, t.portCfg q = s.portCfg q) ∧
      t.phy (opposite p) = s.phy (opposite p) ∧ (s.linkUp p = true → LinkGone p t) := by
  have phy := phy_congr chain
  refine ⟨by rw [phy, h.state], by rw [phy]; exact h.bare, fun q => (portCfg_congr chain q).trans (h.cfg q),
    (phy _).trans h.other, fun up => (h.declared up).congr (distTable_congr chain p) (linkPort_congr chain p) sys⟩

/-- What stands where the configuration of one port alone is written. -/
theorem portCfg_written {cfg : PortCfg} (chain : t.chain = (s.setPortCfg p cfg).chain) :
    t.portCfg p = cfg ∧ (∀ q, t.phy q = s.phy q) ∧ (∀ q, t.linkPort q = s.linkPort q) ∧
      t.portCfg (opposite p) = s.portCfg (opposite p) :=
  ⟨(portCfg_congr chain p).trans (setPortCfg_self p _), fun q => (phy_congr chain q).trans (setPortCfg_phy p q _),
    fun q => (linkPort_congr chain q).trans (setPortCfg_linkPort p q _),
    (portCfg_congr chain _).trans (setPortCfg_opposite p _)⟩

theorem chainConfigured : Claims.ChainConfigured := by
  intro m c s mbx sys holds p other declared bare
  have run {sel : Byte → Bool} (named : sel (snapByte c 9) = true) {t : State} (config : chainConfig s m c = t) :
      (.next (runChain m sel s) : Host.Outcome State Fault Refusal) = .next t :=
    congrArg Host.Outcome.next ((runChain_holds holds named).trans config)
  refine ⟨fun st off fails => ?_, fun passes on => ?_⟩
  · intro no
    have refused {i : Instr} (config : exec i s = .next (finish s m (refuse st off))) : no i := reply_only mbx config
    have config := chainConfig_refused (m := m) fails
    exact ⟨fun flags => refused (run (by simpa using flags) config), fun flag => refused (run flag config),
      fun flag => refused (run flag config), fun flag => refused (run flag config), fun flag => refused (run flag config)⟩
  · have answered {u : State} (acts : chainActions s p c = u) (only : OnlyChanges [.chain, .sys, .pwr] s u) :=
      chainConfig_answered (m := m) mbx passes on acts only
    have written (cfg : PortCfg) : OnlyChanges [.chain, .sys, .pwr] s (s.setPortCfg p cfg) :=
      (setPortCfg_only p cfg).mono (by decide)
    have detects := enterDetect_effect (p := p) sys
    have disables := enterDisabled_effect (p := p) sys
    refine ⟨fun flags => ?_, fun flags => ?_, fun flags => ?_, fun flags enabled => ?_, fun flags disabled => ?_⟩
    · obtain ⟨t, config, chain, -, reply, only⟩ := answered (chainActions_setLdt flags) (written _)
      obtain ⟨cfg, phy, link, opp⟩ := portCfg_written chain
      exact ⟨t, run (by rw [flags]; rfl) config, cfg, phy, link, ⟨phy _, opp⟩, reply,
        ((setPortCfg_only p _).mono (by decide)).trans (only.mono (by decide))⟩
    · obtain ⟨t, config, chain, -, reply, only⟩ := answered (chainActions_setCtle flags) (written _)
      obtain ⟨cfg, phy, link, opp⟩ := portCfg_written chain
      exact ⟨t, run (by rw [flags]; rfl) config, cfg, phy, link, ⟨phy _, opp⟩, reply,
        ((setPortCfg_only p _).mono (by decide)).trans (only.mono (by decide))⟩
    · obtain ⟨t, config, chain, sys', reply, only⟩ := answered (chainActions_disable flags) disables.only
      obtain ⟨state, free, cfg, opp, gone⟩ := disables.congr chain sys'
      exact ⟨t, run (by rw [flags]; rfl) config, state, free, cfg p, ⟨opp, cfg _⟩, gone, reply,
        (disables.only.mono (by decide)).trans (only.mono (by decide))⟩
    · obtain ⟨t, config, chain, sys', reply, only⟩ := answered (chainActions_retrain flags enabled) detects.only
      obtain ⟨state, free, cfg, opp, gone⟩ := detects.congr chain sys'
      exact ⟨t, run (by rw [flags]; rfl) config, state, free, cfg p, ⟨opp, cfg _⟩, gone,
        (congrArg ChainUnit.retimerOn chain).trans enterDetect_retimer, reply,
        (detects.only.mono (by decide)).trans (only.mono (by decide))⟩
    · obtain ⟨t, config, chain, sys', reply, only⟩ := answered (chainActions_enable flags disabled) detects.only
      obtain ⟨state, free, cfg, opp, -⟩ := detects.congr chain sys'
      exact ⟨t, run (by rw [flags]; rfl) config, state, free, cfg p, ⟨opp, cfg _⟩,
        (congrArg ChainUnit.retimerOn chain).trans enterDetect_retimer, reply,
        (detects.only.mono (by decide)).trans (only.mono (by decide))⟩

/-! ## The initialisation of a link (R251, R266, R271) -/

/-- A word received moves the decoders of its lanes, and nothing else of the port (R251). -/
theorem takeWord_rxCode (mode : BitVec 2) (u : PhyPort) (f : Flit) : ∃ c, takeWord mode u f = { u with rxCode := c } :=
  foldl_rxCode (fun u l => by
    split
    · exact ⟨_, rfl⟩
    · exact ⟨u.rxCode, rfl⟩) _ u

variable {f : Flit} {type : BitVec 3} {k : State → State}

theorem receives_linkInit (on : s.isOn (portDomain p) = true) (init : (s.phy p).state = .linkInit) :
    s.receives p = true := by
  unfold State.receives
  rw [on, init]
  rfl

/-- A flit that fails its check is counted, once its word has passed the decoders. -/
theorem onFlit_bad (receives : s.receives p = true) (bad : flitGood f = false) :
    onFlit s p f type k = badFlit (hearWord s p f) p := by
  unfold onFlit
  rw [receives, bad]
  rfl

theorem onFlit_good (receives : s.receives p = true) (good : flitGood f = true) (sort : flitType f = type) :
    onFlit s p f type k = k (hearWord s p f) := by
  unfold onFlit
  rw [receives, good]
  exact if_pos sort

/-- A word heard moves none of the port's state, its peer and its count of arrivals at UP. -/
theorem hearWord_kept :
    let u := (hearWord s p f).phy p
    u.state = (s.phy p).state ∧ u.peerChip = (s.phy p).peerChip ∧ u.ups = (s.phy p).ups := by
  obtain ⟨c, heard⟩ := takeWord_rxCode s.chainMode (s.phy p) f
  unfold hearWord
  rw [setPhy_self, heard]
  exact ⟨rfl, rfl, rfl⟩

/-- In LINK_INIT a bad flit makes no NAK due. -/
theorem badFlit_linkInit (init : (s.phy p).state = .linkInit) :
    badFlit s p = s.setLinkPort p { s.linkPort p with crcErrors := satInc (s.linkPort p).crcErrors, crcError := true } := by
  have down : s.linkUp p = false := by simp [State.linkUp, init]
  simp only [badFlit, down, Bool.false_and, Bool.or_false]

/-- The link layer of a port whose initialisation completes. -/
def linkStarted (l : LinkPort) : LinkPort :=
  { l with
    nextSeq := 0, expected := 0, lastAcked := 0xFFF, replayBuf := [], replayLeft := 0, consumed := {}
    returned := {}, freed := {}, nakSent := false, nakDue := false, linkDue := false, echoDue := [], sinceLink := 0 }

theorem upSource_defined (p : PortId) : sysDefined (upSource p) = true := by cases p <;> decide

/-- The arrival at UP takes no domain from ON and brings none to it. -/
theorem enterUp_isOn (canonical : CanonicalPwr s.pwr) (d : Nat) : (enterUp s p).isOn d = s.isOn d := by
  have pwr : (s.setPhy p (upPort (s.phy p))).pwr = s.pwr := setPhy_pwr p _
  obtain ⟨raised, -⟩ := setLevel_isOn (s := s.setPhy p (upPort (s.phy p))) (by rw [pwr]; exact canonical) (downSource p)
    d false
  exact raised.trans (isOn_congr pwr d)

/-- The completion of the initialisation brings the port to UP and raises its source. -/
theorem completeInit_effect (coherent : Coherent s) :
    let t := completeInit s p
    t.phy p = upPort (s.phy p) ∧ t.linkPort p = linkStarted (s.linkPort p) ∧
      t.linkPort (opposite p) = s.linkPort (opposite p) ∧ t.phy (opposite p) = s.phy (opposite p) ∧
      t.level (downSource p) = false ∧ (s.isOn dCORE = true → (t.latch (upSource p)).arrival = true) ∧
      OnlyChanges [.chain, .sys, .pwr] s t := by
  have started : completeInit s p =
      raiseSource (enterUp (s.setLinkPort p (linkStarted (s.linkPort p))) p) (upSource p) := rfl
  have kept : Kept s.pending (enterUp (s.setLinkPort p (linkStarted (s.linkPort p))) p) :=
    enterUp_keeps _ _ (State.setLinkPort_keeps _ _ _ ⟨coherent, rfl⟩)
  have served : (enterUp (s.setLinkPort p (linkStarted (s.linkPort p))) p).isOn dCORE = s.isOn dCORE :=
    (enterUp_isOn (by rw [setLinkPort_pwr]; exact coherent.pwrCanonical) _).trans (isOn_congr (setLinkPort_pwr p _) _)
  obtain ⟨phy, other, link, level, only⟩ :=
    enterUp_effect (s := s.setLinkPort p (linkStarted (s.linkPort p))) (p := p)
      (by rw [setLinkPort_sys]; exact coherent.sysCanonical)
  rw [started]
  generalize enterUp (s.setLinkPort p (linkStarted (s.linkPort p))) p = t at kept served phy other link level only
  have raised := raiseSource_only t (upSource p)
  have chain : (raiseSource t (upSource p)).chain = t.chain := raised .chain (by decide)
  refine ⟨?_, ?_, ?_, ?_, ?_, fun core => ?_,
    (((setLinkPort_only p _).mono (by decide)).trans only).trans (raised.mono (by decide))⟩
  · rw [phy_congr chain, phy, setLinkPort_phy]
  · rw [linkPort_congr chain, link, setLinkPort_self]
  · rw [linkPort_congr chain, link, setLinkPort_opposite]
  · rw [phy_congr chain, other, setLinkPort_phy]
  · unfold State.level at level ⊢
    rw [raiseSource_levels, level]
  · exact (raiseSource_effect kept.sysCanonical (upSource_defined p) (served.trans core)).1

/-- A port in LINK_INIT takes the credits of a peer's INIT, and owes an echo of any. -/
theorem exec_init (receives : s.receives p = true) (init : (s.phy p).state = .linkInit) (good : flitGood f = true)
    (sort : flitType f = 4) (turn : W32) :
    let l := s.linkPort p
    let adv := unpackCredits (field f 176 72)
    let peer := decide ((field f 249 4 : Chip) = (s.phy p).peerChip)
    exec (.init p f turn) s = .next (if creditsLegal adv then (hearWord s p f).setLinkPort p { l with
      echoDue := l.echoDue ++ [(field f 128 32, turn)], initSeen := l.initSeen || peer
      advertised := if peer then adv else l.advertised } else hearWord s p f) := by
  obtain ⟨state, chip, -⟩ := hearWord_kept (s := s) (p := p) (f := f)
  have link : (hearWord s p f).linkPort p = s.linkPort p := setPhy_linkPort p p _
  refine congrArg Host.Outcome.next ((onFlit_good receives good sort).trans ?_)
  dsimp only
  rw [state, init, chip, link, beq_self_eq_true, Bool.true_and]
  by_cases peer : (field f 249 4 : Chip) = (s.phy p).peerChip <;> simp [peer]

/-- IDLE of the peer completes the initialisation once the own part is done (R271). -/
theorem peerDone_linkInit (init : (s.phy p).state = .linkInit) :
    peerDone s p = if ownPart (s.linkPort p) then completeInit s p else s := by
  unfold peerDone
  rw [init]
  rfl

theorem exec_idle (receives : s.receives p = true) (init : (s.phy p).state = .linkInit) (good : flitGood f = true)
    (sort : flitType f = 0) : exec (.idleFlitReceive p f) s =
      .next (if ownPart (s.linkPort p) then completeInit (hearWord s p f) p else hearWord s p f) := by
  refine congrArg Host.Outcome.next ((onFlit_good receives good sort).trans ?_)
  rw [peerDone_linkInit (hearWord_kept.1.trans init)]
  exact congrArg (fun l => if ownPart l then _ else _) (setPhy_linkPort p p _)

theorem linkInitialises : Claims.LinkInitialises := by
  intro p f s coherent on init l v
  have receives := receives_linkInit on init
  have heard : v = hearWord s p f := rfl
  have link : v.linkPort p = l := setPhy_linkPort p p _
  obtain ⟨state, -, ups⟩ := hearWord_kept (s := s) (p := p) (f := f)
  rw [← heard, init] at state
  refine ⟨fun bad turn => ?_, fun good sort turn => ⟨fun legal => ?_, fun illegal => ?_⟩, fun good sort => ?_,
    fun good sort => ⟨fun waits => ?_, fun done => ?_⟩⟩
  · refine congrArg Host.Outcome.next ((onFlit_bad receives bad).trans ?_)
    rw [← heard, badFlit_linkInit state, link]
  · exact (exec_init receives init good sort turn).trans (congrArg _ (if_pos legal))
  · exact (exec_init receives init good sort turn).trans (congrArg _ (if_neg (ne_true_of_eq_false illegal)))
  · intro arrival d least few
    refine congrArg Host.Outcome.next ((onFlit_good receives good sort).trans ?_)
    rw [← heard, link, state]
    exact if_pos (by rw [decide_eq_true few]; rfl)
  · exact (exec_idle receives init good sort).trans (congrArg _ (if_neg (ne_true_of_eq_false waits)))
  · have run : exec (.idleFlitReceive p f) s = .next (completeInit v p) :=
      (exec_idle receives init good sort).trans (congrArg _ (if_pos done))
    have kept : Kept s.pending v := State.setPhy_keeps _ _ _ ⟨coherent, rfl⟩
    obtain ⟨phy, started, other, opp, level, latch, only⟩ := completeInit_effect (p := p) kept.toCoherent
    refine ⟨_, run, by rw [phy]; rfl, ?_, ?_, ?_, ?_, level, fun core => latch ?_,
      ((setPhy_only p _).mono (by decide)).trans only⟩
    · rw [phy, heard, ← ups]; rfl
    · rw [started, link]; rfl
    · rw [other]; exact setPhy_linkPort p _ _
    · rw [opp]; exact setPhy_opposite p _
    · exact (isOn_congr (setPhy_pwr p _) _).trans core

end

/-- Settles O59: training, lock loss, CHAIN_CONFIG and the initialisation of a link, each from what one event does to the
records of its port. That a lane without a passing code shows code 0 and when two sets agree (log entry 27), that one own
set answers each set received (log entry 58), and that a return from LOCK_LOST counts as an arrival at UP (log entry 18)
are the model's choices. -/
theorem chainPorts : Obligations.ChainPorts :=
  ⟨trainingBegins, trainingEnds, lockAndDown, chainConfigured, linkInitialises⟩

end Sys2Proof.Machine
end

section
/-! The machine as a whole: its step, the outcome of every command, the queue of waiting commands, and the state after reset. -/
namespace Sys2Proof.Machine
open Sys2Proof

/-- Settles O1: a step is the case split over the queue; the idling on an empty queue is the model's choice (log entry 1). -/
theorem stepRunsFrontCommand : Obligations.StepRunsFrontCommand := by
  intro c rest s
  refine ⟨fun front => ?_, fun idle => ?_⟩
  · unfold step
    rw [front]
  · unfold step
    rw [idle]

/-- Settles O2: the meaning of each row, whatever its conditions, is the outcome `next` of some state. -/
theorem execAnswersNext : Obligations.ExecAnswersNext := by
  intro c s
  cases c <;> exact ⟨_, rfl⟩

/-- Settles O3: every command keeps coherence together with the queue that stands (the queue is the model's, log entry 2). -/
theorem execLeavesQueue : Obligations.ExecLeavesQueue := by
  intro c s t coherent run
  have kept : OutKept s.pending (exec c s) := exec_keeps c s ⟨coherent, rfl⟩
  rw [run] at kept
  exact kept.pending

/-- Settles O4: at reset every table is empty, which is canonical, and every list within its bound. -/
theorem resetCoherent : Obligations.ResetCoherent where
  sysCanonical := ⟨rfl, rfl, rfl, rfl⟩
  vecCanonical := ⟨rfl, rfl, rfl, rfl, rfl, rfl⟩
  tgtCanonical := ⟨rfl, rfl, rfl, rfl⟩
  tenCanonical := ⟨rfl, rfl, rfl⟩
  mbxCanonical := ⟨rfl⟩
  acuCanonical := ⟨rfl⟩
  chainCanonical := ⟨rfl⟩
  pwrCanonical := ⟨rfl⟩
  rasCanonical := ⟨rfl, rfl⟩
  loupeCanonical := ⟨rfl, rfl, rfl, rfl⟩
  rung := fun _ listed => nomatch listed
  fifo := by decide
  watch := by decide
  divider := by decide
  dividerNext := by decide
  records := by decide

end Sys2Proof.Machine
end

section
/-! What a port sends next (R251, R255, R267, R271, R272, R274, R276). -/
namespace Sys2Proof.Machine
open Sys2Proof

/-! ## A port's link layer after a write -/

section
variable {s t : State} (p q : PortId) (u : PhyPort) (l m : LinkPort)

@[simp] theorem setLinkPort_setLinkPort : (s.setLinkPort p l).setLinkPort p m = s.setLinkPort p m := by cases p <;> rfl
@[simp] theorem setLinkPort_linkPort : s.setLinkPort p (s.linkPort p) = s := by cases p <;> rfl
@[simp] theorem setLinkPort_chipId : (s.setLinkPort p l).chipId = s.chipId := by cases p <;> rfl

end

/-! ## The lanes (R251, R254) -/

/-- The lanes carry a word with the records of one port's physical layer, and a free read for its idle lane. -/
theorem driveLanes_eq (s : State) (p : PortId) :
    ∃ u, driveLanes s p = (s.setRas { s.ras with freeReads := s.ras.freeReads + 1 }).setPhy p u := ⟨_, rfl⟩

theorem driveLanes_effect (s : State) (p : PortId) :
    (∀ q, (driveLanes s p).linkPort q = s.linkPort q) ∧ (driveLanes s p).phy (opposite p) = s.phy (opposite p) ∧
      OnlyChanges [.chain, .ras] s (driveLanes s p) := by
  obtain ⟨u, lanes⟩ := driveLanes_eq s p
  rw [lanes]
  refine ⟨fun q => ?_, ?_, ((setRas_only _).mono (by decide)).trans ((setPhy_only p u).mono (by decide))⟩
  · rw [setPhy_linkPort]; cases q <;> rfl
  · rw [setPhy_opposite]; cases p <;> rfl

/-! ## A flit cycle, by the state of the port (R255) -/

section
variable {s : State} {p : PortId} (now : W32)

section
variable (on : s.isOn (portDomain p) = true)
include on

theorem exec_flitTransmit_deskew (deskew : (s.phy p).state = .deskew) :
    exec (.flitTransmit p now) s = .next (driveLanes (transmitDeskew s p) p) := by
  refine congrArg Host.Outcome.next ?_
  rw [on, deskew]
  rfl

theorem exec_flitTransmit_init (init : (s.phy p).state = .linkInit) :
    exec (.flitTransmit p now) s = .next (driveLanes (transmitInit s p now) p) := by
  refine congrArg Host.Outcome.next ?_
  rw [on, init]
  rfl

theorem exec_flitTransmit_up (up : s.linkUp p = true) :
    exec (.flitTransmit p now) s = .next (driveLanes (transmitUp s p now) p) := by
  have state : (s.phy p).state ≠ .deskew ∧ (s.phy p).state ≠ .linkInit := by
    constructor <;> intro h <;> simp [State.linkUp, h] at up
  refine congrArg Host.Outcome.next ?_
  rw [on, up, beq_false_of_ne state.1, beq_false_of_ne state.2]
  rfl

end

/-! ## LINK_INIT (R271) -/

theorem transmitInit_echo {probe turn : W32} {rest : List (W32 × W32)}
    (due : (s.linkPort p).echoDue = (probe, turn) :: rest) :
    transmitInit s p now = s.setLinkPort p { s.linkPort p with
      echoDue := rest, lastTx := packEcho s.chipId probe turn, initWait := (s.linkPort p).initWait - 1 } := by
  unfold transmitInit
  dsimp only
  rw [due]

theorem transmitInit_probe (none : (s.linkPort p).echoDue = []) (own : ownPart (s.linkPort p) = false)
    (turn : (s.linkPort p).initWait = 0) : transmitInit s p now = s.setLinkPort p { s.linkPort p with
      lastTx := packInit s.chipId (p == .west) now, initWait := 15 } := by
  unfold transmitInit
  dsimp only
  rw [none]
  exact if_pos ⟨turn, by rw [own]; rfl⟩

theorem transmitInit_idle (none : (s.linkPort p).echoDue = [])
    (waits : ownPart (s.linkPort p) = true ∨ (s.linkPort p).initWait ≠ 0) :
    transmitInit s p now = s.setLinkPort p { s.linkPort p with
      lastTx := idleFlit, initWait := (s.linkPort p).initWait - 1 } := by
  unfold transmitInit
  dsimp only
  rw [none]
  refine if_neg fun probe => ?_
  obtain ⟨turn, own⟩ := probe
  rcases waits with done | wait
  · rw [done] at own; exact absurd own (by decide)
  · exact wait turn

/-! ## The order of R267 on a link that is up -/

/-- What a port sends within its window: a flit in transit goes ahead of an own one (R267, R272). -/
def windowTurn (s : State) (p : PortId) : State :=
  let l := s.linkPort p
  match firstReady (mayGo l false) TransitFlit.flit [] l.transit with
  | some (t, rest) =>
    let v := sendData (s.setLinkPort p { l with transit := rest }) p t.flit
    match t.arrived with
    | some q => freeCredits v q t.flit
    | none => v
  | none =>
    match firstReady (mayGo l true) id [] l.own with
    | some (d, rest) => sendData (s.setLinkPort p { l with own := rest }) p d
    | none => s.setLinkPort p { l with lastTx := idleFlit }

theorem chooseFlit_marker {f : Flit} {since : W32} {rest : List (Flit × W32)}
    (tick : (s.linkPort p).ticks = (f, since) :: rest) : chooseFlit s p now =
      s.setLinkPort p { s.linkPort p with ticks := rest, lastTx := leavingTick f since now } := by
  unfold chooseFlit
  dsimp only
  rw [tick]

section
variable (unmarked : (s.linkPort p).ticks = [])
include unmarked

theorem chooseFlit_link (due : linkFlitDue (s.linkPort p) = true) : chooseFlit s p now =
    s.setLinkPort p { s.linkPort p with
      lastTx := packLink (s.linkPort p).nakDue ((s.linkPort p).expected - 1) (s.linkPort p).freed
      linkDue := false, nakDue := false
      nakSent := (s.linkPort p).nakSent || (s.linkPort p).nakDue, sinceLink := 0 } := by
  unfold chooseFlit
  dsimp only
  rw [unmarked]
  exact if_pos due

section
variable (quiet : linkFlitDue (s.linkPort p) = false)
include quiet

theorem chooseFlit_replay {n : BitVec 12} {d : DataFlit} (replays : 0 < (s.linkPort p).replayLeft)
    (oldest : (s.linkPort p).replayBuf[(s.linkPort p).replayBuf.length - (s.linkPort p).replayLeft]? = some (n, d)) :
    chooseFlit s p now = s.setLinkPort p { s.linkPort p with
      replayLeft := (s.linkPort p).replayLeft - 1, lastTx := packData n d } := by
  unfold chooseFlit
  dsimp only
  rw [unmarked]
  dsimp only
  rw [quiet, if_neg Bool.false_ne_true, if_pos replays, oldest]

section
variable (ended : (s.linkPort p).replayLeft = 0)
include ended

theorem chooseFlit_windowFull (full : 1024 ≤ (s.linkPort p).replayBuf.length) :
    chooseFlit s p now = s.setLinkPort p { s.linkPort p with lastTx := idleFlit } := by
  have window : windowFree (s.linkPort p) = false := decide_eq_false (by omega)
  unfold chooseFlit
  dsimp only
  rw [unmarked]
  dsimp only
  rw [quiet, if_neg Bool.false_ne_true, ended, if_neg (Nat.lt_irrefl 0), window, if_neg Bool.false_ne_true]

section
variable (room : (s.linkPort p).replayBuf.length < 1024)
include room

theorem chooseFlit_window : chooseFlit s p now = windowTurn s p := by
  have window : windowFree (s.linkPort p) = true := decide_eq_true room
  unfold chooseFlit windowTurn
  dsimp only
  rw [unmarked]
  dsimp only
  rw [quiet, if_neg Bool.false_ne_true, ended, if_neg (Nat.lt_irrefl 0), window, if_pos rfl] <;> rfl

end
end
end
end
end

/-- A port's link layer after the first transmission of a DATA flit (R272, R275). -/
def dataSent (l : LinkPort) (d : DataFlit) : LinkPort := { l with
  nextSeq := l.nextSeq + 1, replayBuf := l.replayBuf ++ [(l.nextSeq, d)], consumed := consume l.consumed d
  lastTx := packData l.nextSeq d }

theorem sendData_setLinkPort (s : State) (p : PortId) (l : LinkPort) (d : DataFlit) :
    sendData (s.setLinkPort p l) p d = s.setLinkPort p (dataSent l d) := by
  unfold sendData
  rw [setLinkPort_self, setLinkPort_setLinkPort]
  rfl

section
variable {s : State} {p : PortId} {l : LinkPort}

theorem windowTurn_transit {t : TransitFlit} {rest : List TransitFlit}
    (ready : firstReady (mayGo l false) TransitFlit.flit [] l.transit = some (t, rest)) :
    let v := s.setLinkPort p (dataSent { l with transit := rest } t.flit)
    (t.arrived = none → windowTurn (s.setLinkPort p l) p = v) ∧
      ∀ q, t.arrived = some q → windowTurn (s.setLinkPort p l) p = freeCredits v q t.flit := by
  unfold windowTurn
  rw [setLinkPort_self]
  dsimp only
  rw [ready]
  dsimp only
  rw [setLinkPort_setLinkPort, sendData_setLinkPort]
  exact ⟨fun own => by rw [own], fun q transit => by rw [transit]⟩

section
variable (noTransit : firstReady (mayGo l false) TransitFlit.flit [] l.transit = none)
include noTransit

theorem windowTurn_own {d : DataFlit} {rest : List DataFlit}
    (ready : firstReady (mayGo l true) id [] l.own = some (d, rest)) :
    windowTurn (s.setLinkPort p l) p = s.setLinkPort p (dataSent { l with own := rest } d) := by
  unfold windowTurn
  rw [setLinkPort_self]
  dsimp only
  rw [noTransit, ready]
  dsimp only
  rw [setLinkPort_setLinkPort, sendData_setLinkPort]

theorem windowTurn_idle (idle : firstReady (mayGo l true) id [] l.own = none) :
    windowTurn (s.setLinkPort p l) p = s.setLinkPort p { l with lastTx := idleFlit } := by
  unfold windowTurn
  rw [setLinkPort_self]
  dsimp only
  rw [noTransit, idle]
  exact setLinkPort_setLinkPort p _ _

end
end

theorem flitsSent : Claims.FlitsSent := by
  intro p now s on l m sends fresh
  refine ⟨fun v => driveLanes_effect v p, fun deskew => exec_flitTransmit_deskew now on deskew,
    fun init => ⟨fun probe turn rest due => ?_, fun none own turn => ?_, fun none waits => ?_⟩, fun up => ?_⟩
  · exact (exec_flitTransmit_init now on init).trans (by rw [transmitInit_echo now due])
  · exact (exec_flitTransmit_init now on init).trans (by rw [transmitInit_probe now none own turn])
  · exact (exec_flitTransmit_init now on init).trans (by rw [transmitInit_idle now none waits])
  · have counted : (s.setLinkPort p m).linkPort p = m := setLinkPort_self p m
    have run {v : State} (chosen : chooseFlit (s.setLinkPort p m) p now = v) :
        exec (.flitTransmit p now) s = .next (driveLanes v p) :=
      (exec_flitTransmit_up now on up).trans (congrArg (fun v => Host.Outcome.next (driveLanes v p)) chosen)
    have sent {l' : LinkPort} (chosen : chooseFlit (s.setLinkPort p m) p now = (s.setLinkPort p m).setLinkPort p l') :
        sends l' := run (chosen.trans (setLinkPort_setLinkPort p m l'))
    refine ⟨fun f since rest tick => sent ?_, fun unmarked due => sent ?_, fun unmarked quiet =>
      ⟨fun q d replays oldest => sent ?_, fun ended => ⟨fun full => sent ?_, fun room => ?_⟩⟩⟩
    · rw [chooseFlit_marker now (by rw [counted]; exact tick), counted]
    · rw [chooseFlit_link now (by rw [counted]; exact unmarked) (by rw [counted]; exact due), counted]
    · rw [chooseFlit_replay now (by rw [counted]; exact unmarked) (by rw [counted]; exact quiet)
        (by rw [counted]; exact replays) (by rw [counted]; exact oldest), counted]
    · rw [chooseFlit_windowFull now (by rw [counted]; exact unmarked) (by rw [counted]; exact quiet)
        (by rw [counted]; exact ended) (by rw [counted]; exact full), counted]
    · have window := chooseFlit_window now (by rw [counted]; exact unmarked) (by rw [counted]; exact quiet)
        (by rw [counted]; exact ended) (by rw [counted]; exact room)
      refine ⟨fun t rest ready => ?_, fun noTransit => ⟨fun d rest ready => run (window.trans ?_),
        fun idle => run (window.trans ?_)⟩⟩
      · obtain ⟨own, transit⟩ := windowTurn_transit (s := s) (p := p) (l := m) ready
        exact ⟨fun none => run (window.trans (own none)), fun q arrived => run (window.trans (transit q arrived))⟩
      · exact windowTurn_own (l := m) noTransit ready
      · exact windowTurn_idle (l := m) noTransit idle

end Sys2Proof.Machine
end

section
/-! A flit on a link that is up: its word is heard, and what that and a write of a port's link layer leave alone (R251, R266). -/
namespace Sys2Proof.Machine
open Sys2Proof

section
variable {s t : State} (p q : PortId) (l : LinkPort)

@[simp] theorem setPhy_pair (u : PhyPort) (c : Chip) : (s.setPhy p u).pair c = s.pair c := by cases p <;> rfl
@[simp] theorem setLinkPort_pair (c : Chip) : (s.setLinkPort p l).pair c = s.pair c :=
  pair_congr (setLinkPort_pairs p l) c
@[simp] theorem setLinkPort_dupCount : (s.setLinkPort p l).chain.dupCount = s.chain.dupCount := by cases p <;> rfl
@[simp] theorem setLinkPort_duplicate : (s.setLinkPort p l).chain.duplicate = s.chain.duplicate := by cases p <;> rfl
@[simp] theorem setLinkPort_replayRaised : (s.setLinkPort p l).chain.replayRaised = s.chain.replayRaised := by
  cases p <;> rfl
@[simp] theorem setLinkPort_isOn (d : Nat) : (s.setLinkPort p l).isOn d = s.isOn d := isOn_congr (setLinkPort_pwr p l) d
@[simp] theorem setLinkPort_of_opposite : (s.setLinkPort (opposite p) l).linkPort p = s.linkPort p := by cases p <;> rfl
@[simp] theorem setLinkPort_linkUp : (s.setLinkPort p l).linkUp q = s.linkUp q := by
  unfold State.linkUp
  rw [setLinkPort_phy]

theorem route_congr (table : ∀ q, t.distTable q = s.distTable q) (c : Chip) : t.route c = s.route c := by
  unfold State.route State.dist
  rw [table, table]

theorem isLive_congr (table : ∀ q, t.distTable q = s.distTable q) (chip : t.chipId = s.chipId) (c : Chip) :
    t.isLive c = s.isLive c := by
  unfold State.isLive
  rw [route_congr table, chip]

@[simp] theorem setLinkPort_route (c : Chip) : (s.setLinkPort p l).route c = s.route c :=
  route_congr (fun q => setLinkPort_distTable p q l) c
@[simp] theorem setLinkPort_isLive (c : Chip) : (s.setLinkPort p l).isLive c = s.isLive c :=
  isLive_congr (fun q => setLinkPort_distTable p q l) (setLinkPort_chipId p l) c

end

/-! ## The word of a flit -/

section
variable {s : State} {p : PortId} {f : Flit}

theorem receives_up (on : s.isOn (portDomain p) = true) (up : s.linkUp p = true) : s.receives p = true := by
  unfold State.receives
  rw [on, up, Bool.or_true]
  rfl

theorem hearWord_only : OnlyChanges [.chain] s (hearWord s p f) := setPhy_only p _
@[simp] theorem hearWord_linkPort (q : PortId) : (hearWord s p f).linkPort q = s.linkPort q := setPhy_linkPort p q _
@[simp] theorem hearWord_pair (c : Chip) : (hearWord s p f).pair c = s.pair c := setPhy_pair p _ c
@[simp] theorem hearWord_chipId : (hearWord s p f).chipId = s.chipId := setPhy_chipId p _
@[simp] theorem hearWord_sys : (hearWord s p f).sys = s.sys := setPhy_sys p _
@[simp] theorem hearWord_isOn (d : Nat) : (hearWord s p f).isOn d = s.isOn d := isOn_congr (setPhy_pwr p _) d
@[simp] theorem hearWord_distTable (q : PortId) : (hearWord s p f).distTable q = s.distTable q := setPhy_distTable p q _
@[simp] theorem hearWord_isLive (c : Chip) : (hearWord s p f).isLive c = s.isLive c :=
  isLive_congr hearWord_distTable hearWord_chipId c
@[simp] theorem hearWord_dupCount : (hearWord s p f).chain.dupCount = s.chain.dupCount := by cases p <;> rfl
@[simp] theorem hearWord_replayRaised : (hearWord s p f).chain.replayRaised = s.chain.replayRaised := by cases p <;> rfl
@[simp] theorem hearWord_pairs : (hearWord s p f).chain.pairs = s.chain.pairs := by cases p <;> rfl
@[simp] theorem hearWord_frame : (hearWord s p f).frame = s.frame := hearWord_only .frame (by decide)

/-- A word heard changes the state of no port. -/
@[simp] theorem hearWord_linkUp (q : PortId) : (hearWord s p f).linkUp q = s.linkUp q := by
  obtain ⟨c, heard⟩ := takeWord_rxCode s.chainMode (s.phy p) f
  unfold hearWord State.linkUp
  rw [heard]
  cases p <;> cases q <;> rfl

end

end Sys2Proof.Machine
end

section
/-! A DATA flit on a link that is up (R269, R273, R276, R282, R284). -/
namespace Sys2Proof.Machine
open Sys2Proof

/-! ## What an accepted flit makes of its port -/

/-- A port's link layer once it has accepted the next DATA flit (R273, R276). -/
def flitTaken (l : LinkPort) : LinkPort :=
  { l with expected := l.expected + 1, nakSent := false, nakDue := false, linkDue := true }

/-- The credits to return once a flit has left the receive buffer (R276). -/
def creditsFreed (f : Credits) (d : DataFlit) : Credits :=
  let n := BitVec.ofNat 12 d.records.length
  match d.cls.toNat with
  | 0 => { f with edgeH := f.edgeH + 1, edgeD := f.edgeD + n }
  | 1 => { f with ctrlH := f.ctrlH + 1, ctrlD := f.ctrlD + n }
  | _ => { f with mgmtH := f.mgmtH + 1, mgmtD := f.mgmtD + n }

theorem freeCredits_eq (s : State) (p : PortId) (d : DataFlit) : freeCredits s p d =
    s.setLinkPort p { s.linkPort p with freed := creditsFreed (s.linkPort p).freed d, linkDue := true } := rfl

@[simp] theorem freeCredits_sys (s : State) (p : PortId) (d : DataFlit) : (freeCredits s p d).sys = s.sys :=
  setLinkPort_sys p _

section
variable {s : State} {p : PortId} {f : Flit} {d : DataFlit}

theorem acceptData_malformed (bad : recordsOk f d = false) : acceptData s p f d = s.setLinkPort p
    { flitTaken (s.linkPort p) with protocol := true, freed := creditsFreed (s.linkPort p).freed d } := by
  unfold acceptData
  dsimp only
  rw [bad, setLinkPort_self, setLinkPort_setLinkPort, freeCredits_eq, setLinkPort_self, setLinkPort_setLinkPort]
  rfl

section
variable (good : recordsOk f d = true)
include good

/-- A flit of another chip's, for a live chip, goes straight through to the opposite port. -/
theorem acceptData_through (data : d.cls ≠ 2) (away : d.dst ≠ s.chipId) (live : s.isLive d.dst = true)
    (other : d.src ≠ s.chipId) (up : s.linkUp (opposite p) = true) : acceptData s p f d =
      (s.setLinkPort p (flitTaken (s.linkPort p))).setLinkPort (opposite p) { s.linkPort (opposite p) with
        transit := (s.linkPort (opposite p)).transit ++ [⟨some p, d⟩] } := by
  have foreign : (d.src == s.chipId) = false := beq_false_of_ne other
  unfold acceptData
  dsimp only
  rw [good, if_neg (by simp), if_neg data, setLinkPort_chipId, if_neg away]
  unfold forwardFlit
  simp only [setLinkPort_chipId, setLinkPort_isLive, setLinkPort_linkUp, setLinkPort_opposite, foreign, live, up,
    Bool.not_true, Bool.false_and, Bool.or_false, Bool.false_eq_true, and_false, if_false, if_true]
  rfl

theorem acceptData_here (edge : d.cls = 0) (here : d.dst = s.chipId) :
    acceptData s p f d = freeCredits (applyFlit (s.setLinkPort p (flitTaken (s.linkPort p))) d) p d := by
  unfold acceptData
  dsimp only
  rw [good, if_neg (by simp), if_neg (by rw [edge]; decide), setLinkPort_chipId, if_pos here]
  rfl

end

/-! ## One record of a live pair (R284) -/

theorem applyFlit_one {r : BitVec 44} (edge : d.cls = 0) (one : d.records = [r]) (live : (s.pair d.src).live = true) :
    applyFlit s d = endToEnd d.src s d.e2e r := by
  unfold applyFlit startSession
  dsimp only
  rw [if_pos live, if_pos edge, one]
  exact congrArg (endToEnd d.src s · r) (BitVec.add_zero d.e2e)

section
variable {c : Chip} {q : BitVec 16} {r : BitVec 44}

/-- The next record, with none held ahead of it, is accepted; fewer than 512 since the last ACK make none due. -/
theorem endToEnd_next (next : (q - (s.pair c).acked).toNat = 1) (none : (s.pair c).ahead = [])
    (few : (((s.pair c).acked + 1) - (s.pair c).lastAckSent).toNat < 512) : endToEnd c s q r =
      (acceptRecord (s.setPair c { s.pair c with acked := (s.pair c).acked + 1 }) c r).count 13 1 := by
  have advanced : advance 2048 [1] (s.pair c).acked = ([], (s.pair c).acked + 1) := rfl
  have kept : ({ s.pair c with ahead := [], acked := (s.pair c).acked + 1 } : Pair) =
      { s.pair c with acked := (s.pair c).acked + 1 } := by rw [← none]
  unfold endToEnd
  dsimp only
  rw [next, none, if_pos (by decide), advanced]
  dsimp only
  rw [if_neg (by omega), kept]

theorem endToEnd_copy (copy : 2048 < (q - (s.pair c).acked).toNat ∨ (q - (s.pair c).acked).toNat = 0 ∨
    (q - (s.pair c).acked).toNat ∈ (s.pair c).ahead) : endToEnd c s q r =
      s.setChain { s.chain with dupCount := satInc s.chain.dupCount, duplicate := true } := by
  unfold endToEnd
  refine if_neg fun fresh => ?_
  obtain ⟨low, high, new⟩ := fresh
  rcases copy with far | zero | held
  · omega
  · omega
  · exact new held

/-- A LINE record raises its line. -/
theorem acceptRecord_line (line : recKind r ≠ 0) :
    acceptRecord s c r = raiseSource s (0x300 + 16 * c.toNat + (field r 0 4 : BitVec 4).toNat) := if_neg line

end

/-! ## The flit's place in the sequence (R273) -/

section
variable (up : s.linkUp p = true)
include up

theorem dataFlit_next (next : ((unpackData f).1 - (s.linkPort p).expected).toNat = 0) :
    dataFlit s p f = acceptData s p f (unpackData f).2 := by
  unfold dataFlit
  dsimp only
  rw [up, next]
  rfl

theorem dataFlit_gap (some : 1 ≤ ((unpackData f).1 - (s.linkPort p).expected).toNat)
    (near : ((unpackData f).1 - (s.linkPort p).expected).toNat ≤ 2047) : dataFlit s p f =
      s.setLinkPort p { s.linkPort p with nakDue := (s.linkPort p).nakDue || !(s.linkPort p).nakSent } := by
  unfold dataFlit
  dsimp only
  rw [up, if_neg (by simp), if_neg (by omega), if_pos near]

theorem dataFlit_copy (far : 2048 ≤ ((unpackData f).1 - (s.linkPort p).expected).toNat) :
    dataFlit s p f = s.setLinkPort p { s.linkPort p with linkDue := true } := by
  unfold dataFlit
  dsimp only
  rw [up, if_neg (by simp), if_neg (by omega), if_neg (by omega)]

end
end

theorem exec_dataFlitReceive {s : State} {p : PortId} {f : Flit} (receives : s.receives p = true)
    (good : flitGood f = true) (data : flitType f = 1) :
    exec (.dataFlitReceive p f) s = .next (dataFlit (hearWord s p f) p f) :=
  congrArg Host.Outcome.next (onFlit_good receives good data)

/-! ## What each kind of flit leaves -/

section
variable {v : State} {p : PortId} {f : Flit} {d : DataFlit}

/-- A flit for this chip leaves its port with its credits to return, whatever it did elsewhere in the block. -/
theorem freeCredits_taken {w : State} {l : LinkPort} (kept : w.linkPort p = flitTaken l) :
    (freeCredits w p d).linkPort p = { flitTaken l with freed := creditsFreed l.freed d } := by
  rw [freeCredits_eq, setLinkPort_self, kept]
  rfl

theorem acceptData_lineRecord {r : BitVec 44} (sys : CanonicalSys v.sys) (chain : CanonicalChain v.chain)
    (core : v.isOn dCORE = true) (good : recordsOk f d = true) (edge : d.cls = 0) (here : d.dst = v.chipId)
    (one : d.records = [r]) (live : (v.pair d.src).live = true) (line : recKind r ≠ 0)
    (next : (d.e2e - (v.pair d.src).acked).toNat = 1) (none : (v.pair d.src).ahead = [])
    (few : (((v.pair d.src).acked + 1) - (v.pair d.src).lastAckSent).toNat < 512)
    (defined : sysDefined (0x300 + 16 * d.src.toNat + (field r 0 4 : BitVec 4).toNat) = true) :
    let t := acceptData v p f d
    t.linkPort p = { flitTaken (v.linkPort p) with freed := creditsFreed (v.linkPort p).freed d } ∧
      t.pair d.src = { v.pair d.src with acked := (v.pair d.src).acked + 1 } ∧
      (∀ c, c ≠ d.src → t.pair c = v.pair c) ∧
      (t.latch (0x300 + 16 * d.src.toNat + (field r 0 4 : BitVec 4).toNat)).arrival = true ∧
      OnlyChanges [.chain, .sys, .loupe] v t := by
  have step := setLinkPort_pair (s := v) p (flitTaken (v.linkPort p))
  have applied := (applyFlit_one (s := v.setLinkPort p (flitTaken (v.linkPort p))) edge one
    ((congrArg Pair.live (step d.src)).trans live)).trans
    (endToEnd_next (by rw [step]; exact next) (by rw [step]; exact none) (by rw [step]; exact few))
  rw [acceptRecord_line line, step] at applied
  rw [acceptData_here good edge here, applied]
  generalize written : (v.setLinkPort p (flitTaken (v.linkPort p))).setPair d.src _ = w
  have sysKept : w.sys = v.sys := by rw [← written]; exact setLinkPort_sys p _
  have pwrKept : w.pwr = v.pwr := by rw [← written]; exact setLinkPort_pwr p _
  have link : w.linkPort p = flitTaken (v.linkPort p) := by rw [← written, setPair_linkPort, setLinkPort_self]
  have canonical : CanonicalChain (v.setLinkPort p (flitTaken (v.linkPort p))).chain :=
    ⟨by rw [setLinkPort_pairs]; exact chain.pairs⟩
  obtain ⟨arrived, -, raised⟩ := raiseSource_effect (s := w) (by rw [sysKept]; exact sys) defined
    ((isOn_congr pwrKept _).trans core)
  have counted := raised.mono (b := [.sys, .loupe]) (by decide) |>.trans ((count_only 13 1).mono (by decide))
  have chainKept := counted .chain (by decide)
  have pairs := pair_congr (congrArg ChainUnit.pairs chainKept)
  refine ⟨freeCredits_taken ((linkPort_congr chainKept p).trans link), (setLinkPort_pair p _ _).trans ((pairs _).trans ?_),
    fun c other => (setLinkPort_pair p _ c).trans ((pairs c).trans ?_), ?_, ?_⟩
  · rw [← written, setPair_pair_self canonical]
  · rw [← written, setPair_pair_ne _ _ _ other, step]
  · rw [latch_congr (freeCredits_sys _ p d), latch_congr (count_only 13 1 .sys (by decide))]
    exact arrived
  · have before : OnlyChanges [.chain] v w := by
      rw [← written]; exact (setLinkPort_only p _).trans (setPair_only _ _)
    exact ((before.mono (by decide)).trans (counted.mono (by decide))).trans ((setLinkPort_only p _).mono (by decide))

theorem acceptData_copy {r : BitVec 44} (good : recordsOk f d = true) (edge : d.cls = 0) (here : d.dst = v.chipId)
    (one : d.records = [r]) (live : (v.pair d.src).live = true)
    (copy : 2048 < (d.e2e - (v.pair d.src).acked).toNat ∨ (d.e2e - (v.pair d.src).acked).toNat = 0 ∨
      (d.e2e - (v.pair d.src).acked).toNat ∈ (v.pair d.src).ahead) :
    let t := acceptData v p f d
    t.linkPort p = { flitTaken (v.linkPort p) with freed := creditsFreed (v.linkPort p).freed d } ∧
      (∀ c, t.pair c = v.pair c) ∧ t.chain.dupCount = satInc v.chain.dupCount ∧ t.chain.duplicate = true ∧
      OnlyChanges [.chain] v t := by
  have step := setLinkPort_pair (s := v) p (flitTaken (v.linkPort p))
  have applied := (applyFlit_one (s := v.setLinkPort p (flitTaken (v.linkPort p))) edge one
    ((congrArg Pair.live (step d.src)).trans live)).trans (endToEnd_copy (by rw [step]; exact copy))
  rw [acceptData_here good edge here, applied]
  refine ⟨freeCredits_taken ?_, fun c => (setLinkPort_pair p _ c).trans (step c), ?_, setLinkPort_duplicate p _,
    ((setLinkPort_only p _).trans (setChain_only _)).trans (setLinkPort_only p _)⟩
  · exact (by cases p <;> rfl : _ = (v.setLinkPort p (flitTaken (v.linkPort p))).linkPort p).trans (setLinkPort_self p _)
  · exact (setLinkPort_dupCount p _).trans (congrArg satInc (setLinkPort_dupCount p _))

end

theorem dataFlitsReceived : Claims.DataFlitsReceived := by
  intro p f s coherent on up good data l d n i v taken
  have link : (hearWord s p f).linkPort p = l := hearWord_linkPort p
  have pair : ∀ c, (hearWord s p f).pair c = s.pair c := hearWord_pair
  have heard : (hearWord s p f).linkUp p = true := (hearWord_linkUp p).trans up
  have run {t : State} (dealt : dataFlit (hearWord s p f) p f = t) : exec i s = .next t :=
    (exec_dataFlitReceive (receives_up on up) good data).trans (congrArg Host.Outcome.next dealt)
  have next (zero : n = 0) {t : State} (accepted : acceptData (hearWord s p f) p f d = t) : exec i s = .next t :=
    run ((dataFlit_next heard (by rw [link]; exact zero)).trans accepted)
  refine ⟨fun some near => run ?_, fun far => run ?_, fun zero bad => ?_,
    fun zero fine mgmt away live other opp => ?_, fun zero fine edge here r one live core => ?_⟩
  · exact (dataFlit_gap heard (by rw [link]; exact some) (by rw [link]; exact near)).trans (by rw [link]; rfl)
  · exact (dataFlit_copy heard (by rw [link]; exact far)).trans (by rw [link]; rfl)
  · refine ⟨_, next zero (acceptData_malformed bad), ?_, ?_, fun c => ?_, hearWord_only.trans (setLinkPort_only p _)⟩
    · rw [setLinkPort_self, link]
      rfl
    · rw [setLinkPort_opposite, hearWord_linkPort]
    · rw [setLinkPort_pair, pair]
  · have through := acceptData_through (s := hearWord s p f) fine mgmt (by rw [hearWord_chipId]; exact away)
      ((hearWord_isLive _).trans live) (by rw [hearWord_chipId]; exact other) ((hearWord_linkUp _).trans opp)
    refine ⟨_, next zero through, ?_, ?_, fun c => ?_,
      (hearWord_only.trans (setLinkPort_only p _)).trans (setLinkPort_only _ _)⟩
    · rw [setLinkPort_of_opposite, setLinkPort_self, link]
      rfl
    · rw [setLinkPort_self, hearWord_linkPort]
    · rw [setLinkPort_pair, setLinkPort_pair, pair]
  · intro q freed line
    have credits : creditsFreed l.freed d = freed := by
      unfold creditsFreed
      rw [edge, one]
      rfl
    refine ⟨fun kind first none few defined => ?_, fun copy => ?_⟩
    · obtain ⟨port, src, others, arrived, only⟩ := acceptData_lineRecord (v := hearWord s p f) (p := p)
        (by rw [hearWord_sys]; exact coherent.sysCanonical) ⟨by rw [hearWord_pairs]; exact coherent.chainCanonical.pairs⟩
        ((hearWord_isOn _).trans core) fine edge (by rw [hearWord_chipId]; exact here) one (by rw [pair]; exact live) kind
        (by rw [pair]; exact first) (by rw [pair]; exact none) (by rw [pair]; exact few) defined
      rw [link, credits] at port
      rw [pair] at src
      exact ⟨_, next zero rfl, port, src, fun c other => (others c other).trans (pair c), arrived,
        (hearWord_only.mono (by decide)).trans only⟩
    · obtain ⟨port, pairs, count, flag, only⟩ := acceptData_copy (v := hearWord s p f) (p := p) fine edge
        (by rw [hearWord_chipId]; exact here) one (by rw [pair]; exact live) (by rw [pair]; exact copy)
      rw [link, credits] at port
      exact ⟨_, next zero rfl, port, fun c => (pairs c).trans (pair c), count.trans (by rw [hearWord_dupCount]), flag,
        hearWord_only.trans only⟩

end Sys2Proof.Machine
end

section
/-! Acknowledgement and replay on a link that is up (R272, R274). -/
namespace Sys2Proof.Machine
open Sys2Proof

/-! ## A replay from the oldest flit held -/

/-- A port's link layer as a replay starts (R274). -/
def replayBegun (l : LinkPort) : LinkPort :=
  { l with replayLeft := l.replayBuf.length, replays := satInc l.replays, replayEv := true }

section
variable {s : State} {p : PortId}

theorem startReplay_empty (empty : (s.linkPort p).replayBuf = []) : startReplay s p = s := by
  unfold startReplay
  dsimp only
  rw [empty]
  rfl

/-- S:0x275 is raised by the first replay of a frame (R274). -/
theorem startReplay_held (held : (s.linkPort p).replayBuf ≠ []) :
    let w := s.setLinkPort p (replayBegun (s.linkPort p))
    startReplay s p = if s.chain.replayRaised then w
      else raiseSource (w.setChain { w.chain with replayRaised := true }) 0x275 := by
  unfold startReplay
  dsimp only
  rw [if_neg (by simpa using held), setLinkPort_replayRaised]
  rfl

theorem startReplay_effect (sys : CanonicalSys s.sys) (held : (s.linkPort p).replayBuf ≠ []) :
    let t := startReplay s p
    t.linkPort p = replayBegun (s.linkPort p) ∧ t.linkPort (opposite p) = s.linkPort (opposite p) ∧
      t.chain.replayRaised = true ∧
      (s.chain.replayRaised = false → s.isOn dCORE = true → (t.latch 0x275).arrival = true) ∧
      (s.chain.replayRaised = true → t.sys = s.sys) ∧ OnlyChanges [.chain, .sys, .pwr] s t := by
  rw [startReplay_held held]
  have written := setLinkPort_only (s := s) p (replayBegun (s.linkPort p))
  cases raised : s.chain.replayRaised with
  | true =>
    exact ⟨setLinkPort_self p _, setLinkPort_opposite p _, (setLinkPort_replayRaised p _).trans raised,
      fun no => absurd no (by decide), fun _ => setLinkPort_sys p _, written.mono (by decide)⟩
  | false =>
    dsimp only
    rw [if_neg (by decide)]
    generalize begun : s.setLinkPort p (replayBegun (s.linkPort p)) = w at written
    have sysKept : w.sys = s.sys := written .sys (by decide)
    have pwrKept : w.pwr = s.pwr := written .pwr (by decide)
    have work := raiseSource_only (w.setChain { w.chain with replayRaised := true }) 0x275
    have chain := work .chain (by decide)
    refine ⟨(linkPort_congr chain p).trans ?_, (linkPort_congr chain _).trans ?_, congrArg ChainUnit.replayRaised chain,
      fun _ core => ?_, fun no => absurd no (by decide),
      ((written.trans (setChain_only _)).mono (by decide)).trans (work.mono (by decide))⟩
    · exact (by cases p <;> rfl : _ = w.linkPort p).trans (by rw [← begun, setLinkPort_self])
    · exact (by cases p <;> rfl : _ = w.linkPort (opposite p)).trans (by rw [← begun, setLinkPort_opposite])
    · exact (raiseSource_effect (s := w.setChain { w.chain with replayRaised := true }) (by exact sysKept ▸ sys) (by decide)
        ((isOn_congr pwrKept _).trans core)).1

/-- The outcome of a command that starts a replay once it has written its port, in a state `v` that differs from `s` by
what was heard on the port. -/
theorem replay_started {v : State} {l : LinkPort} {i : Instr} (sys : CanonicalSys s.sys)
    (run : exec i s = .next (startReplay (v.setLinkPort p l) p)) (heard : OnlyChanges [.chain] s v)
    (link : v.linkPort (opposite p) = s.linkPort (opposite p)) (flag : v.chain.replayRaised = s.chain.replayRaised) :
    (l.replayBuf = [] → exec i s = .next (v.setLinkPort p l)) ∧
    (l.replayBuf ≠ [] → ∃ t, exec i s = .next t ∧ t.linkPort p = replayBegun l ∧
      t.linkPort (opposite p) = s.linkPort (opposite p) ∧ t.chain.replayRaised = true ∧
      (s.chain.replayRaised = false → s.isOn dCORE = true → (t.latch 0x275).arrival = true) ∧
      (s.chain.replayRaised = true → t.sys = s.sys) ∧ OnlyChanges [.chain, .sys, .pwr] s t) := by
  have here : (v.setLinkPort p l).linkPort p = l := setLinkPort_self p l
  have written := heard.trans (setLinkPort_only p l)
  have sysKept : (v.setLinkPort p l).sys = s.sys := written .sys (by decide)
  have raised : (v.setLinkPort p l).chain.replayRaised = s.chain.replayRaised := (setLinkPort_replayRaised p l).trans flag
  refine ⟨fun empty => ?_, fun held => ?_⟩
  · rw [run, startReplay_empty (by rw [here]; exact empty)]
  · obtain ⟨port, opp, set, latch, quiet, only⟩ :=
      startReplay_effect (s := v.setLinkPort p l) (p := p) (by rw [sysKept]; exact sys) (by rw [here]; exact held)
    rw [here] at port
    exact ⟨_, run, port, opp.trans ((setLinkPort_opposite p l).trans link), set,
      fun first core => latch (raised.trans first) ((isOn_congr (written .pwr (by decide)) _).trans core),
      fun before => (quiet (raised.trans before)).trans sysKept, (written.mono (by decide)).trans only⟩

/-! ## The acknowledgement of a LINK flit -/

theorem takeAckSeq_same {l : LinkPort} {a : BitVec 12} (same : a = l.lastAcked) : takeAckSeq l a = l := if_pos same

theorem takeAckSeq_held {l : LinkPort} {a : BitVec 12} {k : Nat} (new : a ≠ l.lastAcked)
    (held : l.replayBuf.findIdx? (fun e => e.1 == a) = some k) : takeAckSeq l a = { l with
      lastAcked := a, replayBuf := l.replayBuf.drop (k + 1)
      replayLeft := min l.replayLeft (l.replayBuf.length - (k + 1)) } := by
  unfold takeAckSeq
  rw [if_neg new, held, ← List.length_drop]

theorem takeAckSeq_unknown {l : LinkPort} {a : BitVec 12} (new : a ≠ l.lastAcked) (unknown : ∀ e ∈ l.replayBuf, e.1 ≠ a) :
    takeAckSeq l a = { l with protocol := true } := by
  have absent : l.replayBuf.findIdx? (fun e => e.1 == a) = none :=
    List.findIdx?_eq_none_iff.mpr fun e member => beq_false_of_ne (unknown e member)
  unfold takeAckSeq
  rw [if_neg new, absent]

/-- A LINK flit on a link that is up is no end of an initialisation. -/
theorem exec_linkFlitReceive {f : Flit} (on : s.isOn (portDomain p) = true) (up : s.linkUp p = true)
    (good : flitGood f = true) (link : flitType f = 2) :
    exec (.linkFlitReceive p f) s = .next (takeLink (hearWord s p f) p f) := by
  have heard : (hearWord s p f).linkUp p = true := (hearWord_linkUp p).trans up
  have notInit : ((hearWord s p f).phy p).state ≠ .linkInit := fun init => by simp [State.linkUp, init] at heard
  have begun : peerDone (hearWord s p f) p = hearWord s p f := by
    unfold peerDone
    rw [beq_false_of_ne notInit]
    rfl
  refine congrArg Host.Outcome.next ((onFlit_good (receives_up on up) good link).trans ?_)
  dsimp only
  rw [begun, heard]
  rfl

end

theorem flitsAcknowledged : Claims.FlitsAcknowledged := by
  intro p s sys on up l replays
  refine ⟨?_, ?_⟩
  · refine replay_started sys ?_ (OnlyChanges.refl _ s) rfl rfl
    rw [setLinkPort_linkPort]
    refine congrArg Host.Outcome.next ?_
    rw [on, up]
    rfl
  · intro f good link v a back acts
    have port : (hearWord s p f).linkPort p = l := hearWord_linkPort p
    have run := exec_linkFlitReceive on up good link
    unfold takeLink at run
    dsimp only at run
    rw [port] at run
    have taken {l' : LinkPort} (ack : takeAckSeq l a = l') : acts l' := by
      rw [show takeAckSeq l (field f 240 12) = l' from ack] at run
      refine ⟨fun plain => ?_, fun nak => ?_⟩
      · rw [plain] at run
        exact run
      · rw [nak] at run
        exact replay_started sys run hearWord_only (hearWord_linkPort _) hearWord_replayRaised
    exact ⟨fun same => taken (takeAckSeq_same same), fun new k held => taken (takeAckSeq_held new held),
      fun new unknown => taken (takeAckSeq_unknown new unknown)⟩

end Sys2Proof.Machine
end

section
/-! Resend rounds and overdue returns (R277, R287). -/
namespace Sys2Proof.Machine
open Sys2Proof

/-! ## A resend round -/

/-- The flit that carries a stored record anew, with the end-to-end sequence that it has (R287). -/
def resentFlit (chip c : Chip) (e : BitVec 16 × BitVec 44) : DataFlit :=
  { cls := 0, src := chip, dst := c, e2e := e.1, passed := false, records := [e.2] }

/-- The flits of a round join the own flits of the port on the route, in the order of the store. -/
theorem originate_resent {c : Chip} {q : PortId} : ∀ (store : List (BitVec 16 × BitVec 44)) {s : State}, s.route c = some q →
    store.foldl (fun s e => originate s (resentFlit s.chipId c e)) s =
      s.setLinkPort q { s.linkPort q with own := (s.linkPort q).own ++ store.map (resentFlit s.chipId c) }
  | [], s, _ => by
    rw [List.foldl_nil, List.map_nil, List.append_nil]
    exact (setLinkPort_linkPort q).symm
  | e :: store, s, route => by
    rw [List.foldl_cons, originate_routed (d := resentFlit s.chipId c e) route,
      originate_resent store ((setLinkPort_route q _ c).trans route), setLinkPort_setLinkPort, setLinkPort_self,
      setLinkPort_chipId, List.append_assoc]
    rfl

section
variable {s : State}

theorem exec_e2eResend {c : Chip} {q : PortId} (core : s.coreOn = true) (held : (s.pair c).store ≠ [])
    (live : (s.pair c).live = true) (route : s.route c = some q) :
    let w := s.setLinkPort q { s.linkPort q with
      own := (s.linkPort q).own ++ (s.pair c).store.map (resentFlit s.chipId c) }
    exec (.e2eResend c) s = .next (w.setChain { w.chain with resends := satInc w.chain.resends, resent := true }) := by
  have stored : (s.pair c).store.isEmpty = false := by simpa using held
  refine congrArg Host.Outcome.next ?_
  dsimp only
  rw [core, stored, live]
  exact congrArg (fun w : State => w.setChain { w.chain with resends := satInc w.chain.resends, resent := true })
    (originate_resent _ route)

@[simp] theorem setLinkPort_resends (p : PortId) (l : LinkPort) :
    (s.setLinkPort p l).chain.resends = s.chain.resends := by cases p <;> rfl

/-! ## A wait that comes to its 64th frame -/

/-- Raising S:0x276 after a write of the chain leaves the chain as written. -/
theorem overdue_raised {w : State} (sys : CanonicalSys s.sys) (written : OnlyChanges [.chain] s w) :
    let t := raiseSource w 0x276
    t.chain = w.chain ∧ (s.isOn dCORE = true → (t.latch 0x276).arrival = true) ∧
      OnlyChanges [.chain, .sys, .pwr] s t := by
  have sysKept : w.sys = s.sys := written .sys (by decide)
  have work := raiseSource_only w 0x276
  refine ⟨work .chain (by decide), fun core => ?_, (written.mono (by decide)).trans (work.mono (by decide))⟩
  exact (raiseSource_effect (by rw [sysKept]; exact sys) (by decide)
    ((isOn_congr (written .pwr (by decide)) _).trans core)).1

section
variable {p : PortId} {cls : FlitClass} (on : s.isOn (portDomain p) = true) (running : s.frame.running = true)
include on running

theorem exec_creditOverdue : exec (.creditOverdue p cls) s = .next (creditOverdue s p (classCode cls)
    (Sparse.get 0 (s.linkPort p).creditFrames (classCode cls).toNat + 1)) := by
  refine congrArg Host.Outcome.next ?_
  dsimp only
  rw [on, running]
  rfl

end

theorem creditOverdue_raises {p : PortId} {k : BitVec 2} {n : Nat} (waits : creditWait (s.linkPort p) k = true)
    (frames : 64 ≤ n) (fresh : (s.linkPort p).creditEpisode.getLsbD k.toNat = false) : creditOverdue s p k n =
      raiseSource (s.setLinkPort p { s.linkPort p with
        creditOver := true, creditEpisode := putBit (s.linkPort p).creditEpisode k.toNat true }) 0x276 := by
  unfold creditOverdue
  dsimp only
  rw [waits, decide_eq_true frames, fresh]
  rfl

theorem creditOverdue_rests {p : PortId} {k : BitVec 2} {n : Nat} (rests : creditWait (s.linkPort p) k = false ∨ n < 64 ∨
    (s.linkPort p).creditEpisode.getLsbD k.toNat = true) : creditOverdue s p k n = s := by
  unfold creditOverdue
  refine if_neg fun due => ?_
  simp only [Bool.and_eq_true, decide_eq_true_eq, Bool.not_eq_true'] at due
  obtain ⟨⟨waits, frames⟩, fresh⟩ := due
  rcases rests with idle | early | raised
  · rw [idle] at waits; cases waits
  · omega
  · rw [raised] at fresh; cases fresh

theorem exec_allowOverdue {c : Chip} {n : Tenant} (core : s.coreOn = true) (running : s.frame.running = true)
    (other : c ≠ s.chipId) : exec (.allowOverdue c n) s = .next (allowOverdue s c n
      (Sparse.get 0 (s.pair c).allowFrames n.toNat + 1)) := by
  have away : (c != s.chipId) = true := bne_iff_ne.mpr other
  refine congrArg Host.Outcome.next ?_
  rw [core, running, away]
  rfl

/-- A pair whose episode of waiting for a tenant's allowance has been reported. -/
def allowReported (p : Pair) (n : Tenant) : Pair :=
  { p with allowEpisode := Sparse.set false p.allowEpisode n.toNat true }

theorem allowOverdue_raises {c : Chip} {n : Tenant} {frames : Nat} (live : s.isLive c = true) (zero : s.allowance c n = 0)
    (long : 64 ≤ frames) (fresh : Sparse.get false (s.pair c).allowEpisode n.toNat = false) :
    let w := s.setPair c (allowReported (s.pair c) n)
    allowOverdue s c n frames = raiseSource (w.setChain { w.chain with allowOver := true }) 0x276 := by
  unfold allowOverdue
  dsimp only
  rw [live, zero, decide_eq_true long, fresh]
  rfl

end

theorem overdueRounds : Claims.OverdueRounds := by
  intro s sys chain
  refine ⟨fun c core held live q route => ?_, fun p cls on running => ?_,
    fun c n core running other live zero frames fresh => ?_⟩
  · refine ⟨_, exec_e2eResend core held live route, ?_, ?_, fun k => setLinkPort_pair q _ k, ?_, rfl,
      (setLinkPort_only q _).trans (setChain_only _)⟩
    · cases q <;> rfl
    · cases q <;> rfl
    · exact congrArg satInc (setLinkPort_resends q _)
  · intro l k count
    have run := exec_creditOverdue (cls := cls) on running
    refine ⟨fun waits long fresh => ?_, fun rests => run.trans (congrArg Host.Outcome.next (creditOverdue_rests ?_))⟩
    · obtain ⟨kept, latch, only⟩ := overdue_raised (s := s) sys (setLinkPort_only p { l with
        creditOver := true, creditEpisode := putBit l.creditEpisode k.toNat true })
      exact ⟨_, run.trans (congrArg Host.Outcome.next (creditOverdue_raises waits (Nat.succ_le_succ long) fresh)),
        (linkPort_congr kept p).trans (setLinkPort_self p _),
        (linkPort_congr kept _).trans (setLinkPort_opposite p _), latch, only⟩
    · exact rests.imp_right (Or.imp_left Nat.succ_lt_succ)
  · have written : OnlyChanges [.chain] s _ :=
      (setPair_only c (allowReported (s.pair c) n)).trans
        (setChain_only { (s.setPair c (allowReported (s.pair c) n)).chain with allowOver := true })
    obtain ⟨kept, latch, only⟩ := overdue_raised sys written
    have pairs := pair_congr (congrArg ChainUnit.pairs kept)
    exact ⟨_, (exec_allowOverdue core running other).trans
        (congrArg Host.Outcome.next (allowOverdue_raises live zero (Nat.succ_le_succ frames) fresh)),
      (pairs c).trans (setPair_pair_self chain c _), fun k ne => (pairs k).trans (setPair_pair_ne c k _ ne),
      congrArg ChainUnit.allowOver kept, latch, only⟩

end Sys2Proof.Machine
end

section
/-! The use of a tick marker: forwarding, the master's offset, lock, correction, count and period (R29, R31, R47, R48,
R290, R291). -/
namespace Sys2Proof.Machine
open Sys2Proof

theorem alone_congr {s t : State} (table : ∀ q, t.distTable q = s.distTable q) : t.alone = s.alone := by
  unfold State.alone
  simp only [route_congr table]

/-! ## Forwarding (R290) -/

/-- The marker that goes on: one more hop, and the hop delay added. -/
def forwardedTick (f : Flit) (delay : BitVec 24) : Flit :=
  packTick (field f 249 4) ((field f 245 4 : BitVec 4) + 1) (field f 181 64) (field f 168 13) (field f 155 13)
    (field f 123 32) (field f 99 24 + delay)

section
variable {s : State} {p : PortId} {f : Flit} {arrival : W32}

theorem forwardMarker_own (own : (field f 249 4 : Chip) = s.chipId) : forwardMarker s p f arrival = s := if_pos (.inl own)

theorem forwardMarker_on (other : (field f 249 4 : Chip) ≠ s.chipId) (hops : (field f 245 4 : BitVec 4) ≠ 15)
    (carries : s.carriesTicks (opposite p) = true) : forwardMarker s p f arrival =
      s.setLinkPort (opposite p) { s.linkPort (opposite p) with
        ticks := (s.linkPort (opposite p)).ticks ++ [(forwardedTick f (s.linkPort p).hopDelay, arrival)] } := by
  unfold forwardMarker
  refine if_neg fun stays => ?_
  rcases stays with own | last | silent
  · exact other own
  · exact hops last
  · rw [carries] at silent; cases silent

/-- Whether it goes on or not, a marker changes at most the queue of the opposite port. -/
theorem forwardMarker_eq : ∃ l, forwardMarker s p f arrival = s.setLinkPort (opposite p) l := by
  unfold forwardMarker
  dsimp only
  split
  · exact ⟨_, (setLinkPort_linkPort _).symm⟩
  · exact ⟨_, rfl⟩

end

/-! ## The tick's level (R69) -/

theorem alignLevel_effect {s : State} (sys : CanonicalSys s.sys) :
    (alignLevel s).frame = s.frame ∧ (∀ q, (alignLevel s).linkPort q = s.linkPort q) ∧
      (alignLevel s).level 0x277 = (!s.alone && (!s.frame.tickLocked || s.frame.coreClock)) ∧
      OnlyChanges [.sys, .pwr] s (alignLevel s) := by
  have only : OnlyChanges [.sys, .pwr] s (alignLevel s) := setLevel_only s _ _
  exact ⟨only .frame (by decide), linkPort_congr (only .chain (by decide)), setLevel_level sys _ _, only⟩

/-! ## The frame unit after a marker of its master -/

section
variable {u : FrameUnit} {f : Flit} {hops : BitVec 4} {east : Bool} {e : Int}

/-- The consecutive markers within 8 core cycles, this one included (R48); on the core clock there is no run. -/
def lockRunWith (u : FrameUnit) (e : Int) : Nat := if e.natAbs ≤ 8 ∧ u.coreClock = false then u.lockRun + 1 else 0

/-- On the core clock the tick never locks, so its level is that of the run alone. -/
theorem unlocked_of_lockRunWith (u : FrameUnit) (e : Int) :
    (!decide (16 ≤ lockRunWith u e) || u.coreClock) = !decide (16 ≤ lockRunWith u e) := by
  cases core : u.coreClock with
  | false => exact Bool.or_false _
  | true =>
    have none : lockRunWith u e = 0 := if_neg fun run => by rw [core] at run; exact absurd run.2 (by decide)
    rw [none]
    rfl

/-- The marker's offset, its part of the run towards the lock, and the count after a step or while locked. -/
def markerTaken (u : FrameUnit) (f : Flit) (hops : BitVec 4) (east : Bool) (e : Int) : FrameUnit :=
  let run := lockRunWith u e
  { u with
    bestHops := some (hops, east), markerBase := some (markerBase u), offset := offsetField e, lockRun := run
    tickLocked := decide (16 ≤ run), lockedFrames := if 16 ≤ run then u.lockedFrames else 0
    count := if u.takeCount = true ∨ 16 ≤ run then field f 181 64 else u.count
    takeCount := false }

/-- The first marker of a frame is used as the unit stands. -/
theorem useMarker_first (first : u.markerBase = none) :
    useMarker (restoreBase u) f hops east e = takePeriod (correct (markerTaken u f hops east e) e) f := by
  have base : restoreBase u = { u with markerBase := some (markerBase u) } := by unfold restoreBase; rw [first]
  have run : (if (decide (e.natAbs ≤ 8) && !u.coreClock) = true then u.lockRun + 1 else 0) = lockRunWith u e :=
    if_congr (by simp) rfl rfl
  rw [base]
  unfold useMarker markerTaken
  dsimp only
  rw [run]
  by_cases counted : u.takeCount = true ∨ 16 ≤ lockRunWith u e
  · rw [if_pos (by simpa using counted), if_pos counted]
  · rw [if_neg (by simpa using counted), if_neg counted]
    obtain ⟨noStep, -⟩ := not_or.mp counted
    simp only [Bool.eq_false_iff.mpr noStep]

/-- The correction of an offset (R47): at most 4 core cycles of slew in the next frame, or above 64 a step. -/
theorem correct_effect (u : FrameUnit) (e : Int) : ∃ slew adjust take stepped,
    correct u e = { u with slewNext := slew, adjust := adjust, takeCount := take, tickStepped := stepped } ∧
    (e.natAbs ≤ 64 → slew = (if 0 < e then -(min e.natAbs 4 : Int) else (min e.natAbs 4 : Int)) ∧ adjust = u.adjust) ∧
    (64 < e.natAbs → stepped = true ∧ take = true ∧ slew = 0) := by
  unfold correct
  by_cases near : e.natAbs ≤ 64
  · exact ⟨_, _, _, _, if_pos near, fun _ => ⟨rfl, rfl⟩, fun far => absurd near (Nat.not_le.mpr far)⟩
  · exact ⟨_, _, _, _, if_neg near, fun near' => absurd near' near, fun _ => ⟨rfl, rfl, rfl⟩⟩

/-- The period of a marker, and its pending change where it has one (R29, R31). -/
theorem takePeriod_effect (u : FrameUnit) (f : Flit) : ∃ pending request apply left,
    takePeriod u f = { u with
      followPeriod := some (field f 168 13), changePending := pending, request := request, applyFrame := apply
      ticksLeft := left, acceptedAsleep := false } ∧
    pending = decide ((field f 155 13 : BitVec 13) ≠ 0) ∧
    ((field f 155 13 : BitVec 13) ≠ 0 → request = field f 155 13 ∧ apply = field f 123 32) := by
  unfold takePeriod
  by_cases none : (field f 155 13 : BitVec 13) = 0
  · exact ⟨_, _, _, _, if_pos none, (decide_eq_false (not_not.mpr none)).symm, fun some => absurd none some⟩
  · exact ⟨_, _, _, _, if_neg none, (decide_eq_true none).symm, fun _ => ⟨rfl, rfl⟩⟩

/-- The frame unit as a marker of the master followed is heard: both gaps end (R49). -/
def heardFrame (u : FrameUnit) : FrameUnit := { u with masterGap := 0, markerGap := 0 }

/-- Of the master that the chip follows, a marker ends both gaps and changes nothing else by itself. -/
theorem adoptMaster_followed {master : Chip} (own : u.isMaster = false) (following : u.following = true)
    (same : u.masterId = master) : adoptMaster u master = { u with masterGap := 0 } := by
  unfold adoptMaster
  simp only [own, following, same, bne_self_eq_false, Bool.not_true, Bool.or_false, Bool.false_eq_true, if_false,
    decide_true, Bool.and_true, if_true]

end

/-! ## The command -/

section
variable {s : State} {p : PortId} {f : Flit} {arrival latency : W32}

/-- The frame unit after a marker of the master followed: `u` as the gaps have ended. -/
def followedFrame (u : FrameUnit) (f : Flit) (east : Bool) (arrival latency : W32) (hop : BitVec 24) : FrameUnit :=
  let hops : BitVec 4 := field f 245 4
  if betterMarker u.bestHops hops east then
    useMarker (restoreBase u) f hops east (markerOffset u (arrival - latency) (field f 99 24) hop)
  else u

/-- What a good TICK flit does once its word is heard. -/
def markerArrives (s : State) (p : PortId) (f : Flit) (arrival latency : W32) : State :=
  let s := forwardMarker s p f arrival
  let master : Chip := field f 249 4
  let s := if master = s.chipId then s else s.setFrame { s.frame with markerGap := 0 }
  if s.follows master then alignLevel (s.setFrame
    (followedFrame (adoptMaster s.frame master) f (p == .east) arrival latency (s.linkPort p).hopDelay))
  else s

theorem exec_tickMarkerReceive (on : s.isOn (portDomain p) = true) (up : s.linkUp p = true) (good : flitGood f = true)
    (tick : flitType f = 3) :
    exec (.tickMarkerReceive p f arrival latency) s = .next (markerArrives (hearWord s p f) p f arrival latency) := by
  refine congrArg Host.Outcome.next ((onFlit_good (receives_up on up) good tick).trans ?_)
  dsimp only
  rw [hearWord_linkUp, up]
  rfl

theorem markerArrives_own (own : (field f 249 4 : Chip) = s.chipId) : markerArrives s p f arrival latency = s := by
  have stays : s.follows (field f 249 4) = false := by
    unfold State.follows
    simp [own]
  unfold markerArrives
  dsimp only
  rw [forwardMarker_own own, if_pos own, stays]
  rfl

/-- A marker of another chip's writes the ports as its forwarding does, and the frame. -/
theorem markerArrives_other (sys : CanonicalSys s.sys) (other : (field f 249 4 : Chip) ≠ s.chipId) :
    (∀ q, (markerArrives s p f arrival latency).linkPort q = (forwardMarker s p f arrival).linkPort q) ∧
      OnlyChanges [.chain, .frame, .sys, .pwr] s (markerArrives s p f arrival latency) := by
  obtain ⟨l, forwarded⟩ := forwardMarker_eq (s := s) (p := p) (f := f) (arrival := arrival)
  unfold markerArrives
  dsimp only
  rw [forwarded, setLinkPort_chipId, if_neg other]
  have written := setLinkPort_only (s := s) (opposite p) l
  generalize s.setLinkPort (opposite p) l = v at written
  have sysKept : CanonicalSys v.sys := (show v.sys = s.sys from written .sys (by decide)) ▸ sys
  have timed : OnlyChanges [.chain, .frame] s (v.setFrame { v.frame with markerGap := 0 }) :=
    (written.mono (by decide)).trans ((setFrame_only _).mono (by decide))
  split
  · generalize followedFrame _ f _ _ _ _ = u
    obtain ⟨-, link, -, only⟩ := alignLevel_effect (s := (v.setFrame { v.frame with markerGap := 0 }).setFrame u)
      sysKept
    exact ⟨fun q => (link q).trans (linkPort_congr rfl q),
      ((timed.mono (by decide)).trans ((setFrame_only _).mono (by decide))).trans (only.mono (by decide))⟩
  · exact ⟨linkPort_congr rfl, timed.mono (by decide)⟩

section
variable (other : (field f 249 4 : Chip) ≠ s.chipId) (ring : s.alone = false) (own : s.frame.isMaster = false)
  (following : s.frame.following = true) (same : s.frame.masterId = field f 249 4)
include other ring own following same

/-- A marker of the master followed leaves the frame that its use makes, and S:0x277 as its lock asks. -/
theorem markerArrives_followed (sys : CanonicalSys s.sys) :
    let u := followedFrame (heardFrame s.frame) f (p == .east) arrival latency
      (s.linkPort p).hopDelay
    (markerArrives s p f arrival latency).frame = u ∧
      (markerArrives s p f arrival latency).level 0x277 = (!u.tickLocked || u.coreClock) := by
  obtain ⟨l, forwarded⟩ := forwardMarker_eq (s := s) (p := p) (f := f) (arrival := arrival)
  have written := setLinkPort_only (s := s) (opposite p) l
  have frame : (s.setLinkPort (opposite p) l).frame = s.frame := written .frame (by decide)
  have hop := setLinkPort_of_opposite (s := s) p l
  have chip := setLinkPort_chipId (s := s) (opposite p) l
  have notAlone : (s.setLinkPort (opposite p) l).alone = false :=
    (alone_congr fun q => setLinkPort_distTable _ q l).trans ring
  unfold markerArrives
  dsimp only
  rw [forwarded, chip, if_neg other]
  generalize s.setLinkPort (opposite p) l = v at *
  have follows : (v.setFrame { v.frame with markerGap := 0 }).follows (field f 249 4) = true := by
    have member : (v.setFrame { v.frame with markerGap := 0 }).alone = false := notAlone
    have master : ((field f 249 4 : Chip) != (v.setFrame { v.frame with markerGap := 0 }).chipId) = true :=
      bne_iff_ne.mpr fun own => other (own.trans chip)
    unfold State.follows
    dsimp only
    rw [member, master]
    simp [State.setFrame, frame, own, following, same]
  have adopted : adoptMaster (v.setFrame { v.frame with markerGap := 0 }).frame (field f 249 4) =
      heardFrame s.frame := by
    have timed : (v.setFrame { v.frame with markerGap := 0 }).frame = { s.frame with markerGap := 0 } :=
      congrArg (fun u : FrameUnit => { u with markerGap := 0 }) frame
    rw [timed]
    exact adoptMaster_followed own following same
  rw [follows, if_pos rfl, adopted]
  have port : (v.setFrame { v.frame with markerGap := 0 }).linkPort p = s.linkPort p := (linkPort_congr rfl p).trans hop
  rw [port]
  generalize followedFrame _ f _ _ _ _ = u
  have sysKept : CanonicalSys v.sys := (show v.sys = s.sys from written .sys (by decide)) ▸ sys
  obtain ⟨same', -, level, -⟩ := alignLevel_effect (s := (v.setFrame { v.frame with markerGap := 0 }).setFrame u)
    sysKept
  have member : ((v.setFrame { v.frame with markerGap := 0 }).setFrame u).alone = false := notAlone
  exact ⟨same', level.trans (by rw [member]; rfl)⟩

end
end

theorem followedFrame_first {u : FrameUnit} {east : Bool} {hop : BitVec 24} (unheard : u.bestHops = none)
    (first : u.markerBase = none) :
    let e := markerOffset u (arrival - latency) (field f 99 24) hop
    followedFrame u f east arrival latency hop =
      takePeriod (correct (markerTaken u f (field f 245 4) east e) e) f := by
  unfold followedFrame
  dsimp only
  rw [unheard, show betterMarker none (field f 245 4) east = true from rfl, if_pos rfl, useMarker_first first]

theorem markersUsed : Claims.MarkersUsed := by
  intro p f arrival latency s sys on up good tick i master hops o heard
  have run : exec i s = .next (markerArrives (hearWord s p f) p f arrival latency) := exec_tickMarkerReceive on up good tick
  have chip : (hearWord s p f).chipId = s.chipId := hearWord_chipId
  have sysHeard : CanonicalSys (hearWord s p f).sys := by rw [hearWord_sys]; exact sys
  have link : (hearWord s p f).linkPort p = s.linkPort p := hearWord_linkPort p
  have frame : (hearWord s p f).frame = s.frame := hearWord_frame
  refine ⟨fun own => run.trans (congrArg Host.Outcome.next (markerArrives_own (by rw [chip]; exact own))),
    fun other few carries => ?_, fun other ring own following same => ?_⟩
  · have away : (field f 249 4 : Chip) ≠ (hearWord s p f).chipId := by rw [chip]; exact other
    obtain ⟨ports, only⟩ := markerArrives_other (p := p) (arrival := arrival) (latency := latency) sysHeard away
    have goes := forwardMarker_on (s := hearWord s p f) (arrival := arrival) away few
      (by unfold State.carriesTicks at carries ⊢; rw [show (hearWord s p f).phy (opposite p) = s.phy o from
            setPhy_opposite p _]; exact carries)
    refine ⟨_, run, ?_, ?_, (hearWord_only.mono (by decide)).trans only⟩
    · rw [ports, goes, setLinkPort_self, link, hearWord_linkPort]
      rfl
    · rw [ports, goes, setLinkPort_of_opposite, link]
  · have away : (field f 249 4 : Chip) ≠ (hearWord s p f).chipId := by rw [chip]; exact other
    obtain ⟨-, only⟩ := markerArrives_other (p := p) (arrival := arrival) (latency := latency) sysHeard away
    obtain ⟨used, level⟩ := markerArrives_followed (p := p) (arrival := arrival) (latency := latency) away
      ((alone_congr hearWord_distTable).trans ring) (by rw [frame]; exact own) (by rw [frame]; exact following)
      (by rw [frame]; exact same) sysHeard
    rw [frame, link] at used level
    have changes := (hearWord_only (f := f) (p := p)).mono (b := [.chain, .frame, .sys, .pwr]) (by decide) |>.trans only
    have hears {u : FrameUnit} (used : (markerArrives (hearWord s p f) p f arrival latency).frame = u)
        (kept : u.isMaster = s.frame.isMaster ∧ u.following = s.frame.following ∧ u.masterId = s.frame.masterId)
        (gaps : u.masterGap = 0 ∧ u.markerGap = 0) : heard (markerArrives (hearWord s p f) p f arrival latency) := by
      obtain ⟨role, follows, id⟩ := kept
      refine ⟨?_, ?_, ?_, ?_, ?_, changes⟩ <;> rw [used]
      · exact role.trans own
      · exact follows.trans following
      · exact id.trans same
      · exact gaps.1
      · exact gaps.2
    refine ⟨fun unheard first => ⟨_, run, ?_⟩, fun worse => ⟨_, run, ?_⟩⟩
    · rw [followedFrame_first (u := heardFrame s.frame) unheard first] at used level
      generalize offset : markerOffset _ (arrival - latency) (field f 99 24) (s.linkPort p).hopDelay = e at used level
      obtain ⟨slew, adjust, take, stepped, corrected, near, far⟩ :=
        correct_effect (markerTaken (heardFrame s.frame) f hops (p == .east) e) e
      obtain ⟨pending, request, apply, left, period, isPending, change⟩ :=
        takePeriod_effect (correct (markerTaken (heardFrame s.frame) f hops (p == .east) e) e) f
      rw [period, corrected] at used level
      refine ⟨hears used ⟨rfl, rfl, rfl⟩ ⟨rfl, rfl⟩, ?_⟩
      intro e' run'
      have sameOffset : e' = e := offset
      have sameRun : run' = lockRunWith (heardFrame s.frame) e := congrArg (lockRunWith s.frame) sameOffset
      rw [sameRun, sameOffset, used, level]
      exact ⟨rfl, rfl, rfl, rfl, unlocked_of_lockRunWith _ e, rfl, near, far, rfl, isPending, change⟩
    · have kept : followedFrame (heardFrame s.frame) f (p == .east) arrival latency (s.linkPort p).hopDelay =
          heardFrame s.frame := if_neg (Bool.eq_false_iff.mp worse)
      rw [kept] at used
      exact ⟨hears used ⟨rfl, rfl, rfl⟩ ⟨rfl, rfl⟩, used⟩

/-- Settles O60, claim by claim: what a port sends, and what DATA, LINK and TICK flits and the overdue rounds do. IDLE in
DESKEW and the rounding and latency of a marker's offset are the model's choices of log entry 58, the use of a frame's first
marker on its arrival that of log entry 19, and the 63 frames counted at an overdue round that of log entry 5. -/
theorem chainLink : Obligations.ChainLink :=
  ⟨flitsSent, dataFlitsReceived, flitsAcknowledged, overdueRounds, markersUsed⟩

end Sys2Proof.Machine
end

section
/-! The commands of the bead pins, and the wake inputs while BEAD is not ON (R223, R226, R304, R306). -/
namespace Sys2Proof.Machine
open Sys2Proof

section
variable {s : State} {m : BitVec 7} {c : Snap}

/-! ## PAD_RELEASE and BEAD_CONFIG -/

/-- The pads that a PAD_RELEASE names are marked where they are held (R223). -/
def padsNamed (u : BeadUnit) (c : Snap) : BeadUnit := { u with
  releasing := u.releasing ||| (BitVec.ofNat 16 (snapField c 0x08 2) &&& u.held)
  syncReleasing := u.syncReleasing || ((snapByte c 0x0A).getLsbD 0 && u.syncHeld) }

theorem padRelease_on (on : s.isOn dBEAD = true) :
    let u := padsNamed s.bead c
    padRelease s m c = finish (s.setBead u) m (okReply (bytesLE 2 (u.held &&& ~~~ u.releasing).toNat
      ++ [bit 8 (u.syncHeld && !u.syncReleasing), 0])) := by
  unfold padRelease
  dsimp only
  rw [on]
  rfl

/-- The values that a BEAD_CONFIG orders for the next round (R226). -/
def beadOrdered (u : BeadUnit) (c : Snap) : BeadUnit :=
  let value : W32 := BitVec.ofNat 32 (snapField c 0x0C 4)
  let mask : W32 := BitVec.ofNat 32 (snapField c 0x10 4)
  { u with
    inputsNext := if (snapByte c 0x08).getLsbD 0 then BitVec.ofNat 3 (snapField c 0x09 1) else u.inputsNext
    outputsNext := if (snapByte c 0x08).getLsbD 1 then (u.outputsNext &&& ~~~ mask) ||| (value &&& mask)
      else u.outputsNext }

theorem beadConfig_legal (legal : (snapByte c 0x08).getLsbD 0 = true → snapField c 0x09 1 ≤ 6) :
    beadConfig s m c = finish (s.setBead (beadOrdered s.bead c)) m
      (okReply ([s.bead.inputSlots.setWidth 8, 0, 0, 0] ++ bytesLE 4 s.bead.outputs.toNat)) := by
  have accepted : ¬ ((snapByte c 0x08).getLsbD 0 && decide (6 < snapField c 0x09 1)) = true := fun refused => by
    rw [Bool.and_eq_true, decide_eq_true_eq] at refused
    exact absurd (legal refused.1) (Nat.not_le.mpr refused.2)
  unfold beadConfig beadOrdered
  dsimp only
  rw [if_neg accepted]
  cases (snapByte c 0x08).getLsbD 0 <;> cases (snapByte c 0x08).getLsbD 1 <;> rfl

/-- A command that writes the bead unit and answers changes nothing else. -/
theorem finish_setBead (mbx : CanonicalMbx s.mbx) (u : BeadUnit) (r : Reply) :
    (finish (s.setBead u) m r).bead = u ∧ Answered m r s (finish (s.setBead u) m r) ∧
      OnlyChanges [.bead, .mbx] s (finish (s.setBead u) m r) :=
  ⟨finish_only m r .bead (by decide), finish_answered mbx rfl m r,
    ((setBead_only u).mono (by decide)).trans ((finish_only m r).mono (by decide))⟩

theorem beadCommands : Claims.BeadCommands := by
  intro m c s coherent u
  refine ⟨?_, ?_⟩
  · intro holds on mask sync releasing syncReleasing
    obtain ⟨bead, answered, only⟩ := finish_setBead (m := m) coherent.mbxCanonical (padsNamed s.bead c) _
    exact ⟨_, congrArg Host.Outcome.next ((runTaken_holds holds rfl allOn_nil).trans (padRelease_on on)), bead, answered,
      only⟩
  · intro holds flags n value mask legal sets
    obtain ⟨bead, answered, only⟩ := finish_setBead (m := m) coherent.mbxCanonical (beadOrdered s.bead c) _
    have run {select : Snap → Bool} (chosen : select c = true) :=
      (runTaken_holds (needs := fun _ _ => []) (body := fun s c => beadConfig s m c) holds chosen allOn_nil).trans
        (beadConfig_legal legal)
    have inputs (only : flags ≠ 2) := run (select := fun c => snapByte c 0x08 != 2) (bne_iff_ne.mpr only)
    have outputs (flag : flags.getLsbD 1 = true) := run (select := fun c => (snapByte c 0x08).getLsbD 1) flag
    exact ⟨fun chosen => ⟨_, congrArg Host.Outcome.next (inputs chosen), bead, answered, only⟩,
      fun chosen => ⟨_, congrArg Host.Outcome.next (outputs chosen), bead, answered, only⟩⟩

/-! ## The wake inputs (R306) -/

theorem wiredSrc_defined : ∀ j : BitVec 2, sysDefined (wiredSrc j.toNat) = true := by decide

section
variable (wakes : s.wakeInputs = true) (j : BitVec 2)
include wakes

theorem exec_beadWakeEdge :
    let v := s.setBead { s.bead with
      wakeEdge := putBit s.bead.wakeEdge j.toNat true, level := putBit s.bead.level j.toNat true }
    exec (.beadWakeEdge j) s = .next (if s.bead.inputSlots = 0 then v
      else raiseSource (setWired v j.toNat true) (wiredSrc j.toNat)) := by
  refine congrArg Host.Outcome.next ?_
  rw [wakes]
  rfl

theorem exec_wakeInputFall :
    let v := s.setBead { s.bead with level := putBit s.bead.level j.toNat false }
    exec (.wakeInputFall j) s = .next (if s.bead.inputSlots = 0 then v else setWired v j.toNat false) := by
  refine congrArg Host.Outcome.next ?_
  rw [wakes]
  rfl

end

/-- With CORE ON a rise of a sampled input sets its level and its arrival. -/
theorem wiredRise_effect (sys : CanonicalSys s.sys) (core : s.isOn dCORE = true) (j : BitVec 2) :
    let t := raiseSource (setWired s j.toNat true) (wiredSrc j.toNat)
    t.level (wiredSrc j.toNat) = true ∧ (t.latch (wiredSrc j.toNat)).arrival = true ∧
      (∀ k, k ≠ wiredSrc j.toNat → t.latch k = s.latch k) ∧ OnlyChanges [.sys] s t := by
  obtain ⟨level, latches, wired, canonical⟩ := setWired_effect sys j.toNat true
  obtain ⟨arrived, others, raised⟩ := raiseSource_effect canonical (wiredSrc_defined j)
    ((isOn_congr (wired .pwr (by decide)) _).trans core)
  refine ⟨?_, arrived, fun k other => (others k other).trans (latches k), wired.trans raised⟩
  unfold State.level
  rw [raiseSource_levels]
  exact level

end

theorem wakeInputs : Claims.WakeInputs := by
  intro j s coherent wakes core rises falls
  have edge := exec_beadWakeEdge wakes j
  have fall := exec_wakeInputFall wakes j
  refine ⟨fun none => ?_, fun some => ?_⟩
  · dsimp only at edge fall
    rw [if_pos none] at edge fall
    exact ⟨⟨_, edge, rfl, setBead_only _⟩, ⟨_, fall, rfl, setBead_only _⟩⟩
  · dsimp only at edge fall
    rw [if_neg some] at edge fall
    obtain ⟨high, arrived, others, raised⟩ := wiredRise_effect (s := s.setBead rises) coherent.sysCanonical core j
    obtain ⟨low, latches, wired, -⟩ := setWired_effect (s := s.setBead falls) coherent.sysCanonical j.toNat false
    exact ⟨⟨_, edge, raised .bead (by decide), high, arrived, others,
        ((setBead_only _).mono (by decide)).trans (raised.mono (by decide))⟩,
      ⟨_, fall, wired .bead (by decide), low, latches,
        ((setBead_only _).mono (by decide)).trans (wired.mono (by decide))⟩⟩

/-- Settles O44: the two commands write the bead unit and answer; a wake input records its rise and, with input slots in
force, raises its source, and a fall moves levels alone. -/
theorem beads : Obligations.Beads := ⟨beadCommands, wakeInputs⟩

end Sys2Proof.Machine
end

section
/-! The capture FIFO: what it takes at the fabric port, and its drain (R56, R60, R317, R318). -/
namespace Sys2Proof.Machine
open Sys2Proof

/-! ## A request that is captured -/

section
variable {s : State} {w : IntakeReq} {v : BitVec 20}

/-- The fabric port's part of a request that goes into the FIFO: a posted one is charged and refunded, any other answered. -/
def portHandled (s : State) (w : IntakeReq) (o : Option Tenant) : State :=
  if w.posted then refundPool (chargePool s o) o else answer s .unsupported

theorem windowRequest_captured (away : s.captures (some (quarterOf v.toNat)) = true)
    (room : s.pwr.capture.length < 1024) (o : Option Tenant) :
    let u := capture (portHandled s w o) (capWrite w.owner w.requester v (BitVec.ofNat 4 (intakeForm w)))
    windowRequest s w v o = if intakeForm w = 0 then watchMatch u (msgSrc v.toNat) else u := by
  unfold windowRequest portHandled
  dsimp only
  rw [away, decide_eq_false (Nat.not_le.mpr room), if_neg (by decide), if_pos rfl]
  cases w.posted <;> simp only [Bool.false_eq_true, if_true, if_false]

/-- Nothing holds back a request whose pool has a credit, where it is charged to one (R61). -/
theorem exec_intakeWrite_window (reset : s.hm.inReset = none) (powered : s.hm.powerOff = false) (sound : w.parityErr = false)
    (window : s.windowVector w.addr = some v)
    (credited : ∀ n, s.mapOwner v.toNat = some n → w.posted = true → s.hasCredit n = true) :
    exec (.intakeWrite w) s = .next (windowRequest s w v (s.mapOwner v.toNat)) := by
  have free : (w.posted && (s.mapOwner v.toNat).any fun n => !s.hasCredit n) = false := by
    cases owner : s.mapOwner v.toNat with
    | none => exact Bool.and_false _
    | some n =>
      cases posted : w.posted with
      | false => rfl
      | true => simp [credited n owner posted]
  show execIntakeWrite w s = _
  unfold execIntakeWrite
  simp only [reset, powered, sound, window, Option.bind_some, free, Option.isSome_none, Bool.or_self, Bool.false_eq_true,
    if_false]

/-- What a request taken at the port leaves the same: the FIFO, and whether the tables are up. -/
structure SameTaking (s t : State) : Prop where
  fifo  : SameFifo s t
  up    : t.coreUp = s.coreUp
  queue : ∀ n, (t.tenant n).queue = (s.tenant n).queue
  pool  : ∀ n, (s.tenant n).credits.toNat ≤ 440 → (t.tenant n).credits = (s.tenant n).credits

/-- A credit taken and given back leaves a pool as it was. -/
theorem refund_charge (coherent : Coherent s) {n : Tenant} (credit : (s.tenant n).credits ≠ 0) :
    SameTaking s (returnCredit (takeCredit s n) n) := by
  have wf := coherent.tenCanonical.recs
  have charged := takeCredit_isOn coherent.pwrCanonical n
  obtain ⟨zero, frames, status, taken⟩ := takeCredit_record n wf
  have refunded := returnCredit_tenant (takeCredit_wf wf n) n
  rw [taken] at refunded
  have others (k : Tenant) (other : k ≠ n) : (returnCredit (takeCredit s n) n).tenant k = s.tenant k :=
    (returnCredit_tenant_ne n k other).trans (takeCredit_tenant_ne n k other)
  have pwr : (returnCredit (takeCredit s n) n).pwr = (takeCredit s n).pwr := returnCredit_only _ n .pwr (by decide)
  refine ⟨(takeCredit_fifo s n).trans (.of_pwr pwr), ?_, fun k => ?_, fun k bound => ?_⟩
  · unfold State.coreUp
    rw [isOn_congr pwr, isOn_congr pwr, (charged dCORE).1, (charged dTGT).1]
  · by_cases same : k = n
    · rw [same, refunded]
    · rw [others k same]
  · by_cases same : k = n
    · subst same
      have left : ((s.tenant k).credits - 1).toNat < 440 := by bv_omega
      rw [refunded]
      dsimp only
      rw [if_pos left, BitVec.sub_add_cancel]
    · rw [others k same]

theorem portHandled_effect (coherent : Coherent s) {o : Option Tenant}
    (credited : ∀ n, o = some n → w.posted = true → (s.tenant n).credits ≠ 0) :
    SameTaking s (portHandled s w o) ∧
      (portHandled s w o).bnd = (if w.posted then s.bnd else { s.bnd with lastStatus := .unsupported }) ∧
      OnlyChanges [.pwr, .sys, .ten, .bnd] s (portHandled s w o) := by
  have idle : SameTaking s s := ⟨.rfl, rfl, fun _ => rfl, fun _ _ => rfl⟩
  unfold portHandled
  cases posted : w.posted with
  | false => exact ⟨⟨.rfl, rfl, fun _ => rfl, fun _ _ => rfl⟩, rfl, (setBnd_only _).mono (by decide)⟩
  | true =>
    cases o with
    | none => exact ⟨idle, rfl, .refl _ _⟩
    | some n =>
      have only := ((takeCredit_only s n).mono (b := [.pwr, .sys, .ten, .bnd]) (by decide)).trans
        ((returnCredit_only _ n).mono (by decide))
      exact ⟨refund_charge coherent (credited n rfl posted),
        (returnCredit_only (takeCredit s n) n .bnd (by decide)).trans (takeCredit_only s n .bnd (by decide)),
        only⟩

end

theorem intakeWriteCaptured : Claims.IntakeWriteCaptured := by
  intro w v s coherent reset powered sound window away room credited
  have credit (n : Tenant) (owner : s.mapOwner v.toNat = some n) (posted : w.posted = true) : (s.tenant n).credits ≠ 0 := by
    have held := credited n owner posted
    unfold State.hasCredit at held
    simp_all
  have run := (exec_intakeWrite_window reset powered sound window credited).trans
    (congrArg Host.Outcome.next (windowRequest_captured away room _))
  obtain ⟨same, status, handled⟩ := portHandled_effect (w := w) coherent credit
  generalize portHandled s w (s.mapOwner v.toNat) = u at run same status handled
  obtain ⟨held, pos, all, -, -, -⟩ := same.fifo
  obtain ⟨entry, next, ordered, -, captured⟩ :=
    capture_effect (s := u) (capWrite w.owner w.requester v (BitVec.ofNat 4 (intakeForm w))) (by rw [held]; exact room)
  rw [held, pos] at entry
  rw [pos] at next
  rw [all, same.up] at ordered
  generalize capture u _ = c at run entry next ordered captured
  have watched : ∃ t, (if intakeForm w = 0 then watchMatch c (msgSrc v.toNat) else c) = t ∧ SameFifo c t ∧
      OnlyChanges [.pwr] c t :=
    ⟨_, rfl, by split; exacts [watchMatch_fifo _ _, .rfl], .ite (watchMatch_only _ _) (.refl _ _)⟩
  obtain ⟨t, goes, ⟨sameFifo, samePos, sameAll, -, -, -⟩, woken⟩ := watched
  rw [goes] at run
  have tenant (n : Tenant) : t.tenant n = u.tenant n :=
    tenant_congr ((woken .ten (by decide)).trans (captured .ten (by decide))) n
  refine ⟨t, run, sameFifo.trans entry, samePos.trans next, sameAll.trans ordered, fun n => ?_, ?_,
    (handled.mono (by decide)).trans ((captured.mono (by decide)).trans (woken.mono (by decide)))⟩
  · rw [tenant n]
    exact ⟨same.queue n, same.pool n⟩
  · exact ((woken .bnd (by decide)).trans (captured .bnd (by decide))).trans status

/-! ## The drain -/

section
variable {s : State} {e : CaptureEntry} {rest : List CaptureEntry} {n : Tenant}

/-- While every quarter serves, the step drains the first entry that does not wait. -/
theorem captureStep_head (up : s.coreUp = true) (running : s.frame.running = true)
    (serve : ∀ q, q < 4 → s.quarterAway q = false) (fifo : s.pwr.capture = e :: rest) (free : s.capWaits e.word = false) :
    captureStep s = releaseWaiting (drainCapture s e) := by
  have awake : s.pwr.capture.foldl (fun s e => wakeQuarter s (capQuarter e.word)) s = s :=
    foldl_same (fun f : CaptureEntry => wakeQuarter_on serve (capQuarter_lt f.word)) _
  unfold captureStep
  rw [up, running, Bool.and_self, if_pos rfl]
  dsimp only
  rw [awake, capNext_head fifo free]

/-- An intake write that is well formed waits for its quarter and its credit alone. -/
theorem capWaits_write (kind : capKind e.word = 0) (serve : ∀ q, q < 4 → s.quarterAway q = false)
    (granted : s.mapOwner (field e.word 18 20 : BitVec 20).toNat = some n) (credit : (s.tenant n).credits ≠ 0) :
    s.capWaits e.word = false := by
  have quarter : capQuarter e.word = some (quarterOf (field e.word 18 20 : BitVec 20).toNat) := by
    unfold capQuarter
    rw [kind]
    rfl
  unfold State.capWaits
  rw [quarter, kind, granted]
  simp only [serve _ (quarterOf_lt _), beq_false_of_ne credit, Bool.and_false, Bool.or_self]

/-- A captured write of the right form is charged to the pool of its range and goes through the front end. -/
theorem applyCaptured_write (kind : capKind e.word = 0) (form : (field e.word 14 4 : BitVec 4) = 0)
    (granted : s.mapOwner (field e.word 18 20 : BitVec 20).toNat = some n) : applyCaptured s e.word =
      frontEnd (takeCredit s n) (field e.word 18 20) (field e.word 38 16) (field e.word 54 7) := by
  unfold applyCaptured
  rw [kind]
  dsimp only
  rw [form, granted]
  exact if_pos rfl

/-- A captured write of a granted range, on its way out of the FIFO, enters the queue with its credit taken. -/
theorem drainCapture_queues (coherent : Coherent s) (clean : s.Clean) (mode : s.hm.safeMin = false)
    (fifo : s.pwr.capture = e :: rest) (kind : capKind e.word = 0) (form : (field e.word 14 4 : BitVec 4) = 0)
    (granted : s.mapOwner (field e.word 18 20 : BitVec 20).toNat = some n) (standing : s.resetting n = false)
    (own : s.intake.ownerCheck = true → (field e.word 54 7 : BitVec 7) = n.setWidth 7 ∨ (field e.word 54 7 : BitVec 7) = 64) :
    let u := s.setPwr { s.pwr with capture := rest, captureAll := s.pwr.captureAll && !rest.isEmpty }
    drainCapture s e = enqueue (takeCredit u n) n
      ⟨.edge (field e.word 54 7), field e.word 18 20, field e.word 38 16, .crossbar⟩ := by
  rw [drainCapture_clean clean, fifo, List.erase_cons_head]
  intro u
  have wf : Sparse.wf {} u.ten.recs = true := coherent.tenCanonical.recs
  obtain ⟨hm, intake, -, -, map, resetting⟩ := takeCredit_checks (s := u) n wf
  exact (applyCaptured_write (s := u) kind form granted).trans (frontEnd_queues ((congrArg HmUnit.safeMin hm).trans mode)
    ((map _).trans granted) ((resetting n).trans standing) fun check => own (intake ▸ check))

/-- An entry that enters a queue with its credit taken: whether the credit was the last decides what else is recorded. -/
theorem enqueue_takeCredit_effect {u : State} (sys : CanonicalSys u.sys) (wf : Sparse.wf {} u.ten.recs = true) (n : Tenant)
    (q : QEntry) :
    let t := enqueue (takeCredit u n) n q
    (t.tenant n).queue = (u.tenant n).queue ++ [q] ∧ (t.tenant n).credits = (u.tenant n).credits - 1 ∧
      (∀ m, m ≠ n → t.tenant m = u.tenant m) ∧
      ((u.tenant n).credits ≠ 1 → t.tenant n = { u.tenant n with
        queue := (u.tenant n).queue ++ [q], credits := (u.tenant n).credits - 1 } ∧ OnlyChanges [.ten] u t) ∧
      ((u.tenant n).credits = 1 → (t.tenant n).intakeStatus = (u.tenant n).intakeStatus ||| 1 ∧
        t.level (0x440 + n.toNat) = true) := by
  obtain ⟨zero, frames, status, charged⟩ := takeCredit_record n wf
  have queued := enqueue_takeCredit wf n q
  have last := queued
  rw [charged] at queued
  refine ⟨by rw [queued], by rw [queued], fun m other => (modTenant_ne n m _ other).trans (takeCredit_tenant_ne n m other),
    fun more => ?_, fun one => ?_⟩
  · have left : (u.tenant n).credits - 1 ≠ 0 := fun zero => more (by bv_omega)
    rw [takeCredit_more n left] at last ⊢
    rw [State.setTenant_tenant_self _ _ _ wf] at last
    exact ⟨last, (setTenant_only _ _).trans (enqueue_only _ _ _)⟩
  · have left : (u.tenant n).credits - 1 = 0 := by rw [one]; rfl
    rw [takeCredit_tenant wf n, if_pos left] at last
    exact ⟨by rw [last], takeCredit_level sys n left⟩

end

theorem captureDrainEnqueues : Claims.CaptureDrainEnqueues := by
  intro e rest n s coherent clean settled up running mode serve fifo kind v owner entry form granted standing own credit
  have step := captureStep_head up running serve fifo (capWaits_write kind serve granted credit)
  rw [drainCapture_queues coherent clean mode fifo kind form granted standing own] at step
  have left := setPwr_only (s := s) { s.pwr with capture := rest, captureAll := s.pwr.captureAll && !rest.isEmpty }
  generalize drained : s.setPwr { s.pwr with capture := rest, captureAll := s.pwr.captureAll && !rest.isEmpty } = u
    at step left
  have sys : u.sys = s.sys := left .sys (by decide)
  have ten : u.ten = s.ten := left .ten (by decide)
  obtain ⟨queue, credits, others, more, last⟩ := enqueue_takeCredit_effect (by rw [sys]; exact coherent.sysCanonical)
    (by rw [ten]; exact coherent.tenCanonical.recs) n entry
  rw [tenant_congr ten n] at queue credits more last
  have entered := (takeCredit_only u n).trans ((enqueue_only _ n entry).mono (by decide))
  have changes := (left.mono (b := [.ten, .sys, .pwr]) (by decide)).trans entered
  obtain ⟨kept, -, -, waits, -, -⟩ := (takeCredit_fifo u n).trans (t := takeCredit u n) (.of_pwr
    (enqueue_only (takeCredit u n) n entry .pwr (by decide)))
  have waiting : u.pwr.waiting = s.pwr.waiting := by rw [← drained]; rfl
  have rests : (enqueue (takeCredit u n) n entry).Settled :=
    ⟨waits.trans (waiting.trans settled.waiting),
      by rw [show _ = s.tgt from changes .tgt (by decide)]; exact settled.notices,
      by rw [show _ = s.mbx from changes .mbx (by decide)]; exact settled.loads,
      by rw [show _ = s.acu from changes .acu (by decide)]; exact settled.debug⟩
  rw [releaseWaiting_none rests] at step
  refine ⟨_, congrArg Host.Outcome.next step, kept.trans ?_, queue, credits,
    fun m other => (others m other).trans (tenant_congr ten m), fun several => ?_, last, changes⟩
  · rw [← drained]; rfl
  · obtain ⟨record, only⟩ := more several
    exact ⟨record, (left.mono (by decide)).trans (only.mono (by decide))⟩

/-- Settles O14: a captured request stands last in the FIFO, its pool as it was; drained, it is charged and queued. -/
theorem captureFifo : Obligations.CaptureFifo := ⟨intakeWriteCaptured, captureDrainEnqueues⟩

end Sys2Proof.Machine
end

section
/-! The phases, deadline and timeout of an exit; a supply that fails under a running domain, and the calibration of
LKT_CLK (R313, R315, R321, R338, R387). -/
namespace Sys2Proof.Machine
open Sys2Proof

section
variable {s t : State} {d : BitVec 4} {q : DomainRec}

/-! ## S:0x27B after a write of a domain -/

theorem setDom_isOn_ne {k n : Nat} (other : k ≠ n) (q : DomainRec) : (s.setDom n q).isOn k = s.isOn k := by
  unfold State.isOn
  rw [setDom_ne n k q other]

/-- With CORE ON the raise of S:0x27B leaves the domains as written. -/
theorem domainReported (coherent : Coherent s) (core : (s.setDom d.toNat q).isOn dCORE = true) :
    let t := raiseSource (s.setDom d.toNat q) 0x27B
    t.dom d.toNat = q ∧ (∀ k, k ≠ d.toNat → t.dom k = s.dom k) ∧ (t.latch 0x27B).arrival = true ∧
      OnlyChanges [.pwr, .sys] s t := by
  obtain ⟨arrived, -, raised⟩ := raiseSource_effect (s := s.setDom d.toNat q) coherent.sysCanonical (n := 0x27B) (by decide) core
  have dom := dom_congr (raised .pwr (by decide))
  exact ⟨(dom _).trans (setDom_self coherent.pwrCanonical _ q), fun k other => (dom k).trans (setDom_ne _ k q other), arrived,
    ((setDom_only _ q).mono (by decide)).trans (raised.mono (by decide))⟩

/-! ## The phases (R313, R315) -/

section
variable {frm : PState} {p : Phase} {retry : Bool} (exiting : (s.dom d.toNat).trans = .exiting frm p retry)
include exiting

theorem inPhase_exiting : inPhase s d.toNat p = true := by
  unfold inPhase
  rw [exiting]
  exact beq_self_eq_true p

theorem toPhase_exiting (next : Phase) :
    toPhase s d.toNat next = s.setDom d.toNat { s.dom d.toNat with trans := .exiting frm next retry } := by
  unfold toPhase
  dsimp only
  rw [exiting]

theorem exec_phaseDeadline : let u := s.setDom d.toNat { s.dom d.toNat with deadline := true, lateSeen := true }
    exec (.phaseDeadline d) s = .next (if (s.dom d.toNat).lateSeen then u else raiseSource u 0x27B) := by
  refine congrArg Host.Outcome.next ?_
  dsimp only
  rw [exiting]

end

/-- The first timeout lets the lines of the domain go from the retention check and starts anew from OFF. -/
theorem exec_exitTimeout_first {frm : PState} {p : Phase} (exiting : (s.dom d.toNat).trans = .exiting frm p false) :
    let u := s.setPwr { s.pwr with retLines := s.pwr.retLines.filter fun l => lineDomain l.1 != d.toNat }
    exec (.exitTimeout d) s = .next (u.setDom d.toNat { s.dom d.toNat with
      state := .off, trans := .exiting .off .regulator true, logicSeen := false }) := by
  refine congrArg Host.Outcome.next ?_
  dsimp only
  rw [exiting]

theorem exec_exitTimeout_second {frm : PState} {p : Phase} (exiting : (s.dom d.toNat).trans = .exiting frm p true) :
    exec (.exitTimeout d) s = .next (raiseSource (s.setDom d.toNat { s.dom d.toNat with
      state := .off, trans := .none, failed := true, stuck := true, logicSeen := false }) 0x27B) := by
  refine congrArg Host.Outcome.next ?_
  dsimp only
  rw [exiting]

end

/-- Settles O41: each event of an exit writes the record of its domain; a deadline's first mark and the second timeout raise
S:0x27B too. -/
theorem exitAdvances : Obligations.ExitAdvances := by
  intro d frm p retry s coherent core other exiting r becomes
  have silent {i : Instr} {u : State} {q : DomainRec} (run : exec i s = .next (u.setDom d.toNat q))
      (pwr : CanonicalPwr u.pwr) (kept : OnlyChanges [.pwr] s u) (doms : ∀ k, u.dom k = s.dom k) : becomes i q false :=
    ⟨_, run, setDom_self pwr _ q, fun k ne => (setDom_ne _ k q ne).trans (doms k), fun no => absurd no (by decide),
      fun _ => kept .sys (by decide), (kept.mono (by decide)).trans ((setDom_only _ q).mono (by decide))⟩
  have writes {i : Instr} {q : DomainRec} (run : exec i s = .next (s.setDom d.toNat q)) : becomes i q false :=
    silent run coherent.pwrCanonical (.refl _ s) fun _ => rfl
  have reports {i : Instr} {q : DomainRec} (run : exec i s = .next (raiseSource (s.setDom d.toNat q) 0x27B)) :
      becomes i q true := by
    obtain ⟨here, rest, arrived, only⟩ :=
      domainReported (q := q) coherent ((setDom_isOn_ne (fun e => other e.symm) q).trans core)
    exact ⟨_, run, here, rest, fun _ => arrived, fun no => absurd no (by decide), only⟩
  refine ⟨fun first => writes ?_, fun second => writes ?_, ?_, fun once => ?_, fun twice => reports ?_⟩
  · subst first
    exact congrArg Host.Outcome.next ((if_pos (inPhase_exiting exiting)).trans (toPhase_exiting exiting _))
  · subst second
    exact congrArg Host.Outcome.next ((if_pos (inPhase_exiting exiting)).trans (toPhase_exiting exiting _))
  · have run := exec_phaseDeadline exiting
    cases late : r.lateSeen with
    | true => exact writes (run.trans (congrArg Host.Outcome.next (if_pos late)))
    | false => exact reports (run.trans (congrArg Host.Outcome.next (if_neg (Bool.eq_false_iff.mp late))))
  · subst once
    exact silent (exec_exitTimeout_first exiting) ⟨coherent.pwrCanonical.domains⟩ (setPwr_only _) fun _ => rfl
  · subst twice
    exact exec_exitTimeout_second exiting

/-- Settles O43: the record keeps the domain ON while it marks the failure, so that S:0x27B is raised and the fatal request
made; a count below 2^18 is kept as it is. -/
theorem supplyAndClock : Obligations.SupplyAndClock := by
  intro s coherent core
  refine ⟨fun d low high on still reset powered => ?_, fun count small => ?_⟩
  · have run : exec (.regRdyFall d) s =
        .next (fatalRequest (raiseSource (s.setDom d.toNat { s.dom d.toNat with failed := true }) 0x27B)) :=
      congrArg Host.Outcome.next (if_pos ⟨low, high, on, still, by rw [reset]; rfl, powered⟩)
    have running : (s.setDom d.toNat { s.dom d.toNat with failed := true }).isOn dCORE = true := by
      by_cases same : dCORE = d.toNat
      · unfold State.isOn
        rw [same, setDom_self coherent.pwrCanonical]
        exact Bool.and_eq_true_iff.mpr ⟨beq_iff_eq.mpr on, beq_iff_eq.mpr still⟩
      · exact (setDom_isOn_ne same _).trans core
    obtain ⟨here, -, arrived, only⟩ := domainReported coherent running
    generalize raiseSource (s.setDom d.toNat { s.dom d.toNat with failed := true }) 0x27B = w at run here arrived only
    exact ⟨_, run, here, congrArg (fun u : RasUnit => { u with fatal := true, fatalReq := true }) (only .ras (by decide)),
      arrived, (only.mono (by decide)).trans ((setRas_only _).mono (by decide))⟩
  · refine ⟨_, congrArg Host.Outcome.next (if_pos (works_of_isOn core)), ?_, setPwr_only _⟩
    rw [if_pos small]
    rfl

end Sys2Proof.Machine
end

section
/-! Wear, LIFE_DAYS, the flash copy, and the retirement of rows (R342, R343, R344). -/
namespace Sys2Proof.Machine
open Sys2Proof

/-! ## LIFE_DAYS -/

section
variable {s t : State}

theorem raiseSource_canonicalSys (sys : CanonicalSys s.sys) {n : Nat} (defined : sysDefined n = true)
    (core : s.isOn dCORE = true) : CanonicalSys (raiseSource s n).sys := by
  rw [raiseSource_on defined core]
  have latch := Sparse.wf_set {} s.sys.latch n ({ s.latch n with arrival := true } : SysLatch) sys.latch
  exact ⟨latch, sys.levels, sys.held, sys.linkFell⟩

/-- The figure is one of the reliability unit, and not of the LIFE_DAYS that it was last shown as. -/
theorem lifeFigure_congr (same : t.ras = { s.ras with lifeDays := t.ras.lifeDays }) : t.lifeFigure = s.lifeFigure := by
  unfold State.lifeFigure State.sparesLeft
  rw [same]
  rfl

theorem refreshLife_ras (s : State) : (refreshLife s).ras = { s.ras with lifeDays := BitVec.ofNat 32 s.lifeFigure } :=
  setLevel_only _ _ _ .ras (by decide)

theorem refreshLife_only (s : State) : OnlyChanges [.ras, .sys, .pwr] s (refreshLife s) :=
  ((setRas_only _).mono (by decide)).trans ((setLevel_only _ _ _).mono (by decide))

theorem refreshLife_lifeFigure (s : State) : (refreshLife s).lifeFigure = s.lifeFigure :=
  lifeFigure_congr (by rw [refreshLife_ras])

/-- With CORE ON the level of S:0x262 moves no other source. -/
theorem refreshLife_core (sys : CanonicalSys s.sys) (core : s.isOn dCORE = true) :
    (∀ k, k ≠ 0x262 → (refreshLife s).latch k = s.latch k) ∧ OnlyChanges [.ras, .sys] s (refreshLife s) := by
  unfold refreshLife
  dsimp only
  obtain ⟨-, -, others, -, only⟩ := setLevel_effect
    (s := s.setRas { s.ras with lifeDays := BitVec.ofNat 32 s.lifeFigure }) sys (n := 0x262) (by decide) core
    ((List.range 48).any fun b => !s.bankOut b && decide (s.sparesLeft b < 4))
  exact ⟨others, ((setRas_only _).mono (by decide)).trans (only.mono (by decide))⟩

end

theorem wearCounted : Claims.WearCounted := by
  intro s
  have powered {i : Instr} {t : State} (power : s.hm.powerOff = false)
      (run : exec i s = .next (if s.hm.powerOff then s else t)) : exec i s = .next t := by
    rw [run, power]
    rfl
  refine ⟨fun temp power => ⟨_, powered power rfl, rfl, setRas_only _⟩,
    fun temp power => ⟨_, powered power rfl, rfl, setRas_only _⟩, fun power => ?_, fun ready alive => ?_⟩
  · refine ⟨_, powered power rfl, ?_, ((setRas_only _).mono (by decide)).trans (refreshLife_only _)⟩
    rw [refreshLife_ras, refreshLife_lifeFigure]
    rfl
  · exact ⟨_, congrArg Host.Outcome.next (if_pos (by rw [ready, alive]; rfl)), rfl, setRas_only _⟩

/-! ## The retirement of a row -/

/-- The unit once a row due for retirement is dealt with: the due list and the record of its bank are without it. -/
def rowForgotten (u : RasUnit) (bank : Nat) (row : BitVec 14) : RasUnit := { u with
  dueRetire := u.dueRetire.filter fun e => e != (bank, row)
  records := Sparse.set [] u.records bank ((Sparse.get [] u.records bank).filter fun e => e.row != row) }

/-- The unit with the row moved to spare `k` (R342, R343). -/
def rowMoved (u : RasUnit) (bank : Nat) (row : BitVec 14) (k : Nat) : RasUnit := { rowForgotten u bank row with
  fieldStore := u.fieldStore ++ [(bank, row, k)], retiredEv := true, retiredRows := satInc u.retiredRows
  retireHours := u.retireHours ++ [(bank, u.poweredHours.toNat)] }

theorem mem_rowForgotten_dueRetire {u : RasUnit} {bank : Nat} {row : BitVec 14} {e : Nat × BitVec 14} :
    e ∈ (rowForgotten u bank row).dueRetire ↔ e ∈ u.dueRetire ∧ e ≠ (bank, row) := by
  unfold rowForgotten
  rw [List.mem_filter, bne_iff_ne]

section
variable {s : State} {bank : Nat} {row : BitVec 14}

theorem retireRow_none (none : s.freeSpare bank = none) :
    retireRow s bank row = s.setRas { rowForgotten s.ras bank row with retireFailed := true } := by
  unfold retireRow
  dsimp only
  rw [none]
  rfl

/-- With no stored error the copy to the spare leaves every line as it stands. -/
theorem retireRow_some (clean : s.Clean) {k : Nat} (spare : s.freeSpare bank = some k) :
    retireRow s bank row = refreshLife (raiseSource (s.setRas (rowMoved s.ras bank row k)) 0x261) := by
  unfold retireRow
  dsimp only
  rw [spare, readLine_clean clean, wroteLine_clean clean]
  rfl

theorem retireRow_some_effect (coherent : Coherent s) (clean : s.Clean) (core : s.isOn dCORE = true) {k : Nat}
    (spare : s.freeSpare bank = some k) :
    let t := retireRow s bank row
    (∃ days, t.ras = { rowMoved s.ras bank row k with lifeDays := days }) ∧ (t.latch 0x261).arrival = true ∧
      OnlyChanges [.ras, .sys] s t := by
  rw [retireRow_some clean spare]
  obtain ⟨arrived, -, raised⟩ := raiseSource_effect (s := s.setRas (rowMoved s.ras bank row k)) coherent.sysCanonical
    (n := 0x261) (by decide) core
  have canonical := raiseSource_canonicalSys (s := s.setRas (rowMoved s.ras bank row k)) coherent.sysCanonical (n := 0x261)
    (by decide) core
  obtain ⟨others, only⟩ := refreshLife_core canonical ((isOn_congr (raised .pwr (by decide)) _).trans core)
  have ras := refreshLife_ras (raiseSource (s.setRas (rowMoved s.ras bank row k)) 0x261)
  rw [show _ = rowMoved s.ras bank row k from raised .ras (by decide)] at ras
  refine ⟨⟨_, ras⟩, ?_, (((setRas_only _).mono (by decide)).trans (raised.mono (by decide))).trans only⟩
  rw [others 0x261 (by decide)]
  exact arrived

end

theorem rowRetired : Claims.RowRetired := by
  intro bank row s coherent clean core due stands
  have run : exec (.rowRetire bank row) s = .next (retireRow s bank.toNat row) :=
    congrArg Host.Outcome.next (if_pos ⟨due, stands⟩)
  have gone : (bank.toNat, row) ∉ (rowForgotten s.ras bank.toNat row).dueRetire := fun still =>
    (mem_rowForgotten_dueRetire.mp still).2 rfl
  refine ⟨fun k spare => ?_, fun none => ?_⟩
  · obtain ⟨⟨days, ras⟩, arrived, only⟩ := retireRow_some_effect (row := row) coherent clean core spare
    refine ⟨_, run, by rw [ras]; rfl, by rw [ras]; rfl, by rw [ras]; rfl, by rw [ras]; exact gone, fun e other => ?_, arrived,
      ⟨by rw [ras]; exact clean.errs, by rw [ras]; exact clean.uncounted, by rw [ras]; exact clean.arm⟩, only⟩
    rw [ras]
    exact mem_rowForgotten_dueRetire.trans (and_iff_left other)
  · rw [retireRow_none none] at run
    exact ⟨_, run, rfl, rfl, gone, setRas_only _⟩

/-- Settles O45. The units that an aged hour adds are rounded down to 1/65,536 hour, the model's choice of log entry 22. -/
theorem wearAndRepair : Obligations.WearAndRepair := ⟨wearCounted, rowRetired⟩

end Sys2Proof.Machine
end

section
/-! Parity errors of internal buses, and the scrub of CTRL RAM (R335, R337, R338, R340). -/
namespace Sys2Proof.Machine
open Sys2Proof

/-! ## A beat in error -/

/-- The unit with a parity error of an internal bus counted (R337). -/
def parityCounted (u : RasUnit) : RasUnit := { u with busParity := true, parity := satInc u.parity }

/-- The block once a parity error is counted and S:0x264 raised. -/
def parityReported (s : State) : State := raiseSource (s.setRas (parityCounted s.ras)) 0x264

section
variable {s : State}

section
variable (reset : s.hm.inReset = none) (power : s.hm.powerOff = false)
include reset power

theorem exec_internalBusParityError_once (path : BusPath) :
    exec (.internalBusParityError path false) s = .next (parityReported s) := by
  refine congrArg Host.Outcome.next ?_
  rw [reset, power]
  rfl

theorem exec_internalBusParityError_fatal {path : BusPath} (fatal : path = .other ∨ ∃ n, path = .fabricInbound n) :
    exec (.internalBusParityError path true) s = .next (fatalRequest (parityReported s)) := by
  refine congrArg Host.Outcome.next ?_
  rw [reset, power]
  rcases fatal with rfl | ⟨n, rfl⟩ <;> rfl

theorem exec_internalBusParityError_engine {p : BitVec 3} {e : BitVec 2}
    (serves : (parityReported s).servedBy p = some e) :
    exec (.internalBusParityError (.engine p) true) s = .next (engineFault (parityReported s) e) := by
  unfold parityReported parityCounted at serves ⊢
  refine congrArg Host.Outcome.next ?_
  rw [reset, power]
  dsimp only
  rw [serves]
  rfl

end

theorem parityReported_effect (sys : CanonicalSys s.sys) (core : s.isOn dCORE = true) :
    (parityReported s).ras = parityCounted s.ras ∧ ((parityReported s).latch 0x264).arrival = true ∧
      CanonicalSys (parityReported s).sys ∧ OnlyChanges [.ras, .sys] s (parityReported s) := by
  obtain ⟨arrived, -, raised⟩ := raiseSource_effect (s := s.setRas (parityCounted s.ras)) sys (n := 0x264) (by decide) core
  exact ⟨raised .ras (by decide), arrived,
    raiseSource_canonicalSys (s := s.setRas (parityCounted s.ras)) sys (n := 0x264) (by decide) core,
    ((setRas_only _).mono (by decide)).trans (raised.mono (by decide))⟩

/-! ## The fault of an engine (R126) -/

theorem logical_congr {t : State} (h : t.tgt = s.tgt) (e : BitVec 2) : t.logical e = s.logical e := by
  unfold State.logical
  rw [h]

theorem servedBy_congr {t : State} (h : t.tgt = s.tgt) (p : BitVec 3) : t.servedBy p = s.servedBy p := by
  unfold State.servedBy
  simp only [logical_congr h]

theorem logical_of_servedBy {p : BitVec 3} {e : BitVec 2} (serves : s.servedBy p = some e) : s.logical e = p := by
  have found := List.find?_some serves
  exact beq_iff_eq.mp found

/-- A logical engine written: it is served by `p`, and the tables keep what is not the mapping. -/
theorem setLogical_effect (e : BitVec 2) (p : BitVec 3) : (setLogical s e p).logical e = p ∧
    (setLogical s e p).tgt.retired = s.tgt.retired ∧ (setLogical s e p).tgt.engineFault = s.tgt.engineFault ∧
    (setLogical s e p).tgt.spareInUse = s.tgt.spareInUse ∧ OnlyChanges [.tgt] s (setLogical s e p) := by
  have four : e = 0 ∨ e = 1 ∨ e = 2 ∨ e = 3 := by revert e; decide
  rcases four with rfl | rfl | rfl | rfl <;> exact ⟨rfl, rfl, rfl, rfl, setTgt_only _⟩

/-- The engine file with an engine retired and the spare in its place. -/
def spareTaken (u : TgtUnit) (p : BitVec 3) : TgtUnit :=
  { u with retired := u.retired ||| BitVec.twoPow 5 p.toNat, engineFault := true, spareInUse := true }

theorem engineFault_spare {p : BitVec 3} {e : BitVec 2} (serves : s.logical e = p) (engine : p.toNat < 4)
    (free : s.spareFree = true) :
    engineFault s e = raiseSource (setLogical (s.setTgt (spareTaken s.tgt p)) e 4) 0x263 := by
  have stands : (s.setTgt { s.tgt with retired := s.tgt.retired ||| BitVec.twoPow 5 p.toNat, engineFault := true }).spareFree
      = true := by
    have other : (BitVec.twoPow 5 p.toNat).getLsbD 4 = false := by
      rw [BitVec.getLsbD_twoPow]
      simp only [Bool.and_eq_false_iff, decide_eq_false_iff_not]
      omega
    unfold State.spareFree at free ⊢
    rw [show (s.setTgt { s.tgt with
        retired := s.tgt.retired ||| BitVec.twoPow 5 p.toNat, engineFault := true }).tgt.retired.getLsbD 4
      = s.tgt.retired.getLsbD 4 from (BitVec.getLsbD_or ..).trans (by rw [other, Bool.or_false])]
    exact free
  have known : ¬ p = 7 := fun seven => absurd engine (by rw [seven]; decide)
  unfold engineFault
  dsimp only
  rw [serves, if_neg known, if_pos stands]
  rfl

end

theorem busParityErrors : Claims.BusParityErrors := by
  intro s coherent core reset power
  obtain ⟨ras, arrived, canonical, only⟩ := parityReported_effect coherent.sysCanonical core
  refine ⟨fun path => ⟨_, exec_internalBusParityError_once reset power path, ras, arrived, only⟩, fun path lost => ?_,
    fun p e serves engine free => ?_⟩
  · exact ⟨_, exec_internalBusParityError_fatal reset power lost,
      congrArg (fun u : RasUnit => { u with fatal := true, fatalReq := true }) ras, arrived,
      only.trans ((setRas_only _).mono (by decide))⟩
  · have tgt : (parityReported s).tgt = s.tgt := only .tgt (by decide)
    have faults := exec_internalBusParityError_engine reset power ((servedBy_congr tgt p).trans serves)
    have spare : (parityReported s).spareFree = true := by
      unfold State.spareFree at free ⊢
      rw [tgt]
      exact free
    rw [engineFault_spare ((logical_congr tgt e).trans (logical_of_servedBy serves)) engine spare, tgt] at faults
    obtain ⟨logical, retired, fault, inUse, mapped⟩ :=
      setLogical_effect (s := (parityReported s).setTgt (spareTaken s.tgt p)) e 4
    have written := ((setTgt_only (s := parityReported s) (spareTaken s.tgt p)).trans mapped)
    generalize setLogical _ e 4 = w at faults logical retired fault inUse written
    have sys : w.sys = (parityReported s).sys := written .sys (by decide)
    obtain ⟨raised, -, raise⟩ := raiseSource_effect (s := w) (by rw [sys]; exact canonical) (n := 0x263) (by decide)
      ((isOn_congr ((written .pwr (by decide)).trans (only .pwr (by decide))) _).trans core)
    have kept : (raiseSource w 0x263).tgt = w.tgt := raise .tgt (by decide)
    exact ⟨_, faults, (logical_congr kept e).trans logical, by rw [kept, retired]; rfl, by rw [kept, fault]; rfl,
      by rw [kept, inUse]; rfl, raised,
      (only.mono (by decide)).trans ((written.mono (by decide)).trans (raise.mono (by decide)))⟩

/-! ## The scrub of CTRL RAM (R335, R340) -/

section
variable {s : State} {l : LineId} {e : BitVec 280}

theorem lineErr_setErr_new (clean : s.Clean) (wrong : e ≠ 0) : (s.setErr l e).lineErr l = e := by
  unfold State.lineErr
  rw [setErr_new clean.errs l e wrong]
  simp

theorem setErr_zero (s : State) (l : LineId) :
    s.setErr l 0 = s.setRas { s.ras with errs := s.ras.errs.filter fun p => p.1 != l } :=
  congrArg (fun errs => s.setRas { s.ras with errs := errs }) (if_pos rfl)

/-- A written line has no error vector, and waits for nothing. -/
theorem freshLine_eq (s : State) (l : LineId) : freshLine s l = s.setRas { s.ras with
    errs := s.ras.errs.filter fun p => p.1 != l, uncounted := s.ras.uncounted.filter (· != l)
    writeBack := s.ras.writeBack.filter (· != l) } := by
  unfold freshLine
  rw [setErr_zero]
  rfl

/-- An uncorrectable line of CTRL RAM is marked and counted; nothing else of the lines' state moves (R336). -/
theorem noteUncorrectable_ctrl (foundBy : BitVec 3) (line : Nat) :
    let t := noteUncorrectable s foundBy ⟨.ctrl, 0, line⟩
    t.ras.uncorrCtrl = true ∧ t.ras.uncorrectable = satInc s.ras.uncorrectable ∧ t.ras.errs = s.ras.errs ∧
      t.ras.uncounted = s.ras.uncounted ∧ t.ras.arm = s.ras.arm ∧ OnlyChanges [.ras, .sys, .pwr] s t := by
  unfold noteUncorrectable
  dsimp only
  generalize marked : (if (markArray s.ras ArrayKind.ctrl).firstValid then _ else _ : RasUnit) = u
  have raised := raiseSource_only (s.setRas u) 0x260
  have ras : (raiseSource (s.setRas u) 0x260).ras = u := raised .ras (by decide)
  refine ⟨?_, ?_, ?_, ?_, ?_, ((setRas_only _).mono (by decide)).trans (raised.mono (by decide))⟩ <;>
    (rw [ras, ← marked]; split <;> rfl)

/-- An uncorrectable read of the one line in error leaves a clean block with the read recorded. -/
theorem readLine_uncorrectable (clean : s.Clean) (wrong : e ≠ 0) (line : Nat)
    (lost : decodeLine s.ras.freeReads e = .uncorrectable) :
    let t := readLine 4 true (s.setErr ⟨.ctrl, 0, line⟩ e) ⟨.ctrl, 0, line⟩
    t.ras.uncorrCtrl = true ∧ t.ras.uncorrectable = satInc s.ras.uncorrectable ∧ t.Clean ∧
      OnlyChanges [.ras, .sys, .pwr] s t := by
  have errs := setErr_new clean.errs ⟨.ctrl, 0, line⟩ e wrong
  have vector := lineErr_setErr_new (l := ⟨.ctrl, 0, line⟩) clean wrong
  have hit : OnlyChanges [.ras] s (s.setErr ⟨.ctrl, 0, line⟩ e) := setRas_only _
  have free : (s.setErr ⟨.ctrl, 0, line⟩ e).ras.freeReads = s.ras.freeReads := rfl
  have queued : (s.setErr ⟨.ctrl, 0, line⟩ e).ras.uncounted = [] := clean.uncounted
  have unarmed : (s.setErr ⟨.ctrl, 0, line⟩ e).ras.arm = false := clean.arm
  have before : (s.setErr ⟨.ctrl, 0, line⟩ e).ras.uncorrectable = s.ras.uncorrectable := rfl
  generalize s.setErr ⟨.ctrl, 0, line⟩ e = w at errs vector hit free queued unarmed before
  unfold readLine
  rw [vector, free, lost, errs, if_neg (by simp), if_neg wrong]
  dsimp only
  obtain ⟨k, drawn⟩ : ∃ k, (if symbolErrors e = 2 then w else w.setRas { w.ras with freeReads := s.ras.freeReads + 1 }) =
      w.setRas { w.ras with freeReads := k } := by
    split
    · exact ⟨w.ras.freeReads, rfl⟩
    · exact ⟨_, rfl⟩
  rw [drawn, freshLine_eq]
  generalize read : State.setRas (w.setRas { w.ras with freeReads := k }) _ = v
  have written : OnlyChanges [.ras] s v := by rw [← read]; exact (hit.trans (setRas_only _)).trans (setRas_only _)
  have vErrs : v.ras.errs = [] := by
    rw [← read]
    show w.ras.errs.filter _ = []
    rw [errs]
    simp
  have vUncounted : v.ras.uncounted = [] := by
    rw [← read]
    show w.ras.uncounted.filter _ = []
    rw [queued]
    rfl
  have vArm : v.ras.arm = false := by rw [← read]; exact unarmed
  have vCount : v.ras.uncorrectable = s.ras.uncorrectable := by rw [← read]; exact before
  obtain ⟨mark, count, kept, uncounted, arm, only⟩ := noteUncorrectable_ctrl (s := v) 4 line
  exact ⟨mark, count.trans (congrArg satInc vCount), ⟨kept.trans vErrs, uncounted.trans vUncounted, arm.trans vArm⟩,
    (written.mono (by decide)).trans only⟩

/-- A restart with the kernel loaded anew leaves the lines as they are. -/
theorem reloadFirmware_effect (s : State) :
    (reloadFirmware s).mbx.fw.alive = false ∧ (reloadFirmware s).mbx.fw.restart = true ∧
      (reloadFirmware s).mbx.fw.loads = true ∧ (reloadFirmware s).ras = s.ras := by
  obtain ⟨fw, only⟩ := restartFirmware_fw (reloadKernelRam s)
  unfold reloadFirmware
  generalize restartFirmware (reloadKernelRam s) = t at fw only
  exact ⟨congrArg FwUnit.alive fw, congrArg FwUnit.restart fw, rfl, only .ras (by decide)⟩

/-- An uncorrectable line of the kernel's part restarts the firmware (R335). -/
theorem scrubLine_kernel {line : Nat} (kernel : line < 8192) (running : s.mbx.fw.restart = false) (clean : s.Clean)
    (wrong : e ≠ 0) (lost : decodeLine s.ras.freeReads e = .uncorrectable) :
    let w := s.setErr ⟨.ctrl, 0, line⟩ e
    scrubLine w ⟨.ctrl, 0, line⟩ = reloadFirmware (readLine 4 true w ⟨.ctrl, 0, line⟩) := by
  intro w
  obtain ⟨-, -, -, only⟩ := readLine_uncorrectable clean wrong line lost
  have free : w.ras.freeReads = s.ras.freeReads := rfl
  have part : ctrlPart line = none := if_pos kernel
  have still : (readLine 4 true w ⟨.ctrl, 0, line⟩).mbx.fw.restart = false :=
    (congrArg (fun u : MbxUnit => u.fw.restart) (only .mbx (by decide))).trans running
  unfold scrubLine
  rw [lineErr_setErr_new clean wrong, free, lost]
  dsimp only
  rw [part, still]
  rfl

end

theorem controlRamScrubbed : Claims.ControlRamScrubbed := by
  intro s coherent clean kernel
  refine ⟨?_, fun line e low wrong lost => ?_⟩
  · refine congrArg Host.Outcome.next ?_
    dsimp only
    rw [kernel, List.filter_nil, List.foldl_nil, clean.errs]
    rfl
  · have running : s.mbx.fw.restart = false := by
      unfold State.kernelRuns at kernel
      simp only [Bool.and_eq_true, Bool.not_eq_true'] at kernel
      exact kernel.2
    have run : exec (.ctrlScrub [⟨⟨.ctrl, 0, line⟩, e⟩]) s =
        .next (scrubLine (s.setErr ⟨.ctrl, 0, line⟩ e) ⟨.ctrl, 0, line⟩) := by
      have struck : upset s ⟨⟨.ctrl, 0, line⟩, e⟩ = s.setErr ⟨.ctrl, 0, line⟩ e := by
        unfold upset
        dsimp only
        rw [lineErr_clean clean, show (0 : BitVec 280) ^^^ e = e from BitVec.zero_xor]
      refine congrArg Host.Outcome.next ?_
      dsimp only
      rw [kernel, show List.filter _ [(⟨⟨.ctrl, 0, line⟩, e⟩ : Upset)] = [⟨⟨.ctrl, 0, line⟩, e⟩] from rfl, List.foldl_cons,
        List.foldl_nil, struck, setErr_new clean.errs _ e wrong]
      rfl
    obtain ⟨mark, count, sound, -⟩ := readLine_uncorrectable clean wrong line lost
    obtain ⟨dead, restarts, loads, ras⟩ :=
      reloadFirmware_effect (readLine 4 true (s.setErr ⟨.ctrl, 0, line⟩ e) ⟨.ctrl, 0, line⟩)
    rw [scrubLine_kernel low running clean wrong lost] at run
    exact ⟨_, run, by rw [ras]; exact mark, by rw [ras]; exact count, dead, restarts, loads, sound.of_ras ras⟩

/-- Settles O46. That the lines below 8,192 are the kernel's is the model's numbering, log entry 16. -/
theorem fatalErrors : Obligations.FatalErrors := ⟨busParityErrors, controlRamScrubbed⟩

end Sys2Proof.Machine
end
